-- ==== Sys2Proof/Word.lean ====
section
/-! DEFINITION. The word types of the part and their plainest arithmetic (00_scope.md R9, R11). -/

namespace Sys2Proof

/-- One byte of memory. -/
abbrev Byte := BitVec 8
/-- One 32-bit register of the register file (Table 0.2). -/
abbrev Word := BitVec 32
/-- A 64-bit value: an even-odd pair of registers, a pointer or a counter (R12). -/
abbrev DWord := BitVec 64
/-- One 96-bit instruction slot (R47). -/
abbrev Slot := BitVec 96

/-- The value of a bit of a natural number, `x[n]` of R9. -/
def bitOf (x n : Nat) : Bool := x.testBit n

/-- `x[hi:lo]` of R9: bits hi down to lo, read as a natural number. -/
def bitsOf (x hi lo : Nat) : Nat := (x >>> lo) % 2 ^ (hi + 1 - lo)

/-- A natural number of `w` bits read as two's complement. -/
def toSigned (w x : Nat) : Int := if x.testBit (w - 1) then (x : Int) - 2 ^ w else x

/-- An exact integer narrowed to `w` bits (R11: a value is narrowed only by a slice). -/
def narrow (w : Nat) (v : Int) : Nat := (v % (2 ^ w : Int)).toNat

/-- ceil(a / b) for a nonzero b. -/
def ceilDiv (a b : Nat) : Nat := (a + b - 1) / b

end Sys2Proof
end

