-- ==== Sys2Proof/Syntax.lean ====
section
/-! DEFINITION. The instructions and events of spec/opcode_table.json as one inductive, with the operand forms
of 03_encoding_and_assembler.md (R53 to R62). A form is the slot with its fields pulled apart; whether a field's
content is legal for an instruction is WellFormed's question. -/

namespace Sys2Proof

/-- A predicate named in a guard: negate and number (R54). -/
structure PredRef where
  neg : Bool
  num : BitVec 4
  deriving DecidableEq, Repr

/-- Guard combine GC (R54). -/
inductive Combine where
  | single | both | either | reserved
  deriving DecidableEq, Repr

/-- The fields every format shares: the guard, the hint and the scheduling control (R53, R54, R64, R65). -/
structure Ctl where
  ga : PredRef
  gb : PredRef
  gc : Combine
  hint : BitVec 3
  stall : BitVec 3
  hold : Bool
  yld : Bool
  latch : BitVec 2
  deriving DecidableEq, Repr

/-- KIND of a destination (Table 3.5). -/
inductive DstKind where
  | vreg | pred | queue | conv
  deriving DecidableEq, Repr

/-- The destination field (Table 3.5). -/
structure Dst where
  wbs : Bool
  cap : Bool
  kind : DstKind
  num : BitVec 8
  deriving DecidableEq, Repr

/-- KIND of a source (Table 3.6). -/
inductive SrcKind where
  | vreg | scalar | latch | special
  deriving DecidableEq, Repr

/-- A source field (Table 3.6); OE as a second destination has the same three parts (R59). -/
structure Src where
  kind : SrcKind
  num : BitVec 8
  om : Bool
  deriving DecidableEq, Repr

/-- Common format (Table 3.4). -/
structure CFmt where
  ctl : Ctl
  dst : Dst
  sa : Src
  sb : Src
  sc : Src
  oe : Src
  md : BitVec 8
  deriving DecidableEq, Repr

/-- Immediate format (R60); `low` is bit 18. -/
structure IFmt where
  ctl : Ctl
  dst : Dst
  sa : Src
  imm : BitVec 32
  low : Bool
  md : BitVec 8
  deriving DecidableEq, Repr

/-- Branch format (R61, Table 3.8). -/
structure BFmt where
  ctl : Ctl
  dst : Dst
  disp : BitVec 30
  tslot : BitVec 3
  uni : Bool
  bopKind : SrcKind
  bopNum : BitVec 8
  md : BitVec 8
  deriving DecidableEq, Repr

/-- Memory format (R62). -/
structure MFmt where
  ctl : Ctl
  dst : Dst
  sa : Src
  sb : Src
  disp : BitVec 22
  md : BitVec 8
  deriving DecidableEq, Repr

/-- What a frame of a Hexavo port carries for the model (R360, R365): requests to this package, the replies to its
own requests, and the notice that a counter was advanced. -/
inductive HxOp where
  | write (ptr : DWord) (data : List Byte) (tag : Nat)
  | read (ptr : DWord) (len tag : Nat)
  | atom (ptr : DWord) (md : BitVec 8) (x : DWord) (tag : Nat)
  | cas (ptr : DWord) (width : Nat) (expect new : Nat) (tag : Nat)
  | signal (ptr : DWord) (inc tag : Nat)
  | reply (tag : Nat) (ok : Bool) (data : List Byte)
  deriving DecidableEq, Repr

/-- A PCIe IDE stream: selective or of a link, and its ID (R338). -/
structure IdeRef where
  sel : Bool
  id : Nat
  deriving DecidableEq, Repr

/-- The TDISP requests and events that move a TDI (R338). -/
inductive TdiReq where
  | lock | start | stop | breakLock
  deriving DecidableEq, Repr

/-- One constructor per row of spec/opcode_table.json. An instruction of the opcode map carries its fields; an event
carries the unit, the object or the input that it is about (a core k is 16 times its die plus its number). -/
inductive Instr where
  -- class 000 (07, Table 7.2)
  | iadd (f : CFmt)
  | iaddImm (f : IFmt)
  | isub (f : CFmt)
  | imul (f : CFmt)
  | imulImm (f : IFmt)
  | imad (f : CFmt)
  | imadw (f : CFmt)
  | imin (f : CFmt)
  | imax (f : CFmt)
  | iabs (f : CFmt)
  | and (f : CFmt)
  | andImm (f : IFmt)
  | or (f : CFmt)
  | orImm (f : IFmt)
  | xor (f : CFmt)
  | xorImm (f : IFmt)
  | andn (f : CFmt)
  | shl (f : CFmt)
  | shr (f : CFmt)
  | sar (f : CFmt)
  | fshl (f : CFmt)
  | bfx (f : CFmt)
  | bfi (f : CFmt)
  | popc (f : CFmt)
  | clz (f : CFmt)
  | brev (f : CFmt)
  | iset (f : CFmt)
  | isetImm (f : IFmt)
  | sel (f : CFmt)
  | mov (f : CFmt)
  | movi (f : IFmt)
  | lea (f : CFmt)
  | leaImm (f : IFmt)
  -- predicates, special registers, control (07, Table 7.3)
  | plop (f : CFmt)
  | p2v (f : CFmt)
  | v2p (f : CFmt)
  | mfs (f : CFmt)
  | bra (f : BFmt)
  | brx (f : CFmt)
  | call (f : BFmt)
  | ret (f : CFmt)
  | fork (f : BFmt)
  | retire (f : CFmt)
  | yieldI (f : CFmt)
  | nap (f : CFmt)
  | nop (f : CFmt)
  | time (f : CFmt)
  -- classes 001 and 010 (09, Table 9.2)
  | fadd (f : CFmt)
  | fsub (f : CFmt)
  | fmul (f : CFmt)
  | ffma (f : CFmt)
  | fmin (f : CFmt)
  | fmax (f : CFmt)
  | fminn (f : CFmt)
  | fmaxn (f : CFmt)
  | fset (f : CFmt)
  | fclass (f : CFmt)
  | frnd (f : CFmt)
  | fscale (f : CFmt)
  | fdot2 (f : CFmt)
  | frcp (f : CFmt)
  | frsq (f : CFmt)
  | fsqrt (f : CFmt)
  | fexp2 (f : CFmt)
  | flog2 (f : CFmt)
  | ftanh (f : CFmt)
  | fsinpi (f : CFmt)
  | fcospi (f : CFmt)
  | cvt (f : CFmt)
  | cvtmx (f : CFmt)
  | cvtx (f : CFmt)
  -- class 011 (09, Table 9.12)
  | qswp (f : CFmt)
  | qbc (f : CFmt)
  | shfl (f : CFmt)
  | vote (f : CFmt)
  | red (f : CFmt)
  | scan (f : CFmt)
  | matchI (f : CFmt)
  | elect (f : CFmt)
  | tile (f : CFmt)
  -- class 101 (11, Table 11.10)
  | ld (f : MFmt)
  | st (f : MFmt)
  | ldc (f : MFmt)
  | ldp (f : MFmt)
  | stp (f : MFmt)
  | pref (f : MFmt)
  | wbr (f : CFmt)
  | invr (f : CFmt)
  | fence (f : CFmt)
  | rfence (f : CFmt)
  | ipref (f : CFmt)
  | ipin (f : CFmt)
  | iunpin (f : CFmt)
  -- class 110 (15, Table 15.2)
  | atom (f : MFmt)
  | cas (f : MFmt)
  | mcas (f : CFmt)
  | atomp (f : MFmt)
  | cadd (f : MFmt)
  | craise (f : MFmt)
  | cread (f : MFmt)
  | cwait (f : MFmt)
  -- class 111 (17, Tables 17.2 and 17.13; 19, Table 19.10)
  | tdef (f : CFmt)
  | marm (f : CFmt)
  | msign (f : CFmt)
  | mbind (f : CFmt)
  | mbinds (f : CFmt)
  | mpair (f : CFmt)
  | munpair (f : CFmt)
  | macrd (f : CFmt)
  | macwr (f : CFmt)
  | macclr (f : CFmt)
  | mtest (f : CFmt)
  | mcap (f : CFmt)
  | qwr (f : CFmt)
  | qwrc (f : CFmt)
  | mts (f : CFmt)
  | trap (f : CFmt)
  | bpt (f : CFmt)
  | tret (f : CFmt)
  | haltg (f : CFmt)
  | qstat (f : CFmt)
  -- a slot whose opcode Table 3.9 leaves unassigned (R70)
  | unassignedOpcode (w : Slot)
  -- events: groups, slices, instruction lines
  | clusterPlacement (grid : Nat)
  | groupEnd (gid : Nat)
  | quadSlotReturn (gid q : Nat)
  | bundleFormation (k sl : Nat)
  | holdRunTimeout (k sl : Nat)
  | budgetPeriod
  | napExpiry (gid fib : Nat)
  | lineFill (k vf code off : Nat) (dmg1 dmg2 : BitVec 512)
  | bufferEntryArrival (k vf idx : Nat)
  -- events: fabric and homes (a message is named by its number)
  | replyArrival (m : Nat)
  | homeFaultArrival (m : Nat)
  | homeStoreApply (m : Nat)
  | homeLoadPerform (m : Nat)
  | relaxedApply (m : Nat)
  | writeBack (m : Nat)
  | horizonBeat (a : Nat)
  | beatRecord (s a lane : Nat)
  | orderedSend (m : Nat)
  | routerMessage (m : Nat) (bad : Bool)
  | requestTimeout (m : Nat)
  | dieFailure (d : Nat)
  | dieRejoin (d : Nat)
  -- events: engines
  | cardAcceptance (c : Nat)
  | arming (gid kreg : Nat)
  | copyCardStart (d e : Nat)
  | copyLine (d e n : Nat)
  | engineCompletion (op : Nat)
  | descriptorAcceptance (gid kreg : Nat)
  | bindingLoad (k : Nat)
  | matrixPass (k : Nat)
  | selfTestInjection (k : Nat) (bad : BitVec 64)
  | resultPush (k : Nat)
  | pairedStart (k : Nat)
  | mpairTimeout (gid : Nat)
  -- events: atomics and counters
  | cwaitReply (w : Nat)
  | cwaitTimeout (w : Nat)
  | cwaitResend (w : Nat)
  | lockAndRead (x s : Nat)
  | mcasCommit (x s : Nat)
  | mcasLockTimeout (x : Nat)
  | mcasRestart (x : Nat)
  | mcasCancel (x : Nat)
  | atompRoutine (m : Nat)
  -- events: Halyard and gang switches (a partition is named by its leader)
  | submissionRingService (vf : Nat)
  | taskDispatch (vf : Nat)
  | gridCompletion (grid : Nat)
  | preemptionRequest (l : Nat)
  | switchTick (l : Nat)
  | prepare (l d : Nat)
  | ready (l d : Nat)
  | commit (l : Nat)
  | switchDeadline (l : Nat)
  | cancel (l : Nat)
  -- events: scrubbing and security commands (of the core k whose oldest command it is)
  | scrubOnchip (s : Nat)
  | scrubFrame (s : Nat)
  | rdreg (k : Nat)
  | wrreg (k : Nat)
  | keygen (k : Nat)
  | zeroise (k : Nat)
  | window (k : Nat)
  | assign (k : Nat)
  | scrub (k : Nat)
  | teardown (k : Nat)
  | invbuf (k : Nat)
  | invtlb (k : Nat)
  | invrtn (k : Nat)
  | install (k : Nat)
  | preempt (k : Nat)
  | securityStatus (k : Nat)
  -- events: consent, IDE, links
  | consent (vf win peer len : Nat) (rights : BitVec 4)
  | consentWithdrawal (vf win : Nat)
  | ideKeyProgramming (vf : Nat) (stream : IdeRef) (key : Nat)
  | linkSessionRequest (vf s port : Nat)
  | linkKeyRotation (s port : Nat)
  | rotationConfirmation (s port : Nat)
  | oldGenerationNotice (s port count : Nat)
  | hexavoFrame (s port : Nat) (kg tagOk : Bool) (ops : List HxOp)
  -- events: host, resets, alarms
  | hostWrite (vf off : Nat) (data : List Byte)
  | hostRead (vf off len : Nat)
  | hostFetchAdd (vf off size inc : Nat)
  | functionLevelReset (vf : Nat)
  | coldReset
  | warmReset
  | bringUp (ok : Bool)
  | alarmEvent (sensor : Nat)
  | thermalTrip (d : Nat)
  | remapTableError (s bank : Nat) (both : Bool)
  -- events: register writes, power, time
  | partcfgWrite (v : BitVec 64)
  | vfbindWrite (n : Nat) (v : BitVec 128)
  | scwayWrite (s n : Nat) (v : BitVec 64)
  | aquotaWrite (s n : Nat) (v : BitVec 64)
  | cquotaWrite (d n : Nat) (v : BitVec 32)
  | tickpWrite (l : Nat) (v : BitVec 32)
  | subqWrite (n : Nat) (v : BitVec 256)
  | alarmpolWrite (v : BitVec 32)
  | cstatWrite (vf : Nat) (v : BitVec 32)
  | dieOff (d : Nat)
  | dieHold (d : Nat)
  | l2 (d : Nat)
  | l1 (d : Nat)
  | l0 (d : Nat)
  | dieWakeComplete (d : Nat)
  | selfref (s : Nat)
  | active (s : Nat)
  | pwrcapWrite (v : BitVec 32)
  | registerWrite (num unit : Nat) (v : BitVec 256)
  | powerArbitration (dieW stkW : List Nat)
  | timeSync (u : Nat) (rate : BitVec 64)
  -- events: collectives (instance i of collective c)
  | collectiveInstanceStart (c i : Nat)
  | collectiveCompletion (c : Nat)
  | csrCadd (c i : Nat)
  | csrCraise (c i : Nat)
  | csrCread (c i : Nat)
  | csrCwait (c i : Nat)
  | hxsend (c i : Nat)
  | hxsendComplete (c i : Nat)
  | cabrt (c i : Nat)
  | tdispRequest (vf : Nat) (r : TdiReq)
  | instanceInstruction (c i : Nat)
  | linkTrained (s port : Nat) (up : Bool)
  -- events: SPDM
  | getVersion (vf : Nat)
  | getCapabilities (vf : Nat)
  | negotiateAlgorithms (vf : Nat)
  | getDigests (vf : Nat)
  | getCertificate (vf : Nat)
  | challenge (vf nonce : Nat)
  | getMeasurements (vf idx : Nat)
  | keyExchange (vf : Nat)
  | finish (vf : Nat)
  | keyUpdate (vf : Nat)
  | endSession (vf : Nat)
  deriving DecidableEq, Repr

end Sys2Proof
end

