-- ==== Sys2Proof/Machine/State.lean ====
section
/-! DEFINITION. The state of the package as plain data: fibres, groups, cores, dies, stacks, masthead, contexts, what
is in flight between them, and the reset state. -/

namespace Sys2Proof.Machine

/-- A table keyed by a number, in ascending keys; an unlisted key reads as the default its reader names. -/
abbrev Tab (α : Type) : Type := List (Nat × α)

/-! ### Fibres and groups (01, 07, 17, 19) -/

/-- Why a fibre is parked (Table 1.4). -/
inductive Park where
  | none
  /-- waiting at a rod instruction (R28) or at a quad exchange instruction (R29), with its operands as read at the
  issue and the slice, latch and latch epoch that capture its result -/
  | converge (i : Instr) (ops : List Nat) (latch : Option (Nat × Nat × Nat))
  | cwait (w : Nat)
  | nap (until_ : Nat)
  | yielded
  /-- q4 to q7 empty, or q8 with no status word (R302, R339) -/
  | queue (q : Nat)
  /-- a scratchpad line that is absent (R182) -/
  | pad (line : Nat)
  | bufMiss (vf idx : Nat)
  /-- QWRC not yet accepted (R275) -/
  | card (item : Nat)
  /-- MARM not yet performed (R300): register, count, offset of the descriptor, .ua -/
  | arming (kreg count off : Nat) (ua : Bool)
  /-- the signing bundle until the engine accepts (R39), with the number of its signatures -/
  | handoff (kreg n : Nat)
  /-- MBIND, MBINDS checked and waiting for a queue entry (R285, R290) -/
  | binding (b : Nat)
  /-- MPAIR: the predicate, and whether the fibre writes it (R291) -/
  | pairing (pred : Nat) (writes : Bool)
  /-- MUNPAIR, MACRD, MACWR, MACCLR, MTEST waiting on operations (R291, R292, R294) -/
  | engine
  /-- MTEST until its injection (R293, R294) -/
  | mtest
  /-- MCAS in its lock phase, or being sent again (R255, R257) -/
  | mcas (x : Nat)
  deriving DecidableEq, Repr

/-- The queue reads of a fibre's instruction that have been served (R302). -/
structure QReads where
  /-- words, by the number of the read in source order -/
  words : Tab Word
  /-- the capture of the instruction that parked: slice, latch and latch epoch of its issue (R66) -/
  latch : Option (Nat × Nat × Nat)
  deriving DecidableEq, Repr

def QReads.none : QReads := ⟨[], Option.none⟩

/-- One fibre position that exists: a live fibre or a helper (R16, R22, R24). -/
structure Fibre where
  live : Bool
  pc : Word
  /-- p0 to p15; bit 15 is kept 0 and read as true -/
  preds : BitVec 16
  /-- base of the window in its slice's quarter (R16, R18) -/
  wbase : Nat
  /-- the window: v0 upwards, zero where unlisted (R19) -/
  regs : Tab Word
  fpst : Word
  inTrap : Bool
  trapPc : Word
  trapCause : Word
  trapInfo : Word
  trapMask : Word
  park : Park
  /-- card buffers of q0, q1, q2; the byte count is the length (R273) -/
  card0 : List Byte
  card1 : List Byte
  card2 : List Byte
  /-- words collected for q8 (R339) -/
  cmd : List DWord
  /-- registers with an outstanding write (R30, R65) -/
  pendRegs : List Nat
  /-- accesses that every later memory access of the fibre waits for (R197, R217, R218) -/
  holdAll : List Nat
  /-- accesses that later stores, atomics and pushes wait for (R242) -/
  holdStore : List Nat
  /-- the range of an RFENCE in force with what it waits for: first byte, length, accesses, stores only (R219) -/
  holdRange : List (Nat × Nat × List Nat × Bool)
  /-- core cycle of the last issue, for R31 -/
  lastIssue : Nat
  /-- lane in the bundle that last issued the fibre, for the MASK of a fault found later (R315) -/
  lane : Nat
  /-- core cycle before which the stall count of the last instruction forbids an issue (R30, R65) -/
  stallUntil : Nat
  /-- queue reads served for an instruction that parked, until it issues again (R302) -/
  popped : QReads
  /-- the engine's next item when the fibre's accumulator access or MTEST first issued (R292, R294); 0 once the injection
  of an MTEST has been made -/
  since : Option Nat
  deriving DecidableEq, Repr

/-- A convergence register (R38). -/
structure KReg where
  armed : Bool
  expect : Nat
  signed : Nat
  /-- the 256 descriptor bytes and .ua (R295) -/
  desc : List Byte
  ua : Bool
  deriving DecidableEq, Repr

def KReg.idle : KReg := ⟨false, 0, 0, [], false⟩

/-- A binding slot (R283, R290) with what its load recorded. -/
structure Binding where
  valid : Bool
  /-- loaded into the macros (R301: valid before that) -/
  loaded : Bool
  tile : BitVec 256
  elem : Nat
  sparse : Bool
  ub : Bool
  fslot : Nat
  first : Nat
  km : Nat
  nm : Nat
  ks : Nat
  cols : Nat
  /-- columns: the rows of B -/
  n : Nat
  /-- element codes of column j in stored order, j ascending -/
  codes : List (List Nat)
  /-- block scales of column j -/
  scales : List (List Nat)
  /-- 64-bit masks of column j (sparse B) -/
  masks : List (List Nat)
  deriving DecidableEq, Repr

def Binding.none : Binding :=
  ⟨false, false, 0, 0, false, false, 0, 0, 0, 0, 0, 0, 0, [], [], []⟩

/-- One macro a group owns (R282, R304). -/
structure OwnedMacro where
  /-- physical macro of the core -/
  phys : Nat
  /-- failed, replaced: bits of MTEST (R294) -/
  failed : Bool
  replaced : Bool
  unavailable : Bool
  deriving DecidableEq, Repr

/-- Pairing of a group's engine (R291). -/
inductive Pair where
  | none
  | active (partner : Nat)
  deriving DecidableEq, Repr

/-- Scopes, narrowest first (Table 0.5), with their codes of Table 11.10. -/
inductive Scope where
  | grp | clu | par | dev | sys
  deriving DecidableEq, Repr

/-- Ordering classes (Table 0.5). -/
inductive Cls where
  | cz | rx | ox
  deriving DecidableEq, Repr

/-- A result port (R297, R302). -/
structure ResPort where
  owner : Option Nat
  fifo : List Word
  /-- parked reads in the order they issued: group, fibre, number of the read in its instruction -/
  readers : List (Nat × Nat × Nat)
  deriving DecidableEq, Repr

def ResPort.empty : ResPort := ⟨none, [], []⟩

/-- An entry of the engine's order (R285): a binding to load or an operation to run. -/
inductive EngKind where
  | bind (b : Nat) (img : Binding)
  | op
  deriving DecidableEq, Repr

/-- A matrix operation or binding the engine has accepted (R285 to R289). -/
structure EngOp where
  gid : Nat
  vf : Nat
  /-- PC and fibre of the accepting instruction -/
  pc : Nat
  fib : Nat
  /-- its bundle lane as a mask (R315) -/
  mask : Nat
  kind : EngKind
  /-- descriptor fields (Table 17.9) -/
  zero : Bool
  asrc : Nat
  bindSlot : Nat
  ua : Bool
  resport : Nat
  scope : Scope
  cls : Nat
  m : Nat
  arow : Nat
  accBase : Nat
  accStride : Nat
  /-- A tile entry copied at acceptance, and its ELEM (R281) -/
  atile : BitVec 256
  aelem : Nat
  afslot : Nat
  cols : Nat
  /-- columns of the binding named at acceptance: the accumulators of a result row -/
  width : Nat
  /-- signers' staging area copied at acceptance: data rows and scale bytes (R288) -/
  stage : List (List Byte)
  stageScales : List (List Byte)
  cmpl : Option Nat
  cnt : Option Nat
  seq : Nat
  inc : Nat
  item : Nat
  /-- place among the acceptances and the accumulator accesses of its core (R292) -/
  turn : Nat
  /-- MXST bits of its events, which show once it has completed (R104, R130) -/
  events : Nat
  started : Bool
  /-- progress: row, next pass, passes since the last injection (R298) -/
  row : Nat
  pass : Nat
  sinceTest : Nat
  /-- whether the injection before the operation was made -/
  tested : Bool
  /-- element codes and block scales of the row in the row buffer -/
  rowCodes : List Nat
  rowScales : List Nat
  /-- binding image used: fixed when the operation starts -/
  img : Binding
  /-- results still to push -/
  pushLeft : List Nat
  /-- status once ended, while completion is outstanding -/
  status : Option Nat
  /-- accepted while paired: position in the pair's order (R291) -/
  paired : Option Nat
  acceptedAt : Nat
  deriving DecidableEq, Repr

/-- A group on a core, or saved and evicted (R15 to R23, R319, R320). -/
structure Group where
  vf : Nat
  /-- core number 16 * die + core -/
  k : Nat
  vdie : Nat
  /-- resident group slot, 0 to 31 (Table 11.5) -/
  slot : Nat
  grid : Nat
  /-- linear index (R45) -/
  index : Nat
  gx : Nat
  gy : Nat
  gz : Nat
  clupos : Nat
  cap : Nat
  wins : Nat
  wsize : Nat
  codePtr : Nat
  codeLen : Nat
  trapEn : Bool
  trapVec : Nat
  fslots : List Nat
  fibres : Tab Fibre
  /-- TILEW per rod; an unlisted rod has 32 (R17) -/
  tilew : Tab Nat
  sregs : Tab Word
  kregs : Tab KReg
  /-- tile table: valid entries only (R281) -/
  tiles : Tab (BitVec 256)
  padLen : Nat
  /-- 4 KiB units of the core's scratchpad that the allocation takes, in order (Table 11.5, log 24) -/
  padUnits : List Nat
  pad : Tab Byte
  /-- scratchpad lines whose presence bit is clear (R180, R181) -/
  absent : List Nat
  mxst : Word
  binds : Tab Binding
  macros : List OwnedMacro
  acc : Tab Word
  pair : Pair
  /-- parked in MPAIR: the partner named, and the cycle since when (R291) -/
  pairWait : Option (Nat × Nat)
  /-- operations accepted while the pair is active (R291) -/
  pairSeq : Nat
  /-- free windows of pools 0 to 3 (R19) -/
  pools : List Nat
  /-- halted in place by a pre-emption request (R319) -/
  halted : Bool
  /-- a pre-emption request waits for a hold run to end (R330) -/
  halting : Bool
  /-- latch tags saved at the halt: slice, latch, register, WBS (R69) -/
  latchTags : List (Nat × Nat × Nat × Bool)
  /-- rows spilt: not present on a core (R320, R325) -/
  evicted : Bool
  /-- its context was torn down: only its tagged storage is left, until the scrub (R348) -/
  dead : Bool
  /-- the group no longer issues and ends: cause and INFO of the first fault (R316) -/
  ended : Option Nat
  /-- PC, lanes and lowest FIBID of the RETIRE that retired the last live fibres (R23) -/
  lastRetire : Option (Nat × Nat × Nat)
  /-- faults to raise at restore (R177): cause, pc, mask, fibre, effective pointer, INFO -/
  lateFaults : List (Nat × Nat × Nat × Nat × Nat × Nat)
  /-- instruction lines pinned for this group in L1, by code line offset (R199) -/
  ipins : List Nat
  /-- what an evicted group keeps of its core: result ports it owns, by number, and its entries of the engine (R298, R320) -/
  savedPorts : Tab ResPort
  savedEng : List EngOp
  /-- rod and quad executions that wait for queue reads: PC and fibres of the execution (R302) -/
  pendExec : List (Nat × List Nat)
  deriving DecidableEq, Repr

/-! ### Cores (01, 03, 11, 17) -/

/-- A bundle that stands on a slice (R31). -/
structure Bundle where
  gid : Nat
  pc : Nat
  quads : List Nat
  /-- enabled fibres, ascending -/
  en : List Nat
  /-- YLD of its last instruction: last in its group at the next choice (R65) -/
  yld : Bool
  /-- number of the bundle on its slice, for R67 -/
  num : Nat
  deriving DecidableEq, Repr

/-- A bypass latch (R66): 64 bits per lane, a tag, and data valid or cleared. -/
structure Latch where
  valid : Bool
  /-- group, destination register, WBS -/
  tag : Option (Nat × Nat × Bool)
  /-- data by FIBID -/
  data : Tab Nat
  /-- number of clears, so that a late result knows whether its data was cleared -/
  epoch : Nat
  /-- fibres, by group, whose captured result is outstanding: the scoreboard holds their next use of the latch -/
  pend : List (Nat × Nat)
  deriving DecidableEq, Repr

def Latch.empty : Latch := ⟨false, none, [], 0, []⟩

/-- An issue slice (R31 to R34, R67). -/
structure Slice where
  bundles : List Bundle
  nextNum : Nat
  /-- bundle number the slice last issued from -/
  last : Option Nat
  /-- hold run: bundle number and instructions issued so far (R34) -/
  hold : Option (Nat × Nat)
  /-- core cycle from which the scoreboard holds the run's next instruction -/
  holdSince : Nat
  /-- group whose turn was last (R32) -/
  lastGroup : Nat
  /-- ageing counts: key group * 256 + quad, cycles ready since one of its fibres issued (R32) -/
  ages : Tab Nat
  latches : Tab Latch
  /-- cycle of the last issue and of the last formation -/
  issuedAt : Option Nat
  formedAt : Option Nat
  /-- bundle whose next instruction may issue in the same cycle, as the second of a pair (R33, R52) -/
  pairNext : Option Nat
  deriving DecidableEq, Repr

def Slice.empty : Slice := ⟨[], 0, none, none, 0, 0, [], [], none, none, none⟩

/-- Where a global byte lives: home stack, SVA, key slot and VF of the entry it was reached through (R174), with the
effective pointer for records, the pinned flag (R190) and the window slot flag (R345). -/
structure Loc where
  stack : Nat
  sva : Nat
  key : Nat
  vf : Nat
  eptr : Nat
  pin : Bool
  win : Bool
  deriving DecidableEq, Repr

/-- A line of the L1 data cache (R183). -/
structure L1Line where
  loc : Loc
  /-- 128 bytes -/
  data : List Byte
  /-- sectors that are valid -/
  valid : BitVec 4
  dirty : BitVec 128
  /-- fill scope of each sector -/
  fill : List Scope
  /-- store scope while dirty -/
  store : Scope
  /-- marked as the next victim, or kept (Table 3.7, Table 11.9) -/
  nextVictim : Bool
  keep : Bool
  /-- ns when the oldest fill or store of what it holds was sent, for LDC (R194) -/
  since : Nat
  deriving DecidableEq, Repr

/-- A line of the L1 instruction cache (R50, R199). -/
structure ILine where
  vf : Nat
  codePtr : Nat
  /-- byte offset of the line in the code section -/
  off : Nat
  data : BitVec 512
  poisoned : Bool
  deriving DecidableEq, Repr

/-- A core (Table 0.2). -/
structure Core where
  slices : Tab Slice
  l1 : List L1Line
  icache : List ILine
  /-- buffer cache: VF, index, entry (R172) -/
  bufs : List (Nat × Nat × BitVec 256)
  ports : Tab ResPort
  /-- engine entries in acceptance order -/
  eng : List EngOp
  /-- group served last by the engine's round robin (R285) -/
  engLast : Nat
  mstcfg : Word
  /-- fenced physical macros (R293) -/
  fenced : List Nat
  /-- outstanding security commands, oldest first: vf of the submitter, words (R339) -/
  cmds : List (List DWord)
  /-- status words waiting (R339) -/
  statuses : List Word
  /-- status of the oldest command, once its effect holds (R339) -/
  cmdDone : Option Nat
  /-- parked reads of q8 in order: group, fibre, number of the read in its instruction -/
  q8readers : List (Nat × Nat × Nat)
  /-- issue slots used by each VF in the current period (R36) -/
  used : Tab Nat
  /-- removed from service (R325, R329) -/
  out : Bool
  deriving DecidableEq, Repr

/-- MSTCFG resets to ENAB = 1, ROWINT = 256 (Table 17.12); everything else of a core is empty. -/
def Core.empty : Core := ⟨[], [], [], [], [], [], 0, 0x00010100, [], [], [], none, [], [], false⟩

/-! ### Compute dies (11, 15, 17, 23) -/

/-- A step of one fibre in a combined atomic or counter event (R250): fibre, byte offset of its target in the line,
operand, second operand. -/
structure AStep where
  fib : Nat
  off : Nat
  x : Nat
  y : Nat
  deriving DecidableEq, Repr

/-- What a combined event computes (R251 to R266). -/
inductive AKind where
  | atom (op : Nat) (w64 sgn : Bool)
  | cas (bytes : Nat)
  | cadd
  | craise
  | cread
  deriving DecidableEq, Repr

/-- Where a value returns: register group, elements, bytes per element, and the latch that captures it. -/
structure RetDst where
  reg : Nat
  count : Nat
  esize : Nat
  /-- no register is named -/
  none : Bool
  wbs : Bool
  /-- slice, latch and its epoch at issue -/
  latch : Option (Nat × Nat × Nat)
  deriving DecidableEq, Repr

/-- A line of the cluster unit's line store (R244). -/
structure CuLine where
  loc : Loc
  data : List Byte
  dirty : BitVec 128
  /-- the fetch of step 2 has returned -/
  here : Bool
  deriving DecidableEq, Repr

/-- Levels of a compute die (Table 23.7). -/
inductive PwrLevel where
  | off | hold | l2 | l1 | l0
  deriving DecidableEq, Repr

/-- Time registers of a die (Table 23.6). -/
structure TimeRegs where
  ltime : Nat
  trate : Nat
  toff : Nat
  deriving DecidableEq, Repr

def TimeRegs.reset : TimeRegs := ⟨0, 0x100000000, 0⟩

/-- A compute die. -/
structure Die where
  /-- core cycles counted -/
  cycle : Nat
  time : TimeRegs
  target : PwrLevel
  level : PwrLevel
  /-- a wake from OFF runs, to this level; a TARGET written meanwhile waits (R378) -/
  waking : Option PwrLevel
  trip : Bool
  clockStopped : Bool
  failed : Bool
  /-- the cluster unit's line store and the accesses that wait in it (R244); its directory (R185) is read off the
  cores' L1 -/
  lines : List CuLine
  cuOps : List Nat
  cquota : Tab Word
  /-- accepted copy cards in acceptance order (R278) -/
  copyq : List Nat
  /-- cards the four engines run -/
  engines : Tab Nat
  /-- bytes moved by each VF in the period (R278) -/
  copyUsed : Tab Nat
  deriving DecidableEq, Repr

/-- A compute die after cold reset: OFF, counters at reset (Table 23.6, Table 23.7). -/
def Die.reset : Die :=
  ⟨0, TimeRegs.reset, .off, .off, none, false, false, false, [], [], [], [], [], []⟩

/-! ### Agents and what is in flight (13) -/

/-- An agent's causal vector and its lanes (R203 to R206). -/
structure Agent where
  vec : Tab Nat
  /-- next lane sequence number, by 4 * stack + lane -/
  seqs : Tab Nat
  /-- next relaxed number, by 4 * stack + lane -/
  rseqs : Tab Nat
  /-- vector last sent on a lane (R205), by 4 * stack + lane -/
  lastSent : Tab (Tab Nat)
  /-- messages sent -/
  sent : Nat
  /-- fault records and completion writes, which the masthead orders by this number (R238, log 47) -/
  events : Nat
  /-- fabric cycle of the last beat (R207) -/
  lastBeat : Nat
  /-- accesses of its engine that wait at their homes, and since when in ns (R235) -/
  stalled : Tab Nat
  deriving DecidableEq, Repr

def Agent.reset : Agent := ⟨[], [], [], [], 0, 0, 0, []⟩

/-- What a request asks of its home. -/
inductive MemOp where
  | load (len : Nat)
  | store (data : List Byte)
  /-- a write-back: bytes by their offset in the 128-byte line (R184) -/
  | merge (bytes : Tab Byte)
  | atomic (kind : AKind) (steps : List AStep)
  | wait (w : Nat)
  | atomp (idx : Nat) (args : List Nat) (eoff : Nat)
  | mcas (x : Nat)
  /-- the end of a FENCE or RFENCE: its acquire, and the range of an RFENCE as entry, pointer and length -/
  | fence (acq : Option Scope) (range : Option (BitVec 256 × Nat × Nat))
  /-- an access of steward mode through an on-chip window (R178): entry, offset, length or bytes -/
  | winLoad (e : BitVec 256) (off len : Nat)
  | winStore (e : BitVec 256) (off : Nat) (data : List Byte)
  deriving DecidableEq, Repr

/-- What a home, a port or the cluster unit answers. -/
inductive Reply where
  | data (bytes : List Byte)
  | ack
  | olds (vals : Tab Nat)
  | fault (cause : Nat) (info : Nat)
  deriving DecidableEq, Repr

/-- For whom a request was made. -/
inductive Owner where
  /-- one fibre's load; bytes that L1 supplies itself, and the offset of the data in the reply (R184, R187) -/
  | load (fib : Nat) (dst : RetDst) (size off : Nat) (own : Tab Byte) (fill : Option Scope) (acq : Option Scope)
      (helper : Bool)
  | store (fib : Nat)
  | fence (fib : Nat)
  /-- an atomic event of the fibres of a bundle -/
  | atomic (fibs : List Nat) (dst : RetDst) (width : Nat) (acq : Option Scope)
  | wait (w : Nat)
  | mcas (x : Nat)
  /-- a write-back of core k -/
  | writeBack (k : Nat)
  /-- a fetch or a write-back of the cluster unit -/
  | cluFetch (d : Nat)
  | cluBack (d : Nat)
  /-- a prefetch, with its fill scope in L1; none for one into the stack cache alone (R196) -/
  | pref (fill : Option Scope)
  /-- bytes of an engine's item that leave or enter the package -/
  | engine (item : Nat)
  /-- a fault record of the masthead (R313) -/
  | record
  /-- a word that nothing waits for -/
  | word
  /-- a line of a host write (R358) -/
  | host
  /-- a line of a host read or a host FetchAdd, by the request's number (R311, R358) -/
  | hostRead (id : Nat)
  /-- a request that a Hexavo frame brought: stack, port, tag (R360) -/
  | remote (s port tag : Nat)
  /-- remote writes of a send: collective, instance, send (R365) -/
  | send (c i n : Nat)
  deriving DecidableEq, Repr

/-- Where a copy of a request stands. -/
inductive Leg where
  /-- on its way to its home: stacks still to enter, and those behind it, the last first -/
  | out (route path : List Nat)
  /-- in the lane queue of its home -/
  | home (path : List Nat)
  /-- the reply is on its way back: the stack it stands at, and those still to enter -/
  | back (route : List Nat)
  deriving DecidableEq, Repr

/-- An access that has left a core, a cluster unit or an engine and is not yet acknowledged (R223 to R236). -/
structure Access where
  agent : Nat
  /-- core number within the die, 16 for the cluster unit -/
  port : Nat
  loc : Loc
  lane : Nat
  cls : Cls
  scope : Scope
  /-- carries a vector (R211, R222) -/
  causal : Bool
  vec : Tab Nat
  /-- delta entries carried (R205) -/
  nd : Nat
  seq : Option Nat
  /-- the lane's next number when it was sent -/
  seqAt : Nat
  /-- its place among the messages that the agent has sent, and its route -/
  ord : Nat
  route : List Nat
  /-- the home has taken it off its lane, to wait for a quota (R268) -/
  queued : Bool
  rseq : Option Nat
  op : MemOp
  owner : Owner
  gid : Nat
  pc : Nat
  /-- lanes of the bundle, for a fault's record -/
  mask : Nat
  /-- sent only when these have been acknowledged -/
  after : List Nat
  held : Bool
  legs : List Leg
  /-- the home has performed it -/
  performed : Bool
  reply : Option Reply
  replyVec : Tab Nat
  /-- its window ended while it was under way, and it completes under the old entry (R172, R347) -/
  old : Bool
  sentAt : Nat
  reissues : Nat
  /-- an invalidation has struck the fill (R202) -/
  noFill : Bool
  /-- of a store that waits at its core or in the cluster unit: a WBR, INVR, release or fence of the core covers its bytes,
  which are written back as soon as they are in L1 (R201) -/
  back : Bool
  /-- cache hint (Table 3.7) and cache class -/
  hint : Nat
  cclass : Nat
  /-- leaves the package: 1 PCIe, 2 and 3 Hexavo ports 0 and 1 (R357); stays on the die: 4 waits for its own core, 5 in
  the cluster unit -/
  ext : Nat
  deriving DecidableEq, Repr

/-- A horizon beat on its way (R207). -/
structure Beat where
  agent : Nat
  stack : Nat
  lane : Nat
  ctr : Nat
  num : Nat
  deriving DecidableEq, Repr

/-! ### Stacks (11, 13, 15, 21) -/

/-- State of a frame (R342). -/
inductive FrameSt where
  | free | assigned | scrub | quar
  deriving DecidableEq, Repr

structure Frame where
  st : FrameSt
  key : Nat
  init : Bool
  deriving DecidableEq, Repr

/-- A frame after cold reset (R349). -/
def Frame.reset : Frame := ⟨.quar, 0, true⟩

/-- State of a key slot (Table 21.8). -/
inductive SlotSt where
  | free | active | window
  deriving DecidableEq, Repr

/-- KSLOTs of one key slot, with the two keys it holds (R341); a free slot holds zeros. -/
structure KeySlot where
  gen : Nat
  vf : Nat
  st : SlotSt
  /-- the data key and the MAC key -/
  data : BitVec 256
  mac : BitVec 256
  deriving DecidableEq, Repr

def KeySlot.reset : KeySlot := ⟨0, 0, .free, 0, 0⟩

/-- A counter block of the integrity tree (R344). -/
structure CtrBlock where
  major : Nat
  minors : Tab Nat
  deriving DecidableEq, Repr

def CtrBlock.zero : CtrBlock := ⟨0, []⟩

/-- What a DRAM line's MAC was made under: MAC key and generation (R343); unwritten lines have none. -/
structure LineSeal where
  mac : BitVec 256
  gen : Nat
  deriving DecidableEq, Repr

/-- A line in the stack cache with the vector of its last causal store (R188, R209). -/
structure ScLine where
  /-- physical line address -/
  line : Nat
  vf : Nat
  vec : Option (Tab Nat)
  way : Nat
  nextVictim : Bool
  keep : Bool
  deriving DecidableEq, Repr

/-- A job of the scrub engine (R348, R356). -/
structure ScrubJob where
  vf : Nat
  /-- groups whose storage is still to clear -/
  onchip : List Nat
  /-- pinned ways still to clear -/
  ways : List Nat
  frames : List Nat
  done : Nat
  deriving DecidableEq, Repr

/-- An entry of a window table (R346). -/
structure WinEnt where
  win : Nat
  slot : Nat
  host : Nat
  peer : Nat
  deriving DecidableEq, Repr

/-- A Hexavo port (Table 23.2, R362). -/
structure HxPort where
  vf : Nat
  linkUp : Bool
  rxg0 : Bool
  rxg1 : Bool
  txgen : Bool
  enable : Bool
  key0 : Nat
  key1 : Nat
  /-- frames sent and received under each generation -/
  sent0 : Nat
  sent1 : Nat
  recv0 : Nat
  recv1 : Nat
  /-- a rotation runs: new generation installed, confirmed -/
  rotating : Bool
  confirmed : Bool
  /-- frames of the old generation that the peer's notice counts -/
  notice : Option Nat
  deriving DecidableEq, Repr

def HxPort.reset : HxPort := ⟨0, false, false, false, false, false, 0, 0, 0, 0, 0, 0, false, false, none⟩

/-- A cached translation of the stack TLB (R175, R176). -/
structure TlbEnt where
  vf : Nat
  page : Nat
  size : Nat
  base : Nat
  ro : Bool
  deriving DecidableEq, Repr

/-- A base die with its stack. -/
structure Stack where
  time : TimeRegs
  selfref : Bool
  frames : Tab Frame
  slots : Tab KeySlot
  /-- counter blocks of levels 1 to 4 by block number; level 4 are the roots -/
  ctr1 : Tab CtrBlock
  ctr2 : Tab CtrBlock
  ctr3 : Tab CtrBlock
  ctr4 : Tab CtrBlock
  seals : Tab LineSeal
  /-- DRAM lines whose MAC does not verify -/
  bad : List Nat
  /-- counter blocks of levels 1 to 3 whose MAC does not verify: level and block number (R344) -/
  badCtr : List (Nat × Nat)
  jobs : List ScrubJob
  lastDone : Nat
  sc : List ScLine
  scway : Tab (BitVec 64)
  aquota : Tab (BitVec 64)
  /-- table root of a VF (R175) -/
  roots : Tab Nat
  tlb : List TlbEnt
  fwctl : Word
  wins : List WinEnt
  health : Word
  /-- frontiers by 4 * agent + lane (R206) -/
  fr : Tab Nat
  /-- next lane sequence number expected, by 4 * agent + lane -/
  expectSeq : Tab Nat
  /-- last 64 numbers applied with their responses, by 4 * agent + lane; relaxed ones apart (R236) -/
  kept : Tab (List (Nat × Reply))
  rkept : Tab (List (Nat × Reply))
  /-- vector rebuilt per lane (R205) -/
  laneVec : Tab (Tab Nat)
  /-- the home treats this agent's frontier as satisfying every condition (R239) -/
  waived : List Nat
  /-- vectors of the pinned lines' last causal stores, by line (R190, R209) -/
  pinVec : Tab (Tab Nat)
  /-- locked lines: physical line, holder (R256, R259, R268): an MCAS, or 2^40 + a queued ATOMP's access -/
  locks : List (Nat × Nat)
  /-- cached ATOMP routines: 64 * VF + index, sixteen words (R259) -/
  routines : Tab (List Word)
  hx : Tab HxPort
  /-- abacus cores busy with instances: instance keys -/
  abacus : List Nat
  /-- use of the period by VF: fills, HBM bytes, abacus instructions (R188, R262, R312) -/
  fillUsed : Tab Nat
  hbmUsed : Tab Nat
  abUsed : Tab Nat
  /-- stack-cache pins of code: VF, code pointer, line offset, and the physical 128-byte line (R199) -/
  ipins : List (Nat × Nat × Nat × Nat)
  deriving DecidableEq, Repr

/-- A base die after cold reset (Table 21.3, R349). Bring-up draws slot 0. -/
def Stack.reset : Stack :=
  { time := TimeRegs.reset, selfref := false, frames := [], slots := [], ctr1 := [], ctr2 := [], ctr3 := [], ctr4 := [],
    seals := [], bad := [], badCtr := [], jobs := [], lastDone := 0, sc := [], scway := [], aquota := [],
    roots := [], tlb := [], fwctl := 0x7FF, wins := [], health := 0, fr := [], expectSeq := [], kept := [], rkept := [],
    laneVec := [], waived := [], pinVec := [], locks := [], routines := [], hx := [], abacus := [], fillUsed := [], hbmUsed := [],
    abUsed := [], ipins := [] }

/-! ### Waiters, MCAS, cards, grids, collectives -/

/-- Where a counter waiter is kept (R266). -/
inductive Place where
  | pad (gid : Nat)
  | clu (d : Nat)
  | home (s : Nat)
  deriving DecidableEq, Repr

/-- A CWAIT of one bundle at one counter (R266). -/
structure Waiter where
  place : Place
  vf : Nat
  gid : Nat
  pc : Nat
  loc : Loc
  /-- scratchpad offset when the place is the scratchpad -/
  off : Nat
  cls : Cls
  scope : Scope
  /-- waiting fibres with their targets -/
  steps : List (Nat × Nat)
  dst : RetDst
  acq : Option Scope
  /-- core cycle of the timeout -/
  deadline : Option Nat
  /-- the place holds an entry for it -/
  entered : Bool
  /-- core cycle of the last request, for the resend of R266 -/
  askedAt : Nat
  /-- replies sent and not yet taken: fibre, value -/
  replies : List (Nat × Nat)
  replyVec : Tab Nat
  deriving DecidableEq, Repr

/-- One entry of an MCAS (Table 15.4) with its home. -/
structure McasEnt where
  loc : Loc
  expect : Nat
  new : Nat
  /-- value read under the lock, where it stands there, and the vector of its line (R209, R256) -/
  seen : Option Nat
  place : Option (Bool × Nat)
  vec : Tab Nat
  deriving DecidableEq, Repr

/-- Phases of an MCAS (R256, R257). -/
inductive McasPh where
  | sent | locking | committing | done | restart | cancelled | faulted
  deriving DecidableEq, Repr

structure Mcas where
  gid : Nat
  fib : Nat
  pc : Nat
  vf : Nat
  block : Nat
  ents : List McasEnt
  scope : Scope
  cls : Cls
  acq : Option Scope
  dst : RetDst
  /-- homes in ascending order, those locked, those committed -/
  homes : List Nat
  locked : List Nat
  committed : List Nat
  phase : McasPh
  /-- ns of the first lock -/
  lockedAt : Option Nat
  /-- core cycle at which it may be sent again -/
  resendAt : Nat
  cancel : Bool
  result : Option Nat
  fault : Option (Nat × Nat)
  access : Nat
  deriving DecidableEq, Repr

/-- A footprint region (Table 13.4). -/
structure Region where
  ptr : Nat
  len : Nat
  deriving DecidableEq, Repr

/-- What Halyard tracks an item for (R231). -/
inductive ItemKind where
  | copy | task | matrix | collective
  deriving DecidableEq, Repr

/-- An item Halyard holds: a copy card, a task card, a matrix operation or a collective (R231, R280). -/
structure Item where
  kind : ItemKind
  vf : Nat
  reads : List Region
  writes : List Region
  /-- items it waits for -/
  edges : List Nat
  /-- task fields (Table 17.6) -/
  prio : Nat
  launch : Nat
  waits : List (Nat × Nat)
  scope : Scope
  cmpl : Option Nat
  cnt : Option Nat
  seq : Nat
  inc : Nat
  /-- dispatched: the grid or collective made of it -/
  started : Bool
  /-- order of acceptance -/
  order : Nat
  /-- grid that submitted it, discarded with it (R316) -/
  fromGrid : Option Nat
  /-- group that submitted it, which does not end before it (R23) -/
  fromGroup : Option Nat
  deriving DecidableEq, Repr

/-- A card: submitted through q0, q1 or q2 and not yet accepted (R275), or a copy card (Table 17.3) waiting or moving. -/
structure Card where
  q : Nat
  ua : Bool
  gid : Nat
  fib : Nat
  vf : Nat
  die : Nat
  bytes : List Byte
  /-- accesses of the release of R232 -/
  after : List Nat
  /-- accepted into the copy queue -/
  accepted : Bool
  /-- an engine moves it -/
  running : Bool
  /-- destination lines moved already -/
  moved : List Nat
  /-- row indices read by the probe (R277) -/
  index : List Nat
  status : Option Nat
  deriving DecidableEq, Repr

/-- A grid (R307 to R309). -/
structure Grid where
  vf : Nat
  item : Option Nat
  codePtr : Nat
  codeLen : Nat
  entry : Nat
  gx : Nat
  gy : Nat
  gz : Nat
  cap : Nat
  wins : Nat
  init : Nat
  wsize : Nat
  pad : Nat
  macros : Nat
  cluster : Nat
  fpen : Nat
  trapEn : Bool
  irq : Bool
  trapVec : Nat
  scope : Scope
  cmpl : Option Nat
  cnt : Option Nat
  seq : Nat
  inc : Nat
  fslots : List Nat
  sregs : Tab Word
  /-- ns of the launch (R194) -/
  launchedAt : Nat
  /-- next linear index to place -/
  nextIndex : Nat
  /-- virtual die where the last cluster went -/
  lastDie : Option Nat
  /-- resident groups -/
  groups : List Nat
  /-- die of the group that ended last (R327) -/
  lastOn : Option Nat
  /-- the first grid-ending event: converted time, agent, status (R316, R238) -/
  ending : Option (Nat × Nat × Nat)
  order : Nat
  deriving DecidableEq, Repr

/-- A send of a collective instance (Table 23.5). -/
structure HxSend where
  src : Nat
  dst : Nat
  len : Nat
  rcnt : Nat
  rinc : Nat
  /-- bytes whose remote writes have been sent -/
  moved : Nat
  /-- the advance of the remote counter has been asked for -/
  signalled : Bool
  done : Bool
  deriving DecidableEq, Repr

/-- State of an instance (R364, R366). -/
inductive InstSt where
  | waiting | running | cwait (deadline : Option Nat) (target : Nat) (rd : Nat) | ended
  deriving DecidableEq, Repr

/-- An instance of a collective: a RISC-V hart in user mode (R364). -/
structure Inst where
  stack : Nat
  index : Nat
  count : Nat
  st : InstSt
  pc : DWord
  x : Tab DWord
  f : Tab Word
  v : Tab (BitVec 256)
  fcsr : Word
  vl : Nat
  vtype : Nat
  vstart : Nat
  vcsr : Nat
  cptr : DWord
  ctmo : DWord
  accctl : Nat
  sends : List HxSend
  hxdone : Nat
  /-- element accesses that the vector instruction at pc has made -/
  prog : Nat
  deriving DecidableEq, Repr

/-- A collective (Table 23.3). -/
structure Coll where
  vf : Nat
  item : Nat
  img : Nat
  imgLen : Nat
  stks : List Nat
  cores : Nat
  arg : DWord
  scope : Scope
  reads : List Region
  writes : List Region
  insts : List Inst
  /-- the first CABRT or fault: converted time, agent, status -/
  ending : Option (Nat × Nat × Nat)
  /-- an arrival signal of it found its counter full (R267) -/
  passed : Bool
  cmpl : Option Nat
  cnt : Option Nat
  seq : Nat
  inc : Nat
  deriving DecidableEq, Repr

/-! ### Contexts and the masthead (19, 21, 23) -/

/-- States of a TDI under TDISP (R338). -/
inductive Tdi where
  | unlocked | locked | run | error
  deriving DecidableEq, Repr

/-- A consent to a window (R345). -/
structure Consent where
  win : Nat
  peer : Nat
  len : Nat
  rights : BitVec 4
  deriving DecidableEq, Repr

/-- The SPDM responder's connection and session with one VF's verifier (R336). -/
inductive SpdmPh where
  | start | version | capabilities | negotiated | keyExchanged | session
  deriving DecidableEq, Repr

/-- What the device holds of one VF (R305, R306, R313, R338, R345). -/
structure Ctx where
  /-- descriptor of Table 19.1, when installed -/
  desc : Option (BitVec 1024)
  /-- sticky bits 3 to 0 of CSTAT -/
  sticky : BitVec 4
  faultCount : Nat
  tdi : Tdi
  spdm : SpdmPh
  sessionKey : Nat
  consents : List Consent
  /-- a teardown's scrub is unfinished (R348) -/
  scrubbing : Bool
  /-- a Function Level Reset has not completed (R358) -/
  flr : Bool
  /-- a teardown has begun and its wipe has not come: nothing of the VF runs (R348) -/
  tearing : Bool
  vfbind : BitVec 128
  /-- a VFBIND write that waits for eviction (R334) -/
  vfbindNext : Option (BitVec 128)
  subq : BitVec 256
  budget : BitVec 64
  /-- ring service stopped until SUBQ or INVBUF: failing buffer index (R311) -/
  ringStopped : Option Nat
  /-- entries that the last reading of the counts admitted: the next, and their end (R311) -/
  ring : Option (Nat × Nat)
  /-- 32-bit words of the MSI-X table of BAR2 (R358) -/
  msixTable : Tab Nat
  deriving DecidableEq, Repr

def Ctx.reset : Ctx :=
  ⟨none, 0, 0, .unlocked, .start, 0, [], false, false, false, 0, none, 0, 0, none, none, []⟩

/-- Phases of a gang switch (R322). -/
inductive SwPh where
  | idle
  /-- halted by the steward's PREEMPT until the next tick (R319) -/
  | preempted
  | preparing
  /-- the deadline was missed and CANCEL is on its way (R323) -/
  | cancelling
  /-- the third deadline was missed; the commit waits for no die (R324) -/
  | committing
  /-- halted for a change of layout until every row is spilt (R325) -/
  | evicting
  /-- halted while a die of the partition goes to HOLD or OFF (R370) -/
  | power
  /-- halted by the alarm unit until a reset (R350) -/
  | alarmHalt
  deriving DecidableEq, Repr

/-- Gang scheduling of one partition, by its leader (R321 to R325). -/
structure Gang where
  /-- the VF that holds the slice -/
  cur : Option Nat
  /-- ticks the current VF has held of its turn -/
  turn : Nat
  next : Option Nat
  phase : SwPh
  /-- ns of PREPARE, of the last tick, of the turn's beginning -/
  prepAt : Nat
  tickAt : Nat
  turnAt : Nat
  /-- dies that PREPARE has reached, and those that replied READY -/
  prepared : List Nat
  ready : List Nat
  misses : Nat
  /-- ns by which a VF's next turn is shortened (R323, R328) -/
  charge : Tab Nat
  tickp : Word
  /-- the period in force, and one that starts at the next tick -/
  period : Nat
  deriving DecidableEq, Repr

/-- TICKPl resets to 1,000 (Table 19.12); no VF holds the slice. -/
def Gang.reset : Gang := ⟨none, 0, none, .idle, 0, 0, 0, [], [], 0, [], 1000, 1000⟩

/-- Bring-up (Table 23.9). -/
inductive Boot where
  /-- the endpoint answers with Request Retry Status; step 2 has not passed -/
  | pending
  /-- the same after a warm reset (R349, R356) -/
  | warm
  /-- step 2 failed: SPDM GET_VERSION answers with an error -/
  | failed
  | done
  deriving DecidableEq, Repr

/-- What leaves the package. -/
inductive Out where
  | msix (vf vec : Nat)
  /-- requests to the host, with the requester's VF and the IDE T bit (R359) -/
  | hostWrite (vf : Nat) (t : Bool) (addr : Nat) (data : List Byte)
  | hostRead (vf : Nat) (t : Bool) (addr len : Nat)
  | hostAtomic (vf : Nat) (t : Bool) (addr : Nat) (kind : AKind) (x y : Nat)
  | hostData (vf off : Nat) (data : List Byte)
  | unsupported (vf : Nat)
  | retry
  | spdm (vf : Nat) (code : Nat) (data : List Byte)
  | spdmError (vf : Nat)
  | tdisp (vf : Nat) (ok : Bool)
  | hexavo (s port : Nat) (op : HxOp)
  | hexavoReply (s port tag : Nat) (ok : Bool) (data : List Byte)
  | hxNotice (s port : Nat) (count : Nat)
  deriving DecidableEq, Repr

/-- A PCIe IDE stream, selective or of a link, and the number of its key (R338). -/
structure IdeStream where
  sel : Bool
  id : Nat
  vf : Nat
  key : Nat
  deriving DecidableEq, Repr

/-- The masthead (R4). -/
structure Masthead where
  boot : Boot
  time : TimeRegs
  partcfg : BitVec 64
  /-- layout writes waiting for the sequence of R325, oldest first -/
  partNext : List (BitVec 64)
  alarmpol : Word
  /-- Halyard dispatches nothing until a reset (R350) -/
  alarmHalt : Bool
  gangs : Tab Gang
  pwrcap : Nat
  /-- watts given by the arbiter to dies and stacks (R371); unlisted: no cap -/
  dieW : Tab Nat
  stkW : Tab Nat
  /-- link-flit use of the period: link, VF (R229) -/
  flitUsed : List (Nat × Nat × Nat)
  /-- items in order of acceptance -/
  nextOrder : Nat
  /-- ns of the last budget period -/
  periodAt : Nat
  /-- windows created: number, slot, parties, host leader (R345) -/
  windows : List (Nat × Nat × Nat × Nat × Nat)
  /-- key numbers drawn from the DRBG -/
  nextKey : Nat
  /-- device seed from the PUF, and the private key of the identity derived from it (R335) -/
  identity : Option (BitVec 256 × BitVec 384)
  /-- IDE streams with a key (R338) -/
  ide : List IdeStream
  /-- degraded stacks (R235) -/
  degraded : List Nat
  /-- commands waiting behind a switch (R370): DIEPWR or STKPWR number and value -/
  pwrLater : List (Nat × Nat)
  deriving DecidableEq, Repr

/-! ### The machine -/

/-- The bundle that is issuing an instruction. -/
structure Cur where
  k : Nat
  sl : Nat
  gid : Nat
  pc : Nat
  quads : List Nat
  /-- enabled fibres at pc, live, ascending -/
  en : List Nat
  num : Nat
  deriving DecidableEq, Repr

/-- What may move next: an event of the table, an issue of a slice, a clock edge, or an input that has no row. -/
inductive Move where
  | event (i : Instr)
  | issue (k sl : Nat)
  /-- one core cycle of a die -/
  | coreCycle (d : Nat)
  /-- one fabric cycle -/
  | fabricCycle
  /-- one nanosecond of every die's local counter -/
  | nanosecond
  /-- the steward sets a table root (R175), or clears it -/
  | setRoot (s vf : Nat) (root : Option Nat)
  /-- a DRAM line is damaged from outside, so that its MAC no longer verifies (R343) -/
  | damageLine (s line : Nat)
  /-- a counter block of level 1 to 3 is damaged from outside (R344) -/
  | damageBlock (s level block : Nat)
  /-- the masthead's firmware prepares the steward's context at bring-up: bytes of a stack, a frame's entry, the
  descriptor and binding of VF 0 -/
  | firmwareBytes (s pa : Nat) (data : List Byte)
  | firmwareFrame (s f key : Nat)
  | firmwareSteward (desc : BitVec 1024) (bind : BitVec 128) (budget : BitVec 64)
  /-- a core is removed from service, or comes back (R325, R329) -/
  | coreService (k : Nat) (on : Bool)
  deriving DecidableEq, Repr

/-- The whole machine. -/
structure State where
  /-- the model's own: what moves next, in order -/
  agenda : List Move
  /-- the model's own: the issue in progress -/
  cur : Option Cur
  /-- the model's own: numbers the free values -/
  freeCtr : Nat
  /-- fabric cycles and nanoseconds counted since reset -/
  fabric : Nat
  ns : Nat
  /-- DRAM of all stacks: byte address stack * 2^36 + physical address, ascending, no zero byte listed -/
  mem : List Host.Cell
  /-- pinned ways (R190): stack * 2^36 + VF-independent way * 2^21 + offset, ascending, no zero byte listed -/
  pin : List Host.Cell
  groups : Tab Group
  cores : Tab Core
  dies : Tab Die
  agents : Tab Agent
  stks : Tab Stack
  ctxs : Tab Ctx
  mh : Masthead
  accs : Tab Access
  nextAcc : Nat
  beats : List Beat
  waiters : Tab Waiter
  mcas : Tab Mcas
  items : Tab Item
  cards : Tab Card
  /-- answers that an item's accesses beyond a port have had, by their pointer -/
  fetched : Tab (List (Nat × Reply))
  grids : Tab Grid
  colls : Tab Coll
  /-- next number for groups, waiters, MCAS, items, grids -/
  nextId : Nat
  out : List Out
  deriving DecidableEq, Repr

/-- The masthead after cold reset (Tables 21.2, 21.11). CAP is the configuration blob's value, loaded at bring-up. -/
def Masthead.reset : Masthead :=
  { boot := .pending, time := TimeRegs.reset, partcfg := 0x924924924924, partNext := [], alarmpol := 0x9A,
    alarmHalt := false, gangs := [], pwrcap := 0, dieW := [], stkW := [], flitUsed := [], nextOrder := 0,
    periodAt := 0, windows := [], nextKey := 1, identity := none, ide := [], degraded := [], pwrLater := [] }

/-- The package right after cold reset (R349, R373): every compute die OFF, every frame QUAR with INIT set, bring-up
pending, nothing in flight. -/
def State.reset : State :=
  { agenda := [], cur := none, freeCtr := 0, fabric := 0, ns := 0, mem := [], pin := [], groups := [], cores := [],
    dies := [], agents := [], stks := [], ctxs := [], mh := Masthead.reset, accs := [], nextAcc := 0, beats := [],
    waiters := [], mcas := [], items := [], cards := [], fetched := [], grids := [], colls := [], nextId := 1, out := [] }

/-! ### Stops -/

/-- Faults of the model. The faults of the device (Table 19.8) are not among them: they are next states. -/
inductive Fault where
  /-- raised by the meaning of an instruction of the opcode map when no slice is issuing a bundle, which no step of the
  machine brings about; safe -/
  | noIssue
  deriving DecidableEq, Repr

/-- Refusals of the model. -/
inductive Refusal where
  /-- raised by an arm of exec that has no meaning yet; safe -/
  | notModelled (mnemonic : String)
  deriving DecidableEq, Repr

end Sys2Proof.Machine
end

