-- ==== Sys2Proof/Machine/Flags.lean ====
section
/-! DEFINITION. The floating-point status of a fibre (R85 to R87, Table 5.4) and the matrix status of a group (R104,
Table 5.12). -/

namespace Sys2Proof.Machine

/-! ### Flags of FPST [4:0] -/

def flag.nx : Nat := 1
def flag.uf : Nat := 2
def flag.of : Nat := 4
def flag.dz : Nat := 8
def flag.nv : Nat := 16

/-- The enables of FPST (Table 5.4). -/
def Fibre.enables (b : Fibre) : Nat := bitsOf b.fpst.toNat 12 8

/-- R85, R86: set the flags a live fibre raised. -/
def Fibre.raise (b : Fibre) (flags : Nat) : Fibre :=
  if b.live then { b with fpst := b.fpst ||| BitVec.ofNat 32 (flags % 32) } else b

/-- R85: MTS in steward mode writes the RW fields of FPST, [4:0], and leaves the RO fields. -/
def fpstWrite (old v : Word) : Word := (old &&& 0xFFFFFFE0) ||| (v &&& 0x1F)

/-- The enables that a launch record's FPEN gives a fibre. -/
def fpstInit (fpen : Nat) : Word := BitVec.ofNat 32 ((fpen % 32) * 256)

/-! ### MXST -/

def mxst.aloss : Nat := 1
def mxst.bloss : Nat := 2
def mxst.ovf : Nat := 4
def mxst.nan : Nat := 8

/-- R104: MTS in steward mode writes the four flags. -/
def mxstWrite (old v : Word) : Word := (old &&& 0xFFFFFFF0) ||| (v &&& 0xF)

/-- The sticky bits collect events. -/
def Group.mxRaise (g : Group) (bits : Nat) : Group := { g with mxst := g.mxst ||| BitVec.ofNat 32 (bits % 16) }

end Sys2Proof.Machine
end

