-- ==== Sys2Proof/Machine/Num.lean ====
section
/-! DEFINITION. Number formats (05): binary formats and their codes (R81, R88 to R90), Round (R82, R83), the NaN rule
(R84), the MX block scale, element conversion and expansion (R94 to R96), and block alignment (R97, R98). -/

namespace Sys2Proof.Machine

/-! ### Formats -/

/-- A binary format: exponent and fraction bits, bias, the largest finite magnitude code, and which specials it has. -/
structure Fmt where
  ex : Nat
  fr : Nat
  bias : Nat
  /-- magnitude code of the largest finite value -/
  top : Nat
  hasInf : Bool
  hasNan : Bool
  deriving DecidableEq, Repr

def Fmt.bits (F : Fmt) : Nat := 1 + F.ex + F.fr
/-- emin: the exponent of the smallest normal value. -/
def Fmt.emin (F : Fmt) : Int := 1 - F.bias
/-- The code of the sign bit. -/
def Fmt.sign (F : Fmt) (neg : Bool) : Nat := neg.toNat * 2 ^ (F.ex + F.fr)
/-- The exponent of the value that one unit of the magnitude code with e = 0 stands for. -/
def Fmt.low (F : Fmt) : Int := F.emin - F.fr

def fp32 : Fmt := ⟨8, 23, 127, 0x7F7FFFFF, true, true⟩
def fp16 : Fmt := ⟨5, 10, 15, 0x7BFF, true, true⟩
def bf16 : Fmt := ⟨8, 7, 127, 0x7F7F, true, true⟩
def e4m3 : Fmt := ⟨4, 3, 7, 0x7E, false, true⟩
def e5m2 : Fmt := ⟨5, 2, 15, 0x7B, true, true⟩
def e3m2 : Fmt := ⟨3, 2, 3, 0x1F, false, false⟩
def e2m3 : Fmt := ⟨2, 3, 1, 0x1F, false, false⟩
def e2m1 : Fmt := ⟨2, 1, 1, 0x7, false, false⟩

/-- Field FT of Table 9.1. -/
def ftFmt (ft : Nat) : Fmt :=
  match ft with
  | 0 => fp32
  | 1 => fp16
  | _ => bf16

/-- The magnitude code of infinity in a format that has one. -/
def Fmt.infCode (F : Fmt) : Nat := F.top + 1
/-- The default NaN of a format with infinities (Table 5.1), and the quiet NaN of E5M2 and E4M3 (R88). -/
def Fmt.nanCode (F : Fmt) : Nat := if F.hasInf then F.infCode + 2 ^ (F.fr - 1) else F.top + 1

/-- What a code stands for. A finite value is (-1)^neg * m * 2^e. -/
inductive FVal where
  | fin (neg : Bool) (m : Nat) (e : Int)
  | inf (neg : Bool)
  /-- signalling or quiet, with the fraction -/
  | nan (neg sig : Bool) (frac : Nat)
  deriving DecidableEq, Repr

/-- Decode(c, F) of R88, with the infinities and NaNs of R81 and Table 5.5. -/
def Fmt.decode (F : Fmt) (c : Nat) : FVal :=
  let neg := c.testBit (F.ex + F.fr)
  let mag := c % 2 ^ (F.ex + F.fr)
  if F.top < mag then
    if F.hasInf ∧ mag = F.infCode then .inf neg
    else .nan neg (F.hasInf && !mag.testBit (F.fr - 1)) (mag % 2 ^ F.fr)
  else
    let e := mag / 2 ^ F.fr
    let m := mag % 2 ^ F.fr
    if e = 0 then .fin neg m F.low else .fin neg (2 ^ F.fr + m) (F.low + e - 1)

def FVal.isNan : FVal → Bool
  | .nan _ _ _ => true
  | _ => false

def FVal.isSnan : FVal → Bool
  | .nan _ s _ => s
  | _ => false

/-- A code with the flags its making raised. -/
abbrev FRes := Nat × Nat

def Fmt.zero (F : Fmt) (neg : Bool) : Nat := F.sign neg
def Fmt.inf (F : Fmt) (neg : Bool) : Nat := F.sign neg + F.infCode

/-! ### Rounding (R82, R83) -/

/-- RoundInt of m * 2^s with the sign neg: the integer and whether it differs. Table 5.2 codes the mode. -/
def roundScaled (mode : Nat) (neg : Bool) (m : Nat) (s : Int) : Nat × Bool :=
  if 0 ≤ s then (m <<< s.toNat, false)
  else
    let d := min (-s).toNat (Nat.log2 m + 2)
    let q := m >>> d
    let r := m % 2 ^ d
    let half := 2 ^ (d - 1)
    let up :=
      match mode with
      | 0 => decide (half < r) || (r == half && q % 2 == 1)
      | 1 => false
      | 2 => decide (r ≠ 0) && !neg
      | _ => decide (r ≠ 0) && neg
    (q + up.toNat, decide (r ≠ 0))

/-- floor(log2(m * 2^e)) of a nonzero magnitude. -/
def magLog (m : Nat) (e : Int) : Int := (Nat.log2 m : Int) + e

/-- Overflow(s, F, mode) of Table 5.3: whether the result is infinite. -/
def overInf (mode : Nat) (neg : Bool) : Bool :=
  match mode with
  | 0 => true
  | 1 => false
  | 2 => !neg
  | _ => neg

/-- Round(v, F, mode) of R83 for v = (-1)^neg * m * 2^e. A zero keeps its sign. -/
def Fmt.round (F : Fmt) (mode : Nat) (neg : Bool) (m : Nat) (e : Int) : FRes :=
  if m = 0 then (F.zero neg, 0)
  else
    let k := max (magLog m e) F.emin
    let r := roundScaled mode neg m (e - (k - F.fr))
    let code := (k - F.emin).toNat * 2 ^ F.fr + r.1
    if F.top < code then
      (F.sign neg + (if overInf mode neg then (if F.hasInf then F.infCode else F.nanCode) else F.top),
        flag.of + flag.nx)
    else
      (F.sign neg + code,
        if r.2 then flag.nx + (if magLog m e < F.emin then flag.uf else 0) else 0)

/-- An integer in a format. -/
def Fmt.ofInt (F : Fmt) (mode : Nat) (v : Int) : FRes := F.round mode (v < 0) v.natAbs 0

/-! ### NaNs (R84) -/

/-- A NaN of a format with `fs` fraction bits, quieted, in format D. -/
def Fmt.quiet (D : Fmt) (fs : Nat) (neg : Bool) (frac : Nat) : Nat :=
  let f := if D.fr ≤ fs then frac >>> (fs - D.fr) else frac <<< (D.fr - fs)
  D.sign neg + D.infCode + (f ||| 2 ^ (D.fr - 1))

/-- The NaN rule over operands in source order, each with the fraction bits of its format. -/
def nanRule (D : Fmt) (ops : List (Nat × FVal)) : Option FRes :=
  let nv := if ops.any fun o => o.2.isSnan then flag.nv else 0
  ops.findSome? fun o =>
    match o.2 with
    | .nan neg _ frac => some (D.quiet o.1 neg frac, nv)
    | _ => none

/-- An invalid operation (R84). -/
def Fmt.invalid (F : Fmt) : FRes := (F.nanCode, flag.nv)

/-! ### Sums and products of exact values -/

/-- An exact term: sign, magnitude, exponent. -/
structure Term where
  neg : Bool
  m : Nat
  e : Int
  deriving DecidableEq, Repr

/-- The signed integer of a term in units of 2^e0, for e0 no larger than its exponent. -/
def Term.at (t : Term) (e0 : Int) : Int :=
  let v : Int := (t.m <<< (t.e - e0).toNat : Nat)
  if t.neg then -v else v

def minExp (ts : List Term) : Int := ts.foldl (fun a t => min a t.e) ((ts.head?.map Term.e).getD 0)

/-- The exact sum of terms, rounded once. A zero sum follows R83: the common sign of the terms, else +0, or -0 under
.rdn. -/
def Fmt.sum (F : Fmt) (mode : Nat) (ts : List Term) : FRes :=
  let e0 := minExp ts
  let v : Int := ts.foldl (fun a t => a + t.at e0) 0
  if v = 0 then
    let neg := if ts.all fun t => t.neg == (ts.head?.map Term.neg).getD false then (ts.head?.map Term.neg).getD false
      else decide (mode = 3)
    (F.zero neg, 0)
  else F.round mode (v < 0) v.natAbs e0

def FVal.term : FVal → Term
  | .fin neg m e => ⟨neg, m, e⟩
  | .inf neg => ⟨neg, 0, 0⟩
  | .nan neg _ _ => ⟨neg, 0, 0⟩

def FVal.isInf : FVal → Bool
  | .inf _ => true
  | _ => false

def FVal.isZero : FVal → Bool
  | .fin _ m _ => decide (m = 0)
  | _ => false

def FVal.neg : FVal → Bool
  | .fin n _ _ | .inf n | .nan n _ _ => n

/-- A product of two values that are not NaN: none where it is 0 * infinity, else its sign and, if finite, its term. -/
def mulVal (a b : FVal) : Option (Bool × Option Term) :=
  let s := a.neg ^^ b.neg
  if (a.isInf && b.isZero) || (a.isZero && b.isInf) then none
  else if a.isInf || b.isInf then some (s, none)
  else some (s, some ⟨s, a.term.m * b.term.m, a.term.e + b.term.e⟩)

/-- A value as a summand. -/
def FVal.summand (a : FVal) : Bool × Option Term := (a.neg, if a.isInf then none else some a.term)

/-- The sum of summands, some of them infinite: opposite infinities are invalid. -/
def Fmt.sumAll (F : Fmt) (mode : Nat) (xs : List (Bool × Option Term)) : FRes :=
  let infs := (xs.filter fun x => x.2.isNone).map (·.1)
  match infs with
  | [] => F.sum mode (xs.filterMap (·.2))
  | n :: _ => if infs.all (· == n) then (F.inf n, 0) else F.invalid

/-- 0 * infinity among operands that may be NaN. -/
def badProduct (a b : FVal) : Bool := (a.isInf && b.isZero) || (a.isZero && b.isInf)

/-- FADD of R142 on values. -/
def Fmt.add (F : Fmt) (mode : Nat) (a b : FVal) : FRes :=
  match nanRule F [(F.fr, a), (F.fr, b)] with
  | some r => r
  | none => F.sumAll mode [a.summand, b.summand]

/-- The sign of a value inverted. -/
def FVal.flip : FVal → FVal
  | .fin n m e => .fin (!n) m e
  | .inf n => .inf (!n)
  | .nan n s f => .nan (!n) s f

/-- FSUB of R142: a NaN operand keeps its sign (R84). -/
def Fmt.sub (F : Fmt) (mode : Nat) (a b : FVal) : FRes :=
  match nanRule F [(F.fr, a), (F.fr, b)] with
  | some r => r
  | none => F.sumAll mode [a.summand, b.flip.summand]

/-- FMUL of R142. -/
def Fmt.mul (F : Fmt) (mode : Nat) (a b : FVal) : FRes :=
  match nanRule F [(F.fr, a), (F.fr, b)] with
  | some r => r
  | none =>
    match mulVal a b with
    | none => F.invalid
    | some (s, none) => (F.inf s, 0)
    | some (s, some t) => F.round mode s t.m t.e

/-- FFMA of R143. -/
def Fmt.fma (F : Fmt) (mode : Nat) (a b c : FVal) : FRes :=
  match nanRule F [(F.fr, a), (F.fr, b), (F.fr, c)] with
  | some (r, fl) => (r, if badProduct a b then flag.nv else fl)
  | none =>
    match mulVal a b with
    | none => F.invalid
    | some p => F.sumAll mode [p, c.summand]

/-- FDOT2 of R149: 16-bit pairs of format F and an FP32 value, rounded once to FP32. -/
def Fmt.dot2 (F : Fmt) (mode : Nat) (a0 a1 b0 b1 c : FVal) : FRes :=
  match nanRule fp32 [(F.fr, a0), (F.fr, a1), (F.fr, b0), (F.fr, b1), (23, c)] with
  | some (r, fl) => (r, if badProduct a0 b0 || badProduct a1 b1 then flag.nv else fl)
  | none =>
    match mulVal a0 b0, mulVal a1 b1 with
    | some p, some q => fp32.sumAll mode [p, q, c.summand]
    | _, _ => fp32.invalid

/-! ### Order -/

/-- The order of two values that are not NaN, -0 equal to +0. -/
def cmpVal (a b : FVal) : Ordering :=
  match a, b with
  | .inf n, .inf m => if n = m then .eq else if n then .lt else .gt
  | .inf n, _ => if n then .lt else .gt
  | _, .inf m => if m then .gt else .lt
  | a, b =>
    let e0 := min a.term.e b.term.e
    compare (a.term.at e0) (b.term.at e0)

/-- R144: a is the lesser, with -0 below +0. -/
def lessVal (a b : FVal) : Bool :=
  match cmpVal a b with
  | .lt => true
  | .gt => false
  | .eq => a.neg && !b.neg

/-- FMIN, FMAX (number = false) and FMINN, FMAXN (number = true) on codes (Table 9.3). -/
def Fmt.minMax (F : Fmt) (max number : Bool) (x y : Nat) : FRes :=
  let a := F.decode x
  let b := F.decode y
  if number ∧ a.isNan ≠ b.isNan then
    (if a.isNan then y else x, if a.isSnan || b.isSnan then flag.nv else 0)
  else
    match nanRule F [(F.fr, a), (F.fr, b)] with
    | some r => r
    | none => (if max then (if lessVal a b then y else x) else (if lessVal b a then y else x), 0)

/-! ### One operand -/

/-- FRND of R147. -/
def Fmt.rnd (F : Fmt) (mode : Nat) (exact : Bool) (x : Nat) : FRes :=
  match F.decode x with
  | .inf _ => (x, 0)
  | .nan n s f => (nanRule F [(F.fr, .nan n s f)]).getD (x, 0)
  | .fin neg m e =>
    let r := roundScaled mode neg m e
    ((F.round 0 neg r.1 0).1, if exact && r.2 then flag.nx else 0)

/-- FSCALE of R148. Past 1,024 in either direction every finite operand overflows or rounds as one that is nearer. -/
def Fmt.scale (F : Fmt) (mode : Nat) (x : Nat) (n : Int) : FRes :=
  match F.decode x with
  | .inf _ => (x, 0)
  | .nan ng s f => (nanRule F [(F.fr, .nan ng s f)]).getD (x, 0)
  | .fin neg m e => F.round mode neg m (e + max (-1024) (min 1024 n))

/-- FCLASS of R146, Table 9.5. -/
def Fmt.class (F : Fmt) (x : Nat) : Nat :=
  match F.decode x with
  | .nan _ s _ => if s then 1 else 2
  | .inf n => if n then 4 else 512
  | .fin n m _ =>
    if m = 0 then (if n then 32 else 64)
    else if m < 2 ^ F.fr then (if n then 16 else 128)
    else if n then 8 else 256

/-- floor(sqrt(x)) by bits: x below 4^n. -/
def isqrt (x : Nat) : Nat → Nat
  | 0 => 0
  | n + 1 =>
    let r := isqrt (x / 4) n * 2
    if (r + 1) * (r + 1) ≤ x then r + 1 else r

/-- 1/a of a nonzero magnitude with a sticky bit below 64 quotient bits: magnitude and exponent. -/
def recipMag (m : Nat) (e : Int) : Nat × Int :=
  let k := Nat.log2 m + 64
  let q := 2 ^ k / m
  (2 * q + (decide (2 ^ k % m ≠ 0)).toNat, -(k : Int) - e - 1)

/-- sqrt(a) of a nonzero magnitude with a sticky bit. -/
def sqrtMag (m : Nat) (e : Int) : Nat × Int :=
  let odd := e % 2 = 1
  let m := (if odd then 2 * m else m) * 2 ^ 128
  let e := (if odd then e - 1 else e) - 128
  let r := isqrt m (Nat.log2 m / 2 + 1)
  (2 * r + (decide (r * r ≠ m)).toNat, e / 2 - 1)

/-- FRCP of R150, Table 9.7. -/
def Fmt.rcp (F : Fmt) (mode : Nat) (x : Nat) : FRes :=
  match F.decode x with
  | .nan n s f => (nanRule F [(F.fr, .nan n s f)]).getD (x, 0)
  | .inf n => (F.zero n, 0)
  | .fin n m e =>
    if m = 0 then (F.inf n, flag.dz)
    else
      let r := recipMag m e
      F.round mode n r.1 r.2

/-- FSQRT of R150, Table 9.7. -/
def Fmt.sqrt (F : Fmt) (mode : Nat) (x : Nat) : FRes :=
  match F.decode x with
  | .nan n s f => (nanRule F [(F.fr, .nan n s f)]).getD (x, 0)
  | .inf n => if n then F.invalid else (x, 0)
  | .fin n m e =>
    if m = 0 then (x, 0)
    else if n then F.invalid
    else
      let r := sqrtMag m e
      F.round mode false r.1 r.2

/-! ### Conversions (R93) -/

/-- Float to float. -/
def convF (S D : Fmt) (mode : Nat) (x : Nat) : FRes :=
  match S.decode x with
  | .nan n s f => (nanRule D [(S.fr, .nan n s f)]).getD (0, 0)
  | .inf n => (D.inf n, 0)
  | .fin n m e => D.round mode n m e

/-- Float to integer with limits lo and hi: the integer and its flags. -/
def convToInt (S : Fmt) (mode : Nat) (lo hi : Int) (x : Nat) : Int × Nat :=
  match S.decode x with
  | .nan _ _ _ => (0, flag.nv)
  | .inf n => (if n then lo else hi, flag.nv)
  | .fin n m e =>
    let r := roundScaled mode n m e
    let v : Int := if n then -(r.1 : Int) else r.1
    if v < lo then (lo, flag.nv)
    else if hi < v then (hi, flag.nv)
    else (v, if r.2 then flag.nx else 0)

/-! ### Element formats (Table 5.8) and MX blocks (R94 to R96) -/

/-- The minifloat of an ELEM code 0x0 to 0x4. -/
def elemFmt (elem : Nat) : Fmt :=
  match elem with
  | 0 => e2m1
  | 1 => e2m3
  | 2 => e3m2
  | 3 => e4m3
  | 4 => e5m2
  | 6 => bf16
  | 7 => fp16
  | _ => fp32

/-- Bits of an element (R90). -/
def elemBits (elem : Nat) : Nat := if elem = 5 then 8 else (elemFmt elem).bits

/-- EMAX of Table 5.5. -/
def elemEmax (elem : Nat) : Int :=
  match elem with
  | 0 | 1 => 2
  | 2 => 4
  | 3 => 8
  | 4 => 15
  | _ => 0

/-- An element code as a value: R88, and MXINT8 signed or unsigned (R99). -/
def elemDecode (elem : Nat) (uns : Bool) (c : Nat) : FVal :=
  if elem = 5 then
    let v : Int := if uns then (c % 256 : Nat) else toSigned 8 (c % 256)
    .fin (v < 0) v.natAbs (-6)
  else (elemFmt elem).decode (c % 2 ^ elemBits elem)

/-- BlockScale of R94 over the FP32 values that take part. -/
def blockScale (elem : Nat) (xs : List Nat) : Nat :=
  let vs := xs.map fp32.decode
  if vs.any FVal.isNan then 0xFF
  else
    let logs := vs.filterMap fun v =>
      match v with
      | .fin _ m e => if m = 0 then none else some (magLog m e)
      | _ => none
    match logs with
    | [] => 0
    | h :: t => (min (max (t.foldl max h - elemEmax elem) (-127)) 127 + 127).toNat

/-- R95 steps 3 and 4: what an overflow gives. -/
def elemOver (elem : Nat) (mode : Nat) (sat neg : Bool) : Nat :=
  if elem = 5 then (if neg then 0x81 else 0x7F)
  else
    let F := elemFmt elem
    F.sign neg + (if F.hasNan && !sat && overInf mode neg then (if F.hasInf then F.infCode else F.nanCode) else F.top)

/-- R95: an FP32 value in the element format under scale exponent X (0 where the slot is not scaled). -/
def elemEncode (elem : Nat) (X : Int) (mode : Nat) (sat : Bool) (x : Nat) : FRes :=
  match fp32.decode x with
  | .nan n s _ =>
    if elem = 3 ∨ elem = 4 then ((elemFmt elem).sign n + (elemFmt elem).nanCode, if s then flag.nv else 0)
    else (0, flag.nv)
  | .inf n =>
    if elem = 4 ∧ !sat then (e5m2.inf n, 0) else (elemOver elem mode sat n, flag.nv)
  | .fin n m e =>
    let e := e - X
    if elem = 5 then
      if m = 0 then (0, 0)
      else
        let r := roundScaled mode n m (e + 6)
        if 127 < r.1 then (elemOver elem mode sat n, flag.of + flag.nx)
        else (narrow 8 (if n then -(r.1 : Int) else r.1),
          if r.2 then flag.nx + (if magLog m e < -6 then flag.uf else 0) else 0)
    else
      let r := (elemFmt elem).round mode n m e
      if r.2.testBit 2 then (elemOver elem mode sat n, flag.of + flag.nx) else r

/-- R96: an element code with its scale code as FP32. -/
def elemExpand (elem : Nat) (scaled : Bool) (z c : Nat) : FRes :=
  let v := elemDecode elem false c
  if v.isNan || (scaled && z % 256 == 0xFF) then (fp32.nanCode, if v.isSnan then flag.nv else 0)
  else
    match v with
    | .inf n => (fp32.inf n, 0)
    | .fin n m e => fp32.round 0 n m (e + (if scaled then (z % 256 : Int) - 127 else 0))
    | .nan _ _ _ => (fp32.nanCode, 0)

/-! ### Compute-in-memory operands (R97 to R103) -/

/-- w of Table 5.10. -/
def aWidth (elem : Nat) (uns : Bool) : Nat :=
  match elem with
  | 0 => 5
  | 1 => 7
  | 2 => 10
  | 3 => 10
  | 4 => 8
  | 5 => if uns then 9 else 8
  | _ => 12

/-- c of Table 5.11. -/
def bCells (elem : Nat) : Nat :=
  match elem with
  | 0 => 1
  | 6 => 3
  | _ => 2

/-- The weight of an exact format (Tables 5.10, 5.11). -/
def exactL (elem : Nat) : Option Int :=
  match elem with
  | 0 => some (-1)
  | 1 => some (-3)
  | 2 => some (-4)
  | 5 => some (-6)
  | _ => none

/-- A block as integers: the integers in order, the weight exponent, whether an element was lost, and whether the block
holds a NaN or an infinity (R97, R98, R101). -/
structure BlockInts where
  ints : List Int
  l : Int
  loss : Bool
  special : Bool
  deriving DecidableEq, Repr

def signedOf (neg : Bool) (n : Nat) : Int := if neg then -(n : Int) else n

/-- Align of R98 with n magnitude bits over the finite nonzero elements, or the exact mapping of R97; `special` says that
the block holds a NaN or an infinity. -/
def blockInts (elem n : Nat) (uns : Bool) (codes : List Nat) : BlockInts :=
  let vs := codes.map (elemDecode elem uns)
  let odd (v : FVal) : Bool := v.isNan || v.isInf
  match exactL elem with
  | some l => ⟨vs.map fun v => signedOf v.neg (v.term.m <<< (v.term.e - l).toNat), l, false, vs.any odd⟩
  | none =>
    let logs := vs.filterMap fun v =>
      if odd v || v.isZero then none else some (max (magLog v.term.m v.term.e) (elemFmt elem).emin)
    match logs with
    | [] => ⟨vs.map fun _ => 0, 0, false, vs.any odd⟩
    | h :: t =>
      let l := t.foldl max h - n + 1
      let is := vs.map fun v => (v, if odd v then 0 else (roundScaled 0 false v.term.m (v.term.e - l)).1)
      ⟨is.map fun p => signedOf p.1.neg p.2, l, is.any fun p => !odd p.1 && !p.1.isZero && p.2 == 0, vs.any odd⟩

/-- R100, R101: an accumulator after a block's sum S * 2^e; the flag says that it overflowed (OVF). A NaN there, a
signalling one included, keeps its bits: the rule says only that it stays NaN (DESIGN CHOICE, log 44). -/
def accAdd (acc : Nat) (S : Int) (e : Int) : Nat × Bool :=
  if S = 0 then (acc, false)
  else
    match fp32.decode acc with
    | .fin n m ea =>
      let r := fp32.sum 0 [⟨n, m, ea⟩, ⟨S < 0, S.natAbs, e⟩]
      (r.1, r.2.testBit 2)
    | _ => (acc, false)

/-- R101: the default NaN added to an accumulator: a NaN there stays as it is, bit for bit (DESIGN CHOICE, log 44). -/
def accNan (acc : Nat) : Nat :=
  match fp32.decode acc with
  | .nan _ _ _ => acc
  | _ => fp32.nanCode

end Sys2Proof.Machine
end

