-- ==== Sys2Proof/Config.lean ====
section
/-! DEFINITION. What one device fixes and the spec leaves open: the configuration blob (R337), choices of an
implementation, and free values. An opaque constant has no value that a proof can see; each is DESIGN CHOICE logged in
notes/assumptions/2.md or 3.md. -/

namespace Sys2Proof.Config

/-! ### The configuration blob (R337), within its bounds -/

/-- Hexavo ports of stack s that a partition led by l may enable: bit p for port p. -/
opaque blobHexavo (l s : Nat) : BitVec 2

opaque blobFloorRaw (sensor : Nat) : Nat
/-- Floor of the alarm action of a sensor (0 voltage, 1 clock, 2 temperature, 3 mesh): log, halt or erase. -/
def blobFloor (sensor : Nat) : Nat := blobFloorRaw sensor % 3

opaque blobTickRaw : Nat
/-- Largest tick period the steward may set: 1,000 to 1,048,575 us. -/
def blobTickMax : Nat := 1000 + blobTickRaw % 1047576

opaque blobCapRaw : Nat
/-- Reset value of PWRCAP.CAP: 400 to 2,500 W. -/
def blobCap : Nat := 400 + blobCapRaw % 2101

/-! ### Choices that R183, R188 and R351 leave to the device -/

opaque l1SetRaw (k stack sva : Nat) : Nat
/-- The set of an L1 line: one of 128 (R183). -/
def l1Set (k stack sva : Nat) : Nat := l1SetRaw k stack sva % 128

/-- Which of n candidate lines a fill replaces (R183, R188). -/
opaque victim (n ctr : Nat) : Nat

opaque scSetRaw (stack line : Nat) : Nat
/-- The set of a line in the stack cache: one of 16,384. -/
def scSet (stack line : Nat) : Nat := scSetRaw stack line % 16384

opaque bankRaw (stack line : Nat) : Nat
/-- The DRAM bank of a line: one of the 16 that FENCED counts (R351). -/
def bankOf (stack line : Nat) : Nat := bankRaw stack line % 16

/-- Whether an access takes a translation from the stack TLB while a change is not yet invalidated (R176). -/
opaque tlbOld (ctr : Nat) : Bool

/-- Whether an LDC takes an L1 copy where one exists (R194). -/
opaque ldcFromL1 (ctr : Nat) : Bool

opaque halyardRaw (vf : Nat) : Nat
/-- Entries of a VF's Halyard queue, at least one; Table 17.1 gives the read of q1 and no capacity. -/
def halyardEntries (vf : Nat) : Nat := halyardRaw vf + 1

opaque saveRaw (vf n : Nat) : Nat
/-- Bytes of save area that n halted groups of a VF need (R320): at most 16 MiB for each. -/
def saveBytes (vf n : Nat) : Nat := n * (saveRaw vf n % 2 ^ 24 + 1)

/-! ### Free values -/

/-- A byte of a save area after it was written (R320). -/
opaque saveByte (ctr n : Nat) : BitVec 8

/-- The cause code of a record that the alarm unit writes (R350). -/
opaque alarmCause (sensor : Nat) : BitVec 8

/-- A byte that host memory returns (R359). -/
opaque hostByte (ctr n : Nat) : BitVec 8

/-- A host completion with an error status, and a request that the host never completes (R359). -/
opaque hostError (ctr : Nat) : Bool
opaque hostSilent (ctr : Nat) : Bool

/-- A byte of on-chip storage that no group owns (R179): what an earlier owner left, or nothing. -/
opaque freeRow (ctr n : Nat) : BitVec 8

/-- Bytes of an SPDM response: signatures, nonces and exchange data (R336). -/
opaque spdmByte (ctr n : Nat) : BitVec 8

/-- The device seed that the PUF gives, the same at every reset, and the identity key derived from it (R335). -/
opaque pufSeed : BitVec 256
opaque identityKey (seed : BitVec 256) : BitVec 384

/-- The identity certificate chain of an identity key, signed by the root (R335): its length and its bytes. -/
opaque chainLength : Nat
opaque chainByte (key : BitVec 384) (n : Nat) : BitVec 8

/-- What names the 384-bit Brainpool curve in SPDM's extended asymmetric algorithm field (R336). -/
opaque brainpoolId : BitVec 32

/-- Number n that the DRBG of the security processor draws (R340, R341). -/
opaque drbg (n : Nat) : BitVec 256

/-- Byte n of the digest of a measured object 1 to 4 of Table 21.6, which no part of the state holds. -/
opaque measuredByte (index n : Nat) : BitVec 8

/-- Which of the values within the bound of Table 9.6 a special function returns. -/
opaque sfuPick (fn ty x : Nat) : Nat

/-- Whether an agnostic element of a vector result is written with ones rather than kept (R364; RVV 1.0). -/
opaque rvOnes (ctr n : Nat) : Bool

/-- The vector length for an AVL between VLMAX and twice it, before its bounds (R364; RVV 1.0). -/
opaque rvVl (avl vlmax : Nat) : Nat

/-- The unordered sum of a vector reduction and its flags, whose order RVV 1.0 leaves open. -/
opaque rvUsum (rm : Nat) (xs : List Nat) : BitVec 32
opaque rvUsumFlags (rm : Nat) (xs : List Nat) : BitVec 5

end Sys2Proof.Config
end

