-- ==== Sys2Proof/WellFormed.lean ====
section
/-! DEFINITION. Which slots are instructions: the operand shape of every opcode (Tables 7.2, 7.3, 9.2, 9.12, 11.10,
15.2, 17.2, 17.13, 19.10) and the decode traps of R54 to R60, R63, R64, R71, in the order of R72. -/

namespace Sys2Proof

/-- The three decode traps, in the order in which R72 reports them. -/
inductive DecodeTrap where
  | illegalInstruction | illegalModifier | operandOverlap
  deriving DecidableEq, Repr

/-- How an instruction uses a source field. -/
inductive SrcUse where
  /-- not read, so not looked at (R56) -/
  | ignored
  /-- listed as zero by the instruction's table -/
  | zero
  /-- zero apart from OM, which carries CLS (R191, R247) -/
  | zeroCls
  /-- a group of n registers of any kind of Table 3.6; `om` says whether OM has a meaning -/
  | val (n : Nat) (om : Bool)
  /-- a group of n registers, v or s only; `om` says whether OM has a meaning -/
  | vs (n : Nat) (om : Bool)
  /-- v, s or latch (LEA's pointer, FORK's argument) -/
  | vsx (n : Nat)
  /-- v, s, latch or a special constant 0x00 to 0x3F (CVTX, R157) -/
  | vsxc
  /-- a predicate in a source field (R108) -/
  | pred
  /-- CVT's rounding code (R154) -/
  | rnd
  deriving DecidableEq, Repr

/-- How an instruction uses OE (R59, R108). -/
inductive OeUse where
  | unused | source | predSrc | dst2 (k : DstKind)
  deriving DecidableEq, Repr

/-- How an instruction uses DST (R55). -/
inductive DstUse where
  | none | v (n : Nat) | vOrNone (n : Nat) | vOrQueue (n : Nat) | pred | predZero | conv | cardQueue
  deriving DecidableEq, Repr

/-- The operand shape of one instruction, with what is wrong with its modifier and its other fields. -/
structure Shape where
  ctl : Ctl
  /-- OPC[9:7]; 4 for MFS, which accepts a latch capture as the other instructions of Table 7.3 do (log 14) -/
  cls : Nat
  srcs : List (Src × SrcUse)
  oe : Src × OeUse
  dst : Dst × DstUse
  /-- MOD holds a value the instruction does not list (R63) -/
  modBad : Bool
  /-- some other field holds what the instruction forbids -/
  ill : Bool
  deriving DecidableEq, Repr

def zeroSrc : Src := ⟨.vreg, 0, false⟩

/-- "None" in DST (R55). -/
def Dst.isNone (d : Dst) : Bool := d == ⟨false, false, .conv, 0xFF⟩

/-- Queue registers that may be read (Table 17.1): q0 to q2, q4 to q8. -/
def queueReadable (q : Nat) : Bool := q ≤ 2 || (4 ≤ q && q ≤ 8)

/-- Queue registers that MOV and MOVI may push to (Table 17.1): q0 to q2 and q8. -/
def queueWritable (q : Nat) : Bool := q ≤ 2 || q == 8

/-- R58: the first register of a group is a multiple of Min(group size, 4). -/
def misaligned (num n : Nat) : Bool := decide (num % min n 4 ≠ 0)

/-- R56, R58, R66: a source group of n registers that its field cannot name. -/
def groupIllegal (x : Src) (n : Nat) : Bool :=
  match x.kind with
  | .vreg => misaligned x.num.toNat n
  | .scalar => decide (64 < x.num.toNat + n) || misaligned x.num.toNat n
  | .latch => decide (3 < x.num.toNat) || decide (2 < n)
  | .special =>
    if x.num.toNat < 0x48 then false
    else if 0x50 ≤ x.num.toNat ∧ x.num.toNat < 0x60 then !(queueReadable (x.num.toNat - 0x50)) || decide (1 < n)
    else true

/-- A source field that raises Illegal Instruction (R56, R57, R58, R108, R154, R157). -/
def srcIllegal (x : Src) : SrcUse → Bool
  | .ignored => false
  | .zero => x != zeroSrc
  | .zeroCls => x.kind != .vreg || x.num != 0
  | .val n om => (x.om && !om) || groupIllegal x n
  | .vs n om => (x.om && !om) || (x.kind == .latch || x.kind == .special) || groupIllegal x n
  | .vsx n => x.om || x.kind == .special || groupIllegal x n
  | .vsxc => x.om || (x.kind == .special && decide (0x40 ≤ x.num.toNat)) || groupIllegal x 1
  | .pred => x.kind != .vreg || decide (16 ≤ x.num.toNat)
  | .rnd => x.kind != .special || decide (4 ≤ x.num.toNat) || x.om

/-- KIND of an OE that serves as a second destination, under Table 3.5 (R59). -/
def oeDstKind : SrcKind → DstKind
  | .vreg => .vreg | .scalar => .pred | .latch => .queue | .special => .conv

/-- An OE that raises Illegal Instruction (R59, R108). -/
def oeIllegal (x : Src) : OeUse → Bool
  | .unused => x != zeroSrc
  | .source => srcIllegal x (.val 1 false)
  | .predSrc => x.kind != .scalar || decide (16 ≤ x.num.toNat)
  | .dst2 k => x != zeroSrc && (!x.om || oeDstKind x.kind != k || (k == .pred && decide (16 ≤ x.num.toNat)))

/-- OE names a second destination (R59). -/
def hasDst2 (x : Src) : OeUse → Bool
  | .dst2 _ => x.om
  | _ => false

/-- R55: what is wrong with WBS, CAP and the range of NUM. -/
def captureIllegal (d : Dst) (n cls : Nat) (capOk : Bool) : Bool :=
  (d.wbs && !d.cap) || (d.cap && (d.kind != .vreg || decide (2 < n) || cls == 6 || !capOk))

/-- A destination field that raises Illegal Instruction (R55, R58, R107, R247, R271, R274). -/
def dstIllegal (d : Dst) (cls : Nat) (capOk : Bool) : DstUse → Bool
  | .none => !d.isNone
  | .v n => d.kind != .vreg || misaligned d.num.toNat n || captureIllegal d n cls capOk
  | .vOrNone n => !d.isNone && (d.kind != .vreg || misaligned d.num.toNat n || captureIllegal d n cls capOk)
  | .vOrQueue n =>
    match d.kind with
    | .vreg => misaligned d.num.toNat n || captureIllegal d n cls capOk
    | .queue => d.wbs || d.cap || !queueWritable d.num.toNat
    | _ => true
  | .pred => d.kind != .pred || d.wbs || d.cap || decide (16 ≤ d.num.toNat)
  | .predZero => d != ⟨false, false, .pred, 0⟩
  | .conv => d.kind != .conv || d.wbs || d.cap || decide (8 ≤ d.num.toNat)
  | .cardQueue => d.kind != .queue || d.wbs || d.cap || decide (3 ≤ d.num.toNat)

/-- The v-register group a source names, as first register and count. -/
def srcGroup (x : Src) : SrcUse → List (Nat × Nat)
  | .val n _ | .vs n _ | .vsx n => if x.kind = .vreg then [(x.num.toNat, n)] else []
  | .vsxc => if x.kind = .vreg then [(x.num.toNat, 1)] else []
  | _ => []

def oeSrcGroup (x : Src) : OeUse → List (Nat × Nat)
  | .source => if x.kind = .vreg then [(x.num.toNat, 1)] else []
  | _ => []

def dstGroup (d : Dst) : DstUse → List (Nat × Nat)
  | .v n | .vOrNone n | .vOrQueue n => if d.kind = .vreg then [(d.num.toNat, n)] else []
  | _ => []

def dst2Group (x : Src) : OeUse → List (Nat × Nat)
  | .dst2 .vreg => if x.om then [(x.num.toNat, 1)] else []
  | _ => []

/-- The v-register groups an instruction reads. -/
def Shape.reads (h : Shape) : List (Nat × Nat) :=
  (h.srcs.flatMap fun p => srcGroup p.1 p.2) ++ oeSrcGroup h.oe.1 h.oe.2

/-- The v-register groups an instruction writes. -/
def Shape.writes (h : Shape) : List (Nat × Nat) := dstGroup h.dst.1 h.dst.2 ++ dst2Group h.oe.1 h.oe.2

def rangesMeet (a b : Nat × Nat) : Bool := decide (a.1 < b.1 + b.2) && decide (b.1 < a.1 + a.2)

/-- R71: partial overlap of a destination group of more than one register with a source group, or two destinations
that share a register. -/
def Shape.overlap (h : Shape) : Bool :=
  (h.writes.any fun d => decide (1 < d.2) && h.reads.any fun x => rangesMeet d x && d != x) ||
  (match dstGroup h.dst.1 h.dst.2, dst2Group h.oe.1 h.oe.2 with
   | [a], [b] => rangesMeet a b
   | _, _ => false) ||
  (h.dst.2 == .pred && h.oe.2 == .dst2 .pred && h.oe.1.om && h.oe.1.num == h.dst.1.num)

/-- The conditions that raise Illegal Instruction (R54, R55 to R60, R64, R65, R71). -/
def Shape.illegalInstr (h : Shape) : Bool :=
  h.ctl.gc == .reserved || (h.ctl.gc == .single && h.ctl.gb != ⟨false, 0⟩) ||
  (h.ctl.hold && h.ctl.yld) ||
  (h.ctl.hint != 0 && h.cls != 5 && h.cls != 6) ||
  h.ill || (h.srcs.any fun p => srcIllegal p.1 p.2) || oeIllegal h.oe.1 h.oe.2 ||
  dstIllegal h.dst.1 h.cls (h.cls != 7) h.dst.2

/-- R63, R64: a MOD value the instruction does not list, or the reserved hint. -/
def Shape.illegalMod (h : Shape) : Bool := h.modBad || h.ctl.hint == 7

/-- The first decode trap of a shape, in the order of R72. -/
def Shape.verdict (h : Shape) : Option DecodeTrap :=
  if h.illegalInstr then some .illegalInstruction
  else if h.illegalMod then some .illegalModifier
  else if h.overlap then some .operandOverlap
  else none

/-- Registers of an operand of integer type code t (R105). -/
def tyRegs (t : Nat) : Nat := if t % 4 = 3 then 2 else 1

/-- Registers of a SIZE code (Table 11.11). -/
def sizeRegs (z : Nat) : Nat :=
  match z with
  | 0 | 1 | 2 => 1
  | 3 => 2
  | 4 => 4
  | 5 | 7 | 9 => 2
  | 6 | 8 | 10 | 11 => 4
  | 12 | 13 => 8
  | 14 => 16
  -- no size (Illegal Modifier)
  | _ => 1

/-- Registers of a CVT type code (Table 9.10). -/
def cvtRegs (t : Nat) : Nat := if t < 8 then tyRegs t else 1

/-- Table 9.11: the legal pairs of destination and source code. -/
def cvtPair (dt fr : Nat) : Bool :=
  decide (dt ≤ 12) && decide (fr ≤ 12) && dt != fr &&
  (if dt < 8 ∨ fr < 8 then decide (dt ≤ 10) && decide (fr ≤ 10)
   else if 11 ≤ dt ∧ 11 ≤ fr then true
   else if 11 ≤ dt then fr == 8
   else if 11 ≤ fr then dt == 8
   else true)

/-- Special register numbers that Tables 7.4 and 19.2 assign. -/
def sregAssigned (n : Nat) : Bool := decide (n ≤ 0x12) || (decide (0x40 ≤ n) && decide (n ≤ 0x46)) || n == 0x80

section
variable (f : CFmt) (fi : IFmt) (fb : BFmt) (fm : MFmt)

/-- A common-format shape; fields of the table's "unused" columns follow R56. -/
def shapeC (cls : Nat) (a b c : SrcUse) (oe : OeUse) (d : DstUse) (modBad : Bool) : Shape :=
  ⟨f.ctl, cls, [(f.sa, a), (f.sb, b), (f.sc, c)], (f.oe, oe), (f.dst, d), modBad, false⟩

def shapeI (a : SrcUse) (d : DstUse) (modBad : Bool) : Shape :=
  ⟨fi.ctl, 0, [(fi.sa, a)], (zeroSrc, .unused), (fi.dst, d), modBad, fi.low⟩

/-- Branch format: TSLOT 5 to 7, or a nonzero BOP where none is read, is illegal (R61). -/
def shapeB (bop : SrcUse) (uniOk : Bool) (d : DstUse) (modBad : Bool) : Shape :=
  ⟨fb.ctl, 4, [(⟨fb.bopKind, fb.bopNum, false⟩, bop)], (zeroSrc, .unused), (fb.dst, d), modBad,
    decide (4 < fb.tslot.toNat) || (fb.uni && !uniOk)⟩

/-- CLS of a memory-format instruction: the OM bits of SA and SB (R191). -/
def MFmt.clsCode : Nat := 2 * fm.sa.om.toNat + fm.sb.om.toNat

def CFmt.clsCode : Nat := 2 * f.sa.om.toNat + f.sb.om.toNat

def shapeM (cls : Nat) (a b : SrcUse) (d : DstUse) (modBad ill : Bool) : Shape :=
  ⟨fm.ctl, cls, [(fm.sa, a), (fm.sb, b)], (zeroSrc, .unused), (fm.dst, d), modBad, ill⟩

end

/-- MOD[2:0] as a type code, and its upper bits. -/
def CFmt.ty (f : CFmt) : Nat := bitsOf f.md.toNat 2 0
def IFmt.ty (f : IFmt) : Nat := bitsOf f.md.toNat 2 0

/-- Table 9.1: FT is reserved, X2 with .f32, or RND and SUB where the instruction wants zero. -/
def fltModBad (m : Nat) (rndOk : Bool) (subMax : Nat) : Bool :=
  bitsOf m 3 2 == 3 || (m.testBit 4 && bitsOf m 3 2 == 0) || (!rndOk && bitsOf m 1 0 != 0) ||
  decide (subMax < bitsOf m 7 5)

/-- Table 9.13: operation and type of RED and SCAN. -/
def redModBad (m : Nat) : Bool :=
  decide (5 < bitsOf m 2 0) || decide (4 < bitsOf m 5 3) || (bitsOf m 5 3 == 4 && decide (3 ≤ bitsOf m 2 0))

def redRegs (m : Nat) : Nat := if bitsOf m 5 3 = 2 ∨ bitsOf m 5 3 = 3 then 2 else 1

/-- The pointer operand of class 110: a scratchpad offset at .grp, else a buffer pointer (Table 15.1). -/
def atomPtr (scope : Nat) : SrcUse := if scope = 0 then .vs 1 true else .vs 2 true

/-- R247: at .grp or .clu a CLS other than 0b00 is illegal. -/
def atomClsIll (scope cls : Nat) : Bool := decide (scope < 2) && cls != 0

/-- The operand shape of every instruction of the opcode map; events and unassigned opcodes have none. -/
def Instr.shape : Instr → Option Shape
  | .iadd f => some (shapeC f 0 (.val (tyRegs f.ty) true) (.val (tyRegs f.ty) true) .ignored .unused (.v (tyRegs f.ty))
      (bitsOf f.md.toNat 7 4 != 0))
  | .iaddImm f => some (shapeI f (.val (tyRegs f.ty) true) (.v (tyRegs f.ty)) (bitsOf f.md.toNat 7 4 != 0))
  | .isub f | .imul f => some (shapeC f 0 (.val (tyRegs f.ty) false) (.val (tyRegs f.ty) false) .ignored .unused
      (.v (tyRegs f.ty)) (bitsOf f.md.toNat 7 4 != 0))
  | .imulImm f => some (shapeI f (.val (tyRegs f.ty) false) (.v (tyRegs f.ty)) (bitsOf f.md.toNat 7 4 != 0))
  | .imad f => some (shapeC f 0 (.val (tyRegs f.ty) false) (.val (tyRegs f.ty) false) (.val (tyRegs f.ty) true) .unused
      (.v (tyRegs f.ty)) (bitsOf f.md.toNat 7 4 != 0))
  | .imadw f =>
      let n := if f.ty % 4 = 2 then 2 else 1
      some (shapeC f 0 (.val 1 false) (.val 1 false) (.val n true) .unused (.v n)
        (bitsOf f.md.toNat 7 3 != 0 || f.ty % 4 == 3))
  | .imin f | .imax f => some (shapeC f 0 (.val (tyRegs f.ty) false) (.val (tyRegs f.ty) false) .ignored .unused
      (.v (tyRegs f.ty)) (bitsOf f.md.toNat 7 3 != 0))
  | .iabs f => some (shapeC f 0 (.val (tyRegs f.ty) false) .ignored .ignored .unused (.v (tyRegs f.ty))
      (bitsOf f.md.toNat 7 4 != 0 || decide (f.ty < 4)))
  | .and f | .or f | .xor f | .andn f => some (shapeC f 0 (.val (tyRegs f.ty) true) (.val (tyRegs f.ty) true) .ignored
      .unused (.v (tyRegs f.ty)) (bitsOf f.md.toNat 7 1 != 1))
  | .andImm f | .orImm f | .xorImm f => some (shapeI f (.val (tyRegs f.ty) true) (.v (tyRegs f.ty))
      (bitsOf f.md.toNat 7 1 != 1))
  | .shl f | .shr f | .sar f => some (shapeC f 0 (.val (tyRegs f.ty) false) (.val 1 false) .ignored .unused
      (.v (tyRegs f.ty)) (bitsOf f.md.toNat 7 1 != 1))
  | .fshl f => some (shapeC f 0 (.val (tyRegs f.ty) false) (.val (tyRegs f.ty) false) (.val 1 false) .unused
      (.v (tyRegs f.ty)) (bitsOf f.md.toNat 7 1 != 1))
  | .bfx f => some (shapeC f 0 (.val (tyRegs f.ty) false) (.val 1 false) (.val 1 false) .unused (.v (tyRegs f.ty))
      (bitsOf f.md.toNat 7 1 != 1 && bitsOf f.md.toNat 7 1 != 3))
  | .bfi f => some (shapeC f 0 (.val (tyRegs f.ty) false) (.val (tyRegs f.ty) false) (.val 1 false) .source
      (.v (tyRegs f.ty)) (bitsOf f.md.toNat 7 1 != 1))
  | .popc f | .clz f => some (shapeC f 0 (.val (tyRegs f.ty) false) .ignored .ignored .unused (.v 1)
      (bitsOf f.md.toNat 7 1 != 1))
  | .brev f => some (shapeC f 0 (.val (tyRegs f.ty) false) .ignored .ignored .unused (.v (tyRegs f.ty))
      (bitsOf f.md.toNat 7 1 != 1))
  | .iset f => some (shapeC f 0 (.val (tyRegs f.ty) false) (.val (tyRegs f.ty) false) .ignored
      (if bitsOf f.md.toNat 7 6 = 0 then .unused else .predSrc) .pred (decide (5 < bitsOf f.md.toNat 5 3)))
  | .isetImm f => some (shapeI f (.val (tyRegs f.ty) false) .pred
      (decide (5 < bitsOf f.md.toNat 5 3) || bitsOf f.md.toNat 7 6 != 0))
  | .sel f => some (shapeC f 0 (.val (tyRegs f.ty) false) (.val (tyRegs f.ty) false) .ignored .predSrc
      (.v (tyRegs f.ty)) (bitsOf f.md.toNat 7 1 != 1))
  | .mov f =>
      let n := if f.md.toNat.testBit 3 then 4 else tyRegs f.ty
      some (shapeC f 0 (.val n false) .ignored .ignored .unused (.vOrQueue n)
        (!(f.md == 2 || f.md == 3 || f.md == 0xB)))
  | .movi f => some (shapeI f .ignored (.vOrQueue (tyRegs f.ty)) (!(f.md == 2 || f.md == 3 || f.md == 7)))
  | .lea f => some (shapeC f 0 (.vsx 2) (.val 1 false) .ignored
      (if f.md.toNat.testBit 5 then .dst2 .pred else .unused) (.v 2)
      (bitsOf f.md.toNat 1 0 != 2 || bitsOf f.md.toNat 7 6 != 0))
  | .leaImm f => some (shapeI f (.vsx 2) (.v 2) (bitsOf f.md.toNat 1 0 != 2 || bitsOf f.md.toNat 7 6 != 0))
  | .plop f => some (shapeC f 3 .pred .pred .pred (.dst2 .pred) .pred false)
  | .p2v f => some (shapeC f 3 (if f.md.toNat.testBit 0 then .val 1 false else .ignored)
      (if f.md.toNat.testBit 0 then .val 1 false else .ignored) .ignored .unused (.v 1) (bitsOf f.md.toNat 7 1 != 0))
  | .v2p f => some (shapeC f 3 (.val 1 false) (.val 1 false) .ignored .unused .predZero (f.md != 0))
  | .mfs f => some { shapeC f 7 .ignored .ignored .ignored .unused (.v 1) (!sregAssigned f.md.toNat) with cls := 4 }
  | .bra f => some (shapeB f .zero true .none (f.md != 0))
  | .brx f | .ret f => some (shapeC f 4 (.val 1 false) .ignored .ignored .unused .none (bitsOf f.md.toNat 7 1 != 0))
  | .call f => some (shapeB f .zero true (.v 1) (f.md != 0))
  | .fork f => some (shapeB f (.vsx 1) false .pred (bitsOf f.md.toNat 7 3 != 0))
  | .retire f | .yieldI f | .nop f => some (shapeC f 4 .ignored .ignored .ignored .unused .none (f.md != 0))
  | .nap f => some (shapeC f 4 (.val 1 false) .ignored .ignored .unused .none (f.md != 0))
  | .time f => some (shapeC f 4 .ignored .ignored .ignored .unused (.v 2) (bitsOf f.md.toNat 7 1 != 0))
  | .fadd f | .fsub f | .fmul f => some (shapeC f 1 (.val 1 true) (.val 1 true) .ignored .unused (.v 1)
      (fltModBad f.md.toNat true 0))
  | .ffma f => some (shapeC f 1 (.val 1 true) (.val 1 true) (.val 1 true) .unused (.v 1) (fltModBad f.md.toNat true 0))
  | .fmin f | .fmax f | .fminn f | .fmaxn f => some (shapeC f 1 (.val 1 false) (.val 1 false) .ignored .unused (.v 1)
      (fltModBad f.md.toNat false 0))
  | .fset f => some (shapeC f 1 (.val 1 false) (.val 1 false) .ignored
      (if bitsOf f.md.toNat 1 0 = 0 then .unused else .predSrc) .pred
      (fltModBad f.md.toNat true 7 || f.md.toNat.testBit 4))
  | .fclass f => some (shapeC f 1 (.val 1 false) .ignored .ignored .unused (.v 1) (fltModBad f.md.toNat false 0))
  | .frnd f => some (shapeC f 1 (.val 1 false) .ignored .ignored .unused (.v 1) (fltModBad f.md.toNat true 1))
  | .fscale f => some (shapeC f 1 (.val 1 false) (.val 1 false) .ignored .unused (.v 1) (fltModBad f.md.toNat true 0))
  | .fdot2 f => some (shapeC f 1 (.val 1 true) (.val 1 true) (.val 1 true) .unused (.v 1)
      (fltModBad f.md.toNat true 0 || !f.md.toNat.testBit 4))
  | .frcp f | .fsqrt f => some (shapeC f 2 (.val 1 false) .ignored .ignored .unused (.v 1) (fltModBad f.md.toNat true 0))
  | .frsq f | .fexp2 f | .flog2 f | .ftanh f | .fsinpi f | .fcospi f => some (shapeC f 2 (.val 1 false) .ignored .ignored
      .unused (.v 1) (fltModBad f.md.toNat false 0))
  | .cvt f =>
      let dt := bitsOf f.md.toNat 7 4; let fr := bitsOf f.md.toNat 3 0
      some (shapeC f 2 (.val (cvtRegs fr) false) .rnd (if fr = 8 ∧ 11 ≤ dt ∧ dt ≤ 12 then .val 1 false else .zero) .unused
        (.v (if 11 ≤ fr ∧ dt = 8 then 2 else cvtRegs dt)) (!cvtPair dt fr))
  | .cvtmx f => some (shapeC f 2 (.val 1 false) .zero .zero (.dst2 .vreg) (.v 1) (bitsOf f.md.toNat 7 3 != 0))
  | .cvtx f => some (shapeC f 2 .vsxc .vsxc .zero .unused (.v 1) (bitsOf f.md.toNat 7 3 != 0))
  | .qswp f =>
      let n := if f.md.toNat.testBit 2 then 2 else 1
      some (shapeC f 3 (.val n false) .ignored .ignored .unused (.v n)
        (bitsOf f.md.toNat 7 3 != 0 || bitsOf f.md.toNat 1 0 == 0))
  | .qbc f =>
      let n := if f.md.toNat.testBit 2 then 2 else 1
      some (shapeC f 3 (.val n false) .ignored .ignored .unused (.v n) (bitsOf f.md.toNat 7 3 != 0))
  | .shfl f =>
      let m := f.md.toNat; let n := if m.testBit 2 then 2 else 1
      some (shapeC f 3 (.val n false) (.val 1 false) (if m.testBit 4 then .val n false else .zero) (.dst2 .pred) (.v n)
        (bitsOf m 7 5 != 0 || (m.testBit 3 && (bitsOf m 1 0 == 0 || bitsOf m 1 0 == 3))))
  | .vote f => some (shapeC f 3 .pred .ignored .ignored .unused (if bitsOf f.md.toNat 1 0 = 2 then .v 1 else .pred)
      (bitsOf f.md.toNat 7 2 != 0))
  | .red f =>
      let m := f.md.toNat
      some (shapeC f 3 (.val (redRegs m) false) .ignored .ignored .unused (.v (redRegs m))
        (redModBad m || (bitsOf m 7 6 != 0 && (bitsOf m 5 3 != 4 || bitsOf m 2 0 != 0))))
  | .scan f =>
      let m := f.md.toNat
      some (shapeC f 3 (.val (redRegs m) false) .ignored .ignored .unused (.v (redRegs m)) (redModBad m || m.testBit 7))
  | .matchI f =>
      let n := if f.md.toNat.testBit 0 then 2 else 1
      some (shapeC f 3 (.val n false) .ignored .ignored (.dst2 .pred) (.v n) (bitsOf f.md.toNat 7 1 != 0))
  | .elect f => some (shapeC f 3 .ignored .ignored .ignored (.dst2 .vreg) .pred (bitsOf f.md.toNat 7 1 != 0))
  | .tile f => some (shapeC f 3 .ignored .ignored .ignored .unused .none (f.md == 0 || decide (5 < f.md.toNat)))
  | .ld f => some (shapeM f 5 (.vs 2 true) .zeroCls (.v (sizeRegs (bitsOf f.md.toNat 3 0)))
      (bitsOf f.md.toNat 3 0 == 15 || decide (4 < bitsOf f.md.toNat 6 4)) false)
  | .st f => some (shapeM f 5 (.vs 2 true) (.vs (sizeRegs (bitsOf f.md.toNat 3 0)) true) .none
      (bitsOf f.md.toNat 3 0 == 15 || decide (4 < bitsOf f.md.toNat 6 4)) false)
  | .ldc f => some (shapeM f 5 (.vs 2 true) .zeroCls (.v (sizeRegs (bitsOf f.md.toNat 3 0)))
      (bitsOf f.md.toNat 3 0 == 15 || bitsOf f.md.toNat 7 4 != 0) (f.clsCode != 0))
  | .ldp f => some (shapeM f 5 (.vs 1 true) .zeroCls (.v (sizeRegs (bitsOf f.md.toNat 3 0)))
      (bitsOf f.md.toNat 3 0 == 15 || bitsOf f.md.toNat 7 4 != 0) (f.clsCode != 0))
  | .stp f => some (shapeM f 5 (.vs 1 true) (.vs (sizeRegs (bitsOf f.md.toNat 3 0)) true) .none
      (bitsOf f.md.toNat 3 0 == 15 || bitsOf f.md.toNat 7 4 != 0) (f.clsCode != 0))
  | .pref f =>
      let m := f.md.toNat
      some (shapeM f 5 (.vs 2 true) .zeroCls .none
        (m.testBit 7 || decide (4 < bitsOf m 6 4) || decide (1 < bitsOf m 3 0) || (bitsOf m 1 0 == 0 && decide (2 ≤ bitsOf m 6 4)))
        (f.clsCode != 0))
  | .wbr f | .invr f => some (shapeC f 5 (.vs 2 false) (.vs 1 false) .ignored .unused .none (f.md != 0))
  | .fence f => some (shapeC f 5 .ignored .ignored .ignored .unused .none
      (f.md.toNat.testBit 7 || decide (4 < bitsOf f.md.toNat 6 4) || decide (2 < bitsOf f.md.toNat 3 0)))
  | .rfence f => some (shapeC f 5 (.vs 2 false) (.vs 1 false) .ignored .unused .none
      (f.md.toNat.testBit 7 || decide (4 < bitsOf f.md.toNat 6 4) || decide (2 < bitsOf f.md.toNat 3 0)))
  | .ipref f | .ipin f | .iunpin f => some (shapeC f 5 (.val 1 false) (.vs 1 false) .ignored .unused .none
      (bitsOf f.md.toNat 7 1 != 0))
  | .atom f =>
      let m := f.md.toNat; let op := bitsOf m 7 5; let n := if m.testBit 4 then 2 else 1
      some (shapeM f 6 (atomPtr (bitsOf m 2 0)) (.vs n true) (.vOrNone n)
        (decide (4 < bitsOf m 2 0) || (op == 7 && m.testBit 4) || (m.testBit 3 && op != 1 && op != 2 && op != 7))
        (atomClsIll (bitsOf m 2 0) f.clsCode))
  | .cas f =>
      let m := f.md.toNat; let n := 2 ^ bitsOf m 2 1
      some (shapeM f 6 (atomPtr (bitsOf m 5 3)) (.vs (2 * n) true) (.vOrNone n)
        (m.testBit 0 || bitsOf m 2 1 == 3 || decide (4 < bitsOf m 5 3)) (atomClsIll (bitsOf m 5 3) f.clsCode))
  | .mcas f =>
      let m := f.md.toNat
      some { shapeC f 6 (.vs 1 true) .zeroCls .zero .unused (.vOrNone 1)
               (bitsOf m 2 0 == 7 || (bitsOf m 5 3 != 2 && bitsOf m 5 3 != 3)) with ill := f.clsCode == 2 }
  | .atomp f => some (shapeM f 6 (.vs 2 true) (.vs 8 true) (.vOrNone 2) false false)
  | .cadd f | .craise f =>
      let m := f.md.toNat
      some (shapeM f 6 (atomPtr (bitsOf m 5 3)) (.vs 2 true) (.vOrNone 2)
        (decide (3 < bitsOf m 5 3) || bitsOf m 2 0 != 0 || m.testBit 6) (atomClsIll (bitsOf m 5 3) f.clsCode))
  | .cread f =>
      let m := f.md.toNat
      some (shapeM f 6 (atomPtr (bitsOf m 5 3)) .zeroCls (.v 2)
        (decide (3 < bitsOf m 5 3) || bitsOf m 2 0 != 0 || m.testBit 7) (atomClsIll (bitsOf m 5 3) f.clsCode))
  | .cwait f =>
      let m := f.md.toNat
      some (shapeM f 6 (atomPtr (bitsOf m 5 3)) (.vs 2 true) (.vOrNone 2)
        (decide (3 < bitsOf m 5 3) || m.testBit 7) (atomClsIll (bitsOf m 5 3) f.clsCode))
  | .tdef f => some (shapeC f 7 (.vs 8 false) .zero .zero .unused .none (bitsOf f.md.toNat 7 6 != 0))
  | .marm f => some (shapeC f 7 (.val 1 false) (.val 1 false) .zero .unused .conv (bitsOf f.md.toNat 7 1 != 0))
  | .msign f => some (shapeC f 7 (if f.md = 1 then .vs 4 false else .zero) (if f.md = 1 then .val 1 false else .zero) .zero
      .unused .conv (bitsOf f.md.toNat 7 1 != 0))
  | .mbind f | .mbinds f => some (shapeC f 7 (.val 1 false) (.val 1 false) .zero .unused .none (bitsOf f.md.toNat 7 4 != 0))
  | .mpair f => some (shapeC f 7 (.val 1 false) .zero .zero .unused .pred (f.md != 0))
  | .munpair f => some (shapeC f 7 .zero .zero .zero .unused .none (f.md != 0))
  | .macrd f => some (shapeC f 7 (.val 1 false) .zero .zero .unused (.v (2 ^ bitsOf f.md.toNat 1 0))
      (bitsOf f.md.toNat 7 2 != 0))
  | .macwr f => some (shapeC f 7 (.val 1 false) (.vs (2 ^ bitsOf f.md.toNat 1 0) false) .zero .unused .none
      (bitsOf f.md.toNat 7 2 != 0))
  | .macclr f => some (shapeC f 7 (.val 1 false) (.val 1 false) .zero .unused .none (f.md != 0))
  | .mtest f => some (shapeC f 7 .zero .zero .zero .unused (.v 2) (f.md != 0))
  | .mcap f => some (shapeC f 7 .zero .zero .zero .unused (.v (if f.md.toNat.testBit 0 then 1 else 2))
      (bitsOf f.md.toNat 7 1 != 0))
  | .qwr f => some (shapeC f 7 (.vs 4 false) .zero .zero .unused .cardQueue (f.md != 0))
  | .qwrc f => some (shapeC f 7 (.vs 4 false) .zero .zero .unused .cardQueue
      (bitsOf f.md.toNat 7 1 != 0 || (f.md.toNat.testBit 0 && f.dst.num != 2)))
  | .mts f => some (shapeC f 7 (.vs 1 false) .zero .zero .unused .none (!sregAssigned f.md.toNat))
  | .trap f => some (shapeC f 7 .zero .zero .zero .unused .none false)
  | .bpt f => some (shapeC f 7 .zero .zero .zero .unused .none (f.md != 0))
  | .tret f => some (shapeC f 7 .zero .zero .zero .unused .none (bitsOf f.md.toNat 7 1 != 0))
  | .haltg f => some (shapeC f 7 (.vs 1 false) .zero .zero .unused .none (f.md != 0))
  | .qstat f => some { shapeC f 7 .zero .zero .zero .unused (.v 1) (bitsOf f.md.toNat 7 4 != 0) with
      ill := !queueReadable (bitsOf f.md.toNat 3 0) }
  | _ => none

/-- The decode trap of an instruction, if its fields raise one (R71, R72). -/
def Instr.decodeTrap (i : Instr) : Option DecodeTrap := i.shape.bind Shape.verdict

/-- An instruction of the opcode map whose fields raise no decode trap. -/
def Instr.WellFormed (i : Instr) : Prop := i.shape.isSome = true ∧ i.decodeTrap = none

/-- The Boolean form of `WellFormed`. -/
def Instr.wellFormed (i : Instr) : Bool := i.shape.isSome && i.decodeTrap == none

/-- Rod instructions (R26, R158): they wait at a convergence point of their tile. -/
def Instr.isRod : Instr → Bool
  | .shfl _ | .vote _ | .red _ | .scan _ | .matchI _ | .elect _ | .tile _ | .cvtmx _ => true
  | _ => false

/-- Quad exchange instructions (R27, R29). -/
def Instr.isQuad : Instr → Bool
  | .qswp _ | .qbc _ => true
  | _ => false

/-- The scheduling control and guard of an instruction of the opcode map. -/
def Instr.ctl (i : Instr) : Option Ctl := i.shape.map Shape.ctl

/-- OPC[9:7], the class of R52, as `Shape.cls` has it. -/
def Instr.cls (i : Instr) : Nat := match i.shape with | some h => h.cls | none => 8

end Sys2Proof
end

