-- ==== Sys2Proof/Decode.lean ====
section
/-! DEFINITION. Decoding and encoding of one 96-bit slot (Tables 3.4 to 3.9) and the fetch line around it
(Tables 3.1, 3.2). -/

namespace Sys2Proof

/-! ### Fields of a slot -/

/-- GA or GB: negate and predicate number (Table 3.4). -/
def getPred (x : BitVec 5) : PredRef := ⟨x.getLsbD 4, x.extractLsb' 0 4⟩

/-- GC (R54). -/
def getCombine (x : BitVec 2) : Combine :=
  match x.toNat with
  | 0 => .single
  | 1 => .both
  | 2 => .either
  | _ => .reserved

/-- KIND of a destination (Table 3.5). -/
def getDstKind (x : BitVec 2) : DstKind :=
  match x.toNat with
  | 0 => .vreg
  | 1 => .pred
  | 2 => .queue
  | _ => .conv

/-- KIND of a source (Table 3.6). -/
def getSrcKind (x : BitVec 2) : SrcKind :=
  match x.toNat with
  | 0 => .vreg
  | 1 => .scalar
  | 2 => .latch
  | _ => .special

/-- The destination field (Table 3.5). -/
def getDst (x : BitVec 12) : Dst :=
  ⟨x.getLsbD 11, x.getLsbD 10, getDstKind (x.extractLsb' 8 2), x.extractLsb' 0 8⟩

/-- A source field (Table 3.6). -/
def getSrc (x : BitVec 11) : Src := ⟨getSrcKind (x.extractLsb' 9 2), x.extractLsb' 1 8, x.getLsbD 0⟩

/-- The fields every format shares (Table 3.4). -/
def getCtl (w : Slot) : Ctl :=
  ⟨getPred (w.extractLsb' 81 5), getPred (w.extractLsb' 76 5), getCombine (w.extractLsb' 74 2), w.extractLsb' 7 3,
    w.extractLsb' 4 3, w.getLsbD 3, w.getLsbD 2, w.extractLsb' 0 2⟩

/-- Common format (Table 3.4). -/
def getC (w : Slot) : CFmt :=
  ⟨getCtl w, getDst (w.extractLsb' 62 12), getSrc (w.extractLsb' 51 11), getSrc (w.extractLsb' 40 11),
    getSrc (w.extractLsb' 29 11), getSrc (w.extractLsb' 18 11), w.extractLsb' 10 8⟩

/-- Immediate format (R60). -/
def getI (w : Slot) : IFmt :=
  ⟨getCtl w, getDst (w.extractLsb' 62 12), getSrc (w.extractLsb' 51 11), w.extractLsb' 19 32, w.getLsbD 18,
    w.extractLsb' 10 8⟩

/-- Branch format (Table 3.8). -/
def getB (w : Slot) : BFmt :=
  ⟨getCtl w, getDst (w.extractLsb' 62 12), w.extractLsb' 32 30, w.extractLsb' 29 3, w.getLsbD 28,
    getSrcKind (w.extractLsb' 26 2), w.extractLsb' 18 8, w.extractLsb' 10 8⟩

/-- Memory format (R62). -/
def getM (w : Slot) : MFmt :=
  ⟨getCtl w, getDst (w.extractLsb' 62 12), getSrc (w.extractLsb' 51 11), getSrc (w.extractLsb' 40 11),
    w.extractLsb' 18 22, w.extractLsb' 10 8⟩

/-- OPC (Table 3.4). -/
def opcOf (w : Slot) : Nat := (w.extractLsb' 86 10).toNat

/-! ### The opcode map (Table 3.9) -/

/-- Class 000, codes 0x001 to 0x047. -/
def opcTable0 : List (Nat × (Slot → Instr)) :=
  [(0x001, .iadd ∘ getC), (0x002, .isub ∘ getC), (0x003, .imul ∘ getC), (0x004, .imad ∘ getC), (0x005, .imadw ∘ getC),
   (0x006, .imin ∘ getC), (0x007, .imax ∘ getC), (0x008, .iabs ∘ getC), (0x009, .and ∘ getC), (0x00A, .or ∘ getC),
   (0x00B, .xor ∘ getC), (0x00C, .andn ∘ getC), (0x00D, .shl ∘ getC), (0x00E, .shr ∘ getC), (0x00F, .sar ∘ getC),
   (0x010, .fshl ∘ getC), (0x011, .bfx ∘ getC), (0x012, .bfi ∘ getC), (0x013, .popc ∘ getC), (0x014, .clz ∘ getC),
   (0x015, .brev ∘ getC), (0x016, .iset ∘ getC), (0x017, .sel ∘ getC), (0x018, .mov ∘ getC), (0x019, .lea ∘ getC),
   (0x040, .movi ∘ getI), (0x041, .iaddImm ∘ getI), (0x042, .imulImm ∘ getI), (0x043, .andImm ∘ getI),
   (0x044, .orImm ∘ getI), (0x045, .xorImm ∘ getI), (0x046, .isetImm ∘ getI), (0x047, .leaImm ∘ getI)]

/-- Classes 001 and 010. -/
def opcTable1 : List (Nat × (Slot → Instr)) :=
  [(0x080, .fadd ∘ getC), (0x081, .fsub ∘ getC), (0x082, .fmul ∘ getC), (0x083, .ffma ∘ getC), (0x084, .fmin ∘ getC),
   (0x085, .fmax ∘ getC), (0x086, .fminn ∘ getC), (0x087, .fmaxn ∘ getC), (0x088, .fset ∘ getC), (0x089, .fclass ∘ getC),
   (0x08A, .frnd ∘ getC), (0x08B, .fscale ∘ getC), (0x08C, .fdot2 ∘ getC),
   (0x100, .frcp ∘ getC), (0x101, .frsq ∘ getC), (0x102, .fsqrt ∘ getC), (0x103, .fexp2 ∘ getC), (0x104, .flog2 ∘ getC),
   (0x105, .ftanh ∘ getC), (0x106, .fsinpi ∘ getC), (0x107, .fcospi ∘ getC),
   (0x110, .cvt ∘ getC), (0x111, .cvtmx ∘ getC), (0x112, .cvtx ∘ getC)]

/-- Classes 011 and 100. -/
def opcTable3 : List (Nat × (Slot → Instr)) :=
  [(0x180, .qswp ∘ getC), (0x181, .qbc ∘ getC), (0x182, .shfl ∘ getC), (0x183, .vote ∘ getC), (0x184, .red ∘ getC),
   (0x185, .scan ∘ getC), (0x186, .matchI ∘ getC), (0x187, .elect ∘ getC), (0x188, .tile ∘ getC),
   (0x1A0, .plop ∘ getC), (0x1A1, .p2v ∘ getC), (0x1A2, .v2p ∘ getC),
   (0x200, .bra ∘ getB), (0x201, .brx ∘ getC), (0x202, .call ∘ getB), (0x203, .ret ∘ getC), (0x204, .fork ∘ getB),
   (0x205, .retire ∘ getC), (0x206, .yieldI ∘ getC), (0x207, .nap ∘ getC), (0x208, .nop ∘ getC), (0x209, .time ∘ getC)]

/-- Classes 101, 110 and 111. -/
def opcTable5 : List (Nat × (Slot → Instr)) :=
  [(0x280, .ld ∘ getM), (0x281, .st ∘ getM), (0x282, .ldc ∘ getM), (0x283, .ldp ∘ getM), (0x284, .stp ∘ getM),
   (0x285, .pref ∘ getM), (0x290, .wbr ∘ getC), (0x291, .invr ∘ getC), (0x292, .fence ∘ getC), (0x293, .rfence ∘ getC),
   (0x294, .ipref ∘ getC), (0x295, .ipin ∘ getC), (0x296, .iunpin ∘ getC),
   (0x300, .atom ∘ getM), (0x301, .cas ∘ getM), (0x302, .mcas ∘ getC), (0x303, .atomp ∘ getM),
   (0x310, .cadd ∘ getM), (0x311, .craise ∘ getM), (0x312, .cread ∘ getM), (0x313, .cwait ∘ getM),
   (0x380, .tdef ∘ getC), (0x381, .marm ∘ getC), (0x382, .msign ∘ getC), (0x383, .mbind ∘ getC), (0x384, .mbinds ∘ getC),
   (0x385, .mpair ∘ getC), (0x386, .munpair ∘ getC), (0x387, .macrd ∘ getC), (0x388, .macwr ∘ getC),
   (0x389, .macclr ∘ getC), (0x38A, .mtest ∘ getC), (0x38B, .mcap ∘ getC), (0x390, .qwr ∘ getC), (0x391, .qwrc ∘ getC),
   (0x3C0, .mfs ∘ getC), (0x3C1, .mts ∘ getC), (0x3C2, .trap ∘ getC), (0x3C3, .bpt ∘ getC), (0x3C4, .tret ∘ getC),
   (0x3C5, .haltg ∘ getC), (0x3C6, .qstat ∘ getC)]

/-- The assigned codes of Table 3.9 with the format each is read in. -/
def opcTable : List (Nat × (Slot → Instr)) := opcTable0 ++ opcTable1 ++ opcTable3 ++ opcTable5

/-- The row of a code. -/
def lookupOpc : List (Nat × (Slot → Instr)) → Nat → Option (Slot → Instr)
  | [], _ => none
  | (c, f) :: t, n => if c = n then some f else lookupOpc t n

/-- The fields of a slot, pulled apart by its opcode; an unassigned code keeps its slot (R70). -/
def decodeFields (w : Slot) : Instr :=
  match lookupOpc opcTable (opcOf w) with
  | some f => f w
  | none => .unassignedOpcode w

/-- The decode trap that a slot raises, if any (R70, R71, R72). -/
def slotTrap (w : Slot) : Option DecodeTrap :=
  match decodeFields w with
  | .unassignedOpcode _ => some .illegalInstruction
  | i => i.decodeTrap

/-- Why a run of bytes is not an instruction: fewer than twelve bytes, or a decode trap. -/
inductive DecodeError where
  | tooShort
  | decodeTrap (t : DecodeTrap)
  deriving DecidableEq, Repr

/-- One slot, refused by the name of its decode trap. -/
def decodeSlot (w : Slot) : Except DecodeError Instr :=
  match slotTrap w with
  | some t => .error (.decodeTrap t)
  | none => .ok (decodeFields w)

/-- A little-endian byte list read as a natural number (R9). -/
def leNat : List Byte → Nat
  | [] => 0
  | b :: t => b.toNat + 256 * leNat t

/-- The n low bytes of x, lowest first (R9). -/
def leBytes : Nat → Nat → List Byte
  | 0, _ => []
  | n + 1, x => BitVec.ofNat 8 x :: leBytes n (x / 256)

/-- Decoding of any bytes: the first twelve as one slot (R47), with the rest. -/
def decodeBytes (bs : List Byte) : Except DecodeError (Instr × List Byte) :=
  if bs.length < 12 then .error .tooShort
  else
    match decodeSlot (BitVec.ofNat 96 (leNat (bs.take 12))) with
    | .ok i => .ok (i, bs.drop 12)
    | .error e => .error e

/-- What the decoder reads from an instruction whose bits are w. A slot with an unassigned opcode is the table's own
row UNASSIGNED_OPCODE and answers that constructor; a slot that another decode trap stops is refused. -/
def decodeTableWord (nbits w : Nat) : Option Instr :=
  let bs := leBytes 12 (w % 2 ^ nbits)
  match decodeFields (BitVec.ofNat 96 (leNat bs)) with
  | .unassignedOpcode v => some (.unassignedOpcode v)
  | _ =>
    match decodeBytes bs with
    | .ok (i, _) => some i
    | .error _ => none

/-! ### The fetch line (R47 to R52) -/

/-- Slot i of a line: bytes 12i to 12i+11 (R47). -/
def lineSlot (l : BitVec 512) (i : Nat) : Slot := l.extractLsb' (96 * i) 96

/-- The line word (R47, Table 3.2). -/
def lineWord (l : BitVec 512) : BitVec 32 := l.extractLsb' 480 32

/-- MASK bit i (Table 3.2). -/
def lineMask (l : BitVec 512) (i : Nat) : Bool := (lineWord l).getLsbD i

/-- PAIR bit of slots i and i+1 (Table 3.2). -/
def linePair (l : BitVec 512) (i : Nat) : Bool := decide (i < 4) && (lineWord l).getLsbD (5 + i)

/-- The number of ones of a natural number below 2^n. -/
def onesBelow : Nat → Nat → Nat
  | 0, _ => 0
  | n + 1, x => x % 2 + onesBelow n (x / 2)

/-- Every SPAR bit and LPAR agree (R48, R50). -/
def lineParityOk (l : BitVec 512) : Bool :=
  let lw := (lineWord l).toNat
  onesBelow 15 lw % 2 == 0 &&
  (List.range 5).all fun i => (onesBelow 96 (lineSlot l i).toNat + (bitOf lw (9 + i)).toNat) % 2 == 0

/-- R51: a nonzero bit in [31:15] of the line word. -/
def lineIllegal (l : BitVec 512) : Bool := bitsOf (lineWord l).toNat 31 15 != 0

/-- R49: the slot a PC names, if its bits [5:0] are a slot offset. -/
def pcSlot (pc : Nat) : Option Nat :=
  match pc % 64 with
  | 0 => some 0
  | 12 => some 1
  | 24 => some 2
  | 36 => some 3
  | 48 => some 4
  | _ => none

/-- R49, R131: the PC of the next slot in sequence, modulo 2^32. -/
def seqPc (pc : Nat) : Nat := (if pc % 64 = 48 then pc / 64 * 64 + 64 else pc + 12) % 2 ^ 32

/-- R61: the target of a branch-format instruction, exact (R11). -/
def BFmt.target (f : BFmt) (pc : Nat) : Int := (pc / 64 * 64 : Nat) + f.disp.toInt * 64 + 12 * f.tslot.toNat

/-! ### Encoding -/

def putPred (p : PredRef) : BitVec 5 := BitVec.ofBool p.neg ++ p.num

def putCombine : Combine → BitVec 2
  | .single => 0
  | .both => 1
  | .either => 2
  | .reserved => 3

def putDstKind : DstKind → BitVec 2
  | .vreg => 0
  | .pred => 1
  | .queue => 2
  | .conv => 3

def putSrcKind : SrcKind → BitVec 2
  | .vreg => 0
  | .scalar => 1
  | .latch => 2
  | .special => 3

def putDst (d : Dst) : BitVec 12 := BitVec.ofBool d.wbs ++ BitVec.ofBool d.cap ++ putDstKind d.kind ++ d.num

def putSrc (x : Src) : BitVec 11 := putSrcKind x.kind ++ x.num ++ BitVec.ofBool x.om

/-- Bits [85:74] (Table 3.4). -/
def putGuard (c : Ctl) : BitVec 12 := putPred c.ga ++ putPred c.gb ++ putCombine c.gc

/-- Bits [9:0] (Table 3.4). -/
def putSched (c : Ctl) : BitVec 10 := c.hint ++ c.stall ++ BitVec.ofBool c.hold ++ BitVec.ofBool c.yld ++ c.latch

/-- A slot from its opcode, guard, destination, bits [61:18], modifier and scheduling control. -/
def putSlot (opc : BitVec 10) (c : Ctl) (d : Dst) (body : BitVec 44) (md : BitVec 8) : Slot :=
  opc ++ putGuard c ++ putDst d ++ body ++ md ++ putSched c

def putC (opc : BitVec 10) (f : CFmt) : Slot :=
  putSlot opc f.ctl f.dst (putSrc f.sa ++ putSrc f.sb ++ putSrc f.sc ++ putSrc f.oe) f.md

def putI (opc : BitVec 10) (f : IFmt) : Slot :=
  putSlot opc f.ctl f.dst (putSrc f.sa ++ f.imm ++ BitVec.ofBool f.low) f.md

def putB (opc : BitVec 10) (f : BFmt) : Slot :=
  putSlot opc f.ctl f.dst (f.disp ++ f.tslot ++ BitVec.ofBool f.uni ++ putSrcKind f.bopKind ++ f.bopNum) f.md

def putM (opc : BitVec 10) (f : MFmt) : Slot :=
  putSlot opc f.ctl f.dst (putSrc f.sa ++ putSrc f.sb ++ f.disp) f.md

/-- The slot of an instruction of the opcode map; an event has none. -/
def encode : Instr → Option Slot
  | .iadd f => some (putC 0x001 f) | .isub f => some (putC 0x002 f) | .imul f => some (putC 0x003 f)
  | .imad f => some (putC 0x004 f) | .imadw f => some (putC 0x005 f) | .imin f => some (putC 0x006 f)
  | .imax f => some (putC 0x007 f) | .iabs f => some (putC 0x008 f) | .and f => some (putC 0x009 f)
  | .or f => some (putC 0x00A f) | .xor f => some (putC 0x00B f) | .andn f => some (putC 0x00C f)
  | .shl f => some (putC 0x00D f) | .shr f => some (putC 0x00E f) | .sar f => some (putC 0x00F f)
  | .fshl f => some (putC 0x010 f) | .bfx f => some (putC 0x011 f) | .bfi f => some (putC 0x012 f)
  | .popc f => some (putC 0x013 f) | .clz f => some (putC 0x014 f) | .brev f => some (putC 0x015 f)
  | .iset f => some (putC 0x016 f) | .sel f => some (putC 0x017 f) | .mov f => some (putC 0x018 f)
  | .lea f => some (putC 0x019 f)
  | .movi f => some (putI 0x040 f) | .iaddImm f => some (putI 0x041 f) | .imulImm f => some (putI 0x042 f)
  | .andImm f => some (putI 0x043 f) | .orImm f => some (putI 0x044 f) | .xorImm f => some (putI 0x045 f)
  | .isetImm f => some (putI 0x046 f) | .leaImm f => some (putI 0x047 f)
  | .fadd f => some (putC 0x080 f) | .fsub f => some (putC 0x081 f) | .fmul f => some (putC 0x082 f)
  | .ffma f => some (putC 0x083 f) | .fmin f => some (putC 0x084 f) | .fmax f => some (putC 0x085 f)
  | .fminn f => some (putC 0x086 f) | .fmaxn f => some (putC 0x087 f) | .fset f => some (putC 0x088 f)
  | .fclass f => some (putC 0x089 f) | .frnd f => some (putC 0x08A f) | .fscale f => some (putC 0x08B f)
  | .fdot2 f => some (putC 0x08C f)
  | .frcp f => some (putC 0x100 f) | .frsq f => some (putC 0x101 f) | .fsqrt f => some (putC 0x102 f)
  | .fexp2 f => some (putC 0x103 f) | .flog2 f => some (putC 0x104 f) | .ftanh f => some (putC 0x105 f)
  | .fsinpi f => some (putC 0x106 f) | .fcospi f => some (putC 0x107 f)
  | .cvt f => some (putC 0x110 f) | .cvtmx f => some (putC 0x111 f) | .cvtx f => some (putC 0x112 f)
  | .qswp f => some (putC 0x180 f) | .qbc f => some (putC 0x181 f) | .shfl f => some (putC 0x182 f)
  | .vote f => some (putC 0x183 f) | .red f => some (putC 0x184 f) | .scan f => some (putC 0x185 f)
  | .matchI f => some (putC 0x186 f) | .elect f => some (putC 0x187 f) | .tile f => some (putC 0x188 f)
  | .plop f => some (putC 0x1A0 f) | .p2v f => some (putC 0x1A1 f) | .v2p f => some (putC 0x1A2 f)
  | .bra f => some (putB 0x200 f) | .brx f => some (putC 0x201 f) | .call f => some (putB 0x202 f)
  | .ret f => some (putC 0x203 f) | .fork f => some (putB 0x204 f) | .retire f => some (putC 0x205 f)
  | .yieldI f => some (putC 0x206 f) | .nap f => some (putC 0x207 f) | .nop f => some (putC 0x208 f)
  | .time f => some (putC 0x209 f)
  | .ld f => some (putM 0x280 f) | .st f => some (putM 0x281 f) | .ldc f => some (putM 0x282 f)
  | .ldp f => some (putM 0x283 f) | .stp f => some (putM 0x284 f) | .pref f => some (putM 0x285 f)
  | .wbr f => some (putC 0x290 f) | .invr f => some (putC 0x291 f) | .fence f => some (putC 0x292 f)
  | .rfence f => some (putC 0x293 f) | .ipref f => some (putC 0x294 f) | .ipin f => some (putC 0x295 f)
  | .iunpin f => some (putC 0x296 f)
  | .atom f => some (putM 0x300 f) | .cas f => some (putM 0x301 f) | .mcas f => some (putC 0x302 f)
  | .atomp f => some (putM 0x303 f) | .cadd f => some (putM 0x310 f) | .craise f => some (putM 0x311 f)
  | .cread f => some (putM 0x312 f) | .cwait f => some (putM 0x313 f)
  | .tdef f => some (putC 0x380 f) | .marm f => some (putC 0x381 f) | .msign f => some (putC 0x382 f)
  | .mbind f => some (putC 0x383 f) | .mbinds f => some (putC 0x384 f) | .mpair f => some (putC 0x385 f)
  | .munpair f => some (putC 0x386 f) | .macrd f => some (putC 0x387 f) | .macwr f => some (putC 0x388 f)
  | .macclr f => some (putC 0x389 f) | .mtest f => some (putC 0x38A f) | .mcap f => some (putC 0x38B f)
  | .qwr f => some (putC 0x390 f) | .qwrc f => some (putC 0x391 f)
  | .mfs f => some (putC 0x3C0 f) | .mts f => some (putC 0x3C1 f) | .trap f => some (putC 0x3C2 f)
  | .bpt f => some (putC 0x3C3 f) | .tret f => some (putC 0x3C4 f) | .haltg f => some (putC 0x3C5 f)
  | .qstat f => some (putC 0x3C6 f)
  | .unassignedOpcode w => some w
  | _ => none

/-- R47, R48: a line from five slots, PAIR and MASK, with the parity bits that R48 asks for. -/
def makeLine (w0 w1 w2 w3 w4 : Slot) (pair : BitVec 4) (mask : BitVec 5) : BitVec 512 :=
  let par (w : Slot) : BitVec 1 := BitVec.ofNat 1 (onesBelow 96 w.toNat)
  let low : BitVec 14 := par w4 ++ par w3 ++ par w2 ++ par w1 ++ par w0 ++ pair ++ mask
  let lpar : BitVec 1 := BitVec.ofNat 1 (onesBelow 14 low.toNat)
  (0 : BitVec 17) ++ lpar ++ low ++ w4 ++ w3 ++ w2 ++ w1 ++ w0

/-- The NOP that fills an unused slot (R79, Table 4.2). -/
def nopSlot : Slot := 0x821E00FFC000000000000000

end Sys2Proof
end

