-- ==== Sys2Proof/Machine/Tables.lean ====
section
/-! DEFINITION. Operations on tables keyed by a number, in ascending keys, and on memory in canonical form. -/

namespace Sys2Proof.Machine

section
variable {α : Type}

/-- The entry listed under a key. -/
def tfind (t : Tab α) (k : Nat) : Option α :=
  match t with
  | [] => none
  | (i, v) :: r => if i = k then some v else tfind r k

/-- The entry under a key, or the default of an unlisted key. -/
def tget (d : α) (t : Tab α) (k : Nat) : α := (tfind t k).getD d

/-- List a value under a key, keeping the keys ascending. -/
def tset (t : Tab α) (k : Nat) (v : α) : Tab α :=
  match t with
  | [] => [(k, v)]
  | (i, w) :: r => if k < i then (k, v) :: (i, w) :: r else if i = k then (k, v) :: r else (i, w) :: tset r k v

/-- Remove a key. -/
def tdel (t : Tab α) (k : Nat) : Tab α := t.filter fun p => p.1 ≠ k

/-- Write a value where unlisted keys read as d: writing d removes the entry. -/
def tput [DecidableEq α] (d : α) (t : Tab α) (k : Nat) (v : α) : Tab α := if v = d then tdel t k else tset t k v

/-- Change the entry under a key, if it is listed. -/
def tmod (t : Tab α) (k : Nat) (f : α → α) : Tab α :=
  match tfind t k with
  | some v => tset t k (f v)
  | none => t

end

/-- Byte of a memory (log 4: an unlisted byte reads as zero). -/
def memByte (m : List Host.Cell) (a : Nat) : Byte := tget 0 m a

/-- Write one byte of a memory, keeping it canonical. -/
def memPut (m : List Host.Cell) (a : Nat) (b : Byte) : List Host.Cell := tput 0 m a b

/-- n bytes from an address upwards. -/
def memBytes (m : List Host.Cell) (a : Nat) : Nat → List Byte
  | 0 => []
  | n + 1 => memByte m a :: memBytes m (a + 1) n

/-- Write bytes from an address upwards. -/
def memPuts (m : List Host.Cell) (a : Nat) : List Byte → List Host.Cell
  | [] => m
  | b :: t => memPuts (memPut m a b) (a + 1) t

/-- Remove the bytes of [a, a + n): they read as zero. -/
def memClear (m : List Host.Cell) (a n : Nat) : List Host.Cell := m.filter fun c => c.1 < a ∨ a + n ≤ c.1

/-- Keys strictly rising from above a bound. -/
def risingFrom (lo : Nat) : List Host.Cell → Bool
  | [] => true
  | (a, _) :: t => decide (lo ≤ a) && risingFrom (a + 1) t

/-- The canonical form: addresses strictly rising, and no entry equal to what an unlisted address reads as. -/
def Memory.wf (m : List Host.Cell) : Bool := risingFrom 0 m && m.all fun c => c.2 != 0

end Sys2Proof.Machine
end

