-- ==== Sys2Proof/Machine/Address.lean ====
section
/-! DEFINITION. Reading and changing the parts of the state; partitions (R331, R334); buffer entries, homes and the
checks of Table 11.2 (R170 to R174, R357); translation and frames (R175, R342). -/

namespace Sys2Proof.Machine

/-! ### Parts of the state -/

def State.core (s : State) (k : Nat) : Core := tget Core.empty s.cores k
def State.modCore (s : State) (k : Nat) (f : Core → Core) : State := { s with cores := tset s.cores k (f (s.core k)) }
def State.die (s : State) (d : Nat) : Die := tget Die.reset s.dies d
def State.modDie (s : State) (d : Nat) (f : Die → Die) : State := { s with dies := tset s.dies d (f (s.die d)) }
def State.stack (s : State) (n : Nat) : Stack := tget Stack.reset s.stks n
def State.modStack (s : State) (n : Nat) (f : Stack → Stack) : State :=
  { s with stks := tset s.stks n (f (s.stack n)) }
def State.agent (s : State) (a : Nat) : Agent := tget Agent.reset s.agents a
def State.modAgent (s : State) (a : Nat) (f : Agent → Agent) : State :=
  { s with agents := tset s.agents a (f (s.agent a)) }
def State.ctx (s : State) (vf : Nat) : Ctx := tget Ctx.reset s.ctxs vf
def State.modCtx (s : State) (vf : Nat) (f : Ctx → Ctx) : State := { s with ctxs := tset s.ctxs vf (f (s.ctx vf)) }
def State.gang (s : State) (l : Nat) : Gang := tget Gang.reset s.mh.gangs l
def State.modMh (s : State) (f : Masthead → Masthead) : State := { s with mh := f s.mh }
def State.modGang (s : State) (l : Nat) (f : Gang → Gang) : State :=
  { s with mh := { s.mh with gangs := tset s.mh.gangs l (f (s.gang l)) } }
def State.group? (s : State) (g : Nat) : Option Group := tfind s.groups g
def State.setGroup (s : State) (g : Nat) (v : Group) : State := { s with groups := tset s.groups g v }
def State.modGroup (s : State) (g : Nat) (f : Group → Group) : State := { s with groups := tmod s.groups g f }
def State.modFibre (s : State) (g f : Nat) (h : Fibre → Fibre) : State :=
  s.modGroup g fun gr => { gr with fibres := tmod gr.fibres f h }
def Core.slice (c : Core) (i : Nat) : Slice := tget Slice.empty c.slices i
def State.slice (s : State) (k i : Nat) : Slice := (s.core k).slice i
def State.modSlice (s : State) (k i : Nat) (f : Slice → Slice) : State :=
  s.modCore k fun c => { c with slices := tset c.slices i (f (c.slice i)) }
/-- Core cycles counted by the die of core k. -/
def State.cycleOf (s : State) (k : Nat) : Nat := (s.die (k / 16)).cycle
/-- Send something out of the package. -/
def State.emit (s : State) (o : Out) : State := { s with out := s.out ++ [o] }
/-- Take the next free value's number (log 2). -/
def State.bump (s : State) : State := { s with freeCtr := s.freeCtr + 1 }

/-! ### Partitions (R331, R332, R334) -/

/-- Size code of die c in a layout (Table 21.2). -/
def sizeCode (cfg : BitVec 64) (c : Nat) : Nat := bitsOf cfg.toNat (3 * c + 2) (3 * c)

/-- The leader of the partition of a size that holds die c (Table 21.1). -/
def leaderFor (code c : Nat) : Nat :=
  match code with
  | 0 => c
  | 1 => c / 2 * 2
  | 2 => c / 8 * 8 + c % 8 / 2 % 2 * 2
  | 3 => c / 8 * 8
  | _ => 0

/-- The leader of die c's partition under a layout. -/
def leaderIn (cfg : BitVec 64) (c : Nat) : Nat := leaderFor (sizeCode cfg c) c

/-- The dies of the partition that l leads, ascending. -/
def diesIn (cfg : BitVec 64) (l : Nat) : List Nat := (List.range 16).filter fun c => leaderIn cfg c = l

/-- R332: codes 0 to 4, and all members of a partition carry the same code. -/
def legalLayout (cfg : BitVec 64) : Bool :=
  cfg.toNat / 2 ^ 48 == 0 &&
  (List.range 16).all fun c => decide (sizeCode cfg c ≤ 4) &&
    (List.range 16).all fun d =>
      leaderFor (sizeCode cfg c) d != leaderFor (sizeCode cfg c) c || sizeCode cfg d == sizeCode cfg c

def State.leaderOfDie (s : State) (c : Nat) : Nat := leaderIn s.mh.partcfg c
def State.diesOf (s : State) (l : Nat) : List Nat := diesIn s.mh.partcfg l

def Ctx.bound (c : Ctx) : Bool := c.vfbind.getLsbD 68
def Ctx.leader (c : Ctx) : Nat := bitsOf c.vfbind.toNat 67 64
/-- Physical die of virtual die v (Table 21.5). -/
def Ctx.vmap (c : Ctx) (v : Nat) : Nat := bitsOf c.vfbind.toNat (4 * v + 3) (4 * v)

/-- The dies, and so the stacks, of the partition a VF is bound to. VF 0 unbound reaches every stack (log 5). -/
def State.partOf (s : State) (vf : Nat) : List Nat :=
  let c := s.ctx vf
  if c.bound then s.diesOf c.leader else if vf = 0 then List.range 16 else []

/-- The virtual die of physical die d for a VF: the first v that maps to it. -/
def State.vdieOf (s : State) (vf d : Nat) : Nat :=
  ((List.range 16).find? fun v => (s.ctx vf).vmap v == d && decide (v < (s.partOf vf).length)).getD 0

/-! ### Context descriptors (Table 19.1) -/

def Ctx.field (c : Ctx) (hi lo : Nat) : Nat := match c.desc with | some d => bitsOf d.toNat hi lo | none => 0
def Ctx.btptr (c : Ctx) : Nat := c.field 383 320
def Ctx.rtptr (c : Ctx) : Nat := c.field 447 384
def Ctx.faultPtr (c : Ctx) : Nat := c.field 511 448
def Ctx.faultCap (c : Ctx) : Nat := c.field 543 512
def Ctx.saveLen (c : Ctx) : Nat := c.field 575 544
def Ctx.savePtr (c : Ctx) : Nat := c.field 639 576
def Ctx.msix (c : Ctx) : Nat := c.field 23 16
def Ctx.parOnly (c : Ctx) : Bool := c.field 9 9 == 1
def Ctx.steward (c : Ctx) : Bool := c.field 8 8 == 1

/-- R305: no reserved bit of a descriptor is set, and its VF is 0 to 192. -/
def legalDescriptor (d : BitVec 1024) : Bool :=
  bitsOf d.toNat 1023 640 == 0 && bitsOf d.toNat 319 24 == 0 && bitsOf d.toNat 15 10 == 0 &&
  decide (bitsOf d.toNat 7 0 ≤ 192) && decide (bitsOf d.toNat 543 512 ≤ 16)

/-! ### Buffer entries (Table 11.1) -/

/-- A field of a buffer table entry. -/
def entF (e : BitVec 256) (hi lo : Nat) : Nat := bitsOf e.toNat hi lo
def entValid (e : BitVec 256) : Bool := entF e 0 0 == 1
def entRight (e : BitVec 256) (n : Nat) : Bool := e.getLsbD (1 + n)
def entOnchip (e : BitVec 256) : Bool := e.getLsbD 9
def entDord (e : BitVec 256) : Nat := entF e 11 10
def entCclass (e : BitVec 256) : Nat := entF e 15 12
def entOwner (e : BitVec 256) : Nat := entF e 23 16
def entKey (e : BitVec 256) : Nat := entF e 31 24
def entLength (e : BitVec 256) : Nat := entF e 111 64
def entStacks (e : BitVec 256) : List Nat := (List.range 16).filter fun i => e.getLsbD (128 + i)
def entGran (e : BitVec 256) : Nat := entF e 147 144
def entHash (e : BitVec 256) : Bool := e.getLsbD 148
def entSvbase (e : BitVec 256) : Nat := entF e 219 192

/-- R, W, X, A as bit numbers of RIGHTS. -/
inductive Right where
  | r | w | x | a
  deriving DecidableEq, Repr

def Right.bit : Right → Nat
  | .r => 0
  | .w => 1
  | .x => 2
  | .a => 3

/-- Buffer index and offset of a pointer (R170). -/
def ptrIdx (p : Nat) : Nat := bitsOf p 63 48
def ptrOff (p : Nat) : Nat := p % 2 ^ 48

/-- R62: a pointer plus a displacement, with the carry confined to bits [47:0]. -/
def ptrAdd (p : Nat) (d : Int) : Nat := p / 2 ^ 48 * 2 ^ 48 + (((p % 2 ^ 48 : Nat) + d) % (2 ^ 48 : Int)).toNat

/-- The number of ones in a natural number of w bits. -/
def popCount (w x : Nat) : Nat := onesBelow w x

/-- PINWAYS of a VF in a stack (Table 11.8). -/
def State.pinWays (s : State) (st vf : Nat) : Nat := bitsOf (tget 0 (s.stack st).scway vf).toNat 63 48

def isExternal (idx : Nat) : Bool := decide (0xFE00 ≤ idx) && decide (idx ≤ 0xFEFF)

/-- KIND of an external descriptor (Table 23.1), and its BASE. -/
def extKind (e : BitVec 256) : Nat := entF e 219 218
def extBase (e : BitVec 256) : Nat := entF e 217 192

/-- R357: an external entry has ONCHIP 0, one stack, and a descriptor that Table 23.1 admits. -/
def extOk (e : BitVec 256) : Bool :=
  !entOnchip e && (entStacks e).length == 1 && extKind e != 3 && (extKind e == 0 || entF e 201 192 == 0)

/-- A window descriptor is legal: reserved bits zero, REGION 0 to 2, GSLOT only in region 0 (Table 11.5). -/
def winDescOk (e : BitVec 256) : Bool :=
  entF e 219 210 == 0 && entF e 193 192 == 0 && decide (entF e 196 194 ≤ 2) &&
  (entF e 196 194 == 0 || entF e 201 197 == 0)

/-- The window a key slot of a stack serves, if its state is WINDOW (R345). -/
def State.windowOf (s : State) (st key : Nat) : Bool := (tget KeySlot.reset (s.stack st).slots key).st == .window

/-- R345: what the peer's consent grants the VF in the window of a slot. -/
def State.consented (s : State) (vf key : Nat) : BitVec 4 :=
  match s.mh.windows.find? fun w => w.2.1 == key && (w.2.2.1 == vf || w.2.2.2.1 == vf) with
  | some (win, _, a, b, _) =>
    let peer := if a = vf then b else a
    ((s.ctx peer).consents.find? fun c => c.win == win && c.peer == vf).elim 0 (·.rights)
  | none => 0

/-- R171, R345, R357: an entry that may be used by VF vf under index idx. -/
def State.usable (s : State) (vf idx : Nat) (e : BitVec 256) : Bool :=
  let sts := entStacks e
  entValid e && entDord e != 3 &&
  entF e 255 220 == 0 && entF e 191 149 == 0 && entF e 127 112 == 0 && entF e 63 32 == 0 && entF e 8 5 == 0 &&
  entOnchip e == decide (0xFF00 ≤ idx) &&
  -- Table 11.9: classes 5 to 14 make an entry invalid, but for an external one, in which CCLASS takes no part (R357)
  (isExternal idx || decide (entCclass e ≤ 4) || entCclass e == 15) &&
  (if decide (0xFF00 ≤ idx) then winDescOk e
   else if isExternal idx then extOk e && sts.all fun t => (s.partOf vf).contains t
   else
     decide (entGran e ≤ 13) &&
     [1, 2, 4, 8, 16].contains sts.length &&
     (sts.all fun t => (s.partOf vf).contains t || s.windowOf t (entKey e)) &&
     (entCclass e != 15 ||
       (match sts with
        | [] => false
        | t :: _ =>
          let n := popCount 16 (s.pinWays t (entOwner e))
          decide (0 < n) && (sts.all fun u => popCount 16 (s.pinWays u (entOwner e)) == n) &&
          decide (entLength e ≤ 2 ^ 21 * n * sts.length))) &&
     ((sts.all fun t => !s.windowOf t (entKey e)) ||
       (List.range 4).all fun i => !entRight e i || (s.consented vf (entKey e)).getLsbD i))

/-! ### Homes (R174) -/

/-- Log2 of 1, 2, 4, 8, 16. -/
def log2s (n : Nat) : Nat := Nat.log2 n

/-- The XOR of the m-bit chunks of g (R174), 48 chunks at most. -/
def xorFold (m g : Nat) : Nat := (List.range 48).foldl (fun j i => j ^^^ (g >>> (i * m)) % 2 ^ m) 0

/-- The home stack and the SVA of an offset (R174); for a pinned region the SVA is the local offset alone (R190). -/
def homeOf (e : BitVec 256) (off : Nat) : Nat × Nat :=
  let g := 8 + entGran e
  let m := log2s (entStacks e).length
  let gr := off >>> g
  let j := if entHash e then xorFold m gr else gr % 2 ^ m
  let loc := ((gr >>> m) <<< g) + off % 2 ^ g
  ((entStacks e).getD j 0, (if entCclass e = 15 then 0 else entSvbase e * 2 ^ 16) + loc)

/-- The location of a byte reached through an entry. -/
def State.locOf (s : State) (e : BitVec 256) (ptr : Nat) : Loc :=
  let h := homeOf e (ptrOff ptr)
  { stack := h.1, sva := h.2, key := entKey e, vf := entOwner e, eptr := ptr, pin := entCclass e == 15,
    win := s.windowOf h.1 (entKey e) }

/-- The place of an access through an external entry (Table 23.1): the port's stack, and the address beyond it. Its key is
none of a slot's: it says which port. -/
def extLoc (e : BitVec 256) (ptr : Nat) : Loc :=
  { stack := (entStacks e).headD 0
    sva := if extKind e = 0 then extBase e * 2 ^ 16 + ptrOff ptr else extBase e / 2 ^ 10 * 2 ^ 48 + ptrOff ptr
    key := 256 + extKind e, vf := entOwner e, eptr := ptr, pin := false, win := false }

/-- The lane of a line (R226). -/
def laneOf (sva : Nat) : Nat := bitsOf sva 8 7 ^^^ bitsOf sva 14 13

/-- The 128-byte line of a location, as the place of its first byte. -/
def Loc.line (l : Loc) : Loc := { l with sva := l.sva / 128 * 128, eptr := l.eptr / 128 * 128 }

/-- Two locations lie in one line of one home, reached under one VF (R183: a VF never hits another's line). -/
def Loc.sameLine (a b : Loc) : Bool :=
  a.stack == b.stack && a.sva / 128 == b.sva / 128 && a.vf == b.vf && a.pin == b.pin && a.key == b.key

/-! ### Keys, counters and banks of a stack (R341, R343, R344, R351) -/

/-- The counter of a child. -/
def CtrBlock.value (b : CtrBlock) (i : Nat) : Nat := b.major * 64 + tget 0 b.minors i

/-- linectr of a line. -/
def Stack.lineCtr (k : Stack) (line : Nat) : Nat := (tget CtrBlock.zero k.ctr1 (line / 64)).value (line % 64)

/-- An access under a FREE slot (R341); slot 0 is never free (R340). -/
def Stack.slotFree (k : Stack) (key : Nat) : Bool := key != 0 && (tget KeySlot.reset k.slots key).st == .free

/-- A counter block above a line fails verification and poisons it (R344); level-4 blocks are on-chip. -/
def Stack.treeBad (k : Stack) (line : Nat) : Bool := k.badCtr.any fun b => line / 64 ^ b.1 == b.2

/-- A read of a line in DRAM verifies under a slot. A frame with INIT needs no check; a line not written since its scrub
has no MAC (R343, R344). -/
def Stack.macOk (k : Stack) (pa key : Nat) : Bool :=
  let line := pa / 128
  let slot := tget KeySlot.reset k.slots key
  (tget Frame.reset k.frames (pa / 2 ^ 16)).init ||
  (!k.treeBad line && (k.lineCtr line == 0 ||
    (!k.bad.contains line && (tfind k.seals line).elim true fun x => x.mac == slot.mac && x.gen == slot.gen)))

/-- A line of a fenced bank (R351). -/
def Stack.bankFenced (k : Stack) (st line : Nat) : Bool :=
  bitsOf k.health.toNat 31 16 != 0 && (bitsOf k.health.toNat 31 16).testBit (Config.bankOf st line)

/-- The line in the stack cache for a VF. -/
def Stack.scFind (k : Stack) (line vf : Nat) : Option ScLine := k.sc.find? fun x => x.line == line && x.vf == vf

/-- The alarm unit's mesh event (R343, R350), raised as the machine's next step. -/
def State.meshEvent (s : State) : State := { s with agenda := .event (.alarmEvent 3) :: s.agenda }

/-- R343: TAMPER is set and the mesh event raised. -/
def State.tamper (s : State) (st : Nat) : State :=
  (s.modStack st fun k => { k with health := k.health ||| 4 }).meshEvent

/-! ### Translation (R175, R342) -/

/-- 48 GiB of a stack. -/
def stackBytes : Nat := 48 * 2 ^ 30

/-- The address of a stack's byte in State.mem. -/
def memAddr (st pa : Nat) : Nat := st * 2 ^ 36 + pa

/-- Eight bytes of a stack's DRAM, little-endian. -/
def State.read64 (s : State) (st pa : Nat) : Nat := leNat (memBytes s.mem (memAddr st pa) 8)

/-- A leaf or a table of the walk (Table 11.4). -/
inductive WalkRes where
  | fault
  /-- the read of a table is poisoned, by a failed MAC or in a fenced bank (R343, R351) -/
  | bad (mac : Bool)
  | leaf (base size : Nat) (ro : Bool)
  deriving DecidableEq, Repr

/-- R175: the levels that remain, each with its index shift, index bits and page size. Tables lie under slot 0 (R342),
and a read of one verifies as any (R343). A table that reaches beyond the
stack's 48 GiB is a Translation fault (DESIGN CHOICE, log 38: the rule's walk does not say). -/
def State.walkFrom (s : State) (st sva : Nat) : List (Nat × Nat × Nat) → Nat → WalkRes
  | [], _ => .fault
  | (sh, bits, size) :: rest, t =>
    let pa := t + 8 * ((sva >>> sh) % 2 ^ bits)
    if stackBytes < pa + 8 then .fault
    else if (s.stack st).bankFenced st (pa / 128) then .bad false
    else if !(s.stack st).macOk pa 0 then .bad true
    else
      let e := s.read64 st pa
      if bitsOf e 0 0 = 0 ∨ bitsOf e 63 36 ≠ 0 then .fault
      else if bitsOf e 1 1 = 1 then
        let base := bitsOf e 35 16 * 2 ^ 16
        if bitsOf e 15 3 ≠ 0 ∨ base % size ≠ 0 ∨ stackBytes < base + size then .fault
        else .leaf base size (bitsOf e 2 2 == 1)
      else if bitsOf e 7 3 ≠ 0 then .fault
      else s.walkFrom st sva rest (bitsOf e 35 8 * 256)

/-- R175: the walk of a context's table at a stack. A root that was never set is a Translation fault (DESIGN CHOICE, log
38: the spec gives the context table no reset value and no valid bit). -/
def State.walk (s : State) (st vf sva : Nat) : WalkRes :=
  if 2 ^ 44 ≤ sva then .fault
  else
    match tfind (s.stack st).roots vf with
    | none => .fault
    | some root => s.walkFrom st sva [(30, 14, 2 ^ 30), (21, 9, 2 ^ 21), (16, 5, 2 ^ 16)] root

/-- R176: the translation that an access uses: the walk's, or one the stack TLB still holds. The walk's result is
entered into the TLB. -/
def State.translate (s : State) (st vf sva : Nat) : State × WalkRes :=
  let new := s.walk st vf sva
  let held := (s.stack st).tlb.find? fun t => t.vf == vf && decide (t.page ≤ sva) && decide (sva < t.page + t.size)
  let res :=
    match held with
    | some t =>
      let old := WalkRes.leaf t.base t.size t.ro
      if old = new then new else if Config.tlbOld s.freeCtr then old else new
    | none => new
  let s := if held.isSome then s.bump else s
  match res with
  | .leaf base size ro =>
    let page := sva / size * size
    (s.modStack st fun k =>
      { k with tlb := (k.tlb.filter fun t => !(t.vf == vf && t.page == page && t.size == size)) ++
          [⟨vf, page, size, base, ro⟩] }, res)
  | r => (s, r)

/-- Cause codes of Table 19.8. -/
def cause.translation : Nat := 0x1D
def cause.memory : Nat := 0x1E

/-- The physical address of a location, or the cause of the fault its home finds (R175, R342). The walk of a store
asks for RO clear. -/
def State.physOf (s : State) (l : Loc) (write : Bool) : State × Except Nat Nat :=
  let (s, r) := s.translate l.stack l.vf l.sva
  match r with
  | .fault => (s, .error cause.translation)
  | .bad mac => (if mac then s.tamper l.stack else s, .error cause.memory)
  | .leaf base size ro =>
    if write && ro then (s, .error cause.translation)
    else
      let pa := base + l.sva % size
      let fr := tget Frame.reset (s.stack l.stack).frames (pa / 2 ^ 16)
      if fr.st = .assigned ∧ fr.key = l.key then (s, .ok pa) else (s, .error cause.translation)

/-- The byte of State.pin that a local offset of a VF's pinned region names: ways in ascending order (R190); none where
the region has no such way. -/
def State.pinAddr (s : State) (st vf off : Nat) : Option Nat :=
  let ways := (List.range 16).filter fun i => (s.pinWays st vf).testBit i
  ways[off / 2 ^ 21]?.map fun w => st * 2 ^ 36 + w * 2 ^ 21 + off % 2 ^ 21

/-- Why a location has no translation at its home (R277), if it has none. -/
def State.unmapped (s : State) (l : Loc) (write : Bool) : Option Nat :=
  if l.pin then (if (s.pinAddr l.stack l.vf l.sva).isNone then some cause.translation else none)
  else
    match (s.physOf l write).2 with
    | .ok _ => none
    | .error cs => some cs

/-! ### Buffer tables (R170) -/

/-- Bytes at a location as they stand in DRAM, the stack cache or a pinned way, without ordering; or the cause of the
fault that a read of them meets (R175, R341 to R343, R351). -/
def State.look (s : State) (l : Loc) (n : Nat) : Except Nat (List Byte) :=
  if l.pin then
    match s.pinAddr l.stack l.vf l.sva with
    | some a => .ok (memBytes s.pin a n)
    | none => .error cause.translation
  else
    match (s.physOf l false).2 with
    | .error cs => .error cs
    | .ok pa =>
      let k := s.stack l.stack
      if k.slotFree l.key || k.bankFenced l.stack (pa / 128) || !((k.scFind (pa / 128) l.vf).isSome || k.macOk pa l.key) then
        .error cause.memory
      else .ok (memBytes s.mem (memAddr l.stack pa) n)

/-- As look; none where the read faults. -/
def State.peek (s : State) (l : Loc) (n : Nat) : Option (List Byte) := (s.look l n).toOption

/-- What a read of a line leaves at its stack: TAMPER and the mesh event where its MAC, or that of a table on the way,
fails (R343). -/
def State.lookFlags (s : State) (l : Loc) : State :=
  if l.pin then s
  else
    match s.physOf l false with
    | (t, .error _) => t
    | (t, .ok pa) =>
      let k := t.stack l.stack
      if k.slotFree l.key || k.bankFenced l.stack (pa / 128) || (k.scFind (pa / 128) l.vf).isSome || k.macOk pa l.key then t
      else t.tamper l.stack

/-- An entry of VF 0's own table. Its BTPTR is read as a physical place: stack in bits [39:36] and address below
(log 5). -/
def State.stewardEntry (s : State) (idx : Nat) : BitVec 256 :=
  let a := (s.ctx 0).btptr % 2 ^ 40 + 32 * idx
  let k := s.stack (a / 2 ^ 36)
  let pa := a % 2 ^ 36
  if k.bankFenced (a / 2 ^ 36) (pa / 128) || !k.macOk pa (tget Frame.reset k.frames (pa / 2 ^ 16)).key then 0
  else BitVec.ofNat 256 (leNat (memBytes s.mem a 32))

/-- An entry of a VF's buffer table as memory holds it (R170, Table 19.1); all zero where there is none. -/
def State.tableEntry (s : State) (vf idx : Nat) : BitVec 256 :=
  if (s.ctx vf).desc = none then 0
  else if vf = 0 then s.stewardEntry idx
  else
    let p := ptrAdd (s.ctx vf).btptr (32 * idx)
    let e := s.stewardEntry (ptrIdx p)
    if s.usable 0 (ptrIdx p) e && decide (ptrOff p + 32 ≤ entLength e) && decide (ptrIdx p < 0xFE00) then
      match s.peek (s.locOf e p) 32 with
      | some bs => BitVec.ofNat 256 (leNat bs)
      | none => 0
    else 0

/-- What the fetch of an entry leaves where a MAC fails (R343). -/
def State.entryFlags (s : State) (vf idx : Nat) : State :=
  if vf = 0 ∨ (s.ctx vf).desc = none then s
  else
    let p := ptrAdd (s.ctx vf).btptr (32 * idx)
    if s.usable 0 (ptrIdx p) (s.stewardEntry (ptrIdx p)) then s.lookFlags (s.locOf (s.stewardEntry (ptrIdx p)) p) else s

/-! ### The checks of Table 11.2 (R173) -/

def cause.bufInvalid : Nat := 0x18
def cause.bufRights : Nat := 0x19
def cause.bufBounds : Nat := 0x1A
def cause.misaligned : Nat := 0x1B
def cause.padBounds : Nat := 0x1C

/-- Rows 1 to 4 of Table 11.2 over an entry: the first that fails. A size of zero asks no alignment. -/
def State.checkEntry (s : State) (vf : Nat) (e : BitVec 256) (ptr size align : Nat) (right : Option Right)
    (window : Bool) : Option Nat :=
  let idx := ptrIdx ptr
  if !s.usable vf idx e || entOwner e != vf || (entOnchip e && !window) ||
      -- R221: a clamped VF's accesses that leave the package fault here
      (isExternal idx && (s.ctx vf).parOnly) then some cause.bufInvalid
  else if (right.elim false fun r => !entRight e r.bit) then some cause.bufRights
  else if align ≠ 0 ∧ ptrOff ptr % align ≠ 0 then some cause.misaligned
  else if entLength e < ptrOff ptr + size then some cause.bufBounds
  else none

/-- The checks made against the buffer table itself, by the masthead and the engines. -/
def State.checkPtr (s : State) (vf ptr size align : Nat) (right : Right) : Option Nat :=
  s.checkEntry vf (s.tableEntry vf (ptrIdx ptr)) ptr size align (some right) false

end Sys2Proof.Machine
end

