-- ==== Sys2Proof/Machine/Ops.lean ====
section
/-! DEFINITION. Causal vectors and accesses (R203 to R212, R223 to R236); code lines and branch targets (R49, R131);
fault records, taking a fault or a trap and returning from one (R313 to R318). -/

namespace Sys2Proof.Machine

/-! ### Causal vectors (R203) -/

/-- a is at least b in the window of R203. -/
def vGe (a b : Nat) : Bool := decide ((a + 2 ^ 24 - b % 2 ^ 24) % 2 ^ 24 < 2 ^ 23)
def vMax (a b : Nat) : Nat := if vGe a b then a else b
def vMin (a b : Nat) : Nat := if vGe a b then b else a
/-- Merge(V, U) of R203. -/
def vMerge (v u : Tab Nat) : Tab Nat := u.foldl (fun t p => tput 0 t p.1 (vMax (tget 0 t p.1) p.2)) v
/-- Entries in which two vectors differ (R205). -/
def vDiff (v u : Tab Nat) : Nat := ((List.range 33).filter fun e => tget 0 v e != tget 0 u e).length
/-- Delta entries a message carries, 33 standing for the full vector (R205). -/
def deltaEntries (v u : Tab Nat) : Nat := let d := vDiff v u; if 26 < d then 33 else d

/-- H[e] of a home: the smallest frontier of the agent's four lanes (R206). -/
def Stack.frontier (k : Stack) (e : Nat) : Nat :=
  let f := fun l => tget 0 k.fr (4 * e + l)
  vMin (vMin (f 0) (f 1)) (vMin (f 2) (f 3))

/-- An agent's partition reaches the home with causal traffic (R207): its own partition, or any for the masthead. -/
def State.reaches (s : State) (e st : Nat) : Bool :=
  e == 32 || s.leaderOfDie (e % 16) == s.leaderOfDie st

/-- R208, R209: H[e] is at least V[e] for every agent other than w, or the frontier counts as satisfying (R207,
R239). -/
def State.gate (s : State) (st w : Nat) (vec : Tab Nat) : Bool :=
  (List.range 33).all fun e =>
    e == w || !s.reaches e st || (s.stack st).waived.contains e || vGe ((s.stack st).frontier e) (tget 0 vec e)

/-- The vector of all frontiers of a home (R209). -/
def Stack.hVec (k : Stack) : Tab Nat := (List.range 33).foldl (fun t e => tput 0 t e (k.frontier e)) []

/-- The vector that a reply about a line carries (R209): that of the stores to it while the line is in the stack cache,
where a pinned line always is, else the home's. -/
def Stack.lineVec (k : Stack) (pin : Bool) (addr vf : Nat) : Tab Nat :=
  if pin then (tfind k.pinVec (addr % 2 ^ 36 / 128)).getD k.hVec
  else ((k.scFind (addr % 2 ^ 36 / 128) vf).bind (·.vec)).getD k.hVec

/-! ### Routes (R2, R3, R223, R224) -/

def rowOf (t : Nat) : Nat := t / 4
def colOf (t : Nat) : Nat := t % 4

/-- Row first, then column; the stacks entered, the first included (R223). -/
def rowFirst (a b : Nat) : List Nat :=
  if a = b then [a]
  else if rowOf a = rowOf b ∨ colOf a = colOf b then [a, b]
  else [a, rowOf a * 4 + colOf b, b]

/-- Column first, then row (R224). -/
def colFirst (a b : Nat) : List Nat :=
  if a = b then [a]
  else if rowOf a = rowOf b ∨ colOf a = colOf b then [a, b]
  else [a, rowOf b * 4 + colOf a, b]

/-- The entry stack of ordered traffic from an agent to a stack (R223). -/
def entryOf (agent t : Nat) : Nat :=
  if agent < 16 then
    let c := agent
    if t = c ∨ t = c ^^^ 1 ∨ t = c ^^^ 4 then t
    else if rowOf t = rowOf c then c
    else if rowOf t = rowOf (c ^^^ 4) then c ^^^ 4
    else if colOf t = colOf (c ^^^ 1) then c ^^^ 1
    else c
  else if agent < 32 then agent - 16
  else if rowOf t = 0 ∨ colOf t = 0 then 0
  else if rowOf t = 3 ∨ colOf t = 3 then 15
  else 0

def orderedRoute (agent t : Nat) : List Nat := rowFirst (entryOf agent t) t

/-- Hops between two stacks (R2). -/
def hops (a b : Nat) : Nat := (if rowOf a = rowOf b then 0 else 1) + (if colOf a = colOf b then 0 else 1)

/-- Requests of an agent that stand before a first stack: the occupancy of the port (R224). -/
def State.portLoad (s : State) (agent st : Nat) : Nat :=
  (s.accs.filter fun p => p.2.agent == agent && p.2.legs.any fun
    | .out (h :: _) [] => h == st
    | _ => false).length

/-- Requests that stand before the link from a stack to another (R224). -/
def State.linkLoad (s : State) (a b : Nat) : Nat :=
  (s.accs.filter fun p => p.2.legs.any fun
    | .out (h :: _) (frm :: _) => frm == a && h == b
    | _ => false).length

/-- The route of a relaxed request (R224); a request to a line with one unacknowledged takes its route. -/
def State.relaxedRoute (s : State) (agent : Nat) (l : Loc) : List Nat :=
  match s.accs.find? fun p => p.2.agent == agent && p.2.loc.sameLine l && !p.2.route.isEmpty with
  | some p => p.2.route
  | none =>
  if 16 ≤ agent then orderedRoute agent l.stack
  else
    let ports := [agent, agent ^^^ 1, agent ^^^ 4]
    let better (a b : Nat) : Bool :=
      let ka := (hops a l.stack, s.portLoad agent a, a)
      let kb := (hops b l.stack, s.portLoad agent b, b)
      decide (ka.1 < kb.1) || (ka.1 == kb.1 && (decide (ka.2.1 < kb.2.1) || (ka.2.1 == kb.2.1 && decide (ka.2.2 < kb.2.2))))
    let e := ports.foldl (fun b p => if better p b then p else b) agent
    let r := rowFirst e l.stack
    let c := colFirst e l.stack
    if r.length = 3 ∧ s.linkLoad e (c.getD 1 0) < s.linkLoad e (r.getD 1 0) then c else r

/-! ### Accesses -/

/-- R234: stores, atomics, counter operations, write-backs and MCAS are not idempotent. -/
def MemOp.sequenced : MemOp → Bool
  | .load _ => false
  | .atomic .cread _ => false
  | _ => true

/-- An operation that writes, and so increments the writer's counter when causal (R204, R213). -/
def MemOp.writes : MemOp → Bool
  | .load _ | .atomic .cread _ | .wait _ => false
  | _ => true

/-- Unacknowledged non-idempotent requests of a port to a stack and lane (R234). -/
def State.unacked (s : State) (a : Access) : Nat :=
  (s.accs.filter fun p => !p.2.held && p.2.op.sequenced && p.2.agent == a.agent && p.2.port == a.port &&
    p.2.loc.stack == a.loc.stack && p.2.lane == a.lane).length

/-- The smallest frontier that any home holds for an agent (R204), over the homes it reaches. -/
def State.minFrontier (s : State) (e : Nat) : Nat :=
  let hs := (List.range 16).filter fun st => s.reaches e st
  hs.foldl (fun m st => vMin m ((s.stack st).frontier e)) ((s.stack (hs.headD 0)).frontier e)

/-- R204: the agent's next causal store stays within 2^22 of the smallest frontier. -/
def State.counterRoom (s : State) (e : Nat) : Bool :=
  let gap := (tget 0 (s.agent e).vec e + 2 ^ 24 - s.minFrontier e) % 2 ^ 24
  decide (gap < 2 ^ 22) || decide (2 ^ 23 ≤ gap)

/-- The conditions for a request to leave its agent: what it waits for is acknowledged (R212, R217, R241, R242), the
counter window (R204) and the 64 requests of R234. -/
def State.maySend (s : State) (a : Access) : Bool :=
  (a.after.all fun i => (tfind s.accs i).isNone) &&
  (!(a.causal && a.op.writes) || s.counterRoom a.agent) &&
  (!a.op.sequenced || decide (s.unacked a < 64))

/-- Send a request: counter, vector, lane number and route (R204 to R206, R223, R224). -/
def State.send (s : State) (id : Nat) (a : Access) : State :=
  let ag := s.agent a.agent
  let key := 4 * a.loc.stack + a.lane
  let vec := if a.causal && a.op.writes then tput 0 ag.vec a.agent ((tget 0 ag.vec a.agent + 1) % 2 ^ 24) else ag.vec
  let inSeq := a.op.sequenced && a.cls != .rx && a.ext == 0
  let inRseq := a.op.sequenced && a.cls == .rx && a.ext == 0
  let next := tget 0 ag.seqs key
  let rnext := tget 0 ag.rseqs key
  let ag' : Agent :=
    { ag with
      vec := vec
      seqs := if inSeq then tset ag.seqs key ((next + 1) % 2 ^ 16) else ag.seqs
      rseqs := if inRseq then tset ag.rseqs key ((rnext + 1) % 2 ^ 16) else ag.rseqs
      lastSent := if a.causal then tset ag.lastSent key vec else ag.lastSent
      sent := ag.sent + 1 }
  let route := if a.cls = .rx ∧ a.ext = 0 then s.relaxedRoute a.agent a.loc else orderedRoute a.agent a.loc.stack
  let a' : Access :=
    { a with
      held := false
      vec := if a.causal then vec else []
      nd := if a.causal then deltaEntries vec (tget [] ag.lastSent key) else 0
      seq := if inSeq then some next else none
      seqAt := next
      ord := ag.sent
      route := route
      rseq := if inRseq then some rnext else none
      legs := [.out route []]
      sentAt := s.ns }
  { s with agents := tset s.agents a.agent ag', accs := tset s.accs id a' }

/-- A write-back (R184). -/
def MemOp.isMerge : MemOp → Bool
  | .merge _ => true
  | _ => false

/-- An access of its agent to the same line that a request goes behind (R214, same-line order): one that is held, or one
in the cluster unit, unless the request is the unit's own or a write-back. -/
def Access.goesBehind (a p : Access) : Bool :=
  p.agent == a.agent && p.loc.sameLine a.loc &&
  ((p.held && p.ext != 4 && p.ext != 5) || (p.ext == 5 && a.port != 16 && !a.op.isMerge))

/-- Issue a request: it is sent at once where nothing holds it, else it waits for ORDERED_SEND. -/
def State.request (s : State) (a : Access) : State × Nat :=
  let id := s.nextAcc
  let same := (s.accs.filter fun p => a.goesBehind p.2).map (·.1)
  let a := { a with after := a.after ++ same }
  let s := { s with nextAcc := id + 1 }
  if s.maySend a then (s.send id a, id) else ({ s with accs := tset s.accs id { a with held := true } }, id)

/-- A request with everything but what it asks left plain. -/
def Access.make (agent port : Nat) (l : Loc) (c : Cls) (sc : Scope) (op : MemOp) (o : Owner) (gid pc : Nat) : Access :=
  { agent := agent, port := port, loc := l, lane := laneOf l.sva, cls := if l.win then .ox else c, scope := sc,
    causal := !l.win && c != .rx, vec := [], nd := 0, seq := none, seqAt := 0, ord := 0, route := [], queued := false, rseq := none, op := op, owner := o,
    gid := gid, pc := pc, mask := 0, after := [], held := false, legs := [], performed := false, reply := none, replyVec := [], old := false,
    sentAt := 0, reissues := 0, noFill := false, back := false, hint := 0, cclass := 0, ext := 0 }

/-- A place that is no global line: that of a fence, of a window access, or of the scratchpad. -/
def Loc.nowhere (vf ptr : Nat) : Loc := ⟨0, 0, 512, vf, ptr, false, false⟩
def Loc.pad (vf off : Nat) : Loc := ⟨0, off, 513, vf, 0, false, false⟩

/-- The fibres an access was made for. -/
def Access.fibs (a : Access) : List Nat :=
  match a.owner with
  | .load f _ _ _ _ _ _ _ | .store f | .fence f => [f]
  | .atomic fs _ _ _ => fs
  | _ => []

/-- An access that leaves the package (R357): its place says by which port. -/
def Access.leaves (a : Access) : Bool := decide (256 ≤ a.loc.key) && decide (a.loc.key < 512)

/-- Outstanding accesses of a fibre that an ordered access or a release at a scope waits for; a fibre in an MCAS or a
CWAIT waits for those itself. What leaves the package is ordered at .sys alone (R220). -/
def State.earlier (s : State) (gid f : Nat) (sc : Scope) : List Nat :=
  (s.accs.filter fun p => p.2.gid == gid && p.2.fibs.contains f && (sc == .sys || !p.2.leaves)).map (·.1)

/-! ### Code lines (R47, R49, R131) -/

/-- n bytes at a pointer lie in an ordinary buffer of a VF. -/
def State.inBuffer (s : State) (vf ptr n : Nat) : Bool :=
  let e := s.tableEntry vf (ptrIdx ptr)
  s.usable vf (ptrIdx ptr) e && entOwner e == vf && decide (ptrOff ptr + n ≤ entLength e) && decide (ptrIdx ptr < 0xFE00)

/-- n bytes of a VF's buffer space as they stand, without ordering: split at 64-byte boundaries by the byte. -/
def State.peekPtr (s : State) (vf ptr n : Nat) : Option (List Byte) :=
  let e := s.tableEntry vf (ptrIdx ptr)
  if !s.inBuffer vf ptr n then none
  else if ptr % 64 + n ≤ 64 then s.peek (s.locOf e ptr) n
  else (List.range n).mapM fun i => (s.peek (s.locOf e (ptr + i)) 1).map (·.headD 0)

/-- The code line at a byte offset of a group's code section, as memory holds it. -/
def State.codeMem (s : State) (vf codePtr off : Nat) : Option (BitVec 512) :=
  (s.peekPtr vf (ptrAdd codePtr off) 64).map fun bs => BitVec.ofNat 512 (leNat bs)

/-- The line of the L1 instruction cache that holds a code offset. -/
def Core.iline (c : Core) (vf codePtr off : Nat) : Option ILine :=
  c.icache.find? fun l => l.vf == vf && l.codePtr == codePtr && l.off == off

/-- The line that the branch check reads: the cached copy, else memory's. -/
def State.maskLine (s : State) (g : Group) (off : Nat) : Option (BitVec 512) :=
  match (s.core g.k).iline g.vf g.codePtr off with
  | some l => some l.data
  | none => s.codeMem g.vf g.codePtr off

/-- ValidTarget(t) of R131. -/
def State.validTarget (s : State) (g : Group) (t : Nat) : Bool :=
  match pcSlot t with
  | none => false
  | some i => decide (t < g.codeLen) &&
    match s.maskLine g (t / 64 * 64) with
    | some l => lineMask l i
    | none => false

/-! ### Faults and traps (R313 to R318) -/

def cause.softTrap : Nat := 0x01
def cause.breakpoint : Nat := 0x02
def cause.divergence : Nat := 0x03
def cause.fpException : Nat := 0x04
def cause.illegalInstr : Nat := 0x10
def cause.illegalMod : Nat := 0x11
def cause.overlap : Nat := 0x12
def cause.illegalLine : Nat := 0x13
def cause.instrParity : Nat := 0x14
def cause.regRange : Nat := 0x15
def cause.branchTarget : Nat := 0x16
def cause.latchLost : Nat := 0x17
def cause.fabricTimeout : Nat := 0x1F
def cause.convergence : Nat := 0x20
def cause.matrixFormat : Nat := 0x21
def cause.cardFormat : Nat := 0x22
def cause.copyOverlap : Nat := 0x23
def cause.accBounds : Nat := 0x24
def cause.atomicUnsupported : Nat := 0x25
def cause.mcasParam : Nat := 0x26
def cause.atomp : Nat := 0x27
def cause.counterOverflow : Nat := 0x28
def cause.privilege : Nat := 0x29
def cause.trapState : Nat := 0x2A
def cause.dieLost : Nat := 0x2B
def cause.writeBack : Nat := 0x2C
def cause.softHalt : Nat := 0x2D
def cause.footprint : Nat := 0x2E

/-- The cause of a decode trap (Table 19.8). -/
def decodeCause : DecodeTrap → Nat
  | .illegalInstruction => cause.illegalInstr
  | .illegalModifier => cause.illegalMod
  | .operandOverlap => cause.overlap

/-- Reference time of a counter value (R138, R367). -/
def TimeRegs.refOf (t : TimeRegs) (l : Nat) : Nat := ((l * t.trate) / 2 ^ 32 + t.toff) % 2 ^ 64

/-- What a fault record says (Table 19.9). -/
structure Rec where
  cause : Nat
  vdie : Nat := 0
  core : Nat := 0
  pc : Nat := 0xFFFFFFFF
  group : Nat := 0
  mask : Nat := 0
  fib : Nat := 0
  info : Nat := 0
  eptr : Nat := 0
  time : Nat := 0
  lseq : Nat := 0
  seq : Nat := 0
  deriving DecidableEq, Repr

/-- The 64 bytes of a record (Table 19.9). -/
def Rec.bytes (r : Rec) : List Byte :=
  leBytes 2 r.cause ++ leBytes 1 r.vdie ++ leBytes 1 r.core ++ leBytes 4 r.pc ++ leBytes 4 r.group ++ leBytes 4 r.mask ++
  leBytes 2 r.fib ++ leBytes 2 0 ++ leBytes 4 r.info ++ leBytes 8 r.eptr ++ leBytes 8 r.time ++ leBytes 2 r.lseq ++
  leBytes 6 0 ++ leBytes 8 r.seq ++ leBytes 8 0

/-- R238: a source numbers its events. -/
def State.event (s : State) (src : Nat) : State := s.modAgent src fun a => { a with events := a.events + 1 }

/-- R313, R314: the masthead writes a fault record of a context that an agent reports, as a store at .dev, and sets
FAULTED; MSI-X vector MSIX follows the record, and is sent at once where its check fails and it is lost. LSEQ numbers the
source's events (DESIGN CHOICE, log 47). -/
def State.faultRecord (s : State) (vf src : Nat) (r : Rec) : State :=
  let c := s.ctx vf
  let ptr := ptrAdd c.faultPtr (64 * (c.faultCount % 2 ^ c.faultCap))
  let r := { r with lseq := (s.agent src).events }
  let s := (s.event src).modCtx vf fun c => { c with faultCount := c.faultCount + 1, sticky := c.sticky ||| 0b0100 }
  if c.desc.isSome ∧ s.checkPtr vf ptr 64 64 .w = none then
    let e := s.tableEntry vf (ptrIdx ptr)
    let a := Access.make 32 0 (if isExternal (ptrIdx ptr) then extLoc e ptr else s.locOf e ptr) .cz .dev (.store r.bytes) .record 0 0
    (s.request (if isExternal (ptrIdx ptr) then { a with ext := extKind e + 1, scope := .sys, causal := false } else a)).1
  else s.emit (.msix vf c.msix)

/-- Lane j of a fibre in a bundle: the quads in ascending slot order, four lanes each (R315). -/
def laneIn (quads : List Nat) (f : Nat) : Nat := 4 * (quads.findIdx (· == f / 4)) + f % 4

/-- The mask of a set of fibres (R315). -/
def maskOf (quads fibs : List Nat) : Nat := fibs.foldl (fun m f => m ||| 2 ^ laneIn quads f) 0

/-- The mask of fibres by the lanes in which they last issued, for a fault found while they are parked (R315). -/
def State.laneMask (s : State) (gid : Nat) (fibs : List Nat) : Nat :=
  fibs.foldl (fun m f => m ||| 2 ^ ((s.group? gid).bind fun g => tfind g.fibres f).elim 0 (·.lane)) 0

/-- R67: the slice clears the data of its latches and keeps their tags. Results that are outstanding still come (R66). -/
def Slice.clearLatches (sl : Slice) : Slice :=
  { sl with latches := sl.latches.map fun l =>
      (l.1, { l.2 with valid := false, data := [], epoch := l.2.epoch + 1 }) }

/-- Remove a group's bundles from its core's slices. -/
def State.dropBundles (s : State) (k gid : Nat) : State :=
  s.modCore k fun c =>
    { c with slices := c.slices.map fun p =>
        let nums := (p.2.bundles.filter fun b => b.gid == gid).map (·.num)
        (p.1, { p.2 with
          bundles := p.2.bundles.filter fun b => b.gid != gid
          hold := match p.2.hold with
            | some h => if nums.contains h.1 then none else some h
            | none => none }) }

/-- R316: the first grid-ending event decides the status, in the order of R238: one source's by number, as they come, and
different sources' by reference time and then agent. -/
def endGrid (g : Grid) (time agent status : Nat) : Grid :=
  match g.ending with
  | none => { g with ending := some (time, agent, status) }
  | some (t, a, _) =>
    if agent ≠ a ∧ (time < t ∨ (time = t ∧ agent < a)) then { g with ending := some (time, agent, status) } else g

/-- The cause that a group stopped for its grid's end carries. -/
def endedByGrid : Nat := 0

/-- The partition of a VF halts for a switch, or has halted (R326). -/
def State.switching (s : State) (vf : Nat) : Bool := (s.ctx vf).bound && (s.gang (s.ctx vf).leader).phase != .idle

/-- Stop a group: it issues nothing further (R316 step 1, 2). While its partition halts for a switch it ends only after the
restore (R326). -/
def State.stopGroup (s : State) (gid c : Nat) : State :=
  match s.group? gid with
  | none => s
  | some g =>
    if g.ended.isSome then s
    else (s.setGroup gid { g with ended := some c, halted := g.halted || s.switching g.vf }).dropBundles g.k gid

/-- R316: the group halts at once, the grid's other groups halt, its queued tasks are discarded, and the grid will end
with a status. -/
def State.endGroup (s : State) (gid c status : Nat) : State :=
  match s.group? gid with
  | none => s
  | some g =>
    let d := s.die (g.k / 16)
    let s := s.stopGroup gid c
    let s := { s with grids := tmod s.grids g.grid fun q => endGrid q (d.time.refOf d.time.ltime) (g.k / 16) status }
    let s := ((tfind s.grids g.grid).elim [] (·.groups)).foldl (fun s o => s.stopGroup o endedByGrid) s
    { s with items := s.items.filter fun p => !(p.2.fromGrid == some g.grid && p.2.kind == .task && !p.2.started) }

/-- Grid statuses of Table 19.5. -/
def status.aborted : Nat := 0x0005
def status.groupFault : Nat := 0x0110
def status.softHalt : Nat := 0x0111
def status.dieLost : Nat := 0x0112

/-- INFO of a record (Table 19.9): the operand of HALTG, the register number of a Convergence Fault, the cause under a
write-back fault; otherwise as TRAPINFO (R315), the lane of the lowest marked fibre in [28:24] over the cause's own bits. -/
def recordInfo (c mask info : Nat) : Nat :=
  if c = cause.softHalt ∨ c = cause.convergence ∨ c = cause.writeBack then info
  else ((List.range 32).find? mask.testBit).elim info fun j => j * 2 ^ 24 + info % 2 ^ 24

/-- Taking a fault (R316, Table 19.9): the record, and the end of the group and of its grid. -/
def State.takeFault (s : State) (gid c pc mask fib info eptr : Nat) : State :=
  match s.group? gid with
  | none => s
  | some g =>
    let d := s.die (g.k / 16)
    let s := s.faultRecord g.vf (g.k / 16)
      { cause := c, vdie := g.vdie, core := g.k % 16, pc := pc, group := g.index, mask := mask, fib := fib,
        info := recordInfo c mask info,
        eptr := eptr, time := d.time.ltime,
        seq := (tfind s.grids g.grid).elim 0 (·.seq) }
    s.endGroup gid c (if c = cause.softHalt then status.softHalt
      else if c = cause.dieLost then status.dieLost else status.groupFault)

/-- A precise fault of the issuing bundle on a set of its fibres; the slice clears its latches (R67). -/
def State.faultAt (s : State) (c : Cur) (cs : Nat) (fibs : List Nat) (info eptr : Nat) : State :=
  (s.takeFault c.gid cs c.pc (maskOf c.quads fibs) (fibs.headD 0) info eptr).modSlice c.k c.sl Slice.clearLatches

/-- TRAPINFO of a fibre (R315): its lane in [28:24] and the cause's own bits. -/
def trapInfo (lane low : Nat) : Word := BitVec.ofNat 32 ((lane % 32) * 2 ^ 24 + low)

/-- Taking a trap (R315): each entering fibre records its state, is in-trap and continues at TRAPVEC. `lane` numbers
the lanes, `low` gives the cause's bits of TRAPINFO. Where TRAPEN is 0, or a fibre that would enter is in-trap, the
trap is a fault of its own cause; where TRAPVEC is no valid target, a Branch Target fault. -/
def State.takeTrap (s : State) (c : Cur) (cs : Nat) (enter marked : List Nat) (lane low : Nat → Nat) : State :=
  match s.group? c.gid with
  | none => s
  | some g =>
    let mask := marked.foldl (fun m f => m ||| 2 ^ lane f) 0
    let inTrap := enter.filter fun f => (tfind g.fibres f).elim false (·.inTrap)
    let lead := marked.headD (enter.headD 0)
    let clear (s : State) : State := s.modSlice c.k c.sl Slice.clearLatches
    if !g.trapEn || !inTrap.isEmpty then
      clear (s.takeFault c.gid cs c.pc mask lead (trapInfo (lane lead) (low lead)).toNat 0)
    else if !s.validTarget g g.trapVec then
      clear (s.takeFault c.gid cause.branchTarget c.pc mask lead 0 0)
    else
      let fibres := enter.foldl (fun t f => tmod t f fun b =>
        { b with inTrap := true, trapPc := BitVec.ofNat 32 c.pc, trapCause := BitVec.ofNat 32 cs,
                 trapInfo := trapInfo (lane f) (low f), trapMask := BitVec.ofNat 32 mask,
                 pc := BitVec.ofNat 32 g.trapVec }) g.fibres
      clear (s.setGroup c.gid { g with fibres := fibres })

/-- Return from a trap (R318): the fibre leaves its in-trap state and goes to TRAPPC, or to the slot after it. -/
def Fibre.trapReturn (b : Fibre) (next : Bool) : Fibre :=
  { b with inTrap := false,
           pc := if next then BitVec.ofNat 32 (seqPc b.trapPc.toNat) else b.trapPc }

/-! ### Bundles after an instruction -/

/-- Helpers that execute with the bundle: those of the quads whose lead is enabled (R24). -/
def Group.lead (g : Group) (q : Nat) : Option Nat :=
  ([0, 1, 2, 3].map (4 * q + ·)).find? fun f => (tfind g.fibres f).elim false (·.live)

def Group.helpersOf (g : Group) (en quads : List Nat) : List Nat :=
  quads.flatMap fun q =>
    match g.lead q with
    | some l =>
      if en.contains l then
        ([0, 1, 2, 3].map (4 * q + ·)).filter fun f => (tfind g.fibres f).elim false fun b => !b.live
      else []
    | none => []

/-- Merge two ascending lists of fibres. -/
def fibInsert (f : Nat) : List Nat → List Nat
  | [] => [f]
  | h :: t => if f < h then f :: h :: t else if f = h then h :: t else h :: fibInsert f t
def fibMerge (a b : List Nat) : List Nat := b.foldl (fun t f => fibInsert f t) a

/-- Every fibre that executes: enabled fibres and the helpers that follow a lead among them. -/
def Group.executing (g : Group) (c : Cur) : List Nat := fibMerge c.en (g.helpersOf c.en c.quads)

/-- R24: the helpers of a quad stand at their lead's PC. -/
def Group.alignHelpers (g : Group) (quads : List Nat) : Group :=
  { g with fibres := quads.foldl (fun t q =>
      match g.lead q with
      | some l =>
        match tfind t l with
        | some b => [0, 1, 2, 3].foldl (fun t i =>
            tmod t (4 * q + i) fun h => if h.live then h else { h with pc := b.pc }) t
        | none => t
      | none => t) g.fibres }

/-- Move fibres, each to its own PC. -/
def Group.moveTo (g : Group) (fibs : List Nat) (pcOf : Nat → Nat) : Group :=
  { g with fibres := fibs.foldl (fun t f => tmod t f fun b => { b with pc := BitVec.ofNat 32 (pcOf f) }) g.fibres }

/-- Move fibres to the next slot. -/
def Group.advance (g : Group) (fibs : List Nat) (pc : Nat) : Group := g.moveTo fibs fun _ => seqPc pc

/-- R46: the standing bundle goes on at the PC of its lowest-numbered enabled fibre that is live and not parked. -/
def State.settle (s : State) (c : Cur) : State :=
  match s.group? c.gid with
  | none => s.modSlice c.k c.sl fun sl => { sl with bundles := sl.bundles.filter fun b => b.num != c.num }
  | some g =>
    let up := c.en.filter fun f => (tfind g.fibres f).elim false fun b => b.live && b.park == .none
    match up with
    | [] => s.modSlice c.k c.sl fun sl => { sl with bundles := sl.bundles.filter fun b => b.num != c.num }
    | f :: _ =>
      let pc := (tfind g.fibres f).elim 0 (·.pc.toNat)
      let en := up.filter fun x => (tfind g.fibres x).elim false fun b => b.pc.toNat == pc
      s.modSlice c.k c.sl fun sl =>
        { sl with bundles := sl.bundles.map fun b => if b.num = c.num then { b with pc := pc, en := en } else b }

/-- The end of an ordinary instruction: helpers aligned, bundle settled. -/
def State.finish (s : State) (c : Cur) : State :=
  (s.modGroup c.gid fun g => g.alignHelpers c.quads).settle c

/-- Park fibres at the instruction. -/
def State.park (s : State) (gid : Nat) (fibs : List Nat) (p : Park) : State :=
  s.modGroup gid fun g => { g with fibres := fibs.foldl (fun t f => tmod t f fun b => { b with park := p }) g.fibres }

/-- Wake the fibres of a group whose park satisfies a test. -/
def State.wake (s : State) (gid : Nat) (test : Park → Bool) : State :=
  s.modGroup gid fun g => { g with fibres := g.fibres.map fun x =>
    (x.1, if test x.2.park then { x.2 with park := .none } else x.2) }

end Sys2Proof.Machine
end

