-- ==== Sys2Proof/Machine/Atomic.lean ====
section
/-! DEFINITION. What an atomic event computes on one 128-byte line (R250 to R253, R264, R265). -/

namespace Sys2Proof.Machine

/-- Replace bytes of a list from an offset. -/
def patch (bs : List Byte) (o : Nat) (new : List Byte) : List Byte := bs.take o ++ new ++ bs.drop (o + new.length)

/-- n bytes of a line from an offset, as a natural number. -/
def lineNat (bs : List Byte) (o n : Nat) : Nat := leNat ((bs.drop o).take n)

/-- FAddAtomic (R252): one rounded sum in FP32, or one for each BF16 element; no flag. -/
def fAddAtomic (m x : Nat) (x2 : Bool) : Nat :=
  if x2 then
    let e (i : Nat) : Nat := (bf16.add 0 (bf16.decode (m / 2 ^ i % 2 ^ 16)) (bf16.decode (x / 2 ^ i % 2 ^ 16))).1
    e 0 + 2 ^ 16 * e 16
  else (fp32.add 0 (fp32.decode m) (fp32.decode x)).1

/-- The new value of ATOM (R251) on w bits. -/
def atomNew (op w : Nat) (sgn : Bool) (m x : Nat) : Nat :=
  let key (v : Nat) : Int := if sgn then toSigned w v else v
  match op with
  | 0 => (m + x) % 2 ^ w
  | 1 => if key x < key m then x else m
  | 2 => if key m < key x then x else m
  | 3 => m &&& x
  | 4 => m ||| x
  | 5 => m ^^^ x
  | 6 => x
  | _ => fAddAtomic m x sgn

/-- Bytes of the target of an event. -/
def AKind.bytes : AKind → Nat
  | .atom _ w64 _ => if w64 then 8 else 4
  | .cas n => n
  | _ => 8

/-- The new value that one step writes, from the old one; a counter's may reach 2^64, which is an overflow. -/
def AKind.next (k : AKind) (m x y : Nat) : Nat :=
  match k with
  | .atom op w64 sgn => atomNew op (if w64 then 64 else 32) sgn m x
  | .cas _ => if m = x then y else m
  | .cadd => m + x
  | .craise => max m x
  | .cread => m

/-- An operation that writes its place. -/
def AKind.isWrite : AKind → Bool
  | .cread => false
  | _ => true

/-- What an event comes to: the line, each fibre's old value, and whether a counter passed 2^64 - 1. -/
structure LineRes where
  line : List Byte
  olds : Tab Nat
  passed : Bool
  deriving DecidableEq, Repr

/-- The steps of an event in order (R250); with an overflow the line stands as it was (R264). -/
def runLine (k : AKind) (line : List Byte) (steps : List AStep) : LineRes :=
  let r := steps.foldl (fun (a : LineRes) st =>
    let m := lineNat a.line st.off k.bytes
    let v := k.next m st.x st.y
    ⟨if k.isWrite then patch a.line st.off (leBytes k.bytes v) else a.line, tset a.olds st.fib m,
      a.passed || decide (2 ^ 64 ≤ v && k.bytes == 8)⟩) ⟨line, [], false⟩
  if r.passed then { r with line := line } else r

end Sys2Proof.Machine
end

