-- ==== Sys2Proof/Machine/Operands.lean ====
section
/-! DEFINITION. Operand forms: guards (R54), sources (R56 to R58), latches (R66 to R68), queue reads (R271, R272, R302,
R339), destinations (R55, R59), and the shared frame of an instruction that each fibre computes alone. -/

namespace Sys2Proof.Machine

/-! ### Registers and predicates of a fibre -/

/-- vn of a fibre. -/
def Fibre.v (b : Fibre) (n : Nat) : Word := tget 0 b.regs n
def Fibre.setV (b : Fibre) (n : Nat) (x : Word) : Fibre := { b with regs := tput 0 b.regs n x }

/-- The value of n registers from a first one, the first lowest (R12, R58). -/
def groupVal (rd : Nat → Word) (first : Nat) : Nat → Nat
  | 0 => 0
  | n + 1 => (rd first).toNat + 2 ^ 32 * groupVal rd (first + 1) n

/-- Write a value to n registers from a first one. -/
def Fibre.setGroup (b : Fibre) (first : Nat) : Nat → Nat → Fibre
  | 0, _ => b
  | n + 1, x => (b.setV first (BitVec.ofNat 32 x)).setGroup (first + 1) n (x / 2 ^ 32)

/-- pn of a fibre: p15 reads as true (R16). -/
def Fibre.p (b : Fibre) (n : Nat) : Bool := decide (n = 15) || b.preds.getLsbD n

/-- Write pn: a write to p15 is discarded (R16, R55). -/
def Fibre.setP (b : Fibre) (n : Nat) (q : Bool) : Fibre :=
  if 15 ≤ n then b
  else
    let m : BitVec 16 := BitVec.ofNat 16 (2 ^ n)
    { b with preds := if q then b.preds ||| m else b.preds &&& ~~~m }

/-- The predicate word as P2V reads it (R129). -/
def Fibre.predWord (b : Fibre) : Nat := (b.preds.toNat % 2 ^ 15) + 2 ^ 15

/-- The guard of an instruction in a fibre (R54). -/
def Fibre.guard (b : Fibre) (c : Ctl) : Bool :=
  let x := (b.p c.ga.num.toNat) ^^ c.ga.neg
  let y := (b.p c.gb.num.toNat) ^^ c.gb.neg
  match c.gc with
  | .single => x
  | .both => x && y
  | .either => x || y
  | .reserved => false

/-- A predicate source (R108). -/
def Fibre.predSrc (b : Fibre) (x : Src) : Bool := (b.p (x.num.toNat % 16)) ^^ x.om

/-- sn of a group. -/
def Group.s (g : Group) (n : Nat) : Word := tget 0 g.sregs n

/-! ### Sources -/

/-- A source operand as read: bits of its registers, or an exact constant (R56). -/
inductive OpVal where
  | bits (x : Nat)
  | const (n : Nat)
  deriving DecidableEq, Repr

/-- The number an integer operand supplies. -/
def OpVal.nat : OpVal → Nat
  | .bits x => x
  | .const n => n

/-- Why an instruction of a bundle is not performed. -/
inductive Blocked where
  | latchLost
  deriving DecidableEq, Repr

/-- A latch read (R68): the data of the fibre's lane, else the fibre's own tagged register, else Latch Lost. The rule's
"latch data valid" is asked of the fibre's own lane, which may hold no captured data in a latch whose other lanes do
(DESIGN CHOICE, log 9: the rule does not say whether validity is kept per latch or per lane). -/
def readLatch (sl : Slice) (gid f : Nat) (b : Fibre) (x n : Nat) : Except Blocked Nat :=
  let l := tget Latch.empty sl.latches x
  match (if l.valid then tfind l.data f else none) with
  | some d => .ok (d % 2 ^ (32 * n))
  | none =>
    match l.tag with
    | some (tg, r, wbs) => if tg ≠ gid ∨ wbs then .error .latchLost else .ok (groupVal b.v r n)
    | none => .error .latchLost

/-- Queue registers that a read may have to wait for. -/
def waitQueueOf (x : Src) : Option Nat :=
  if x.kind = .special ∧ 0x54 ≤ x.num.toNat ∧ x.num.toNat ≤ 0x58 then some (x.num.toNat - 0x50) else none

/-- Cards that wait in a die's copy queue (R278). -/
def State.copyWaiting (s : State) (d : Nat) : Nat :=
  ((s.die d).copyq.filter fun c => (tfind s.cards c).elim false fun x => !x.running).length

/-- Entries of the engine's queue in use: operations not started, bindings not loading (R285). -/
def Core.descUsed (c : Core) : Nat := (c.eng.filter fun e => !e.started).length

/-- A read of q0, q1 or q2: free entries (Table 17.1). -/
def State.queueFree (s : State) (k vf q : Nat) : Nat :=
  match q with
  | 0 => 64 - s.copyWaiting (k / 16)
  | 1 => min 255 (Config.halyardEntries vf -
      (s.items.filter fun p => p.2.kind == .task && p.2.vf == vf && !p.2.started).length)
  | _ => 16 - (s.core k).descUsed

/-- A source that reads no waiting queue. The n registers of a group make one value. -/
def readSrc (s : State) (c : Cur) (g : Group) (f : Nat) (b : Fibre) (x : Src) (n : Nat) : Except Blocked OpVal :=
  match x.kind with
  | .vreg => .ok (.bits (groupVal b.v x.num.toNat n))
  | .scalar => .ok (.bits (groupVal g.s x.num.toNat n))
  | .latch => (readLatch (s.slice c.k c.sl) c.gid f b (x.num.toNat % 4) n).map .bits
  | .special =>
    let m := x.num.toNat
    .ok (if m < 0x40 then .const m
      else if m < 0x48 then .bits (g.fslots.getD (m - 0x40) 0 % 2 ^ 16)
      else if b.live then .bits (s.queueFree c.k g.vf (m - 0x50)) else .bits 0)

/-- The operand of a source under its use (R56, R108). A popped queue value stands in `pops`, in source order. -/
def readUse (s : State) (c : Cur) (g : Group) (f : Nat) (b : Fibre) (x : Src) (u : SrcUse) (pops : List Word) :
    Except Blocked (OpVal × List Word) :=
  match u with
  | .ignored | .zero | .zeroCls | .rnd => .ok (.const x.num.toNat, pops)
  | .pred => .ok (.bits (b.predSrc x).toNat, pops)
  | .val n _ | .vs n _ | .vsx n =>
    match waitQueueOf x with
    | some _ => .ok (.bits (pops.headD 0).toNat, pops.tail)
    | none => (readSrc s c g f b x n).map (·, pops)
  | .vsxc => (readSrc s c g f b x 1).map (·, pops)

/-- All sources of a shape, then OE where it is a source. -/
def readAll (s : State) (c : Cur) (g : Group) (f : Nat) (b : Fibre) :
    List (Src × SrcUse) → List Word → Except Blocked (List OpVal)
  | [], _ => .ok []
  | (x, u) :: t, pops =>
    match readUse s c g f b x u pops with
    | .error e => .error e
    | .ok (v, pops) => (readAll s c g f b t pops).map (v :: ·)

/-- OE as an operand: a fourth source, a predicate, or nothing. -/
def oeAsUse : OeUse → SrcUse
  | .source => .val 1 false
  | _ => .ignored

/-! ### Queue reads (R272, R302, R339) -/

/-- Where an instruction reads, in source order: its sources, then OE where it is one. -/
def operandUses (h : Shape) : List (Src × SrcUse) := h.srcs ++ [(h.oe.1, oeAsUse h.oe.2)]

/-- The waiting queues an instruction reads, in source order. -/
def waitQueuesOf (h : Shape) : List Nat :=
  ((operandUses h).filterMap fun p =>
    match p.2 with
    | .val _ _ => waitQueueOf p.1
    | _ => none)

/-- What one queue read gives. -/
inductive Popped where
  | value (w : Word)
  | wait (q : Nat)
  | fault
  deriving DecidableEq, Repr

/-- Read `n` of a live fibre's instruction, of q4 to q7 (R302) or q8 (R339). -/
def State.popQueue (s : State) (k gid f n q : Nat) : State × Popped :=
  let co := s.core k
  if q = 8 then
    let waits := (s.modCore k fun co => { co with q8readers := co.q8readers ++ [(gid, f, n)] }, Popped.wait q)
    match co.statuses with
    | w :: t =>
      if co.q8readers.isEmpty then (s.modCore k fun co => { co with statuses := t }, .value w) else waits
    | [] => if co.cmds.isEmpty then (s, .value 0xFFFFFFFF) else waits
  else
    let p := tget ResPort.empty co.ports (q - 4)
    if p.owner.isSome ∧ p.owner ≠ some gid then (s, .fault)
    else
      match p.fifo, p.readers with
      | w :: t, [] => (s.modCore k fun co => { co with ports := tset co.ports (q - 4) { p with fifo := t } }, .value w)
      | _, _ =>
        (s.modCore k fun co =>
          { co with ports := tset co.ports (q - 4) { p with readers := p.readers ++ [(gid, f, n)] } }, .wait q)

/-- A word served for read `n` of a fibre's instruction. -/
def QReads.put (r : QReads) (n : Nat) (w : Word) : QReads := { r with words := tset r.words n w }

/-- A core holds a parked read of a fibre. -/
def Core.reads (co : Core) (gid f : Nat) : Bool :=
  (co.q8readers.any fun r => r.1 == gid && r.2.1 == f) ||
  co.ports.any fun p => p.2.readers.any fun r => r.1 == gid && r.2.1 == f

/-- The reads of an instruction that are still to be made: queue and number. -/
def QReads.unserved (r : QReads) (qs : List Nat) : List (Nat × Nat) := qs.zipIdx.filter fun p => (tfind r.words p.2).isNone

/-- Reads of one fibre's instruction. Every read is made as the instruction issues; the answer is the first that waits, if
one does. -/
def State.popFibre (s : State) (k gid f : Nat) : List (Nat × Nat) → State × Popped
  | [] => (s, .value 0)
  | (q, n) :: t =>
    match s.popQueue k gid f n q with
    | (s, .value w) => (s.modFibre gid f fun b => { b with popped := b.popped.put n w }).popFibre k gid f t
    | (s, .fault) => (s, .fault)
    | (s, .wait q) =>
      match s.popFibre k gid f t with
      | (s, .fault) => (s, .fault)
      | (s, _) => (s, .wait q)

/-- R272: the reads of a bundle in ascending FIBID, for each live fibre whose guard is true. Answers the fibres that
wait, or the one whose read faults. -/
def State.popAll (s : State) (c : Cur) (ctl : Ctl) (qs : List Nat) : List Nat → State × Except Nat (List Nat)
  | [] => (s, .ok [])
  | f :: t =>
    match (s.group? c.gid).bind fun g => tfind g.fibres f with
    | none => s.popAll c ctl qs t
    | some b =>
      if b.live && b.guard ctl then
        match s.popFibre c.k c.gid f (b.popped.unserved qs) with
        | (s, .fault) => (s, .error f)
        | (s, .wait q) =>
          match (s.park c.gid [f] (.queue q)).popAll c ctl qs t with
          | (s, .ok w) => (s, .ok (f :: w))
          | r => r
        | (s, .value _) => s.popAll c ctl qs t
      else s.popAll c ctl qs t

/-- Hand a word to a parked read. A fibre that waits for no other read is woken and uses its words when the instruction
issues again. -/
def State.give (s : State) (k : Nat) (r : Nat × Nat × Nat) (w : Word) : State :=
  let waits := (s.core k).reads r.1 r.2.1
  s.modFibre r.1 r.2.1 fun b =>
    { b with popped := b.popped.put r.2.2 w, park := match b.park with
      | .queue q => if waits then .queue q else .none
      | p => p }

/-- Serve the parked reads of a result port, in the order they issued (R302). -/
def State.servePort (s : State) (k q : Nat) : State :=
  let p := tget ResPort.empty (s.core k).ports q
  let n := min p.fifo.length p.readers.length
  let s := s.modCore k fun co =>
    { co with ports := tset co.ports q { p with fifo := p.fifo.drop n, readers := p.readers.drop n } }
  (p.readers.zip p.fifo).foldl (fun s r => s.give k r.1 r.2) s

/-- Put back what an instruction popped that a trap stopped before any effect (R87, R315). -/
def State.unpop (s : State) (c : Cur) (qs : List Nat) (fibs : List Nat) : State :=
  let back (s : State) (q : Nat) (w : Word) : State :=
    if q = 8 then
      if w = 0xFFFFFFFF then s else s.modCore c.k fun co => { co with statuses := w :: co.statuses }
    else
      s.modCore c.k fun co =>
        let p := tget ResPort.empty co.ports (q - 4)
        { co with ports := tset co.ports (q - 4) { p with fifo := w :: p.fifo } }
  let s := fibs.reverse.foldl (fun s f =>
    let ws := ((s.group? c.gid).bind fun g => tfind g.fibres f).elim [] fun b => b.popped.words.map (·.2)
    let s := ((qs.zip ws).reverse).foldl (fun s p => back s p.1 p.2) s
    s.modFibre c.gid f fun b => { b with popped := QReads.none }) s
  qs.foldl (fun s q => if q = 8 then s else s.servePort c.k (q - 4)) s

/-! ### What a fibre computes, and writing it -/

/-- Operands of one fibre. -/
structure LaneIn where
  fib : Nat
  b : Fibre
  ops : List OpVal
  oe : OpVal
  deriving DecidableEq, Repr

def LaneIn.a (x : LaneIn) : Nat := (x.ops.getD 0 (.const 0)).nat
def LaneIn.bb (x : LaneIn) : Nat := (x.ops.getD 1 (.const 0)).nat
def LaneIn.c (x : LaneIn) : Nat := (x.ops.getD 2 (.const 0)).nat

/-- Results of one fibre: DST as a value or a predicate, the second destination, and the flags raised. -/
structure LaneOut where
  val : Option Nat := none
  val2 : Option Nat := none
  p : Option Bool := none
  p2 : Option Bool := none
  /-- predicates to set: mask and value (R129) -/
  pw : Option (Nat × Nat) := none
  flags : Nat := 0
  deriving DecidableEq, Repr

/-- Registers of a destination group. -/
def dstRegs : DstUse → Nat
  | .v n | .vOrNone n | .vOrQueue n => n
  | _ => 0

/-- A v destination, unless WBS keeps the result from the register file (R55). -/
def Fibre.writeVal (b : Fibre) (h : Shape) : Option Nat → Fibre
  | some x => if h.dst.1.kind = .vreg ∧ !h.dst.1.wbs then b.setGroup h.dst.1.num.toNat (dstRegs h.dst.2) x else b
  | none => b

/-- A predicate destination (R55). -/
def Fibre.writeP (b : Fibre) (h : Shape) : Option Bool → Fibre
  | some q => if h.dst.1.kind = .pred then b.setP h.dst.1.num.toNat q else b
  | none => b

/-- A register as second destination (R59). -/
def Fibre.writeVal2 (b : Fibre) (h : Shape) : Option Nat → Fibre
  | some x => if hasDst2 h.oe.1 h.oe.2 then b.setV h.oe.1.num.toNat (BitVec.ofNat 32 x) else b
  | none => b

/-- The predicates that V2P's mask names (R129); p15 is none of them. -/
def Fibre.writeMask (b : Fibre) : Option (Nat × Nat) → Fibre
  | some (m, x) =>
    let mk : BitVec 16 := BitVec.ofNat 16 (m % 2 ^ 15)
    { b with preds := (b.preds &&& ~~~mk) ||| (BitVec.ofNat 16 x &&& mk) }
  | none => b

/-- A predicate as second destination (R59). -/
def Fibre.writeP2 (b : Fibre) (h : Shape) : Option Bool → Fibre
  | some q => if hasDst2 h.oe.1 h.oe.2 then b.setP h.oe.1.num.toNat q else b
  | none => b

/-- R55, R59: the destinations of one fibre. -/
def Fibre.writeOut (b : Fibre) (h : Shape) (o : LaneOut) : Fibre :=
  ((((b.writeVal h o.val).writeP h o.p).writeVal2 h o.val2).writeMask o.pw).writeP2 h o.p2

/-- R66: a capture by the fibres that executed. -/
def State.capture (s : State) (k sl gid : Nat) (h : Shape) (vals : List (Nat × Nat)) : State :=
  let d := h.dst.1
  if d.cap ∧ d.kind = .vreg then
    s.modSlice k sl fun x =>
      let l := tget Latch.empty x.latches h.ctl.latch.toNat
      let l' : Latch :=
        { l with valid := true, tag := some (gid, d.num.toNat, d.wbs),
                 data := vals.foldl (fun t v => tset t v.1 (v.2 % 2 ^ 64)) (if l.valid then l.data else []) }
      { x with latches := tset x.latches h.ctl.latch.toNat l' }
  else s

/-- R66: an instruction whose result comes later replaces the tag when it issues; the results of `fibs` are to come. -/
def State.tagLatch (s : State) (k sl gid : Nat) (h : Shape) (fibs : List Nat) : State × Option (Nat × Nat × Nat) :=
  let d := h.dst.1
  if d.cap ∧ d.kind = .vreg then
    let x := h.ctl.latch.toNat
    let l := tget Latch.empty (s.slice k sl).latches x
    let l' : Latch := { l with tag := some (gid, d.num.toNat, d.wbs), pend := l.pend ++ fibs.map (gid, ·) }
    (s.modSlice k sl fun y => { y with latches := tset y.latches x l' }, some (sl, x, l.epoch))
  else (s, none)

/-- R66: a latch no longer waits for the result of a fibre. -/
def State.freeLatch (s : State) (k gid f : Nat) (at_ : Option (Nat × Nat × Nat)) : State :=
  match at_ with
  | none => s
  | some (sl, x, _) =>
    s.modSlice k sl fun y =>
      let l := tget Latch.empty y.latches x
      let l' : Latch := { l with pend := l.pend.filter fun p => p != (gid, f) }
      { y with latches := tset y.latches x l' }

/-- R66: a late result is written to its latch unless the data was cleared since the issue. -/
def State.lateLatch (s : State) (k gid f : Nat) (at_ : Option (Nat × Nat × Nat)) (v : Nat) : State :=
  match at_ with
  | none => s
  | some (sl, x, ep) =>
    (s.freeLatch k gid f at_).modSlice k sl fun y =>
      let l := tget Latch.empty y.latches x
      let data := tset (if l.valid then l.data else []) f (v % 2 ^ 64)
      let l' : Latch := { l with valid := true, data := data }
      if l.epoch = ep then { y with latches := tset y.latches x l' } else y

/-- R66: the captures of fibres that an instruction parks on a queue: the tag is replaced as it issues, and the fibres
keep the latch's epoch. -/
def State.parkCapture (s : State) (c : Cur) (h : Shape) (fibs : List Nat) : State :=
  if fibs.isEmpty then s
  else
    let (s, l) := s.tagLatch c.k c.sl c.gid h []
    fibs.foldl (fun s f => s.modFibre c.gid f fun b => { b with popped := { b.popped with latch := l } }) s

/-- R66: the captures of a fibre that had parked on a queue count only while the data has not been cleared since. -/
def State.stillOpen (s : State) (k : Nat) (b : Fibre) : Bool :=
  match b.popped.latch with
  | none => true
  | some (sl, x, ep) => (tget Latch.empty (s.slice k sl).latches x).epoch == ep

/-- R58: a v-register group of a shape that reaches past the window. -/
def pastWindow (h : Shape) (w : Nat) : Bool := (h.reads ++ h.writes).any fun r => decide (w < r.1 + r.2)

/-- A fibre's lane in its bundle, for TRAPMASK (R315). -/
def Cur.lane (c : Cur) (f : Nat) : Nat := laneIn c.quads f

/-- The operand that OE gives. -/
def oeOperand (b : Fibre) (h : Shape) (vs : List OpVal) : OpVal :=
  match h.oe.2 with
  | .source => vs.getD h.srcs.length (.const 0)
  | .predSrc => .bits (b.predSrc h.oe.1).toNat
  | _ => .const 0

/-- The operands of one fibre. A helper whose latch data is lost has none. -/
def laneOperands (s : State) (c : Cur) (g : Group) (h : Shape) (f : Nat) (b : Fibre) : Except Blocked LaneIn :=
  match readAll s c g f b (operandUses h) (b.popped.words.map (·.2)) with
  | .ok vs => .ok ⟨f, b, vs.take h.srcs.length, oeOperand b h vs⟩
  | .error e => if b.live then .error e else .ok ⟨f, b, [], .const 0⟩

/-- The results of every fibre that executes with its guard true. -/
def computeLanes (s : State) (c : Cur) (g : Group) (h : Shape) (body : LaneIn → LaneOut) :
    List Nat → List (Nat × Except Blocked LaneOut)
  | [] => []
  | f :: t =>
    match tfind g.fibres f with
    | none => computeLanes s c g h body t
    | some b =>
      if b.guard h.ctl then (f, (laneOperands s c g h f b).map body) :: computeLanes s c g h body t
      else computeLanes s c g h body t

/-- Write the results and flags of fibres in their group. -/
def Group.writeOuts (g : Group) (h : Shape) (outs : List (Nat × LaneOut)) : Group :=
  { g with fibres := outs.foldl (fun t o => tmod t o.1 fun b =>
      { ((b.writeOut h o.2).raise o.2.flags) with popped := QReads.none }) g.fibres }

/-- Write the results of the fibres and move every executing fibre, each to its own PC. A result whose latch was cleared
since its instruction first issued is not captured (R66). -/
def State.retireTo (s : State) (c : Cur) (g : Group) (h : Shape) (ex : List Nat) (outs : List (Nat × LaneOut))
    (pcOf : Nat → Nat) : State :=
  let s := s.setGroup c.gid ((g.writeOuts h outs).moveTo ex pcOf)
  let kept := outs.filter fun o => (tfind g.fibres o.1).elim true (s.stillOpen c.k)
  let s := if kept.isEmpty && !outs.isEmpty then s
    else s.capture c.k c.sl c.gid h (kept.filterMap fun o => o.2.val.map (o.1, ·))
  s.finish c

/-- Write the results of the fibres and move every executing fibre to the next slot. -/
def State.retireLanes (s : State) (c : Cur) (g : Group) (h : Shape) (ex : List Nat) (outs : List (Nat × LaneOut)) :
    State := s.retireTo c g h ex outs fun _ => seqPc c.pc

/-- The shared beginning of an instruction that reads operands in each fibre (R58, R68, R272): the Register Range
check, the queue reads, and the results of the fibres whose guard is true; the rest is `k`'s, given the bundle without
the fibres that wait on a queue. -/
def withLanes (i : Instr) (s : State) (body : LaneIn → LaneOut)
    (k : State → Cur → Group → Shape → List Nat → List (Nat × LaneOut) → State) :
    Host.Outcome State Fault Refusal :=
  match s.cur with
  | none => .fault .noIssue
  | some c =>
    match s.group? c.gid, i.shape with
    | some g, some h =>
      if pastWindow h g.wsize then .next (s.faultAt c cause.regRange c.en 0 0)
      else
        match s.popAll c h.ctl (waitQueuesOf h) c.en with
        | (_, .error f) => .next (s.faultAt c cause.matrixFormat [f] 0 0)
        | (s, .ok waits) =>
          let s := s.parkCapture c h waits
          let c := { c with en := c.en.filter fun f => !waits.contains f }
          match s.group? c.gid with
          | none => .fault .noIssue
          | some g =>
            let ex := g.executing c
            let rs := computeLanes s c g h body ex
            let lost := rs.filterMap fun r => match r.2 with | .error _ => some r.1 | .ok _ => none
            if !lost.isEmpty then .next (s.faultAt c cause.latchLost lost 0 0)
            else
              .next (k s c g h ex
                (rs.filterMap fun r => match r.2 with | .ok o => some (r.1, o) | .error _ => none))
    | _, _ => .fault .noIssue

/-- The fibres that raise a flag whose enable is set (R87). -/
def trapping (g : Group) (outs : List (Nat × LaneOut)) : List Nat :=
  (outs.filter fun o => (tfind g.fibres o.1).elim false fun b =>
    b.live && decide (b.enables &&& o.2.flags ≠ 0)).map (·.1)

/-- The flags a fibre would have raised. -/
def flagsOf (outs : List (Nat × LaneOut)) (f : Nat) : Nat := (outs.find? fun o => o.1 == f).elim 0 (·.2.flags)

/-- R87: no destination and no flag is written, what was popped is put back, and the bundle traps. -/
def fpTrap (s : State) (c : Cur) (h : Shape) (hit : List Nat) (outs : List (Nat × LaneOut)) : State :=
  ((s.unpop c (waitQueuesOf h) c.en).takeTrap c cause.fpException c.en hit c.lane (flagsOf outs)).finish c

/-- An instruction that each fibre computes alone (R107): its results are written and its fibres pass it, unless a
fibre raises an enabled flag, which traps before any effect (R87). -/
def laneStep (i : Instr) (s : State) (body : LaneIn → LaneOut) : Host.Outcome State Fault Refusal :=
  withLanes i s body fun s c g h ex outs =>
    match trapping g outs with
    | [] => s.retireLanes c g h ex outs
    | hit => fpTrap s c h hit outs

end Sys2Proof.Machine
end

