-- ==== Sys2Proof/Machine/Int.lean ====
section
/-! DEFINITION. Integer, logic, shift, field, compare, select, move and address instructions (R105 to R127), one
definition for each row of Table 7.2. -/

namespace Sys2Proof.Machine

/-! ### Types (R105, Table 7.1) -/

def tyWidth (t : Nat) : Nat := 8 * 2 ^ (t % 4)
def tySigned (t : Nat) : Bool := t.testBit 2

/-- Get(x, T) of R105. -/
def getT (t x : Nat) : Int :=
  let y := x % 2 ^ tyWidth t
  if tySigned t then toSigned (tyWidth t) y else y

/-- Put(d, v, T) of R105: the register or pair written. -/
def putT (t : Nat) (v : Int) : Nat :=
  let w := tyWidth t
  let y := narrow w v
  if w < 32 ∧ tySigned t ∧ y.testBit (w - 1) then y + (2 ^ 32 - 2 ^ w) else y

def tyLo (t : Nat) : Int := if tySigned t then -(2 ^ (tyWidth t - 1)) else 0
def tyHi (t : Nat) : Int := if tySigned t then 2 ^ (tyWidth t - 1) - 1 else 2 ^ tyWidth t - 1

/-- Sat(v, T) of R105. -/
def satT (t : Nat) (v : Int) : Int := min (max v (tyLo t)) (tyHi t)

/-- IMM as a 64-bit value: sign-extended or zero-extended (R106). -/
def extImm (signed : Bool) (imm : BitVec 32) : Nat :=
  if signed then narrow 64 imm.toInt else imm.toNat

/-- The natural operand of width w. -/
def natT (t x : Nat) : Nat := x % 2 ^ tyWidth t

/-- A word of w bits complemented when asked (R116). -/
def complIf (c : Bool) (w x : Nat) : Nat := if c then 2 ^ w - 1 - x % 2 ^ w else x % 2 ^ w

def negIf (c : Bool) (v : Int) : Int := if c then -v else v

/-- Narrow by Put, saturated first when asked. -/
def putSat (sat : Bool) (t : Nat) (v : Int) : Nat := putT t (if sat then satT t v else v)

def outVal (x : Nat) : LaneOut := { val := some x }
def outPred (q : Bool) : LaneOut := { p := some q }

/-! ### Arithmetic (R111 to R115) -/

/-- IADD, C format (R111). -/
def execIadd (f : CFmt) (s : State) : Host.Outcome State Fault Refusal :=
  laneStep (.iadd f) s fun x =>
    outVal (putSat (f.md.getLsbD 3) f.ty (negIf f.sa.om (getT f.ty x.a) + negIf f.sb.om (getT f.ty x.bb)))

/-- IADD, I format (R106, R111). -/
def execIaddImm (f : IFmt) (s : State) : Host.Outcome State Fault Refusal :=
  laneStep (.iaddImm f) s fun x =>
    outVal (putSat (f.md.getLsbD 3) f.ty
      (negIf f.sa.om (getT f.ty x.a) + getT f.ty (extImm (tySigned f.ty) f.imm)))

/-- ISUB (R111). -/
def execIsub (f : CFmt) (s : State) : Host.Outcome State Fault Refusal :=
  laneStep (.isub f) s fun x => outVal (putSat (f.md.getLsbD 3) f.ty (getT f.ty x.a - getT f.ty x.bb))

/-- The low or the high half of an exact product (R112). -/
def mulHalf (hi : Bool) (t : Nat) (p : Int) : Nat := putT t (if hi then p.fdiv (2 ^ tyWidth t) else p)

/-- IMUL, C format (R112). -/
def execImul (f : CFmt) (s : State) : Host.Outcome State Fault Refusal :=
  laneStep (.imul f) s fun x => outVal (mulHalf (f.md.getLsbD 3) f.ty (getT f.ty x.a * getT f.ty x.bb))

/-- IMUL, I format (R106, R112). -/
def execImulImm (f : IFmt) (s : State) : Host.Outcome State Fault Refusal :=
  laneStep (.imulImm f) s fun x =>
    outVal (mulHalf (f.md.getLsbD 3) f.ty (getT f.ty x.a * getT f.ty (extImm (tySigned f.ty) f.imm)))

/-- IMAD (R113). -/
def execImad (f : CFmt) (s : State) : Host.Outcome State Fault Refusal :=
  laneStep (.imad f) s fun x =>
    outVal (putSat (f.md.getLsbD 3) f.ty (getT f.ty x.a * getT f.ty x.bb + negIf f.sc.om (getT f.ty x.c)))

/-- IMADW (R114): W has the signedness of T and twice its width. -/
def execImadw (f : CFmt) (s : State) : Host.Outcome State Fault Refusal :=
  laneStep (.imadw f) s fun x =>
    outVal (putT (f.ty + 1) (getT f.ty x.a * getT f.ty x.bb + negIf f.sc.om (getT (f.ty + 1) x.c)))

/-- IMIN (R115). -/
def execImin (f : CFmt) (s : State) : Host.Outcome State Fault Refusal :=
  laneStep (.imin f) s fun x => outVal (putT f.ty (min (getT f.ty x.a) (getT f.ty x.bb)))

/-- IMAX (R115). -/
def execImax (f : CFmt) (s : State) : Host.Outcome State Fault Refusal :=
  laneStep (.imax f) s fun x => outVal (putT f.ty (max (getT f.ty x.a) (getT f.ty x.bb)))

/-- IABS (R115). -/
def execIabs (f : CFmt) (s : State) : Host.Outcome State Fault Refusal :=
  laneStep (.iabs f) s fun x => outVal (putSat (f.md.getLsbD 3) f.ty ((getT f.ty x.a).natAbs : Int))

/-! ### Logic (R116) -/

/-- A logic result narrowed by Put under the natural type. -/
def logicOut (t r : Nat) : LaneOut := outVal (putT t (r : Nat))

/-- AND, C format (R116). -/
def execAnd (f : CFmt) (s : State) : Host.Outcome State Fault Refusal :=
  laneStep (.and f) s fun x =>
    logicOut f.ty (complIf f.sa.om (tyWidth f.ty) x.a &&& complIf f.sb.om (tyWidth f.ty) x.bb)

/-- AND, I format (R106, R116). -/
def execAndImm (f : IFmt) (s : State) : Host.Outcome State Fault Refusal :=
  laneStep (.andImm f) s fun x =>
    logicOut f.ty (complIf f.sa.om (tyWidth f.ty) x.a &&& natT f.ty (extImm true f.imm))

/-- OR, C format (R116). -/
def execOr (f : CFmt) (s : State) : Host.Outcome State Fault Refusal :=
  laneStep (.or f) s fun x =>
    logicOut f.ty (complIf f.sa.om (tyWidth f.ty) x.a ||| complIf f.sb.om (tyWidth f.ty) x.bb)

/-- OR, I format (R106, R116). -/
def execOrImm (f : IFmt) (s : State) : Host.Outcome State Fault Refusal :=
  laneStep (.orImm f) s fun x =>
    logicOut f.ty (complIf f.sa.om (tyWidth f.ty) x.a ||| natT f.ty (extImm true f.imm))

/-- XOR, C format (R116). -/
def execXor (f : CFmt) (s : State) : Host.Outcome State Fault Refusal :=
  laneStep (.xor f) s fun x =>
    logicOut f.ty (complIf f.sa.om (tyWidth f.ty) x.a ^^^ complIf f.sb.om (tyWidth f.ty) x.bb)

/-- XOR, I format (R106, R116). -/
def execXorImm (f : IFmt) (s : State) : Host.Outcome State Fault Refusal :=
  laneStep (.xorImm f) s fun x =>
    logicOut f.ty (complIf f.sa.om (tyWidth f.ty) x.a ^^^ natT f.ty (extImm true f.imm))

/-- ANDN (R116). -/
def execAndn (f : CFmt) (s : State) : Host.Outcome State Fault Refusal :=
  laneStep (.andn f) s fun x =>
    logicOut f.ty (complIf f.sa.om (tyWidth f.ty) x.a &&&
      complIf true (tyWidth f.ty) (complIf f.sb.om (tyWidth f.ty) x.bb))

/-! ### Shifts and fields (R117 to R121) -/

/-- A count, position or length: Get(x, .n32) (R105). -/
def count32 (x : Nat) : Nat := x % 2 ^ 32

/-- SHL (R117). -/
def execShl (f : CFmt) (s : State) : Host.Outcome State Fault Refusal :=
  laneStep (.shl f) s fun x =>
    let n := count32 x.bb
    logicOut f.ty (if tyWidth f.ty ≤ n then 0 else natT f.ty x.a <<< n)

/-- SHR (R117). -/
def execShr (f : CFmt) (s : State) : Host.Outcome State Fault Refusal :=
  laneStep (.shr f) s fun x =>
    let n := count32 x.bb
    logicOut f.ty (if tyWidth f.ty ≤ n then 0 else natT f.ty x.a >>> n)

/-- SAR (R117): a count of the width or more leaves sign bits. -/
def execSar (f : CFmt) (s : State) : Host.Outcome State Fault Refusal :=
  laneStep (.sar f) s fun x =>
    let w := tyWidth f.ty
    let n := min (count32 x.bb) (w - 1)
    outVal (putT f.ty (toSigned w (natT f.ty x.a) >>> n))

/-- FSHL (R118). -/
def execFshl (f : CFmt) (s : State) : Host.Outcome State Fault Refusal :=
  laneStep (.fshl f) s fun x =>
    let w := tyWidth f.ty
    let n := count32 x.c % w
    logicOut f.ty (((natT f.ty x.a * 2 ^ w + natT f.ty x.bb) <<< n) >>> w)

/-- BitOf(a, j) of R119. -/
def bitOfT (t a j : Nat) : Bool :=
  let w := tyWidth t
  if j < w then a.testBit j else tySigned t && a.testBit (w - 1)

/-- The natural number of bits g 0 to g (m - 1). -/
def bitsNat (g : Nat → Bool) : Nat → Nat
  | 0 => 0
  | m + 1 => bitsNat g m + (g m).toNat * 2 ^ m

/-- BFX (R119). -/
def execBfx (f : CFmt) (s : State) : Host.Outcome State Fault Refusal :=
  laneStep (.bfx f) s fun x =>
    let p := count32 x.bb % 256
    let m := min (count32 x.c % 256) (tyWidth f.ty)
    let fl := bitsNat (fun i => bitOfT f.ty x.a (p + i)) m
    outVal (putT f.ty (if tySigned f.ty ∧ 0 < m then toSigned m fl else fl))

/-- BFI (R120): the length is read from OE. -/
def execBfi (f : CFmt) (s : State) : Host.Outcome State Fault Refusal :=
  laneStep (.bfi f) s fun x =>
    let w := tyWidth f.ty
    let p := count32 x.c % 256
    let m := min (count32 x.oe.nat % 256) w
    logicOut f.ty (bitsNat (fun j => if p ≤ j ∧ j < p + m then x.bb.testBit (j - p) else x.a.testBit j) w)

/-- POPC (R121). -/
def execPopc (f : CFmt) (s : State) : Host.Outcome State Fault Refusal :=
  laneStep (.popc f) s fun x => outVal (popCount (tyWidth f.ty) (natT f.ty x.a))

/-- CLZ (R121). -/
def execClz (f : CFmt) (s : State) : Host.Outcome State Fault Refusal :=
  laneStep (.clz f) s fun x =>
    let a := natT f.ty x.a
    outVal (if a = 0 then tyWidth f.ty else tyWidth f.ty - 1 - Nat.log2 a)

/-- BREV (R121). -/
def execBrev (f : CFmt) (s : State) : Host.Outcome State Fault Refusal :=
  laneStep (.brev f) s fun x =>
    let w := tyWidth f.ty
    logicOut f.ty (bitsNat (fun i => x.a.testBit (w - 1 - i)) w)

/-! ### Compare, select, move (R122 to R125) -/

/-- Table 7.6: the condition. -/
def compareT (cond : Nat) (x y : Int) : Bool :=
  match cond with
  | 0 => decide (x = y)
  | 1 => decide (x ≠ y)
  | 2 => decide (x < y)
  | 3 => decide (x ≤ y)
  | 4 => decide (y < x)
  | _ => decide (y ≤ x)

/-- Table 7.6: the combine. -/
def combineT (comb : Nat) (c g : Bool) : Bool :=
  match comb with
  | 0 => c
  | 1 => c && g
  | 2 => c || g
  | _ => c ^^ g

/-- ISET, C format (R122). -/
def execIset (f : CFmt) (s : State) : Host.Outcome State Fault Refusal :=
  laneStep (.iset f) s fun x =>
    outPred (combineT (bitsOf f.md.toNat 7 6)
      (compareT (bitsOf f.md.toNat 5 3) (getT f.ty x.a) (getT f.ty x.bb)) (x.oe.nat == 1))

/-- ISET, I format (R106, R122). -/
def execIsetImm (f : IFmt) (s : State) : Host.Outcome State Fault Refusal :=
  laneStep (.isetImm f) s fun x =>
    outPred (compareT (bitsOf f.md.toNat 5 3) (getT f.ty x.a) (getT f.ty (extImm (tySigned f.ty) f.imm)))

/-- SEL (R123). -/
def execSel (f : CFmt) (s : State) : Host.Outcome State Fault Refusal :=
  laneStep (.sel f) s fun x => logicOut f.ty (if x.oe.nat = 1 then natT f.ty x.a else natT f.ty x.bb)

end Sys2Proof.Machine
end

