-- ==== Sys2Proof/Machine/Sfu.lean ====
section
/-! DEFINITION. The six special functions with a bound (R150 to R153): the exact results of Tables 9.7 and 9.8, and for
every other operand a value within the bound of Table 9.6, chosen by the opaque Config.sfuPick. The bound is drawn
around a fixed-point evaluation to 320 bits (log 20). -/

namespace Sys2Proof.Machine

/-- Fractional bits of the fixed-point evaluation. -/
def fxW : Nat := 320
def fxOne : Nat := 2 ^ 320

/-- A nonnegative dyadic in fixed point. -/
def fxOf (m : Nat) (e : Int) : Nat := if 0 ≤ e + 320 then m <<< (e + 320).toNat else m >>> (-(e + 320)).toNat

def fxMul (a b : Nat) : Nat := (a * b) >>> 320

/-- z + z^3/3 + z^5/5 + ... with n terms: atanh z for z below 1/2. -/
def fxAtanh (z : Nat) (n : Nat) : Nat :=
  let z2 := fxMul z z
  ((List.range n).foldl (fun (a : Nat × Nat) k => (a.1 + a.2 / (2 * k + 1), fxMul a.2 z2)) (0, z)).1

/-- 1/q - 1/(3 q^3) + ...: atan of 1/q. -/
def fxAtanInv (q n : Nat) : Nat :=
  ((List.range n).foldl (fun (a : Int × Nat) k =>
    let t : Int := (a.2 / (2 * k + 1) : Nat)
    (if k % 2 = 0 then a.1 + t else a.1 - t, a.2 / (q * q))) (0, fxOne / q)).1.toNat

def fxLn2 : Nat := 2 * fxAtanh (fxOne / 3) 110
def fxPi : Nat := 16 * fxAtanInv 5 80 - 4 * fxAtanInv 239 30

/-- exp x for x in [0, 1] by its series. -/
def fxExp (x : Nat) : Nat :=
  ((List.range 80).foldl (fun (a : Nat × Nat) k => (a.1 + a.2, fxMul a.2 x / (k + 1))) (0, fxOne)).1

/-- sin x for x in [0, 2) by its series. -/
def fxSin (x : Nat) : Nat :=
  let x2 := fxMul x x
  ((List.range 60).foldl (fun (a : Int × Nat) k =>
    (if k % 2 = 0 then a.1 + a.2 else a.1 - a.2, fxMul a.2 x2 / ((2 * k + 2) * (2 * k + 3)))) (0, x)).1.toNat

/-- 2^a for a signed dyadic a: value times 2^exponent. -/
def exp2Val (neg : Bool) (m : Nat) (e : Int) : Nat × Int :=
  let x : Int := signedOf neg (fxOf m e)
  let i := x.fdiv fxOne
  let f := (x - i * fxOne).toNat
  (fxExp (fxMul f fxLn2), i - 320)

/-- log2 of a nonzero magnitude, signed fixed point. -/
def log2Val (m : Nat) (e : Int) : Int :=
  let k := Nat.log2 m
  let x := fxOf m (-(k : Int))
  let ln := 2 * fxAtanh (((x - fxOne) <<< 320) / (x + fxOne)) 110
  ((k : Int) + e) * fxOne + ((ln <<< 320) / fxLn2 : Nat)

/-- exp (-x) for x at most 128: square x / 128 seven times. -/
def fxExpNeg (x : Nat) : Nat :=
  let h := (fxOne * fxOne) / fxExp (x / 128)
  (List.range 7).foldl (fun y _ => fxMul y y) h

/-- tanh of a magnitude. -/
def tanhVal (m : Nat) (e : Int) : Nat :=
  let x := min (fxOf m e) (64 * fxOne)
  let q := fxExpNeg (2 * x)
  ((fxOne - q) <<< 320) / (fxOne + q)

/-- sin (pi u) for u in [0, 1/2]. -/
def sinPiVal (u : Nat) : Nat := fxSin (fxMul u fxPi)

/-- R153: |t| and the sign of a reduced by the nearest even multiple, in fixed point: t = a - 2 RoundInt(a/2). -/
def reducePi (neg : Bool) (m : Nat) (e : Int) : Int :=
  let q := (roundScaled 0 false m (e - 1)).1
  let t : Int :=
    if 0 ≤ e then (m <<< e.toNat : Nat) * fxOne - (2 * q : Nat) * fxOne
    else (fxOf m e : Int) - (2 * q : Nat) * fxOne
  if neg then -t else t

/-- Functions of Table 9.6, as FRSQ to FCOSPI are numbered by OPC[2:0]. -/
inductive SfuFn where
  | rsq | exp2 | log2 | tanh | sinpi | cospi
  deriving DecidableEq, Repr

def SfuFn.code : SfuFn → Nat
  | .rsq => 1
  | .exp2 => 3
  | .log2 => 4
  | .tanh => 5
  | .sinpi => 6
  | .cospi => 7

/-- A signed value: sign, magnitude, exponent. -/
def SfuFn.eval (fn : SfuFn) (neg : Bool) (m : Nat) (e : Int) : Term :=
  match fn with
  | .rsq =>
    let r := recipMag m e
    let q := sqrtMag (r.1 <<< 320) (r.2 - 320)
    ⟨false, q.1, q.2⟩
  | .exp2 => let r := exp2Val neg m e; ⟨false, r.1, r.2⟩
  | .log2 => let r := log2Val m e; ⟨r < 0, r.natAbs, -320⟩
  | .tanh => ⟨neg, tanhVal m e, -320⟩
  | .sinpi =>
    let t := reducePi neg m e
    let u := min t.natAbs (fxOne - t.natAbs)
    ⟨t < 0, sinPiVal u, -320⟩
  | .cospi =>
    let t := (reducePi neg m e).natAbs
    if 2 * t ≤ fxOne then ⟨false, sinPiVal (fxOne / 2 - t), -320⟩ else ⟨true, sinPiVal (t - fxOne / 2), -320⟩

/-- The position of a code among the finite codes in ascending value; both zeros at 0. -/
def Fmt.key (F : Fmt) (c : Nat) : Int := signedOf (c.testBit (F.ex + F.fr)) (c % 2 ^ (F.ex + F.fr))
def Fmt.unkey (F : Fmt) (neg : Bool) (k : Int) : Nat := if k = 0 then F.zero neg else F.sign (k < 0) + k.natAbs

/-- The keys of the values of a format within a bound of y: half-width as a term's magnitude and exponent. -/
def Fmt.within (F : Fmt) (y : Term) (bm : Nat) (be : Int) : Int × Int :=
  let e0 := min y.e be
  let v := y.at e0
  let b : Int := (bm <<< (be - e0).toNat : Nat)
  let lo := v - b
  let hi := v + b
  (F.key (F.round 2 (lo < 0) lo.natAbs e0).1, F.key (F.round 3 (hi < 0) hi.natAbs e0).1)

/-- The bound of Table 9.6 at the exact value y, as magnitude and exponent; `x01` says that a is in [0.5, 2], where FLOG2's
absolute bound is taken in place of the 1 ulp (DEDUCED, log 11). -/
def SfuFn.bound (fn : SfuFn) (F : Fmt) (y : Term) (x01 : Bool) : Nat × Int :=
  let u := max (magLog y.m y.e) F.emin - F.fr
  match fn with
  | .log2 => if x01 then (1, if F.fr = 23 then -22 else -9) else (1, u)
  | .tanh => if F.fr = 23 then (2, u) else (1, u)
  | _ => (1, u)

/-- m * 2^e is an integer, and it is even. -/
def isInt (m : Nat) (e : Int) : Bool := decide (0 ≤ e) || m % 2 ^ (min (-e).toNat (Nat.log2 m + 1)) == 0
def isEven (m : Nat) (e : Int) : Bool := isInt m (e - 1)

/-- The exact results of Table 9.8, for a finite operand that is not zero. -/
def SfuFn.exact (fn : SfuFn) (F : Fmt) (neg : Bool) (m : Nat) (e : Int) : Option Nat :=
  let k := magLog m e
  let pow := m == 2 ^ Nat.log2 m
  let half := isInt m (e + 1) && !isInt m e
  match fn with
  | .rsq => if pow && k % 2 == 0 then some (F.round 0 false 1 (-(k / 2))).1 else none
  | .exp2 =>
    if isInt m e && decide (k < 10) then
      let i := signedOf neg (roundScaled 1 false m e).1
      if decide (F.low ≤ i) && decide (i ≤ F.bias) then some (F.round 0 false 1 i).1 else none
    else none
  | .log2 => if pow then some (F.ofInt 0 k).1 else none
  | .tanh => none
  | .sinpi =>
    if isInt m e then some (F.zero neg)
    else if half then
      -- a = i + 1/2 with i = floor a
      let i := (signedOf neg (m <<< (e + 1).toNat >>> (-(e + 1)).toNat) - 1).fdiv 2
      some (F.ofInt 0 (if i % 2 = 0 then 1 else -1)).1
    else none
  | .cospi =>
    if isInt m e then some (F.ofInt 0 (if isEven m e then 1 else -1)).1
    else if half then some (F.zero false)
    else none

/-- Table 9.7: zeros and infinities, and the negative operands of FRSQ and FLOG2. -/
def SfuFn.special (fn : SfuFn) (F : Fmt) (v : FVal) : Option FRes :=
  match v, fn with
  | .inf n, .rsq => some (if n then F.invalid else (F.zero false, 0))
  | .inf n, .exp2 => some (if n then F.zero false else F.inf false, 0)
  | .inf n, .log2 => some (if n then F.invalid else (F.inf false, 0))
  | .inf n, .tanh => some ((F.ofInt 0 (if n then -1 else 1)).1, 0)
  | .inf _, .sinpi | .inf _, .cospi => some F.invalid
  | .fin n m _, .rsq => if m = 0 then some (F.inf n, flag.dz) else if n then some F.invalid else none
  | .fin n m _, .log2 => if m = 0 then some (F.inf true, flag.dz) else if n then some F.invalid else none
  | .fin _ m _, .exp2 | .fin _ m _, .cospi => if m = 0 then some ((F.ofInt 0 1).1, 0) else none
  | .fin n m _, .tanh | .fin n m _, .sinpi => if m = 0 then some (F.zero n, 0) else none
  | .nan _ _ _, _ => none

/-- A special function of one element (R150 to R152). -/
def SfuFn.apply (fn : SfuFn) (F : Fmt) (x : Nat) : FRes :=
  let v := F.decode x
  match nanRule F [(F.fr, v)] with
  | some r => r
  | none =>
    match fn.special F v with
    | some r => r
    | none =>
      match fn.exact F v.neg v.term.m v.term.e with
      | some r => (r, 0)
      | none =>
        let m := v.term.m
        let e := v.term.e
        let k := magLog m e
        if fn = .exp2 ∧ 8 ≤ k then
          -- |a| is 256 or more: past both ends of every format
          if v.neg then
            (Nat.min 1 (Config.sfuPick fn.code F.bits x % 2), flag.nx + flag.uf)
          else (F.inf false, flag.of + flag.nx)
        else
          let y := fn.eval v.neg m e
          let x01 := k == -1 || k == 0 || (k == 1 && m == 2 ^ Nat.log2 m)
          let b := fn.bound F y x01
          if F.bias < magLog y.m y.e then (F.inf false, flag.of + flag.nx)
          else
            let w := F.within y b.1 b.2
            let r := F.unkey y.neg (w.1 + (Config.sfuPick fn.code F.bits x % (w.2 - w.1 + 1).toNat : Nat))
            let mag := r % 2 ^ (F.ex + F.fr)
            if F.top < mag then (r, flag.of + flag.nx)
            else (r, flag.nx + (if mag < 2 ^ F.fr then flag.uf else 0))

end Sys2Proof.Machine
end

