-- ==== Sys2Proof/Machine/Float.lean ====
section
/-! DEFINITION. Floating-point instructions and conversions that each fibre computes alone (R139 to R157), one
definition for each row of Table 9.2, and CVT and CVTX. -/

namespace Sys2Proof.Machine

/-! ### Operands of Table 9.1 -/

def fltFmt (md : BitVec 8) : Fmt := ftFmt (bitsOf md.toNat 3 2)
def fltRnd (md : BitVec 8) : Nat := bitsOf md.toNat 1 0
def fltX2 (md : BitVec 8) : Bool := md.toNat.testBit 4

/-- The elements of an operand (R139), each with its sign inverted under OM (R140). -/
def fltElems (F : Fmt) (x2 om : Bool) (v : OpVal) : List Nat :=
  let flip (c : Nat) : Nat := if om then c ^^^ F.sign true else c
  match v with
  | .const n =>
    let c := flip (F.ofInt 0 n).1
    if x2 then [c, c] else [c]
  | .bits x => if x2 then [flip (x % 2 ^ 16), flip (x / 2 ^ 16 % 2 ^ 16)] else [flip (x % 2 ^ F.bits)]

/-- Elements packed from bits 15:0 upwards, with their flags ORed (R81, R86). -/
def packRes : List FRes → Nat × Nat
  | [] => (0, 0)
  | r :: t => let p := packRes t; (r.1 + 2 ^ 16 * p.1, r.2 ||| p.2)

def fltOut (rs : List FRes) : LaneOut := let p := packRes rs; { val := some p.1, flags := p.2 }

def LaneIn.opA (x : LaneIn) : OpVal := x.ops.getD 0 (.const 0)
def LaneIn.opB (x : LaneIn) : OpVal := x.ops.getD 1 (.const 0)
def LaneIn.opC (x : LaneIn) : OpVal := x.ops.getD 2 (.const 0)

/-- One operand, element by element. -/
def flt1 (f : CFmt) (op : Fmt → Nat → FRes) (x : LaneIn) : LaneOut :=
  let F := fltFmt f.md
  fltOut ((fltElems F (fltX2 f.md) false x.opA).map (op F))

/-- Two operands, element by element. -/
def flt2 (f : CFmt) (op : Fmt → Nat → Nat → FRes) (x : LaneIn) : LaneOut :=
  let F := fltFmt f.md
  fltOut (List.zipWith (op F) (fltElems F (fltX2 f.md) f.sa.om x.opA) (fltElems F (fltX2 f.md) f.sb.om x.opB))

/-! ### Arithmetic (R142 to R149) -/

/-- FADD (R142). -/
def execFadd (f : CFmt) (s : State) : Host.Outcome State Fault Refusal :=
  laneStep (.fadd f) s (flt2 f fun F a b => F.add (fltRnd f.md) (F.decode a) (F.decode b))

/-- FSUB (R142). -/
def execFsub (f : CFmt) (s : State) : Host.Outcome State Fault Refusal :=
  laneStep (.fsub f) s (flt2 f fun F a b => F.sub (fltRnd f.md) (F.decode a) (F.decode b))

/-- FMUL (R142). -/
def execFmul (f : CFmt) (s : State) : Host.Outcome State Fault Refusal :=
  laneStep (.fmul f) s (flt2 f fun F a b => F.mul (fltRnd f.md) (F.decode a) (F.decode b))

/-- FFMA (R143). -/
def execFfma (f : CFmt) (s : State) : Host.Outcome State Fault Refusal :=
  laneStep (.ffma f) s fun x =>
    let F := fltFmt f.md
    let x2 := fltX2 f.md
    let ab := (fltElems F x2 f.sa.om x.opA).zip (fltElems F x2 f.sb.om x.opB)
    fltOut (List.zipWith (fun p c => F.fma (fltRnd f.md) (F.decode p.1) (F.decode p.2) (F.decode c)) ab
      (fltElems F x2 f.sc.om x.opC))

/-- FMIN (R144, Table 9.3). -/
def execFmin (f : CFmt) (s : State) : Host.Outcome State Fault Refusal :=
  laneStep (.fmin f) s (flt2 f fun F => F.minMax false false)

/-- FMAX (R144, Table 9.3). -/
def execFmax (f : CFmt) (s : State) : Host.Outcome State Fault Refusal :=
  laneStep (.fmax f) s (flt2 f fun F => F.minMax true false)

/-- FMINN (R144, Table 9.3). -/
def execFminn (f : CFmt) (s : State) : Host.Outcome State Fault Refusal :=
  laneStep (.fminn f) s (flt2 f fun F => F.minMax false true)

/-- FMAXN (R144, Table 9.3). -/
def execFmaxn (f : CFmt) (s : State) : Host.Outcome State Fault Refusal :=
  laneStep (.fmaxn f) s (flt2 f fun F => F.minMax true true)

/-- Table 9.4: the condition, and whether a quiet NaN raises NV. -/
def fsetCond (cond : Nat) (unord : Bool) (o : Ordering) : Bool :=
  match cond with
  | 0 => !unord && o == .eq
  | 1 => unord || o != .eq
  | 2 => !unord && o == .lt
  | 3 => !unord && o != .gt
  | 4 => !unord && o == .gt
  | 5 => !unord && o != .lt
  | 6 => unord
  | _ => !unord

/-- FSET (R145). -/
def execFset (f : CFmt) (s : State) : Host.Outcome State Fault Refusal :=
  laneStep (.fset f) s fun x =>
    let F := fltFmt f.md
    let cond := bitsOf f.md.toNat 7 5
    let a := F.decode ((fltElems F false false x.opA).headD 0)
    let b := F.decode ((fltElems F false false x.opB).headD 0)
    let unord := a.isNan || b.isNan
    { p := some (combineT (bitsOf f.md.toNat 1 0) (fsetCond cond unord (cmpVal a b)) (x.oe.nat == 1))
      flags := if a.isSnan || b.isSnan || (unord && decide (2 ≤ cond ∧ cond ≤ 5)) then flag.nv else 0 }

/-- FCLASS (R146, Table 9.5). -/
def execFclass (f : CFmt) (s : State) : Host.Outcome State Fault Refusal :=
  laneStep (.fclass f) s (flt1 f fun F a => (F.class a, 0))

/-- FRND (R147). -/
def execFrnd (f : CFmt) (s : State) : Host.Outcome State Fault Refusal :=
  laneStep (.frnd f) s (flt1 f fun F a => F.rnd (fltRnd f.md) (f.md.toNat.testBit 5) a)

/-- FSCALE (R148). -/
def execFscale (f : CFmt) (s : State) : Host.Outcome State Fault Refusal :=
  laneStep (.fscale f) s fun x =>
    let F := fltFmt f.md
    let x2 := fltX2 f.md
    -- R139: a special constant supplies its value to both elements
    let ns : List Int :=
      match x.opB with
      | .const n => [n, n]
      | .bits n =>
        if x2 then [toSigned 16 (n % 2 ^ 16), toSigned 16 (n / 2 ^ 16 % 2 ^ 16)] else [toSigned 32 (n % 2 ^ 32)]
    fltOut (List.zipWith (fun a n => F.scale (fltRnd f.md) a n) (fltElems F x2 false x.opA) ns)

/-- FDOT2 (R149). -/
def execFdot2 (f : CFmt) (s : State) : Host.Outcome State Fault Refusal :=
  laneStep (.fdot2 f) s fun x =>
    let F := fltFmt f.md
    let a := fltElems F true f.sa.om x.opA
    let b := fltElems F true f.sb.om x.opB
    let c := (fltElems fp32 false f.sc.om x.opC).headD 0
    let r := F.dot2 (fltRnd f.md) (F.decode (a.getD 0 0)) (F.decode (a.getD 1 0)) (F.decode (b.getD 0 0))
      (F.decode (b.getD 1 0)) (fp32.decode c)
    { val := some r.1, flags := r.2 }

/-! ### Special functions (R150 to R153) -/

/-- FRCP. -/
def execFrcp (f : CFmt) (s : State) : Host.Outcome State Fault Refusal :=
  laneStep (.frcp f) s (flt1 f fun F => F.rcp (fltRnd f.md))

/-- FSQRT. -/
def execFsqrt (f : CFmt) (s : State) : Host.Outcome State Fault Refusal :=
  laneStep (.fsqrt f) s (flt1 f fun F => F.sqrt (fltRnd f.md))

/-- FRSQ. -/
def execFrsq (f : CFmt) (s : State) : Host.Outcome State Fault Refusal :=
  laneStep (.frsq f) s (flt1 f SfuFn.rsq.apply)

/-- FEXP2. -/
def execFexp2 (f : CFmt) (s : State) : Host.Outcome State Fault Refusal :=
  laneStep (.fexp2 f) s (flt1 f SfuFn.exp2.apply)

/-- FLOG2. -/
def execFlog2 (f : CFmt) (s : State) : Host.Outcome State Fault Refusal :=
  laneStep (.flog2 f) s (flt1 f SfuFn.log2.apply)

/-- FTANH. -/
def execFtanh (f : CFmt) (s : State) : Host.Outcome State Fault Refusal :=
  laneStep (.ftanh f) s (flt1 f SfuFn.tanh.apply)

/-- FSINPI. -/
def execFsinpi (f : CFmt) (s : State) : Host.Outcome State Fault Refusal :=
  laneStep (.fsinpi f) s (flt1 f SfuFn.sinpi.apply)

/-- FCOSPI. -/
def execFcospi (f : CFmt) (s : State) : Host.Outcome State Fault Refusal :=
  laneStep (.fcospi f) s (flt1 f SfuFn.cospi.apply)

/-! ### Conversions (R154 to R157) -/

/-- A floating type code of Table 9.10. -/
def cvtFmt (code : Nat) : Fmt :=
  match code with
  | 8 => fp32
  | 9 | 11 => fp16
  | _ => bf16

def cvtPacked (code : Nat) : Bool := decide (11 ≤ code)

/-- One conversion of R155: destination code, source code, rounding, the operands. -/
def cvtOut (d fr mode : Nat) (a a1 : OpVal) : LaneOut :=
  if fr < 8 then
    let v := getT fr a.nat
    if d < 8 then { val := some (putT d (satT d v)) }
    else
      let r := (cvtFmt d).ofInt mode v
      { val := some r.1, flags := r.2 }
  else
    let S := cvtFmt fr
    if d < 8 then
      let r := convToInt S mode (tyLo d) (tyHi d) ((fltElems S false false a).headD 0)
      { val := some (putT d r.1), flags := r.2 }
    else
      let D := cvtFmt d
      let xs :=
        if cvtPacked d ∧ fr = 8 then fltElems S false false a ++ fltElems S false false a1
        else fltElems S (cvtPacked fr) false a
      let rs := xs.map (convF S D mode)
      if cvtPacked fr ∧ d = 8 then
        let r0 := rs.getD 0 (0, 0)
        let r1 := rs.getD 1 (0, 0)
        { val := some (r0.1 + 2 ^ 32 * r1.1), flags := r0.2 ||| r1.2 }
      else fltOut rs

/-- CVT (R154, R155). -/
def execCvt (f : CFmt) (s : State) : Host.Outcome State Fault Refusal :=
  laneStep (.cvt f) s fun x =>
    cvtOut (bitsOf f.md.toNat 7 4) (bitsOf f.md.toNat 3 0) (f.sb.num.toNat % 4) x.opA x.opC

/-- Fields of a format slot (Table 5.7). -/
def slotElem (v : Nat) : Nat := v % 16
def slotScaled (v : Nat) : Bool := v.testBit 4
def slotCrnd (v : Nat) : Nat := bitsOf v 6 5
def slotSat (v : Nat) : Bool := v.testBit 7
def slotSparse (v : Nat) : Nat := bitsOf v 9 8

/-- The live fibres among those that compute. -/
def Group.liveOf (g : Group) (outs : List (Nat × LaneOut)) : List Nat :=
  (outs.filter fun o => (tfind g.fibres o.1).elim false (·.live)).map (·.1)

/-- CVTX (R157): a slot that names no element format of a conversion is a Matrix Format fault of the bundle's live
fibres whose guard is true. -/
def execCvtx (f : CFmt) (s : State) : Host.Outcome State Fault Refusal :=
  let n := f.md.toNat % 8
  let slotOf (g : Group) : Nat := g.fslots.getD n 0
  let v := ((s.cur.bind fun c => s.group? c.gid).map slotOf).getD 0
  withLanes (.cvtx f) s
    (fun x => let r := elemExpand (slotElem v) (slotScaled v) x.bb x.a; { val := some r.1, flags := r.2 })
    fun s c g h ex outs =>
      if 5 < slotElem v ∧ !(g.liveOf outs).isEmpty then s.faultAt c cause.matrixFormat (g.liveOf outs) 0 0
      else
        let outs := if 5 < slotElem v then [] else outs
        match trapping g outs with
        | [] => s.retireLanes c g h ex outs
        | hit => fpTrap s c h hit outs

end Sys2Proof.Machine
end

