-- ==== Sys2Proof/Machine/Lanes.lean ====
section
/-! DEFINITION. Lane-exchange instructions and CVTMX (R156, R158 to R169), and the convergence rules that decide when
they execute (R26 to R29, R302). -/

namespace Sys2Proof.Machine

/-! ### Reductions (R164) -/

/-- Bits of a value of a RED type (Table 9.13), as an integer type code of Table 7.1. -/
def redTy (ty : Nat) : Nat :=
  match ty with
  | 0 => 2
  | 1 => 6
  | 2 => 3
  | 3 => 7
  | _ => 2

/-- Op of R164, with L as its first operand. -/
def redOp (op ty mode l h : Nat) : FRes :=
  if ty = 4 then
    match op with
    | 0 => fp32.add mode (fp32.decode (l % 2 ^ 32)) (fp32.decode (h % 2 ^ 32))
    | 1 => fp32.minMax false false (l % 2 ^ 32) (h % 2 ^ 32)
    | _ => fp32.minMax true false (l % 2 ^ 32) (h % 2 ^ 32)
  else
    let t := redTy ty
    let x := getT t l
    let y := getT t h
    (match op with
      | 0 => putT t (x + y)
      | 1 => putT t (min x y)
      | 2 => putT t (max x y)
      | 3 => natT t l &&& natT t h
      | 4 => natT t l ||| natT t h
      | _ => natT t l ^^^ natT t h, 0)

/-- Node(lo, size) of R164 over the values by lane, with the flags of its Ops; `d` is log2 of the size. -/
def redNode (op ty mode : Nat) (val : Nat → Option Nat) : Nat → Nat → Option FRes
  | 0, lo => (val lo).map fun v => (v, 0)
  | d + 1, lo =>
    match redNode op ty mode val d lo, redNode op ty mode val d (lo + 2 ^ d) with
    | some l, some h => let r := redOp op ty mode l.1 h.1; some (r.1, l.2 ||| h.2 ||| r.2)
    | some l, none => some l
    | none, h => h

/-- Table 9.14. -/
def scanIdentity (op ty : Nat) : Nat :=
  if ty = 4 then
    match op with
    | 0 => 0
    | 1 => fp32.inf false
    | _ => fp32.inf true
  else
    let t := redTy ty
    match op with
    | 1 => putT t (tyHi t)
    | 2 => putT t (tyLo t)
    | 3 => 2 ^ tyWidth t - 1
    | _ => 0

/-- The fold of R166 from the lowest lane upwards. -/
def scanFold (op ty : Nat) : List Nat → FRes
  | [] => (scanIdentity op ty, 0)
  | x :: t => t.foldl (fun a v => let r := redOp op ty 0 a.1 v; (r.1, a.2 ||| r.2)) (x, 0)

/-! ### What the fibres of an active set receive (R158) -/

/-- A fibre of an execution with its operands. -/
structure LaneArg where
  fib : Nat
  lane : Nat
  ops : List Nat
  deriving DecidableEq, Repr

def LaneArg.op (x : LaneArg) (n : Nat) : Nat := x.ops.getD n 0

/-- The argument at a lane. -/
def atLane (as : List LaneArg) (j : Nat) : Option LaneArg := as.find? fun x => x.lane == j

/-- A mask of lanes (R158). -/
def laneMask (as : List LaneArg) : Nat := as.foldl (fun m x => m ||| 2 ^ x.lane) 0

/-- SHFL (R162): the lane read, if there is one. -/
def shflLane (mode : Nat) (wrap : Bool) (w i k : Nat) : Option Nat :=
  match mode with
  | 3 => some (k % w)
  | 2 => if wrap then some ((i + w - k % w) % w) else if k ≤ i then some (i - k) else none
  | 1 => if wrap then some ((i + k) % w) else if i + k < w then some (i + k) else none
  | _ => if i ^^^ k < w then some (i ^^^ k) else none

def shflOut (md w : Nat) (as : List LaneArg) (x : LaneArg) : LaneOut :=
  match (shflLane (bitsOf md 1 0) (md.testBit 3) w x.lane (x.op 1 % 2 ^ 32)).bind (atLane as) with
  | some y => { val := some (y.op 0), p2 := some true }
  | none => { val := some (if md.testBit 4 then x.op 2 else x.op 0), p2 := some false }

def voteOut (md : Nat) (as : List LaneArg) : LaneOut :=
  let p := as.filter fun x => x.op 0 == 1
  match bitsOf md 1 0 with
  | 0 => { p := some (p.length == as.length) }
  | 1 => { p := some (!p.isEmpty) }
  | 2 => { val := some (laneMask p) }
  | _ => { p := some (p.length % 2 == 1) }

def redOut (md w : Nat) (as : List LaneArg) : LaneOut :=
  match redNode (bitsOf md 2 0) (bitsOf md 5 3) (bitsOf md 7 6) (fun l => (atLane as l).map (·.op 0)) (Nat.log2 w) 0 with
  | some r => { val := some r.1, flags := r.2 }
  | none => {}

def scanOut (md : Nat) (as : List LaneArg) (x : LaneArg) : LaneOut :=
  let below := as.filter fun y => if md.testBit 6 then decide (y.lane < x.lane) else decide (y.lane ≤ x.lane)
  let r := scanFold (bitsOf md 2 0) (bitsOf md 5 3) (below.map (·.op 0))
  { val := some r.1, flags := r.2 }

def matchOut (as : List LaneArg) (x : LaneArg) : LaneOut :=
  { val := some (laneMask (as.filter fun y => y.op 0 == x.op 0)), p2 := some (as.all fun y => y.op 0 == x.op 0) }

def electOut (last : Bool) (as : List LaneArg) (x : LaneArg) : LaneOut :=
  let ls := as.map (·.lane)
  let e := if last then ls.foldl max 0 else ls.foldl min 31
  { p := some (x.lane == e), val2 := some e }

/-- CVTMX (R156): the element code and the block scale of one tile. -/
def cvtmxOut (slot : Nat) (a : LaneArg → Nat) (as : List LaneArg) (x : LaneArg) : LaneOut :=
  let e := slotElem slot
  let z := if slotScaled slot then blockScale e (as.map a) else 0x7F
  if z = 0xFF then { val := some 0, val2 := some z, flags := if (fp32.decode (a x)).isSnan then flag.nv else 0 }
  else
    let r := elemEncode e ((z : Int) - 127) (slotCrnd slot) (slotSat slot) (a x)
    { val := some r.1, val2 := some z, flags := r.2 }

/-- The results of a rod instruction for the fibres of an active set. -/
def rodOuts (g : Group) (i : Instr) (w : Nat) (as : List LaneArg) : List (Nat × LaneOut) :=
  let each (o : LaneArg → LaneOut) : List (Nat × LaneOut) := as.map fun x => (x.fib, o x)
  match i with
  | .shfl f => each (shflOut f.md.toNat w as)
  | .vote f => each fun _ => voteOut f.md.toNat as
  | .red f => each fun _ => redOut f.md.toNat w as
  | .scan f => each (scanOut f.md.toNat as)
  | .matchI _ => each (matchOut as)
  | .elect f => each (electOut (f.md.toNat.testBit 0) as)
  | .cvtmx f => each (cvtmxOut (g.fslots.getD (f.md.toNat % 8) 0) (fun x => x.op 0 % 2 ^ 32) as)
  | _ => []

/-- The partner position that a quad exchange reads (R160, R161). -/
def quadFrom (i : Instr) (pos : Nat) : Nat :=
  match i with
  | .qswp f => pos ^^^ bitsOf f.md.toNat 1 0
  | .qbc f => bitsOf f.md.toNat 1 0
  | _ => pos

/-! ### Executions (R28, R29) -/

/-- The instruction and operands of a fibre that waits at a convergence point. -/
def Fibre.waiting (b : Fibre) : Option (Instr × List Nat × Option (Nat × Nat × Nat)) :=
  match b.park with
  | .converge i ops l => some (i, ops, l)
  | _ => none

def Fibre.waitsRod (b : Fibre) : Bool := b.waiting.elim false fun x => x.1.isRod
def Fibre.waitsQuad (b : Fibre) : Bool := b.waiting.elim false fun x => x.1.isQuad

/-- Live fibres in [lo, lo + n). -/
def Group.liveIn (g : Group) (lo n : Nat) : List (Nat × Fibre) :=
  g.fibres.filter fun p => p.2.live && decide (lo ≤ p.1) && decide (p.1 < lo + n)

/-- An execution that may take place: its instruction, PC and fibres. -/
structure RodExec where
  i : Instr
  pc : Nat
  fibs : List Nat
  deriving DecidableEq, Repr

/-- The choice of R28 among the live fibres of a set when all of them satisfy `ready`. -/
def pickExec (ready : Fibre → Bool) (l : List (Nat × Fibre)) : Option RodExec :=
  match l with
  | [] => none
  | p :: _ =>
    if l.all fun q => ready q.2 then
      p.2.waiting.map fun x =>
        ⟨x.1, p.2.pc.toNat, (l.filter fun q => q.2.pc == p.2.pc).map (·.1)⟩
    else none

def Instr.isTile : Instr → Bool
  | .tile _ => true
  | _ => false

/-- An execution that waits for its queue reads, with the fibres it keeps (R302). -/
def Group.kept (g : Group) : List RodExec :=
  g.pendExec.filterMap fun p => ((p.2.head?.bind (tfind g.fibres)).bind Fibre.waiting).map fun x => ⟨x.1, p.1, p.2⟩

/-- The choice of R28 or R29 in [lo, lo + n), unless an execution there waits for its queue reads. -/
def Group.pickIn (g : Group) (ready : Fibre → Bool) (lo n : Nat) : Option RodExec :=
  if g.pendExec.any fun p => p.2.any fun f => decide (lo ≤ f) && decide (f < lo + n) then none
  else pickExec ready (g.liveIn lo n)

/-- The executions that a group's fibres allow: those that wait for their queue reads, then for each rod TILE over the
whole rod (R27), each tile, each quad. Where one arrival allows both TILE and another rod instruction of the same rod,
TILE executes first and the other one at the new width (DESIGN CHOICE, log 35: the rules give no order). -/
def Group.execs (g : Group) : List RodExec :=
  let rods := (List.range 32).filter fun r => !(g.liveIn (32 * r) 32).isEmpty
  let ofRod (r : Nat) : List RodExec :=
    let w := tget 32 g.tilew r
    let whole := (g.pickIn Fibre.waitsRod (32 * r) 32).toList.filter fun e => Instr.isTile e.i
    let tiles := ((List.range (32 / w)).filterMap fun t => g.pickIn Fibre.waitsRod (32 * r + t * w) w).filter
      fun e => !Instr.isTile e.i
    let quads := (List.range 8).filterMap fun q => g.pickIn Fibre.waitsQuad (32 * r + 4 * q) 4
    whole ++ tiles ++ quads
  g.kept ++ rods.flatMap ofRod

/-- Fill the operands that queue reads supply (R272, R302). -/
def fillPops (srcs : List (Src × SrcUse)) (ops : List Nat) (pops : List Word) : List Nat :=
  match srcs, ops with
  | (x, .val _ _) :: ss, o :: os =>
    match waitQueueOf x with
    | some _ => (pops.headD 0).toNat :: fillPops ss os pops.tail
    | none => o :: fillPops ss os pops
  | _ :: ss, o :: os => o :: fillPops ss os pops
  | _, os => os

def Group.laneArg (g : Group) (h : Shape) (f : Nat) : Option LaneArg :=
  (tfind g.fibres f).bind fun b => b.waiting.map fun x =>
    ⟨f, f % 32 % tget 32 g.tilew (f / 32), fillPops h.srcs x.2.1 (b.popped.words.map (·.2))⟩

/-- Rod instructions whose source is an FP32 value: a special constant is a number there (R56). -/
def Instr.floatRod : Instr → Bool
  | .red f | .scan f => bitsOf f.md.toNat 5 3 == 4
  | .cvtmx _ => true
  | _ => false

/-- The operands of a fibre that arrives; queue operands are filled when the execution takes place. -/
def arriveOps (s : State) (c : Cur) (g : Group) (i : Instr) (h : Shape) (f : Nat) (b : Fibre) :
    Except Blocked (List Nat) :=
  (readAll s c g f b h.srcs []).map fun l => l.map fun v =>
    match v with
    | .const n => if Instr.floatRod i then (fp32.ofInt 0 n).1 else n
    | .bits x => x

/-- What a helper supplies to a quad exchange (R26, R160): the operand it arrived with, or its own register where no lead
brought it to the instruction. -/
def State.helperSource (s : State) (c : Cur) (g : Group) (h : Shape) (i : Instr) (f : Nat) : Nat :=
  match tfind g.fibres f with
  | none => 0
  | some b =>
    match b.waiting with
    | some _ => ((g.laneArg h f).map (·.op 0)).getD 0
    | none =>
      match arriveOps s c g i h f b with
      | .ok o => o.headD 0
      | .error _ => 0

/-- The reads that a fibre of an execution has still to make: every one is made once, in ascending FIBID. -/
def State.rodPops (s : State) (k gid : Nat) (qs : List Nat) : List Nat → State × Except Nat Bool
  | [] => (s, .ok true)
  | f :: t =>
    let b? := (s.group? gid).bind fun g => tfind g.fibres f
    let left := b?.elim [] fun b => b.popped.unserved qs
    if left.isEmpty then s.rodPops k gid qs t
    else if (s.core k).reads gid f then
      match s.rodPops k gid qs t with
      | (s, .ok _) => (s, .ok false)
      | r => r
    else
      match s.popFibre k gid f left with
      | (s, .fault) => (s, .error f)
      | (s, .wait _) =>
        match s.rodPops k gid qs t with
        | (s, .ok _) => (s, .ok false)
        | r => r
      | (s, .value _) => s.rodPops k gid qs t

/-- Fibres that pass a convergence point are not parked any more. -/
def Group.unpark (g : Group) (fibs : List Nat) : Group :=
  { g with fibres := fibs.foldl (fun t f => tmod t f fun b => { b with park := .none, popped := QReads.none }) g.fibres }

/-- The quads of a set of fibres. -/
def quadsOf (fibs : List Nat) : List Nat := fibs.foldl (fun t f => fibInsert (f / 4) t) []

/-- The captures of fibres that leave a convergence point are awaited no more (R66). -/
def State.freeCaptures (s : State) (k gid : Nat) (g : Group) (fibs : List Nat) : State :=
  fibs.foldl (fun s f => s.freeLatch k gid f (((tfind g.fibres f).bind Fibre.waiting).bind fun x => x.2.2)) s

/-- Write the outcome of an execution: registers, flags, latches, and the PC of every fibre that passes. -/
def State.rodRetire (s : State) (k gid : Nat) (g : Group) (h : Shape) (e : RodExec) (helpers : List Nat)
    (outs : List (Nat × LaneOut)) : State :=
  -- a helper that its lead has left takes part with the lead's capture
  let own (f : Nat) := (tfind g.fibres f).bind Fibre.waiting
  let latchOf (f : Nat) := ((own f).or (own (e.fibs.headD 0))).bind fun x => x.2.2
  let g' := ((g.writeOuts h outs).moveTo e.fibs fun _ => seqPc e.pc).unpark (e.fibs ++ helpers)
  let s := s.setGroup gid (g'.alignHelpers (quadsOf e.fibs))
  let s := outs.foldl (fun s o =>
    match o.2.val with
    | some v => s.lateLatch k gid o.1 (latchOf o.1) v
    | none => s) s
  s.freeCaptures k gid g (e.fibs ++ helpers)

/-- An execution that traps on an enabled flag (R165): its fibres leave it without an outcome. -/
def State.rodTrap (s : State) (c : Cur) (g : Group) (e : RodExec) (hit : List Nat) (outs : List (Nat × LaneOut)) : State :=
  let s := (s.takeTrap c cause.fpException e.fibs hit (· % 32) (flagsOf outs)).modGroup c.gid fun g =>
    (g.unpark e.fibs).alignHelpers (quadsOf e.fibs)
  s.freeCaptures c.k c.gid g e.fibs

/-- One execution (R28, R29, R158): the results go to the active set, a fault or an enabled flag stops it whole. -/
def State.runExec (s : State) (gid : Nat) (e : RodExec) : State :=
  match s.group? gid, e.i.shape with
  | some g, some h =>
    let live := e.fibs.filter fun f => (tfind g.fibres f).elim false fun b => b.guard h.ctl
    let c : Cur := ⟨g.k, (e.fibs.headD 0) / 32 % 4, gid, e.pc, [], e.fibs, 0⟩
    let rodMask (fs : List Nat) := fs.foldl (fun m f => m ||| 2 ^ (f % 32)) 0
    let done := { g with pendExec := g.pendExec.filter fun p => p.2 != e.fibs }
    if e.i.isQuad then
      let q := e.fibs.headD 0 / 4
      let all := [0, 1, 2, 3].map (4 * q + ·)
      let helpers := all.filter fun f => (tfind g.fibres f).elim false fun b => !b.live
      let val (pos : Nat) : Nat :=
        let f := 4 * q + pos
        if e.fibs.contains f then ((g.laneArg h f).map (·.op 0)).getD 0
        else if helpers.contains f then s.helperSource c g h e.i f
        else 0
      let writers := (e.fibs ++ helpers).filter fun f => (tfind g.fibres f).elim false fun b => b.guard h.ctl
      s.rodRetire g.k gid done h e helpers (writers.map fun f => (f, { val := some (val (quadFrom e.i (f % 4))) }))
    else
      let as := live.filterMap (g.laneArg h)
      match e.i with
      | .tile f =>
        let g' := if live.isEmpty then done
          else { done with tilew := tset done.tilew (e.fibs.headD 0 / 32) (2 ^ (f.md.toNat % 8)) }
        s.rodRetire g.k gid g' h e [] []
      | .cvtmx f =>
        if 5 < slotElem (g.fslots.getD (f.md.toNat % 8) 0) ∧ !live.isEmpty then
          s.takeFault gid cause.matrixFormat e.pc (rodMask live) (live.headD 0) 0 0
        else
          let outs := rodOuts g e.i (tget 32 g.tilew (e.fibs.headD 0 / 32)) as
          match trapping g outs with
          | [] => s.rodRetire g.k gid done h e [] outs
          | hit =>
            let s := (s.setGroup gid done).unpop c (waitQueuesOf h) live
            s.rodTrap c g e hit outs
      | i =>
        let outs := rodOuts g i (tget 32 g.tilew (e.fibs.headD 0 / 32)) as
        match trapping g outs with
        | [] => s.rodRetire g.k gid done h e [] outs
        | hit =>
          let s := (s.setGroup gid done).unpop c (waitQueuesOf h) live
          s.rodTrap c g e hit outs
  | _, _ => s

/-- Begin or go on with an execution: its queue reads first (R302). Answers whether it took place. -/
def State.tryExec (s : State) (gid : Nat) (e : RodExec) : State × Bool :=
  match s.group? gid, e.i.shape with
  | some g, some h =>
    let qs := waitQueuesOf h
    if qs.isEmpty then (s.runExec gid e, true)
    else
      let live := e.fibs.filter fun f => (tfind g.fibres f).elim false fun b => b.live && b.guard h.ctl
      match s.rodPops g.k gid qs live with
      | (s, .error f) => (s.takeFault gid cause.matrixFormat e.pc (2 ^ (f % 32)) f 0 0, true)
      | (s, .ok true) => (s.runExec gid e, true)
      | (s, .ok false) =>
        (s.modGroup gid fun g =>
          if g.pendExec.any fun p => p.2 == e.fibs then g else { g with pendExec := g.pendExec ++ [(e.pc, e.fibs)] }, false)
  | _, _ => (s, false)

/-- The first of some executions that takes place. -/
def State.firstExec (s : State) (gid : Nat) : List RodExec → State × Bool
  | [] => (s, false)
  | e :: t =>
    match s.tryExec gid e with
    | (s, true) => (s, true)
    | (s, false) => s.firstExec gid t

/-- Every execution that the fibres of a group allow, one after another. -/
def State.convergeFuel (s : State) (gid : Nat) : Nat → State
  | 0 => s
  | n + 1 =>
    match s.group? gid with
    | none => s
    | some g =>
      if g.ended.isSome || g.halted then s
      else
        match s.firstExec gid g.execs with
        | (s, true) => s.convergeFuel gid n
        | (s, false) => s

/-- R28, R29: run what has converged. -/
def State.converge (s : State) (gid : Nat) : State :=
  s.convergeFuel gid (((s.group? gid).map fun g => g.fibres.length).getD 0 + 1)

/-! ### Arriving at a convergence point -/

/-- The fibres of the bundle reach a rod or quad exchange instruction and wait there (R27 to R29); whatever converges
executes at once. -/
def arrive (i : Instr) (s : State) : Host.Outcome State Fault Refusal :=
  match s.cur with
  | none => .fault .noIssue
  | some c =>
    match s.group? c.gid, i.shape with
    | some g, some h =>
      if pastWindow h g.wsize then .next (s.faultAt c cause.regRange c.en 0 0)
      else
        let ex := if i.isQuad then g.executing c else c.en
        let reads (b : Fibre) : Bool := i.isQuad || b.guard h.ctl
        let rs := ex.filterMap fun f => (tfind g.fibres f).map fun b =>
          (f, b.live, if reads b then arriveOps s c g i h f b else .ok [])
        let lost := rs.filterMap fun r => match r.2.2 with | .error _ => (if r.2.1 then some r.1 else none) | .ok _ => none
        if !lost.isEmpty then .next (s.faultAt c cause.latchLost lost 0 0)
        else
          let (s, l) := s.tagLatch c.k c.sl c.gid h
            (ex.filter fun f => (tfind g.fibres f).elim false fun b => b.guard h.ctl)
          let s := rs.foldl (fun s r =>
            s.park c.gid [r.1] (.converge i (match r.2.2 with | .ok o => o | .error _ => []) l)) s
          .next ((s.converge c.gid).settle c)
    | _, _ => .fault .noIssue

/-- QSWP (R160). -/
def execQswp (f : CFmt) (s : State) : Host.Outcome State Fault Refusal := arrive (.qswp f) s
/-- QBC (R161). -/
def execQbc (f : CFmt) (s : State) : Host.Outcome State Fault Refusal := arrive (.qbc f) s
/-- SHFL (R162). -/
def execShfl (f : CFmt) (s : State) : Host.Outcome State Fault Refusal := arrive (.shfl f) s
/-- VOTE (R163). -/
def execVote (f : CFmt) (s : State) : Host.Outcome State Fault Refusal := arrive (.vote f) s
/-- RED (R164, R165). -/
def execRed (f : CFmt) (s : State) : Host.Outcome State Fault Refusal := arrive (.red f) s
/-- SCAN (R166). -/
def execScan (f : CFmt) (s : State) : Host.Outcome State Fault Refusal := arrive (.scan f) s
/-- MATCH (R167). -/
def execMatchI (f : CFmt) (s : State) : Host.Outcome State Fault Refusal := arrive (.matchI f) s
/-- ELECT (R168). -/
def execElect (f : CFmt) (s : State) : Host.Outcome State Fault Refusal := arrive (.elect f) s
/-- TILE (R27, R169). -/
def execTile (f : CFmt) (s : State) : Host.Outcome State Fault Refusal := arrive (.tile f) s
/-- CVTMX (R156). -/
def execCvtmx (f : CFmt) (s : State) : Host.Outcome State Fault Refusal := arrive (.cvtmx f) s

end Sys2Proof.Machine
end

