-- ==== Sys2Proof/Machine/Control.lean ====
section
/-! DEFINITION. Predicates, special registers, transfers of control, birth, end and waiting of fibres (07, Table 7.3),
and the system instructions (19, Table 19.10). -/

namespace Sys2Proof.Machine

/-! ### Predicate logic (R128, R129) -/

/-- PLOP (R128). -/
def execPlop (f : CFmt) (s : State) : Host.Outcome State Fault Refusal :=
  laneStep (.plop f) s fun x =>
    let q := f.md.toNat.testBit (x.a + 2 * x.bb + 4 * x.c)
    { p := some q, p2 := some (!q) }

/-- P2V (R129). -/
def execP2v (f : CFmt) (s : State) : Host.Outcome State Fault Refusal :=
  laneStep (.p2v f) s fun x =>
    let w := x.b.predWord
    let m := x.bb % 2 ^ 32
    outVal (if f.md.toNat.testBit 0 then (complIf true 32 m &&& x.a) ||| (w &&& m) else w)

/-- V2P (R129). -/
def execV2p (f : CFmt) (s : State) : Host.Outcome State Fault Refusal :=
  laneStep (.v2p f) s fun x => { pw := some (x.bb, x.a) }

/-! ### Special registers (R130, R306) -/

/-- KSTATEi (Table 1.5). -/
def KReg.word (k : KReg) : Nat := if k.armed then 2 ^ 31 + (k.expect % 2 ^ 11) * 2 ^ 16 + k.signed % 2 ^ 11 else 0

/-- CSTAT (Table 19.3). -/
def Ctx.cstat (c : Ctx) : Nat := c.parOnly.toNat * 2 ^ 9 + c.steward.toNat * 2 ^ 8 + c.sticky.toNat

/-- The value that MFS gives a fibre (Tables 7.4, 19.2). -/
def State.specialReg (s : State) (g : Group) (f : Nat) (b : Fibre) (n : Nat) : Nat :=
  match n with
  | 0x00 => f
  | 0x01 => f / 4
  | 0x02 => f / 32
  | 0x03 => tget 32 g.tilew (f / 32)
  | 0x04 => g.gx
  | 0x05 => g.gy
  | 0x06 => g.gz
  | 0x07 => g.clupos
  | 0x10 => b.fpst.toNat
  | 0x11 => g.mxst.toNat
  | 0x12 => (s.die (g.k / 16)).time.ltime % 2 ^ 32
  | 0x40 => (s.ctx g.vf).cstat
  | 0x41 => b.trapCause.toNat % 2 ^ 8
  | 0x42 => b.trapPc.toNat
  | 0x43 => b.trapInfo.toNat
  | 0x44 => b.trapMask.toNat
  | 0x45 => g.vdie
  | 0x46 => g.vf
  | 0x80 => (s.core g.k).mstcfg.toNat
  | _ => (tget KReg.idle g.kregs (n - 8)).word

/-- MFS (R130): a steward-only register in user mode is a Privilege fault (R306). -/
def execMfs (f : CFmt) (s : State) : Host.Outcome State Fault Refusal :=
  let n := f.md.toNat
  withLanes (.mfs f) s
    (fun x =>
      match s.cur.bind fun c => s.group? c.gid with
      | some g => outVal (s.specialReg g x.fib x.b n)
      | none => {})
    fun s c g h ex outs =>
      let who := g.liveOf outs
      if n = 0x80 ∧ !(s.ctx g.vf).steward ∧ !who.isEmpty then s.faultAt c cause.privilege who 0 0
      else s.retireLanes c g h ex (if n = 0x80 ∧ !(s.ctx g.vf).steward then [] else outs)

/-- What MTS writes for a set of fibres in ascending order, each with its value (R318). -/
def State.specialWrite (s : State) (gid : Nat) (g : Group) (n : Nat) (vals : List (Nat × Nat)) : State :=
  let low := BitVec.ofNat 32 ((vals.head?.map (·.2)).getD 0)
  match n with
  | 0x10 => vals.foldl (fun s v => s.modFibre gid v.1 fun b => { b with fpst := fpstWrite b.fpst (BitVec.ofNat 32 v.2) }) s
  | 0x11 => s.modGroup gid fun g => { g with mxst := mxstWrite g.mxst low }
  | 0x40 =>
    let clear := vals.foldl (fun m v => m ||| v.2) 0
    s.modCtx g.vf fun x => { x with sticky := x.sticky &&& ~~~(BitVec.ofNat 4 clear) }
  | 0x80 => s.modCore g.k fun co => { co with mstcfg := low &&& 0x0001FFFF }
  | _ => s

/-- MTS (R318): a Privilege fault in user mode. -/
def execMts (f : CFmt) (s : State) : Host.Outcome State Fault Refusal :=
  withLanes (.mts f) s (fun x => outVal x.a) fun s c g h ex outs =>
    let who := g.liveOf outs
    if !(s.ctx g.vf).steward ∧ !who.isEmpty then s.faultAt c cause.privilege who 0 0
    else
      let vals := (outs.filter fun o => who.contains o.1).filterMap fun o => o.2.val.map (o.1, ·)
      let s := s.retireLanes c g h ex (outs.map fun o => (o.1, { o.2 with val := none }))
      if vals.isEmpty then s else s.specialWrite c.gid g f.md.toNat vals

/-- TIME (R138). -/
def execTime (f : CFmt) (s : State) : Host.Outcome State Fault Refusal :=
  laneStep (.time f) s fun _ =>
    match s.cur with
    | some c =>
      let t := (s.die (c.k / 16)).time
      outVal (if f.md.toNat.testBit 0 then t.refOf t.ltime else t.ltime % 2 ^ 64)
    | none => {}

/-! ### Transfers (R132, R133) -/

/-- R132: the fibres whose guard is true go to their targets. `link` says that DST receives the return address. -/
def transfer (s : State) (c : Cur) (g : Group) (h : Shape) (ex : List Nat) (outs : List (Nat × LaneOut)) (uni link : Bool) :
    State :=
  let takes := g.liveOf outs
  let next (f : Nat) : Nat :=
    match outs.find? fun o => o.1 == f with
    | some o => if takes.contains f then o.2.val.getD 0 else seqPc c.pc
    | none => seqPc c.pc
  let same := c.en.all fun f => next f == next (c.en.headD 0)
  if uni && !same then
    ((s.unpop c (waitQueuesOf h) c.en).takeTrap c cause.divergence c.en takes c.lane
      fun f => (takes.contains f).toNat).finish c
  else
    match takes.filter fun f => !s.validTarget g (next f) with
    | [] =>
      let outs := outs.map fun o => (o.1, { o.2 with val := if link then some (seqPc c.pc) else none })
      s.retireTo c g h ex outs next
    | bad => s.faultAt c cause.branchTarget bad 0 0

/-- A target as a PC. One below the code section is no slot, as is every number from 2^32 on, and 2^32 stands for it. -/
def slotPc (t : Int) : Nat := if t < 0 then 2 ^ 32 else t.toNat

/-- The target of a branch-format instruction at the issuing bundle's PC (R61). -/
def targetOf (s : State) (f : BFmt) : Nat := (s.cur.map fun c => slotPc (f.target c.pc)).getD 0

/-- BRA (R132). -/
def execBra (f : BFmt) (s : State) : Host.Outcome State Fault Refusal :=
  withLanes (.bra f) s (fun _ => outVal (targetOf s f)) fun s c g h ex outs => transfer s c g h ex outs f.uni false

/-- BRX (R132). -/
def execBrx (f : CFmt) (s : State) : Host.Outcome State Fault Refusal :=
  withLanes (.brx f) s (fun x => outVal (x.a % 2 ^ 32)) fun s c g h ex outs =>
    transfer s c g h ex outs (f.md.toNat.testBit 0) false

/-- CALL (R132). -/
def execCall (f : BFmt) (s : State) : Host.Outcome State Fault Refusal :=
  withLanes (.call f) s (fun _ => outVal (targetOf s f)) fun s c g h ex outs => transfer s c g h ex outs f.uni true

/-- RET (R132): the prefetch of the return line has no visible effect. -/
def execRet (f : CFmt) (s : State) : Host.Outcome State Fault Refusal :=
  withLanes (.ret f) s (fun x => outVal (x.a % 2 ^ 32)) fun s c g h ex outs =>
    transfer s c g h ex outs (f.md.toNat.testBit 0) false

/-! ### Birth (R19 to R21, R134, R135) -/

/-- The pool that a quad slot's windows come from (R19). -/
def poolOf (slot : Nat) : Nat := slot / 8 % 4

/-- Windows that N gives pool q (R19). -/
def poolSize (n q : Nat) : Nat :=
  ((List.range 32).filter fun r => r % 4 == q).foldl (fun a r => a + min 32 (n - 32 * r)) 0

/-- A quad slot is occupied while its positions exist (R22: until its windows have returned). -/
def Group.occupied (g : Group) (slot : Nat) : Bool := g.fibres.any fun p => p.1 / 4 == slot

/-- The lowest window of a pool that no fibre of the group holds, from a first one. -/
def Group.freeWindow (g : Group) (slot : Nat) : Nat → Nat → Nat
  | 0, j => j
  | n + 1, j =>
    if g.fibres.any fun p => poolOf (p.1 / 4) == poolOf slot && p.2.wbase == j * g.wsize then g.freeWindow slot n (j + 1)
    else j

/-- A new fibre (R19, R21): window zero but for what FORK puts there. For R31 it counts as having waited since it was
created (DESIGN CHOICE, log 34: the rule does not say how long a fibre that has never issued has waited). -/
def Fibre.fresh (live : Bool) (pc wbase : Nat) (fpst : Word) (regs : Tab Word) (cycle : Nat) : Fibre :=
  { live := live, pc := BitVec.ofNat 32 pc, preds := 0, wbase := wbase, regs := regs, fpst := fpst, inTrap := false,
    trapPc := 0, trapCause := 0, trapInfo := 0, trapMask := 0, park := .none, card0 := [], card1 := [], card2 := [],
    cmd := [], pendRegs := [], holdAll := [], holdStore := [], holdRange := [], lastIssue := cycle, lane := 0, stallUntil := 0,
    popped := QReads.none, since := none }

/-- Fill one position of a slot with a fibre, taking a window of its pool. -/
def Group.place (g : Group) (fib : Nat) (live : Bool) (pc : Nat) (fpst : Word) (regs : Tab Word) (cycle : Nat) : Group :=
  let slot := fib / 4
  let w := g.freeWindow slot g.fibres.length 0 * g.wsize
  { g with
    fibres := tset g.fibres fib (Fibre.fresh live pc w fpst regs cycle)
    pools := g.pools.set (poolOf slot) (g.pools.getD (poolOf slot) 0 - 1) }

/-- The n lowest free slots below C/4 (R20). -/
def Group.freeSlots (g : Group) (n : Nat) : List Nat :=
  (((List.range (g.cap / 4)).filter fun sl => !g.occupied sl).take n)

/-- CanPlace(n) of R134. -/
def Group.canPlace (g : Group) (n : Nat) : Bool :=
  let sl := g.freeSlots n
  sl.length == n && (List.range 4).all fun q => decide (4 * (sl.filter fun x => poolOf x == q).length ≤ g.pools.getD q 0)

/-- Create of R134: the fibres of the n lowest free slots, numbered for R21. -/
def Group.forkQuads (g : Group) (n target arg : Nat) (fpst : Word) (cycle : Nat) (after : List Nat) : Group :=
  let fibs := (g.freeSlots n).flatMap fun sl => [4 * sl, 4 * sl + 1, 4 * sl + 2, 4 * sl + 3]
  (fibs.zipIdx).foldl (fun g p =>
    let g := g.place p.1 true target fpst (tput 0 (tput 0 [] 0 (BitVec.ofNat 32 arg)) 1 (BitVec.ofNat 32 p.2)) cycle
    { g with fibres := tmod g.fibres p.1 fun b => { b with holdAll := after } }) g

/-- The exception enables of a group's launch (R85). -/
def State.launchEnables (s : State) (g : Group) : Word := fpstInit ((tfind s.grids g.grid).elim 0 (·.fpen))

/-- FORK (R134, R135). An invalid target is a fault of the fibres whose guard is true; with none of them nothing is raised
and every destination predicate becomes false (DESIGN CHOICE, log 36: R134 stops with a fault of no fibre there). -/
def execFork (f : BFmt) (s : State) : Host.Outcome State Fault Refusal :=
  withLanes (.fork f) s (fun x => outVal (x.a % 2 ^ 32)) fun s c g h ex outs =>
    let t := slotPc (f.target c.pc)
    let who := g.liveOf outs
    if !who.isEmpty ∧ !s.validTarget g t then s.faultAt c cause.branchTarget who 0 0
    else
      let n := f.md.toNat % 8 + 1
      let fpst := s.launchEnables g
      let step (a : Group × List (Nat × Bool)) (x : Nat) : Group × List (Nat × Bool) :=
        let arg := ((outs.find? fun o => o.1 == x).bind fun o => o.2.val).getD 0
        if who.contains x && a.1.canPlace n then
          (a.1.forkQuads n t arg fpst (s.cycleOf c.k) (s.earlier c.gid x .grp), a.2 ++ [(x, true)])
        else (a.1, a.2 ++ [(x, false)])
      let r := ex.foldl step (g, [])
      s.retireLanes c r.1 h ex (r.2.map fun p => (p.1, outPred p.2))

/-! ### End and waiting (R22, R23, R136, R137) -/

/-- R22: live fibres retire at the bundle's PC. -/
def Group.retireFibres (g : Group) (fibs : List Nat) : Group :=
  { g with fibres := fibs.foldl (fun t f => tmod t f fun b =>
      { b with live := false, card0 := [], card1 := [], card2 := [], cmd := [], park := .none, popped := QReads.none }) g.fibres }

/-- RETIRE (R136): leaving the convergence conditions may let an execution take place. -/
def execRetire (f : CFmt) (s : State) : Host.Outcome State Fault Refusal :=
  withLanes (.retire f) s (fun _ => {}) fun s c g h ex outs =>
    let who := g.liveOf outs
    let rest := ex.filter fun x => !who.contains x
    let g' := g.retireFibres who
    let g' := if g'.fibres.any fun p => p.2.live then g'
      else { g' with lastRetire := some (c.pc, maskOf c.quads who, who.headD 0) }
    (s.retireTo c g' h rest [] fun _ => seqPc c.pc).converge c.gid

/-- YIELD (R137, Table 1.4). -/
def execYieldI (f : CFmt) (s : State) : Host.Outcome State Fault Refusal :=
  withLanes (.yieldI f) s (fun _ => {}) fun s c g h ex outs =>
    let s := s.setGroup c.gid ((g.writeOuts h outs).advance ex c.pc)
    (s.park c.gid (g.liveOf outs) .yielded).finish c

/-- NAP (R137): a count of zero parks nothing. -/
def execNap (f : CFmt) (s : State) : Host.Outcome State Fault Refusal :=
  withLanes (.nap f) s (fun x => outVal (min (x.a % 2 ^ 32) 1048576)) fun s c g h ex outs =>
    let who := (g.liveOf outs).filter fun x => ((outs.find? fun o => o.1 == x).bind fun o => o.2.val).getD 0 != 0
    let plain := outs.map fun o => (o.1, { o.2 with val := none })
    let s := s.setGroup c.gid ((g.writeOuts h plain).advance ex c.pc)
    let s := who.foldl (fun s x =>
      let n := ((outs.find? fun o => o.1 == x).bind fun o => o.2.val).getD 0
      s.park c.gid [x] (.nap (s.cycleOf c.k + n))) s
    s.finish c

/-- NOP (R137). -/
def execNop (f : CFmt) (s : State) : Host.Outcome State Fault Refusal := laneStep (.nop f) s fun _ => {}

/-! ### System instructions (R317, R318) -/

/-- A trap that the fibres whose guard is true enter, with the cause's low bits; no other fibre of the bundle moves
(R315). With none of them, the bundle passes. -/
def softTrap (i : Instr) (s : State) (cs low : Nat) : Host.Outcome State Fault Refusal :=
  withLanes i s (fun _ => {}) fun s c g h ex outs =>
    match g.liveOf outs with
    | [] => s.retireLanes c g h ex outs
    | who => (s.takeTrap c cs who who c.lane fun _ => low).finish c

/-- TRAP n (R318). -/
def execTrap (f : CFmt) (s : State) : Host.Outcome State Fault Refusal := softTrap (.trap f) s cause.softTrap f.md.toNat
/-- BPT (R318). -/
def execBpt (f : CFmt) (s : State) : Host.Outcome State Fault Refusal := softTrap (.bpt f) s cause.breakpoint 0

/-- TRET (R318): a fibre that is not in-trap raises a Trap State fault. -/
def execTret (f : CFmt) (s : State) : Host.Outcome State Fault Refusal :=
  withLanes (.tret f) s (fun _ => {}) fun s c g _ ex outs =>
    let who := g.liveOf outs
    match who.filter fun x => (tfind g.fibres x).elim true fun b => !b.inTrap with
    | [] =>
      let g := g.advance (ex.filter fun x => !who.contains x) c.pc
      let g := { g with fibres := who.foldl (fun t x => tmod t x (·.trapReturn (f.md.toNat.testBit 0))) g.fibres }
      (s.setGroup c.gid g).finish c
    | bad => s.faultAt c cause.trapState bad 0 0

/-- HALTG (R318). -/
def execHaltg (f : CFmt) (s : State) : Host.Outcome State Fault Refusal :=
  withLanes (.haltg f) s (fun x => outVal (x.a % 2 ^ 32)) fun s c g h ex outs =>
    match (outs.filter fun o => (g.liveOf outs).contains o.1) with
    | [] => s.retireLanes c g h ex (outs.map fun o => (o.1, { o.2 with val := none }))
    | o :: t => s.faultAt c cause.softHalt (o.1 :: t.map (·.1)) (o.2.val.getD 0) 0

/-- The value that QSTAT gives (R318, R339). -/
def State.queueStat (s : State) (k : Nat) (b : Fibre) (q : Nat) : Nat :=
  let co := s.core k
  match q with
  | 0 => b.card0.length
  | 1 => b.card1.length
  | 2 => b.card2.length
  | 8 => min co.cmds.length 255 + 256 * min co.statuses.length 255
  | _ => (tget ResPort.empty co.ports (q - 4)).fifo.length

/-- QSTAT (R318). -/
def execQstat (f : CFmt) (s : State) : Host.Outcome State Fault Refusal :=
  laneStep (.qstat f) s fun x =>
    match s.cur with
    | some c => outVal (s.queueStat c.k x.b (f.md.toNat % 16))
    | none => {}

end Sys2Proof.Machine
end

