-- ==== Sys2Proof/Machine/Move.lean ====
section
/-! DEFINITION. MOV and MOVI with their queue pushes (R124, R125, R271 to R273, R339), and buffer-pointer arithmetic
(R126, R127). -/

namespace Sys2Proof.Machine

/-! ### Queue pushes -/

/-- The card buffer of a queue (R273). -/
def Fibre.card (b : Fibre) (q : Nat) : List Byte :=
  match q with
  | 0 => b.card0
  | 1 => b.card1
  | _ => b.card2

def Fibre.setCard (b : Fibre) (q : Nat) (c : List Byte) : Fibre :=
  match q with
  | 0 => { b with card0 := c }
  | 1 => { b with card1 := c }
  | _ => { b with card2 := c }

/-- An append that would pass 256 bytes (R275). -/
def Group.cardOverflows (g : Group) (q n : Nat) (fibs : List Nat) : List Nat :=
  fibs.filter fun f => (tfind g.fibres f).elim false fun b => decide (256 < (b.card q).length + n)

/-- One fibre appends n bytes of a value to a card buffer. -/
def State.appendCard (s : State) (gid f q n v : Nat) : State :=
  s.modFibre gid f fun b => b.setCard q (b.card q ++ leBytes n v)

/-- R339: a fibre collects words of a security command; the fourth submits it. -/
def State.pushCommand (s : State) (c : Cur) (f : Nat) (ws : List DWord) : State :=
  ws.foldl (fun s w =>
    match s.group? c.gid with
    | none => s
    | some g =>
      let have_ := ((tfind g.fibres f).elim [] (·.cmd)) ++ [w]
      if have_.length < 4 then s.modFibre c.gid f fun b => { b with cmd := have_ }
      else
        let s := s.modFibre c.gid f fun b => { b with cmd := [] }
        s.modCore c.k fun co => { co with cmds := co.cmds ++ [BitVec.ofNat 64 g.vf :: have_] }) s

/-- The pushes of a bundle, in ascending FIBID (R274, R339): values of n bytes. A helper pushes nothing. -/
def State.pushAll (s : State) (c : Cur) (g : Group) (q n : Nat) (vals : List (Nat × Nat)) : State × List Nat :=
  if q = 8 then
    let words (v : Nat) : List DWord := if n = 16 then [BitVec.ofNat 64 v, BitVec.ofNat 64 (v / 2 ^ 64)] else [BitVec.ofNat 64 v]
    (vals.foldl (fun s p => s.pushCommand c p.1 (words p.2)) s, [])
  else
    match g.cardOverflows q n (vals.map (·.1)) with
    | [] => (vals.foldl (fun s p => s.appendCard c.gid p.1 q n p.2) s, [])
    | bad => (bad.foldl (fun s f => s.modFibre c.gid f fun b => b.setCard q []) s, bad)

/-- The end of MOV and MOVI: registers, or a push of n bytes. -/
def moveEnd (s : State) (c : Cur) (g : Group) (h : Shape) (ex : List Nat) (outs : List (Nat × LaneOut)) (n : Nat) : State :=
  if h.dst.1.kind = .queue then
    let who := g.liveOf outs
    let vals := (outs.filter fun o => who.contains o.1).filterMap fun o => o.2.val.map (o.1, ·)
    match s.pushAll c g h.dst.1.num.toNat n vals with
    | (s, []) =>
      match s.group? c.gid with
      | some g => s.retireLanes c g h ex (outs.map fun o => (o.1, { o.2 with val := none }))
      | none => s
    | (s, bad) => s.faultAt c cause.cardFormat bad 0 0
  else s.retireLanes c g h ex outs

/-- MOV (R124). -/
def execMov (f : CFmt) (s : State) : Host.Outcome State Fault Refusal :=
  let n := if f.md.toNat.testBit 3 then 4 else tyRegs f.ty
  withLanes (.mov f) s (fun x => outVal x.a) fun s c g h ex outs => moveEnd s c g h ex outs (4 * n)

/-- MOVI (R125). -/
def execMovi (f : IFmt) (s : State) : Host.Outcome State Fault Refusal :=
  withLanes (.movi f) s (fun _ => outVal (extImm (f.md == 7) f.imm)) fun s c g h ex outs =>
    moveEnd s c g h ex outs (4 * tyRegs f.ty)

/-! ### Buffer pointers (R126, R127) -/

/-- The entry of the core's buffer cache (R172). -/
def Core.bufEntry (co : Core) (vf idx : Nat) : Option (BitVec 256) :=
  (co.bufs.find? fun e => e.1 == vf && e.2.1 == idx).map (·.2.2)

/-- The first index among some pointers that the core's buffer cache does not hold. -/
def State.bufMissing (s : State) (k vf : Nat) (ptrs : List Nat) : Option Nat :=
  (ptrs.map ptrIdx).find? fun i => ((s.core k).bufEntry vf i).isNone

/-- A miss parks the bundle at its instruction (R127, R172). -/
def State.parkMiss (s : State) (c : Cur) (vf idx : Nat) : State := (s.park c.gid c.en (.bufMiss vf idx)).settle c

/-- The entry that a check uses: the cached one, or none at all as for an index that names nothing. -/
def State.cachedEntry (s : State) (k vf idx : Nat) : BitVec 256 := ((s.core k).bufEntry vf idx).getD 0

/-- The offset that LEA forms, before it is narrowed (R126). -/
def leaOff (md x ptr : Nat) : Int := (ptrOff ptr : Int) + getT (md % 8) x * 2 ^ bitsOf md 4 3

/-- The check of LEA.chk. -/
def State.leaOk (s : State) (k vf ptr : Nat) (n : Int) : Bool :=
  let e := s.cachedEntry k vf (ptrIdx ptr)
  s.usable vf (ptrIdx ptr) e && entOwner e == vf && decide (0 ≤ n) && decide (n ≤ entLength e)

/-- The result of LEA for a pointer and an offset. -/
def leaVal (ptr : Nat) (n : Int) : Nat := ptrIdx ptr * 2 ^ 48 + narrow 48 n

/-- LEA in both formats: `off` is the offset operand, `form` says that a predicate takes the check's outcome. A helper's
entry is fetched like any other; in the fault form a helper whose check fails raises nothing (R25) and writes the pointer
(DESIGN CHOICE, log 37: R126 has the instruction write nothing, and it does not fail). -/
def leaStep (i : Instr) (s : State) (md : Nat) (off : LaneIn → Nat) (form : Bool) :
    Host.Outcome State Fault Refusal :=
  let chk := md.testBit 5
  let k := (s.cur.map (·.k)).getD 0
  let vf := ((s.cur.bind fun c => s.group? c.gid).map (·.vf)).getD 0
  withLanes i s
    (fun x =>
      let ptr := x.a % 2 ^ 64
      let n := leaOff md (off x) ptr
      { val := some (leaVal ptr n), p2 := if chk then some (s.leaOk k vf ptr n) else none })
    fun s c g h ex outs =>
      let who := g.liveOf outs
      let mine := outs.filter fun o => who.contains o.1
      match (if chk then s.bufMissing c.k g.vf (outs.filterMap fun o => o.2.val) else none) with
      | some idx => s.parkMiss c g.vf idx
      | none =>
        match (if chk && !form then mine.filter fun o => o.2.p2 == some false else []) with
        | [] => s.retireLanes c g h ex outs
        | o :: t => s.faultAt c cause.bufBounds (o.1 :: t.map (·.1)) 0 (o.2.val.getD 0)

/-- LEA, C format (R126). -/
def execLea (f : CFmt) (s : State) : Host.Outcome State Fault Refusal :=
  leaStep (.lea f) s f.md.toNat LaneIn.bb f.oe.om

/-- LEA, I format (R126). -/
def execLeaImm (f : IFmt) (s : State) : Host.Outcome State Fault Refusal :=
  leaStep (.leaImm f) s f.md.toNat (fun _ => f.imm.toNat) false

end Sys2Proof.Machine
end

