-- ==== Sys2Proof/Machine/Issue.lean ====
section
/-! DEFINITION. Issue (R30 to R36, R47 to R52, R65, R67, R71, R72): readiness, the choice of a bundle, fetch, and what
an issue leaves behind; bundle formation, instruction lines and the other events of a slice. -/

namespace Sys2Proof.Machine

/-! ### Budgets and clocks (R36, R312, R369, R371) -/

/-- floor(capacity * (SHARE + 1) / 256) of R312 for the SHARE in bits [lo + 7:lo] of BUDGETn. -/
def Ctx.share (c : Ctx) (lo capacity : Nat) : Nat := capacity * (bitsOf c.budget.toNat (lo + 7) lo + 1) / 256

/-- Issue slots per core of a VF (Table 19.7). -/
def Ctx.issueBudget (c : Ctx) : Nat := c.share 8 52000

/-- R371: issue slots per core for all VFs together. -/
def State.issueCap (s : State) (d : Nat) : Nat :=
  match tfind s.mh.dieW d with
  | some w => min 52000 (52000 * w / 110)
  | none => 52000

/-- The VF has issue slots left on the core in this period (R36, R371). -/
def State.hasBudget (s : State) (k vf : Nat) : Bool :=
  let co := s.core k
  decide (tget 0 co.used vf < (s.ctx vf).issueBudget) &&
  decide ((co.used.foldl (fun a p => a + p.2) 0) < s.issueCap (k / 16))

/-- Charge one issue slot (R36). -/
def State.charge (s : State) (k vf : Nat) : State :=
  s.modCore k fun co => { co with used := tset co.used vf (tget 0 co.used vf + 1) }

/-- A die whose clocks run at one of L0 to L2 (Table 23.7, R372). -/
def State.dieRuns (s : State) (d : Nat) : Bool :=
  let x := s.die d
  (x.level == .l0 || x.level == .l1 || x.level == .l2) && !x.clockStopped && !x.trip && !x.failed

/-! ### Fetch (R47, R49, R50, R51) -/

/-- What a bundle meets when it fetches at its PC. -/
inductive Fetch where
  /-- the line is not in the L1 instruction cache -/
  | absent
  | stop (cause : Nat)
  | instr (i : Instr)
  deriving DecidableEq, Repr

/-- An instruction names q8 (R271). -/
def Instr.namesQ8 (i : Instr) : Bool :=
  (match i with
   | .qstat f => bitsOf f.md.toNat 3 0 == 8
   | _ => false) ||
  match i.shape with
  | some h =>
    (h.dst.1.kind == .queue && h.dst.1.num == 8 && h.dst.2 != .none) ||
      (waitQueuesOf h).contains 8
  | none => false

/-- R72: the first decode trap of an instruction. An access to q8 outside steward mode is an Illegal Instruction. -/
def issueTrap (i : Instr) (steward : Bool) : Option Nat :=
  match i.decodeTrap with
  | some .illegalInstruction => some cause.illegalInstr
  | t => if Instr.namesQ8 i && !steward then some cause.illegalInstr else t.map decodeCause

/-- The slot at a PC of a group, as its core's instruction cache holds it. -/
def State.fetch (s : State) (g : Group) (pc : Nat) : Fetch :=
  if g.codeLen ≤ pc then .stop cause.branchTarget
  else
    match pcSlot pc with
    | none => .stop cause.branchTarget
    | some i =>
      match (s.core g.k).iline g.vf g.codePtr (pc / 64 * 64) with
      | none => .absent
      | some l =>
        if l.poisoned then .stop cause.instrParity
        else if lineIllegal l.data then .stop cause.illegalLine
        else
          let x := decodeFields (lineSlot l.data i)
          match issueTrap x (s.ctx g.vf).steward with
          | some c => .stop c
          | none => .instr x

/-! ### Readiness (R30, R65, R66) -/

/-- v-register groups that an instruction writes: under WBS the result of DST reaches no register (R55). -/
def regWrites (h : Shape) : List (Nat × Nat) := if h.dst.1.wbs then dst2Group h.oe.1 h.oe.2 else h.writes

/-- Registers that an instruction reads or writes. -/
def touches (h : Shape) (r : Nat) : Bool :=
  (h.reads ++ regWrites h).any fun x => decide (x.1 ≤ r) && decide (r < x.1 + x.2)

/-- Latches that an instruction reads, OE as a fourth source among them. -/
def latchesRead (h : Shape) : List Nat :=
  (operandUses h).filterMap fun p =>
    match p.2 with
    | .val _ _ | .vs _ _ | .vsx _ | .vsxc => if p.1.kind = .latch then some (p.1.num.toNat % 4) else none
    | _ => none

/-- The latch that an instruction captures into (R66). -/
def latchWritten (h : Shape) : List Nat :=
  if h.dst.1.cap ∧ h.dst.1.kind = .vreg then [h.ctl.latch.toNat] else []

/-- The register that stands for a latch whose data in a fibre's lane is gone (R68). -/
def latchReg (sl : Slice) (gid f x : Nat) : Option Nat :=
  let l := tget Latch.empty sl.latches x
  if l.valid && (tfind l.data f).isSome then none
  else
    match l.tag with
    | some (tg, r, wbs) => if tg = gid ∧ !wbs then some r else none
    | none => none

/-- R66, R68: the scoreboard waits for a latch as it waits for a register: for a result that a fibre has yet to capture,
and for the register that stands for a latch whose data is gone. -/
def latchHeld (sl : Slice) (gid f : Nat) (b : Fibre) (h : Shape) : Bool :=
  ((latchesRead h ++ latchWritten h).any fun x => (tget Latch.empty sl.latches x).pend.contains (gid, f)) ||
  ((latchesRead h).any fun x => (latchReg sl gid f x).elim false fun r =>
    b.pendRegs.any fun p => decide (r ≤ p) && decide (p < r + 2))

/-- Accesses of a list that are not yet acknowledged. -/
def State.outstanding (s : State) (ids : List Nat) : Bool := ids.any fun i => (tfind s.accs i).isSome

/-- Instructions that access memory (R197, R217, R218). -/
def Instr.isMemory : Instr → Bool
  | .ld _ | .st _ | .ldc _ | .ldp _ | .stp _ | .wbr _ | .invr _ | .fence _ | .rfence _ | .atom _ | .cas _ | .mcas _
  | .atomp _ | .cadd _ | .craise _ | .cread _ | .cwait _ | .qwrc _ => true
  | _ => false

/-- Scratchpad stores and card pushes, which the scoreboard holds under R242; a global store or atomic issues and waits at
its core. -/
def Instr.isStoreLike : Instr → Bool
  | .stp _ | .qwrc _ => true
  | _ => false

/-- The value of a source that is n registers of a fibre. -/
def srcGroup (g : Group) (b : Fibre) (x : Src) (n : Nat) : Nat :=
  match x.kind with
  | .scalar => groupVal g.s x.num.toNat n
  | _ => groupVal b.v x.num.toNat n

/-- Bytes of a SIZE code (Table 11.11): element size and count. -/
def sizeElem (z : Nat) : Nat × Nat :=
  match z with
  | 0 => (1, 1) | 1 => (2, 1) | 2 => (4, 1) | 3 => (8, 1) | 4 => (16, 1)
  | 5 => (1, 2) | 6 => (1, 4) | 7 => (2, 2) | 8 => (2, 4) | 9 => (4, 2) | 10 => (4, 4)
  | 11 => (8, 2) | 12 => (8, 4) | 13 => (16, 2) | _ => (16, 4)

def sizeBytes (z : Nat) : Nat := (sizeElem z).1 * (sizeElem z).2

def rangesTouch (p n q m : Nat) : Bool := ptrIdx p == ptrIdx q && decide (p < q + m) && decide (q < p + n)

/-- Whether the acquire of a fibre's RFENCE holds a WBR or INVR: its range meets the fence's (R219). Loads, stores and
atomics issue and wait at their core; a card push lies in no range (DEDUCED, log 41). -/
def State.rangeHeld (s : State) (g : Group) (b : Fibre) (i : Instr) : Bool :=
  b.holdRange.any fun r =>
    s.outstanding r.2.2.1 && !r.2.2.2 &&
    match i with
    | .wbr f | .invr f => rangesTouch (srcGroup g b f.sa 2) (srcGroup g b f.sb 1) r.1 r.2.1
    | _ => false

/-- The scoreboard admits an instruction in fibre f of group gid (R30). -/
def State.fibreAdmits (s : State) (gid : Nat) (g : Group) (f : Nat) (b : Fibre) (i : Instr) (h : Shape) : Bool :=
  !(b.pendRegs.any (touches h)) &&
  !latchHeld (s.slice g.k (f / 32 % 4)) gid f b h &&
  !(Instr.isMemory i && s.outstanding b.holdAll) &&
  !(Instr.isStoreLike i && s.outstanding b.holdStore) &&
  !s.rangeHeld g b i

/-- A fibre is ready (R30); without its instruction line its operands are not looked at. -/
def State.fibreReady (s : State) (gid : Nat) (g : Group) (f : Nat) (b : Fibre) : Bool :=
  b.live && b.park == .none && decide (b.stallUntil ≤ s.cycleOf g.k) && s.hasBudget g.k g.vf && !g.halted && !g.halting && !g.evicted &&
  g.ended.isNone &&
  match s.fetch g b.pc.toNat with
  | .instr i =>
    match i.shape with
    | some h => s.fibreAdmits gid g f b i h
    | none => true
  | _ => true

/-- The instruction that a bundle would issue now, with its group, if the scoreboard admits it. -/
def State.canIssue (s : State) (k sl : Nat) (b : Bundle) : Option (Group × Fetch) :=
  match s.group? b.gid with
  | none => none
  | some g =>
    let fs := b.en.filterMap fun f => tfind g.fibres f
    let c : Cur := ⟨k, sl, b.gid, b.pc, b.quads, b.en, b.num⟩
    if g.halted || g.evicted || g.ended.isSome || b.en.isEmpty || !s.hasBudget k g.vf ||
        -- R330: only a hold run goes on once a halt is pending
        (g.halting && !((s.slice k sl).hold.elim false fun h => h.1 == b.num)) ||
        fs.any fun x => !x.live || x.park != .none || decide (s.cycleOf k < x.stallUntil) then none
    else
      match s.fetch g b.pc with
      | .absent => none
      | .stop cs => some (g, .stop cs)
      | .instr i =>
        match i.shape with
        | none => some (g, .instr i)
        | some h =>
          if (g.executing c).all fun f => (tfind g.fibres f).all fun x => s.fibreAdmits b.gid g f x i h then some (g, .instr i)
          else none

/-! ### The choice of a bundle (R32, R34) -/

/-- Key of a quad in the ageing table. -/
def quadKey (gid q : Nat) : Nat := gid * 256 + q

/-- The count of the oldest quad of a bundle (R32). -/
def Slice.age (x : Slice) (b : Bundle) : Nat := b.quads.foldl (fun m q => max m (tget 0 x.ages (quadKey b.gid q))) 0

/-- The least element of a list under a key. -/
def leastBy {α : Type} (key : α → Nat) : List α → Option α
  | [] => none
  | x :: t => some (t.foldl (fun a y => if key y < key a then y else a) x)

/-- The greatest element of a list under a key, the first of those that tie. -/
def mostBy {α : Type} (key : α → Nat) : List α → Option α
  | [] => none
  | x :: t => some (t.foldl (fun a y => if key a < key y then y else a) x)

/-- R32 among the bundles that can issue. The groups take turns in ascending group number after the group whose turn was
last (DESIGN CHOICE, log 33: the rule does not say in which cyclic order). -/
def Slice.choose (x : Slice) (ready : List Bundle) : Option Bundle :=
  match mostBy x.age (ready.filter fun b => decide (64 ≤ x.age b)) with
  | some b => some b
  | none =>
    let later := ready.filter fun b => decide (x.lastGroup < b.gid)
    let pool := if later.isEmpty then ready else later
    match leastBy (·.gid) pool with
    | none => none
    | some b =>
      let mine := pool.filter fun y => y.gid == b.gid
      leastBy (fun y => y.yld.toNat * 256 + y.quads.headD 0) mine

/-- What an issue attempt of a slice comes to. -/
inductive Begin where
  | idle
  | stop (s : State)
  | run (s : State) (i : Instr)
  deriving DecidableEq, Repr

/-- The bundle that the slice chooses (R32, R34, R72). A second issue in the same cycle is the second of a pair (R52). -/
def State.pickBundle (s : State) (k sl : Nat) : Option Bundle :=
  let x := s.slice k sl
  let able := x.bundles.filter fun b => (s.canIssue k sl b).isSome
  if x.issuedAt == some (s.cycleOf k) then able.find? fun b => x.pairNext == some b.num
  else
    match x.hold with
    | some (n, _) => able.find? fun b => b.num == n
    | none => x.choose able

/-- The slice while it issues bundle b: latches of another bundle's instruction are gone (R67), and the quads of the
fibres that issue begin to age anew (R32). -/
def Slice.takes (y : Slice) (b : Bundle) (cycle : Nat) : Slice :=
  let y := if y.last = some b.num then y else y.clearLatches
  { y with
    last := some b.num
    lastGroup := b.gid
    issuedAt := some cycle
    ages := b.en.foldl (fun t f => tdel t (quadKey b.gid (f / 4))) y.ages
    bundles := y.bundles.map fun z => { z with yld := false } }

/-- The issue slot of bundle b is taken (R34, R36). -/
def State.takeSlot (s : State) (k sl : Nat) (b : Bundle) (vf : Nat) : State :=
  let cycle := s.cycleOf k
  let again := (s.slice k sl).issuedAt == some cycle
  let s := s.modSlice k sl fun y => y.takes b cycle
  let s := if again then s else s.charge k vf
  b.en.foldl (fun s f => s.modFibre b.gid f fun z => { z with lastIssue := cycle, lane := laneIn b.quads f }) s

/-- The slice issues one instruction: it chooses a bundle and fetches (R32, R34, R67, R72). -/
def State.beginIssue (s : State) (k sl : Nat) : Begin :=
  if !s.dieRuns (k / 16) || decide (3 < sl) || decide (255 < k) then .idle
  else
    match s.pickBundle k sl with
    | none => .idle
    | some b =>
      match s.canIssue k sl b with
      | none => .idle
      | some (g, w) =>
        let t := s.takeSlot k sl b g.vf
        let c : Cur := ⟨k, sl, b.gid, b.pc, b.quads, b.en, b.num⟩
        match w with
        | .absent => .idle
        | .stop cs => .stop (t.faultAt c cs b.en 0 0)
        | .instr i => .run { t with cur := some c } i

/-- The instruction in a slot, if the line is at hand and its decoding raises nothing. -/
def State.slotInstr (s : State) (g : Group) (pc : Nat) : Option Instr :=
  match s.fetch g pc with
  | .instr i => some i
  | _ => none

/-- R52: an instruction may lead a pair with the one after it: its class, stall and hold, and nothing that the other reads
of what it writes. -/
def leads (i j : Instr) : Bool :=
  match i.shape, j.shape with
  | some h, some hj =>
    decide (h.cls ≤ 2) && h.ctl.stall == 0 && !h.ctl.hold &&
    !(hj.reads.any fun r => (regWrites h).any fun w => rangesMeet r w) &&
    !((latchesRead hj).any (latchWritten h).contains) &&
    -- predicates that slot i writes: DST, and a predicate in OE
    (let ps := (if h.dst.1.kind = .pred then [h.dst.1.num.toNat] else []) ++
       (if hasDst2 h.oe.1 h.oe.2 ∧ h.oe.2 = .dst2 .pred then [h.oe.1.num.toNat] else [])
     let rs := hj.ctl.ga.num.toNat :: (if hj.ctl.gc = .single then [] else [hj.ctl.gb.num.toNat]) ++
       (hj.srcs.filterMap fun p => if p.2 = .pred then some p.1.num.toNat else none) ++
       (if hj.oe.2 = .predSrc then [hj.oe.1.num.toNat] else []) ++
       (match j with
        | .p2v _ => List.range 15
        | _ => [])
     !(ps.any rs.contains))
  | _, _ => false

/-- R52: slot i+1 may issue with slot i. -/
def State.pairs (s : State) (g : Group) (pc : Nat) (i : Instr) : Bool :=
  match pcSlot pc, (s.core g.k).iline g.vf g.codePtr (pc / 64 * 64) with
  | some n, some l =>
    decide (n < 4) && linePair l.data n &&
    (match s.slotInstr g (pc + 12) with
     | some j => leads i j
     | none => false)
  | _, _ => false

/-- R65, R34, R52: what an issue leaves behind. `trapped`: a fibre of the bundle has entered its trap handler. -/
def State.endIssue (s : State) (i : Instr) (trapped : Bool) : State :=
  match s.cur, i.shape with
  | some c, some h =>
    let cycle := s.cycleOf c.k
    let s := { s with cur := none }
    match s.group? c.gid with
    | none => s
    | some g =>
      let until_ := cycle + 1 + h.ctl.stall.toNat
      let s := c.en.foldl (fun s f => s.modFibre c.gid f fun b => { b with stallUntil := until_ }) s
      let stands := (s.slice c.k c.sl).bundles.any fun b => b.num == c.num
      let parked := c.en.any fun f => (tfind g.fibres f).elim true fun b => b.park != .none
      let moved := (s.slice c.k c.sl).bundles.any fun b => b.num == c.num && b.pc == seqPc c.pc
      let n := match (s.slice c.k c.sl).hold with
        | some (m, n) => if m = c.num then n + 1 else 1
        | none => 1
      let run : Option (Nat × Nat) := if h.ctl.hold ∧ n < 8 ∧ stands ∧ !parked ∧ !trapped then some (c.num, n) else none
      let pair : Option Nat := if stands && moved && !parked && !trapped && s.pairs g c.pc i then some c.num else none
      -- the second of a pair issues in this same cycle
      let s := if pair.isSome then c.en.foldl (fun s f => s.modFibre c.gid f fun b => { b with stallUntil := cycle }) s
        else s
      s.modSlice c.k c.sl fun x =>
        { x with
          hold := run
          holdSince := until_
          pairNext := pair
          bundles := x.bundles.map fun b => if b.num = c.num then { b with yld := h.ctl.yld } else b }
  | _, _ => { s with cur := none }

/-- An opcode that Table 3.9 leaves unassigned (R70, R71). -/
def execUnassignedOpcode (_ : Slot) (s : State) : Host.Outcome State Fault Refusal :=
  match s.cur with
  | none => .fault .noIssue
  | some c => .next (s.faultAt c cause.illegalInstr c.en 0 0)

/-! ### Bundle formation (R31) -/

/-- The candidate of a quad: its ready fibre that has waited longest, the lowest of those that tie. -/
def State.candidate (s : State) (gid : Nat) (g : Group) (q : Nat) : Option Nat :=
  let rs := ([0, 1, 2, 3].map (4 * q + ·)).filter fun f => (tfind g.fibres f).elim false (s.fibreReady gid g f)
  leastBy (fun f => (tfind g.fibres f).elim 0 (·.lastIssue)) rs

/-- Split a list into pieces of at most eight. -/
def pieces (l : List Nat) : Nat → List (List Nat)
  | 0 => []
  | n + 1 => if l.isEmpty then [] else l.take 8 :: pieces (l.drop 8) n

/-- The bundles of one group on a slice (R31 steps 2 to 4), in ascending first quad. -/
def State.formGroup (s : State) (gid : Nat) (g : Group) (sl : Nat) (skip : List Nat) : List (Nat × List Nat × List Nat) :=
  let quads := ((List.range 256).filter fun q => q / 8 % 4 == sl && !skip.contains q && g.occupied q)
  let cands := quads.filterMap fun q => (s.candidate gid g q).bind fun f => (tfind g.fibres f).map fun b => (q, b.pc.toNat)
  let pcs := cands.foldl (fun (l : List Nat) p => if l.contains p.2 then l else l ++ [p.2]) []
  pcs.flatMap fun pc =>
    let qs := (cands.filter fun p => p.2 == pc).map (·.1)
    (pieces qs 32).map fun part =>
      let en := (part.flatMap fun q => [0, 1, 2, 3].map (4 * q + ·)).filter fun f =>
        (tfind g.fibres f).elim false fun b => b.live && b.park == .none && b.pc.toNat == pc
      (pc, part, en)

/-- End the YIELD parks of a slice's fibres (Table 1.4). -/
def Group.endYields (g : Group) (sl : Nat) : Group :=
  { g with fibres := g.fibres.map fun p =>
      (p.1, if p.1 / 32 % 4 = sl ∧ p.2.park = .yielded then { p.2 with park := .none } else p.2) }

/-- BUNDLE_FORMATION (R31, R34): at cycles 0, 4, 8 ... of the slice's count. A held bundle is left intact. -/
def execBundleFormation (k sl : Nat) (s : State) : Host.Outcome State Fault Refusal :=
  let cycle := s.cycleOf k
  let x := s.slice k sl
  if cycle % 4 ≠ 0 ∨ x.formedAt = some cycle ∨ !s.dieRuns (k / 16) ∨ 3 < sl ∨ 255 < k then .next s
  else
    let mine := s.groups.filter fun p => p.2.k == k && !p.2.evicted && !p.2.halted && p.2.ended.isNone
    let s := mine.foldl (fun s p => s.modGroup p.1 (·.endYields sl)) s
    let held := match x.hold with
      | some (n, _) => x.bundles.filter fun b => b.num == n
      | none => []
    let step (a : List Bundle × Nat) (gid : Nat) : List Bundle × Nat :=
      match s.group? gid with
      | none => a
      | some g =>
        let skip := (held.filter fun b => b.gid == gid).flatMap (·.quads)
        (s.formGroup gid g sl skip).foldl (fun a t =>
          (a.1 ++ [⟨gid, t.1, t.2.1, t.2.2, false, a.2⟩], a.2 + 1)) a
    let r := (mine.map (·.1)).foldl step (held, x.nextNum)
    .next (s.modSlice k sl fun y => { y with bundles := r.1, nextNum := r.2, formedAt := some cycle, pairNext := none })

/-- HOLD_RUN_TIMEOUT (R34): the scoreboard has held the run's next instruction for 16 cycles past its stall count. -/
def execHoldRunTimeout (k sl : Nat) (s : State) : Host.Outcome State Fault Refusal :=
  let x := s.slice k sl
  match x.hold with
  | some (n, _) =>
    let waits := (x.bundles.filter fun b => b.num == n).all fun b => (s.canIssue k sl b).isNone
    if x.holdSince + 16 ≤ s.cycleOf k ∧ waits then .next (s.modSlice k sl fun y => { y with hold := none }) else .next s
  | none => .next s

/-- The occupied quads of a slice, each with its key and whether it is ready. -/
def State.quadsOn (s : State) (k sl : Nat) : List (Nat × Bool) :=
  (s.groups.filter fun p => p.2.k == k && !p.2.evicted).flatMap fun p =>
    ((List.range 256).filter fun q => q / 8 % 4 == sl && p.2.occupied q).map fun q =>
      (quadKey p.1 q, (s.candidate p.1 p.2 q).isSome)

/-- The ageing of a slice's quads over one cycle (R32): a quad that is ready counts the cycle unless one of its fibres
issued in it; one that is not ready keeps its count. -/
def State.ageSlice (s : State) (k sl : Nat) : State :=
  let cycle := s.cycleOf k
  let x := s.slice k sl
  let issued (key : Nat) : Bool := x.issuedAt == some cycle && (s.group? (key / 256)).elim false fun g =>
    [0, 1, 2, 3].any fun i => (tfind g.fibres (4 * (key % 256) + i)).elim false fun b => b.live && b.lastIssue == cycle
  let ages := (s.quadsOn k sl).foldl (fun t q =>
    if issued q.1 then t
    else if q.2 then tput 0 t q.1 (tget 0 x.ages q.1 + 1)
    else tput 0 t q.1 (tget 0 x.ages q.1)) []
  s.modSlice k sl fun x => { x with ages := ages }

/-- R36: a cycle that a slice leaves idle inside a hold run costs the run's VF one slot. -/
def State.chargeIdle (s : State) (k sl : Nat) : State :=
  let x := s.slice k sl
  match x.hold with
  | some (n, _) =>
    if x.issuedAt = some (s.cycleOf k) then s
    else
      match (x.bundles.find? fun b => b.num == n).bind fun b => s.group? b.gid with
      | some g => s.charge k g.vf
      | none => s
  | none => s

/-- One core cycle of a die: its slices' idle cycles and ageing, and its count. -/
def State.tickCore (s : State) (d : Nat) : State :=
  if !s.dieRuns d then s
  else
    let ks := (List.range 16).map (16 * d + ·)
    let s := ks.foldl (fun s k => (List.range 4).foldl (fun s sl => (s.chargeIdle k sl).ageSlice k sl) s) s
    s.modDie d fun x => { x with cycle := x.cycle + 1 }

/-! ### Fibres that wake, quad slots that return, lines that arrive -/

/-- NAP_EXPIRY (R137). -/
def execNapExpiry (gid fib : Nat) (s : State) : Host.Outcome State Fault Refusal :=
  match s.group? gid with
  | none => .next s
  | some g =>
    match (tfind g.fibres fib).map Fibre.park with
    | some (Park.nap t) => if t ≤ s.cycleOf g.k then .next (s.modFibre gid fib fun b => { b with park := .none }) else .next s
    | _ => .next s

/-- QUAD_SLOT_RETURN (R22): the last fibre of the quad has retired and every register write of its positions has
completed. Its helpers cease to exist and its windows return to their pool. -/
def execQuadSlotReturn (gid q : Nat) (s : State) : Host.Outcome State Fault Refusal :=
  match s.group? gid with
  | none => .next s
  | some g =>
    let here := g.fibres.filter fun p => p.1 / 4 == q
    if here.isEmpty ∨ here.any fun p => p.2.live || !p.2.pendRegs.isEmpty then .next s
    else
      let g' := { g with
        fibres := g.fibres.filter fun p => p.1 / 4 != q
        pools := g.pools.set (poolOf q) (g.pools.getD (poolOf q) 0 + here.length) }
      .next (s.setGroup gid g')

/-- Lines of the L1 instruction cache: 64 KiB (Table 0.2). -/
def icacheLines : Nat := 1024

/-- A line is pinned for a group of the core (R199). -/
def State.linePinned (s : State) (k : Nat) (l : ILine) : Bool :=
  s.groups.any fun p => p.2.k == k && p.2.vf == l.vf && p.2.codePtr == l.codePtr && p.2.ipins.contains l.off

/-- Put a line into a core's instruction cache, replacing an unpinned one when it is full. -/
def State.putLine (s : State) (k : Nat) (l : ILine) : State :=
  let co := s.core k
  if co.icache.length < icacheLines then s.modCore k fun co => { co with icache := co.icache ++ [l] }
  else
    let free := co.icache.filter fun x => !s.linePinned k x
    let n := Config.victim free.length s.freeCtr % max free.length 1
    match free[n]? with
    | some v => (s.modCore k fun co => { co with icache := (co.icache.filter fun x => x != v) ++ [l] }).bump
    | none => s

/-- LINE_FILL (R50): a code line enters the instruction cache. `dmg1` and `dmg2` are the damage to its first and second
fetch; a line bad twice is held as poisoned. -/
def execLineFill (k vf code off : Nat) (dmg1 dmg2 : BitVec 512) (s : State) : Host.Outcome State Fault Refusal :=
  let wanted := s.groups.any fun p =>
    p.2.k == k && p.2.vf == vf && p.2.codePtr == code && decide (off < p.2.codeLen) && !p.2.evicted
  if off % 64 ≠ 0 ∨ !wanted ∨ ((s.core k).iline vf code off).isSome then .next s
  else
    match s.codeMem vf code off with
    | none =>
      let p := ptrAdd code off
      let l := s.locOf (s.tableEntry vf (ptrIdx p)) p
      match s.look l 64 with
      | .error cs =>
        -- a line that reads as poisoned is held so (DESIGN CHOICE, log 49)
        if cs = cause.memory && s.inBuffer vf p 64 then .next ((s.lookFlags l).putLine k ⟨vf, code, off, 0, true⟩) else .next s
      | .ok _ => .next s
    | some m =>
      let first := m ^^^ dmg1
      let second := m ^^^ dmg2
      let line : ILine :=
        if lineParityOk first then ⟨vf, code, off, first, false⟩
        else ⟨vf, code, off, second, !lineParityOk second⟩
      .next (s.putLine k line)

/-- BUFFER_ENTRY_ARRIVAL (R172): the entry enters the core's buffer cache and the fibres that wait for it
resume. A poisoned one reads as zero (DESIGN CHOICE, log 49). -/
def execBufferEntryArrival (k vf idx : Nat) (s : State) : Host.Outcome State Fault Refusal :=
  let waits (p : Nat × Group) : Bool := p.2.k == k && p.2.vf == vf && p.2.fibres.any fun b => b.2.park == .bufMiss vf idx
  if s.groups.any waits then
    let e := s.tableEntry vf idx
    let s := s.entryFlags vf idx
    let co := s.core k
    let rest := co.bufs.filter fun x => !(x.1 == vf && x.2.1 == idx)
    let n := Config.victim rest.length s.freeCtr % max rest.length 1
    let kept := if rest.length < 256 then rest else rest.eraseIdx n
    let s := (s.modCore k fun co => { co with bufs := kept ++ [(vf, idx, e)] }).bump
    .next ((s.groups.filter waits).foldl (fun s p => s.wake p.1 (· == .bufMiss vf idx)) s)
  else .next s

end Sys2Proof.Machine
end

