-- ==== Sys2Proof/Machine/Cache.lean ====
section
/-! DEFINITION. Results that return late (R65, R66, R177), the L1 data cache (R183 to R187, R201, R202), the cluster
unit with its directory and line store (R185, R244), and the counter waiters of a place (R266). -/

namespace Sys2Proof.Machine

/-! ### Scopes (Tables 0.5, 11.10) -/

def scopeOf (n : Nat) : Scope :=
  match n with
  | 0 => .grp
  | 1 => .clu
  | 2 => .par
  | 3 => .dev
  | _ => .sys

def Scope.code : Scope → Nat
  | .grp => 0
  | .clu => 1
  | .par => 2
  | .dev => 3
  | .sys => 4

def Scope.isWide (sc : Scope) : Bool := decide (2 ≤ sc.code)

/-- The wider of two scopes. -/
def Scope.wider (a b : Scope) : Scope := if a.code < b.code then b else a

/-- R221: a clamped VF's .dev and .sys act as .par, and SCOPE_CLAMPED is set. -/
def State.clamp (s : State) (vf : Nat) (sc : Scope) : State × Scope :=
  if (s.ctx vf).parOnly ∧ 2 < sc.code then
    (s.modCtx vf fun c => { c with sticky := c.sticky ||| 0b0001 }, .par)
  else (s, sc)

/-! ### Values that return (R66, R191, R249) -/

/-- Registers of one element. -/
def elemRegs (esize : Nat) : Nat := max 1 (esize / 4)

def RetDst.regs (d : RetDst) : Nat := d.count * elemRegs d.esize

/-- n elements of e bytes, each in its own registers, zero-extended (Table 11.11). -/
def spread (e : Nat) : Nat → List Byte → Nat
  | 0, _ => 0
  | n + 1, bs => leNat (bs.take e) + 2 ^ (32 * elemRegs e) * spread e n (bs.drop e)

/-- The bytes that n elements of e bytes send from their registers. -/
def gather (e : Nat) : Nat → Nat → List Byte
  | 0, _ => []
  | n + 1, v => leBytes e v ++ gather e n (v / 2 ^ (32 * elemRegs e))

/-- The destination of an instruction whose result comes later; the latch is tagged apart. -/
def retDst (h : Shape) (count esize : Nat) : RetDst :=
  { reg := h.dst.1.num.toNat, count := count, esize := esize, none := h.dst.1.kind != .vreg, wbs := h.dst.1.wbs,
    latch := none }

/-- The registers of a destination that the scoreboard waits for. -/
def RetDst.pending (d : RetDst) : List Nat := if d.none || d.wbs then [] else (List.range d.regs).map (d.reg + ·)

/-- A fibre's destination is outstanding (R30). -/
def State.await (s : State) (gid f : Nat) (d : RetDst) : State :=
  s.modFibre gid f fun b => { b with pendRegs := b.pendRegs ++ d.pending }

/-- The result of a fibre arrives: register, latch and scoreboard. -/
def State.deliver (s : State) (gid f : Nat) (d : RetDst) (v : Nat) : State :=
  match s.group? gid with
  | none => s
  | some g =>
    let s := s.modFibre gid f fun b =>
      let b := if d.none || d.wbs then b else b.setGroup d.reg d.regs v
      { b with pendRegs := b.pendRegs.filter fun r => !d.pending.contains r }
    if d.none then s else s.lateLatch g.k gid f d.latch v

/-- A fibre whose result will not come: the scoreboard lets it go, nothing is written (R177). -/
def State.giveUp (s : State) (gid f : Nat) (d : RetDst) : State :=
  let s := s.modFibre gid f fun b => { b with pendRegs := b.pendRegs.filter fun r => !d.pending.contains r }
  ((s.group? gid).elim s fun g => s.freeLatch g.k gid f d.latch)

/-- A fault found after the issue (R177): it halts the group at its PC, or waits for the restore of a halted one. -/
def State.lateFault (s : State) (gid cs pc mask fib info eptr : Nat) : State :=
  match s.group? gid with
  | none => s
  | some g =>
    if g.halted || g.evicted then
      s.setGroup gid { g with lateFaults := g.lateFaults ++ [(cs, pc, mask, fib, eptr, info)] }
    else s.takeFault gid cs pc mask fib info eptr

/-- The fault of an access of a fibre. -/
def State.accessFault (s : State) (a : Access) (cs info : Nat) : State :=
  s.lateFault a.gid cs a.pc a.mask (a.fibs.headD 0) info a.loc.eptr

/-- A prefetch (R196). -/
def Access.isPref (a : Access) : Bool := match a.owner with
  | .pref _ => true
  | _ => false

/-- Remove an access that has been answered. -/
def State.dropAcc (s : State) (m : Nat) : State := { s with accs := tdel s.accs m }

/-- R241: the earlier causal or ordered loads of a fibre, sent to a home or to be sent, that have not returned. -/
def State.earlierLoads (s : State) (gid f : Nat) : List Nat :=
  (s.accs.filter fun p => p.2.gid == gid && p.2.fibs.contains f && p.2.cls != .rx && !p.2.leaves && p.2.ext != 5 &&
    match p.2.op with
    | .load _ | .atomp _ _ _ => true
    | .atomic _ _ => p.2.scope.isWide || p.2.loc.win
    | _ => false).map (·.1)

/-! ### The L1 data cache (R183, R184) -/

/-- The byte at an offset of the line can be read. -/
def L1Line.has (x : L1Line) (i : Nat) : Bool := x.valid.getLsbD (i / 32) || x.dirty.getLsbD i
def L1Line.byte (x : L1Line) (i : Nat) : Byte := x.data.getD i 0

/-- A sector has a dirty byte. -/
def L1Line.sectorDirty (x : L1Line) (i : Nat) : Bool := (List.range 32).any fun j => x.dirty.getLsbD (32 * i + j)

/-- The bytes [o, o + n), if all of them are present. -/
def L1Line.serve (x : L1Line) (o n : Nat) : Option (List Byte) :=
  if (List.range n).all fun i => x.has (o + i) then some ((x.data.drop o).take n) else none

/-- The dirty bytes of [o, o + n) by their distance from o. -/
def L1Line.dirtyBytes (x : L1Line) (o n : Nat) : Tab Byte :=
  (List.range n).filterMap fun i => if x.dirty.getLsbD (o + i) then some (i, x.byte (o + i)) else none

/-- Bits [o, o + n) of a byte mask. -/
def byteMask (o n : Nat) : BitVec 128 := BitVec.ofNat 128 ((2 ^ n - 1) * 2 ^ o)

/-- R184: after a write-back the bytes are clean, and their sectors take the store scope as fill scope. -/
def L1Line.cleaned (x : L1Line) : L1Line :=
  { x with dirty := 0, fill := [0, 1, 2, 3].map fun i => if x.sectorDirty i then x.store else x.fill.getD i .grp }

/-- A store into the line (Table 11.6). -/
def L1Line.write (x : L1Line) (o : Nat) (bs : List Byte) (sc : Scope) : L1Line :=
  { x with data := patch x.data o bs, dirty := x.dirty ||| byteMask o bs.length,
           store := if x.dirty = 0 then sc else x.store.wider sc }

/-- A store at .par or wider updates the bytes present and clears their dirty bits (Table 11.6). -/
def L1Line.through (x : L1Line) (o : Nat) (bs : List Byte) : L1Line :=
  let data := (List.range bs.length).foldl (fun d i => if x.has (o + i) then patch d (o + i) [bs.getD i 0] else d) x.data
  { x with data := data, dirty := x.dirty &&& ~~~(byteMask o bs.length) }

/-- A fill of whole sectors from offset o: dirty bytes stay (R184). -/
def L1Line.fillFrom (x : L1Line) (o : Nat) (bs : List Byte) (sc : Scope) : L1Line :=
  let inside (i : Nat) : Bool := decide (o ≤ 32 * i) && decide (32 * i + 32 ≤ o + bs.length)
  { x with
    data := (List.range bs.length).foldl (fun d i =>
      if x.dirty.getLsbD (o + i) then d else patch d (o + i) [bs.getD i 0]) x.data
    valid := [0, 1, 2, 3].foldl (fun v i => if inside i then v ||| BitVec.ofNat 4 (2 ^ i) else v) x.valid
    fill := [0, 1, 2, 3].map fun i => if inside i then sc else x.fill.getD i .grp }

/-- Invalidate the clean sectors whose fill scope is among some (R186). -/
def L1Line.dropClean (x : L1Line) (scs : List Scope) : L1Line :=
  { x with valid := [0, 1, 2, 3].foldl (fun v i =>
      if scs.contains (x.fill.getD i .grp) && !x.sectorDirty i then v &&& ~~~(BitVec.ofNat 4 (2 ^ i)) else v) x.valid }

/-- A line that holds nothing. -/
def L1Line.isEmpty (x : L1Line) : Bool := x.valid == 0 && x.dirty == 0

def Core.l1find (c : Core) (l : Loc) : Option L1Line := c.l1.find? fun x => x.loc.sameLine l

/-- Change the line of a location in a core's L1; a line that then holds nothing is gone. -/
def State.l1mod (s : State) (k : Nat) (l : Loc) (f : L1Line → L1Line) : State :=
  if ((s.core k).l1find l).isSome then
    s.modCore k fun c => { c with l1 := (c.l1.map fun x => if x.loc.sameLine l then f x else x).filter fun x => !x.isEmpty }
  else s

def State.l1drop (s : State) (k : Nat) (l : Loc) : State :=
  s.modCore k fun c => { c with l1 := c.l1.filter fun x => !x.loc.sameLine l }

/-- The scope of the L1 fill that an access makes, if it makes one. -/
def Owner.fills : Owner → Option Scope
  | .load _ _ _ _ _ fill _ _ => fill
  | .pref fill => fill
  | _ => none

/-- R202: outstanding fills of a core's lines that an invalidation, or a store or write-back that overtakes them, strikes;
the selection is of lines. -/
def State.stopFills (s : State) (k : Nat) (sel : Loc → Bool) (scs : List Scope) : State :=
  let hit (a : Access) : Bool :=
    a.agent == k / 16 && a.port == k % 16 && sel a.loc.line && (a.owner.fills.elim false scs.contains)
  { s with accs := s.accs.map fun p => (p.1, if hit p.2 then { p.2 with noFill := true } else p.2) }

/-- R184, R210: the dirty bytes of a line go to their home as a causal store of the die. -/
def State.writeBackLine (s : State) (k : Nat) (x : L1Line) : State × List Nat :=
  if x.dirty = 0 then (s, [])
  else
    let a := Access.make (k / 16) (k % 16) x.loc .cz .dev (.merge (x.dirtyBytes 0 128)) (.writeBack k) 0 0xFFFFFFFF
    let s := s.stopFills k x.loc.sameLine [.grp, .clu]
    match s.request a with
    | (s, id) => (s.l1mod k x.loc L1Line.cleaned, [id])

/-- Lines among which a fill replaces (R183, Tables 3.7, 11.9). -/
def victims (xs : List L1Line) : List L1Line :=
  let next := xs.filter (·.nextVictim)
  if !next.isEmpty then next
  else
    let plain := xs.filter fun x => !x.keep
    if plain.isEmpty then xs else plain

/-- Make room in the set of a line (R183): an evicted dirty line is written back. -/
def State.l1Room (s : State) (k : Nat) (l : Loc) : State :=
  let c := s.core k
  if (c.l1find l).isSome || decide (c.l1.length < 8) then s
  else
    let mates := c.l1.filter fun x => Config.l1Set k x.loc.stack x.loc.sva == Config.l1Set k l.stack l.line.sva
    if mates.length < 8 then s
    else
      let v := victims mates
      match v[Config.victim v.length s.freeCtr % v.length]? with
      | some x => ((s.writeBackLine k x).1.l1drop k x.loc).bump
      | none => s

/-- How an access allocates in L1 (Tables 3.7, 11.9): as the next victim, kept ahead, or not at all. A hint overrides the
class. -/
def l1Policy (hint cclass : Nat) : Option (Bool × Bool) :=
  match hint with
  | 1 => some (true, false)
  | 2 => some (false, true)
  | 3 => none
  | _ =>
    match cclass with
    | 1 => some (true, false)
    | 2 => some (false, true)
    | 4 => none
    | _ => some (false, false)

/-- A line of L1 for a location, new where there was none; what it comes to hold was sent at a time `since`. -/
def State.l1Alloc (s : State) (k : Nat) (l : Loc) (hint cclass since : Nat) (f : L1Line → L1Line) : State :=
  let s := s.l1Room k l
  if ((s.core k).l1find l).isSome then s.l1mod k l fun x => { f x with since := min x.since since }
  else
    let p := (l1Policy hint cclass).getD (false, false)
    let x : L1Line :=
      { loc := l.line, data := List.replicate 128 0, valid := 0, dirty := 0, fill := [.grp, .grp, .grp, .grp],
        store := .grp, nextVictim := p.1, keep := p.2, since := since }
    s.modCore k fun c => { c with l1 := c.l1 ++ [f x] }

/-- What the hints .hkeep and .hlast do to a line that an access finds (Table 3.7). -/
def L1Line.marked (x : L1Line) (hint : Nat) : L1Line :=
  if hint = 2 then { x with nextVictim := false, keep := true }
  else if hint = 6 then { x with nextVictim := true, keep := false }
  else x

def State.l1Mark (s : State) (k : Nat) (l : Loc) (hint : Nat) : State :=
  if hint = 2 ∨ hint = 6 then s.l1mod k l fun x => x.marked hint else s

/-! ### The lines of a range (R197, R219) -/

/-- The offsets of a buffer that lie at a place of a stack: one for each granule of a stripe, kept where R174 agrees. -/
def offsetsAt (e : BitVec 256) (stack sva : Nat) : List Nat :=
  let g := 8 + entGran e
  let m := log2s (entStacks e).length
  let base := if entCclass e = 15 then 0 else entSvbase e * 2 ^ 16
  let loc := sva - base
  ((List.range (2 ^ m)).map fun x => ((((loc >>> g) <<< m) + x) <<< g) + loc % 2 ^ g).filter fun o =>
    homeOf e o == (stack, sva)

/-- n bytes at a location meet the range of len bytes from a pointer through an entry. -/
def meetsRange (e : BitVec 256) (vf ptr len : Nat) (l : Loc) (n : Nat) : Bool :=
  let off := ptrOff ptr
  l.vf == vf &&
  if isExternal (ptrIdx ptr) then
    let x := extLoc e ptr
    l.key == x.key && decide (l.sva < x.sva + len) && decide (x.sva < l.sva + n)
  else
    decide (l.key < 256) && l.pin == (entCclass e == 15) &&
      (offsetsAt e l.stack l.sva).any fun o => decide (o < off + len) && decide (off < o + n)

/-! ### Counter waiters (R266) -/

/-- The eight bytes at a counter as its place holds it. -/
def State.counterAt (s : State) (w : Waiter) : Option Nat :=
  match w.place with
  | .pad gid => (s.group? gid).map fun g => leNat ((List.range 8).map fun i => tget 0 g.pad (w.off + i))
  | .clu d => ((s.die d).lines.find? fun x => x.here && x.loc.sameLine w.loc).map fun x => lineNat x.data (w.loc.sva % 128) 8
  | .home _ => (s.peek w.loc 8).map leNat

/-- The vector of a waiter's reply (R209, R213): that of the counter's line at its home. -/
def State.waitVec (s : State) (w : Waiter) : Tab Nat :=
  match w.place with
  | .home st =>
    if w.cls = .rx ∨ w.loc.win then []
    else
      let at_ : Option Nat := if w.loc.pin then s.pinAddr st w.loc.vf w.loc.sva
        else match (s.physOf w.loc false).2 with
          | .ok pa => some pa
          | .error _ => none
      at_.elim (s.stack st).hVec fun a => (s.stack st).lineVec w.loc.pin a w.loc.vf
  | _ => []

/-- The fibres whose targets the counter has reached are answered (R266 step 2). -/
def State.poke (s : State) (p : Place) : State :=
  let hit (w : Waiter) : Waiter :=
    if w.place = p ∧ w.entered then
      match s.counterAt w with
      | some c =>
        let done := w.steps.filter fun t => decide (t.2 ≤ c)
        let rest := w.steps.filter fun t => decide (c < t.2)
        if done.isEmpty then w
        else { w with
          steps := rest
          entered := !rest.isEmpty
          replies := w.replies ++ done.map fun t => (t.1, c)
          replyVec := s.waitVec w }
      | none => w
    else w
  if s.waiters.any fun x => x.2.place == p then { s with waiters := s.waiters.map fun x => (x.1, hit x.2) } else s

/-- Waiter entries that a VF may hold at a place (Tables 15.10, 15.11); a scratchpad has no quota. -/
def State.waitQuota (s : State) (p : Place) (vf : Nat) : Option Nat :=
  match p with
  | .pad _ => none
  | .clu d => some (bitsOf (tget 0 (s.die d).cquota vf).toNat 26 16)
  | .home st => some (bitsOf (tget 0 (s.stack st).aquota vf).toNat 35 20)

/-- The counters that Halyard waits on for a VF: the waits of its queued tasks (R280), and the submission count of its ring
(R311). -/
def State.halyardCounters (s : State) (vf : Nat) : List Nat :=
  let q := (s.ctx vf).subq.toNat
  ((s.items.filter fun i => i.2.vf == vf && i.2.kind == .task && !i.2.started).flatMap fun i => i.2.waits.map (·.1)) ++
  (if q.testBit 132 && (s.ctx vf).ringStopped.isNone then [bitsOf q 127 64] else [])

/-- Entries that Halyard keeps at a home for a VF (R268). They count against the VF's WAITQ; Halyard itself compares its
counters whether or not the quota admits them (DESIGN CHOICE, log 48). -/
def State.halyardWaits (s : State) (p : Place) (vf : Nat) : Nat :=
  match p with
  | .home st => ((s.halyardCounters vf).filter fun w => (s.locOf (s.tableEntry vf (ptrIdx w)) w).stack == st).length
  | _ => 0

/-- A CWAIT reaches its place (R266 steps 1 and 2): fibres whose target is reached are answered, and the others keep an
entry where the quota has room. -/
def State.enterWaiter (s : State) (w : Nat) : State :=
  match tfind s.waiters w with
  | none => s
  | some x =>
    let held := (s.waiters.filter fun p => p.1 != w && p.2.entered && p.2.place == x.place && p.2.vf == x.vf).length + s.halyardWaits x.place x.vf
    let full := (s.waitQuota x.place x.vf).elim false fun q => decide (q ≤ held)
    let s := { s with waiters := tset s.waiters w { x with entered := true } }.poke x.place
    if full then { s with waiters := tmod s.waiters w fun y => { y with entered := false } } else s

/-! ### The cluster unit (R185, R244, R268) -/

/-- The cores of a die. -/
def coresOf (d : Nat) : List Nat := (List.range 16).map (16 * d + ·)

/-- R185: the line is recalled from another core that holds it dirty at .clu; a store also invalidates the copies that
other cores filled at .clu. -/
def State.recall (s : State) (k : Nat) (l : Loc) (store : Bool) : State :=
  ((coresOf (k / 16)).filter (· != k)).foldl (fun s j =>
    let s := match (s.core j).l1find l with
      | some x => if x.dirty ≠ 0 ∧ x.store = .clu then (s.writeBackLine j x).1 else s
      | none => s
    if store then (s.l1mod j l (·.dropClean [.clu])).stopFills j l.sameLine [.clu] else s) s

/-- R244: the clean copies of a line in every L1 of a die are invalidated. -/
def State.dropCopies (s : State) (d : Nat) (l : Loc) : State :=
  (coresOf d).foldl (fun s j => (s.l1mod j l (·.dropClean [.grp, .clu])).stopFills j l.sameLine [.grp, .clu]) s

def Die.cuLine (x : Die) (l : Loc) : Option CuLine := x.lines.find? fun c => c.loc.sameLine l

def State.cuMod (s : State) (d : Nat) (l : Loc) (f : CuLine → CuLine) : State :=
  s.modDie d fun x => { x with lines := x.lines.map fun c => if c.loc.sameLine l then f c else c }

/-- Write the dirty bytes of a line of the store back to its home (R244). -/
def State.cuBack (s : State) (d : Nat) (c : CuLine) : State × List Nat :=
  if c.dirty = 0 then (s, [])
  else
    let bs := (List.range 128).filterMap fun i => if c.dirty.getLsbD i then some (i, c.data.getD i 0) else none
    match s.request (Access.make d 16 c.loc .cz .dev (.merge bs) (.cluBack d) 0 0xFFFFFFFF) with
    | (s, id) => (s.cuMod d c.loc fun x => { x with dirty := 0 }, [id])

/-- R244: the executing core's dirty bytes of the line go into the store. -/
def State.cuMerge (s : State) (k : Nat) (l : Loc) : State :=
  match (s.core k).l1find l with
  | none => s
  | some x =>
    let bs := x.dirtyBytes 0 128
    if bs.isEmpty then s
    else
      let s := s.cuMod (k / 16) l fun c =>
        { c with data := bs.foldl (fun d b => patch d b.1 [b.2]) c.data, dirty := c.dirty ||| x.dirty }
      s.l1mod k l fun y => { y.cleaned with valid := y.valid &&& (0 : BitVec 4) }

/-- LINEQ of a VF on a die (Table 15.11). -/
def State.lineQuota (s : State) (d vf : Nat) : Nat := bitsOf (tget 0 (s.die d).cquota vf).toNat 10 0

/-- An access waits in the cluster unit for its line. -/
def State.cuWaits (s : State) (d : Nat) (l : Loc) : Bool :=
  (s.die d).cuOps.any fun m => (tfind s.accs m).elim false fun a => a.loc.sameLine l

/-- List a line in the store and fetch it (R244 steps 1 to 3), evicting one of the VF's lines at its quota (R268). None
where the quota is zero or every line of the VF is in use. -/
def State.cuAlloc (s : State) (k : Nat) (a : Access) : Option State :=
  let d := k / 16
  let mine := (s.die d).lines.filter fun c => c.loc.vf == a.loc.vf
  let q := s.lineQuota d a.loc.vf
  let room : Option State :=
    if mine.length < q then some s
    else
      let free := mine.filter fun c => c.here && !s.cuWaits d c.loc
      match free[Config.victim free.length s.freeCtr % max free.length 1]? with
      | some c =>
        if q = 0 then none
        else
          let s := (s.cuBack d c).1
          some (s.modDie d fun x => { x with lines := x.lines.filter fun y => !y.loc.sameLine c.loc }).bump
      | none => none
  room.map fun s =>
    let s := s.modDie d fun x => { x with lines := x.lines ++ [⟨a.loc.line, List.replicate 128 0, 0, false⟩] }
    let s := (s.recall k a.loc false).cuMerge k a.loc
    let s := s.dropCopies d a.loc
    (s.request (Access.make d 16 a.loc.line .cz .dev (.load 128) (.cluFetch d) 0 0xFFFFFFFF)).1

/-- R186, Table 11.7: the invalidation of an acquire, over the lines that a selection names. -/
def State.acquire (s : State) (k vf : Nat) (sc : Scope) (sel : Loc → Bool) : State :=
  let scs : List Scope := match sc with
    | .grp => []
    | .clu => [.grp]
    | _ => [.grp, .clu]
  if scs.isEmpty then s
  else
    let mine (l : Loc) : Bool := l.vf == vf && sel l
    let s := s.modCore k fun c =>
      { c with l1 := (c.l1.map fun x => if mine x.loc then x.dropClean scs else x).filter fun x => !x.isEmpty }
    s.stopFills k mine scs

/-- The VF of a group. -/
def State.vfOf (s : State) (gid : Nat) : Nat := (s.group? gid).elim 0 (·.vf)

/-- The end of a fibre's load: its bytes, and the acquire of an .acq load (R192, R217). -/
def State.endLoad (s : State) (k : Nat) (a : Access) (bs : List Byte) : State :=
  match a.owner with
  | .load fib dst _ _ _ _ acq _ =>
    let s := s.deliver a.gid fib dst (spread dst.esize dst.count bs)
    match acq with
    | some sc => s.acquire k (s.vfOf a.gid) sc fun _ => true
    | none => s
  | _ => s

/-- The end of a combined event: each fibre's old value, then the acquire (R249). -/
def State.endAtomic (s : State) (k : Nat) (a : Access) (olds : Tab Nat) : State :=
  match a.owner with
  | .atomic _ dst _ acq =>
    let s := olds.foldl (fun s o => s.deliver a.gid o.1 dst o.2) s
    match acq with
    | some sc => s.acquire k (s.vfOf a.gid) sc fun _ => true
    | none => s
  | _ => s

/-- The fibres of an access get nothing (R177). -/
def State.abandon (s : State) (a : Access) : State :=
  match a.owner with
  | .load f dst _ _ _ _ _ _ => s.giveUp a.gid f dst
  | .atomic fs dst _ _ => fs.foldl (fun s f => s.giveUp a.gid f dst) s
  | _ => s

/-- What waits for an access waits for others as well. -/
def State.follow (s : State) (m : Nat) (ids : List Nat) : State :=
  let more (l : List Nat) : List Nat := if l.contains m then l ++ ids else l
  let fibre (b : Fibre) : Fibre :=
    { b with holdAll := more b.holdAll, holdStore := more b.holdStore
             holdRange := b.holdRange.map fun r => (r.1, r.2.1, more r.2.2.1, r.2.2.2) }
  if ids.isEmpty then s
  else
    { s with
      groups := s.groups.map fun p => (p.1, { p.2 with fibres := p.2.fibres.map fun q => (q.1, fibre q.2) })
      accs := s.accs.map fun p => (p.1, { p.2 with after := more p.2.after })
      cards := s.cards.map fun p => (p.1, { p.2 with after := more p.2.after }) }

/-- The bytes of a store that a range write-back or a release covers are written back once they are in L1 or in the line
store, and what waits for the store waits for that (R201). -/
def State.backAfter (s : State) (a : Access) (m : Nat) : State :=
  if !a.back then s
  else
    let r := match (s.core (16 * a.agent + a.port)).l1find a.loc with
      | some x => s.writeBackLine (16 * a.agent + a.port) x
      | none => (s, [])
    let t := match (r.1.die a.agent).cuLine a.loc with
      | some c => r.1.cuBack a.agent c
      | none => (r.1, [])
    t.1.follow m (r.2 ++ t.2)

/-- A range write-back or a release of a core covers the stores that wait at the core or in the cluster unit (R201). -/
def State.cover (s : State) (k vf : Nat) (sel : Loc → Nat → Bool) : State × List Nat :=
  let hit (a : Access) : Bool :=
    a.agent == k / 16 && a.port == k % 16 && (a.ext == 4 || a.ext == 5) && a.loc.vf == vf &&
    match a.op with
    | .store bs => sel a.loc bs.length
    | _ => false
  ({ s with accs := s.accs.map fun p => (p.1, if hit p.2 then { p.2 with back := true } else p.2) },
    (s.accs.filter fun p => hit p.2).map (·.1))

/-- An access that the cluster unit performs in a line it holds (R244). -/
def State.cuPerform (s : State) (m : Nat) (a : Access) (c : CuLine) : State :=
  let k := 16 * a.agent + a.port
  let d := a.agent
  let o := a.loc.sva % 128
  match a.op with
  | .load n =>
    let bs := (c.data.drop o).take n
    let s := (s.dropAcc m).endLoad k a bs
    match a.owner.fills with
    | some sc =>
      if a.noFill then s
      else
        let lo := o / 32 * 32
        let len := (o + n + 31) / 32 * 32 - lo
        (s.l1Alloc k a.loc a.hint a.cclass s.ns fun x => x.fillFrom lo ((c.data.drop lo).take len) sc).l1Mark k a.loc a.hint
    | none => s
  | .store bs =>
    let s := s.cuMod d a.loc fun x => { x with data := patch x.data o bs, dirty := x.dirty ||| byteMask o bs.length }
    (((s.dropCopies d a.loc).backAfter a m).dropAcc m).poke (.clu d)
  | .atomic kind steps =>
    let r := runLine kind c.data steps
    if r.passed then ((s.dropAcc m).abandon a).accessFault a cause.counterOverflow 0
    else
      let touched := steps.foldl (fun t st => t ||| byteMask st.off kind.bytes) (0 : BitVec 128)
      let s := if kind.isWrite then
          (s.cuMod d a.loc fun x => { x with data := r.line, dirty := x.dirty ||| touched }).dropCopies d a.loc
        else s
      ((s.dropAcc m).endAtomic k a r.olds).poke (.clu d)
  | .wait w => (s.dropAcc m).enterWaiter w
  | _ => s

/-- One pass over the accesses that wait in a die's cluster unit, oldest first. -/
def State.cuPass (s : State) (d : Nat) : List Nat → State
  | [] => s
  | m :: t =>
    match tfind s.accs m with
    | none => (s.modDie d fun x => { x with cuOps := x.cuOps.filter (· != m) }).cuPass d t
    | some a =>
      match (s.die d).cuLine a.loc with
      | some c =>
        if c.here then
          ((s.modDie d fun x => { x with cuOps := x.cuOps.filter (· != m) }).cuPerform m a c).cuPass d t
        else s.cuPass d t
      | none =>
        match s.cuAlloc (16 * d + a.port) a with
        | some s => s.cuPass d t
        | none => s.cuPass d t

def State.cuRun (s : State) (d : Nat) : State := s.cuPass d (s.die d).cuOps

/-- Give an access to the cluster unit of its die. A core's dirty bytes of a line that is not in the store follow when the
line is listed there. -/
def State.cuEnter (s : State) (a : Access) : State × Nat :=
  let id := s.nextAcc
  let s := { s with nextAcc := id + 1, accs := tset s.accs id { a with ext := 5, held := true, legs := [] } }
  let s := if ((s.die a.agent).cuLine a.loc).isSome then s.cuMerge (16 * a.agent + a.port) a.loc else s
  let s := s.modDie a.agent fun x => { x with cuOps := x.cuOps ++ [id] }
  (s.cuRun a.agent, id)

/-- Before an access at .par or wider leaves the die (R244): the line's dirty bytes are written back, and a store or
atomic makes the unit drop the line. -/
def State.cuPrep (s : State) (a : Access) : State :=
  if 16 ≤ a.agent ∨ 16 ≤ a.port then s
  else
    match (s.die a.agent).cuLine a.loc with
    | none => s
    | some c =>
      let s := (s.cuBack a.agent c).1
      if a.op.writes then s.modDie a.agent fun x => { x with lines := x.lines.filter fun y => !y.loc.sameLine a.loc }
      else s

/-- R246: an operation at .par or wider writes back the executing core's dirty bytes of its line and invalidates its
clean sectors. -/
def State.l1Prep (s : State) (k : Nat) (l : Loc) : State :=
  let s := match (s.core k).l1find l with
    | some x => (s.writeBackLine k x).1
    | none => s
  (s.l1mod k l (·.dropClean [.grp, .clu])).stopFills k l.sameLine [.grp, .clu]

/-- Send a request to its home, or hold it (R212, R234, R241). -/
def State.issueHome (s : State) (a : Access) : State × Nat :=
  let s := if s.maySend a then s.cuPrep a else s
  match s.request a with
  | (s, id) => (if a.agent < 16 then s.cuRun a.agent else s, id)

/-! ### Releases (R186, R216, R244) -/

/-- Write-backs in flight of a core's lines, or of a die's cluster unit. -/
def State.backsInFlight (s : State) (k vf : Nat) (sel : Loc → Nat → Bool) : List Nat :=
  (s.accs.filter fun p => p.2.loc.vf == vf && sel p.2.loc 128 &&
    match p.2.owner with
    | .writeBack j => j == k
    | .cluBack d => d == k / 16
    | _ => false).map (·.1)

/-- The write-backs of a release (Table 11.7), over the lines a selection names, with those in flight already. -/
def State.releaseLines (s : State) (k vf : Nat) (sc : Scope) (sel : Loc → Nat → Bool) : State × List Nat :=
  match sc with
  | .grp => (s, [])
  | _ =>
    match s.cover k vf sel with
    | (s, covered) =>
    let pick (x : L1Line) : Bool := x.loc.vf == vf && x.dirty != 0 && sel x.loc 128 && (sc.isWide || x.store == .grp)
    let r := ((s.core k).l1.filter pick).foldl (fun (r : State × List Nat) x =>
      match r.1.writeBackLine k x with
      | (s, ids) => (s, r.2 ++ ids)) (s, [])
    let r := if sc.isWide then
        ((s.die (k / 16)).lines.filter fun c => c.loc.vf == vf && sel c.loc 128).foldl (fun (r : State × List Nat) c =>
          match r.1.cuBack (k / 16) c with
          | (s, ids) => (s, r.2 ++ ids)) r
      else r
    (r.1, covered ++ r.2 ++ (r.1.backsInFlight k vf sel).filter fun i => !r.2.contains i)

/-- The bytes of an access meet a selection: those of its targets in an atomic event. -/
def Access.within (a : Access) (sel : Loc → Nat → Bool) : Bool :=
  match a.op with
  | .load n => sel a.loc n
  | .store bs => sel a.loc bs.length
  | .atomic kind steps => steps.any fun st => sel { a.loc with sva := a.loc.sva + st.off } kind.bytes
  | .wait _ => sel a.loc 8
  | _ => sel a.loc 128

/-- R216 steps 1 and 2 of a fibre: what its release waits for. -/
def State.release (s : State) (k gid f : Nat) (sc : Scope) (sel : Loc → Nat → Bool) : State × List Nat :=
  match s.releaseLines k (s.vfOf gid) sc sel with
  | (s, ids) =>
    let own := (s.accs.filter fun p => p.2.gid == gid && p.2.fibs.contains f && (sc == .sys || !p.2.leaves) &&
      p.2.within sel).map (·.1)
    (s, ids ++ own)

end Sys2Proof.Machine
end

