-- ==== Sys2Proof/Machine/Route.lean ====
section
/-! DEFINITION. Links of the fabric: firewalls and window tables (R333, R346), lengths of messages (R225), flit budgets
(R229), and whether a route is open. -/

namespace Sys2Proof.Machine

/-! ### Links, firewalls and flits (R225, R229, R333, R346) -/

/-- A node of the fabric: stacks 0 to 15, compute dies 32 to 47, the masthead 48. -/
def nodeOf (agent : Nat) : Nat := if agent < 16 then 32 + agent else if agent < 32 then agent - 16 else 48

/-- The FWCTL bit of a router for the link to a node (Table 21.3); the masthead's ports have none. -/
def linkBit (t n : Nat) : Option Nat :=
  if n = 32 + t then some 6
  else if n = 32 + (t ^^^ 1) then some 7
  else if n = 32 + (t ^^^ 4) then some 8
  else if 16 ≤ n ∨ n = t then none
  else if rowOf n = rowOf t then some (((List.range 4).filter (· != colOf t)).findIdx (· == colOf n))
  else some (3 + ((List.range 4).filter (· != rowOf t)).findIdx (· == rowOf n))

/-- R346: the window table of a router passes a message between a party and the host partition. -/
def State.windowPasses (s : State) (t : Nat) (a : Access) : Bool :=
  let src := s.leaderOfDie (a.agent % 16)
  a.loc.win && (a.old || (s.stack t).wins.any fun w =>
    w.slot == a.loc.key && (src == w.host || src == w.peer) && s.leaderOfDie a.loc.stack == w.host)

/-- R333: a message may enter router t from a node. -/
def State.passes (s : State) (t frm : Nat) (a : Access) : Bool :=
  a.agent == 32 || a.ext == 1 || s.windowPasses t a ||
  match linkBit t frm with
  | some b => (s.stack t).fwctl.toNat.testBit b
  | none => true

/-- Flits of the vector that a request carries (Table 13.3). -/
def vecFlits (nd : Nat) : Nat := if nd = 33 then 4 else if nd ≤ 2 then 0 else (nd - 2 + 7) / 8

/-- 32-byte sectors that a write-back's bytes lie in. -/
def sectorsOf (bs : Tab Byte) : Nat := ([0, 1, 2, 3].filter fun i => bs.any fun b => b.1 / 32 == i).length

/-- Length of a request (Table 13.3); one that carries more than 64 bytes takes a flit for each further 32. -/
def Access.requestFlits (a : Access) : Nat :=
  let long (n : Nat) : Nat := max 2 (1 + (n + 31) / 32)
  vecFlits a.nd +
  match a.op with
  | .load _ | .wait _ | .atomic .cread _ | .fence _ _ | .winLoad _ _ _ => 1
  | .store bs | .winStore _ _ bs => long bs.length
  | .merge bs => 2 + sectorsOf bs
  | .atomic _ _ | .atomp _ _ _ => 2
  -- the table has no row for it (DESIGN CHOICE, log 42)
  | .mcas _ => 3

/-- Length of a reply (Table 13.3): sectors returned, and the entries above the request's vector. -/
def Access.replyFlits (a : Access) : Nat :=
  let above := (a.replyVec.filter fun p => !vGe (tget 0 a.vec p.1) p.2).length
  match a.reply with
  | some (.data bs) => 1 + (bs.length + 31) / 32 + (above + 7) / 8
  | some (.olds _) => 2 + (above + 7) / 8
  | _ => 1

/-- Flits that a VF may inject on a link in the period (Table 19.7). -/
def State.flitLimit (s : State) (vf frm : Nat) : Nat := (s.ctx vf).share 16 (if 32 ≤ frm then 480000 else 320000)

def State.flitsOn (s : State) (link vf : Nat) : Nat :=
  match s.mh.flitUsed.find? fun x => x.1 == link && x.2.1 == vf with
  | some x => x.2.2
  | none => 0

/-- Charge flits of a VF to a link. -/
def State.useFlits (s : State) (link vf n : Nat) : State :=
  let used := s.flitsOn link vf
  s.modMh fun m => { m with flitUsed := (m.flitUsed.filter fun x => !(x.1 == link && x.2.1 == vf)) ++ [(link, vf, used + n)] }

/-- A link between two nodes, in one direction. -/
def linkOf (frm dst : Nat) : Nat := frm * 64 + dst

/-- The hops of a route from a node: each as the node left and the node entered. -/
def hopsFrom (frm : Nat) : List Nat → List (Nat × Nat)
  | [] => []
  | t :: r => (frm, t) :: hopsFrom t r

/-- The hops of an agent's ordered route to a stack that cross a link. -/
def linksTo (e st : Nat) : List (Nat × Nat) := (hopsFrom (nodeOf e) (orderedRoute e st)).filter fun h => h.1 != h.2

/-- Every router on an agent's ordered route to a place lets its messages pass (R333, R346). -/
def State.routeOpen (s : State) (e : Nat) (l : Loc) : Bool :=
  (linksTo e l.stack).all fun h => s.passes h.2 h.1 (Access.make e 0 l .cz .dev (.load 0) .record 0 0)

/-- The flit budget of a VF has room on every link of an agent's ordered route (R229). -/
def State.flitRoom (s : State) (e st vf : Nat) : Bool :=
  (linksTo e st).all fun h => decide (s.flitsOn (linkOf h.1 h.2) vf < s.flitLimit vf h.1)

/-- Charge a request and its reply to a VF on the links of an agent's ordered route (R229). -/
def State.useRoute (s : State) (e st vf req rsp : Nat) : State :=
  (linksTo e st).foldl (fun s h => (s.useFlits (linkOf h.1 h.2) vf req).useFlits (linkOf h.2 h.1) vf rsp) s

/-- The masthead marks a stack degraded (R235). -/
def State.degrade (s : State) (st : Nat) : State :=
  (s.modMh fun m => { m with degraded := if m.degraded.contains st then m.degraded else m.degraded ++ [st] }).modStack st
    fun k => { k with health := k.health ||| 1 }

end Sys2Proof.Machine
end

