-- ==== Sys2Proof/Machine/Home.lean ====
section
/-! DEFINITION. The home slice (R175, R188, R208 to R213, R236, R341 to R344, R351): where an access lands, what it reads
and writes, and what it answers. -/

namespace Sys2Proof.Machine

/-! ### The integrity tree (R344) -/

/-- Raise one child's counter of a block: past 63 all minors are zero under the next major counter. -/
def CtrBlock.bump (b : CtrBlock) (i : Nat) : CtrBlock :=
  let m := tget 0 b.minors i
  if m < 63 then { b with minors := tput 0 b.minors i (m + 1) } else { major := (b.major + 1) % 2 ^ 56, minors := [] }

/-- A write raises the line's counter and each ancestor's counter for the block below it. -/
def Stack.bumpTree (k : Stack) (line : Nat) : Stack :=
  let up (t : Tab CtrBlock) (n : Nat) : Tab CtrBlock := tset t (n / 64) ((tget CtrBlock.zero t (n / 64)).bump (n % 64))
  { k with ctr1 := up k.ctr1 line, ctr2 := up k.ctr2 (line / 64), ctr3 := up k.ctr3 (line / 4096),
           ctr4 := up k.ctr4 (line / 262144) }

/-! ### Keys, banks and budgets (R312, R341, R343, R351, R371) -/

/-- The HBM bytes that a VF may move at a stack in the period (R312, R371). -/
def State.hbmLimit (s : State) (st vf : Nat) : Nat :=
  let b := (s.ctx vf).share 24 25600000
  match tfind s.mh.stkW st with
  | some w => b * min 25600000 (w * 1250000) / 25600000
  | none => b

/-! ### The stack cache (R188, R189, Tables 3.7, 11.9) -/

/-- What an access does, for the ways it may allocate in. -/
inductive AccKind where
  | read | write | atomic
  deriving DecidableEq, Repr

/-- Ways of a VF: RDWAYS, WRWAYS and ATWAYS without those that hold its pinned region. -/
def State.ways (s : State) (st vf : Nat) (k : AccKind) : List Nat :=
  let r := (tget 0 (s.stack st).scway vf).toNat
  let m := match k with
    | .read => bitsOf r 15 0
    | .write => bitsOf r 31 16
    | .atomic => bitsOf r 47 32
  (List.range 16).filter fun i => m.testBit i && !(bitsOf r 63 48).testBit i

/-- The line that a fill replaces among the lines of its set. -/
def scVictims (xs : List ScLine) : List ScLine :=
  let next := xs.filter (·.nextVictim)
  if !next.isEmpty then next
  else
    let plain := xs.filter fun x => !x.keep
    if plain.isEmpty then xs else plain

/-- How an access allocates in the stack cache (Tables 3.7, 11.9): as the next victim, kept ahead, or not at all. A hint
overrides the class. -/
def scPolicy (hint cclass : Nat) : Option (Bool × Bool) :=
  if hint = 4 then none
  else if hint = 5 then some (false, true)
  else if hint = 6 then some (true, false)
  else
    match cclass with
    | 1 => some (true, false)
    | 2 => some (false, true)
    | 3 => none
    | _ => some (false, false)

/-- What the hints .hpersist and .hlast do to a line that an access hits (Table 3.7). -/
def ScLine.marked (x : ScLine) (hint : Nat) : ScLine :=
  if hint = 5 then { x with nextVictim := false, keep := true }
  else if hint = 6 then { x with nextVictim := true, keep := false }
  else x

def State.scHit (s : State) (st line vf hint : Nat) : State :=
  if hint = 5 ∨ hint = 6 then
    s.modStack st fun k => { k with sc := k.sc.map fun x => if x.line = line ∧ x.vf = vf then x.marked hint else x }
  else s

/-- A line that holds pinned code of its VF is exempt from replacement (R199). -/
def Stack.scPinned (k : Stack) (x : ScLine) : Bool := k.ipins.any fun p => p.1 == x.vf && p.2.2.2 == x.line

/-- Enter a line into the stack cache after a miss (R188): within the VF's ways, its budget and its cache class. -/
def State.scFill (s : State) (st line vf : Nat) (kind : AccKind) (hint cclass : Nat) : State :=
  let k := s.stack st
  let ways := s.ways st vf kind
  match scPolicy hint cclass with
  | none => s
  | some (next, keep) =>
  if ways.isEmpty || decide ((s.ctx vf).share 32 65536 ≤ tget 0 k.fillUsed vf) then s
  else
    let new (w : Nat) : ScLine := { line := line, vf := vf, vec := none, way := w, nextVictim := next, keep := keep }
    let used (k : Stack) : Stack := { k with fillUsed := tset k.fillUsed vf (tget 0 k.fillUsed vf + 1) }
    let free := ways.filter fun w => k.sc.all fun x => x.way != w
    match free with
    | w :: _ => s.modStack st fun k => used { k with sc := k.sc ++ [new w] }
    | [] =>
      let mates := k.sc.filter fun x => ways.contains x.way && Config.scSet st x.line == Config.scSet st line
      let open_ := ways.filter fun w => mates.all fun x => x.way != w
      match open_ with
      | w :: _ => s.modStack st fun k => used { k with sc := k.sc ++ [new w] }
      | [] =>
        let v := scVictims (mates.filter fun x => !k.scPinned x)
        match v[Config.victim v.length s.freeCtr % max v.length 1]? with
        | some x => (s.modStack st fun k => used { k with sc := (k.sc.filter fun y => y != x) ++ [new x.way] }).bump
        | none => s

/-- A causal store to a line: its vector and those of the other bytes' stores are below the line's (R209). -/
def Stack.stampLine (k : Stack) (pin : Bool) (addr vf : Nat) (vec : Option (Tab Nat)) : Stack :=
  match vec with
  | none => k
  | some v =>
    let w := vMerge (k.lineVec pin addr vf) v
    if pin then { k with pinVec := tset k.pinVec (addr % 2 ^ 36 / 128) w }
    else { k with sc := k.sc.map fun x => if x.line = addr % 2 ^ 36 / 128 ∧ x.vf = vf then { x with vec := some w } else x }

/-! ### Where an access lands -/

/-- What a home finds for an access. -/
inductive HomeAt where
  /-- a lock, a budget or self-refresh holds it (R256, R312, R370) -/
  | wait
  | fault (cs : Nat)
  /-- the data is discarded (R341) -/
  | drop
  | at (pin : Bool) (addr : Nat)
  deriving DecidableEq, Repr

/-- The line number by which a stack's locks know a byte. -/
def lockKey (pin : Bool) (addr : Nat) : Nat := (if pin then 2 ^ 40 else 0) + addr % 2 ^ 36 / 128

/-- A line is locked by another holder (R256, R259). -/
def Stack.lockedFor (k : Stack) (line : Nat) (holder : Option Nat) : Bool :=
  k.locks.any fun x => x.1 == line && some x.2 != holder

/-- Where an access to a location lands: translation and frame (R175, R342), locks, slot and bank, and on a miss of the
stack cache the budget, the verification (R343) and the fill. `whole` says that it writes a whole line. -/
def State.homeAt (s : State) (l : Loc) (kind : AccKind) (whole : Bool) (holder : Option Nat) (hint cclass : Nat) :
    State × HomeAt :=
  let st := l.stack
  if l.pin then
    match s.pinAddr st l.vf l.sva with
    -- an access still on its way when the way was taken from the region (DESIGN CHOICE, log 39)
    | none => (s, .fault cause.translation)
    | some addr => if (s.stack st).lockedFor (lockKey true addr) holder then (s, .wait) else (s, .at true addr)
  else
    match s.physOf l (kind != .read) with
    | (s, .error cs) => (s, .fault cs)
    | (s, .ok pa) =>
      let k := s.stack st
      let line := pa / 128
      let addr := memAddr st pa
      if k.lockedFor (lockKey false addr) holder then (s, .wait)
      else if k.slotFree l.key then (s, if kind = .write then .drop else .fault cause.memory)
      else if k.bankFenced st line then (s, if whole then .drop else .fault cause.memory)
      else if (k.scFind line l.vf).isSome then (s.scHit st line l.vf hint, .at false addr)
      else if k.selfref || decide (s.hbmLimit st l.vf ≤ tget 0 k.hbmUsed l.vf) then (s, .wait)
      else
        let s := s.modStack st fun k => { k with hbmUsed := tset k.hbmUsed l.vf (tget 0 k.hbmUsed l.vf + 128) }
        if !whole && !k.macOk pa l.key then (s.tamper st, .fault cause.memory)
        else (s.scFill st line l.vf kind hint cclass, .at false addr)

/-- n bytes that an access reads where it lands. -/
def State.homeBytes (s : State) (pin : Bool) (addr n : Nat) : List Byte := memBytes (if pin then s.pin else s.mem) addr n

/-- The line of a byte as a home reads it. -/
def State.homeLine (s : State) (pin : Bool) (addr : Nat) : List Byte := s.homeBytes pin (addr / 128 * 128) 128

/-- Write bytes of one line, by their offset in it: the frame's INIT bit, the tree, the seal and the line's vector
follow (R209, R343, R344). -/
def State.homeWrite (s : State) (l : Loc) (pin : Bool) (addr : Nat) (bs : Tab Byte) (vec : Option (Tab Nat)) : State :=
  let base := addr / 128 * 128
  let put (m : List Host.Cell) : List Host.Cell := bs.foldl (fun m b => memPut m (base + b.1) b.2) m
  if pin then
    (({ s with pin := put s.pin }.modStack l.stack fun k => k.stampLine true addr l.vf vec)).poke (.home l.stack)
  else
    let pa := addr % 2 ^ 36
    let line := pa / 128
    let s := { s with mem := put s.mem }
    let s := s.modStack l.stack fun k =>
      let slot := tget KeySlot.reset k.slots l.key
      let fr := pa / 2 ^ 16
      { (k.bumpTree line).stampLine false addr l.vf vec with
        frames := tset k.frames fr { tget Frame.reset k.frames fr with init := false }
        seals := tset k.seals line ⟨slot.mac, slot.gen⟩
        bad := k.bad.filter (· != line) }
    s.poke (.home l.stack)

/-- Bytes at a location, by their offset in the line. -/
def atOffsets (o : Nat) (bs : List Byte) : Tab Byte := bs.zipIdx.map fun b => (o + b.2, b.1)

/-! ### Direct accesses of engines, Halyard and the masthead -/

/-- What a direct access comes to. -/
inductive Direct (α : Type) where
  | wait (s : State)
  | fault (s : State) (cs : Nat)
  | ok (s : State) (v : α)

/-- An agent's causal store counter rises (R204). -/
def State.tickVec (s : State) (e : Nat) : State :=
  s.modAgent e fun a => { a with vec := tput 0 a.vec e ((tget 0 a.vec e + 1) % 2 ^ 24) }

/-- The agent has no earlier message on its way to a line: a direct access keeps same-line order (R214). -/
def State.laneQuiet (s : State) (e : Nat) (l : Loc) : Bool :=
  !s.accs.any fun p => p.2.agent == e && !p.2.performed && p.2.ext == 0 && p.2.loc.stack == l.stack && p.2.lane == laneOf l.sva

/-- An agent may send an access now: same-line order, and the VF's flits on the route (R229). -/
def State.directReady (s : State) (e : Nat) (l : Loc) : Bool := s.laneQuiet e l && s.flitRoom e l.stack l.vf

/-- The home may perform it: the gate of R208 and R209, unless it is relaxed (R211) or goes to a re-keyed window (R222). -/
def State.directTurn (s : State) (e : Nat) (l : Loc) (rx : Bool) : Bool :=
  rx || l.win || s.gate l.stack e (s.agent e).vec

/-- A place by which an agent knows the access that it waits for. -/
def Loc.stallKey (l : Loc) : Nat := (16 * l.vf + l.stack) * 2 ^ 44 + l.sva / 128

/-- An agent's access waits at its home: with its reissues after 4, 8 and 16 us, and the last wait (R235, log 30), it ends as
a Fabric Timeout and the stack is degraded. -/
def State.stall {α : Type} (s : State) (e : Nat) (l : Loc) : Direct α :=
  match tfind (s.agent e).stalled l.stallKey with
  | none => .wait (s.modAgent e fun a => { a with stalled := tset a.stalled l.stallKey s.ns })
  | some t =>
    if s.ns < t + 44000 then .wait s
    else .fault ((s.modAgent e fun a => { a with stalled := tdel a.stalled l.stallKey }).degrade l.stack) cause.fabricTimeout

/-- The home has answered it. -/
def State.unstall (s : State) (e : Nat) (l : Loc) : State :=
  if (tfind (s.agent e).stalled l.stallKey).isSome then
    s.modAgent e fun a => { a with stalled := tdel a.stalled l.stallKey }
  else s

/-- A store that an agent performs at once takes the next number of its lane at both ends; a causal one leaves its vector
as the last on the lane (R205, R206). -/
def State.takeLane (s : State) (e : Nat) (l : Loc) (vec : Option (Tab Nat)) : State :=
  let key := 4 * l.stack + laneOf l.sva
  let n := (tget 0 (s.agent e).seqs key + 1) % 2 ^ 16
  let s := s.modAgent e fun a =>
    { a with seqs := tset a.seqs key n
             lastSent := match vec with
               | some v => tset a.lastSent key v
               | none => a.lastSent }
  s.modStack l.stack fun k =>
    { k with expectSeq := tput 0 k.expectSeq (4 * e + laneOf l.sva) n
             fr := match vec with
               | some v => tput 0 k.fr (4 * e + laneOf l.sva) (tget 0 v e)
               | none => k.fr
             laneVec := match vec with
               | some v => tset k.laneVec (4 * e + laneOf l.sva) v
               | none => k.laneVec }

/-- A message whose route a firewall closes never arrives (R333, R346): the mesh event, and in the end the timeout of R235. -/
def State.cutOff (s : State) (st : Nat) : State := (s.degrade st).meshEvent

/-- Length of a store of n bytes in flits (Table 13.3). -/
def storeFlits (n : Nat) : Nat := max 2 (1 + (n + 31) / 32)

/-- Before an access of a die's engine the die's cluster unit writes the line back (R244); the access then waits for that
write-back. -/
def State.dieSync (s : State) (e : Nat) (l : Loc) : State :=
  if 16 ≤ e then s
  else
    match (s.die e).cuLine l with
    | some c => (s.cuBack e c).1
    | none => s

/-- A store of a die's engine makes the unit drop the line (R244). -/
def State.dieDrop (s : State) (e : Nat) (l : Loc) : State :=
  if (s.die e).lines.any fun c => c.loc.sameLine l then
    s.modDie e fun x => { x with lines := x.lines.filter fun c => !c.loc.sameLine l }
  else s

/-- A read by an agent at a home (R209), whose vector merges the reply's. -/
def State.readDirect (s : State) (e : Nat) (l : Loc) (n : Nat) (rx : Bool := false) : Direct (List Byte) :=
  let s := s.dieSync e l
  if !s.routeOpen e l then .fault (s.cutOff l.stack) cause.fabricTimeout
  else if !s.directReady e l then .wait s
  else if !s.directTurn e l rx then s.stall e l
  else
    match s.homeAt l .read false none 0 0 with
    | (s, .wait) => s.stall e l
    | (s, .fault cs) => .fault (s.unstall e l) cs
    | (s, .drop) => .fault (s.unstall e l) cause.memory
    | (s, .at pin addr) =>
      let s := s.unstall e l
      let v := (s.stack l.stack).lineVec pin addr l.vf
      let s := s.useRoute e l.stack l.vf 1 (1 + (n + 31) / 32)
      .ok (if rx || l.win then s else s.modAgent e fun a => { a with vec := vMerge a.vec v }) (s.homeBytes pin addr n)

/-- A write by an agent of bytes of one line, by their offset in it, as a store performed at its home (R208); the frontier
of its lane follows. -/
def State.writeTab (s : State) (e : Nat) (l : Loc) (bs : Tab Byte) (rx : Bool := false) : Direct Unit :=
  let s := s.dieSync e l
  if !s.routeOpen e l then .fault (s.cutOff l.stack) cause.fabricTimeout
  else if !s.directReady e l || !(rx || l.win || s.counterRoom e) then .wait s
  else if !s.directTurn e l rx then s.stall e l
  else
    match s.homeAt l .write (bs.length == 128) none 0 0 with
    | (s, .wait) => s.stall e l
    | (s, .fault cs) => .fault (s.unstall e l) cs
    | (s, .drop) => .ok (s.unstall e l) ()
    | (s, .at pin addr) =>
      let s := ((s.unstall e l).dieDrop e l).useRoute e l.stack l.vf (storeFlits bs.length) 1
      if rx then .ok (s.homeWrite l pin addr bs none) ()
      else if l.win then .ok ((s.takeLane e l none).homeWrite l pin addr bs none) ()
      else
        let s := s.tickVec e
        let vec := (s.agent e).vec
        .ok ((s.takeLane e l (some vec)).homeWrite l pin addr bs (some vec)) ()

/-- A write of bytes from a location on, within its line. -/
def State.writeDirect (s : State) (e : Nat) (l : Loc) (bs : List Byte) : Direct Unit :=
  s.writeTab e l (atOffsets (l.sva % 128) bs)

/-- A counter operation of an agent at a home (R264): the old value, or none where the sum would pass 2^64 - 1. -/
def State.counterDirect (s : State) (e : Nat) (l : Loc) (kind : AKind) (x : Nat) : Direct (Option Nat) :=
  let s := s.dieSync e l
  if !s.routeOpen e l then .fault (s.cutOff l.stack) cause.fabricTimeout
  else if !s.directReady e l || !(l.win || s.counterRoom e) then .wait s
  else if !s.directTurn e l false then s.stall e l
  else
    match s.homeAt l .atomic false none 0 0 with
    | (s, .wait) => s.stall e l
    | (s, .fault cs) => .fault (s.unstall e l) cs
    | (s, .drop) => .fault (s.unstall e l) cause.memory
    | (s, .at pin addr) =>
      let s := ((s.unstall e l).dieDrop e l).useRoute e l.stack l.vf 2 2
      let r := runLine kind (s.homeLine pin addr) [⟨0, addr % 128, x, 0⟩]
      let bs := atOffsets (addr % 128) ((r.line.drop (addr % 128)).take 8)
      if r.passed then .ok s none
      else if l.win then .ok ((s.takeLane e l none).homeWrite l pin addr bs none) (tfind r.olds 0)
      else
        let s := s.modAgent e fun a => { a with vec := vMerge a.vec ((s.stack l.stack).lineVec pin addr l.vf) }
        let s := s.tickVec e
        let vec := (s.agent e).vec
        .ok ((s.takeLane e l (some vec)).homeWrite l pin addr bs (some vec)) (tfind r.olds 0)

/-! ### A request at its home (R206, R208, R209, R211, R213, R236) -/

/-- a is at or after b in the order of 16-bit lane numbers. -/
def seqGe (a b : Nat) : Bool := decide ((a + 2 ^ 16 - b % 2 ^ 16) % 2 ^ 16 < 2 ^ 15)

/-- Key of a lane at a home, and of a port's lane. -/
def Access.laneKey (a : Access) : Nat := 4 * a.agent + a.lane
def Access.portKey (a : Access) : Nat := (32 * a.agent + a.port) * 4 + a.lane

/-- A copy of the request stands at its home. -/
def Access.atHome (a : Access) : Bool := a.legs.any fun
  | .home _ => true
  | _ => false

/-- The request's path of its copy at home, and the legs without that copy. -/
def takeHome : List Leg → Option (List Nat × List Leg)
  | [] => none
  | .home p :: t => some (p, t)
  | x :: t => (takeHome t).map fun r => (r.1, x :: r.2)

/-- A copy of the request is on its way to its home or stands there. -/
def Access.coming (a : Access) : Bool := a.legs.any fun
  | .back _ => false
  | _ => true

/-- R214 same-line order: no earlier message of the source to the line is still to be performed. -/
def State.lineFirst (s : State) (a : Access) : Bool :=
  !s.accs.any fun p => decide (p.2.ord < a.ord) && p.2.agent == a.agent && !p.2.performed && !p.2.held && p.2.ext == 0 &&
    p.2.loc.stack == a.loc.stack && p.2.loc.pin == a.loc.pin && p.2.loc.sva / 128 == a.loc.sva / 128 && p.2.loc.vf == a.loc.vf

/-- R206: a lane delivers its stores, atomics and loads in order. What a link has lost holds nothing by itself (its number
does), nor does an operation that the home has set aside for a quota (R268). -/
def State.laneFirst (s : State) (a : Access) : Bool :=
  !s.accs.any fun p => decide (p.2.ord < a.ord) && p.2.agent == a.agent && p.2.cls != .rx && !p.2.performed && !p.2.held &&
    !p.2.queued && p.2.ext == 0 && p.2.coming && p.2.loc.stack == a.loc.stack && p.2.lane == a.lane

/-- A reply kept for a number (R236). -/
def State.keptReply (s : State) (a : Access) : Option Reply :=
  let k := s.stack a.loc.stack
  match a.seq, a.rseq with
  | some n, _ => ((tget [] k.kept a.portKey).find? fun p => p.1 == n).map (·.2)
  | none, some n => ((tget [] k.rkept a.portKey).find? fun p => p.1 == n).map (·.2)
  | none, none => none

/-- The last 64 of a list. -/
def last64 {α : Type} (l : List α) : List α := l.drop (l.length - 64)

/-- What may be done with the copy at the home. -/
inductive Turn where
  | wait | again (r : Reply) | forget | go
  deriving DecidableEq, Repr

/-- The turn of a request (R206, R208, R209, R236). -/
def State.turnOf (s : State) (a : Access) : Turn :=
  let k := s.stack a.loc.stack
  if a.ext ≠ 0 then .go
  else
    match s.keptReply a with
    | some r => .again r
    | none =>
      let gated := s.lineFirst a && (!a.causal || s.gate a.loc.stack a.agent a.vec)
      if a.queued then (if gated then .go else .wait)
      else
      let expect := tget 0 k.expectSeq a.laneKey
      let lane : Turn :=
        match a.cls, a.seq with
        | .rx, _ => .go
        | _, some n => if n = expect then .go else if seqGe n expect then .wait else .forget
        | _, none => if seqGe expect a.seqAt then .go else .wait
      match lane with
      | .go => if gated && (a.cls == .rx || s.laneFirst a) then .go else .wait
      | t => t

/-- The home applied a request: lane number, frontier and rebuilt vector (R205, R206), the kept reply (R236), and the
reply on its way. -/
def State.answer (s : State) (m : Nat) (a : Access) (r : Reply) (replyVec : Tab Nat) : State :=
  match takeHome a.legs with
  | none => s
  | some (path, legs) =>
    let s := s.modStack a.loc.stack fun k =>
      let k := match a.seq with
        | some n =>
          { k with expectSeq := if a.queued then k.expectSeq else tput 0 k.expectSeq a.laneKey ((n + 1) % 2 ^ 16)
                   kept := tset k.kept a.portKey (last64 (tget [] k.kept a.portKey ++ [(n, r)]))
                   fr := if a.causal && !a.queued then tput 0 k.fr a.laneKey (tget 0 a.vec a.agent) else k.fr }
        | none => k
      -- the lane's vector follows every message that carries one (R205, R209); a queued one has passed already
      let k := if a.causal && !a.queued then { k with laneVec := tset k.laneVec a.laneKey a.vec } else k
      match a.rseq with
      | some n => { k with rkept := tset k.rkept a.portKey (last64 (tget [] k.rkept a.portKey ++ [(n, r)])) }
      | none => k
    let a := { a with performed := true, reply := some r, replyVec := replyVec, legs := legs ++ [.back path] }
    { s with accs := tset s.accs m a }

/-- Send a kept reply once more, or drop a copy that is older than what is kept (R236). -/
def State.answerAgain (s : State) (m : Nat) (a : Access) (r : Option Reply) : State :=
  match takeHome a.legs, r with
  | some (path, legs), some r =>
    { s with accs := tset s.accs m { a with reply := some r, legs := legs ++ [.back path] } }
  | some (_, legs), none => { s with accs := tset s.accs m { a with legs := legs } }
  | none, _ => s

/-- The vector of a reply (R209, R213): none to a relaxed request. -/
def State.replyVecAt (s : State) (a : Access) (pin : Bool) (addr : Nat) : Tab Nat :=
  if a.causal then (s.stack a.loc.stack).lineVec pin addr a.loc.vf else []

/-- The vector a request leaves with its line. -/
def Access.stored (a : Access) : Option (Tab Nat) := if a.causal then some a.vec else none

/-- A load at its home. -/
def State.homeLoad (s : State) (m : Nat) (a : Access) (n : Nat) : State :=
  match s.homeAt a.loc .read false none a.hint a.cclass with
  -- a prefetch whose budget would fail does nothing (R196)
  | (s, .wait) => if a.isPref then s.answer m a .ack [] else s
  | (s, .fault cs) => s.answer m a (.fault cs 0) []
  | (s, .drop) => s.answer m a (.fault cause.memory 0) []
  | (s, .at pin addr) => s.answer m a (.data (s.homeBytes pin addr n)) (s.replyVecAt a pin addr)

/-- A store or a write-back at its home: bytes by their offset in the line. -/
def State.homeStore (s : State) (m : Nat) (a : Access) (bs : Tab Byte) : State :=
  match s.homeAt a.loc .write (bs.length == 128) none a.hint a.cclass with
  | (s, .wait) => s
  | (s, .fault cs) => s.answer m a (.fault cs 0) []
  | (s, .drop) => s.answer m a .ack []
  | (s, .at pin addr) => (s.homeWrite a.loc pin addr bs a.stored).answer m a .ack []

/-- A combined atomic or counter event at its home (R213, R250). -/
def State.homeAtomic (s : State) (m : Nat) (a : Access) (kind : AKind) (steps : List AStep) : State :=
  match s.homeAt a.loc (if kind.isWrite then .atomic else .read) false none a.hint a.cclass with
  | (s, .wait) => s
  | (s, .fault cs) => s.answer m a (.fault cs 0) []
  | (s, .drop) => s.answer m a (.fault cause.memory 0) []
  | (s, .at pin addr) =>
    let r := runLine kind (s.homeLine pin addr) steps
    if r.passed then s.answer m a (.fault cause.counterOverflow 0) []
    else
      let v := s.replyVecAt a pin addr
      let touched := steps.flatMap fun st => (List.range kind.bytes).map (st.off + ·)
      let bs : Tab Byte := touched.map fun i => (i, r.line.getD i 0)
      let s := if kind.isWrite then s.homeWrite a.loc pin addr bs a.stored else s
      s.answer m a (.olds r.olds) v

end Sys2Proof.Machine
end

