-- ==== Sys2Proof/Machine/Window.lean ====
section
/-! DEFINITION. Windows on the on-chip physical map (R178, R179, Table 11.5): the storage that a byte of one names. -/

namespace Sys2Proof.Machine

/-- The core, region and slot of a window entry (Table 11.5). -/
def winCore (e : BitVec 256) : Nat := 16 * entF e 209 206 + entF e 205 202
def winRegion (e : BitVec 256) : Nat := entF e 196 194
def winSlot (e : BitVec 256) : Nat := entF e 201 197

/-- The group that is resident in a slot of a core. -/
def State.groupInSlot (s : State) (k slot : Nat) : Option (Nat × Group) :=
  s.groups.find? fun p => p.2.k == k && p.2.slot == slot && !p.2.evicted

/-- A byte of on-chip storage that a group owns. -/
inductive Cell where
  | reg (gid fib n byte : Nat)
  | pad (gid off : Nat)
  | acc (gid i byte : Nat)
  deriving DecidableEq, Repr

/-- The cell that byte o of a window names; none for storage that no group owns. -/
def State.winCell (s : State) (e : BitVec 256) (o : Nat) : Option Cell :=
  let k := winCore e
  match winRegion e with
  | 0 =>
    match s.groupInSlot k (winSlot e) with
    | some (gid, g) =>
      let f := o / 4 / max g.wsize 1
      if (tfind g.fibres f).isSome then some (.reg gid f (o / 4 % max g.wsize 1) (o % 4)) else none
    | none => none
  | 1 =>
    (s.groups.find? fun p => p.2.k == k && !p.2.evicted && p.2.padUnits.contains (o / 4096)).map fun p =>
      .pad p.1 (4096 * (p.2.padUnits.findIdx (· == o / 4096)) + o % 4096)
  | _ =>
    (s.groups.find? fun p => p.2.k == k && !p.2.evicted && p.2.macros.any fun m => m.phys == o / 4096).map fun p =>
      .acc p.1 (1024 * (p.2.macros.findIdx fun m => m.phys == o / 4096) + o % 4096 / 4) (o % 4)

def Cell.gid : Cell → Nat
  | .reg g _ _ _ | .pad g _ | .acc g _ _ => g

/-- The owner tag of a byte's row (R179): its VF, or 0. -/
def State.winTag (s : State) (e : BitVec 256) (o : Nat) : Nat :=
  (s.winCell e o).elim 0 fun c => (s.group? c.gid).elim 0 (·.vf)

/-- Byte i of a register. -/
def byteOf (w : Word) (i : Nat) : Byte := BitVec.ofNat 8 (w.toNat / 2 ^ (8 * i))
def setByte (w : Word) (i : Nat) (b : Byte) : Word :=
  BitVec.ofNat 32 (w.toNat - w.toNat / 2 ^ (8 * i) % 256 * 2 ^ (8 * i) + b.toNat * 2 ^ (8 * i))

def State.cellRead (s : State) (c : Cell) : Byte :=
  match s.group? c.gid with
  | none => 0
  | some g =>
    match c with
    | .reg _ f n i => byteOf ((tfind g.fibres f).elim 0 fun b => tget 0 b.regs n) i
    | .pad _ o => tget 0 g.pad o
    | .acc _ i j => byteOf (tget 0 g.acc i) j

def State.cellWrite (s : State) (c : Cell) (b : Byte) : State :=
  match c with
  | .reg gid f n i => s.modFibre gid f fun x => { x with regs := tput 0 x.regs n (setByte (tget 0 x.regs n) i b) }
  | .pad gid o => s.modGroup gid fun g => { g with pad := tput 0 g.pad o b }
  | .acc gid i j => s.modGroup gid fun g => { g with acc := tput 0 g.acc i (setByte (tget 0 g.acc i) j b) }

/-- n bytes of a window; a row that no group owns holds a free value. -/
def State.winRead (s : State) (e : BitVec 256) (o n : Nat) : State × List Byte :=
  let bs := (List.range n).map fun i => match s.winCell e (o + i) with
    | some c => s.cellRead c
    | none => Config.freeRow s.freeCtr i
  (if (List.range n).any fun i => (s.winCell e (o + i)).isNone then s.bump else s, bs)

/-- Write bytes of a window; a row that no group owns is zeroed before a group can read it (R180, R282). -/
def State.winWrite (s : State) (e : BitVec 256) (o : Nat) (bs : List Byte) : State :=
  let r := bs.zipIdx.foldl (fun s b => match s.winCell e (o + b.2) with
    | some c => s.cellWrite c b.1
    | none => s) s
  (r.groups.map (·.1)).foldl (fun s g => s.poke (.pad g)) r

end Sys2Proof.Machine
end

