-- ==== Sys2Proof/Machine/Memory.lean ====
section
/-! DEFINITION. The memory instructions (R191 to R199), with the ordering they establish at their core (R212, R216 to
R222, R241, R242). -/

namespace Sys2Proof.Machine

/-! ### Checks (R173, R195, R248) -/

/-- Place of a cause in the order of Table 11.2. -/
def checkRank (c : Nat) : Nat :=
  if c = cause.bufInvalid then 1
  else if c = cause.bufRights then 2
  else if c = cause.misaligned then 3
  else 4

/-- A failed check of a fibre: its place in the order, its cause and the effective pointer. -/
structure Fail where
  fib : Nat
  rank : Nat
  cause : Nat
  eptr : Nat
  deriving DecidableEq, Repr

/-- The first check that fails in any fibre faults, for the fibres that fail it. -/
def State.raiseFirst (s : State) (c : Cur) (fs : List Fail) : Option State :=
  match leastBy (fun (x : Fail) => x.rank * 2048 + x.fib) fs with
  | none => none
  | some x =>
    some (s.faultAt c x.cause ((fs.filter fun y => y.rank == x.rank).map (·.fib)) 0 x.eptr)

/-- The failed check of a fibre's global access. -/
def State.globalFail (s : State) (c : Cur) (vf size align : Nat) (right : Option Right) (f ptr : Nat)
    (win : Bool := false) : Option Fail :=
  (s.checkEntry vf (s.cachedEntry c.k vf (ptrIdx ptr)) ptr size align right win).map fun cs => ⟨f, checkRank cs, cs, ptr⟩

/-- The checks of R195 over an exact offset. -/
def padFail (len : Nat) (f : Nat) (off : Int) (size : Nat) : Option Fail :=
  if off < 0 then some ⟨f, 1, cause.padBounds, 0⟩
  else if off.toNat % size ≠ 0 then some ⟨f, 2, cause.misaligned, 0⟩
  else if len < off.toNat + size then some ⟨f, 3, cause.padBounds, 0⟩
  else none

/-! ### One access of one fibre -/

/-- The ordering class of CLS and DORD (R191). -/
def clsOf (code : Nat) (e : BitVec 256) : Cls :=
  match (if code = 0 then entDord e + 1 else code) with
  | 1 => .cz
  | 2 => .rx
  | _ => .ox


/-- The access of a fibre through an entry, before it is placed. -/
def State.accessOf (s : State) (c : Cur) (f ptr : Nat) (e : BitVec 256) (cls : Cls) (sc : Scope) (hint : Nat) (op : MemOp)
    (o : Owner) : Access :=
  let ext := isExternal (ptrIdx ptr)
  let l := if ext then extLoc e ptr else s.locOf e ptr
  let a := Access.make (c.k / 16) (c.k % 16) l cls sc op o c.gid c.pc
  { a with mask := maskOf c.quads [f], hint := hint, cclass := entCclass e, ext := if ext then extKind e + 1 else 0,
           causal := a.causal && !ext }

/-- An access through an entry acts as .ox: by its class, or since it goes to a re-keyed window (R222). -/
def State.actsOx (s : State) (e : BitVec 256) (cls : Cls) : Bool :=
  cls == .ox || (!entOnchip e && (entStacks e).any fun t => s.windowOf t (entKey e))

/-- The access stays in the core or the cluster where it can (Table 11.6). -/
def Access.isLocal (a : Access) : Bool := !a.scope.isWide && !a.loc.win && a.ext == 0

/-- L1 may allocate for it (R184, Tables 3.7, 11.9). -/
def Access.mayAllocate (a : Access) : Bool := (l1Policy a.hint a.cclass).isSome

/-- Pointer and length of what an access takes for a fibre. -/
def Access.spanOf (a : Access) (f : Nat) : Nat × Nat :=
  match a.op with
  | .load n => (a.loc.eptr, n)
  | .store bs => (a.loc.eptr, bs.length)
  | .atomic kind steps => (a.loc.eptr / 128 * 128 + ((steps.find? fun st => st.fib == f).elim 0 (·.off)), kind.bytes)
  | .wait _ => (a.loc.eptr, 8)
  | _ => (a.loc.eptr / 128 * 128, 128)

/-- What the FENCEs and RFENCEs in force of a fibre hold an access for (R217, R219, R242). -/
def State.fencesHold (s : State) (a : Access) (f : Nat) (spans : List (Nat × Nat)) : List Nat :=
  (((s.group? a.gid).bind fun g => tfind g.fibres f).elim [] fun b =>
    (if a.op.writes then b.holdStore else []) ++
    (b.holdRange.filter fun r => (!r.2.2.2 || a.op.writes) && spans.any fun x => rangesTouch x.1 x.2 r.1 r.2.1).flatMap fun r => r.2.2.1)

/-- What an access of a fibre waits for before its core, its cluster unit or its home may have it: an ordered access for
the fibre's earlier accesses (R212, R222; outside the package only at .sys, R220), and any access for the fences. -/
def State.holdsOf (s : State) (a : Access) (f : Nat) : List Nat :=
  (if a.cls = .ox ∧ (!a.leaves || a.scope == .sys) then s.earlier a.gid f a.scope else []) ++ s.fencesHold a f [a.spanOf f]

/-- What a causal access waits for before it is sent to a home (R241). -/
def State.waitsFor (s : State) (a : Access) (f : Nat) : List Nat :=
  if a.causal ∧ a.cls ≠ .ox then s.earlierLoads a.gid f else []

/-- Accesses of the core to the line that wait at the core (R187, R214). -/
def State.asideOn (s : State) (a : Access) : List Nat :=
  (s.accs.filter fun p => p.2.ext == 4 && p.2.agent == a.agent && p.2.port == a.port && p.2.loc.sameLine a.loc).map (·.1)

/-- Later accesses of a fibre wait for these (R217). -/
def State.holdAll (s : State) (gid f : Nat) (ids : List Nat) : State :=
  s.modFibre gid f fun b => { b with holdAll := (b.holdAll.filter fun i => (tfind s.accs i).isSome) ++ ids }

/-- Put an access aside until what it waits for is acknowledged; ORDERED_SEND performs it. -/
def State.putAside (s : State) (a : Access) (after : List Nat) : State × Nat :=
  let id := s.nextAcc
  ({ s with nextAcc := id + 1, accs := tset s.accs id { a with ext := 4, held := true, legs := [], after := after } }, id)

/-- A load that waits for nothing but what its request waits for (Table 11.6, R184, R185, R244). -/
def State.runLoad (s : State) (a : Access) : State :=
  match a.owner with
  | .load fib dst size _ _ _ acq helper =>
    let k := 16 * a.agent + a.port
    let o := a.loc.sva % 128
    let kept (r : State × Nat) : State := if acq.isSome then r.1.holdAll a.gid fib [r.2] else r.1
    let line := if a.ext = 0 ∧ !a.loc.win then (s.core k).l1find a.loc else none
    let own := line.elim [] (·.dirtyBytes o size)
    let cu := ((s.die a.agent).cuLine a.loc).isSome
    if a.isLocal then
      if a.scope = .clu ∧ cu then kept (s.cuEnter a)
      else
        match line.bind (·.serve o size) with
        | some bs => (s.l1Mark k a.loc a.hint).endLoad k a bs
        | none =>
          if cu then
            kept (s.cuEnter { a with owner := .load fib dst size 0 own (if a.mayAllocate then some a.scope else none) acq helper })
          else
            let s := if a.scope = .clu then s.recall k a.loc false else s
            if a.mayAllocate then
              let lo := o / 32 * 32
              let n := (o + size + 31) / 32 * 32 - lo
              kept (s.issueHome { a with
                loc := { a.loc with sva := a.loc.sva - (o - lo) }
                op := .load n
                owner := .load fib dst size (o - lo) own (some a.scope) acq helper })
            else kept (s.issueHome { a with owner := .load fib dst size 0 own none acq helper })
    else if own.length = size then s.endLoad k a (own.map (·.2))
    else kept (s.issueHome { a with owner := .load fib dst size 0 own none acq helper })
  | _ => s

/-- A load of a fibre: it waits aside for what holds it, and behind what waits there for its line. -/
def State.startLoad (s : State) (a : Access) (f : Nat) (dst : RetDst) : State :=
  let holds := s.holdsOf a f ++ s.asideOn a
  let loads := s.waitsFor a f
  let s := s.await a.gid f dst
  if s.outstanding holds then
    match s.putAside a (holds ++ loads) with
    | (s, id) => match a.owner with
      | .load _ _ _ _ _ _ (some _) _ => s.holdAll a.gid f [id]
      | _ => s
  else s.runLoad { a with after := loads }

/-- A store that its core or cluster takes, or sends to the home at once (Table 11.6, R184, R185, R244). -/
def State.runStore (s : State) (a : Access) : State :=
  match a.op with
  | .store bs =>
    let k := 16 * a.agent + a.port
    let o := a.loc.sva % 128
    let here := ((s.core k).l1find a.loc).isSome
    if a.isLocal then
      if a.scope = .clu ∧ ((s.die a.agent).cuLine a.loc).isSome then (s.cuEnter a).1
      else
        let s := if a.scope = .clu then s.recall k a.loc true else s
        if a.mayAllocate ∨ here then
          (s.l1Alloc k a.loc a.hint a.cclass s.ns fun x => x.write o bs a.scope).l1Mark k a.loc a.hint
        else ((s.stopFills k a.loc.sameLine [.grp, .clu]).issueHome a).1
    else
      let s := if a.ext = 0 ∧ !a.loc.win then
          ((s.l1mod k a.loc fun x => x.through o bs).stopFills k a.loc.sameLine [.grp, .clu]).l1Mark k a.loc a.hint
        else s
      (s.issueHome a).1
  | _ => s

/-- A store of a fibre (R193): the release of a .rel store first; it waits aside for what it must follow, and behind what
waits there for its line. Later accesses of the fibre to other lines do not wait for it (R212). -/
def State.startStore (s : State) (a : Access) (f : Nat) (rel : Bool) : State :=
  let k := 16 * a.agent + a.port
  let holds := s.holdsOf a f ++ s.asideOn a
  let loads := s.waitsFor a f
  match (if rel then s.release k a.gid f a.scope (fun _ _ => true) else (s, [])) with
  | (s, ids) =>
    if s.outstanding (holds ++ ids) then (s.putAside a (holds ++ ids ++ loads)).1
    else s.runStore { a with after := loads }

/-! ### LD, ST, LDC, PREF (R192 to R194, R196) -/

/-- Results without their values: the fibres pass, and write later. -/
def noVals (outs : List (Nat × LaneOut)) : List (Nat × LaneOut) := outs.map fun o => (o.1, { o.2 with val := none, val2 := none })

/-- The pointer a fibre formed. -/
def ptrOf (o : Nat × LaneOut) : Nat := o.2.val.getD 0

/-- The frame of a global access: the buffer cache (R172), the checks, and then each fibre's access in ascending FIBID;
`helpers` says that helpers take part. -/
def globalStep (i : Instr) (s : State) (body : LaneIn → LaneOut) (size align : Nat) (right : Option Right) (helpers : Bool)
    (one : State → Cur → Shape → Option (Nat × Nat × Nat) → Nat × LaneOut → State) : Host.Outcome State Fault Refusal :=
  withLanes i s body fun s c g h ex outs =>
    let live := outs.filter fun o => (g.liveOf outs).contains o.1
    let who := if helpers then outs else live
    match s.bufMissing c.k g.vf (who.map ptrOf) with
    | some idx => s.parkMiss c g.vf idx
    | none =>
      match s.raiseFirst c (live.filterMap fun o => s.globalFail c g.vf size align right o.1 (ptrOf o) (s.ctx g.vf).steward) with
      | some s => s
      | none =>
        let s := s.retireLanes c g h ex (noVals outs)
        match s.tagLatch c.k c.sl c.gid h (who.map (·.1)) with
        | (s, t) => who.foldl (fun s o => one s c h t o) s

/-- The pointer of the memory format in a fibre (R62). -/
def memPtr (f : MFmt) (x : LaneIn) : Nat := ptrAdd (x.a % 2 ^ 64) f.disp.toInt

/-- A fibre is a helper of its group. -/
def State.isHelper (s : State) (gid f : Nat) : Bool :=
  ((s.group? gid).bind fun g => tfind g.fibres f).elim true fun b => !b.live

/-- The access of steward mode through an on-chip window (R178). -/
def State.winAccess (s : State) (c : Cur) (f ptr : Nat) (cls : Cls) (sc : Scope) (op : MemOp) (o : Owner) : Access :=
  let a := Access.make (c.k / 16) (c.k % 16) (.nowhere (s.vfOf c.gid) ptr) cls sc op o c.gid c.pc
  { a with mask := maskOf c.quads [f], causal := false }

/-- It is performed at its rows: a load's registers receive their bytes, and the acquire of an .acq load follows. -/
def State.runWindow (s : State) (a : Access) : State :=
  match a.op with
  | .winLoad e off len =>
    match s.winRead e off len with
    | (s, bs) => s.endLoad (16 * a.agent + a.port) a bs
  | .winStore e off bs => s.winWrite e off bs
  | _ => s

/-- A window access of a fibre: it waits aside for what it must follow (R212, R216), and later accesses wait for an .acq
load (R217). -/
def State.startWindow (s : State) (a : Access) (f : Nat) (rel : Bool) : State :=
  let spans : List (Nat × Nat) := match a.op with
    | .winLoad _ _ n => [(a.loc.eptr, n)]
    | .winStore _ _ bs => [(a.loc.eptr, bs.length)]
    | _ => []
  let holds := (if a.cls = .ox then s.earlier a.gid f a.scope else []) ++ s.fencesHold a f spans
  match (if rel then s.release (16 * a.agent + a.port) a.gid f a.scope (fun _ _ => true) else (s, [])) with
  | (s, ids) =>
    let s := match a.owner with
      | .load _ dst _ _ _ _ _ _ => s.await a.gid f dst
      | _ => s
    if s.outstanding (holds ++ ids) then
      match s.putAside a (holds ++ ids), a.owner with
      | (s, id), .load _ _ _ _ _ _ (some _) _ => s.holdAll a.gid f [id]
      | (s, _), _ => s
    else s.runWindow a

/-- A load of steward mode through a window, at once (LDC, R194). -/
def State.loadWindow (s : State) (c : Cur) (f : Nat) (e : BitVec 256) (ptr size : Nat) (dst : RetDst) : State :=
  match s.winRead e (ptrOff ptr) size with
  | (s, bs) => s.deliver c.gid f dst (spread dst.esize dst.count bs)

/-- LD of one fibre: a helper whose checks fail receives zero (R25). -/
def ldOne (f : MFmt) (s : State) (c : Cur) (h : Shape) (t : Option (Nat × Nat × Nat)) (o : Nat × LaneOut) : State :=
  let z := sizeElem (bitsOf f.md.toNat 3 0)
  let size := z.1 * z.2
  let vf := s.vfOf c.gid
  let ptr := ptrOf o
  let e := s.cachedEntry c.k vf (ptrIdx ptr)
  let dst := { retDst h z.2 z.1 with latch := t }
  let helper := s.isHelper c.gid o.1
  if (s.globalFail c vf size size (some .r) o.1 ptr (s.ctx vf).steward).isSome then s.deliver c.gid o.1 dst 0
  else
    let acq := f.md.toNat.testBit 7
    let cls := clsOf f.clsCode e
    let sc := scopeOf (bitsOf f.md.toNat 6 4)
    match (if acq ∨ s.actsOx e cls then s.clamp vf sc else (s, sc)) with
    | (s, sc) =>
      let w : Owner := .load o.1 dst size 0 [] none (if acq then some sc else none) helper
      if entOnchip e then s.startWindow (s.winAccess c o.1 ptr cls sc (.winLoad e (ptrOff ptr) size) w) o.1 false
      else s.startLoad (s.accessOf c o.1 ptr e cls sc f.ctl.hint.toNat (.load size) w) o.1 dst

/-- LD (R192). -/
def execLd (f : MFmt) (s : State) : Host.Outcome State Fault Refusal :=
  let size := sizeBytes (bitsOf f.md.toNat 3 0)
  globalStep (.ld f) s (fun x => outVal (memPtr f x)) size size (some .r) true (ldOne f)

/-- ST of one fibre. -/
def stOne (f : MFmt) (s : State) (c : Cur) (_ : Shape) (_ : Option (Nat × Nat × Nat)) (o : Nat × LaneOut) : State :=
  let z := sizeElem (bitsOf f.md.toNat 3 0)
  let vf := s.vfOf c.gid
  let e := s.cachedEntry c.k vf (ptrIdx (ptrOf o))
  let rel := f.md.toNat.testBit 7
  let cls := clsOf f.clsCode e
  let sc := scopeOf (bitsOf f.md.toNat 6 4)
  let bs := gather z.1 z.2 (o.2.val2.getD 0)
  match (if rel ∨ s.actsOx e cls then s.clamp vf sc else (s, sc)) with
  | (s, sc) =>
    if entOnchip e then
      s.startWindow (s.winAccess c o.1 (ptrOf o) cls sc (.winStore e (ptrOff (ptrOf o)) bs) (.store o.1)) o.1 rel
    else s.startStore (s.accessOf c o.1 (ptrOf o) e cls sc f.ctl.hint.toNat (.store bs) (.store o.1)) o.1 rel

/-- ST (R193). -/
def execSt (f : MFmt) (s : State) : Host.Outcome State Fault Refusal :=
  let size := sizeBytes (bitsOf f.md.toNat 3 0)
  globalStep (.st f) s (fun x => { val := some (memPtr f x), val2 := some x.bb }) size size (some .w) false (stOne f)

/-- LDC of one fibre (R194): from an L1 copy, or the home's bytes as they stand at the issue. -/
def ldcOne (f : MFmt) (s : State) (c : Cur) (h : Shape) (t : Option (Nat × Nat × Nat)) (o : Nat × LaneOut) : State :=
  let z := sizeElem (bitsOf f.md.toNat 3 0)
  let size := z.1 * z.2
  let vf := s.vfOf c.gid
  let ptr := ptrOf o
  let e := s.cachedEntry c.k vf (ptrIdx ptr)
  let dst := { retDst h z.2 z.1 with latch := t }
  let helper := s.isHelper c.gid o.1
  if (s.globalFail c vf size size (some .r) o.1 ptr (s.ctx vf).steward).isSome then s.deliver c.gid o.1 dst 0
  else if entOnchip e then s.loadWindow c o.1 e ptr size dst
  else
    let a := s.accessOf c o.1 ptr e .rx .par f.ctl.hint.toNat (.load size) (.load o.1 dst size 0 [] none none helper)
    -- a copy whose bytes came after the launch
    let fresh (x : L1Line) : Bool := ((s.group? c.gid).bind fun g => tfind s.grids g.grid).elim false fun q => decide (q.launchedAt < x.since)
    let copy := if a.ext = 0 ∧ !a.loc.win then
        (((s.core c.k).l1find a.loc).filter fresh).bind (·.serve (a.loc.sva % 128) size)
      else none
    match (if copy.isSome ∧ Config.ldcFromL1 s.freeCtr then copy else none) with
    | some bs => (s.endLoad c.k a bs).bump
    | none =>
      let s := if copy.isSome then s.bump else s
      let own : Tab Byte := if a.ext = 0 then ((s.peek a.loc size).getD []).zipIdx.map fun p => (p.2, p.1) else []
      let holds := s.fencesHold a o.1 [a.spanOf o.1]
      ((s.await c.gid o.1 dst).issueHome { a with owner := .load o.1 dst size 0 own none none helper, after := holds }).1

/-- LDC (R194). -/
def execLdc (f : MFmt) (s : State) : Host.Outcome State Fault Refusal :=
  let size := sizeBytes (bitsOf f.md.toNat 3 0)
  globalStep (.ldc f) s (fun x => outVal (memPtr f x)) size size (some .r) true (ldcOne f)

/-- PREF of one fibre (R196): a load of the line that fills L1, or only passes through the stack cache. A failed check, a
missing entry, an external buffer, a line that L1 or the cluster unit holds and a buffer that L1 does not take ask nothing. -/
def prefOne (f : MFmt) (s : State) (c : Cur) (o : Nat × LaneOut) : State :=
  let vf := s.vfOf c.gid
  let ptr := ptrOf o
  let e := s.cachedEntry c.k vf (ptrIdx ptr)
  let l1 := !f.md.toNat.testBit 0
  let sc := scopeOf (bitsOf f.md.toNat 6 4)
  let a := s.accessOf c o.1 ptr e (clsOf 0 e) sc f.ctl.hint.toNat (.load 128) (.pref (if l1 then some sc else none))
  let a := { a with loc := { a.loc with sva := a.loc.sva / 128 * 128 } }
  let no := (s.globalFail c vf 1 0 (some .r) o.1 ptr).isSome || isExternal (ptrIdx ptr) ||
    (l1 && (!a.mayAllocate || a.loc.win || ((s.core c.k).l1find a.loc).isSome || ((s.die (c.k / 16)).cuLine a.loc).isSome ||
      !(s.asideOn a).isEmpty))
  if no then s
  else
    let s := if l1 ∧ sc = .clu then s.recall c.k a.loc false else s
    (s.issueHome a).1

/-- PREF (R196): no register, no fault and no visible effect. -/
def execPref (f : MFmt) (s : State) : Host.Outcome State Fault Refusal :=
  withLanes (.pref f) s (fun x => outVal (memPtr f x)) fun s c g h ex outs =>
    let s := s.retireLanes c g h ex (noVals outs)
    (outs.filter fun o => (g.liveOf outs).contains o.1).foldl (fun s o => prefOne f s c o) s

/-! ### The scratchpad (R180 to R182, R195) -/

/-- A displaced scratchpad offset may be negative: LaneOut carries it above this bias. -/
def padBias : Nat := 2 ^ 22

def padOff (o : Nat × LaneOut) : Int := (ptrOf o : Int) - padBias

def padPtr (f : MFmt) (x : LaneIn) : Nat := ((x.a % 2 ^ 32 : Nat) + f.disp.toInt + padBias).toNat

/-- The lines that n bytes from an offset touch. -/
def padLines (off n : Nat) : List Nat := (List.range ((off + n - 1) / 128 + 1 - off / 128)).map (off / 128 + ·)

/-- The first absent line among those. -/
def Group.absentLine (g : Group) (off n : Nat) : Option Nat := (padLines off n).find? g.absent.contains

def Group.padBytes (g : Group) (off n : Nat) : List Byte := (List.range n).map fun i => tget 0 g.pad (off + i)
def Group.padWrite (g : Group) (off : Nat) (bs : List Byte) : Group :=
  { g with pad := bs.zipIdx.foldl (fun t b => tput 0 t (off + b.2) b.1) g.pad }

/-- Park some fibres within a group. -/
def Group.parkSome (g : Group) (fs : List (Nat × Park)) : Group :=
  { g with fibres := fs.foldl (fun t p => tmod t p.1 fun b => { b with park := p.2 }) g.fibres }

/-- Fibres that stay at the instruction with some parked ones: these, and helpers of a lead among them. -/
def Group.staying (g : Group) (parked : List Nat) (f : Nat) : Bool :=
  parked.contains f ||
  ((tfind g.fibres f).elim false fun b => !b.live) && ((g.lead (f / 4)).elim false parked.contains)

/-- The frame of LDP and STP: checks, parking on absent lines, and the fibres that go on. -/
def padStep (i : Instr) (s : State) (body : LaneIn → LaneOut) (size : Nat) (helpers : Bool)
    (one : State → Cur → Shape → Option (Nat × Nat × Nat) → Nat × LaneOut → State) : Host.Outcome State Fault Refusal :=
  withLanes i s body fun s c g h ex outs =>
    let live := outs.filter fun o => (g.liveOf outs).contains o.1
    match s.raiseFirst c (live.filterMap fun o => padFail g.padLen o.1 (padOff o) size) with
    | some s => s
    | none =>
      let waits := live.filterMap fun o => (g.absentLine (padOff o).toNat size).map fun l => (o.1, Park.pad l)
      let stay := g.staying (waits.map (·.1))
      let go := (if helpers then outs else live).filter fun o => !stay o.1
      let s := s.retireLanes c (g.parkSome waits) h (ex.filter fun x => !stay x) []
      match s.tagLatch c.k c.sl c.gid h (go.map (·.1)) with
      | (s, t) => go.foldl (fun s o => one s c h t o) s

/-- LDP of one fibre: a helper that would fault receives zero. -/
def ldpOne (f : MFmt) (s : State) (c : Cur) (h : Shape) (t : Option (Nat × Nat × Nat)) (o : Nat × LaneOut) : State :=
  let z := sizeElem (bitsOf f.md.toNat 3 0)
  let dst := { retDst h z.2 z.1 with latch := t }
  match s.group? c.gid with
  | none => s
  | some g =>
    if (padFail g.padLen o.1 (padOff o) (z.1 * z.2)).isSome then s.deliver c.gid o.1 dst 0
    else s.deliver c.gid o.1 dst (spread z.1 z.2 (g.padBytes (padOff o).toNat (z.1 * z.2)))

/-- LDP (R195). -/
def execLdp (f : MFmt) (s : State) : Host.Outcome State Fault Refusal :=
  padStep (.ldp f) s (fun x => outVal (padPtr f x)) (sizeBytes (bitsOf f.md.toNat 3 0)) true (ldpOne f)

/-- STP of one fibre. -/
def stpOne (f : MFmt) (s : State) (c : Cur) (_ : Shape) (_ : Option (Nat × Nat × Nat)) (o : Nat × LaneOut) : State :=
  let z := sizeElem (bitsOf f.md.toNat 3 0)
  (s.modGroup c.gid fun g => g.padWrite (padOff o).toNat (gather z.1 z.2 (o.2.val2.getD 0))).poke (.pad c.gid)

/-- STP (R195). -/
def execStp (f : MFmt) (s : State) : Host.Outcome State Fault Refusal :=
  padStep (.stp f) s (fun x => { val := some (padPtr f x), val2 := some x.bb }) (sizeBytes (bitsOf f.md.toNat 3 0)) false
    (stpOne f)

/-! ### WBR, INVR, FENCE, RFENCE (R197, R198) -/

/-- The frame of an instruction over a range: pointer and length of each live fibre; a length of zero asks nothing. -/
def rangeStep (i : Instr) (s : State) (one : State → Cur → Nat → Nat → Nat → State) : Host.Outcome State Fault Refusal :=
  withLanes i s (fun x => { val := some (x.a % 2 ^ 64), val2 := some (x.bb % 2 ^ 32) }) fun s c g h ex outs =>
    let live := outs.filter fun o => (g.liveOf outs).contains o.1 && o.2.val2 != some 0
    let len (o : Nat × LaneOut) : Nat := o.2.val2.getD 0
    match s.bufMissing c.k g.vf (live.map ptrOf) with
    | some idx => s.parkMiss c g.vf idx
    | none =>
      match s.raiseFirst c (live.filterMap fun o => s.globalFail c g.vf (len o) 0 none o.1 (ptrOf o)) with
      | some s => s
      | none =>
        let s := s.retireLanes c g h ex (noVals outs)
        live.foldl (fun s o => one s c o.1 (ptrOf o) (len o)) s

/-- The write-backs of WBR and INVR for one fibre, for which its later accesses wait. What is dirty now, and what waits to
enter L1, is written back; no store that issues later is (DESIGN CHOICE, log 40: R201 leaves a store of the same cycle or
later open). -/
def State.backRange (s : State) (c : Cur) (f : Nat) (sel : Loc → Nat → Bool) : State :=
  let vf := s.vfOf c.gid
  match s.cover c.k vf sel with
  | (s, covered) =>
    let lines := (s.core c.k).l1.filter fun x => x.loc.vf == vf && x.dirty != 0 && sel x.loc 128
    let s := lines.foldl (fun s x => (s.writeBackLine c.k x).1) s
    s.holdAll c.gid f (covered ++ s.backsInFlight c.k vf sel)

/-- WBR (R197). -/
def execWbr (f : CFmt) (s : State) : Host.Outcome State Fault Refusal :=
  rangeStep (.wbr f) s fun s c x ptr len =>
    let vf := s.vfOf c.gid
    s.backRange c x (meetsRange (s.cachedEntry c.k vf (ptrIdx ptr)) vf ptr len)

/-- INVR (R197, R202). -/
def execInvr (f : CFmt) (s : State) : Host.Outcome State Fault Refusal :=
  rangeStep (.invr f) s fun s c x ptr len =>
    let vf := s.vfOf c.gid
    let sel := meetsRange (s.cachedEntry c.k vf (ptrIdx ptr)) vf ptr len
    let s := s.backRange c x sel
    let s := s.modCore c.k fun co => { co with l1 := co.l1.filter fun y => !(y.loc.vf == vf && sel y.loc 128) }
    s.stopFills c.k (fun l => sel l 128) [.grp, .clu]

/-- The end of a fence's release (R216, R218): later stores wait, or every later access waits and the acquire follows. -/
def State.fenceEnd (s : State) (c : Cur) (f : Nat) (kind : Nat) (sc : Scope) (ids : List Nat)
    (range : Option (BitVec 256 × Nat × Nat)) (ptr len : Nat) : State :=
  let vf := s.vfOf c.gid
  let sel (l : Loc) : Bool := match range with
    | some (e, p, n) => meetsRange e vf p n l 128
    | none => true
  let hold (s : State) (ids : List Nat) (stores : Bool) : State :=
    match range with
    | none =>
      if stores then s.modFibre c.gid f fun b =>
        { b with holdStore := (b.holdStore.filter fun i => (tfind s.accs i).isSome) ++ ids }
      else s.holdAll c.gid f ids
    | some _ => s.modFibre c.gid f fun b =>
        { b with holdRange := (b.holdRange.filter fun r => s.outstanding r.2.2.1) ++ [(ptr, len, ids, stores)] }
  if kind = 1 then s.acquire c.k vf sc sel
  else if !s.outstanding ids then (if kind = 0 then s.acquire c.k vf sc sel else s)
  else if kind = 2 then hold s ids true
  else
    let a := Access.make (c.k / 16) (c.k % 16) (.nowhere vf ptr) .cz sc (.fence (some sc) range) (.fence f) c.gid c.pc
    match s.putAside a ids with
    | (s, id) => hold s [id] false

/-- FENCE (R198, R216 to R218, R221). -/
def execFence (f : CFmt) (s : State) : Host.Outcome State Fault Refusal :=
  withLanes (.fence f) s (fun _ => {}) fun s c g h ex outs =>
    let kind := bitsOf f.md.toNat 1 0
    let s := s.retireLanes c g h ex outs
    (g.liveOf outs).foldl (fun s x =>
      match s.clamp g.vf (scopeOf (bitsOf f.md.toNat 6 4)) with
      | (s, sc) =>
        match (if kind = 1 then (s, []) else s.release c.k c.gid x sc fun _ _ => true) with
        | (s, ids) => s.fenceEnd c x kind sc ids none 0 0) s

/-- RFENCE (R198, R219, R221, R222): over a re-keyed window it is not clamped, and orders only at .sys. -/
def execRfence (f : CFmt) (s : State) : Host.Outcome State Fault Refusal :=
  rangeStep (.rfence f) s fun s c x ptr len =>
    let vf := s.vfOf c.gid
    let e := s.cachedEntry c.k vf (ptrIdx ptr)
    let kind := bitsOf f.md.toNat 1 0
    let sc0 := scopeOf (bitsOf f.md.toNat 6 4)
    let win := (entStacks e).any fun t => s.windowOf t (entKey e)
    if win ∧ sc0 ≠ .sys then s
    else
      match (if win then (s, sc0) else s.clamp vf sc0) with
      | (s, sc) =>
        match (if kind = 1 then (s, []) else s.release c.k c.gid x sc (meetsRange e vf ptr len)) with
        | (s, ids) => s.fenceEnd c x kind sc ids (some (e, ptr, len)) ptr len

/-! ### IPREF, IPIN, IUNPIN (R199) -/

/-- Offsets of the code lines that overlap [a, a + n), clipped to the code section. -/
def codeLines (codeLen a n : Nat) : List Nat :=
  let hi := min (a + n) codeLen
  if hi ≤ a then [] else (List.range ((hi - 1) / 64 + 1 - a / 64)).map fun i => 64 * (a / 64 + i)

/-- Lines that groups pin in a core's instruction cache: 32 KiB at most (R199). -/
def State.pinnedLines (s : State) (k : Nat) : Nat :=
  ((s.groups.filter fun p => p.2.k == k).map fun p => p.2.ipins.length).foldl (· + ·) 0

/-- The frame of the three: the code lines of each live fibre. -/
def codeStep (i : Instr) (s : State) (one : State → Cur → Group → List Nat → State) : Host.Outcome State Fault Refusal :=
  withLanes i s (fun x => { val := some (x.a % 2 ^ 32), val2 := some (x.bb % 2 ^ 32) }) fun s c g h ex outs =>
    let live := outs.filter fun o => (g.liveOf outs).contains o.1
    let s := s.retireLanes c g h ex (noVals outs)
    live.foldl (fun s o => one s c g (codeLines g.codeLen (ptrOf o) (o.2.val2.getD 0))) s

/-- The place of a code line. -/
def State.codeLoc (s : State) (g : Group) (off : Nat) : Loc :=
  let p := ptrAdd g.codePtr off
  s.locOf (s.tableEntry g.vf (ptrIdx p)) p

/-- The stack that holds a code line. -/
def State.codeStack (s : State) (g : Group) (off : Nat) : Nat := (s.codeLoc g off).stack

/-- A code line is fetched into the instruction cache, or its 128-byte line into the stack cache (R199). -/
def State.fetchCode (s : State) (k : Nat) (g : Group) (off : Nat) (sc : Bool) : State :=
  if sc then
    let e := s.tableEntry g.vf (ptrIdx (ptrAdd g.codePtr off))
    if s.usable g.vf (ptrIdx (ptrAdd g.codePtr off)) e then (s.homeAt (s.codeLoc g off) .read false none 0 (entCclass e)).1 else s
  else if ((s.core k).iline g.vf g.codePtr off).isSome then s
  else
    match s.codeMem g.vf g.codePtr off with
    | some m => s.putLine k ⟨g.vf, g.codePtr, off, m, !lineParityOk m⟩
    | none => s

/-- IPREF (R199). -/
def execIpref (f : CFmt) (s : State) : Host.Outcome State Fault Refusal :=
  codeStep (.ipref f) s fun s c g lines => lines.foldl (fun s off => s.fetchCode c.k g off (f.md.toNat.testBit 0)) s

/-- A line of the stack cache is pinned for a VF, within its ways and below the limit (R199). -/
def State.pinCode (s : State) (g : Group) (off : Nat) : State :=
  let l := s.codeLoc g off
  let mine := (s.stack l.stack).ipins.filter fun p => p.1 == g.vf
  match (s.physOf l false).2 with
  | .ok pa =>
    if l.pin ∨ ((s.stack l.stack).scFind (pa / 128) g.vf).isNone ∨ (mine.any fun p => p.2.1 == g.codePtr && p.2.2.1 == off) ∨
        16384 ≤ mine.length then s
    else s.modStack l.stack fun k => { k with ipins := k.ipins ++ [(g.vf, g.codePtr, off, pa / 128)] }
  | .error _ => s

/-- IPIN (R199): lines beyond a limit are fetched and not pinned. -/
def execIpin (f : CFmt) (s : State) : Host.Outcome State Fault Refusal :=
  codeStep (.ipin f) s fun s c g lines =>
    lines.foldl (fun s off =>
      let s := s.fetchCode c.k g off (f.md.toNat.testBit 0)
      if f.md.toNat.testBit 0 then s.pinCode g off
      else if ((s.group? c.gid).elim true fun g => g.ipins.contains off) ∨ 512 ≤ s.pinnedLines c.k then s
      else s.modGroup c.gid fun g => { g with ipins := g.ipins ++ [off] }) s

/-- IUNPIN (R199, R50): a poisoned line leaves the cache. -/
def execIunpin (f : CFmt) (s : State) : Host.Outcome State Fault Refusal :=
  codeStep (.iunpin f) s fun s c g lines =>
    lines.foldl (fun s off =>
      if f.md.toNat.testBit 0 then
        s.modStack (s.codeStack g off) fun k =>
          { k with ipins := k.ipins.filter fun p => !(p.1 == g.vf && p.2.1 == g.codePtr && p.2.2.1 == off) }
      else
        let s := s.modGroup c.gid fun g => { g with ipins := g.ipins.filter (· != off) }
        s.modCore c.k fun co => { co with icache := co.icache.filter fun l =>
          !(l.poisoned && l.vf == g.vf && l.codePtr == g.codePtr && l.off == off) }) s

end Sys2Proof.Machine
end

