-- ==== Sys2Proof/Machine/Rv.lean ====
section
/-! DEFINITION. RV64I and RV64M computation on naturals of 64 bits (R261, R262, R364), and the ATOMP routine. -/

namespace Sys2Proof.Machine

/-! ### Fields and immediates -/

def rvOpc (w : Nat) : Nat := bitsOf w 6 0
def rvRd (w : Nat) : Nat := bitsOf w 11 7
def rvF3 (w : Nat) : Nat := bitsOf w 14 12
def rvRs1 (w : Nat) : Nat := bitsOf w 19 15
def rvRs2 (w : Nat) : Nat := bitsOf w 24 20
def rvF7 (w : Nat) : Nat := bitsOf w 31 25
def rvImmI (w : Nat) : Int := toSigned 12 (bitsOf w 31 20)
def rvImmS (w : Nat) : Int := toSigned 12 (bitsOf w 31 25 * 32 + bitsOf w 11 7)
def rvImmB (w : Nat) : Int :=
  toSigned 13 (bitsOf w 31 31 * 4096 + bitsOf w 7 7 * 2048 + bitsOf w 30 25 * 32 + bitsOf w 11 8 * 2)
def rvImmU (w : Nat) : Int := toSigned 32 (bitsOf w 31 12 * 4096)
def rvImmJ (w : Nat) : Int :=
  toSigned 21 (bitsOf w 31 31 * 2 ^ 20 + bitsOf w 19 12 * 4096 + bitsOf w 20 20 * 2048 + bitsOf w 30 21 * 2)

def s64 (x : Nat) : Int := toSigned 64 x
def s32 (x : Nat) : Int := toSigned 32 (x % 2 ^ 32)
def n64 (v : Int) : Nat := narrow 64 v
/-- A 32-bit result, sign-extended. -/
def w64 (v : Int) : Nat := n64 (toSigned 32 (narrow 32 v))

/-! ### Register operations -/

/-- OP of RV64I: f7 is 0, or 0x20 for SUB and SRA. -/
def rvAlu (f3 f7 a b : Nat) : Option Nat :=
  match f3, f7 with
  | 0, 0 => some (n64 (s64 a + s64 b))
  | 0, 0x20 => some (n64 (s64 a - s64 b))
  | 1, 0 => some (n64 ((a : Int) * 2 ^ (b % 64)))
  | 2, 0 => some (if s64 a < s64 b then 1 else 0)
  | 3, 0 => some (if a < b then 1 else 0)
  | 4, 0 => some (a ^^^ b)
  | 5, 0 => some (a >>> (b % 64))
  | 5, 0x20 => some (n64 (s64 a / 2 ^ (b % 64)))
  | 6, 0 => some (a ||| b)
  | 7, 0 => some (a &&& b)
  | _, _ => none

/-- OP-32 of RV64I. -/
def rvAluW (f3 f7 a b : Nat) : Option Nat :=
  match f3, f7 with
  | 0, 0 => some (w64 (s32 a + s32 b))
  | 0, 0x20 => some (w64 (s32 a - s32 b))
  | 1, 0 => some (w64 (s32 a * 2 ^ (b % 32)))
  | 5, 0 => some (w64 ((a % 2 ^ 32) >>> (b % 32) : Nat))
  | 5, 0x20 => some (w64 (s32 a / 2 ^ (b % 32)))
  | _, _ => none

/-- Division rounding toward zero, with the results that RISC-V gives a zero divisor. -/
def rvDiv (a b : Int) : Int := if b = 0 then -1 else a.tdiv b
def rvRem (a b : Int) : Int := if b = 0 then a else a.tmod b

/-- OP of RV64M. -/
def rvMul (f3 a b : Nat) : Nat :=
  match f3 with
  | 0 => n64 (s64 a * s64 b)
  | 1 => n64 (s64 a * s64 b / 2 ^ 64)
  | 2 => n64 (s64 a * b / 2 ^ 64)
  | 3 => a * b / 2 ^ 64
  | 4 => n64 (rvDiv (s64 a) (s64 b))
  | 5 => n64 (rvDiv a b)
  | 6 => n64 (rvRem (s64 a) (s64 b))
  | _ => n64 (rvRem a b)

/-- OP-32 of RV64M. -/
def rvMulW (f3 a b : Nat) : Option Nat :=
  let ua : Int := (a % 2 ^ 32 : Nat)
  let ub : Int := (b % 2 ^ 32 : Nat)
  match f3 with
  | 0 => some (w64 (s32 a * s32 b))
  | 4 => some (w64 (rvDiv (s32 a) (s32 b)))
  | 5 => some (w64 (rvDiv ua ub))
  | 6 => some (w64 (rvRem (s32 a) (s32 b)))
  | 7 => some (w64 (rvRem ua ub))
  | _ => none

/-- OP-IMM: shifts take a six-bit amount. -/
def rvAluI (w a : Nat) : Option Nat :=
  let i := n64 (rvImmI w)
  let sh := bitsOf w 25 20
  match rvF3 w, bitsOf w 31 26 with
  | 1, 0 => rvAlu 1 0 a sh
  | 1, _ => none
  | 5, 0 => rvAlu 5 0 a sh
  | 5, 0x10 => rvAlu 5 0x20 a sh
  | 5, _ => none
  | f3, _ => rvAlu f3 0 a i

/-- OP-IMM-32. -/
def rvAluWI (w a : Nat) : Option Nat :=
  match rvF3 w, rvF7 w with
  | 0, _ => rvAluW 0 0 a (n64 (rvImmI w))
  | 1, 0 => rvAluW 1 0 a (rvRs2 w)
  | 5, 0 => rvAluW 5 0 a (rvRs2 w)
  | 5, 0x20 => rvAluW 5 0x20 a (rvRs2 w)
  | _, _ => none

/-- Conditions of the branches. -/
def rvCond (f3 a b : Nat) : Option Bool :=
  match f3 with
  | 0 => some (a == b)
  | 1 => some (a != b)
  | 4 => some (decide (s64 a < s64 b))
  | 5 => some (decide (s64 b ≤ s64 a))
  | 6 => some (decide (a < b))
  | 7 => some (decide (b ≤ a))
  | _ => none

/-- Bytes of a load, and whether it extends the sign. -/
def rvLoad (f3 : Nat) : Option (Nat × Bool) :=
  match f3 with
  | 0 => some (1, true)
  | 1 => some (2, true)
  | 2 => some (4, true)
  | 3 => some (8, true)
  | 4 => some (1, false)
  | 5 => some (2, false)
  | 6 => some (4, false)
  | _ => none

/-- A loaded value in its register. -/
def rvExtend (n : Nat) (sgn : Bool) (v : Nat) : Nat := if sgn then n64 (toSigned (8 * n) v) else v

/-- Register file: x0 reads as zero and takes no write. -/
def xget (x : Tab Nat) (n : Nat) : Nat := if n = 0 then 0 else tget 0 x n
def xset (x : Tab Nat) (n v : Nat) : Tab Nat := if n = 0 then x else tput 0 x n v

/-! ### ATOMP routines (R259 to R262) -/

def rvEcall : Nat := 0x73

/-- R261: a word of the subset. -/
def routineWord (w : Nat) : Bool :=
  match rvOpc w with
  | 0x37 => true
  | 0x13 => (rvAluI w 0).isSome
  | 0x33 => (rvAlu (rvF3 w) (rvF7 w) 0 0).isSome
  | 0x1B => (rvAluWI w 0).isSome
  | 0x3B => (rvAluW (rvF3 w) (rvF7 w) 0 0).isSome
  | 0x03 => (rvLoad (rvF3 w)).isSome
  | 0x23 => decide (rvF3 w ≤ 3)
  | 0x63 => (rvCond (rvF3 w) 0 0).isSome
  | _ => w == rvEcall

/-- R261 over the sixteen words: those up to the first ECALL. -/
def routineValid (ws : List Word) : Bool :=
  (ws.headD 0) != 0 && (ws.takeWhile fun w => w.toNat != rvEcall).all fun w => routineWord w.toNat

/-- A routine in progress. -/
structure Routine where
  x : Tab Nat
  slot : Nat
  line : List Byte
  executed : Nat
  deriving DecidableEq, Repr

/-- What one instruction comes to: the routine goes on, ends, or faults. -/
inductive RtStep where
  | go (r : Routine)
  | done (r : Routine)
  | fault
  deriving DecidableEq, Repr

/-- One instruction of a routine (R262). -/
def Routine.step (r : Routine) (w : Nat) : RtStep :=
  let a := xget r.x (rvRs1 w)
  let b := xget r.x (rvRs2 w)
  let next (x : Tab Nat) : RtStep := .go { r with x := x, slot := r.slot + 1 }
  let wr (v : Option Nat) : RtStep := match v with
    | some v => next (xset r.x (rvRd w) v)
    | none => .fault
  match rvOpc w with
  | 0x37 => next (xset r.x (rvRd w) (n64 (rvImmU w)))
  | 0x13 => wr (rvAluI w a)
  | 0x33 => wr (rvAlu (rvF3 w) (rvF7 w) a b)
  | 0x1B => wr (rvAluWI w a)
  | 0x3B => wr (rvAluW (rvF3 w) (rvF7 w) a b)
  | 0x03 =>
    match rvLoad (rvF3 w) with
    | some (n, sgn) =>
      let ea := n64 (s64 a + rvImmI w)
      if 128 < ea + n ∨ ea % n ≠ 0 then .fault else next (xset r.x (rvRd w) (rvExtend n sgn (lineNat r.line ea n)))
    | none => .fault
  | 0x23 =>
    let n := 2 ^ rvF3 w
    let ea := n64 (s64 a + rvImmS w)
    if 128 < ea + n ∨ ea % n ≠ 0 then .fault
    else .go { r with line := patch r.line ea (leBytes n b), slot := r.slot + 1 }
  | 0x63 =>
    match rvCond (rvF3 w) a b with
    | some true =>
      let t := 4 * (r.slot : Int) + rvImmB w
      if t < 0 ∨ 64 < t ∨ t % 4 ≠ 0 then .fault else .go { r with slot := (t / 4).toNat }
    | some false => next r.x
    | none => .fault
  | _ => if w = rvEcall then .done { r with slot := r.slot + 1 } else .fault

/-- A routine to its end: at ECALL, past slot 15, or a fault, with the instructions executed; more than 256 fault
(R262). -/
def Routine.run (ws : List Word) : Nat → Routine → Except Nat Routine
  | 0, r => if 16 ≤ r.slot then .ok r else .error r.executed
  | n + 1, r =>
    if 16 ≤ r.slot then .ok r
    else
      match r.step (ws.getD r.slot 0).toNat with
      | .fault => .error (r.executed + 1)
      | .done q => .ok { q with executed := q.executed + 1 }
      | .go q => Routine.run ws n { q with executed := q.executed + 1 }

/-- A routine from its operands (Table 15.7). -/
def runRoutine (ws : List Word) (line : List Byte) (args : List Nat) (eoff : Nat) : Except Nat Routine :=
  let x := (args.zipIdx).foldl (fun x p => xset x (10 + p.2) (p.1 % 2 ^ 64)) (xset [] 5 eoff)
  Routine.run ws 256 ⟨x, 0, line, 0⟩

end Sys2Proof.Machine
end

