-- ==== Sys2Proof/Machine/Sync.lean ====
section
/-! DEFINITION. Class 110 (R243 to R266): atomics, compare-and-swap, counters, CWAIT, MCAS and ATOMP, with their events. -/

namespace Sys2Proof.Machine

/-! ### Combined events (R250) -/

/-- What one fibre asks of an event: fibre, pointer or scratchpad offset, location, and the two operands. -/
structure Ask where
  fib : Nat
  ptr : Nat
  loc : Loc
  x : Nat
  y : Nat
  deriving DecidableEq, Repr

/-- Asks of one line at one place go together. -/
def byLine : List Ask → List (List Ask)
  | [] => []
  | a :: t =>
    let rest := byLine t
    match rest.findIdx? fun g => g.any fun b => b.loc.sameLine a.loc with
    | some i => rest.modify i fun g => a :: g
    | none => [a] :: rest

/-- An event in the scratchpad of a group. -/
def State.padAtomic (s : State) (a : Access) : State :=
  match a.op, s.group? a.gid with
  | .atomic kind steps, some g =>
    let r := runLine kind (g.padBytes a.loc.sva 128) steps
    if r.passed then (s.abandon a).accessFault a cause.counterOverflow 0
    else
      let bs := steps.flatMap fun st => (List.range kind.bytes).map (st.off + ·)
      let s := if kind.isWrite then
          s.modGroup a.gid fun g => bs.foldl (fun g i => g.padWrite (a.loc.sva + i) [r.line.getD i 0]) g
        else s
      (s.endAtomic (16 * a.agent + a.port) a r.olds).poke (.pad a.gid)
  | _, _ => s

/-- An event goes to its place (Table 15.1, R246). -/
def State.runAtomic (s : State) (a : Access) : State :=
  let kept (r : State × Nat) : State :=
    match a.owner with
    | .atomic fs _ _ (some _) => fs.foldl (fun s f => s.holdAll a.gid f [r.2]) r.1
    | _ => r.1
  match a.scope with
  | .grp => s.padAtomic a
  | .clu =>
    if a.isLocal then kept (s.cuEnter a)
    else kept (s.issueHome a)
  | _ =>
    let s := if a.ext = 0 ∧ !a.loc.win then s.l1Prep (16 * a.agent + a.port) a.loc else s
    kept (s.issueHome a)

/-- An event of some fibres: the releases first, then the event (R249). -/
def State.startAtomic (s : State) (a : Access) (fs : List Nat) (dst : RetDst) (rel : Bool) : State :=
  let k := 16 * a.agent + a.port
  let pad := a.scope == .grp
  let holds := if pad then fs.flatMap fun f => s.fencesHold a f [] else (fs.flatMap fun f => s.holdsOf a f) ++ s.asideOn a
  let loads := if a.isLocal then [] else fs.flatMap fun f => s.waitsFor a f
  let acq := match a.owner with
    | .atomic _ _ _ (some _) => true
    | _ => false
  let r := if rel then fs.foldl (fun (r : State × List Nat) f =>
      match r.1.release k a.gid f a.scope fun _ _ => true with
      | (s, ids) => (s, r.2 ++ ids)) (s, []) else (s, [])
  let s := fs.foldl (fun s f => s.await a.gid f dst) r.1
  if s.outstanding (holds ++ r.2) then
    match s.putAside a (holds ++ r.2 ++ loads ++ a.after) with
    -- R217, and the order of scratchpad accesses of a fibre (R182)
    | (s, id) => if pad || acq then fs.foldl (fun s f => s.holdAll a.gid f [id]) s else s
  else s.runAtomic { a with after := loads ++ a.after }

/-- What an instruction of class 110 asks for, from its MOD. -/
structure AtomSpec where
  kind : AKind
  scope : Nat
  acq : Bool
  rel : Bool
  deriving DecidableEq, Repr

/-- The port performs the operation (R248). -/
def AtomSpec.portOk (p : AtomSpec) (kind : Nat) : Bool :=
  match p.kind with
  | .atom op _ _ => kind != 0 || op == 0 || op == 6
  | .cas _ => true
  | _ => false

/-- Old values go to the destination; a helper's receives zero (R249). -/
def State.zeroHelpers (s : State) (gid : Nat) (dst : RetDst) (fs : List Nat) : State :=
  fs.foldl (fun s f => s.deliver gid f dst 0) s

/-- The access of one event, sent behind others. -/
def State.eventAccess (s : State) (c : Cur) (f : MFmt) (p : AtomSpec) (dst : RetDst) (behind : List Nat) (asks : List Ask) : State :=
  match asks with
  | [] => s
  | a0 :: _ =>
    let vf := s.vfOf c.gid
    let fs := asks.map (·.fib)
    let e := s.cachedEntry c.k vf (ptrIdx a0.ptr)
    let cls := clsOf f.clsCode e
    let sc0 := scopeOf p.scope
    match (if p.acq ∨ p.rel ∨ (p.scope ≠ 0 ∧ s.actsOx e cls) then s.clamp vf sc0 else (s, sc0)) with
    | (s, sc) =>
      let off (a : Ask) : Nat := a.loc.sva % 128
      let o : Owner := .atomic fs dst p.kind.bytes (if p.acq then some sc else none)
      if p.scope = 0 then
        let steps := asks.map fun a => (⟨a.fib, off a, a.x, a.y⟩ : AStep)
        let a := Access.make (c.k / 16) (c.k % 16) { a0.loc with sva := a0.loc.sva / 128 * 128 } .cz .grp
          (.atomic p.kind steps) o c.gid c.pc
        s.startAtomic { a with mask := maskOf c.quads fs } fs dst p.rel
      else
        let b := s.accessOf c a0.fib a0.ptr e cls sc f.ctl.hint.toNat (.load 0) o
        let steps := asks.map fun a => (⟨a.fib, off a, a.x, a.y⟩ : AStep)
        let l : Loc := { b.loc with sva := b.loc.sva / 128 * 128 }
        s.startAtomic { b with op := .atomic p.kind steps, loc := l, mask := maskOf c.quads fs, after := behind } fs dst p.rel

/-- The events of one line. A Hexavo port has a frame for each fibre, and they go one after another, in ascending FIBID
(R250, R360). -/
def State.lineEvents (s : State) (c : Cur) (f : MFmt) (p : AtomSpec) (dst : RetDst) (asks : List Ask) : State :=
  if asks.any fun a => a.loc.key == 257 || a.loc.key == 258 then
    (asks.foldl (fun (r : State × List Nat) a =>
      let behind := (r.1.accs.filter fun q => q.2.gid == c.gid && r.2.any q.2.fibs.contains && q.2.loc.sameLine a.loc).map (·.1)
      (r.1.eventAccess c f p dst behind [a], r.2 ++ [a.fib])) (s, [])).1
  else s.eventAccess c f p dst [] asks

/-- The operand halves of CAS, and the one operand of the others. -/
def AtomSpec.ops (p : AtomSpec) (v : Nat) : Nat × Nat :=
  match p.kind with
  | .cas n => (v % 2 ^ (8 * n), v / 2 ^ (8 * n) % 2 ^ (8 * n))
  | k => (v % 2 ^ (8 * k.bytes), 0)

/-- The frame of ATOM, CAS, CADD, CRAISE and CREAD. -/
def atomicStep (i : Instr) (f : MFmt) (s : State) (p : AtomSpec) (operand : LaneIn → Nat) :
    Host.Outcome State Fault Refusal :=
  let size := p.kind.bytes
  let ptr (x : LaneIn) : Nat := if p.scope = 0 then padPtr f x else memPtr f x
  withLanes i s (fun x => { val := some (ptr x), val2 := some (operand x) }) fun s c g h ex outs =>
    let live := outs.filter fun o => (g.liveOf outs).contains o.1
    let dst := retDst h 1 size
    let ask (o : Nat × LaneOut) : Ask :=
      let v := p.ops (o.2.val2.getD 0)
      let e := s.cachedEntry c.k g.vf (ptrIdx (ptrOf o))
      let l : Loc := if p.scope = 0 then .pad g.vf (padOff o).toNat
        else if isExternal (ptrIdx (ptrOf o)) then extLoc e (ptrOf o)
        else s.locOf e (ptrOf o)
      ⟨o.1, ptrOf o, l, v.1, v.2⟩
    let helpers := (outs.filter fun o => !(g.liveOf outs).contains o.1).map (·.1)
    if p.scope = 0 then
      match s.raiseFirst c (live.filterMap fun o => padFail g.padLen o.1 (padOff o) size) with
      | some s => s
      | none =>
        let waits := live.filterMap fun o => (g.absentLine (padOff o).toNat size).map fun l => (o.1, Park.pad l)
        let stay := g.staying (waits.map (·.1))
        let s := s.retireLanes c (g.parkSome waits) h (ex.filter fun x => !stay x) []
        let s := s.zeroHelpers c.gid dst (helpers.filter fun x => !stay x)
        (byLine ((live.filter fun o => !stay o.1).map ask)).foldl (fun s as => s.eventAccess c f p dst [] as) s
    else
      match s.bufMissing c.k g.vf (live.map ptrOf) with
      | some idx => s.parkMiss c g.vf idx
      | none =>
        match s.raiseFirst c (live.filterMap fun o => s.globalFail c g.vf size size (some .a) o.1 (ptrOf o)) with
        | some s => s
        | none =>
          let bad := live.filter fun o => isExternal (ptrIdx (ptrOf o)) &&
            !p.portOk (extKind (s.cachedEntry c.k g.vf (ptrIdx (ptrOf o))))
          match bad with
          | o :: _ => s.faultAt c cause.atomicUnsupported (bad.map (·.1)) 0 (ptrOf o)
          | [] =>
            let s := s.retireLanes c g h ex (noVals outs)
            let s := s.zeroHelpers c.gid dst helpers
            (byLine (live.map ask)).foldl (fun s as => s.lineEvents c f p dst as) s

/-- ATOM (R251, R252). -/
def execAtom (f : MFmt) (s : State) : Host.Outcome State Fault Refusal :=
  let m := f.md.toNat
  atomicStep (.atom f) f s ⟨.atom (bitsOf m 7 5) (m.testBit 4) (m.testBit 3), bitsOf m 2 0, false, false⟩ LaneIn.bb

/-- CAS (R253). -/
def execCas (f : MFmt) (s : State) : Host.Outcome State Fault Refusal :=
  let m := f.md.toNat
  atomicStep (.cas f) f s ⟨.cas (4 * 2 ^ bitsOf m 2 1), bitsOf m 5 3, m.testBit 6, m.testBit 7⟩ LaneIn.bb

/-- CADD (R264). -/
def execCadd (f : MFmt) (s : State) : Host.Outcome State Fault Refusal :=
  atomicStep (.cadd f) f s ⟨.cadd, bitsOf f.md.toNat 5 3, false, f.md.toNat.testBit 7⟩ LaneIn.bb

/-- CRAISE (R264). -/
def execCraise (f : MFmt) (s : State) : Host.Outcome State Fault Refusal :=
  atomicStep (.craise f) f s ⟨.craise, bitsOf f.md.toNat 5 3, false, f.md.toNat.testBit 7⟩ LaneIn.bb

/-- CREAD (R265). -/
def execCread (f : MFmt) (s : State) : Host.Outcome State Fault Refusal :=
  atomicStep (.cread f) f s ⟨.cread, bitsOf f.md.toNat 5 3, f.md.toNat.testBit 6, false⟩ fun _ => 0

/-! ### CWAIT (R266) -/

/-- Cycles of a TMO code (Table 15.9). -/
def tmoCycles (t : Nat) : Option Nat := if t = 0 then none else some (2 ^ (2 * t + 6))

/-- The request of a waiter goes to its place. -/
def State.runWait (s : State) (a : Access) (p : Place) : State :=
  match p with
  | .clu _ => (s.cuEnter a).1
  | _ => ((if a.loc.win then s else s.l1Prep (16 * a.agent + a.port) a.loc).issueHome a).1

/-- Ask the place of a waiter (again). -/
def State.askWaiter (s : State) (w : Nat) : State :=
  match tfind s.waiters w with
  | none => s
  | some x =>
    match s.group? x.gid with
    | none => s
    | some g =>
      let s := { s with waiters := tset s.waiters w { x with askedAt := s.cycleOf g.k } }
      match x.place with
      | .pad _ => s.enterWaiter w
      | _ =>
        let a := Access.make (g.k / 16) (g.k % 16) x.loc x.cls x.scope (.wait w) (.wait w) x.gid x.pc
        let holds := (x.steps.flatMap fun t => s.holdsOf a t.1) ++ s.asideOn a
        let loads := x.steps.flatMap fun t => s.waitsFor a t.1
        if s.outstanding holds then (s.putAside a (holds ++ loads)).1 else s.runWait { a with after := loads } x.place

/-- One waiter for the fibres of a bundle at one counter. -/
def State.newWaiter (s : State) (c : Cur) (f : MFmt) (dst : RetDst) (asks : List Ask) : State :=
  match asks with
  | [] => s
  | a0 :: _ =>
    let vf := s.vfOf c.gid
    let m := f.md.toNat
    let e := s.cachedEntry c.k vf (ptrIdx a0.ptr)
    let cls := clsOf f.clsCode e
    let acq := m.testBit 6
    let sc0 := scopeOf (bitsOf m 5 3)
    match (if acq ∨ (sc0 ≠ .grp ∧ s.actsOx e cls) then s.clamp vf sc0 else (s, sc0)) with
    | (s, sc) =>
      let w := s.nextId
      let place : Place := match sc0 with
        | .grp => .pad c.gid
        | .clu => if a0.loc.win then .home a0.loc.stack else .clu (c.k / 16)
        | _ => .home a0.loc.stack
      let x : Waiter :=
        { place := place, vf := vf, gid := c.gid, pc := c.pc, loc := a0.loc, off := a0.loc.sva, cls := cls, scope := sc,
          steps := asks.map fun a => (a.fib, a.x), dst := dst, acq := if acq then some sc else none,
          deadline := (tmoCycles (bitsOf m 2 0)).map (s.cycleOf c.k + ·), entered := false, askedAt := s.cycleOf c.k,
          replies := [], replyVec := [] }
      let s := { s with nextId := w + 1, waiters := tset s.waiters w x }
      (s.park c.gid (asks.map (·.fib)) (.cwait w)).askWaiter w

/-- Asks of one counter go together. -/
def byCounter : List Ask → List (List Ask)
  | [] => []
  | a :: t =>
    let rest := byCounter t
    match rest.findIdx? fun g => g.any fun b => b.loc.stack == a.loc.stack && b.loc.sva == a.loc.sva && b.loc.key == a.loc.key with
    | some i => rest.modify i fun g => a :: g
    | none => [a] :: rest

/-- CWAIT (R266): the fibres park at their PC until their reply. -/
def execCwait (f : MFmt) (s : State) : Host.Outcome State Fault Refusal :=
  let sc := bitsOf f.md.toNat 5 3
  let ptr (x : LaneIn) : Nat := if sc = 0 then padPtr f x else memPtr f x
  withLanes (.cwait f) s (fun x => { val := some (ptr x), val2 := some (x.bb % 2 ^ 64) }) fun s c g h ex outs =>
    let live := outs.filter fun o => (g.liveOf outs).contains o.1
    let dst := retDst h 1 8
    let ask (o : Nat × LaneOut) : Ask :=
      let l : Loc := if sc = 0 then .pad g.vf (padOff o).toNat
        else s.locOf (s.cachedEntry c.k g.vf (ptrIdx (ptrOf o))) (ptrOf o)
      ⟨o.1, ptrOf o, l, o.2.val2.getD 0, 0⟩
    let fails := if sc = 0 then live.filterMap fun o => padFail g.padLen o.1 (padOff o) 8
      else live.filterMap fun o => s.globalFail c g.vf 8 8 (some .a) o.1 (ptrOf o)
    match (if sc = 0 then none else s.bufMissing c.k g.vf (live.map ptrOf)) with
    | some idx => s.parkMiss c g.vf idx
    | none =>
      match s.raiseFirst c fails with
      | some s => s
      | none =>
        match (if sc = 0 then [] else live.filter fun o => isExternal (ptrIdx (ptrOf o))) with
        | o :: t => s.faultAt c cause.atomicUnsupported (o.1 :: t.map (·.1)) 0 (ptrOf o)
        | [] =>
          let stay := g.staying (live.map (·.1))
          let s := s.setGroup c.gid (g.advance (ex.filter fun x => !stay x) c.pc)
          let s := s.zeroHelpers c.gid dst ((outs.filter fun o => !(live.any fun q => q.1 == o.1)).map (·.1))
          ((byCounter (live.map ask)).foldl (fun s as => s.newWaiter c f dst as) s).finish c

/-- A fibre of a CWAIT receives its reply: the destination, the acquire, and the next slot. -/
def State.endWait (s : State) (w f v : Nat) : State :=
  match tfind s.waiters w with
  | none => s
  | some x =>
    match s.group? x.gid with
    | none => s
    | some g =>
      let s := if x.cls ≠ .rx ∧ x.scope.isWide ∧ !x.loc.win then
          s.modAgent (g.k / 16) fun a => { a with vec := vMerge a.vec x.replyVec }
        else s
      let s := s.deliver x.gid f x.dst v
      let s := s.modGroup x.gid fun g => ((g.parkSome [(f, .none)]).advance [f] x.pc).alignHelpers [f / 4]
      match x.acq with
      | some sc => s.acquire g.k x.vf sc fun _ => true
      | none => s

/-- CWAIT_REPLY (R266 steps 2, 4 and 5). -/
def execCwaitReply (w : Nat) (s : State) : Host.Outcome State Fault Refusal :=
  match tfind s.waiters w with
  | some x =>
    match x.replies with
    | (f, v) :: t =>
      let s := s.endWait w f v
      .next { s with waiters := if t.isEmpty ∧ x.steps.isEmpty then tdel s.waiters w
                                else tset s.waiters w { x with replies := t } }
    | [] => .next s
  | none => .next s

/-- CWAIT_TIMEOUT (R266 step 3): the place removes the entry and answers with the counter's current value. -/
def execCwaitTimeout (w : Nat) (s : State) : Host.Outcome State Fault Refusal :=
  match tfind s.waiters w with
  | some x =>
    match s.group? x.gid, x.deadline with
    | some g, some d =>
      if x.steps.isEmpty ∨ s.cycleOf g.k < d then .next s
      else
        let now : Option Nat := match x.place with
          | .clu _ => (s.counterAt x).orElse fun _ => (s.peek x.loc 8).map leNat
          | _ => s.counterAt x
        match now with
        | some v =>
          let y : Waiter := { x with steps := [], entered := false, replies := x.replies ++ x.steps.map fun t => (t.1, v)
                                     replyVec := s.waitVec x }
          .next { s with waiters := tset s.waiters w y }
        | none =>
          let s := { s with waiters := tdel s.waiters w }
          .next (s.lateFault x.gid cause.translation x.pc (s.laneMask x.gid (x.steps.map Prod.fst)) ((x.steps.headD (0, 0)).1) 0 x.loc.eptr)
    | _, _ => .next s
  | none => .next s

/-- CWAIT_RESEND (R266): a CWAIT that holds no entry is sent again every 256 cycles. -/
def execCwaitResend (w : Nat) (s : State) : Host.Outcome State Fault Refusal :=
  match tfind s.waiters w with
  | some x =>
    match s.group? x.gid with
    | some g =>
      let inFlight := s.accs.any fun p => p.2.owner == .wait w
      if x.entered || x.steps.isEmpty || inFlight || decide (s.cycleOf g.k < x.askedAt + 256) || g.halted then .next s
      else .next (s.askWaiter w)
    | none => .next s
  | none => .next s

/-- A CWAIT at its home. -/
def State.homeWait (s : State) (m : Nat) (a : Access) (w : Nat) : State :=
  match s.homeAt a.loc .read false none a.hint a.cclass with
  | (s, .wait) => s
  | (s, .fault cs) => s.answer m a (.fault cs 0) []
  | (s, .drop) => s.answer m a (.fault cause.memory 0) []
  | (s, .at _ _) => (s.enterWaiter w).answer m a .ack []

/-! ### MCAS (R254 to R258, R270) -/

/-- The entries of a block: pointer, expected value, new value (Table 15.4). -/
def mcasBlock (g : Group) (off n : Nat) : List (Nat × Nat × Nat) :=
  (List.range n).map fun i =>
    let w (j : Nat) : Nat := leNat (g.padBytes (off + 24 * i + 8 * j) 8)
    (w 0, w 1, w 2)

/-- The result word (Table 15.5). -/
def mcasWord (m : Nat) : Nat := (if m = 0 then 2 ^ 31 else 0) + m

/-- Ascending and without repeats. -/
def ascending (l : List Nat) : List Nat := l.foldl (fun t x => fibInsert x t) []

/-- Send an MCAS to its coordinator. -/
def State.sendMcas (s : State) (x : Nat) (after : List Nat) : State :=
  match tfind s.mcas x with
  | none => s
  | some q =>
    match s.group? q.gid, q.ents.find? fun e => e.loc.stack == q.homes.headD 0 with
    | some g, some e =>
      let a := Access.make (g.k / 16) (g.k % 16) e.loc q.cls q.scope (.mcas x) (.mcas x) q.gid q.pc
      let s := q.ents.foldl (fun s e => if e.loc.win then s else
        (s.l1Prep g.k e.loc).cuPrep { a with loc := e.loc }) s
      -- the write-backs of the operands' lines reach their homes first (R246)
      let backs := s.backsInFlight g.k q.vf fun l _ => q.ents.any fun e => e.loc.sameLine l
      match s.issueHome { a with after := after ++ backs, mask := 0 } with
      | (s, id) =>
        let q' : Mcas := { q with access := id, phase := .sent, locked := [], committed := [], lockedAt := none, result := none }
        { s with mcas := tset s.mcas x q' }
    | _, _ => s

/-- One fibre's MCAS after its checks: it parks at its PC until the reply. -/
def State.startMcas (s : State) (c : Cur) (f : CFmt) (dst : RetDst) (fib off n : Nat) : State :=
  match s.group? c.gid with
  | none => s
  | some g =>
    let m := f.md.toNat
    let cls : Cls := if f.clsCode = 3 then .ox else .cz
    let sc0 := scopeOf (bitsOf m 5 3)
    let es := (mcasBlock g off n).map fun t => s.cachedEntry c.k g.vf (ptrIdx t.1)
    match (if m.testBit 6 || m.testBit 7 || es.any fun e => s.actsOx e cls then s.clamp g.vf sc0 else (s, sc0)) with
    | (s, sc) =>
      let ents : List McasEnt := (mcasBlock g off n).map fun t =>
        { loc := s.locOf (s.cachedEntry c.k g.vf (ptrIdx t.1)) t.1, expect := t.2.1, new := t.2.2, seen := none, place := none, vec := [] }
      let x := s.nextId
      let q : Mcas :=
        { gid := c.gid, fib := fib, pc := c.pc, vf := g.vf, block := off, ents := ents, scope := sc, cls := cls,
          acq := if m.testBit 6 then some sc else none, dst := dst, homes := ascending (ents.map (·.loc.stack)), locked := [],
          committed := [], phase := .sent, lockedAt := none, resendAt := 0, cancel := false, result := none, fault := none,
          access := 0 }
      match (if m.testBit 7 then s.release c.k c.gid fib sc fun _ _ => true else (s, [])) with
      | (s, ids) =>
        let s := { s with nextId := x + 1, mcas := tset s.mcas x q }
        let spans := (mcasBlock g off n).map fun t => (t.1, 8)
        let a := Access.make (c.k / 16) (c.k % 16) (.nowhere g.vf 0) cls sc (.mcas x) (.mcas x) c.gid c.pc
        let after := ids ++ s.fencesHold a fib spans ++
          (if es.any fun e => s.actsOx e cls then s.earlier c.gid fib sc else s.earlierLoads c.gid fib)
        (s.park c.gid [fib] (.mcas x)).sendMcas x after

/-- MCAS (R254, R255): the checks in the order scratchpad, presence, entries, port, repeated entries. -/
def execMcas (f : CFmt) (s : State) : Host.Outcome State Fault Refusal :=
  let n := bitsOf f.md.toNat 2 0 + 2
  withLanes (.mcas f) s (fun x => outVal (x.a % 2 ^ 32)) fun s c g h ex outs =>
    let live := outs.filter fun o => (g.liveOf outs).contains o.1
    let dst := retDst h 1 4
    let padBad (o : Nat × LaneOut) : Option Fail :=
      if ptrOf o % 8 ≠ 0 then some ⟨o.1, 1, cause.misaligned, 0⟩
      else if g.padLen < ptrOf o + 24 * n then some ⟨o.1, 2, cause.padBounds, 0⟩
      else none
    match s.raiseFirst c (live.filterMap padBad) with
    | some s => s
    | none =>
      let waits := live.filterMap fun o => (g.absentLine (ptrOf o) (24 * n)).map fun l => (o.1, Park.pad l)
      let ready := live.filter fun o => !(waits.any fun w => w.1 == o.1)
      let ptrs (o : Nat × LaneOut) : List Nat := (mcasBlock g (ptrOf o) n).map (·.1)
      match s.bufMissing c.k g.vf (ready.flatMap ptrs) with
      | some idx => s.parkMiss c g.vf idx
      | none =>
        let bad (o : Nat × LaneOut) : List Fail := (ptrs o).filterMap fun p => s.globalFail c g.vf 8 8 (some .a) o.1 p
        match s.raiseFirst c (ready.flatMap bad) with
        | some s => s
        | none =>
          let out := ready.filter fun o => (ptrs o).any fun p => isExternal (ptrIdx p)
          let twice := ready.filter fun o => !(ptrs o).Nodup
          match out, twice with
          | o :: t, _ => s.faultAt c cause.atomicUnsupported (o.1 :: t.map (·.1)) 0 (((ptrs o).find? fun p => isExternal (ptrIdx p)).getD 0)
          | [], o :: t => s.faultAt c cause.mcasParam (o.1 :: t.map (·.1)) 0 0
          | [], [] =>
            let stay := g.staying (live.map (·.1))
            let s := s.setGroup c.gid ((g.parkSome waits).advance (ex.filter fun x => !stay x) c.pc)
            let s := s.zeroHelpers c.gid dst ((outs.filter fun o => !(live.any fun q => q.1 == o.1)).map (·.1))
            (ready.foldl (fun s o => s.startMcas c f dst o.1 (ptrOf o) n) s).finish c

/-- Release every lock of an MCAS. -/
def State.unlockAll (s : State) (x : Nat) : State :=
  (List.range 16).foldl (fun s st =>
    if (s.stack st).locks.any fun l => l.2 == x then
      s.modStack st fun k => { k with locks := k.locks.filter fun l => l.2 != x }
    else s) s

/-- The home takes a request off its lane, whose lines it keeps: the lane goes on behind it. -/
def State.acceptAt (s : State) (a : Access) : State :=
  match a.seq with
  | some n =>
    if a.queued then s
    else s.modStack a.loc.stack fun k =>
      { k with expectSeq := tput 0 k.expectSeq a.laneKey ((n + 1) % 2 ^ 16)
               laneVec := if a.causal then tset k.laneVec a.laneKey a.vec else k.laneVec
               fr := if a.causal then tput 0 k.fr a.laneKey (tget 0 a.vec a.agent) else k.fr }
  | none => s

/-- Lines that a holder keeps at a stack, each once. -/
def State.keepLines (s : State) (st holder : Nat) (lines : List Nat) : State :=
  s.modStack st fun k => { k with locks := (k.locks.filter fun l => l.2 != holder) ++ lines.map fun l => (l, holder) }

/-- An operation beyond its VF's quota waits at its home, off its lane, so that other VFs see nothing of it (R268). Its lines
are kept for it, so that what follows it in its lane is not seen before it. -/
def State.setAside (s : State) (m : Nat) (a : Access) (holder : Nat) (lines : List Nat) : State :=
  if a.queued then s
  else
    let s := (s.acceptAt a).keepLines a.loc.stack holder lines
    { s with accs := tset s.accs m { a with queued := true } }

/-- The coordinator's reply, kept for a reissue (R258). -/
def State.replyMcas (s : State) (m : Nat) (r : Reply) (v : Tab Nat) : State :=
  match tfind s.accs m with
  | none => s
  | some a =>
    let s := match a.seq with
      | some n => s.modStack a.loc.stack fun k =>
          { k with kept := tset k.kept a.portKey (last64 (tget [] k.kept a.portKey ++ [(n, r)])) }
      | none => s
    let path := (takeHome a.legs).elim (orderedRoute a.agent a.loc.stack).reverse (·.1)
    let a := { a with performed := true, reply := some r, replyVec := v, legs := [.back path] }
    { s with accs := tset s.accs m a }

/-- Lines of an MCAS at a home, where its entries land; none where one has to wait. -/
def State.mcasPlaces (s : State) (x : Nat) : List McasEnt → List (McasEnt × Bool × Nat) →
    State × Option (Except (Nat × Nat) (List (McasEnt × Bool × Nat)))
  | [], acc => (s, some (.ok acc))
  | e :: t, acc =>
    match s.homeAt e.loc .atomic false (some x) 0 0 with
    | (s, .wait) => (s, none)
    | (s, .fault cs) => (s, some (.error (cs, e.loc.eptr)))
    | (s, .drop) => (s, some (.error (cause.memory, e.loc.eptr)))
    | (s, .at pin addr) => s.mcasPlaces x t (acc ++ [(e, pin, addr)])

/-- LOCKQ of a VF at a stack: a nonzero value below 8 counts as 8 (R268). -/
def State.lockQuota (s : State) (st vf : Nat) : Nat :=
  let q := bitsOf (tget 0 (s.stack st).aquota vf).toNat 19 8
  if q = 0 then 0 else max 8 q

/-- Lines that a VF's MCAS hold locked at a stack. -/
def State.lockedBy (s : State) (st vf : Nat) : Nat :=
  ((s.stack st).locks.filter fun l => (tfind s.mcas l.2).elim false fun q => q.vf == vf && q.locked.contains st).length

/-- LOCK_AND_READ (R256): the next home meets the gate, takes its locks, checks that it can write, and reads. -/
def execLockAndRead (x st : Nat) (s : State) : Host.Outcome State Fault Refusal :=
  match tfind s.mcas x with
  | none => .next s
  | some q =>
    match tfind s.accs q.access with
    | none => .next s
    | some a =>
      let next := q.homes.find? fun h => !q.locked.contains h
      let first := q.locked.isEmpty
      let turn := if first then decide (a.atHome ∧ s.turnOf a = .go)
        else !a.causal || s.gate st a.agent a.vec
      -- the coordinator's request to another home (R258): a stack it cannot reach ends the lock phase
      let away := !first && !s.routeOpen (16 + a.loc.stack) (((q.ents.find? fun e => e.loc.stack == st).elim a.loc (·.loc)))
      if q.phase = .cancelled ∧ a.atHome ∧ first ∧ turn then .next ((s.acceptAt a).replyMcas q.access .ack [])
      else if next ≠ some st ∨ !turn ∨ !(q.phase = .sent ∨ q.phase = .locking) then .next s
      else if away then
        let s := { s.cutOff st with mcas := tset s.mcas x { q with phase := .faulted } }
        .next ((s.unlockAll x).replyMcas q.access (.fault cause.fabricTimeout st) [])
      else
        let here := q.ents.filter fun e => e.loc.stack == st
        match s.mcasPlaces x here [] with
        | (_, none) => .next s
        | (t, some (.error (cs, ptr))) =>
          let t := if first then t.acceptAt a else t
          let t := { t with accs := tmod t.accs q.access fun a => { a with loc := { a.loc with eptr := ptr } } }
          let t := { t with mcas := tset t.mcas x { q with phase := .faulted } }
          .next ((t.unlockAll x).replyMcas q.access (.fault cs 0) [])
        | (t, some (.ok ps)) =>
          let lines := ascending (ps.map fun p => lockKey p.2.1 p.2.2)
          if s.lockQuota st q.vf < s.lockedBy st q.vf + lines.length then .next (if first then t.setAside q.access a x lines else s)
          else
            let t := if first then t.acceptAt a else t.takeLane (16 + a.loc.stack) ((here.head?).elim a.loc (·.loc)) none
            let seen (e : McasEnt) : McasEnt :=
              match ps.find? fun p => p.1 == e with
              | some p => { e with seen := some (leNat (t.homeBytes p.2.1 p.2.2 8)), place := some p.2
                                   vec := (t.stack st).lineVec p.2.1 p.2.2 e.loc.vf }
              | none => e
            let t := t.keepLines st x lines
            let q' : Mcas := { q with
              ents := q.ents.map seen
              locked := q.locked ++ [st]
              phase := .locking
              lockedAt := some (q.lockedAt.getD s.ns) }
            .next { t with mcas := tset t.mcas x q' }

/-- MISMATCH of Table 15.5. -/
def Mcas.mismatch (q : Mcas) : Nat :=
  (q.ents.zipIdx).foldl (fun m e => if e.1.seen = some e.1.expect then m else m + 2 ^ e.2) 0

/-- One home writes its words on a commit where the lock phase found them, in ascending index; the error is that of a bank
fenced since then (R258). -/
def State.mcasWrite (s : State) (vec : Option (Tab Nat)) : List McasEnt → State × Option Nat
  | [] => (s, none)
  | e :: t =>
    match e.place with
    | some (pin, addr) =>
      if !pin && (s.stack e.loc.stack).bankFenced e.loc.stack (addr % 2 ^ 36 / 128) then ((s.mcasWrite vec t).1, some cause.memory)
      else (s.homeWrite e.loc pin addr (atOffsets (addr % 128) (leBytes 8 e.new)) vec).mcasWrite vec t
    | none => s.mcasWrite vec t

/-- MCAS_COMMIT (R256): a home applies the commit or the abort and releases its locks; after the last one the
coordinator answers. -/
def execMcasCommit (x st : Nat) (s : State) : Host.Outcome State Fault Refusal :=
  match tfind s.mcas x with
  | none => .next s
  | some q =>
    match tfind s.accs q.access with
    | none => .next s
    | some a =>
      let all := q.homes.all q.locked.contains
      if !all ∨ !q.homes.contains st ∨ q.committed.contains st ∨ !(q.phase = .locking ∨ q.phase = .committing) then .next s
      else
        let m := q.mismatch
        let here := q.ents.filter fun e => e.loc.stack == st
        -- a home that the coordinator no longer reaches keeps its old values and is degraded (R258)
        let lost := st ≠ a.loc.stack ∧ !s.routeOpen (16 + a.loc.stack) ((here.head?).elim a.loc (·.loc))
        let s := if st = a.loc.stack then s else if lost then s.cutOff st
          else s.takeLane (16 + a.loc.stack) ((here.head?).elim a.loc (·.loc)) none
        match (if lost then (s, if m = 0 then some cause.fabricTimeout else none)
               else if m = 0 then s.mcasWrite a.stored here else (s, none)) with
        | (s, err) =>
          let s := s.modStack st fun k => { k with locks := k.locks.filter fun l => l.2 != x }
          let q : Mcas := { q with
            committed := q.committed ++ [st]
            phase := .committing
            result := some m
            fault := match err with
              | some cs => some (cs, st)
              | none => q.fault }
          if q.homes.all q.committed.contains then
            let v := if a.causal then q.ents.foldl (fun v e => vMerge v e.vec) [] else []
            let s := { s with mcas := tset s.mcas x { q with phase := .done } }
            .next (s.replyMcas q.access (match q.fault with
              | some (cs, h) => .fault cs h
              | none => .olds [(q.fib, mcasWord m)]) v)
          else .next { s with mcas := tset s.mcas x q }

/-- MCAS_LOCK_TIMEOUT (R257): not every lock within 2 us of the first. -/
def execMcasLockTimeout (x : Nat) (s : State) : Host.Outcome State Fault Refusal :=
  match tfind s.mcas x with
  | some q =>
    match q.lockedAt with
    | some t =>
      if q.phase = .locking ∧ !(q.homes.all q.locked.contains) ∧ t + 2000 ≤ s.ns then
        .next (({ s with mcas := tset s.mcas x { q with phase := .restart } }.unlockAll x).replyMcas q.access .ack [])
      else .next s
    | none => .next s
  | none => .next s

/-- MCAS_RESTART (R257). -/
def execMcasRestart (x : Nat) (s : State) : Host.Outcome State Fault Refusal :=
  match tfind s.mcas x with
  | some q =>
    match s.group? q.gid with
    | some g =>
      if q.phase = .restart ∧ (tfind s.accs q.access).isNone ∧ q.resendAt ≤ s.cycleOf g.k ∧ !g.halted ∧ !q.cancel then
        .next (s.sendMcas x [])
      else .next s
    | none => .next s
  | none => .next s

/-- The fibre of an MCAS goes back to executing it. -/
def State.unparkMcas (s : State) (x : Nat) (q : Mcas) : State :=
  { s.modFibre q.gid q.fib fun b => { b with park := if b.park = .mcas x then .none else b.park } with mcas := tdel s.mcas x }

/-- MCAS_CANCEL (R257): the cancel of a halt, unless the commit came first. -/
def execMcasCancel (x : Nat) (s : State) : Host.Outcome State Fault Refusal :=
  match tfind s.mcas x with
  | some q =>
    if !q.cancel then .next s
    else
      match q.phase with
      | .sent => .next { s with mcas := tset s.mcas x { q with phase := .cancelled, cancel := false } }
      | .locking =>
        .next (({ s with mcas := tset s.mcas x { q with phase := .cancelled, cancel := false } }.unlockAll x).replyMcas
          q.access .ack [])
      | .restart => if (tfind s.accs q.access).isNone then .next (s.unparkMcas x q) else .next s
      | _ => .next s
  | none => .next s

/-- The reply of an MCAS arrives (R255, R257): the block, the destination and the PC, or the resend, or the fibre back
at its PC. -/
def State.mcasArrives (s : State) (x : Nat) : State :=
  match tfind s.mcas x with
  | none => s
  | some q =>
    match s.group? q.gid with
    | none => { s with mcas := tdel s.mcas x }
    | some g =>
      match q.phase with
      | .done =>
        let m := q.result.getD 0
        let s := s.modGroup q.gid fun g => (q.ents.zipIdx).foldl (fun g e =>
          if m.testBit e.2 then g.padWrite (q.block + 24 * e.2 + 8) (leBytes 8 (e.1.seen.getD 0)) else g) g
        let s := (s.poke (.pad q.gid)).deliver q.gid q.fib q.dst (mcasWord m)
        let s := s.modGroup q.gid fun g => ((g.parkSome [(q.fib, .none)]).advance [q.fib] q.pc).alignHelpers [q.fib / 4]
        let s := { s with mcas := tdel s.mcas x }
        match q.acq with
        | some sc => s.acquire g.k q.vf sc fun _ => true
        | none => s
      | .restart =>
        { s with mcas := tset s.mcas x { q with resendAt := s.cycleOf g.k + 256 + 64 * (q.fib % 16) } }
      | .cancelled => s.unparkMcas x q
      | _ => s

/-! ### ATOMP (R259 to R262) -/

/-- ATOMP of one fibre. -/
def atompOne (f : MFmt) (s : State) (c : Cur) (h : Shape) (o : Nat × LaneOut) : State :=
  let vf := s.vfOf c.gid
  let m := f.md.toNat
  let ptr := ptrOf o
  let e := s.cachedEntry c.k vf (ptrIdx ptr)
  let cls := clsOf f.clsCode e
  let dst := retDst h 1 8
  match (if m.testBit 6 ∨ m.testBit 7 ∨ s.actsOx e cls then s.clamp vf .dev else (s, .dev)) with
  | (s, sc) =>
    let v := o.2.val2.getD 0
    let args := [0, 1, 2, 3].map fun i => v / 2 ^ (64 * i) % 2 ^ 64
    let a := s.accessOf c o.1 ptr e cls sc f.ctl.hint.toNat (.atomp (bitsOf m 5 0) args (ptr % 128))
      (.atomic [o.1] dst 8 (if m.testBit 6 then some sc else none))
    let a := { a with loc := { a.loc with sva := a.loc.sva / 128 * 128 } }
    s.startAtomic a [o.1] dst (m.testBit 7)

/-- ATOMP (R259): each fibre's is its own event. -/
def execAtomp (f : MFmt) (s : State) : Host.Outcome State Fault Refusal :=
  withLanes (.atomp f) s (fun x => { val := some (memPtr f x), val2 := some x.bb }) fun s c g h ex outs =>
    let live := outs.filter fun o => (g.liveOf outs).contains o.1
    match s.bufMissing c.k g.vf (live.map ptrOf) with
    | some idx => s.parkMiss c g.vf idx
    | none =>
      match s.raiseFirst c (live.filterMap fun o => s.globalFail c g.vf 1 1 (some .a) o.1 (ptrOf o)) with
      | some s => s
      | none =>
        match live.filter fun o => isExternal (ptrIdx (ptrOf o)) with
        | o :: t => s.faultAt c cause.atomicUnsupported (o.1 :: t.map (·.1)) 0 (ptrOf o)
        | [] =>
          let s := s.retireLanes c g h ex (noVals outs)
          let s := s.zeroHelpers c.gid (retDst h 1 8) ((outs.filter fun o => !(live.any fun q => q.1 == o.1)).map (·.1))
          live.foldl (fun s o => atompOne f s c h o) s

/-- The sixteen words of a routine: cached, or fetched from the context's table (R259). -/
def State.routine (s : State) (st vf idx : Nat) : Option (List Word) :=
  match tfind (s.stack st).routines (64 * vf + idx) with
  | some ws => some ws
  | none =>
    (s.peekPtr vf (ptrAdd (s.ctx vf).rtptr (64 * idx)) 64).map fun bs =>
      (List.range 16).map fun i => BitVec.ofNat 32 (lineNat bs (4 * i) 4)

/-- ATOMPs of a VF at a home before this one (ATPQ, Table 15.10). -/
def State.atompAhead (s : State) (m : Nat) (a : Access) : Nat :=
  (s.accs.filter fun p => decide (p.1 < m) && p.2.atHome && !p.2.performed && p.2.loc.stack == a.loc.stack &&
    p.2.loc.vf == a.loc.vf &&
    match p.2.op with
    | .atomp _ _ _ => true
    | _ => false).length

/-- ATOMP_ROUTINE (R259 to R262): under quotas, a free abacus core and the abacus budget, the routine runs on the line. -/
def execAtompRoutine (m : Nat) (s : State) : Host.Outcome State Fault Refusal :=
  match tfind s.accs m with
  | none => .next s
  | some a =>
    match a.op with
    | .atomp idx args eoff =>
      let st := a.loc.stack
      let vf := a.loc.vf
      let k := s.stack st
      let q := tget 0 k.aquota vf
      let short := decide (bitsOf q.toNat 7 0 ≤ s.atompAhead m a) || decide (s.lockQuota st vf < s.lockedBy st vf + 1) ||
        decide (8 ≤ k.abacus.length) || decide ((s.ctx vf).share 40 128000 ≤ tget 0 k.abUsed vf)
      let holder := 2 ^ 40 + m
      let done (s : State) : State := if a.queued then s.keepLines st holder [] else s
      if !a.atHome then .next s
      else
        match s.turnOf a with
        | .wait => .next s
        | .again r => .next (s.answerAgain m a (some r))
        | .forget => .next (s.answerAgain m a none)
        | .go =>
          match s.homeAt a.loc .atomic false (some holder) a.hint a.cclass with
          | (s, .wait) => .next s
          | (s, .fault cs) => .next ((done s).answer m a (.fault cs 0) [])
          | (s, .drop) => .next ((done s).answer m a (.fault cause.memory 0) [])
          | (t, .at pin addr) =>
            if short then .next (s.setAside m a holder [lockKey pin addr])
            else
            let s := done t
            let line := s.homeLine pin addr
            let ws := s.routine st vf idx
            let s := match ws with
              | some w => s.modStack st fun k => { k with routines := tset k.routines (64 * vf + idx) w }
              | none => s
            let charge (s : State) (n : Nat) : State :=
              s.modStack st fun k => { k with abUsed := tset k.abUsed vf (tget 0 k.abUsed vf + n) }
            match (if (ws.elim false routineValid) then runRoutine (ws.getD []) line args eoff else .error 0) with
            | .error n => .next ((charge s n).answer m a (.fault cause.atomp 0) [])
            | .ok r =>
              let v := s.replyVecAt a pin addr
              let bs : Tab Byte := (List.range 128).filterMap fun i =>
                if r.line.getD i 0 = line.getD i 0 then none else some (i, r.line.getD i 0)
              let s := if bs.isEmpty then s else s.homeWrite a.loc pin addr bs a.stored
              .next ((charge s r.executed).answer m a (.olds [(a.fibs.headD 0, xget r.x 10)]) v)
    | _ => .next s

end Sys2Proof.Machine
end

