-- ==== Sys2Proof/Machine/Fabric.lean ====
section
/-! DEFINITION. The stack fabric (R203 to R240): messages and their routers, homes, replies, beats, reissues and lost
dies; and traffic that leaves the package (R357, R359, R360). -/

namespace Sys2Proof.Machine

/-! ### Routers (R223 to R229, R333) -/

/-- What a router does with one copy of a message: the copy afterwards, or none where it is discarded. -/
structure Hop where
  state : State
  leg : Option Leg
  moved : Bool

/-- One hop of one copy (R223 to R229, R333). A bad flit discards it (R234). -/
def State.hop (s : State) (a : Access) (bad : Bool) : Leg → Hop
  | .out (t :: rest) path =>
    let frm := path.headD (nodeOf a.agent)
    let link := linkOf frm t
    if bad then ⟨s, none, true⟩
    else if frm ≠ t ∧ !s.passes t frm a then ⟨s.meshEvent, none, true⟩
    else if frm ≠ t ∧ s.flitLimit a.loc.vf frm ≤ s.flitsOn link a.loc.vf then
      ⟨s, some (.out (t :: rest) path), false⟩
    else
      let s := if frm ≠ t then s.useFlits link a.loc.vf a.requestFlits else s
      ⟨s, some (if rest.isEmpty then .home (t :: path) else .out rest (t :: path)), true⟩
  | .back (c :: t :: rest) =>
    if bad then ⟨s, none, true⟩
    else if !s.passes t c a then ⟨s.meshEvent, none, true⟩
    else
      ⟨s.useFlits (linkOf c t) a.loc.vf a.replyFlits, some (.back (t :: rest)), true⟩
  | .back r => if bad then ⟨s, none, true⟩ else ⟨s, some (.back r), false⟩
  | l => ⟨s, some l, false⟩

/-- The first copy of a message that can move, and the copies afterwards. -/
def State.hopFirst (s : State) (a : Access) (bad : Bool) : List Leg → State × List Leg
  | [] => (s, [])
  | l :: t =>
    let h := s.hop a bad l
    if h.moved then (h.state, h.leg.toList ++ t)
    else
      match s.hopFirst a bad t with
      | (s, t) => (s, l :: t)

/-- ROUTER_MESSAGE (R223 to R229, R234, R333). -/
def execRouterMessage (m : Nat) (bad : Bool) (s : State) : Host.Outcome State Fault Refusal :=
  match tfind s.accs m with
  | some a =>
    match s.hopFirst a bad a.legs with
    | (s, legs) => .next { s with accs := tset s.accs m { a with legs := legs } }
  | none => .next s

/-! ### Beats (R207) -/

/-- HORIZON_BEAT (R207): a beat on every lane to every stack the agent reaches, replacing one still on its way. -/
def execHorizonBeat (e : Nat) (s : State) : Host.Outcome State Fault Refusal :=
  let ag := s.agent e
  if 32 < e ∨ s.fabric < ag.lastBeat + 64 ∨ (e < 16 ∧ !s.dieRuns e) then .next s
  else
    let dsts := (List.range 16).filter fun st => s.reaches e st
    let beats := dsts.flatMap fun st => (List.range 4).map fun l =>
      (⟨e, st, l, tget 0 ag.vec e, tget 0 ag.seqs (4 * st + l)⟩ : Beat)
    let rest := s.beats.filter fun b => !(b.agent == e && dsts.contains b.stack)
    .next ({ s with beats := rest ++ beats }.modAgent e fun a => { a with lastBeat := s.fabric })

/-- BEAT_RECORD (R206, R207, R237): only once every sequenced message below its number has been applied. -/
def execBeatRecord (st e lane : Nat) (s : State) : Host.Outcome State Fault Refusal :=
  match s.beats.find? fun b => b.agent == e && b.stack == st && b.lane == lane with
  | some b =>
    let key := 4 * e + lane
    if seqGe (tget 0 (s.stack st).expectSeq key) b.num then
      .next ({ s with beats := s.beats.filter (· != b) }.modStack st fun k =>
        { k with fr := tput 0 k.fr key (vMax (tget 0 k.fr key) b.ctr) })
    else .next s
  | none => .next s

/-! ### Homes and ports -/

/-- The VF's TDI is in RUN: its requests carry the IDE T bit (R359). -/
def State.tdiRun (s : State) (vf : Nat) : Bool := (s.ctx vf).tdi == .run

/-- Bytes that host memory returns. -/
def State.hostBytes (s : State) (n : Nat) : List Byte := (List.range n).map (Config.hostByte s.freeCtr)

/-- The PCIe port performs a request (R220, R359): an error completion is a Memory Error, and no completion at all leaves
the request to be reissued. -/
def State.atPcie (s : State) (m : Nat) (a : Access) : State :=
  let t := s.tdiRun a.loc.vf
  let done (s : State) (r : Reply) : State :=
    if Config.hostSilent s.freeCtr then
      { s with accs := tset s.accs m { a with legs := (takeHome a.legs).elim a.legs (·.2) } }.bump
    else s.bump.answer m a (if Config.hostError s.freeCtr then .fault cause.memory 0 else r) []
  match a.op with
  | .load n => done (s.emit (.hostRead a.loc.vf t a.loc.sva n)) (.data (s.hostBytes n))
  -- a posted write is acknowledged after a flushing read, of no bytes, that follows it (R220)
  | .store bs => done ((s.emit (.hostWrite a.loc.vf t a.loc.sva bs)).emit (.hostRead a.loc.vf t a.loc.sva 0)) .ack
  | .atomic kind steps =>
    let r := steps.foldl (fun (r : State × Tab Nat) st =>
      ((r.1.emit (.hostAtomic a.loc.vf t (a.loc.sva + st.off) kind st.x st.y)).bump, r.2 ++ [(st.fib, leNat (r.1.hostBytes kind.bytes))])) (s, [])
    done r.1 (.olds r.2)
  | _ => s

/-- The frame operation that a Hexavo port sends for a request (R357, R360). -/
def Access.hxOp (a : Access) (m : Nat) : Option HxOp :=
  let p := BitVec.ofNat 64 (a.loc.sva + match a.op with
    | .atomic _ (st :: _) => st.off
    | _ => 0)
  match a.op with
  | .load n => some (.read p n m)
  | .store bs => some (.write p bs m)
  | .atomic (.atom op w64 sgn) (st :: _) =>
    some (.atom p (BitVec.ofNat 8 (op * 32 + w64.toNat * 16 + sgn.toNat * 8)) (BitVec.ofNat 64 st.x) m)
  | .atomic (.cas n) (st :: _) => some (.cas p n st.x st.y m)
  | .atomic .cadd (st :: _) => some (.signal p st.x m)
  | _ => none

def State.hxPort (s : State) (t p : Nat) : HxPort := tget HxPort.reset (s.stack t).hx p
def State.modHx (s : State) (t p : Nat) (f : HxPort → HxPort) : State :=
  s.modStack t fun k => { k with hx := tset k.hx p (f (tget HxPort.reset k.hx p)) }

/-- HXEN of FWCTL opens the port. -/
def State.hxOpen (s : State) (t p : Nat) : Bool := (s.stack t).fwctl.toNat.testBit (9 + p)

/-- A frame leaves a port under its sending generation; after 2^40 under one key the security processor rotates the keys
(R362). -/
def State.hxOut (s : State) (t p : Nat) (o : Out) : State :=
  let x := s.hxPort t p
  let s := (s.emit o).modHx t p fun x => if x.txgen then { x with sent1 := x.sent1 + 1 } else { x with sent0 := x.sent0 + 1 }
  if 2 ^ 40 ≤ (if x.txgen then x.sent1 else x.sent0) + 1 ∧ !x.rotating then
    { s with agenda := .event (.linkKeyRotation t p) :: s.agenda }
  else s

/-- A Hexavo port takes the request of a copy that stands at it, and the remote package answers by a frame. A port that
carries no traffic gives no answer (R235). -/
def State.atHexavo (s : State) (m : Nat) (a : Access) : State :=
  let p := a.ext - 2
  let port := s.hxPort a.loc.stack p
  match takeHome a.legs, a.hxOp m with
  | some (_, legs), some op =>
    let s := { s with accs := tset s.accs m { a with legs := legs } }
    if port.enable && port.linkUp && s.hxOpen a.loc.stack p then s.hxOut a.loc.stack p (.hexavo a.loc.stack p op) else s
  | _, _ => s

/-- A request whose turn it is at its home or port. -/
def State.performAt (s : State) (m : Nat) (a : Access) : State :=
  if !a.atHome then s
  else if a.ext = 1 then s.atPcie m a
  else if a.ext = 2 ∨ a.ext = 3 then s.atHexavo m a
  else
    match s.turnOf a with
    | .wait => s
    | .again r => s.answerAgain m a (some r)
    | .forget => s.answerAgain m a none
    | .go =>
      match a.op with
      | .load n => s.homeLoad m a n
      | .store bs => s.homeStore m a (atOffsets (a.loc.sva % 128) bs)
      | .merge bs => s.homeStore m a bs
      | .atomic kind steps => s.homeAtomic m a kind steps
      | .wait w => s.homeWait m a w
      | _ => s

/-- An operation that only reads its place. -/
def MemOp.isRead : MemOp → Bool
  | .load _ | .atomic .cread _ => true
  | _ => false

/-- Perform a message at its home if it is of the kind that an event is for. -/
def State.performIf (s : State) (m : Nat) (kind : Access → Bool) : State :=
  match tfind s.accs m with
  | some a => if kind a then s.performAt m a else s
  | none => s

/-- HOME_STORE_APPLY (R206, R208, R213, R236). -/
def execHomeStoreApply (m : Nat) (s : State) : Host.Outcome State Fault Refusal :=
  .next (s.performIf m fun a => a.cls != .rx && !a.op.isRead && !a.op.isMerge)

/-- HOME_LOAD_PERFORM (R209, R213). -/
def execHomeLoadPerform (m : Nat) (s : State) : Host.Outcome State Fault Refusal :=
  .next (s.performIf m fun a => a.cls != .rx && a.op.isRead)

/-- RELAXED_APPLY (R211, R236). -/
def execRelaxedApply (m : Nat) (s : State) : Host.Outcome State Fault Refusal :=
  .next (s.performIf m fun a => a.cls == .rx)

/-- WRITE_BACK (R184, R210). -/
def execWriteBack (m : Nat) (s : State) : Host.Outcome State Fault Refusal :=
  .next (s.performIf m fun a => a.op.isMerge)

/-! ### Replies (R184, R187, R192, R209, R249) -/

/-- A copy of the reply stands at the requester's port. -/
def Access.arrived (a : Access) : Bool := a.legs.any fun
  | .back r => decide (r.length ≤ 1)
  | _ => false

/-- A fetch of the cluster unit returns (R244): its dirty bytes stay. -/
def State.cuFilled (s : State) (d : Nat) (l : Loc) (bs : List Byte) : State :=
  let s := s.cuMod d l fun c =>
    { c with
      data := (List.range 128).map fun i => if c.dirty.getLsbD i then c.data.getD i 0 else bs.getD i 0
      here := true }
  (s.dropCopies d l).cuRun d

/-- The fill of L1 by data that returns, unless an invalidation has struck it (R184, R202). -/
def State.fillL1 (s : State) (a : Access) (fill : Option Scope) (bs : List Byte) : State :=
  let k := 16 * a.agent + a.port
  match fill with
  | some sc =>
    if a.noFill then s
    else (s.l1Alloc k a.loc a.hint a.cclass a.sentAt fun x => x.fillFrom (a.loc.sva % 128) bs sc).l1Mark k a.loc a.hint
  | none => s

/-- The data of a load returns: the fibre's own later bytes in front (R187), the fill, and the result. -/
def State.loadArrives (s : State) (a : Access) (bs : List Byte) : State :=
  match a.owner with
  | .load _ _ size off own fill _ _ =>
    let k := 16 * a.agent + a.port
    let data := own.foldl (fun d b => patch d b.1 [b.2]) ((bs.drop off).take size)
    (s.fillL1 a fill bs).endLoad k a data
  | .pref fill => s.fillL1 a fill bs
  | _ => s

/-- Number under which the answers to the mask reads of a group's MBINDS are kept. -/
def bindKey (gid : Nat) : Nat := 3 * 2 ^ 40 + gid

/-- A fibre is parked at MBIND or MBINDS. -/
def Park.binds : Park → Bool
  | .binding _ => true
  | _ => false

/-- An engine's access beyond a port has been answered; an MBINDS that waits for masks looks again. -/
def State.heard (s : State) (id ptr : Nat) (r : Reply) : State :=
  let s := { s with fetched := tset s.fetched id (tget [] s.fetched id ++ [(ptr, r)]) }
  if 3 * 2 ^ 40 ≤ id ∧ id < 2 ^ 42 then s.wake (id - 3 * 2 ^ 40) Park.binds else s

/-- Number under which the answers to a request that a frame brought are kept. -/
def hxKey (t p tag : Nat) : Nat := 2 ^ 42 + (tag * 16 + t) * 2 + p

/-- Number under which the answers to a host request are kept. -/
def hostKey (id : Nat) : Nat := 2 ^ 43 * (id + 1)

/-- The answers kept under a number, by ascending pointer. -/
def State.answersOf (s : State) (key : Nat) : List (Nat × Reply) :=
  let rs := tget [] s.fetched key
  ((rs.map (·.1)).foldl (fun l q => fibInsert q l) []).filterMap fun q => rs.find? fun r => r.1 == q

/-- The first fault among answers: its pointer, cause and INFO. -/
def firstFault (rs : List (Nat × Reply)) : Option (Nat × Nat × Nat) := rs.findSome? fun r => match r.2 with
  | .fault cs info => some (r.1, cs, info)
  | _ => none

/-- The bytes of answers in order. -/
def answerBytes (rs : List (Nat × Reply)) : List Byte := rs.flatMap fun r => match r.2 with
  | .data bs => bs
  | _ => []

/-- What an error reply tells the requester: that a counter's advance overflowed (R264, R267), or nothing further. -/
def overflowMark : List Byte := leBytes 1 cause.counterOverflow

def errorData (rs : List (Nat × Reply)) : List Byte :=
  if rs.any fun r => r.2 == .fault cause.counterOverflow 0 then overflowMark else []

/-- The reply to a request that a frame brought, once every line of it has been performed (R360). -/
def State.remoteReply (s : State) (t p tag : Nat) : State :=
  if s.accs.any fun x => x.2.owner == .remote t p tag then s
  else
    let rs := s.answersOf (hxKey t p tag)
    let bad := (firstFault rs).isSome
    { s.hxOut t p (.hexavoReply t p tag (!bad) (if bad then errorData rs else answerBytes rs)) with fetched := tdel s.fetched (hxKey t p tag) }

/-- An answer as bytes: the old value of an atomic. -/
def Access.answerOf (a : Access) (r : Reply) : Reply :=
  match r, a.op with
  | .olds vs, .atomic kind _ => .data (leBytes kind.bytes ((vs.headD (0, 0)).2))
  | r, _ => r

/-- A reply to a line of it. -/
def State.remoteHeard (s : State) (a : Access) (t p tag : Nat) (r : Reply) : State :=
  (s.heard (hxKey t p tag) a.loc.eptr (a.answerOf r)).remoteReply t p tag

/-- A record of a host access's fault (R358). -/
def State.hostFault (s : State) (vf ptr cs info : Nat) : State :=
  s.faultRecord vf 32 { cause := cs, info := info, eptr := ptr, time := s.mh.time.ltime }

/-- The line replies of a host read or FetchAdd under a number; the last one completes it, with Unsupported Request where a
line met a fault (R358). -/
def State.hostLine (s : State) (a : Access) (id key : Nat) (r : Reply) : State :=
  let s := s.heard key a.loc.eptr (a.answerOf r)
  if s.accs.any fun x => x.2.owner == .hostRead id then s
  else
    let rs := s.answersOf key
    let s := { s with fetched := tdel s.fetched key }
    match firstFault rs with
    | some (ptr, cs, info) => (s.hostFault a.loc.vf ptr cs info).emit (.unsupported a.loc.vf)
    | none => s.emit (.hostData a.loc.vf (ptrOff ((rs.head?).elim 0 (·.1))) (answerBytes rs))

/-- A reply to a line of a host read or FetchAdd. -/
def State.hostHeard (s : State) (a : Access) (id : Nat) (r : Reply) : State := s.hostLine a id (hostKey id) r

/-- A reply that is no fault reaches its requester. -/
def State.takeReply (s : State) (m : Nat) (a : Access) (r : Reply) : State :=
  let s := s.dropAcc m
  let s := if a.causal then s.modAgent a.agent fun g => { g with vec := vMerge g.vec a.replyVec } else s
  match a.owner, r with
  | .load _ _ _ _ _ _ _ _, .data bs | .pref _, .data bs => s.loadArrives a bs
  | .atomic _ _ _ _, .olds vs => s.endAtomic (16 * a.agent + a.port) a vs
  | .cluFetch d, .data bs => s.cuFilled d a.loc bs
  | .mcas x, _ => s.mcasArrives x
  | .engine id, r => s.heard id a.loc.eptr r
  | .remote t p tag, r => s.remoteHeard a t p tag r
  | .hostRead id, r => s.hostHeard a id r
  -- the vector follows the record (R314)
  | .record, _ => s.emit (.msix a.loc.vf (s.ctx a.loc.vf).msix)
  | _, _ => s

/-- The reply crosses the link from the stack it stands at to its requester (R229). -/
def State.takePort (s : State) (a : Access) : State :=
  let frm := a.legs.findSome? fun l => match l with
    | .back [t] => some t
    | _ => none
  match frm with
  | some t => if t = nodeOf a.agent then s else s.useFlits (linkOf t (nodeOf a.agent)) a.loc.vf a.replyFlits
  | none => s

/-- REPLY_ARRIVAL. -/
def execReplyArrival (m : Nat) (s : State) : Host.Outcome State Fault Refusal :=
  match tfind s.accs m with
  | some a =>
    match a.arrived, a.reply with
    | true, some (.fault _ _) => .next s
    | true, some r =>
      .next ((s.takePort a).takeReply m a r)
    | _, _ => .next s
  | none => .next s

/-! ### Faults from the home (R177, R244, R249, R258) -/

/-- End every group of a VF that some cores hold. -/
def State.endVfGroups (s : State) (vf cs st : Nat) (on : Nat → Bool) : State :=
  (s.groups.filter fun p => p.2.vf == vf && on p.2.k).foldl (fun s p => s.endGroup p.1 cs st) s

/-- A write-back loses its bytes (R177): a record with the line's pointer and no PC, and the VF's groups there halt. -/
def State.backFault (s : State) (a : Access) (info : Nat) (on : Nat → Bool) : State :=
  let d := s.die (a.agent % 16)
  let s := s.faultRecord a.loc.vf a.agent
    { cause := cause.writeBack, vdie := s.vdieOf a.loc.vf (a.agent % 16), core := a.port % 16, info := info,
      eptr := a.loc.eptr, time := d.time.ltime }
  s.endVfGroups a.loc.vf cause.writeBack status.groupFault on

/-- The fetch of a cluster unit fails: its line is not held, and what waits for it faults. -/
def State.cuFails (s : State) (d : Nat) (l : Loc) (cs : Nat) : State :=
  let ids := (s.die d).cuOps.filter fun m => (tfind s.accs m).elim false fun a => a.loc.sameLine l
  let s := s.modDie d fun x =>
    { x with lines := x.lines.filter fun c => !c.loc.sameLine l, cuOps := x.cuOps.filter fun m => !ids.contains m }
  (ids.foldl (fun s m =>
    match tfind s.accs m with
    | some a =>
      match a.owner with
      | .wait w => { s.dropAcc m with waiters := tdel s.waiters w }.accessFault a cs 0
      -- a helper's load returns zero and raises nothing (R25)
      | .load f dst _ _ _ _ _ true => (s.dropAcc m).deliver a.gid f dst 0
      | .pref _ => s.dropAcc m
      | _ => ((s.dropAcc m).abandon a).accessFault a cs 0
    | none => s) s).cuRun d

def status.collectiveAbort : Nat := 0x0120
def status.collectiveFault : Nat := 0x0121

/-- R366, R376: the first ending event of a collective decides, in the order of R238. -/
def Coll.endAt (c : Coll) (time agent st : Nat) : Coll :=
  match c.ending with
  | none => { c with ending := some (time, agent, st) }
  | some (t, a, _) => if agent ≠ a ∧ (time < t ∨ (time = t ∧ agent < a)) then { c with ending := some (time, agent, st) } else c

/-- A fault of an instance at a stack. -/
def State.collFault (s : State) (c t : Nat) : State :=
  let x := (s.stack t).time
  { s with colls := tmod s.colls c fun q => q.endAt (x.refOf x.ltime) (16 + t) status.collectiveFault }

/-- A request ends with a fault. -/
def State.failAccess (s : State) (m : Nat) (a : Access) (cs info : Nat) : State :=
  let s := s.dropAcc m
  match a.owner with
  | .load f dst _ _ _ _ _ helper =>
    if helper then s.deliver a.gid f dst 0 else (s.abandon a).accessFault a cs info
  | .store _ | .atomic _ _ _ _ => (s.abandon a).accessFault a cs info
  | .writeBack k => s.backFault a cs (· == k)
  | .cluBack d => s.backFault a cs fun k => k / 16 == d
  | .cluFetch d => s.cuFails d a.loc cs
  | .wait w =>
    match tfind s.waiters w with
    | some x =>
      { s with waiters := tdel s.waiters w }.lateFault x.gid cs x.pc (s.laneMask x.gid (x.steps.map Prod.fst))
        (x.steps.headD (0, 0)).1 info a.loc.eptr
    | none => s
  | .mcas x =>
    match tfind s.mcas x with
    | some q => (s.unparkMcas x q).lateFault q.gid cs q.pc (s.laneMask q.gid [q.fib]) q.fib info a.loc.eptr
    | none => s
  | .engine id => s.heard id a.loc.eptr (.fault cs info)
  | .remote t p tag => s.remoteHeard a t p tag (.fault cs info)
  | .host => s.hostFault a.loc.vf a.loc.eptr cs info
  | .hostRead id => s.hostHeard a id (.fault cs info)
  | .send c _ _ =>
    -- an arrival signal whose advance would overflow (R267)
    if cs = cause.counterOverflow then { s with colls := tmod s.colls c fun q => { q with passed := true } }
    else s.collFault c (a.agent - 16)
  | .record => s.emit (.msix a.loc.vf (s.ctx a.loc.vf).msix)
  | .word | .fence _ | .pref _ => s

/-- HOME_FAULT_ARRIVAL (R177). -/
def execHomeFaultArrival (m : Nat) (s : State) : Host.Outcome State Fault Refusal :=
  match tfind s.accs m with
  | some a =>
    match a.arrived, a.reply with
    | true, some (.fault cs info) => .next ((s.takePort a).failAccess m a cs info)
    | _, _ => .next s
  | none => .next s

/-! ### ORDERED_SEND (R204, R212, R216, R234, R241) -/

/-- What was put aside at its core runs there. -/
def State.runAside (s : State) (m : Nat) (a : Access) : State :=
  let s := s.dropAcc m
  let a := { a with ext := if a.leaves then a.loc.key - 255 else 0, held := false, after := [] }
  let k := 16 * a.agent + a.port
  match a.op with
  | .load _ => s.runLoad a
  | .store _ =>
    -- what waits for the store waits for it in the cluster unit too
    if a.isLocal && a.scope == .clu && ((s.die a.agent).cuLine a.loc).isSome then (s.follow m [s.nextAcc]).runStore a
    else (s.runStore a).backAfter a m
  | .atomic _ _ | .atomp _ _ _ => s.runAtomic a
  | .wait w => (tfind s.waiters w).elim s fun x => s.runWait a x.place
  | .winLoad _ _ _ | .winStore _ _ _ => s.runWindow a
  | .fence (some sc) range => s.acquire k a.loc.vf sc fun l => match range with
      | some (e, p, n) => meetsRange e a.loc.vf p n l 128
      | none => true
  | _ => s

/-- ORDERED_SEND: a held access is sent once what it waits for is acknowledged. -/
def execOrderedSend (m : Nat) (s : State) : Host.Outcome State Fault Refusal :=
  match tfind s.accs m with
  | some a =>
    if !a.held ∨ a.ext = 5 then .next s
    else if a.ext = 4 then (if s.outstanding a.after then .next s else .next (s.runAside m a))
    else if s.maySend a then
      let s := (s.cuPrep a).send m a
      .next (if a.agent < 16 then s.cuRun a.agent else s)
    else .next s
  | none => .next s

/-! ### REQUEST_TIMEOUT (R235, R237) -/

/-- Nanoseconds that a requester waits before its next reissue, and after the third (log 30). -/
def timeoutAfter (reissues : Nat) : Nat :=
  match reissues with
  | 0 => 4000
  | 1 => 8000
  | _ => 16000

/-- A number of a lane that no request holds any more. -/
def State.numberLost (s : State) (st key n : Nat) : Bool :=
  !s.accs.any fun p => p.2.seq == some n && p.2.loc.stack == st && p.2.laneKey == key && !p.2.performed

/-- R237: the home's view of a lane moves past numbers that no message will bring. -/
def State.closeGap (s : State) (st key next : Nat) : Nat → State
  | 0 => s
  | n + 1 =>
    let e := tget 0 (s.stack st).expectSeq key
    if e = next ∨ !s.numberLost st key e then s
    else (s.modStack st fun k => { k with expectSeq := tput 0 k.expectSeq key ((e + 1) % 2 ^ 16) }).closeGap st key next n

/-- A lost request: Fabric Timeout for its owner, the stack degraded, the lane's gap closed. A prefetch is dropped. -/
def State.timeOut (s : State) (m : Nat) (a : Access) : State :=
  match a.owner with
  | .pref _ => s.dropAcc m
  | _ =>
    let st := a.loc.stack
    let first := a.seq == some (tget 0 (s.stack st).expectSeq a.laneKey)
    let s := (s.failAccess m a cause.fabricTimeout st).degrade st
    if a.seq.isSome && !a.performed then
      let s := if first ∧ a.causal then s.modStack st fun k =>
          { k with fr := tput 0 k.fr a.laneKey (vMax (tget 0 k.fr a.laneKey) (tget 0 a.vec a.agent)) } else s
      s.closeGap st a.laneKey (tget 0 (s.agent a.agent).seqs (4 * st + a.lane)) 64
    else s

/-- An MCAS whose requester gives up (R258): in the lock phase its locks are released and no word changes; in the commit
phase the homes that have not yet done so apply the commit. -/
def State.mcasLost (s : State) (a : Access) : State :=
  match a.owner with
  | .mcas x =>
    match tfind s.mcas x with
    | some q =>
      let rest := q.ents.filter fun e => !q.committed.contains e.loc.stack
      let s := if q.phase = .committing ∧ q.mismatch = 0 then (s.mcasWrite a.stored rest).1 else s
      s.unlockAll x
    | none => s
  | _ => s

/-- REQUEST_TIMEOUT (R235): the reissues carry the full vector and the original number. -/
def execRequestTimeout (m : Nat) (s : State) : Host.Outcome State Fault Refusal :=
  match tfind s.accs m with
  | some a =>
    if a.held ∨ a.queued ∨ a.arrived ∨ s.ns < a.sentAt + timeoutAfter a.reissues then .next s
    else if a.reissues < 3 ∧ !a.isPref then
      let a := { a with reissues := a.reissues + 1, sentAt := s.ns, nd := if a.causal then 33 else 0,
                        legs := a.legs ++ [.out a.route []] }
      .next { s with accs := tset s.accs m a }
    else .next ((s.mcasLost a).timeOut m a)
  | none => .next s

/-! ### Dies that fail and rejoin (R239, R258, R324) -/

/-- An MCAS that its coordinator has accepted runs to its end (R258). -/
def State.mcasAccepted (s : State) (a : Access) : Bool :=
  match a.owner with
  | .mcas x => (tfind s.mcas x).elim false fun q => q.phase == .locking || q.phase == .committing
  | _ => false

/-- The requests of a die that no home has applied are discarded, and the lanes go on behind them. -/
def State.discardOf (s : State) (d : Nat) : State :=
  let s := { s with accs := s.accs.filter fun p => p.2.agent != d || s.mcasAccepted p.2 }
  -- the lines kept for what is gone are free (R268)
  let gone (h : Nat) : Bool := decide (2 ^ 40 ≤ h) && (tfind s.accs (h - 2 ^ 40)).isNone
  let s := (List.range 16).foldl (fun s st => s.modStack st fun k => { k with locks := k.locks.filter fun l => !gone l.2 }) s
  (List.range 16).foldl (fun s st => (List.range 4).foldl (fun s l =>
    s.modStack st fun k => { k with expectSeq := tput 0 k.expectSeq (4 * d + l) (tget 0 (s.agent d).seqs (4 * st + l)) }) s) s

/-- What a die held in its cores and its cluster unit is lost. -/
def State.emptyDie (s : State) (d : Nat) : State :=
  let s := (coresOf d).foldl (fun s k =>
    s.modCore k fun c => { Core.empty with fenced := c.fenced, cmds := c.cmds, statuses := c.statuses, out := c.out }) s
  s.modDie d fun x => { x with lines := [], cuOps := [], engines := [] }

/-- The cards, the engine work and the outstanding results of groups that are lost with a die are gone (R324). A card of a
group that was spilt in time stays in the copy queue. -/
def State.loseWork (s : State) (d : Nat) (gs : List Nat) : State :=
  let cards := (s.cards.filter fun p => gs.contains p.2.gid).map (·.1)
  let ops := (coresOf d).flatMap fun k => (s.core k).eng.map (·.item)
  let gone (id : Nat) : Bool := cards.contains id || ops.contains id
  let s : State :=
    { s with items := s.items.filter fun p => !gone p.1
             cards := (s.cards.filter fun p => !cards.contains p.1).map fun (p : Nat × Card) =>
               (p.1, if p.2.die = d then { p.2 with running := false } else p.2)
             fetched := s.fetched.filter fun p => !gone p.1 }
  let s := s.modDie d fun x => { x with copyq := x.copyq.filter fun id => !cards.contains id }
  gs.foldl (fun s g => s.modGroup g fun x =>
    { x with fibres := x.fibres.map fun p => (p.1, { p.2 with pendRegs := [] }) }) s

/-- DIE_FAILURE (R239): the die is marked failed; every home lets its frontier satisfy; its groups fault. -/
def execDieFailure (d : Nat) (s : State) : Host.Outcome State Fault Refusal :=
  if 15 < d ∨ (s.die d).failed then .next s
  else
    let s := s.modDie d fun x => { x with failed := true }
    let s := (List.range 16).foldl (fun s st => s.modStack st fun k =>
      { k with waived := if k.waived.contains d then k.waived else k.waived ++ [d] }) s
    let gs := (s.groups.filter fun p => p.2.k / 16 == d && !p.2.evicted).map (·.1)
    let s := { s with waiters := s.waiters.filter fun p => !gs.contains p.2.gid }
    let s := ((s.discardOf d).loseWork d gs).emptyDie d
    -- nothing of them is left to halt or to restore
    .next (gs.foldl (fun s g => (s.takeFault g cause.dieLost 0xFFFFFFFF 0 0 0 0).modGroup g fun x =>
      { x with halted := false, halting := false }) s)

/-- The largest value of an agent's entry that any home holds (R239). -/
def State.largestOf (s : State) (e : Nat) : Nat :=
  (List.range 16).foldl (fun m st =>
    let k := s.stack st
    let m := k.pinVec.foldl (fun m p => vMax m (tget 0 p.2 e)) m
    let m := (List.range 4).foldl (fun m l => vMax m (tget 0 k.fr (4 * e + l))) m
    let m := k.sc.foldl (fun m x => match x.vec with
      | some v => vMax m (tget 0 v e)
      | none => m) m
    k.laneVec.foldl (fun m p => vMax m (tget 0 p.2 e)) m) (tget 0 (s.stack 0).fr (4 * e))

/-- DIE_REJOIN (R239, R324): its counter goes past every home's entry, and its frontier counts again. -/
def execDieRejoin (d : Nat) (s : State) : Host.Outcome State Fault Refusal :=
  if 15 < d ∨ !(s.die d).failed ∨ s.accs.any fun p => p.2.agent == d then .next s
  else
    let n := (s.largestOf d + 1) % 2 ^ 24
    let s := s.modAgent d fun a => { a with vec := tput 0 [] d n, lastSent := [] }
    let s := (List.range 16).foldl (fun s st => s.modStack st fun k => { k with waived := k.waived.filter (· != d) }) s
    .next (s.modDie d fun x => { x with failed := false })

end Sys2Proof.Machine
end

