-- ==== Sys2Proof/Machine/Engines.lean ====
section
/-! DEFINITION. What the engines share: card bytes and footprints (R230), Halyard's items and their edges (R231), tags of
window rows (R178, R179), and completion (R233, R279). -/

namespace Sys2Proof.Machine

/-! ### Card bytes and footprints (Table 13.4) -/

/-- Four footprint regions from an offset of a card. -/
def regionsAt (bs : List Byte) (o : Nat) : List Region :=
  [0, 1, 2, 3].map fun i => ⟨lineNat bs (o + 16 * i) 8, lineNat bs (o + 16 * i + 8) 4⟩

/-- A reserved field of a footprint is not zero. -/
def regionsBad (bs : List Byte) (o : Nat) : Bool := [0, 1, 2, 3].any fun i => lineNat bs (o + 16 * i + 12) 4 != 0

/-- The used regions of a footprint. -/
def usedRegions (rs : List Region) : List Region := rs.filter fun r => r.len != 0

/-- A range of a buffer lies within a region. -/
def Region.holds (r : Region) (ptr off len : Nat) : Bool :=
  r.len != 0 && ptrIdx ptr == ptrIdx r.ptr && decide (ptrOff r.ptr ≤ off) && decide (off + len ≤ ptrOff r.ptr + r.len)

/-- Two regions overlap (R231). -/
def Region.meets (a b : Region) : Bool :=
  a.len != 0 && b.len != 0 && ptrIdx a.ptr == ptrIdx b.ptr &&
  decide (ptrOff a.ptr < ptrOff b.ptr + b.len) && decide (ptrOff b.ptr < ptrOff a.ptr + a.len)

/-- R230: the first used region that fails its checks, with the cause and the pointer. -/
def State.regionFail (s : State) (vf : Nat) (right : Right) (rs : List Region) : Option (Nat × Nat) :=
  (usedRegions rs).findSome? fun r => (s.checkEntry vf (s.tableEntry vf (ptrIdx r.ptr)) r.ptr r.len 0 (some right) true).map (·, r.ptr)

def State.footprintFail (s : State) (vf : Nat) (reads writes : List Region) : Option (Nat × Nat) :=
  (s.regionFail vf .r reads).orElse fun _ => s.regionFail vf .w writes

/-- SCOPE codes that a card may carry: .par, .dev, .sys. -/
def cardScope (c : Nat) : Bool := decide (2 ≤ c) && decide (c ≤ 4)

/-- The class of an engine's access (R191 coding). -/
def clsRelaxed (code : Nat) (e : BitVec 256) : Bool := clsOf code e == .rx

/-! ### Items (R231) -/

/-- What an accepted item waits for: RAW, WAR and WAW edges from the items in flight of its context. -/
def State.edgesFor (s : State) (vf : Nat) (reads writes : List Region) : List Nat :=
  let hit (xs ys : List Region) : Bool := xs.any fun x => ys.any x.meets
  (s.items.filter fun p => p.2.vf == vf && (hit reads p.2.writes || hit writes p.2.reads || hit writes p.2.writes)).map (·.1)

/-- Accept an item under a number. -/
def State.addItem (s : State) (id : Nat) (it : Item) : State :=
  let order := s.mh.nextOrder
  let it := { it with edges := s.edgesFor it.vf it.reads it.writes, order := order }
  { s with items := tset s.items id it, mh := { s.mh with nextOrder := order + 1 } }

/-- Every edge into the item has cleared. -/
def State.edgesClear (s : State) (id : Nat) : Bool :=
  (tfind s.items id).elim true fun it => it.edges.all fun e => (tfind s.items e).isNone

/-- The work of a group's card has stopped: the group is halted or away, or another context holds the slice (R278, R298,
R319). The cards of a group that ended drain, wherever it is (R316). -/
def State.cardStopped (s : State) (c : Card) : Bool :=
  ((s.group? c.gid).elim false fun g => g.halted || (g.evicted && g.ended.isNone)) ||
  match tfind s.mh.gangs (s.ctx c.vf).leader with
  | some g => (s.ctx c.vf).bound && (g.cur != some c.vf || g.phase == .preempted || g.phase == .power || g.phase == .alarmHalt)
  | none => false

/-- An item with everything but its kind, context and footprint left plain. -/
def Item.plain (kind : ItemKind) (vf : Nat) (reads writes : List Region) : Item :=
  { kind := kind, vf := vf, reads := reads, writes := writes, edges := [], prio := 0, launch := 0, waits := [],
    scope := .par, cmpl := none, cnt := none, seq := 0, inc := 0, started := false, order := 0, fromGrid := none,
    fromGroup := none }

/-! ### Completion (R233, R279, Tables 17.4, 17.5) -/

def status.completed : Nat := 0x0000
def status.footprint : Nat := 0x0001
def status.memory : Nat := 0x0002
def status.timeout : Nat := 0x0003
def status.counterOverflow : Nat := 0x0004
def status.bindingInvalid : Nat := 0x0006
def status.macroFenced : Nat := 0x0007
def status.pairMismatch : Nat := 0x0008
def status.partnerLost : Nat := 0x0009
def status.launchResource : Nat := 0x0101
def status.launchFormat : Nat := 0x0102
def status.launchRecord : Nat := 0x0103

/-- The status of an engine's access that failed (R230, R278, R289). -/
def statusOf (cs : Nat) : Nat :=
  if cs = cause.footprint then status.footprint else if cs = cause.fabricTimeout then status.timeout else status.memory

/-- The completion word of Table 17.4. -/
def completionWord (seq st : Nat) : Nat := seq % 2 ^ 48 * 2 ^ 16 + st

/-- Local time of an agent's die, and its reference time. -/
def State.timeOf (s : State) (e : Nat) : TimeRegs :=
  if e < 16 then (s.die e).time else if e < 32 then (s.stack (e - 16)).time else s.mh.time
def State.refTime (s : State) (e : Nat) : Nat := let t := s.timeOf e; t.refOf t.ltime

/-- A record that no instruction raised: no PC, and the failing pointer. -/
def State.plainRecord (s : State) (vf e cs ptr : Nat) : State :=
  s.faultRecord vf e { cause := cs, eptr := ptr, time := (s.timeOf e).ltime }

/-- An access of an agent through an external buffer. -/
def State.askOut (s : State) (vf e ptr : Nat) (op : MemOp) (o : Owner) : State :=
  let en := s.tableEntry vf (ptrIdx ptr)
  let a := Access.make e 0 (extLoc en ptr) .cz .sys op o 0 0xFFFFFFFF
  (s.request { a with ext := extKind en + 1, causal := false }).1

/-- A write of an agent through an external buffer, which no fibre waits for. -/
def State.sendOut (s : State) (vf e ptr : Nat) (bs : List Byte) (o : Owner) : State := s.askOut vf e ptr (.store bs) o

/-! ### Reads of an engine -/

/-- Pieces of [off, off + len) that lie in one line each. -/
def lineSegs (off len : Nat) : List (Nat × Nat) :=
  if len = 0 then []
  else (List.range ((off + len - 1) / 128 + 1 - off / 128)).map fun i =>
    let lo := max off (128 * (off / 128 + i))
    (lo, min (off + len) (128 * (off / 128 + i + 1)) - lo)

/-- The first byte of a range of global memory that reads as poisoned (R343, R351). -/
def State.poisonedAt (s : State) (vf ptr n : Nat) : Option Nat :=
  let e := s.tableEntry vf (ptrIdx ptr)
  let at_ (g : Nat × Nat) : Nat := ptr / 2 ^ 48 * 2 ^ 48 + g.1
  let bad (g : Nat × Nat) : Bool := match s.look (s.locOf e (at_ g)) g.2 with
    | .error cs => cs == cause.memory
    | .ok _ => false
  ((lineSegs (ptrOff ptr) n).find? bad).map at_

/-- Read n bytes of one line for an item (R230): a check that fails now counts as Footprint. Bytes beyond a port are asked
for once and taken when they have come. -/
def State.engineSeg (s : State) (e vf id code ptr n : Nat) : Direct (List Byte) :=
  if (s.checkPtr vf ptr n 0 .r).isSome then .fault s cause.footprint
  else
    let en := s.tableEntry vf (ptrIdx ptr)
    if isExternal (ptrIdx ptr) then
      match (tget [] s.fetched id).find? fun p => p.1 == ptr && (match p.2 with
        | .data bs => bs.length == n
        | _ => true) with
      | some (_, .data bs) => .ok s bs
      | some (_, .fault cs _) => .fault s cs
      | some _ => .wait s
      | none =>
        if s.accs.any fun p => p.2.owner == .engine id && p.2.loc.eptr == ptr && p.2.op == .load n then .wait s
        else .wait (s.askOut vf e ptr (.load n) (.engine id))
    else s.readDirect e (s.locOf en ptr) n (clsRelaxed code en)

/-- Go on after a direct access that was performed. -/
def Direct.andThen {α β : Type} (d : Direct α) (f : State → α → Direct β) : Direct β :=
  match d with
  | .ok s v => f s v
  | .wait s => .wait s
  | .fault s cs => .fault s cs

/-- Read pieces one after another. -/
def State.engineSegs (s : State) (e vf id code base : Nat) : List (Nat × Nat) → List Byte → Direct (List Byte)
  | [], acc => .ok s acc
  | p :: t, acc => (s.engineSeg e vf id code (ptrAdd base p.1) p.2).andThen fun s bs =>
      s.engineSegs e vf id code base t (acc ++ bs)

/-- Read [off, off + len) beyond a base pointer whose own offset is zero in `base`. -/
def State.engineRead (s : State) (e vf id code base off len : Nat) : Direct (List Byte) :=
  s.engineSegs e vf id code (base / 2 ^ 48 * 2 ^ 48) (lineSegs (ptrOff base + off) len) []

/-- Write an engine's word, checked as it stands (R233); none where the home has it wait. -/
def State.putWord (s : State) (e vf ptr v : Nat) : Option State :=
  match s.checkPtr vf ptr 8 8 .w with
  | some cs => some (s.plainRecord vf e cs ptr)
  | none =>
    if isExternal (ptrIdx ptr) then some (s.sendOut vf e ptr (leBytes 8 v) .word)
    else
      match s.writeDirect e (s.locOf (s.tableEntry vf (ptrIdx ptr)) ptr) (leBytes 8 v) with
      | .wait _ => none
      | .fault s cs => some (s.plainRecord vf e cs ptr)
      | .ok s () => some s

/-- Advance an engine's counter as a CADD (R267): whether it was done, or failed for another reason than an overflow. A
device's counter beyond a port takes none (R248). -/
def State.advanceCounter (s : State) (e vf ptr inc : Nat) : Direct Bool :=
  match s.checkPtr vf ptr 8 8 .a with
  | some cs => .ok (s.plainRecord vf e cs ptr) true
  | none =>
    if isExternal (ptrIdx ptr) then .ok (s.plainRecord vf e cause.atomicUnsupported ptr) true
    else
      match s.counterDirect e (s.locOf (s.tableEntry vf (ptrIdx ptr)) ptr) .cadd inc with
      | .wait s => .wait s
      | .fault s cs => if cs = cause.counterOverflow then .ok s false else .ok (s.plainRecord vf e cs ptr) true
      | .ok s _ => .ok s true

/-- R233 step 2: the advance would overflow at the counter's place. -/
def State.wouldOverflow (s : State) (vf ptr inc : Nat) : Bool :=
  (s.checkPtr vf ptr 8 8 .a).isNone &&
  (s.peekPtr vf ptr 8).elim false fun bs => decide (2 ^ 64 ≤ leNat bs + inc)

/-- What a completion names. -/
structure Compl where
  cmpl : Option Nat
  cnt : Option Nat
  seq : Nat
  inc : Nat
  deriving DecidableEq, Repr

/-- Number under which the answers to the completion words of an item, a grid or a collective are kept. -/
def complKey (id : Nat) : Nat := 2 ^ 47 + id

/-- Marks among the answers of a completion: its status was Counter Overflow from the start; it has been made. -/
def markOverflow : Nat := 2 ^ 64
def markDone : Nat := 2 ^ 65

/-- A completion word that has been sent beyond a port has its answer: none yet, or a fault that leaves a record (R233). -/
def State.wordAnswers (s : State) (key ptr : Nat) : List Reply :=
  ((tget [] s.fetched key).filter fun p => p.1 == ptr).map (·.2)

/-- The record of a word that could not be written. -/
def State.wordRecord (s : State) (e vf ptr : Nat) (r : Reply) : State :=
  match r with
  | .fault cs _ => s.plainRecord vf e cs ptr
  | _ => s

/-- Step 4 of R233: the counter advances; where it would overflow by now, the word is written again. -/
def State.advance (s : State) (key e vf : Nat) (o : Compl) : Direct Unit :=
  match o.cnt with
  | none => .ok s ()
  | some c =>
    match s.advanceCounter e vf c o.inc, o.cmpl with
    | .ok t false, some p =>
      let w := completionWord o.seq status.counterOverflow
      if isExternal (ptrIdx p) && (s.checkPtr vf p 8 8 .w).isNone then .wait (t.sendOut vf e p (leBytes 8 w) (.engine key))
      else (t.putWord e vf p w).elim (.wait s) fun t => .ok t ()
    | .ok t _, _ => .ok t ()
    | .fault t cs, _ => .fault t cs
    | .wait _, _ => .wait s

/-- The completion of an operation (R233): the word, then the counter. A word beyond a port is sent, and the counter waits
until it is acknowledged (R220). -/
def State.complete (s : State) (key e vf : Nat) (o : Compl) (st : Nat) : Direct Unit :=
  let marked (m : Nat) : Bool := (tget [] s.fetched key).any fun p => p.1 == m
  let ovf := o.cnt.elim false fun p => s.wouldOverflow vf p o.inc
  let w := completionWord o.seq (if ovf then status.counterOverflow else st)
  if marked markDone then .ok s ()
  else if s.accs.any fun p => p.2.owner == .engine key then .wait s
  else
    -- where a home has the counter wait, the whole is tried again; a word on its way stays sent
    let done (d : Direct Unit) : Direct Unit := match d with
      | .ok t () => .ok ((t.event e).heard key markDone .ack) ()
      | .wait t => if t.accs.any fun p => p.2.owner == .engine key then .wait t else .wait s
      | d => d
    match o.cmpl with
    | none => done (if ovf then .ok s () else s.advance key e vf o)
    | some p =>
      match s.wordAnswers key p with
      | [r] =>
        let s := s.wordRecord e vf p r
        done (if marked markOverflow then .ok s () else s.advance key e vf o)
      | _ :: r :: _ => done (.ok (s.wordRecord e vf p r) ())
      | [] =>
        if isExternal (ptrIdx p) && (s.checkPtr vf p 8 8 .w).isNone then
          let s := s.sendOut vf e p (leBytes 8 w) (.engine key)
          .wait (if ovf then s.heard key markOverflow .ack else s)
        else
          match s.putWord e vf p w with
          | none => .wait s
          | some t => done (if ovf then .ok t () else t.advance key e vf o)

/-- Forget answers that have been used. -/
def State.forget (s : State) (key : Nat) : State := { s with fetched := tdel s.fetched key }

/-- The completion of a grid or a collective, and then that of its task (R309, R366). -/
def State.completeAll (s : State) (id e vf : Nat) (o : Compl) (task : Option (Nat × Item)) (st : Nat) : Direct Unit :=
  match s.complete (complKey id) e vf o st with
  | .ok s () =>
    match task with
    | none => .ok (s.forget (complKey id)) ()
    | some (i, it) =>
      match s.complete (complKey i) e it.vf ⟨it.cmpl, it.cnt, it.seq, it.inc⟩ st with
      | .ok s () => .ok ((s.forget (complKey id)).forget (complKey i)) ()
      | d => d
  | d => d

end Sys2Proof.Machine
end

