-- ==== Sys2Proof/Machine/Matrix.lean ====
section
/-! DEFINITION. Tiles, convergence registers, bindings and the matrix engine (R38 to R42, R97 to R104, R281 to R304). -/

namespace Sys2Proof.Machine

/-! ### Tiles (R90, R281) -/

/-- Packed length of n elements (R90). -/
def packedBytes (elem n : Nat) : Nat :=
  if elem = 1 ∨ elem = 2 then 3 * ceilDiv n 4 else ceilDiv (n * elemBits elem) 8

/-- Element codes packed in bytes (R90): every format packs them contiguously from the lowest bit. -/
def unpackCodes (elem n : Nat) (bs : List Byte) : List Nat :=
  let v := leNat bs
  (List.range n).map fun i => v / 2 ^ (elemBits elem * i) % 2 ^ elemBits elem

/-- Stored elements of each 64 of a sparse slot (Table 5.7); a dense slot stores all. -/
def sparseOf (slot : Nat) : Nat :=
  match slotSparse slot with
  | 0 => 64
  | 1 => 32
  | 2 => 16
  | _ => 8

def tileRows (e : BitVec 256) : Nat := entF e 175 160
def tileCols (e : BitVec 256) : Nat := entF e 191 176
def tileStride (e : BitVec 256) : Nat := entF e 159 128
def tileSlot (g : Group) (e : BitVec 256) : Nat := g.fslots.getD (entF e 194 192) 0
def tileStored (g : Group) (e : BitVec 256) : Nat := tileCols e * sparseOf (tileSlot g e) / 64

/-- R281: what TDEF accepts. -/
def tileOk (g : Group) (e : BitVec 256) : Bool :=
  entF e 255 195 == 0 && tileRows e != 0 && tileCols e != 0 &&
  decide (packedBytes (slotElem (tileSlot g e)) (tileStored g e) ≤ tileStride e)

/-- A range of buffer space: base pointer, offset from it, bytes. -/
abbrev Rng := Nat × Nat × Nat

/-- Data and scales of rows [r0, r0 + m) of a dense tile (R281). -/
def rowRanges (g : Group) (e : BitVec 256) (r0 m : Nat) : List Rng :=
  let slot := tileSlot g e
  let sb := ceilDiv (tileCols e) 32
  let data : List Rng := (List.range m).map fun i =>
    (entF e 63 0, (r0 + i) * tileStride e, packedBytes (slotElem slot) (tileStored g e))
  let scales : List Rng := (List.range m).map fun i => (entF e 127 64, (r0 + i) * sb, sb)
  if slotScaled slot then data ++ scales else data

/-- Data, masks and scales of every row of a B tile (R281). -/
def bRanges (g : Group) (e : BitVec 256) : List Rng :=
  let slot := tileSlot g e
  let n := tileRows e
  let sb := ceilDiv (tileCols e) 32
  let mb := 8 * (tileCols e / 64)
  let sparse := slotSparse slot != 0
  let data : List Rng := (List.range n).map fun j =>
    (entF e 63 0, j * tileStride e, packedBytes (slotElem slot) (tileStored g e))
  let masks : List Rng := if sparse then (List.range n).map fun j => (entF e 127 64, j * mb, mb) else []
  let scales : List Rng := if slotScaled slot then
      (List.range n).map fun j => (entF e 127 64, (if sparse then n * mb else 0) + j * sb, sb) else []
  data ++ masks ++ scales

/-! ### Checks of ranges (R173, R230, R277, R287, R290) -/

/-- A failure: place in the order of the checks, cause, pointer. -/
abbrev Why := Nat × Nat × Nat

/-- Offsets at which a range may change its page or home. -/
def probePoints (off len : Nat) : List Nat :=
  if len = 0 then [] else off :: ((List.range ((off + len - 1) / 256 - off / 256)).map fun i => 256 * (off / 256 + i + 1))

/-- The failures of a range: buffer checks, then the footprint, then translation, or the owner tags of a window's rows
(R179) where `win` admits one. -/
def State.rangeWhy (s : State) (vf : Nat) (right : Right) (foot : Option (List Region)) (r : Rng) (win : Bool := false) :
    List Why :=
  let (base, off, len) := r
  let e := s.tableEntry vf (ptrIdx base)
  let at_ (o : Nat) : Nat := base / 2 ^ 48 * 2 ^ 48 + o
  match s.checkEntry vf e base (off + len) 0 (some right) win with
  | some cs => [(checkRank cs, cs, ptrAdd base off)]
  | none =>
    (match foot with
      | some rs => if rs.any fun x => x.holds base (ptrOff base + off) len then [] else [(5, cause.footprint, ptrAdd base off)]
      | none => []) ++
    (if isExternal (ptrIdx base) then []
     else if entOnchip e then
      match (List.range len).find? fun i => s.winTag e (ptrOff base + off + i) != vf with
      | some i => [(8, cause.translation, at_ (ptrOff base + off + i))]
      | none => []
     else
      -- the walk of a store asks for RO clear (R175)
      match (probePoints (ptrOff base + off) len).findSome? fun o =>
          (s.unmapped (s.locOf e (at_ o)) (right == .w)).map fun cs => (8, cs, at_ o) with
      | some w => [w]
      | none => [])

/-- The first failure in the order of the checks. -/
def firstWhy (ws : List Why) : Option Why := leastBy (fun w => w.1) ws

/-- The first failure of some ranges. -/
def State.rangesWhy (s : State) (vf : Nat) (right : Right) (foot : Option (List Region)) (rs : List Rng) : Option Why :=
  firstWhy (rs.flatMap (fun r => s.rangeWhy vf right foot r))

/-! ### Instructions performed once per bundle -/

/-- The frame of TDEF, MARM, MBIND and their kind: the lowest-numbered enabled non-helper fibre whose guard is true. -/
def onceStep (i : Instr) (s : State)
    (k : State → Cur → Group → Shape → List Nat → List (Nat × LaneOut) → Nat × LaneOut → State) :
    Host.Outcome State Fault Refusal :=
  withLanes i s (fun x => { val := some x.a, val2 := some x.bb }) fun s c g h ex outs =>
    match outs.find? fun o => (g.liveOf outs).contains o.1 with
    | some o => k s c g h ex outs o
    | none => s.retireLanes c g h ex (noVals outs)

/-- A fault of the instruction's one fibre. -/
def State.faultOne (s : State) (c : Cur) (f : Nat) (w : Why) : State := s.faultAt c w.2.1 [f] 0 w.2.2

/-- TDEF (R281). -/
def execTdef (f : CFmt) (s : State) : Host.Outcome State Fault Refusal :=
  onceStep (.tdef f) s fun s c g h ex outs o =>
    let e : BitVec 256 := BitVec.ofNat 256 (ptrOf o)
    let n := f.md.toNat % 64
    if tileOk g e then s.retireLanes c { g with tiles := tset g.tiles n e } h ex (noVals outs)
    else (s.setGroup c.gid { g with tiles := tdel g.tiles n }).faultAt c cause.matrixFormat [o.1] 0 0

/-! ### Matrix descriptors (Table 17.9) -/

structure MDesc where
  ctl : Nat
  m : Nat
  arow : Nat
  accBase : Nat
  accStride : Nat
  astage : Nat
  io : Compl
  reads : List Region
  writes : List Region
  deriving DecidableEq, Repr

def MDesc.zero (d : MDesc) : Bool := d.ctl.testBit 0
def MDesc.asrc (d : MDesc) : Nat := bitsOf d.ctl 2 1
def MDesc.bind (d : MDesc) : Nat := bitsOf d.ctl 5 3
def MDesc.ahandle (d : MDesc) : Nat := bitsOf d.ctl 11 6
def MDesc.afslot (d : MDesc) : Nat := bitsOf d.ctl 14 12
def MDesc.resport (d : MDesc) : Nat := bitsOf d.ctl 17 15
def MDesc.scope (d : MDesc) : Nat := bitsOf d.ctl 20 18
def MDesc.cls (d : MDesc) : Nat := bitsOf d.ctl 22 21

def readDesc (bs : List Byte) : MDesc :=
  let ctl := lineNat bs 0 4
  { ctl := ctl, m := lineNat bs 4 2, arow := lineNat bs 8 4, accBase := lineNat bs 12 4, accStride := lineNat bs 16 4,
    astage := lineNat bs 20 4,
    io := { cmpl := if ctl.testBit 23 then some (lineNat bs 24 8) else none
            cnt := if ctl.testBit 24 then some (lineNat bs 32 8) else none
            seq := lineNat bs 40 8, inc := lineNat bs 48 8 },
    reads := regionsAt bs 128, writes := regionsAt bs 192 }

/-- A reserved bit of a descriptor is set. -/
def descReserved (bs : List Byte) : Bool :=
  bitsOf (lineNat bs 0 4) 31 25 != 0 || lineNat bs 6 2 != 0 || lineNat bs 56 72 != 0 || regionsBad bs 128 || regionsBad bs 192

/-- The pointers of a completion are aligned (R279). -/
def Compl.aligned (o : Compl) : Bool := (o.cmpl.elim true fun p => p % 8 == 0) && (o.cnt.elim true fun p => p % 8 == 0)

/-- Bytes of a staged A row, and of its scales (R287). -/
def stageRow (slot cols : Nat) : Nat := ceilDiv (packedBytes (slotElem slot) cols) 16 * 16
def stageScale (slot cols : Nat) : Nat := if slotScaled slot then ceilDiv cols 32 else 0

/-- The binding that an operation accepted now would name: the last one accepted for the slot, or the slot's own (R301). -/
def State.bindingFor (s : State) (k gid b : Nat) (g : Group) : Binding :=
  match (s.core k).eng.reverse.find? fun x => x.gid == gid && match x.kind with
      | .bind n _ => n == b
      | .op => false with
  | some x => match x.kind with
      | .bind _ img => img
      | .op => Binding.none
  | none => tget Binding.none g.binds b

/-- The pair is active, and the group is its odd member. -/
def Group.oddOfPair (g : Group) : Bool :=
  match g.pair with
  | .active _ => g.k % 2 == 1
  | _ => false

/-- The A operand's format slot, where the operation has one. -/
def MDesc.aSlot (d : MDesc) (g : Group) : Option Nat :=
  match d.asrc with
  | 0 => (tfind g.tiles d.ahandle).map (tileSlot g)
  | 1 => some (g.fslots.getD d.afslot 0)
  | _ => none

/-- R92 over an A slot. -/
def aSlotBad (slot : Nat) (ua staged : Bool) : Bool :=
  let e := slotElem slot
  decide (6 < e) || slotSparse slot != 0 || (staged && slotScaled slot && e == 6) || (ua && e != 5)

/-- R287, R92, R302: why a descriptor is not accepted. -/
def State.acceptWhy (s : State) (gid : Nat) (g : Group) (bs : List Byte) (ua : Bool) : Option Why :=
  let d := readDesc bs
  let bad (b : Bool) : List Why := if b then [(0, cause.matrixFormat, 0)] else []
  let img := s.bindingFor g.k gid d.bind g
  let rp := d.resport
  let port := tget ResPort.empty (s.core g.k).ports (rp - 4)
  let formal := descReserved bs || d.asrc == 3 || !(rp == 0 || decide (4 ≤ rp)) || d.m == 0 || !cardScope d.scope ||
    !img.valid || (d.aSlot g).elim false (fun sl => aSlotBad sl ua (d.asrc == 1)) ||
    (d.asrc == 0 && match tfind g.tiles d.ahandle with
      | some e => decide (tileRows e < d.arow + d.m) || tileCols e != img.cols
      | none => true) ||
    (d.asrc == 1 &&
      let sl := g.fslots.getD d.afslot 0
      let data := d.m * stageRow sl img.cols
      let scales := d.m * stageScale sl img.cols
      d.astage % 16 != 0 || decide (g.padLen < d.astage + data + scales) || decide (32768 < data) || decide (2048 < scales)) ||
    decide (1024 * g.macros.length < d.accBase + (d.m - 1) * d.accStride + img.n) ||
    (decide (1 < d.m) && decide (d.accStride < img.n)) ||
    (d.asrc == 2) != g.oddOfPair ||
    (rp != 0 && port.owner.isSome && port.owner != some gid)
  let tile : List Why := match d.asrc, tfind g.tiles d.ahandle with
    | 0, some e => (rowRanges g e d.arow d.m).flatMap (fun r => s.rangeWhy g.vf .r (some (usedRegions d.reads)) r)
    | _, _ => []
  if formal then firstWhy (bad true)
  else if !d.io.aligned then some (0, cause.cardFormat, 0)
  else
    match s.footprintFail g.vf d.reads d.writes with
    | some (cs, p) => some (1, cs, p)
    | none => firstWhy tile

/-- An entry of the engine with everything plain. -/
def EngOp.blank (gid vf pc fib : Nat) (kind : EngKind) (item cycle : Nat) : EngOp :=
  { gid := gid, vf := vf, pc := pc, fib := fib, mask := 0, kind := kind, zero := false, asrc := 0, bindSlot := 0, ua := false,
    resport := 0, scope := .par, cls := 0, m := 0, arow := 0, accBase := 0, accStride := 0, atile := 0, aelem := 0,
    afslot := 0, cols := 0, width := 0, stage := [], stageScales := [], cmpl := none, cnt := none, seq := 0, inc := 0,
    item := item, turn := 0, events := 0, started := false, row := 0, pass := 0, sinceTest := 0, tested := false, rowCodes := [], rowScales := [],
    img := Binding.none, pushLeft := [], status := none, paired := none, acceptedAt := cycle }

/-- Parked reads of a port by groups that do not own it fault (R302). -/
def State.portTaken (s : State) (k q gid : Nat) : State :=
  let p := tget ResPort.empty (s.core k).ports q
  let others := p.readers.filter fun r => r.1 != gid
  let s := s.modCore k fun co =>
    { co with ports := tset co.ports q { p with owner := some gid, readers := p.readers.filter fun r => r.1 == gid } }
  others.foldl (fun s r =>
    match (s.group? r.1).bind fun g => tfind g.fibres r.2.1 with
    | some b => s.takeFault r.1 cause.matrixFormat b.pc.toNat (2 ^ b.lane) r.2.1 0 0
    | none => s) s

/-- The engine accepts a descriptor under an item's number (R285 to R288). -/
def State.acceptOp (s : State) (gid : Nat) (g : Group) (bs : List Byte) (ua : Bool) (pc fib id : Nat) : State :=
  let d := readDesc bs
  let k := g.k
  let img := s.bindingFor k gid d.bind g
  let tile := (tfind g.tiles d.ahandle).getD 0
  let slot := (d.aSlot g).getD 0
  let rowB := stageRow slot img.cols
  let scB := stageScale slot img.cols
  let rows := if d.asrc = 1 then (List.range d.m).map fun i => g.padBytes (d.astage + i * rowB) rowB else []
  let scales := if d.asrc = 1 then (List.range d.m).map fun i => g.padBytes (d.astage + d.m * rowB + i * scB) scB else []
  let paired : Option Nat := match g.pair with
    | .active _ => some g.pairSeq
    | _ => none
  let op : EngOp := { EngOp.blank gid g.vf pc fib .op id (s.cycleOf k) with
    zero := d.zero, asrc := d.asrc, bindSlot := d.bind, ua := ua, resport := d.resport, scope := scopeOf d.scope,
    cls := d.cls, m := d.m, arow := d.arow, accBase := d.accBase, accStride := d.accStride, atile := tile,
    aelem := slotElem slot, afslot := slot, cols := img.cols, width := img.n, turn := s.nextId, stage := rows, stageScales := scales, cmpl := d.io.cmpl,
    cnt := d.io.cnt, seq := d.io.seq, inc := d.io.inc, paired := paired }
  let s := { s with nextId := s.nextId + 1 }.modCore k fun co => { co with eng := co.eng ++ [op] }
  let s := if paired.isSome then s.modGroup gid fun g => { g with pairSeq := g.pairSeq + 1 } else s
  let s := s.addItem id { Item.plain .matrix g.vf d.reads d.writes with fromGrid := some g.grid, fromGroup := some gid, started := true }
  if d.resport = 0 then s
  else
    let p := tget ResPort.empty (s.core k).ports (d.resport - 4)
    if p.owner.isSome then s else s.portTaken k (d.resport - 4) gid

/-- Entries that the engine's queue has free (R285). -/
def State.descFree (s : State) (k : Nat) : Bool := decide ((s.core k).descUsed < 16)

/-! ### MARM and MSIGN (R39, R41, R295, R300) -/

/-- MARM: the checks, and the bundle parks until the descriptor has been read. -/
def execMarm (f : CFmt) (s : State) : Host.Outcome State Fault Refusal :=
  onceStep (.marm f) s fun s c g _ _ _ o =>
    let kr := f.dst.num.toNat
    let count := ptrOf o
    let off := (o.2.val2.getD 0) % 2 ^ 32
    if (tget KReg.idle g.kregs kr).armed ∨ count = 0 ∨ 1024 < count then s.faultAt c cause.convergence [o.1] kr 0
    else if off % 16 ≠ 0 then s.faultAt c cause.misaligned [o.1] 0 0
    else if g.padLen < off + 256 then s.faultAt c cause.padBounds [o.1] 0 0
    else (s.park c.gid c.en (.arming kr count off (f.md.toNat.testBit 0))).settle c

/-- The park of an arming bundle. -/
def Park.armsK (p : Park) (kr : Nat) : Bool :=
  match p with
  | .arming n _ _ _ => n == kr
  | _ => false

/-- Fibres of a group whose park satisfies a test. -/
def Group.parkedAs (g : Group) (t : Park → Bool) : List Nat := (g.fibres.filter fun p => t p.2.park).map (·.1)

/-- Parked fibres pass their instruction. -/
def Group.release (g : Group) (fs : List Nat) : Group :=
  let g := fs.foldl (fun (g : Group) f => match tfind g.fibres f with
    | some b => g.advance [f] b.pc.toNat
    | none => g) g
  { g with fibres := fs.foldl (fun t f => tmod t f fun b => { b with park := .none, popped := QReads.none, since := none }) g.fibres }

/-- Released fibres with the helpers of their quads. -/
def State.passParked (s : State) (gid : Nat) (fs : List Nat) : State :=
  s.modGroup gid fun g => (g.release fs).alignHelpers (quadsOf fs)

/-- ARMING (R300): the descriptor's lines are present and k becomes ARMED. -/
def execArming (gid kr : Nat) (s : State) : Host.Outcome State Fault Refusal :=
  match s.group? gid with
  | none => .next s
  | some g =>
    match g.fibres.find? fun p => Park.armsK p.2.park kr with
    | none => .next s
    | some (f, b) =>
      match b.park with
      | .arming _ count off ua =>
        -- bundles that arm one register are taken one at a time
        let fs := (g.fibres.filter fun p => p.2.park == b.park && p.2.pc == b.pc).map (·.1)
        if g.halted || g.evicted || g.ended.isSome then .next s
        else if (tget KReg.idle g.kregs kr).armed then .next (s.takeFault gid cause.convergence b.pc.toNat (2 ^ b.lane) f kr 0)
        else if (g.absentLine off 256).isSome then .next s
        else
          let kreg : KReg := ⟨true, count, 0, g.padBytes off 256, ua⟩
          .next ((s.setGroup gid { g with kregs := tset g.kregs kr kreg }).passParked gid fs)
      | _ => .next s

/-- The staging area of an armed register: offset and bytes (R287, R288). -/
def State.stageArea (s : State) (gid : Nat) (g : Group) (bs : List Byte) : Nat × Nat :=
  let d := readDesc bs
  let img := s.bindingFor g.k gid d.bind g
  let sl := g.fslots.getD d.afslot 0
  (d.astage, d.m * stageRow sl img.cols + d.m * stageScale sl img.cols)

/-- MSIGN (R39, R41, R288, R295). -/
def execMsign (f : CFmt) (s : State) : Host.Outcome State Fault Refusal :=
  let kr := f.dst.num.toNat
  let chunk := f.md.toNat.testBit 0
  withLanes (.msign f) s (fun x => { val := some x.a, val2 := some (x.bb % 2 ^ 32) }) fun s c g h ex outs =>
    let live := outs.filter fun o => (g.liveOf outs).contains o.1
    let kreg := tget KReg.idle g.kregs kr
    let area := s.stageArea c.gid g kreg.desc
    let at_ (o : Nat × LaneOut) : Nat := area.1 + 16 * (o.2.val2.getD 0)
    if live.isEmpty then s.retireLanes c g h ex (noVals outs)
    else if !kreg.armed ∨ kreg.expect < kreg.signed + live.length ∨ (chunk ∧ (readDesc kreg.desc).asrc ≠ 1) then
      s.faultAt c cause.convergence (live.map (·.1)) kr 0
    else
      match (if chunk then live.filter fun o => decide (area.2 ≤ 16 * (o.2.val2.getD 0)) else []) with
      | o :: t => s.faultAt c cause.convergence (o.1 :: t.map (·.1)) kr 0
      | [] =>
        match (if chunk then live.filter fun o => decide (g.padLen < at_ o + 16) else []) with
        | o :: t => s.faultAt c cause.padBounds (o.1 :: t.map (·.1)) 0 0
        | [] =>
          match (if chunk then live.filterMap fun o => g.absentLine (at_ o) 16 else []) with
          | l :: _ => (s.park c.gid c.en (.pad l)).settle c
          | [] =>
            let g := if chunk then live.foldl (fun (g : Group) o => g.padWrite (at_ o) (leBytes 16 (ptrOf o))) g else g
            let kreg := { kreg with signed := kreg.signed + live.length }
            let g := { g with kregs := tset g.kregs kr kreg }
            let s := if kreg.signed = kreg.expect then
                ((s.setGroup c.gid g).park c.gid c.en (.handoff kr live.length)).settle c
              else s.retireLanes c g h ex (noVals outs)
            if chunk then s.poke (.pad c.gid) else s

/-- DESCRIPTOR_ACCEPTANCE (R39, R285 to R288): the checks, and with a free entry the operation is accepted, the register
is IDLE and the signing bundle resumes. -/
def execDescriptorAcceptance (gid kr : Nat) (s : State) : Host.Outcome State Fault Refusal :=
  match s.group? gid with
  | none => .next s
  | some g =>
    let fs := g.parkedAs fun p => match p with
      | .handoff n _ => n == kr
      | _ => false
    match fs with
    | [] => .next s
    | f :: _ =>
      let b? := tfind g.fibres f
      let pc := b?.elim 0 (·.pc.toNat)
      let n := match b?.map (·.park) with
        | some (.handoff _ n) => n
        | _ => 0
      let kreg := tget KReg.idle g.kregs kr
      if g.halted || g.evicted || g.ended.isSome then .next s
      else
        match s.acceptWhy gid g kreg.desc kreg.ua with
        | some w =>
          let s := s.setGroup gid { g with kregs := tset g.kregs kr { kreg with signed := kreg.signed - n } }
          .next (s.takeFault gid w.2.1 pc (maskOf (quadsOf fs) fs) f 0 w.2.2)
        | none =>
          if !s.descFree g.k then .next s
          else
            let id := s.nextId
            let s := { s with nextId := id + 1 }.acceptOp gid g kreg.desc kreg.ua pc f id
            let s := s.modGroup gid fun g => { g with kregs := tdel g.kregs kr }
            .next (s.passParked gid fs)

/-! ### Bindings (R283, R290, R301) -/

/-- Columns that a macro holds (R282). -/
def macroCols (elem : Nat) : Nat := 128 / bCells elem

/-- The image that a binding of a tile would have before its load. -/
def bindImage (g : Group) (e : BitVec 256) (sparse ub : Bool) (first : Nat) : Binding :=
  let sl := tileSlot g e
  let ks := tileStored g e
  { valid := true, loaded := false, tile := e, elem := slotElem sl, sparse := sparse, ub := ub, fslot := sl, first := first,
    km := ceilDiv ks 128, nm := ceilDiv (tileRows e) (macroCols (slotElem sl)), ks := ks, cols := tileCols e, n := tileRows e,
    codes := [], scales := [], masks := [] }

/-- The masks of a sparse tile, column after column. -/
def maskRanges (e : BitVec 256) : List Rng :=
  let mb := 8 * (tileCols e / 64)
  (List.range (tileRows e)).map fun j => (entF e 127 64, j * mb, mb)

/-- The 64-bit words in the bytes of a column's masks. -/
def maskWords (bs : List Byte) : List Nat := (List.range (bs.length / 8)).map fun i => lineNat bs (8 * i) 8

/-- R290: why a binding is refused. -/
def State.bindWhy (s : State) (g : Group) (hn m : Nat) (sparse ub : Bool) : Option Why :=
  match tfind g.tiles hn with
  | none => some (0, cause.matrixFormat, 0)
  | some e =>
    let sl := tileSlot g e
    let img := bindImage g e sparse ub m
    let bad := decide (6 < slotElem sl) || (slotSparse sl != 0) != sparse || (ub && slotElem sl != 5) ||
      (sparse && tileCols e % 64 != 0)
    let used := (g.macros.drop m).take (img.km * img.nm)
    if bad ∨ g.macros.length < m + img.km * img.nm ∨ used.any (·.unavailable) then some (0, cause.matrixFormat, 0)
    else
      s.rangesWhy g.vf .r none (bRanges g e)

/-- Read rows of B (R290): codes, scales and masks of each column. -/
def State.readB (s : State) (e vf id : Nat) (rs : List Rng) : List (List Byte) → Direct (List (List Byte))
  | acc =>
    match rs with
    | [] => .ok s acc
    | r :: t =>
      match s.engineRead e vf id 0 r.1 r.2.1 r.2.2 with
      | .ok s bs => s.readB e vf id t (acc ++ [bs])
      | .wait s => .wait s
      | .fault s cs => .fault s cs

/-- The masks that MBINDS counts (R103): as they stand, or asked for through the port where the buffer is external. -/
def State.readMasks (s : State) (k gid vf : Nat) (e : BitVec 256) : Direct (List (List Byte)) :=
  if isExternal (ptrIdx (entF e 127 64)) then s.readB (k / 16) vf (bindKey gid) (maskRanges e) []
  else
    match (maskRanges e).findSome? fun r => s.poisonedAt vf (ptrAdd r.1 r.2.1) r.2.2 with
    | some p => .fault (s.lookFlags (s.locOf (s.tableEntry vf (ptrIdx p)) p)) cause.memory
    | none => .ok s ((maskRanges e).map fun r => (s.peekPtr vf (ptrAdd r.1 r.2.1) r.2.2).getD [])

/-- MBIND and MBINDS: with a free entry the binding takes its place and the bundle resumes. -/
def bindStep (i : Instr) (f : CFmt) (sparse : Bool) (s : State) : Host.Outcome State Fault Refusal :=
  onceStep i s fun s c g h ex outs o =>
    let b := f.md.toNat % 8
    let hn := ptrOf o
    let m := (o.2.val2.getD 0) % 2 ^ 32
    let ub := f.md.toNat.testBit 3
    let e := (tfind g.tiles hn).getD 0
    let take (s : State) : State :=
      if !s.descFree c.k then (s.park c.gid c.en (.binding b)).settle c
      else
        let img := bindImage g e sparse ub m
        let id := s.nextId
        let op := { EngOp.blank c.gid g.vf c.pc o.1 (.bind b img) id (s.cycleOf c.k) with mask := maskOf c.quads [o.1], turn := id }
        let s := { s with nextId := id + 1, fetched := tdel s.fetched (bindKey c.gid) }.modCore c.k fun co =>
          { co with eng := co.eng ++ [op] }
        s.retireLanes c g h ex (noVals outs)
    match s.bindWhy g hn m sparse ub with
    | some w => s.faultOne c o.1 w
    | none =>
      if !sparse then take s
      else
        match s.readMasks c.k c.gid g.vf e with
        | .wait s => (s.park c.gid c.en (.binding b)).settle c
        | .fault s cs => s.faultOne c o.1 (9, cs, entF e 127 64)
        | .ok s bss =>
          if bss.any fun bs => (maskWords bs).any fun w => popCount 64 w != sparseOf (tileSlot g e) then
            s.faultOne c o.1 (9, cause.matrixFormat, 0)
          else take s

/-- MBIND (R290). -/
def execMbind (f : CFmt) (s : State) : Host.Outcome State Fault Refusal := bindStep (.mbind f) f false s
/-- MBINDS (R103, R290). -/
def execMbinds (f : CFmt) (s : State) : Host.Outcome State Fault Refusal := bindStep (.mbinds f) f true s

/-- Fibres of a core that wait for an entry of the engine execute their instruction again. -/
def State.wakeBinders (s : State) (k : Nat) : State :=
  (s.groups.filter fun p => p.2.k == k).foldl (fun s p => s.wake p.1 Park.binds) s

/-- Change the engine's entry of an item. -/
def State.modEng (s : State) (k id : Nat) (f : EngOp → EngOp) : State :=
  s.modCore k fun co => { co with eng := co.eng.map fun x => if x.item = id then f x else x }

/-- The engine may work for a group: not while it is halted or away (R298). -/
def State.engineMay (s : State) (k gid : Nat) : Bool :=
  s.dieRuns (k / 16) && (s.group? gid).elim false fun g => !g.halted && !g.evicted

/-- The next entry of a group in the engine's order (R285). -/
def Core.front (co : Core) (gid : Nat) : Option EngOp := co.eng.find? fun x => x.gid == gid && x.status.isNone

/-- Groups with entries, in the engine's round robin. -/
def Core.engTurns (co : Core) : List Nat :=
  let gs := co.eng.foldl (fun t x => fibInsert x.gid t) []
  (gs.filter fun g => decide (co.engLast < g)) ++ gs.filter fun g => decide (g ≤ co.engLast)

/-- The first group's front entry that satisfies a test. -/
def Core.pick (co : Core) (t : EngOp → Bool) : Option EngOp :=
  co.engTurns.findSome? fun g => match co.front g with
    | some x => if t x then some x else none
    | none => none

/-- A binding with its contents. -/
def Binding.fill (img : Binding) (bss : List (List Byte)) : Binding :=
  let n := img.n
  let data := bss.take n
  let masks := if img.sparse then (bss.drop n).take n else []
  let scales := if slotScaled img.fslot then bss.drop (if img.sparse then 2 * n else n) else []
  { img with
    loaded := true
    codes := data.map (unpackCodes img.elem img.ks)
    masks := masks.map maskWords
    scales := scales.map fun bs => bs.map (·.toNat) }

/-- K positions of a 32-block that column j stores, and their codes (R103). -/
def Binding.blockOf (img : Binding) (j g : Nat) : List Nat × List Nat :=
  let codes := img.codes.getD j []
  if img.sparse then
    let w := (img.masks.getD j []).getD (g / 2) 0
    let n := sparseOf img.fslot
    let pos := (List.range 32).filter fun i => w.testBit (32 * (g % 2) + i)
    let before := if g % 2 = 1 then popCount 32 (w % 2 ^ 32) else 0
    (pos, (codes.drop (n * (g / 2) + before)).take pos.length)
  else
    let cs := (codes.drop (32 * g)).take 32
    (List.range cs.length, cs)

/-- B's integers of a block (R97, R98). -/
def Binding.ints (img : Binding) (j g : Nat) : BlockInts :=
  blockInts img.elem (6 * bCells img.elem - 1) img.ub (img.blockOf j g).2

/-- Macros that a binding takes. -/
def Binding.macros (img : Binding) : List Nat := (List.range (img.km * img.nm)).map (img.first + ·)

/-- The blocks along K. -/
def Binding.blocks (img : Binding) : Nat := ceilDiv img.cols 32

/-- A binding stands in the macros: BLOSS, and other slots that shared a macro become invalid (R98, R290). -/
def State.bindingLoaded (s : State) (gid b : Nat) (img : Binding) : State :=
  let nan (j g : Nat) : Bool := slotScaled img.fslot && (img.scales.getD j []).getD g 0 == 0xFF
  let loss := (List.range img.n).any fun j => (List.range img.blocks).any fun g => !nan j g && (img.ints j g).loss
  s.modGroup gid fun g =>
    let binds := g.binds.map fun p =>
      (p.1, if p.1 ≠ b ∧ p.2.valid ∧ p.2.macros.any img.macros.contains then { p.2 with valid := false } else p.2)
    let g := { g with binds := tset binds b img }
    if loss then g.mxRaise mxst.bloss else g

/-- BINDING_LOAD (R285, R290, R301). -/
def execBindingLoad (k : Nat) (s : State) : Host.Outcome State Fault Refusal :=
  let co := s.core k
  match co.pick fun x => (x.kind != .op) && s.engineMay k x.gid with
  | none => .next s
  | some x =>
    match x.kind, s.group? x.gid with
    | .bind b img, some g =>
      let s0 := (s.modEng k x.item fun y => { y with started := true }).wakeBinders k
      let done (s : State) : State :=
        s.modCore k fun co => { co with eng := co.eng.filter fun y => y.item != x.item, engLast := x.gid }
      match s0.readB (k / 16) g.vf x.item (bRanges g img.tile) [] with
      | .wait s => .next s
      | .fault s cs =>
        let s := (done s).modGroup x.gid fun g =>
          { g with binds := tset g.binds b { tget Binding.none g.binds b with valid := false } }
        .next (s.lateFault x.gid (if cs = cause.footprint then cause.bufInvalid else cs) x.pc x.mask x.fib 0 (entF img.tile 63 0))
      | .ok s bss => .next ((done s).bindingLoaded x.gid b (img.fill bss))
    | _, _ => .next s

/-! ### Passes (R97 to R102, R284, R289) -/

/-- What an A block contributes with: its integers, and its scale exponent; none for a NaN block. -/
def aBlockOf (elem : Nat) (ua : Bool) (scaled : Bool) (codes scales : List Nat) (g : Nat) : BlockInts × Option Int :=
  let z := scales.getD g 0
  (blockInts elem (aWidth elem ua - 1) ua ((codes.drop (32 * g)).take 32),
    if scaled then (if z = 0xFF then none else some ((z : Int) - 127)) else some 0)

/-- One block of one column (R100, R101): the accumulator and the events. -/
def blockAcc (acc : Nat) (a : BlockInts × Option Int) (img : Binding) (j g : Nat) : Nat × Nat :=
  let b := img.ints j g
  let z := (img.scales.getD j []).getD g 0
  let zb : Option Int := if slotScaled img.fslot then (if z = 0xFF then none else some ((z : Int) - 127)) else some 0
  match a.2, zb with
  | some xa, some xb =>
    if a.1.special || b.special then (accNan acc, mxst.nan)
    else
      let pos := (img.blockOf j g).1
      let sum := ((pos.zip b.ints).map fun p => a.1.ints.getD p.1 0 * p.2).foldl (· + ·) 0
      let r := accAdd acc sum (a.1.l + b.l + xa + xb)
      (r.1, if r.2 then mxst.ovf else 0)
  | _, _ => (accNan acc, mxst.nan)

/-- The blocks that macro column kq of a binding holds. -/
def Binding.blocksOf (img : Binding) (kq : Nat) : List Nat :=
  let per := if img.sparse then 2 * (128 / sparseOf img.fslot) else 4
  ((List.range per).map (per * kq + ·)).filter fun g => decide (g < img.blocks)

/-- One macro of a pass: its columns, and the blocks it holds in ascending K. -/
def macroPass (x : EngOp) (a : Nat → BlockInts × Option Int) (r : Tab Word × Nat) (q : Nat) : Tab Word × Nat :=
  let img := x.img
  let p := macroCols img.elem
  let kq := q % img.km
  let nq := q / img.km
  let cols := ((List.range p).map (nq * p + ·)).filter fun j => decide (j < img.n)
  cols.foldl (fun r j =>
    let i := x.accBase + x.row * x.accStride + j
    (img.blocksOf kq).foldl (fun (r : Tab Word × Nat) g =>
      let v := blockAcc (tget 0 r.1 i).toNat (a g) img j g
      (tput 0 r.1 i (BitVec.ofNat 32 v.1), r.2 ||| v.2)) r) r

/-- Passes of a row (R284). -/
def EngOp.passes (x : EngOp) : Nat := ceilDiv (x.img.km * x.img.nm) 16

/-- One pass of an operation over its row buffer. -/
def State.onePass (s : State) (k : Nat) (x : EngOp) : State :=
  let a := aBlockOf x.aelem x.ua (slotScaled x.afslot) x.rowCodes x.rowScales
  let qs := (List.range (x.img.km * x.img.nm)).filter fun q => q / 16 == x.pass
  let r := qs.foldl (macroPass x a) ((s.group? x.gid).elim [] (·.acc), 0)
  (s.modGroup x.gid fun g => { g with acc := r.1 }).modEng k x.item fun y =>
    { y with pass := y.pass + 1, sinceTest := y.sinceTest + 1, events := y.events ||| r.2 }

/-- A row enters the row buffer: ALOSS, and ZERO (R98, R289). A block whose scale is 0xFF has no finite element (R89). -/
def State.rowIn (s : State) (k : Nat) (x : EngOp) (codes scales : List Nat) (own : Bool) : State :=
  let lost := (List.range (ceilDiv codes.length 32)).any fun g =>
    let b := aBlockOf x.aelem x.ua (slotScaled x.afslot) codes scales g
    b.2.isSome && b.1.loss
  let s := s.modGroup x.gid fun g =>
    if x.zero then { g with acc := (List.range x.img.n).foldl (fun t j => tdel t (x.accBase + x.row * x.accStride + j)) g.acc }
    else g
  s.modEng k x.item fun y =>
    { y with rowCodes := codes, rowScales := scales, pass := 0, events := if own && lost then y.events ||| mxst.aloss else y.events }

/-- A row of A (R288, R289). -/
def State.fetchRow (s : State) (k : Nat) (x : EngOp) : Direct (List Nat × List Nat) :=
  let codes (bs : List Byte) : List Nat := unpackCodes x.aelem x.cols bs
  if x.asrc = 1 then .ok s (codes (x.stage.getD x.row []), (x.stageScales.getD x.row []).map (·.toNat))
  else
    let r := x.arow + x.row
    let sb := ceilDiv x.cols 32
    let it := tfind s.items x.item
    let inside (base off len : Nat) : Bool :=
      it.elim true fun i => i.reads.any fun g => g.holds base (ptrOff base + off) len
    let len := packedBytes x.aelem x.cols
    let off := r * entF x.atile 159 128
    if !inside (entF x.atile 63 0) off len then .fault s cause.footprint
    else
      match s.engineRead (k / 16) x.vf x.item x.cls (entF x.atile 63 0) off len with
      | .ok s bs =>
        if slotScaled x.afslot then
          if !inside (entF x.atile 127 64) (r * sb) sb then .fault s cause.footprint
          else
            match s.engineRead (k / 16) x.vf x.item x.cls (entF x.atile 127 64) (r * sb) sb with
            | .ok s zs => .ok s (codes bs, zs.map (·.toNat))
            | .wait s => .wait s
            | .fault s cs => .fault s cs
        else .ok s (codes bs, [])
      | .wait s => .wait s
      | .fault s cs => .fault s cs

/-- An operation ends with a status. -/
def State.endOp (s : State) (k id st : Nat) : State := s.modEng k id fun y => { y with status := some st, pushLeft := [] }

/-- The end of a row: the next one, or the results to push, or the end (R289, R297). -/
def State.endRow (s : State) (k : Nat) (x : EngOp) : State :=
  if x.row + 1 < x.m then s.modEng k x.item fun y => { y with row := y.row + 1, pass := 0, rowCodes := [], rowScales := [] }
  else if x.resport = 0 then s.endOp k x.item status.completed
  else
    let acc := (s.group? x.gid).elim [] (·.acc)
    let vals := (List.range x.m).flatMap fun i =>
      (List.range x.img.n).map fun j => (tget 0 acc (x.accBase + i * x.accStride + j)).toNat
    s.modEng k x.item fun y => { y with row := x.m, pushLeft := vals }

/-- A macro of the binding can no longer be used. -/
def Group.lostMacro (g : Group) (img : Binding) : Bool :=
  img.macros.any fun m => (g.macros[m]?).elim true (·.unavailable)

/-- An injection is due before the operation goes on (R293). -/
def State.testDue (s : State) (k : Nat) (x : EngOp) : Bool :=
  let c := (s.core k).mstcfg.toNat
  c.testBit 16 && (!x.tested || (c % 2 ^ 16 != 0 && decide (c % 2 ^ 16 ≤ x.sinceTest)))

/-- An accumulator access that waits was issued before the operation was accepted (R292); a group that ended makes none. -/
def Group.accessFirst (g : Group) (turn : Nat) : Bool :=
  g.ended.isNone && g.fibres.any fun p => p.2.since.elim false fun t => decide (t ≤ turn)

/-- The operation may start now (R231, R285, R292). -/
def State.mayStart (s : State) (k : Nat) (x : EngOp) : Bool :=
  s.engineMay k x.gid && s.edgesClear x.item && (s.group? x.gid).elim false fun g => !g.accessFirst x.turn

/-- An operation starts: its binding is fixed, and an invalid one ends it (R290, R293). -/
def State.startOp (s : State) (k : Nat) (x : EngOp) : State :=
  match s.group? x.gid with
  | none => s
  | some g =>
    let img := tget Binding.none g.binds x.bindSlot
    let s := (s.modEng k x.item fun y => { y with started := true, img := img }).wakeBinders k
    if !img.valid ∨ !img.loaded then s.endOp k x.item status.bindingInvalid
    else if g.lostMacro img then s.endOp k x.item status.macroFenced
    else s

/-- The operation is in its passes. -/
def EngOp.passing (x : EngOp) : Bool := x.kind == .op && x.started && decide (x.row < x.m) && x.pushLeft.isEmpty

/-- The partner of a paired operation: core, and entry. -/
def State.mate (s : State) (k : Nat) (x : EngOp) : Option EngOp :=
  match (s.group? x.gid).map Group.pair with
  | some (Pair.active p) => (s.core (k ^^^ 1)).eng.find? fun y => y.gid == p && y.paired == x.paired && x.paired.isSome
  | _ => none

/-- One step of the passes of an operation on its own. -/
def State.passAlone (s : State) (k : Nat) (x : EngOp) : State :=
  let go (s : State) : State :=
    match (s.core k).eng.find? fun y => y.item == x.item with
    | some y =>
      let s := s.onePass k y
      if y.pass + 1 < y.passes then s else s.endRow k y
    | none => s
  if x.rowCodes.isEmpty then
    match s.fetchRow k x with
    | .ok s r => go (s.rowIn k x r.1 r.2 true)
    | .wait s => s
    | .fault s cs => s.endOp k x.item (statusOf cs)
  else go s

/-- One step of a paired operation, from its even core (R291): both cores pass, and their rows end together. -/
def State.passPair (s : State) (k : Nat) (x y : EngOp) : State :=
  let find (s : State) (k id : Nat) : Option EngOp := (s.core k).eng.find? fun z => z.item == id
  let one (s : State) (k id : Nat) : State := match find s k id with
    | some z => if z.pass < z.passes then s.onePass k z else s
    | none => s
  let go (s : State) : State :=
    let s := one (one s k x.item) (k + 1) y.item
    match find s k x.item, find s (k + 1) y.item with
    | some a, some b => if a.passes ≤ a.pass ∧ b.passes ≤ b.pass then (s.endRow k a).endRow (k + 1) b else s
    | _, _ => s
  if x.rowCodes.isEmpty then
    match s.fetchRow k x with
    | .ok s r => go ((s.rowIn k x r.1 r.2 true).rowIn (k + 1) y r.1 r.2 false)
    | .wait s => s
    | .fault s cs => (s.endOp k x.item (statusOf cs)).endOp (k + 1) y.item (statusOf cs)
  else go s

/-- MATRIX_PASS (R284, R285, R289): in round-robin order, an operation starts, or makes one pass. -/
def execMatrixPass (k : Nat) (s : State) : Host.Outcome State Fault Refusal :=
  let can (x : EngOp) : Bool :=
    x.kind == .op && s.engineMay k x.gid &&
    (if !x.started then x.paired.isNone && s.mayStart k x
     else x.passing && !s.testDue k x &&
      (x.paired.isNone || (k % 2 == 0 && (s.mate k x).elim false fun y =>
        y.passing && !s.testDue (k + 1) y && s.engineMay (k + 1) y.gid)))
  match (s.core k).pick can with
  | none => .next s
  | some x =>
    let s := s.modCore k fun co => { co with engLast := x.gid }
    if !x.started then .next (s.startOp k x)
    else
      match (if x.paired.isSome then s.mate k x else none) with
      | some y => .next (s.passPair k x y)
      | none => .next (s.passAlone k x)

/-! ### Pairing (R42, R291) -/

/-- The group that a partner position names: of the same cluster, on the other core of the pair, with as many macros. -/
def State.partnerOf (s : State) (g : Group) (pos : Nat) : Option Nat :=
  let size := max 1 ((tfind s.grids g.grid).elim 1 (·.cluster))
  (s.groups.find? fun p => p.2.grid == g.grid && p.2.vf == g.vf && p.2.clupos == pos && p.2.index / size == g.index / size &&
    p.2.k == g.k ^^^ 1 && p.2.macros.length == g.macros.length && p.2.ended.isNone).map (·.1)

/-- A waiting MPAIR ends with its predicate. -/
def State.endPairWait (s : State) (gid : Nat) (q : Bool) : State :=
  match s.group? gid with
  | none => s
  | some g =>
    let fs := g.parkedAs fun p => match p with
      | .pairing _ _ => true
      | _ => false
    let fibres := fs.foldl (fun t f => tmod t f fun b => match b.park with
      | .pairing p true => b.setP p q
      | _ => b) g.fibres
    (s.setGroup gid { g with fibres := fibres, pairWait := none }).passParked gid fs

/-- The pair of a group becomes active. The count of its operations goes on where it was active with the same partner, and
a pair with another one ends on its other side (DESIGN CHOICE, log 45). -/
def State.formPair (s : State) (gid p : Nat) : State :=
  match (s.group? gid).map Group.pair with
  | some (.active q) =>
    if q = p then s
    else
      let s := s.modGroup q fun x => if x.pair = .active gid then { x with pair := .none } else x
      s.modGroup gid fun g => { g with pair := .active p, pairSeq := 0 }
  | _ => s.modGroup gid fun g => { g with pair := .active p, pairSeq := 0 }

/-- MPAIR (R291). -/
def execMpair (f : CFmt) (s : State) : Host.Outcome State Fault Refusal :=
  onceStep (.mpair f) s fun s c g h ex outs o =>
    let target := s.partnerOf g (ptrOf o)
    let said (s : State) (q : Bool) : State :=
      match s.group? c.gid with
      | some g => s.retireLanes c g h ex ((outs.filter fun x => (g.liveOf outs).contains x.1).map fun x => (x.1, { p := some q }))
      | none => s
    -- a group that waits for this one, which now names another, waits no longer
    let s := (s.groups.filter fun p => some p.1 != target && p.2.pairWait.elim false fun w => w.1 == c.gid).foldl
      (fun s p => s.endPairWait p.1 false) s
    match target with
    | none => said s false
    | some p =>
      if ((s.group? p).bind (·.pairWait)).elim false fun w => w.1 == c.gid then
        said (((s.formPair c.gid p).formPair p c.gid).endPairWait p true) true
      else
        let s := s.modGroup c.gid fun g => { g with pairWait := some (p, s.cycleOf c.k) }
        (c.en.foldl (fun s x => s.park c.gid [x] (.pairing f.dst.num.toNat ((g.liveOf outs).contains x))) s).settle c

/-- MPAIR_TIMEOUT (R291). -/
def execMpairTimeout (gid : Nat) (s : State) : Host.Outcome State Fault Refusal :=
  match s.group? gid with
  | none => .next s
  | some g =>
    .next (if g.pairWait.elim false fun w => decide (w.2 + 1048576 ≤ s.cycleOf g.k) then s.endPairWait gid false else s)

/-- Paired operations of a group that have not completed. -/
def State.pairedLeft (s : State) (g : Group) (gid : Nat) : Bool :=
  (s.core g.k).eng.any fun x => x.gid == gid && x.paired.isSome

/-- MUNPAIR (R291). -/
def execMunpair (f : CFmt) (s : State) : Host.Outcome State Fault Refusal :=
  onceStep (.munpair f) s fun s c g h ex outs _ =>
    if s.pairedLeft g c.gid then (s.park c.gid c.en .engine).settle c
    else
      let s := match g.pair with
        | .active p => s.modGroup p fun q => { q with pair := .none }
        | _ => s
      s.retireLanes c { g with pair := .none } h ex (noVals outs)

/-- PAIRED_START (R42, R291): two cycles after the later acceptance; unlike sides end with Pair Mismatch, and what lost its
partner with Partner Lost, but with Binding Invalid where its own binding's load failed (R301). The odd core's operation
takes the even core's A rows with their element format and signedness: its own A signedness bit is neither checked nor used
(DESIGN CHOICE, log 43). -/
def execPairedStart (k : Nat) (s : State) : Host.Outcome State Fault Refusal :=
  let co := s.core k
  match co.pick fun x => x.kind == .op && x.paired.isSome && !x.started && s.mayStart k x with
  | none => .next s
  | some x =>
    match s.group? x.gid with
    | none => .next s
    | some g =>
      let alone := match g.pair with
        | .active p => g.ended.isSome || (s.group? p).elim true fun q => q.ended.isSome
        | _ => true
      if alone then
        .next (s.endOp k x.item
          (if (tget Binding.none g.binds x.bindSlot).valid then status.partnerLost else status.bindingInvalid))
      else
        match s.mate k x with
        | none => .next s
        | some y =>
          let j := k ^^^ 1
          if y.started || y.status.isSome || !s.mayStart j y || ((s.core j).front y.gid).elim true (fun z => z.item != y.item) ||
              decide (s.cycleOf k < max x.acceptedAt y.acceptedAt + 2) then .next s
          else if x.m ≠ y.m ∨ x.cols ≠ y.cols then
            .next ((s.endOp k x.item status.pairMismatch).endOp j y.item status.pairMismatch)
          else
            let even := if k % 2 = 0 then x else y
            let odd := if k % 2 = 0 then y else x
            let ke := k / 2 * 2
            let s := s.modEng (ke + 1) odd.item fun z => { z with aelem := even.aelem, afslot := even.afslot, ua := even.ua }
            let s := (s.startOp ke even).startOp (ke + 1) odd
            let st (k id : Nat) : Option Nat := ((s.core k).eng.find? fun z => z.item == id).bind (·.status)
            match (st ke even.item).orElse fun _ => st (ke + 1) odd.item with
            | some v => .next ((s.endOp ke even.item v).endOp (ke + 1) odd.item v)
            | none => .next s

/-! ### Accumulator access (R292) -/

/-- An operation writes some accumulator of [lo, lo + n). -/
def EngOp.writesIn (x : EngOp) (lo n : Nat) : Bool :=
  x.kind == .op && (List.range x.m).any fun i =>
    let a := x.accBase + i * x.accStride
    decide (a < lo + n) && decide (lo < a + x.width)

/-- Operations of the group accepted before a turn that write in a range. -/
def State.accBusy (s : State) (g : Group) (gid before lo n : Nat) : Bool :=
  (s.core g.k).eng.any fun x => x.gid == gid && decide (x.turn < before) && x.writesIn lo n

/-- The turn before which operations count for a bundle: when its instruction first issued. -/
def State.sinceOf (s : State) (g : Group) (en : List Nat) : Nat :=
  ((en.filterMap fun f => (tfind g.fibres f).bind (·.since)).headD s.nextId)

/-- Park a bundle on the engine, noting when its instruction first issued. -/
def State.parkEngine (s : State) (c : Cur) (before : Nat) (p : Park) : State :=
  let s := c.en.foldl (fun s f => s.modFibre c.gid f fun b => { b with since := some before }) s
  (s.park c.gid c.en p).settle c

/-- The fibres of a bundle forget it. -/
def Group.forget (g : Group) (fs : List Nat) : Group :=
  { g with fibres := fs.foldl (fun t f => tmod t f fun b => { b with since := none }) g.fibres }

/-- The frame of MACRD, MACWR and MACCLR: bounds, the wait, and each fibre's own access. -/
def accStep (i : Instr) (s : State) (count : Nat × LaneOut → Nat) (helpers : Bool)
    (act : Group → Nat × LaneOut → Group × LaneOut) : Host.Outcome State Fault Refusal :=
  withLanes i s (fun x => { val := some (x.a % 2 ^ 32), val2 := some x.bb }) fun s c g h ex outs =>
    let live := outs.filter fun o => (g.liveOf outs).contains o.1
    let top := 1024 * g.macros.length
    let bad := live.filter fun o => decide (0 < count o) && decide (top < ptrOf o + count o)
    match bad with
    | o :: t => s.faultAt c cause.accBounds (o.1 :: t.map (·.1)) 0 0
    | [] =>
      let before := s.sinceOf g c.en
      if live.any fun o => decide (0 < count o) && s.accBusy g c.gid before (ptrOf o) (count o) then
        s.parkEngine c before .engine
      else
        let who := if helpers then outs else live
        let r := who.foldl (fun (r : Group × List (Nat × LaneOut)) o =>
          match act r.1 o with
          | (g, out) => (g, r.2 ++ [(o.1, out)])) (g.forget c.en, [])
        s.retireLanes c r.1 h ex r.2

/-- Accumulators x to x + n - 1 as a register group. -/
def Group.accGroup (g : Group) (x : Nat) : Nat → Nat
  | 0 => 0
  | n + 1 => (tget 0 g.acc x).toNat + 2 ^ 32 * g.accGroup (x + 1) n

def Group.setAcc (g : Group) (x : Nat) : Nat → Nat → Group
  | 0, _ => g
  | n + 1, v => { g with acc := tput 0 g.acc x (BitVec.ofNat 32 v) }.setAcc (x + 1) n (v / 2 ^ 32)

/-- MACRD (R292). -/
def execMacrd (f : CFmt) (s : State) : Host.Outcome State Fault Refusal :=
  let n := 2 ^ bitsOf f.md.toNat 1 0
  accStep (.macrd f) s (fun _ => n) true fun g o => (g, { val := some (g.accGroup (ptrOf o) n) })

/-- MACWR (R292). -/
def execMacwr (f : CFmt) (s : State) : Host.Outcome State Fault Refusal :=
  let n := 2 ^ bitsOf f.md.toNat 1 0
  accStep (.macwr f) s (fun _ => n) false fun g o => (g.setAcc (ptrOf o) n (o.2.val2.getD 0), {})

/-- MACCLR (R292). -/
def execMacclr (f : CFmt) (s : State) : Host.Outcome State Fault Refusal :=
  let n (o : Nat × LaneOut) : Nat := o.2.val2.getD 0 % 2 ^ 32
  accStep (.macclr f) s n false fun g o =>
    ({ g with acc := g.acc.filter fun p => !(decide (ptrOf o ≤ p.1) && decide (p.1 < ptrOf o + n o)) }, {})

/-! ### Self-test (R293, R294, R304) -/

/-- Physical macros of a core that groups own. -/
def State.ownedPhys (s : State) (k : Nat) : List Nat :=
  (s.groups.filter fun p => p.2.k == k && !p.2.evicted).flatMap fun p => p.2.macros.map (·.phys)

/-- The spares of a core: usable macros that no group owns. -/
def State.spares (s : State) (k : Nat) : List Nat :=
  (List.range 64).filter fun m => !(s.core k).fenced.contains m && !(s.ownedPhys k).contains m

/-- The bytes of a range at a reload: as they stand; what lies beyond a port returns free bytes at once (DESIGN CHOICE, log
46). -/
def State.reload (vf : Nat) (s : State) (r : Rng) : State × Option (List Byte) :=
  let p := ptrAdd r.1 r.2.1
  if isExternal (ptrIdx p) then (s.bump, some (s.hostBytes r.2.2)) else (s, s.peekPtr vf p r.2.2)

/-- The ranges read one after another by one read. -/
def readEach (read : State → Rng → State × Option (List Byte)) (s : State) (rs : List Rng) :
    State × Option (List (List Byte)) :=
  rs.foldl (fun p r =>
    let q := read p.1 r
    (q.1, p.2.bind fun bs => q.2.map fun b => bs ++ [b])) (s, some [])

/-- The ranges of a tile at a reload. -/
def State.reloads (s : State) (vf : Nat) (rs : List Rng) : State × Option (List (List Byte)) :=
  readEach (State.reload vf) s rs

/-- Whether the tile still holds what a binding was loaded with (R304). -/
def State.tileSame (s : State) (g : Group) (img : Binding) : State × Bool :=
  match s.reloads g.vf (bRanges g img.tile) with
  | (s, some bss) =>
    let now := img.fill bss
    (s, now.codes == img.codes && now.scales == img.scales && now.masks == img.masks)
  | (s, none) => (s, false)

/-- One macro of a binding fails its test (R293, R304): it is fenced, and a spare takes its number or it becomes
unavailable. -/
def State.fenceMacro (s : State) (k gid : Nat) (img : Binding) (bad : BitVec 64) (m : Nat) : State :=
  match (s.group? gid).bind fun g => g.macros[m]? with
  | none => s
  | some om =>
    if om.unavailable || !bad.getLsbD om.phys then s
    else
      let s := s.modCore k fun co => { co with fenced := if co.fenced.contains om.phys then co.fenced else co.fenced ++ [om.phys] }
      let lost : OwnedMacro := { om with failed := true, unavailable := true }
      let put (s : State) (new : OwnedMacro) : State := s.modGroup gid fun g => { g with macros := g.macros.set m new }
      match (s.spares k).find? (fun x => !bad.getLsbD x), s.group? gid with
      | some x, some g =>
        match s.tileSame g img with
        | (s, same) => put s (if same then ⟨x, true, true, false⟩ else lost)
      | _, _ => put s lost

/-- SELF_TEST_INJECTION (R293, R304): before an operation, after ROWINT passes, or for an MTEST; `bad` marks the physical
macros whose sums disagree. -/
def execSelfTestInjection (k : Nat) (bad : BitVec 64) (s : State) : Host.Outcome State Fault Refusal :=
  match (s.core k).pick fun x => x.passing && s.testDue k x && s.engineMay k x.gid with
  | some x =>
    let s := x.img.macros.foldl (fun s m => s.fenceMacro k x.gid x.img bad m) s
    let s := s.modEng k x.item fun y => { y with tested := true, sinceTest := 0 }
    if (s.group? x.gid).elim true fun g => g.lostMacro x.img then
      let s' := s.endOp k x.item status.macroFenced
      match s.mate k x with
      | some y => .next (s'.endOp (k ^^^ 1) y.item status.macroFenced)
      | none => .next s'
    else .next s
  | none =>
    match s.groups.find? fun p => p.2.k == k && !p.2.halted && !p.2.evicted && p.2.fibres.any fun b => b.2.park == .mtest with
    | some (gid, g) =>
      let imgs := (g.binds.map (·.2)).filter fun b => b.valid && b.loaded
      let s := imgs.foldl (fun s img => img.macros.foldl (fun s m => s.fenceMacro k gid img bad m) s) s
      .next (s.modGroup gid fun g => { g with fibres := g.fibres.map fun p =>
        (p.1, if p.2.park = .mtest then { p.2 with park := .none, since := some 0 } else p.2) })
    | none => .next s

/-- MTEST's mask: failed, replaced or unavailable (R294). -/
def Group.testMask (g : Group) : Nat :=
  (g.macros.zipIdx).foldl (fun m p => if p.1.failed || p.1.replaced || p.1.unavailable then m ||| 2 ^ p.2 else m) 0

/-- MTEST (R294): after every operation accepted before it, and its injection. -/
def execMtest (f : CFmt) (s : State) : Host.Outcome State Fault Refusal :=
  onceStep (.mtest f) s fun s c g h ex outs _ =>
    let before := s.sinceOf g c.en
    if before = 0 then s.retireLanes c (g.forget c.en) h ex (outs.map fun o => (o.1, { val := some g.testMask }))
    else if (s.core g.k).eng.any fun x => x.gid == c.gid && x.kind == .op && decide (x.turn < before) then
      s.parkEngine c before .engine
    else s.parkEngine c before .mtest

/-- What MCAP reports (R294). -/
def State.capWord (s : State) (g : Group) (cnt : Bool) : Nat :=
  if cnt then
    (64 - (s.core g.k).fenced.length) % 128 + 2 ^ 8 * ((s.spares g.k).length % 128) + 2 ^ 16 * (g.macros.length % 128)
  else (g.macros.zipIdx).foldl (fun m p => if p.1.unavailable then m else m ||| 2 ^ p.2) 0

/-- MCAP (R294). -/
def execMcap (f : CFmt) (s : State) : Host.Outcome State Fault Refusal :=
  onceStep (.mcap f) s fun s c g h ex outs _ =>
    s.retireLanes c g h ex (outs.map fun o => (o.1, { val := some (s.capWord g (f.md.toNat.testBit 0)) }))

/-! ### Results (R297, R302, R303) -/

/-- RESULT_PUSH (R297): one result into the port of the group's finished operation, while there is room; parked reads are
served. -/
def execResultPush (k : Nat) (s : State) : Host.Outcome State Fault Refusal :=
  let port (x : EngOp) : ResPort := tget ResPort.empty (s.core k).ports (x.resport - 4)
  match (s.core k).pick fun x => !x.pushLeft.isEmpty && decide ((port x).fifo.length < 1024) && s.engineMay k x.gid with
  | none => .next s
  | some x =>
    match x.pushLeft with
    | [] => .next s
    | v :: t =>
      let q := x.resport - 4
      let p := port x
      let s := s.modCore k fun co => { co with ports := tset co.ports q { p with fifo := p.fifo ++ [BitVec.ofNat 32 v] } }
      let s := s.modEng k x.item fun y => { y with pushLeft := t, status := if t.isEmpty then some status.completed else none }
      .next ((s.servePort k q).converge x.gid)

end Sys2Proof.Machine
end

