-- ==== Sys2Proof/Machine/Cards.lean ====
section
/-! DEFINITION. QWR and QWRC, cards and their acceptance, copy engines, and the completion of engine work (R271 to R280). -/

namespace Sys2Proof.Machine

/-! ### Copy cards (Table 17.3) -/

structure CopyCard where
  src : Nat
  dst : Nat
  idx : Nat
  rowBytes : Nat
  rows : Nat
  sstride : Nat
  dstride : Nat
  ctl : Nat
  io : Compl
  reads : List Region
  writes : List Region
  deriving DecidableEq, Repr

def readCopy (bs : List Byte) : CopyCard :=
  let ctl := lineNat bs 40 4
  { src := lineNat bs 0 8, dst := lineNat bs 8 8, idx := lineNat bs 16 8, rowBytes := lineNat bs 24 4, rows := lineNat bs 28 4,
    sstride := lineNat bs 32 4, dstride := lineNat bs 36 4, ctl := ctl,
    io := { cmpl := if ctl.testBit 8 then some (lineNat bs 48 8) else none
            cnt := if ctl.testBit 9 then some (lineNat bs 56 8) else none
            seq := lineNat bs 64 8, inc := lineNat bs 72 8 },
    reads := regionsAt bs 128, writes := regionsAt bs 192 }

def CopyCard.gather (c : CopyCard) : Bool := c.ctl.testBit 0
def CopyCard.spad (c : CopyCard) : Bool := c.ctl.testBit 1
def CopyCard.dpad (c : CopyCard) : Bool := c.ctl.testBit 2
def CopyCard.scope (c : CopyCard) : Nat := bitsOf c.ctl 5 3
def CopyCard.cls (c : CopyCard) : Nat := bitsOf c.ctl 7 6

/-- The reserved parts that copy and task cards share. -/
def cardReserved (bs : List Byte) : Bool :=
  lineNat bs 44 4 != 0 || lineNat bs 80 48 != 0 || regionsBad bs 128 || regionsBad bs 192

/-- R276, R279: the card's own fields. -/
def CopyCard.bad (c : CopyCard) (bs : List Byte) : Bool :=
  cardReserved bs || c.ctl / 2 ^ 10 != 0 || !cardScope c.scope || c.rowBytes == 0 || decide (2 ^ 24 < c.rowBytes) ||
  c.rows == 0 || decide (2 ^ 24 < c.rows) || !c.io.aligned

/-- Source row i starts at this distance from SRC. -/
def CopyCard.srcOff (c : CopyCard) (index : List Nat) (i : Nat) : Nat :=
  (if c.gather then index.getD i 0 else i) * c.sstride
def CopyCard.dstOff (c : CopyCard) (i : Nat) : Nat := i * c.dstride

/-- The row indices in the bytes of an index list. -/
def indexOf (bs : List Byte) : List Nat := (List.range (bs.length / 4)).map fun i => lineNat bs (4 * i) 4

/-- The index list is read through a port. -/
def CopyCard.farIndex (c : CopyCard) : Bool := c.gather && isExternal (ptrIdx c.idx)

/-- First byte and end of a side, by the distances of its rows. -/
def envelope (base rowBytes : Nat) (offs : List Nat) : Nat × Nat :=
  let lo := offs.foldl min (offs.headD 0)
  let hi := offs.foldl max 0
  (base + lo, base + hi + rowBytes)

/-- R277: source and destination envelopes meet. -/
def CopyCard.overlaps (c : CopyCard) (index : List Nat) : Bool :=
  let srcs := (List.range c.rows).map (c.srcOff index)
  let dsts := (List.range c.rows).map c.dstOff
  let same := if c.spad && c.dpad then true else !c.spad && !c.dpad && ptrIdx c.src == ptrIdx c.dst
  let base (pad : Bool) (p : Nat) : Nat := if pad then p % 2 ^ 32 else ptrOff p
  let a := envelope (base c.spad c.src) c.rowBytes srcs
  let b := envelope (base c.dpad c.dst) c.rowBytes dsts
  same && decide (a.1 < b.2) && decide (b.1 < a.2)

/-- The failures of one side's rows: a scratchpad's bounds (R195), or the checks of ranges. -/
def State.sideWhy (s : State) (g : Group) (pad : Bool) (base rowBytes : Nat) (right : Right) (foot : List Region)
    (offs : List Nat) : List Why :=
  if pad then
    (offs.filter fun o => decide (g.padLen < base % 2 ^ 32 + o + rowBytes)).map fun _ => (4, cause.padBounds, 0)
  else offs.flatMap fun o => s.rangeWhy g.vf right (some (usedRegions foot)) (base, o, rowBytes) true

/-- The failures of the destination's rows. -/
def State.dstWhy (s : State) (g : Group) (c : CopyCard) : List Why :=
  s.sideWhy g c.dpad c.dst c.rowBytes .w c.writes ((List.range c.rows).map c.dstOff)

/-- R277: the probe of a card's rows and index list; the order of Table 11.2, then Translation, then Copy Overlap. -/
def State.probeWhy (s : State) (g : Group) (c : CopyCard) (index : List Nat) : List Why :=
  s.sideWhy g c.spad c.src c.rowBytes .r c.reads ((List.range c.rows).map (c.srcOff index)) ++
  s.dstWhy g c ++
  (if c.overlaps index then [(10, cause.copyOverlap, c.dst)] else [])

/-- The failures of the index list itself, a poisoned line of it among them (R343). -/
def State.indexWhy (s : State) (g : Group) (c : CopyCard) : List Why :=
  if !c.gather then []
  else
    match s.rangeWhy g.vf .r (some (usedRegions c.reads)) (c.idx, 0, 4 * c.rows) true with
    | [] =>
      if c.farIndex || entOnchip (s.tableEntry g.vf (ptrIdx c.idx)) then []
      else ((s.poisonedAt g.vf c.idx (4 * c.rows)).map fun p => (9, cause.memory, p)).toList
    | ws => ws

/-- The index list as it stands (R277). -/
def State.indexNow (s : State) (g : Group) (c : CopyCard) : List Nat :=
  if !c.gather || c.farIndex then []
  else
    let e := s.tableEntry g.vf (ptrIdx c.idx)
    if entOnchip e then indexOf (s.winRead e (ptrOff c.idx) (4 * c.rows)).2
    else indexOf ((s.peekPtr g.vf c.idx (4 * c.rows)).getD [])

/-- R275 steps 2 and 3 of a copy card. -/
def State.copyWhy (s : State) (g : Group) (bs : List Byte) : Option Why :=
  let c := readCopy bs
  if c.bad bs then some (0, cause.cardFormat, 0)
  else
    match s.footprintFail g.vf c.reads c.writes with
    | some (cs, p) => some (1, cs, p)
    | none =>
      match s.indexWhy g c with
      -- without the list only the destination's rows are known
      | w :: t => firstWhy ((w :: t) ++ s.dstWhy g c)
      | [] => if c.farIndex then none else firstWhy (s.probeWhy g c (s.indexNow g c))

/-! ### Task cards (Table 17.6) -/

structure TaskCard where
  launch : Nat
  waits : List (Nat × Nat)
  prio : Nat
  scope : Nat
  ctl : Nat
  io : Compl
  reads : List Region
  writes : List Region
  deriving DecidableEq, Repr

def readTask (bs : List Byte) : TaskCard :=
  let ctl := lineNat bs 40 4
  { launch := lineNat bs 0 8,
    waits := (if ctl.testBit 4 then [(lineNat bs 8 8, lineNat bs 16 8)] else []) ++
      (if ctl.testBit 5 then [(lineNat bs 24 8, lineNat bs 32 8)] else []),
    prio := ctl % 16, scope := bitsOf ctl 8 6, ctl := ctl,
    io := { cmpl := if ctl.testBit 9 then some (lineNat bs 48 8) else none
            cnt := if ctl.testBit 10 then some (lineNat bs 56 8) else none
            seq := lineNat bs 64 8, inc := lineNat bs 72 8 },
    reads := regionsAt bs 128, writes := regionsAt bs 192 }

/-- R280, R279: what makes a task card malformed. -/
def State.taskBad (s : State) (vf : Nat) (bs : List Byte) : Bool :=
  let c := readTask bs
  cardReserved bs || c.ctl / 2 ^ 11 != 0 || !cardScope c.scope || !c.io.aligned || c.launch % 64 != 0 ||
  (s.checkPtr vf c.launch 384 64 .r).isSome

/-- R275 step 2 of a task card. -/
def State.taskWhy (s : State) (vf : Nat) (bs : List Byte) : Option Why :=
  if s.taskBad vf bs then some (0, cause.cardFormat, 0)
  else
    let c := readTask bs
    (s.footprintFail vf c.reads c.writes).map fun w => (1, w.1, w.2)

/-- The item that a task card becomes. -/
def taskItem (vf : Nat) (bs : List Byte) : Item :=
  let c := readTask bs
  { Item.plain .task vf c.reads c.writes with
    prio := c.prio, launch := c.launch, waits := c.waits, scope := scopeOf c.scope, cmpl := c.io.cmpl, cnt := c.io.cnt,
    seq := c.io.seq, inc := c.io.inc }

/-! ### QWR and QWRC (R273 to R275) -/

/-- QWR (R274). -/
def execQwr (f : CFmt) (s : State) : Host.Outcome State Fault Refusal :=
  withLanes (.qwr f) s (fun x => outVal x.a) fun s c g h ex outs => moveEnd s c g h ex outs 16

/-- The card a QWRC submits: the buffer with its 16 bytes, padded with zeros (R273). -/
def Fibre.cardWith (b : Fibre) (q v : Nat) : List Byte := b.card q ++ leBytes 16 v
def padCard (bs : List Byte) : List Byte := bs ++ List.replicate (256 - bs.length) 0

/-- R275 steps 1 to 3: why a card is refused. -/
def State.cardWhy (s : State) (gid : Nat) (g : Group) (q : Nat) (ua : Bool) (bs : List Byte) : Option Why :=
  if bs.length % 16 ≠ 0 ∨ 256 < bs.length then some (0, cause.cardFormat, 0)
  else
    let full := padCard bs
    match q with
    | 0 => s.copyWhy g full
    | 1 => s.taskWhy g.vf full
    | _ => s.acceptWhy gid g full ua

/-- The scope at which a card's submission releases (R232). -/
def cardScopeOf (q : Nat) (bs : List Byte) : Scope :=
  match q with
  | 0 => scopeOf (readCopy bs).scope
  | 1 => scopeOf (readTask bs).scope
  | _ => scopeOf (readDesc bs).scope

/-- A fibre's card after its checks: the release (R232), the index list through a port asked for, and the fibre parks. -/
def State.submit (s : State) (c : Cur) (q : Nat) (ua : Bool) (f : Nat) (bs : List Byte) : State :=
  match s.group? c.gid with
  | none => s
  | some g =>
    let full := padCard bs
    let id := s.nextId
    -- R221: a clamped VF's card releases at .par
    match s.clamp g.vf (cardScopeOf q full) with
    | (s, sc) =>
    match s.release c.k c.gid f sc fun _ _ => true with
    | (s, ids) =>
      let cc := readCopy full
      let far := q == 0 && cc.farIndex
      let card : Card :=
        { q := q, ua := ua, gid := c.gid, fib := f, vf := g.vf, die := c.k / 16, bytes := full, after := ids, accepted := false,
          running := false, moved := [], index := if q = 0 then s.indexNow g cc else [], status := none }
      let s := { s with nextId := id + 1, cards := tset s.cards id card }
      let s := if far then
          match s.engineRead (c.k / 16) g.vf id cc.cls cc.idx 0 (4 * cc.rows) with
          | .ok s _ | .wait s | .fault s _ => s
        else s
      s.park c.gid [f] (.card id)

/-- QWRC (R275). -/
def execQwrc (f : CFmt) (s : State) : Host.Outcome State Fault Refusal :=
  withLanes (.qwrc f) s (fun x => outVal x.a) fun s c g h ex outs =>
    let q := h.dst.1.num.toNat
    let ua := f.md.toNat.testBit 0
    let live := outs.filter fun o => (g.liveOf outs).contains o.1
    let card (o : Nat × LaneOut) : List Byte :=
      ((tfind g.fibres o.1).elim [] fun b => b.cardWith q (o.2.val.getD 0))
    let fails : List Fail := live.filterMap fun o =>
      (s.cardWhy c.gid g q ua (card o)).map fun w => ⟨o.1, w.1, w.2.1, w.2.2⟩
    match s.raiseFirst c fails with
    | some t =>
      let t := fails.foldl (fun t x => if x.cause = cause.memory then t.lookFlags (s.locOf (s.tableEntry g.vf (ptrIdx x.eptr)) x.eptr) else t) t
      fails.foldl (fun t x => t.modFibre c.gid x.fib fun b => b.setCard q []) t
    | none =>
      let who := live.map (·.1)
      let stay := g.staying who
      let s := s.setGroup c.gid (g.advance (ex.filter fun x => !stay x) c.pc)
      (live.foldl (fun s o => s.submit c q ua o.1 (card o)) s).finish c

/-! ### Acceptance (R181, R231, R275, R285) -/

/-- A free entry of the queue that a card is for (R278, R280, R285). -/
def State.entryFree (s : State) (c : Card) (k : Nat) : Bool :=
  match c.q with
  | 0 => decide (s.copyWaiting c.die < 64)
  | 1 => decide ((s.items.filter fun p => p.2.kind == .task && p.2.vf == c.vf && !p.2.started).length < Config.halyardEntries c.vf)
  | _ => s.descFree k

/-- Destination bytes of a row. -/
def CopyCard.dstRow (c : CopyCard) (i : Nat) : Nat := (if c.dpad then c.dst % 2 ^ 32 else ptrOff c.dst) + c.dstOff i

/-- The destination lines of a card, ascending, without repeats. -/
def CopyCard.lines (c : CopyCard) : List Nat :=
  ascending ((List.range c.rows).flatMap fun i =>
    (lineSegs (c.dstRow i) c.rowBytes).map fun p => p.1 / 128)

/-- The index list of a card that reads it through a port, once it has come. -/
inductive FarIndex where
  | wait
  | fault (cs : Nat)
  | ok (index : List Nat)
  deriving DecidableEq, Repr

def State.farIndex (s : State) (id : Nat) (vf die : Nat) (cc : CopyCard) (have_ : List Nat) : State × FarIndex :=
  if !cc.farIndex then (s, .ok have_)
  else
    match s.engineRead die vf id cc.cls cc.idx 0 (4 * cc.rows) with
    | .ok s bs => (s, .ok (indexOf bs))
    | .wait s => (s, .wait)
    | .fault s cs => (s, .fault cs)

/-- A fault of a parked QWRC: precise at its PC, its buffer emptied. -/
def State.cardFault (s : State) (id : Nat) (c : Card) (cs ptr : Nat) : State :=
  let pc := ((s.group? c.gid).bind fun g => tfind g.fibres c.fib).elim 0 (·.pc.toNat)
  let mask := s.laneMask c.gid [c.fib]
  let s := { s with cards := tdel s.cards id, fetched := tdel s.fetched id }
  let s := s.modFibre c.gid c.fib fun b => b.setCard c.q []
  s.takeFault c.gid cs pc mask c.fib 0 ptr

/-- A card enters its queue; its fibre passes the QWRC with an empty buffer. -/
def State.acceptCard (s : State) (id : Nat) (c : Card) (g : Group) (index : List Nat) : State :=
  let b? := tfind g.fibres c.fib
  let pc := b?.elim 0 (·.pc.toNat)
  let s := match c.q with
    | 0 =>
      let cc := readCopy c.bytes
      let it := { Item.plain .copy c.vf cc.reads cc.writes with fromGrid := some g.grid, fromGroup := some c.gid, started := true }
      let s := s.addItem id it
      let s := { s with cards := tset s.cards id { c with accepted := true, index := index } }
      let s := s.modDie c.die fun d => { d with copyq := d.copyq ++ [id] }
      if cc.dpad then s.modGroup c.gid fun g => { g with absent := cc.lines.foldl (fun t l => fibInsert l t) g.absent } else s
    | 1 =>
      let s := { s with cards := tdel s.cards id }
      s.addItem id { taskItem c.vf c.bytes with fromGrid := some g.grid, fromGroup := some c.gid }
    | _ => { s with cards := tdel s.cards id }.acceptOp c.gid g c.bytes c.ua pc c.fib id
  (s.modFibre c.gid c.fib fun b => b.setCard c.q []).passParked c.gid [c.fib]

/-- The queue that a card is for: a die's copy queue, a VF's Halyard queue, a core's engine queue. -/
def State.queueOf (s : State) (c : Card) : Nat × Nat :=
  (c.q, if c.q = 0 then c.die else if c.q = 1 then c.vf else (s.group? c.gid).elim 0 (·.k))

/-- R274: a card submitted earlier has not reached the same queue yet. -/
def State.cardBefore (s : State) (id : Nat) (c : Card) : Bool :=
  s.cards.any fun p => decide (p.1 < id) && !p.2.accepted && s.queueOf p.2 == s.queueOf c

/-- CARD_ACCEPTANCE (R274, R275): the cards submitted before it to its queue are in, the release is complete and an entry is
free. -/
def execCardAcceptance (id : Nat) (s : State) : Host.Outcome State Fault Refusal :=
  match tfind s.cards id with
  | none => .next s
  | some c =>
    match s.group? c.gid with
    | none => .next s
    | some g =>
      if c.accepted || s.cardBefore id c || s.outstanding c.after || g.halted || g.evicted || g.ended.isSome then .next s
      else
        let cc := readCopy c.bytes
        match (if c.q = 0 then s.farIndex id c.vf c.die cc c.index else (s, .ok [])) with
        | (s, .wait) => .next s
        | (s, .fault cs) => .next (s.cardFault id c cs cc.idx)
        | (s, .ok index) =>
          let late : Option Why :=
            if c.q = 0 then (if cc.farIndex then firstWhy (s.probeWhy g cc index) else none)
            else if c.q = 2 then s.acceptWhy c.gid g c.bytes c.ua
            else none
          match late with
          | some w => .next (s.cardFault id c w.2.1 w.2.2)
          | none => if s.entryFree c g.k then .next (s.acceptCard id c g index) else .next s

/-! ### Copy engines (R278) -/

/-- COPY_CARD_START (R278): an engine takes the first ready card in acceptance order. -/
def execCopyCardStart (d e : Nat) (s : State) : Host.Outcome State Fault Refusal :=
  if 3 < e ∨ 15 < d ∨ (tfind (s.die d).engines e).isSome ∨ !s.dieRuns d then .next s
  else
    match (s.die d).copyq.find? fun id => (tfind s.cards id).elim false fun c =>
        !c.running && s.edgesClear id && !s.cardStopped c with
    | some id =>
      .next ({ s with cards := tmod s.cards id fun c => { c with running := true } }.modDie d fun x =>
        { x with engines := tset x.engines e id })
    | none => .next s

/-- Bytes of one destination line by source: offset in the line, source distance, length. -/
def CopyCard.pieces (c : CopyCard) (index : List Nat) (line : Nat) : List (Nat × Nat × Nat) :=
  (List.range c.rows).filterMap fun i =>
    let lo := max (c.dstRow i) (128 * line)
    let hi := min (c.dstRow i + c.rowBytes) (128 * line + 128)
    if lo < hi then some (lo - 128 * line, c.srcOff index i + (lo - c.dstRow i), hi - lo) else none

/-- The footprint holds a piece of a side. -/
def sideHolds (pad : Bool) (foot : List Region) (base off len : Nat) : Bool :=
  pad || (usedRegions foot).any fun r => r.holds base (ptrOff base + off) len

/-- Read a piece of the source. -/
def State.copyRead (s : State) (id : Nat) (c : Card) (cc : CopyCard) (off len : Nat) : Direct (List Byte) :=
  if cc.spad then .ok s ((s.group? c.gid).elim [] fun g => g.padBytes (cc.src % 2 ^ 32 + off) len)
  else if !sideHolds false cc.reads cc.src off len then .fault s cause.footprint
  else
    let e := s.tableEntry c.vf (ptrIdx cc.src)
    if entOnchip e then
      if (s.checkEntry c.vf e cc.src (off + len) 0 (some .r) true).isSome then .fault s cause.footprint
      else match s.winRead e (ptrOff cc.src + off) len with
        | (s, bs) => .ok s bs
    else s.engineRead c.die c.vf id cc.cls cc.src off len

/-- Read the pieces of a line. -/
def State.copyReads (s : State) (id : Nat) (c : Card) (cc : CopyCard) : List (Nat × Nat × Nat) → Tab Byte →
    Direct (Tab Byte)
  | [], acc => .ok s acc
  | (o, off, len) :: t, acc =>
    match s.copyRead id c cc off len with
    | .ok s bs => s.copyReads id c cc t ((atOffsets o bs).foldl (fun t b => tset t b.1 b.2) acc)
    | .wait s => .wait s
    | .fault s cs => .fault s cs

/-- The runs of adjacent bytes of a line. -/
def runsOf (bs : Tab Byte) : List (Nat × List Byte) :=
  (bs.foldl (fun (r : List (Nat × List Byte)) b => match r with
    | (o, xs) :: t => if o + xs.length = b.1 then (o, xs ++ [b.2]) :: t else (b.1, [b.2]) :: (o, xs) :: t
    | [] => [(b.1, [b.2])]) []).reverse

/-- Write a line of the destination. -/
def State.copyWrite (s : State) (id : Nat) (c : Card) (cc : CopyCard) (line : Nat) (bs : Tab Byte) : Direct Unit :=
  if cc.dpad then
    let s := s.modGroup c.gid fun g =>
      let g := bs.foldl (fun (g : Group) b => g.padWrite (128 * line + b.1) [b.2]) g
      { g with absent := g.absent.filter (· != line) }
    .ok ((s.wake c.gid (· == .pad line)).poke (.pad c.gid)) ()
  else
    let e := s.tableEntry c.vf (ptrIdx cc.dst)
    let base := cc.dst / 2 ^ 48 * 2 ^ 48
    let runs := runsOf bs
    if runs.any fun r => !(usedRegions cc.writes).any (fun x => x.holds base (128 * line + r.1) r.2.length) ||
        (s.checkEntry c.vf e base (128 * line + r.1 + r.2.length) 0 (some .w) true).isSome then .fault s cause.footprint
    else if entOnchip e then
      .ok (runs.foldl (fun s r => s.winWrite e (128 * line + r.1) r.2) s) ()
    else if isExternal (ptrIdx cc.dst) then
      .ok (runs.foldl (fun s r => s.sendOut c.vf c.die (ptrAdd base (128 * line + r.1 : Nat)) r.2 (.engine id)) s) ()
    else s.writeTab c.die (s.locOf e (ptrAdd base (128 * line : Nat))) bs (clsRelaxed cc.cls e)

/-- COPY_LINE (R277, R278): engine e of a die moves the destination line n of its card, within the VF's byte budget. -/
def execCopyLine (d e n : Nat) (s : State) : Host.Outcome State Fault Refusal :=
  match (tfind (s.die d).engines e).bind fun id => (tfind s.cards id).map fun c => (id, c) with
  | none => .next s
  | some (id, c) =>
    let cc := readCopy c.bytes
    if c.status.isSome || c.moved.contains n || !cc.lines.contains n || s.cardStopped c || !s.dieRuns d ||
        decide ((s.ctx c.vf).share 48 16000000 ≤ tget 0 (s.die d).copyUsed c.vf) then .next s
    else
      let fail (s : State) (cs : Nat) : State := { s with cards := tset s.cards id { c with status := some (statusOf cs) } }
      match s.copyReads id c cc (cc.pieces c.index n) [] with
      | .wait s => .next s
      | .fault s cs => .next (fail s cs)
      | .ok s bs =>
        match s.copyWrite id c cc n bs with
        | .wait s => .next s
        | .fault s cs => .next (fail s cs)
        | .ok s () =>
          let s := { s with cards := tset s.cards id { c with moved := c.moved ++ [n] } }
          .next (s.modDie d fun x => { x with copyUsed := tset x.copyUsed c.vf (tget 0 x.copyUsed c.vf + bs.length) })

/-! ### Completion (R181, R233, R279, R289) -/

/-- Bytes of an item are still on their way out of the package. -/
def State.itemBusy (s : State) (id : Nat) : Bool := s.accs.any fun p => p.2.owner == .engine id

/-- The fault of a byte that left the package (R278). -/
def State.farStatus (s : State) (id : Nat) : Option Nat :=
  (tget [] s.fetched id).findSome? fun r => match r.2 with
    | .fault cs _ => some (statusOf cs)
    | _ => none

/-- The item is gone: its edges clear (R231). -/
def State.dropItem (s : State) (id : Nat) : State :=
  { s with items := tdel s.items id, cards := tdel s.cards id, fetched := tdel (tdel s.fetched id) (complKey id) }

/-- A copy card that has ended completes, and its lines that were not written become present (R181). -/
def State.completeCopy (s : State) (id : Nat) (c : Card) : State :=
  let cc := readCopy c.bytes
  let ended := c.status.isSome || cc.lines.all c.moved.contains
  if !ended || s.itemBusy id then s
  else
    let st := (c.status.orElse fun _ => s.farStatus id).getD status.completed
    match s.complete (complKey id) c.die c.vf cc.io st with
    | .wait s => s
    | .fault s _ => s
    | .ok s () =>
      let left := if cc.dpad then cc.lines.filter fun l => !c.moved.contains l else []
      let s := s.modGroup c.gid fun g => { g with absent := g.absent.filter fun l => !left.contains l }
      let s := s.wake c.gid fun p => match p with
        | .pad l => left.contains l
        | _ => false
      let s := s.modDie c.die fun d =>
        { d with copyq := d.copyq.filter (· != id), engines := d.engines.filter fun p => p.2 != id }
      s.dropItem id

/-- Fibres that wait for the engine of a core look again. -/
def State.wakeEngine (s : State) (k : Nat) : State :=
  (s.groups.filter fun p => p.2.k == k).foldl (fun s p => s.wake p.1 fun x => x == .engine) (s.wakeBinders k)

/-- ENGINE_COMPLETION (R233, R279, R289): of the copy card or matrix operation with this item number. -/
def execEngineCompletion (op : Nat) (s : State) : Host.Outcome State Fault Refusal :=
  match tfind s.cards op with
  | some c => .next (if c.accepted && !s.cardStopped c then s.completeCopy op c else s)
  | none =>
    match (List.range 256).find? fun k => (s.core k).eng.any fun x => x.item == op && x.status.isSome with
    | none => .next s
    | some k =>
      match (s.core k).eng.find? fun x => x.item == op with
      | none => .next s
      | some x =>
        if !s.engineMay k x.gid then .next s
        else
          match s.complete (complKey op) (k / 16) x.vf ⟨x.cmpl, x.cnt, x.seq, x.inc⟩ (x.status.getD 0) with
          | .wait s => .next s
          | .fault s _ => .next s
          | .ok s () =>
            let s := s.modCore k fun co => { co with eng := co.eng.filter fun y => y.item != op }
            -- its events show in MXST from now on (R104, R130)
            let s := s.modGroup x.gid fun g => g.mxRaise x.events
            .next ((s.dropItem op).wakeEngine k)

end Sys2Proof.Machine
end

