-- ==== Sys2Proof/Machine/Place.lean ====
section
/-! DEFINITION. Room on a core (R43, Table 1.7), halting a group in place (R319, R330), spilling it and restoring it (R320,
R325, R329). -/

namespace Sys2Proof.Machine

/-! ### Room (R43, R44, R312) -/

/-- What a group takes of a core. -/
structure Need where
  cap : Nat
  wins : Nat
  wsize : Nat
  units : Nat
  macros : Nat
  /-- result ports that a restored group owns -/
  ports : List Nat
  deriving DecidableEq, Repr

def Group.need (g : Group) : Need :=
  ⟨g.cap, g.wins, g.wsize, ceilDiv g.padLen 4096, (g.macros.filter fun m => !m.unavailable).length, g.savedPorts.map (·.1)⟩
def Grid.need (q : Grid) : Need := ⟨q.cap, q.wins, q.wsize, q.pad, q.macros, []⟩

def sumOf (l : List Nat) : Nat := l.foldl (· + ·) 0

/-- Table 1.7: these groups fit one core with so many usable macros. -/
def fitTogether (usable : Nat) (ns : List Need) : Bool :=
  decide (ns.length ≤ 32) && decide (sumOf (ns.map (·.cap)) ≤ 2048) && decide (sumOf (ns.map fun n => ceilDiv n.cap 32) ≤ 64) &&
  ((List.range 4).all fun q => decide (sumOf (ns.map fun n => poolSize n.wins q * n.wsize) ≤ 16384)) &&
  decide (sumOf (ns.map (·.units)) ≤ 128) && decide (sumOf (ns.map (·.macros)) ≤ usable)

/-- Groups that hold storage on a core. -/
def State.onCore (s : State) (k : Nat) : List (Nat × Group) := s.groups.filter fun p => p.2.k == k && !p.2.evicted

/-- A group keeps its storage against a VF: a halted group of another VF can be spilt (R320). -/
def Group.keepsFrom (g : Group) (vf : Nat) : Bool := g.vf == vf || !g.halted || g.dead

/-- The groups and the need fit a core. -/
def State.fitsWith (s : State) (k : Nat) (n : Need) (gs : List (Nat × Group)) : Bool :=
  fitTogether (64 - (s.core k).fenced.length) (n :: gs.map (·.2.need)) &&
  n.ports.all fun q => (tget ResPort.empty (s.core k).ports q).owner.all fun o => !gs.any fun p => p.1 == o

/-- A core has room for a VF once what can be spilt is spilt. -/
def State.hasRoom (s : State) (vf k : Nat) (n : Need) : Bool :=
  s.dieRuns (k / 16) && !(s.core k).out && s.fitsWith k n ((s.onCore k).filter fun p => p.2.keepsFrom vf)

/-- Cores of a die for the groups of a cluster, by position; each goes to the lowest core with room (R312). -/
def State.fitEach (s : State) (vf d : Nat) : List (Nat × Need) → Tab Nat → Option (Tab Nat)
  | [], acc => some acc
  | (pos, n) :: t, acc =>
    match (coresOf d).find? fun k => !(acc.any fun p => p.2 == k) && s.hasRoom vf k n with
    | some k => s.fitEach vf d t (acc ++ [(pos, k)])
    | none => none

/-- The same for an even cluster, in core pairs (R312). -/
def State.fitPairs (s : State) (vf d : Nat) (ms : List (Nat × Need)) : Nat → Tab Nat → Option (Tab Nat)
  | 0, acc => some acc
  | j + 1, acc =>
    let here := ms.filter fun p => p.1 / 2 == 7 - j
    if here.isEmpty then s.fitPairs vf d ms j acc
    else
      match (List.range 8).find? fun i => !(acc.any fun p => p.2 / 2 == 8 * d + i) &&
          here.all fun p => s.hasRoom vf (16 * d + 2 * i + p.1 % 2) p.2 with
      | some i => s.fitPairs vf d ms j (acc ++ here.map fun p => (p.1, 16 * d + 2 * i + p.1 % 2))
      | none => none

/-- Cores of a die for the groups of one cluster of a given size. -/
def State.fitCluster (s : State) (vf d size : Nat) (ms : List (Nat × Need)) : Option (Tab Nat) :=
  if size % 2 = 0 then s.fitPairs vf d ms 8 [] else s.fitEach vf d ms []

/-! ### Halting in place (R67, R69, R257, R319) -/

/-- What is left of a park at a halt: a signing bundle stays parked, and an MCAS waits for its reply. -/
def Park.halted (p : Park) : Park :=
  match p with
  | .handoff _ _ | .mcas _ => p
  | _ => .none

/-- Tags of the latches of a core that a group produced (R69). -/
def State.tagsOf (s : State) (k gid : Nat) : List (Nat × Nat × Nat × Bool) :=
  (List.range 4).flatMap fun sl => (s.slice k sl).latches.filterMap fun l => match l.2.tag with
    | some (o, r, w) => if o = gid then some (sl, l.1, r, w) else none
    | none => none

/-- A latch without what a group left in it. -/
def Latch.forget (l : Latch) (gid : Nat) : Latch :=
  let l := { l with pend := l.pend.filter fun p => p.1 != gid }
  match l.tag with
  | some (t, _, _) => if t = gid then { l with valid := false, tag := none, data := [], epoch := l.epoch + 1 } else l
  | none => l

/-- A latch whose tag is back with its data cleared (R69). -/
def Latch.retag (l : Latch) (tag : Nat × Nat × Bool) : Latch :=
  { l with valid := false, tag := some tag, data := [], epoch := l.epoch + 1 }

/-- R67: every slice of a core clears its latches' data at a halt for pre-emption. -/
def State.clearCore (s : State) (k : Nat) : State :=
  s.modCore k fun c => { c with slices := c.slices.map fun p => (p.1, p.2.clearLatches) }

/-- A core forgets the latches, parked reads and waiting cards of a group. -/
def State.forgetOn (s : State) (k gid : Nat) : State :=
  let s := s.dropBundles k gid
  let s := s.modCore k fun c =>
    { c with
      slices := c.slices.map fun p => (p.1, { p.2 with latches := p.2.latches.map fun l => (l.1, l.2.forget gid) })
      ports := c.ports.map fun p => (p.1, { p.2 with readers := p.2.readers.filter fun r => r.1 != gid })
      q8readers := c.q8readers.filter fun r => r.1 != gid }
  let cards := (s.cards.filter fun p => p.2.gid == gid && !p.2.accepted).map (·.1)
  { s with waiters := s.waiters.filter fun p => p.2.gid != gid
           cards := s.cards.filter fun p => !cards.contains p.1
           fetched := s.fetched.filter fun p => !cards.contains p.1 }

/-- A cancel goes to the coordinator of each MCAS of a group that has not committed (R257). -/
def State.cancelMcas (s : State) (gid : Nat) : State :=
  { s with mcas := s.mcas.map fun p =>
      (p.1, if p.2.gid = gid ∧ (p.2.phase = .sent ∨ p.2.phase = .locking ∨ p.2.phase = .restart) then { p.2 with cancel := true }
            else p.2) }

/-- R319: the group stops at an instruction boundary of every fibre; restartable instructions are left unexecuted. -/
def State.haltGroup (s : State) (gid : Nat) : State :=
  match s.group? gid with
  | none => s
  | some g =>
    -- a word served before the halt is used when the instruction issues again, without its capture: x4 is no latch
    let fibres := g.fibres.map fun p => (p.1,
      { p.2 with park := p.2.park.halted, since := none
                 popped := { p.2.popped with latch := if p.2.popped.words.isEmpty then none else p.2.popped.latch.map fun _ => (0, 4, 1) } })
    let g' : Group :=
      { g with fibres := fibres, pairWait := none, halted := true, halting := false, latchTags := s.tagsOf g.k gid
               pendExec := g.pendExec.filter fun e => e.2.any fun f => (tfind g.fibres f).elim false fun b => !b.popped.words.isEmpty }
    (((s.setGroup gid g').clearCore g.k).forgetOn g.k gid).cancelMcas gid

/-- The bundle of a group whose hold run a slice has. -/
def Slice.runOf (x : Slice) (gid : Nat) : Option Bundle :=
  x.hold.bind fun h => x.bundles.find? fun b => b.num == h.1 && b.gid == gid

/-- R330: a hold run of the group goes on, since its next instruction issues or its stall count runs. -/
def State.runGoes (s : State) (k gid sl : Nat) : Bool :=
  ((s.slice k sl).runOf gid).elim false fun b => decide (s.cycleOf k < (s.slice k sl).holdSince) || (s.canIssue k sl b).isSome

/-- Some hold run of the group goes on. -/
def State.heldOn (s : State) (k gid : Nat) : Bool := (List.range 4).any (s.runGoes k gid)

/-- R330: each hold run of the group whose next instruction waits on the scoreboard ends. -/
def State.endRuns (s : State) (k gid : Nat) : State :=
  (List.range 4).foldl (fun s sl =>
    if ((s.slice k sl).runOf gid).isSome && !s.runGoes k gid sl then s.modSlice k sl fun x => { x with hold := none } else s) s

/-- Groups that a request halts: those that have not ended and hold a live fibre (R326: retirement wins). -/
def Group.toHalt (g : Group) : Bool := !g.halted && g.ended.isNone && !g.dead && g.fibres.any fun p => p.2.live

/-- The groups on a die that a request halts. -/
def State.running (s : State) (d : Nat) : List Nat :=
  (s.groups.filter fun p => p.2.k / 16 == d && !p.2.evicted && p.2.toHalt).map (·.1)

/-- A pre-emption request reaches a group: a hold run ends first (R319, R330). -/
def State.haltReq (s : State) (gid : Nat) : State :=
  match s.group? gid with
  | none => s
  | some g => if s.heldOn g.k gid then (s.endRuns g.k gid).setGroup gid { g with halting := true } else s.haltGroup gid

/-- A request to every core of a die. -/
def State.haltDie (s : State) (d : Nat) : State := (s.running d).foldl (fun s g => s.haltReq g) s

/-- Halts that waited for a hold run take place once it has ended; a group whose last fibre the run retired ends instead
(R326, R327). -/
def State.endHolds (s : State) : State :=
  (s.groups.filter fun p => p.2.halting && !p.2.halted).foldl (fun s p =>
    if s.heldOn p.2.k p.1 then s.endRuns p.2.k p.1
    else if p.2.toHalt then s.haltGroup p.1
    else s.setGroup p.1 { p.2 with halting := false }) s

/-! ### The save area (R320) -/

/-- Bytes a context's saved control state and spilt rows take; the spec gives no layout (log 25). -/
def State.saveNeed (s : State) (vf : Nat) : Nat :=
  Config.saveBytes vf ((s.groups.filter fun p => p.2.vf == vf && p.2.halted && !p.2.dead).map (·.1)).length

/-- The save area takes them and can be written. -/
def State.saveFits (s : State) (vf : Nat) : Bool :=
  let c := s.ctx vf
  decide (s.saveNeed vf ≤ 4096 * c.saveLen) && (s.checkPtr vf c.savePtr (s.saveNeed vf) 0 .w).isNone && decide (ptrIdx c.savePtr < 0xFE00)

/-- HBM bytes that a VF has used of the period at a stack. -/
def State.setHbm (s : State) (st vf n : Nat) : State := s.modStack st fun k => { k with hbmUsed := tset k.hbmUsed vf n }

/-- The masthead writes the save area: which bytes is left open, so free values stand there afterwards. The traffic is
exempt from throttling and charged to the VF (R320). The answer says that no line had it wait. -/
def State.saveOut (s : State) (vf : Nat) : State × Bool :=
  let p := (s.ctx vf).savePtr
  let e := s.tableEntry vf (ptrIdx p)
  let r := (lineSegs (ptrOff p) (s.saveNeed vf)).foldl (fun (r : State × Bool) seg =>
    let l := r.1.locOf e (p / 2 ^ 48 * 2 ^ 48 + seg.1)
    let used := tget 0 (r.1.stack l.stack).hbmUsed vf
    let back (s : State) : State := s.setHbm l.stack vf (used + tget 0 (s.stack l.stack).hbmUsed vf)
    match (r.1.setHbm l.stack vf 0).homeAt l .write (seg.2 == 128) none 0 0 with
    | (s, .at pin addr) =>
      ((back s).homeWrite l pin addr (atOffsets (addr % 128) ((List.range seg.2).map fun i => Config.saveByte s.freeCtr (seg.1 + i))) none,
        r.2)
    | (s, .wait) => (back s, false)
    | (s, _) => (back s, r.2)) (s, true)
  (r.1.bump, r.2)

def State.scribble (s : State) (vf : Nat) : State := if s.saveFits vf then (s.saveOut vf).1 else s

/-- The save area can be written now: none of its lines is locked, and its stacks are active. -/
def State.saveOpen (s : State) (vf : Nat) : Bool := !s.saveFits vf || (s.saveOut vf).2

/-- R320: a refill is charged to the VF at the homes of the save area: each line of one group's rows. -/
def State.refill (s : State) (vf : Nat) : State :=
  let p := (s.ctx vf).savePtr
  let e := s.tableEntry vf (ptrIdx p)
  (lineSegs (ptrOff p) (Config.saveBytes vf 1)).foldl (fun s seg =>
    let l := s.locOf e (p / 2 ^ 48 * 2 ^ 48 + seg.1)
    s.setHbm l.stack vf (tget 0 (s.stack l.stack).hbmUsed vf + 128)) s

/-! ### Spilling (R320) -/

/-- A halted group can be spilt: no destination is outstanding, and no MCAS (Table 11.13, R257), and the save area can be
written. -/
def State.mayEvict (s : State) (gid : Nat) : Bool :=
  (s.group? gid).elim false fun g => g.halted && !g.evicted && !g.dead && (g.fibres.all fun p => p.2.pendRegs.isEmpty) &&
    !(s.mcas.any fun x => x.2.gid == gid) && s.saveOpen g.vf

/-- Spill a group: its ports and its entries of the engine go with it, and the dirty lines of its VF are written back. -/
def State.evict (s : State) (gid : Nat) : State :=
  match s.group? gid with
  | none => s
  | some g =>
    let co := s.core g.k
    let ports := co.ports.filter fun p => p.2.owner == some gid
    let eng := co.eng.filter fun x => x.gid == gid
    let s := s.modCore g.k fun co =>
      { co with ports := co.ports.map fun p => if p.2.owner = some gid then (p.1, ResPort.empty) else p
                eng := co.eng.filter fun x => x.gid != gid }
    let s := (s.releaseLines g.k g.vf .par fun _ _ => true).1
    (s.setGroup gid { g with evicted := true, savedPorts := ports, savedEng := eng }).scribble g.vf

/-- Spill halted groups of other VFs until a need fits the core. -/
def State.makeRoom (s : State) (vf k : Nat) (n : Need) : List Nat → Option State
  | [] => if s.fitsWith k n (s.onCore k) then some s else none
  | g :: t =>
    if s.fitsWith k n (s.onCore k) then some s
    else if s.mayEvict g then (s.evict g).makeRoom vf k n t
    else s.makeRoom vf k n t

/-- Room on a core for a VF, made where it has to be. -/
def State.clear (s : State) (vf k : Nat) (n : Need) : Option State :=
  s.makeRoom vf k n (((s.onCore k).filter fun p => !p.2.keepsFrom vf).map (·.1))

/-! ### Places on a core -/

def State.freeSlot (s : State) (k : Nat) : Nat :=
  ((List.range 32).find? fun i => !(s.onCore k).any fun p => p.2.slot == i).getD 0

def State.freeUnits (s : State) (k n : Nat) : List Nat :=
  ((List.range 128).filter fun u => !(s.onCore k).any fun p => p.2.padUnits.contains u).take n

/-- Give usable macros of a core to a group's numbers; an unavailable one has no macro of its new core. -/
def giveMacros : List OwnedMacro → List Nat → List OwnedMacro
  | [], _ => []
  | m :: t, free =>
    if m.unavailable then { m with phys := 64 } :: giveMacros t free
    else
      match free with
      | p :: rest => { m with phys := p } :: giveMacros t rest
      | [] => { m with phys := 64 } :: giveMacros t []

/-! ### Restoring (R69, R177, R257, R298, R320, R325, R329) -/

/-- The virtual die on which a group restores, and the physical one. -/
def State.homeVdie (s : State) (g : Group) : Nat := g.vdie % max 1 (s.partOf g.vf).length
def State.homeDie (s : State) (g : Group) : Nat := (s.ctx g.vf).vmap (s.homeVdie g)

/-- A spilt group goes onto a core that has room. For R31 its fibres count as having waited since the restore (DESIGN
CHOICE, log 34). -/
def State.bringOn (s : State) (gid k : Nat) : State :=
  match s.group? gid with
  | none => s
  | some g =>
    let g' : Group :=
      { g with k := k, vdie := s.homeVdie g, slot := s.freeSlot k, padUnits := s.freeUnits k (ceilDiv g.padLen 4096)
               macros := giveMacros g.macros (s.spares k), evicted := false, savedPorts := [], savedEng := []
               fibres := g.fibres.map fun p => (p.1, { p.2 with stallUntil := 0, lastIssue := s.cycleOf k }) }
    let s := s.modCore k fun co =>
      { co with ports := g.savedPorts.foldl (fun t p => tset t p.1 p.2) co.ports
                eng := co.eng ++ g.savedEng.map fun x => { x with acceptedAt := s.cycleOf k } }
    (s.setGroup gid g').refill g.vf

/-- A group runs again where it stands: its latch tags are back with their data cleared, and the faults that came while
it was halted are raised (R69, R177). -/
def State.resume (s : State) (gid : Nat) : State :=
  match s.group? gid with
  | none => s
  | some g =>
    let s := g.latchTags.foldl (fun s t => s.modSlice g.k t.1 fun x =>
      { x with latches := tset x.latches t.2.1 ((tget Latch.empty x.latches t.2.1).retag (gid, t.2.2.1, t.2.2.2)) }) s
    let s := s.setGroup gid { g with halted := false, halting := false, latchTags := [], lateFaults := [] }
    let s := g.lateFaults.foldl (fun s f => match f with
      | (cs, pc, mask, fib, ptr, info) => s.takeFault gid cs pc mask fib info ptr) s
    s.converge gid

/-- Write-backs of a VF are on their way: a group that changes its core waits for them (log 26). -/
def State.backsOut (s : State) (vf : Nat) : Bool :=
  s.accs.any fun p => p.2.loc.vf == vf && match p.2.owner with
    | .writeBack _ | .cluBack _ => true
    | _ => false

/-- Bring the groups of a cluster onto given cores, making room. -/
def State.bringAll (s : State) (vf : Nat) : List (Nat × Nat) → Option State
  | [] => some s
  | (gid, k) :: t =>
    match s.group? gid with
    | none => s.bringAll vf t
    | some g => match s.clear vf k g.need with
      | some s => (s.bringOn gid k).bringAll vf t
      | none => none

/-- Groups of one cluster (R45). -/
def State.mates (s : State) (g : Group) : List (Nat × Group) :=
  let n := max 1 ((tfind s.grids g.grid).elim 1 (·.cluster))
  s.groups.filter fun p => p.2.grid == g.grid && p.2.index / n == g.index / n && !p.2.dead

/-- The groups of a cluster are restored together (R325, R329): in place, on their own cores, or onto any cores of the die
with room. The answer says whether they run. -/
def State.restoreCluster (s : State) (g0 : Group) : State × Bool :=
  let vf := g0.vf
  let size := max 1 ((tfind s.grids g0.grid).elim 1 (·.cluster))
  let ms := s.mates g0
  let live := ms.filter fun p => p.2.ended.isNone
  let s := (ms.filter fun p => p.2.ended.isSome).foldl (fun s p => s.modGroup p.1 fun g => { g with halted := false }) s
  let out := live.filter fun p => p.2.evicted
  let here := live.filter fun p => !p.2.evicted
  let run (s : State) : State := live.foldl (fun s p => s.resume p.1) s
  if live.any fun p => s.mcas.any fun x => x.2.gid == p.1 then (s, false)
  else if out.isEmpty then
    if here.all fun p => s.dieRuns (p.2.k / 16) && !(s.core p.2.k).out then (run s, true)
    -- what stands on a core out of service is spilt, and its cluster with it (R325)
    else if (here.any fun p => (s.core p.2.k).out) && here.all fun p => s.mayEvict p.1 then
      (here.foldl (fun s p => s.evict p.1) s, false)
    else (s, false)
  else if s.backsOut vf then (s, false)
  else
    let own : Option State :=
      if (live.all fun p => s.dieRuns (p.2.k / 16) && !(s.core p.2.k).out) && out.all fun p => p.2.k / 16 == s.homeDie p.2 then
        s.bringAll vf (out.map fun p => (p.1, p.2.k))
      else none
    match own with
    | some s => (run s, true)
    | none =>
      if !here.isEmpty then
        (if here.all fun p => s.mayEvict p.1 then here.foldl (fun s p => s.evict p.1) s else s, false)
      else
        match s.fitCluster vf (s.homeDie g0) size (live.map fun p => (p.2.clupos, p.2.need)) with
        | some cores =>
          match s.bringAll vf (live.map fun p => (p.1, tget 0 cores p.2.clupos)) with
          | some s => (run s, true)
          | none => (s, false)
        | none => (s, false)

/-- Restore the clusters of a list in its order; behind one that waits, later spilt clusters of its die wait too. -/
def State.restoreList (s : State) (blocked : List Nat) : List Group → State
  | [] => s
  | g :: t =>
    let d := s.homeDie g
    if (s.mates g).all fun p => !p.2.halted then s.restoreList blocked t
    else if blocked.contains d ∧ (s.mates g).any (fun p => p.2.evicted) then s.restoreList blocked t
    else
      match s.restoreCluster g with
      | (s, true) => s.restoreList blocked t
      | (s, false) => s.restoreList (d :: blocked) t

/-- Restore what is halted of a VF, grid by grid in ascending linear index (R322, R329). -/
def State.restoreVf (s : State) (vf : Nat) : State :=
  if (s.ctx vf).tearing then s
  else
  let gs := (s.groups.filter fun p => p.2.vf == vf && p.2.halted && !p.2.dead).map (·.2)
  let grids := (gs.map (·.grid)).foldl (fun t q => fibInsert q t) []
  s.restoreList [] (grids.flatMap fun q =>
    let mine := gs.filter fun g => g.grid == q
    let idx := (mine.map (·.index)).foldl (fun t i => fibInsert i t) []
    idx.filterMap fun i => mine.find? fun g => g.index == i)

/-- R325, R329: a core is removed from service, or comes back. What runs on it halts, with its clusters, and is spilt and
restored within its die by the moves of a restore. -/
def State.coreService (s : State) (k : Nat) (on : Bool) : State :=
  let s := s.modCore k fun c => { c with out := !on }
  if on then s
  else
    let here := s.groups.filter fun p => p.2.k == k && !p.2.evicted && !p.2.dead
    (here.flatMap fun p => s.mates p.2).foldl (fun s p => if p.2.toHalt && !p.2.halting then s.haltReq p.1 else s) s

end Sys2Proof.Machine
end

