-- ==== Sys2Proof/Machine/Halyard.lean ====
section
/-! DEFINITION. Halyard (R307 to R312): submission rings, launch records and collective records, dispatch, the placement of
clusters, the end of groups and grids, and budget periods. -/

namespace Sys2Proof.Machine

/-- Halyard dispatches for a VF: it holds the gang slice of its partition, no switch runs, and neither a teardown nor a change
of layout waits (R312, R322, R325, R348). -/
def State.vfHolds (s : State) (vf : Nat) : Bool :=
  let c := s.ctx vf
  let g := s.gang c.leader
  c.bound && g.cur == some vf && g.phase == .idle && !s.mh.alarmHalt && !c.tearing &&
  -- R325 step 1: a change of layout that waits for the tick
  !(s.mh.partNext.any fun cfg => diesIn cfg c.leader != s.diesOf c.leader)

/-! ### Reads of Halyard -/

/-- Numbers under which answers to Halyard's reads beyond a port are kept. -/
def ringKey (vf : Nat) : Nat := 2 ^ 40 + vf

/-- A read of Halyard at .sys in class .ox. -/
def State.halyardRead (s : State) (vf key ptr n : Nat) : Direct (List Byte) := s.engineRead 32 vf key 3 ptr 0 n

/-! ### The submission ring (R310, R311) -/

def subqEnable (q : BitVec 256) : Bool := q.getLsbD 132
def subqSize (q : BitVec 256) : Nat := bitsOf q.toNat 131 128
def subqCnt (q : BitVec 256) : Nat := bitsOf q.toNat 127 64
def subqRing (q : BitVec 256) : Nat := bitsOf q.toNat 63 0

/-- R311: a failing check stops the ring's service with one record. -/
def State.stopRing (s : State) (vf cs ptr : Nat) : State :=
  (s.plainRecord vf 32 cs ptr).modCtx vf fun c => { c with ringStopped := some (ptrIdx ptr), ring := none }

/-- Read both counts and fix the limit. -/
def State.readCounts (s : State) (vf : Nat) : State :=
  let q := (s.ctx vf).subq
  let p := subqCnt q
  match s.checkPtr vf p 8 8 .r, s.checkPtr vf (ptrAdd p 8) 8 8 .w with
  | some cs, _ => s.stopRing vf cs p
  | none, some cs => s.stopRing vf cs (ptrAdd p 8)
  | none, none =>
    match s.halyardRead vf (ringKey vf) p 16 with
    | .wait s => s
    | .fault s cs => (s.forget (ringKey vf)).stopRing vf cs p
    | .ok s bs =>
      let sub := lineNat bs 0 8
      let con := lineNat bs 8 8
      let lim := min sub (con + 2 ^ subqSize q)
      (s.forget (ringKey vf)).modCtx vf fun c => { c with ring := if con < lim then some (con, lim) else none }

/-- Number under which the completion of an entry that fails its checks is kept. -/
def entryKey (vf : Nat) : Nat := complKey (2 ^ 46 + vf)

/-- An entry is counted: the consumption count is raised. It is tried again from `s` where it has to wait. -/
def State.countTaken (s t : State) (vf j lim cnt : Nat) : State :=
  match ((t.forget (ringKey vf)).forget (entryKey vf)).putWord 32 vf cnt (j + 1) with
  | none => s
  | some t => t.modCtx vf fun c => { c with ring := if j + 1 < lim then some (j + 1, lim) else none }

/-- An entry whose bytes are read becomes an item, or completes where it fails its checks, and is counted. -/
def State.countEntry (s : State) (vf j lim cnt : Nat) (bs : List Byte) : State :=
  match s.taskWhy vf bs with
  | some w =>
    match s.complete (entryKey vf) 32 vf (readTask bs).io (if w.1 = 0 then status.launchRecord else status.footprint) with
    | .ok t () => t.countTaken t vf j lim cnt
    | .wait t => t
    | .fault t _ => t
  | none =>
    if (s.items.filter fun p => p.2.kind == .task && p.2.vf == vf && !p.2.started).length < Config.halyardEntries vf then
      s.countTaken ({ s with nextId := s.nextId + 1 }.addItem s.nextId (taskItem vf bs)) vf j lim cnt
    else s

/-- The read of entry j, whose pointers hold. -/
def State.readEntry (s : State) (vf j lim p cnt : Nat) : State :=
  match s.halyardRead vf (ringKey vf) p 256 with
  | .wait s => s
  | .fault s cs => (s.forget (ringKey vf)).stopRing vf cs p
  | .ok s bs => s.countEntry vf j lim cnt bs

/-- Serve entry j. -/
def State.serveEntry (s : State) (vf j lim : Nat) : State :=
  let q := (s.ctx vf).subq
  let p := ptrAdd (subqRing q) (256 * (j % 2 ^ subqSize q) : Nat)
  let cnt := ptrAdd (subqCnt q) 8
  match s.checkPtr vf p 256 0 .r with
  | some cs => s.stopRing vf cs p
  | none =>
    match s.checkPtr vf cnt 8 8 .w with
    | some cs => s.stopRing vf cs cnt
    | none => s.readEntry vf j lim p cnt

/-- SUBMISSION_RING_SERVICE (R311): a reading of the counts, or the next entry that the last reading admitted. -/
def execSubmissionRingService (vf : Nat) (s : State) : Host.Outcome State Fault Refusal :=
  let c := s.ctx vf
  if c.desc.isNone ∨ !c.bound ∨ !subqEnable c.subq ∨ c.ringStopped.isSome then .next s
  else
    match c.ring with
    | none => .next (s.readCounts vf)
    | some (j, lim) =>
      match s.serveEntry vf j lim with
      | t => .next t

/-! ### Launch records (R307, R308, Table 19.4) -/

/-- A launch record as its fields. -/
structure Launch where
  code : Nat
  codeLen : Nat
  entry : Nat
  gx : Nat
  gy : Nat
  gz : Nat
  cap : Nat
  wins : Nat
  init : Nat
  wsize : Nat
  pad : Nat
  macros : Nat
  cluster : Nat
  ctl : Nat
  vec : Nat
  io : Compl
  fslots : List Nat
  sregs : Tab Word
  deriving DecidableEq, Repr

def readLaunch (bs : List Byte) : Launch :=
  let n (o w : Nat) : Nat := lineNat bs o w
  let ctl := n 40 4
  { code := n 0 8, codeLen := n 8 4, entry := n 12 4, gx := n 16 4, gy := n 20 4, gz := n 24 4, cap := n 28 2, wins := n 30 2,
    init := n 32 2, wsize := n 34 2, pad := n 36 2, macros := n 38 1, cluster := n 39 1, ctl := ctl, vec := n 44 4,
    io := { cmpl := if ctl.testBit 10 then some (n 48 8) else none
            cnt := if ctl.testBit 11 then some (n 56 8) else none
            seq := n 64 8, inc := n 72 8 },
    fslots := (List.range 8).map fun i => n (80 + 2 * i) 2,
    sregs := (List.range 64).foldl (fun t i => tput 0 t i (BitVec.ofNat 32 (n (128 + 4 * i) 4))) [] }

def Launch.total (l : Launch) : Nat := l.gx * l.gy * l.gz
def Launch.scope (l : Launch) : Nat := bitsOf l.ctl 9 7
def Launch.trapEn (l : Launch) : Bool := l.ctl.testBit 5

/-- The completion pointers that cannot be written, by the checks of R308. -/
def State.ioBad (s : State) (vf : Nat) (o : Compl) : Option Nat × Option Nat :=
  let bad (p : Option Nat) (need : Right) : Option Nat := p.filter fun p => p % 8 != 0 || (s.checkPtr vf p 8 8 need).isSome
  (bad o.cmpl .w, bad o.cnt .a)

/-- ValidTarget of a code section that no core holds yet (R131). -/
def State.codeTarget (s : State) (vf code len t : Nat) : Bool :=
  match pcSlot t with
  | none => false
  | some i => decide (t < len) && (s.codeMem vf code (t / 64 * 64)).elim false fun l => lineMask l i

/-- A malformed launch record (R308, first group). -/
def State.launchBad (s : State) (vf : Nat) (bs : List Byte) (l : Launch) : Bool :=
  lineNat bs 96 32 != 0 || l.ctl / 2 ^ 12 != 0 || l.gx == 0 || l.gy == 0 || l.gz == 0 || decide (2 ^ 32 < l.total) ||
  l.total % max l.cluster 1 != 0 || (s.checkPtr vf l.code l.codeLen 0 .x).isSome ||
  !s.codeTarget vf l.code l.codeLen l.entry || (l.trapEn && !s.codeTarget vf l.code l.codeLen l.vec) ||
  !cardScope l.scope || l.codeLen % 64 != 0 || l.cluster == 0 || decide (16 < l.cluster) ||
  (s.ioBad vf l.io).1.isSome || (s.ioBad vf l.io).2.isSome

/-- A bad format slot (R92): a reserved bit or a reserved ELEM. -/
def badSlot (v : Nat) : Bool := v / 2 ^ 10 != 0 || decide (8 < v % 16)

/-- R44, with the limits of R19. -/
def Launch.tooBig (l : Launch) : Bool :=
  l.cap % 4 != 0 || decide (l.cap < 4) || decide (1024 < l.cap) || l.wins % 4 != 0 || decide (l.wins < 4) || decide (l.cap < l.wins) ||
  l.wsize % 8 != 0 || decide (l.wsize < 8) || decide (256 < l.wsize) || l.init == 0 || decide (l.cap < l.init) ||
  decide (l.wins < 4 * ceilDiv l.init 4) || decide (65536 < l.wins * l.wsize) ||
  ((List.range 4).any fun q => decide (16384 < poolSize l.wins q * l.wsize)) || decide (128 < l.pad) || decide (64 < l.macros)

/-- The first failure of R308. -/
def State.launchWhy (s : State) (vf : Nat) (bs : List Byte) (l : Launch) : Option Nat :=
  if s.launchBad vf bs l then some status.launchRecord
  else if l.fslots.any badSlot then some status.launchFormat
  else if l.tooBig then some status.launchResource
  else none

/-- The grid of a launch record. -/
def Launch.grid (l : Launch) (vf item order now : Nat) : Grid :=
  { vf := vf, item := some item, codePtr := l.code, codeLen := l.codeLen, entry := l.entry, gx := l.gx, gy := l.gy, gz := l.gz,
    cap := l.cap, wins := l.wins, init := l.init, wsize := l.wsize, pad := l.pad, macros := l.macros, cluster := l.cluster,
    fpen := l.ctl % 32, trapEn := l.trapEn, irq := l.ctl.testBit 6, trapVec := l.vec, scope := scopeOf l.scope, cmpl := l.io.cmpl,
    cnt := l.io.cnt, seq := l.io.seq, inc := l.io.inc, fslots := l.fslots, sregs := l.sregs, nextIndex := 0, lastDie := none, launchedAt := now,
    groups := [], lastOn := none, ending := none, order := order }

def Grid.total (q : Grid) : Nat := q.gx * q.gy * q.gz

/-- R308: a rejected grid runs no group and completes with its status, through the pointers that can be written; where none
can, a Card Format record names the failing one. -/
def State.rejectGrid (s : State) (vf : Nat) (q : Grid) (l : Launch) (st : Nat) : State × Grid :=
  let bad := s.ioBad vf l.io
  let q : Grid :=
    { q with cmpl := if bad.1.isSome then none else q.cmpl, cnt := if bad.2.isSome then none else q.cnt
             nextIndex := q.total, ending := some (s.refTime 32, 32, st) }
  match (bad.1.orElse fun _ => bad.2) with
  | some p => (if q.cmpl.isNone ∧ q.cnt.isNone then s.plainRecord vf 32 cause.cardFormat p else s, q)
  | none => (s, q)

/-! ### Collective records (R363, Table 23.3) -/

/-- STACKSET as stacks, ascending. -/
def stackSet (m : Nat) : List Nat := (List.range 16).filter fun i => m.testBit i

/-- R363: the checks of a collective record. -/
def State.collBad (s : State) (vf : Nat) (bs : List Byte) : Bool :=
  let n (o w : Nat) : Nat := lineNat bs o w
  let ctl := n 40 4
  n 19 5 != 0 || n 32 8 != 0 || ctl % 2 ^ 7 != 0 || ctl / 2 ^ 12 != 0 || n 44 4 != 0 || n 80 48 != 0 || n 256 128 != 0 ||
  regionsBad bs 128 || regionsBad bs 192 || (s.checkPtr vf (n 0 8) (n 12 4) 0 .x).isSome || n 12 4 == 0 || n 12 4 % 4 != 0 ||
  decide (65536 < n 12 4) || n 16 2 == 0 || !((stackSet (n 16 2)).all fun t => (s.partOf vf).contains t) || n 18 1 == 0 ||
  decide (8 < n 18 1) || !cardScope (bitsOf ctl 9 7) || (s.footprintFail vf (regionsAt bs 128) (regionsAt bs 192)).isSome

/-- An instance as it starts (R364). -/
def Inst.fresh (stack index count : Nat) (arg : Nat) : Inst :=
  { stack := stack, index := index, count := count, st := .waiting, pc := 0,
    x := [(10, arg), (11, index), (12, count), (13, stack)].foldl (fun t p => tput 0 t p.1 (BitVec.ofNat 64 p.2)) [],
    f := [], v := [], fcsr := 0, vl := 0, vtype := 2 ^ 63, vstart := 0, vcsr := 0, cptr := 0, ctmo := 0, accctl := 2, sends := [],
    hxdone := 0, prog := 0 }

/-- The collective of a record. -/
def readColl (bs : List Byte) (vf item : Nat) : Coll :=
  let n (o w : Nat) : Nat := lineNat bs o w
  let ctl := n 40 4
  let stks := stackSet (n 16 2)
  let cores := n 18 1
  let places := stks.flatMap fun t => List.replicate cores t
  { vf := vf, item := item, img := n 0 8, imgLen := n 12 4, stks := stks, cores := cores, arg := BitVec.ofNat 64 (n 24 8),
    scope := scopeOf (bitsOf ctl 9 7), reads := regionsAt bs 128, writes := regionsAt bs 192,
    insts := places.zipIdx.map fun p => Inst.fresh p.1 p.2 places.length (n 24 8),
    ending := none, passed := false, cmpl := if ctl.testBit 10 then some (n 48 8) else none,
    cnt := if ctl.testBit 11 then some (n 56 8) else none, seq := n 64 8, inc := n 72 8 }

/-! ### Dispatch (R280, R312) -/

/-- A task's wait is reached, as the counter stands. -/
def State.waitMet (s : State) (vf : Nat) (w : Nat × Nat) : Bool :=
  (s.checkPtr vf w.1 8 8 .a).isNone && !isExternal (ptrIdx w.1) &&
  (s.peekPtr vf w.1 8).elim false fun bs => decide (w.2 ≤ leNat bs)

/-- A task that could be dispatched. -/
def State.taskReady (s : State) (id : Nat) (it : Item) : Bool :=
  it.kind == .task && !it.started && s.edgesClear id && it.waits.all (s.waitMet it.vf)

/-- The oldest ready task of the highest priority. -/
def State.nextTask (s : State) (vf : Nat) : Option (Nat × Item) :=
  let ready := s.items.filter fun p => p.2.vf == vf && s.taskReady p.1 p.2
  let top := ready.foldl (fun m p => max m p.2.prio) 0
  leastBy (fun p => p.2.order) (ready.filter fun p => p.2.prio == top)

/-- Some grid of the VF has groups left to place. -/
def State.placing (s : State) (vf : Nat) : Bool :=
  s.grids.any fun p => p.2.vf == vf && p.2.ending.isNone && decide (p.2.nextIndex < p.2.total)

/-- The acquires of a task's waits. -/
def State.acquireWaits (s : State) (vf : Nat) : List (Nat × Nat) → Direct Unit
  | [] => .ok s ()
  | w :: t =>
    match s.readDirect 32 (s.locOf (s.tableEntry vf (ptrIdx w.1)) w.1) 8 with
    | .ok s bs => if w.2 ≤ leNat bs then s.acquireWaits vf t else .wait s
    | .wait s => .wait s
    | .fault s cs => .fault s cs

/-- A task that ends before it runs. -/
def State.endTask (s : State) (id : Nat) (it : Item) (st : Nat) : State :=
  match s.complete (complKey id) 32 it.vf ⟨it.cmpl, it.cnt, it.seq, it.inc⟩ st with
  | .ok s () => s.dropItem id
  | .wait s => s
  | .fault s _ => s

/-- A task with its record read becomes a grid or a collective. -/
def State.startTask (s : State) (id : Nat) (it : Item) (bs : List Byte) : State :=
  let vf := it.vf
  let started (s : State) : State := { s with items := tmod s.items id fun x => { x with started := true } }
  if lineNat bs 8 4 = 0 then
    if s.collBad vf bs then s.endTask id it status.launchRecord
    else { started s with nextId := s.nextId + 1, colls := tset s.colls s.nextId (readColl bs vf id) }
  else
    let l := readLaunch bs
    let q := l.grid vf id s.mh.nextOrder s.ns
    let n := s.nextId
    let s := (started { s with nextId := n + 1 }).modMh fun m => { m with nextOrder := m.nextOrder + 1 }
    match s.launchWhy vf bs l with
    | none => { s with grids := tset s.grids n q }
    | some st =>
      match s.rejectGrid vf q l st with
      | (s, q) => { s with grids := tset s.grids n q }

/-- TASK_DISPATCH (R308, R312, R363). -/
def execTaskDispatch (vf : Nat) (s : State) : Host.Outcome State Fault Refusal :=
  if !s.vfHolds vf ∨ s.placing vf then .next s
  else
    match s.nextTask vf with
    | none => .next s
    | some (id, it) =>
      match s.acquireWaits vf it.waits with
      | .wait s => .next s
      | .fault s _ => .next s
      | .ok s () =>
        match s.halyardRead vf id it.launch 384 with
        | .wait s => .next s
        | .fault s _ => .next ((s.forget id).endTask id it status.launchRecord)
        | .ok s bs => .next ((s.forget id).startTask id it bs)

/-! ### Placement (R19, R43, R45, R180, R282, R312) -/

/-- A group as it starts. -/
def State.newGroup (s : State) (gridId : Nat) (q : Grid) (index k vdie : Nat) : Group :=
  let g : Group :=
    { vf := q.vf, k := k, vdie := vdie, slot := s.freeSlot k, grid := gridId, index := index, gx := index % q.gx,
      gy := index / q.gx % q.gy, gz := index / (q.gx * q.gy), clupos := index % q.cluster, cap := q.cap, wins := q.wins,
      wsize := q.wsize, codePtr := q.codePtr, codeLen := q.codeLen, trapEn := q.trapEn, trapVec := q.trapVec,
      fslots := q.fslots, fibres := [], tilew := [], sregs := q.sregs, kregs := [], tiles := [], padLen := 4096 * q.pad,
      padUnits := s.freeUnits k q.pad, pad := [], absent := [], mxst := 0, binds := [],
      macros := ((s.spares k).take q.macros).map fun m => ⟨m, false, false, false⟩, acc := [], pair := .none, pairWait := none, pairSeq := 0,
      pools := (List.range 4).map (poolSize q.wins), halted := false, halting := false, latchTags := [], evicted := false,
      dead := false, ended := none, lastRetire := none, lateFaults := [], ipins := [], savedPorts := [], savedEng := [],
      pendExec := [] }
  (List.range (4 * ceilDiv q.init 4)).foldl (fun g f =>
    g.place f (decide (f < q.init)) q.entry (fpstInit q.fpen) [] (s.cycleOf k)) g

/-- The groups of a cluster go onto their cores. -/
def State.placeAll (s : State) (gridId : Nat) (q : Grid) (first vdie : Nat) : Tab Nat → Option State
  | [] => some s
  | (pos, k) :: t =>
    match s.clear q.vf k q.need with
    | none => none
    | some s =>
      let id := s.nextId
      let s := { s with nextId := id + 1, groups := tset s.groups id (s.newGroup gridId q (first + pos) k vdie)
                        grids := tmod s.grids gridId fun q => { q with groups := q.groups ++ [id] } }
      s.placeAll gridId q first vdie t

/-- Virtual dies in the order of the search. -/
def searchDies (n : Nat) (last : Option Nat) : List Nat :=
  let from_ := last.elim 0 (· + 1)
  (List.range n).map fun i => (from_ + i) % max n 1

/-- CLUSTER_PLACEMENT (R43, R45, R312). -/
def execClusterPlacement (gridId : Nat) (s : State) : Host.Outcome State Fault Refusal :=
  match tfind s.grids gridId with
  | none => .next s
  | some q =>
    if !s.vfHolds q.vf ∨ q.ending.isSome ∨ q.total ≤ q.nextIndex then .next s
    else
      let ms := (List.range q.cluster).map fun p => (p, q.need)
      let found := (searchDies (s.partOf q.vf).length q.lastDie).findSome? fun v =>
        (s.fitCluster q.vf ((s.ctx q.vf).vmap v) q.cluster ms).map fun cores => (v, cores)
      match found with
      | none => .next s
      | some (v, cores) =>
        match s.placeAll gridId q q.nextIndex v cores with
        | none => .next s
        | some s =>
          .next { s with grids := tmod s.grids gridId fun q => { q with nextIndex := q.nextIndex + q.cluster, lastDie := some v } }

/-! ### The end of groups and grids (R23, R309, R316) -/

/-- What a group issued has drained (R23). Of a group that ended by a fault, the cards that were not accepted and the
queued tasks are gone (R316). -/
def State.drained (s : State) (gid : Nat) (g : Group) : Bool :=
  !(s.accs.any fun p => p.2.gid == gid) && !(s.mcas.any fun p => p.2.gid == gid) &&
  !(s.cards.any fun p => p.2.gid == gid && p.2.accepted) && !((s.core g.k).eng.any fun x => x.gid == gid) && g.savedEng.isEmpty &&
  (g.fibres.all fun p => p.2.pendRegs.isEmpty) &&
  (g.ended.isSome || !(s.items.any fun p => p.2.fromGroup == some gid))

/-- The lowest armed convergence register. -/
def Group.armedReg (g : Group) : Option Nat := (List.range 8).find? fun i => (tget KReg.idle g.kregs i).armed

/-- A group is gone: its ports, its tags and its place in the grid are free, and a partner's MPAIR ends (R291). -/
def State.freeGroup (s : State) (gid : Nat) (g : Group) : State :=
  let s := if g.evicted then s else (s.releaseLines g.k g.vf .par fun _ _ => true).1
  let s := s.forgetOn g.k gid
  let s := s.modCore g.k fun co =>
    { co with ports := co.ports.map fun p => if p.2.owner = some gid then (p.1, { p.2 with owner := none, fifo := [] }) else p }
  let s := { s with groups := tdel s.groups gid
                    grids := tmod s.grids g.grid fun q =>
                      { q with groups := q.groups.filter (· != gid), lastOn := if g.evicted then none else some (g.k / 16) } }
  let partners := (s.groups.filter fun p => p.2.pairWait.elim false fun w => w.1 == gid).map (·.1)
  partners.foldl (fun s p => s.endPairWait p false) s

/-- A group that ended while it was spilt goes back onto a core of its die where its engine has work left (R316). -/
def State.drainSaved (s : State) (gid : Nat) (g : Group) : State :=
  if g.evicted && !g.savedEng.isEmpty && s.vfHolds g.vf then
    match (coresOf (s.homeDie g)).find? fun k => s.hasRoom g.vf k g.need with
    | some k => (s.bringAll g.vf [(gid, k)]).getD s
    | none => s
  else s

/-- GROUP_END (R23, R316 step 4). -/
def execGroupEnd (gid : Nat) (s : State) : Host.Outcome State Fault Refusal :=
  match s.group? gid with
  | none => .next s
  | some g =>
    if g.halted ∨ g.dead ∨ (g.ended.isNone ∧ g.fibres.any fun p => p.2.live) then .next s
    else
      let s := if g.ended.isSome then s.forgetOn g.k gid else s
      if !s.drained gid g then .next (if g.ended.isSome then (s.cancelMcas gid).drainSaved gid g else s)
      else
        match (if g.ended.isSome then none else g.armedReg), g.lastRetire with
        | some r, some (pc, mask, fib) => .next (s.takeFault gid cause.convergence pc mask fib r 0)
        | some r, none => .next (s.takeFault gid cause.convergence 0 0 0 r 0)
        | none, _ => .next (s.freeGroup gid g)

/-- GRID_COMPLETION (R309): the grid's completion, its task's, and the MSI-X vector. -/
def execGridCompletion (gridId : Nat) (s : State) : Host.Outcome State Fault Refusal :=
  match tfind s.grids gridId with
  | none => .next s
  | some q =>
    if !q.groups.isEmpty ∨ (q.ending.isNone ∧ q.nextIndex < q.total) ∨ s.backsOut q.vf then .next s
    else
      let st := q.ending.elim status.completed (·.2.2)
      let task : Option (Nat × Item) := q.item.bind fun i => (tfind s.items i).map (i, ·)
      match s.completeAll gridId 32 q.vf ⟨q.cmpl, q.cnt, q.seq, q.inc⟩ task st with
      | .wait s => .next s
      | .fault s _ => .next s
      | .ok s () =>
        let s := { task.elim s (fun t => s.dropItem t.1) with grids := tdel s.grids gridId }
        .next (if st ≠ 0 ∨ q.irq then s.emit (.msix q.vf ((s.ctx q.vf).msix + 1)) else s)

/-! ### Budget periods (R36, R188, R229, R262, R278, R312) -/

/-- What was used beyond a limit counts in the next period: flits of replies (R229) and the bytes of a spill (R320). -/
def carry (lim : Nat → Nat) (t : Tab Nat) : Tab Nat :=
  (t.map fun p => (p.1, p.2 - lim p.1)).filter fun p => p.2 != 0

/-- BUDGET_PERIOD: every 10 us. -/
def execBudgetPeriod (s : State) : Host.Outcome State Fault Refusal :=
  if s.ns < s.mh.periodAt + 10000 then .next s
  else
    let cores := s.cores.map fun p => (p.1, { p.2 with used := [] })
    let dies := s.dies.map fun p => (p.1, { p.2 with copyUsed := [] })
    let stks := s.stks.map fun p =>
      (p.1, { p.2 with fillUsed := [], hbmUsed := carry (s.hbmLimit p.1) p.2.hbmUsed, abUsed := [] })
    let flits := (s.mh.flitUsed.map fun x => (x.1, x.2.1, x.2.2 - s.flitLimit x.2.1 (x.1 / 64))).filter fun x => x.2.2 != 0
    .next { s with cores := cores, dies := dies, stks := stks, mh := { s.mh with flitUsed := flits, periodAt := s.mh.periodAt + 10000 } }

end Sys2Proof.Machine
end

