-- ==== Sys2Proof/Machine/Scrub.lean ====
section
/-! DEFINITION. Key slots, windows, frames and scrub jobs, and the teardown of a context (R340 to R342, R345, R347, R348,
R355, R356). -/

namespace Sys2Proof.Machine

/-! ### Key slots (R340, R341) -/

def Stack.slot (k : Stack) (n : Nat) : KeySlot := tget KeySlot.reset k.slots n

def State.modSlot (s : State) (st n : Nat) (f : KeySlot → KeySlot) : State :=
  s.modStack st fun k => { k with slots := tput KeySlot.reset k.slots n (f (k.slot n)) }

/-- KSLOTs (Table 21.8). -/
def KeySlot.word (x : KeySlot) : Nat :=
  x.gen * 2 ^ 16 + x.vf * 2 ^ 8 + (match x.st with
    | .free => 0
    | .active => 1
    | .window => 2) * 2 ^ 4

/-- An access under a slot stands at its home and is not performed (R341), or was under way when its window ended
(R347). -/
def State.slotBusy (s : State) (st n : Nat) : Bool :=
  s.accs.any fun p => p.2.loc.stack == st && p.2.loc.key == n && !p.2.loc.pin && !p.2.performed && p.2.ext == 0 &&
    (p.2.atHome || p.2.old)

/-- ZEROISE's effect on a slot: both keys, STATE and VF; GEN stays. -/
def State.zeroSlot (s : State) (st n : Nat) : State := s.modSlot st n fun x => { x with st := .free, vf := 0, data := 0, mac := 0 }

/-- Two fresh keys from the DRBG (R341, R345). -/
def State.drawKey (s : State) (st n vf : Nat) (state : SlotSt) : State :=
  let key := s.mh.nextKey
  (s.modMh fun m => { m with nextKey := key + 2 }).modSlot st n fun x =>
    { gen := (x.gen + 1) % 2 ^ 24, vf := vf, st := state, data := Config.drbg key, mac := Config.drbg (key + 1) }

/-- Slot 0 of a stack, drawn at cold reset (R340, R349): it is FREE to no command and has no generation. -/
def State.drawSlot0 (s : State) (st : Nat) : State :=
  let key := s.mh.nextKey
  (s.modMh fun m => { m with nextKey := key + 2 }).modSlot st 0 fun x =>
    { x with data := Config.drbg key, mac := Config.drbg (key + 1) }

/-! ### Windows (R345, R347) -/

/-- End the windows that a test names: their table entries and the parties' cached buffer entries go, and no consent covers
their slots any more. -/
def State.endWindows (s : State) (sel : Nat × Nat × Nat × Nat × Nat → Bool) : State :=
  let gone := s.mh.windows.filter sel
  gone.foldl (fun s w =>
    let slot := w.2.1
    let s := s.modMh fun m => { m with windows := m.windows.filter (· != w) }
    let s := (List.range 16).foldl (fun s st =>
      if (s.stack st).wins.any fun x => x.slot == slot then
        s.modStack st fun k => { k with wins := k.wins.filter fun x => x.slot != slot }
      else s) s
    let old (a : Access) : Access := if a.loc.win && a.loc.key == slot && !a.loc.pin then { a with old := true } else a
    { s with
      accs := s.accs.map fun (p : Nat × Access) => (p.1, old p.2)
      cores := s.cores.map fun c => (c.1, { c.2 with bufs := c.2.bufs.filter fun b =>
        !((b.1 == w.2.2.1 || b.1 == w.2.2.2.1) && entKey b.2.2 == slot) }) }) s

/-! ### Frames (R342, R344, R349) -/

def Stack.frame (k : Stack) (f : Nat) : Frame := tget Frame.reset k.frames f

/-- 64 KiB frames of a stack. -/
def frameCount : Nat := 48 * 2 ^ 14

/-- Frames of a stack assigned under some slots, ascending. -/
def Stack.framesUnder (k : Stack) (slots : List Nat) : List Nat :=
  (k.frames.filter fun p => p.2.st == .assigned && slots.contains p.2.key).map (·.1)

/-- Move frames to SCRUB. -/
def State.scrubFrames (s : State) (st : Nat) (fs : List Nat) : State :=
  s.modStack st fun k => { k with frames := fs.foldl (fun t f => tset t f { tget Frame.reset t f with st := .scrub, key := 0 }) k.frames }

/-- A frame after its scrub: zero, INIT set, its counters at zero, FREE (R344, R348). -/
def State.clearFrame (s : State) (st f : Nat) : State :=
  let lo := f * 512
  let inside (line : Nat) : Bool := decide (lo ≤ line) && decide (line < lo + 512)
  { s with mem := memClear s.mem (memAddr st (f * 2 ^ 16)) (2 ^ 16) }.modStack st fun k =>
    { k with
      frames := tset k.frames f ⟨.free, 0, true⟩
      ctr1 := k.ctr1.filter fun p => !(decide (8 * f ≤ p.1) && decide (p.1 < 8 * f + 8))
      seals := k.seals.filter fun p => !inside p.1
      bad := k.bad.filter fun l => !inside l
      badCtr := k.badCtr.filter fun b => !(b.1 == 1 && b.2 / 8 == f)
      sc := k.sc.filter fun x => !inside x.line }

/-- The lowest frame in QUAR. -/
def firstQuar : Nat → Tab Frame → Nat
  | n, [] => n
  | n, (f, x) :: t => if f = n ∧ x.st ≠ .quar then firstQuar (n + 1) t else n

/-! ### Scrub jobs (R348, R355, R356) -/

/-- A VF has an unfinished job at some stack (R348). -/
def State.scrubbing (s : State) (vf : Nat) : Bool := s.stks.any fun p => p.2.jobs.any fun j => j.vf == vf

/-- Queue a job at a stack; one that has nothing there is complete at once. -/
def State.queueJob (s : State) (st : Nat) (j : ScrubJob) : State :=
  if j.onchip.isEmpty && j.ways.isEmpty && j.frames.isEmpty then s
  else s.modStack st fun k => { k with jobs := k.jobs ++ [j] }

/-- R355: the TDI of a torn-down VF unlocks when no stack has a job of it left. -/
def State.settleTdi (s : State) (vf : Nat) : State :=
  if (s.ctx vf).scrubbing && !s.scrubbing vf then
    s.modCtx vf fun c => { c with scrubbing := false, tdi := if c.tdi = .error then .unlocked else c.tdi }
  else s

/-- Take finished jobs off the head. -/
def State.endJob (s : State) (st : Nat) : State :=
  match (s.stack st).jobs with
  | j :: t =>
    if j.onchip.isEmpty && j.ways.isEmpty && j.frames.isEmpty then
      (s.modStack st fun k => { k with jobs := t, lastDone := j.done }).settleTdi j.vf
    else s
  | [] => s

/-- The engine of a stack works: not before the blob is loaded, nor in self-refresh (R356, R370). -/
def State.scrubRuns (s : State) (st : Nat) : Bool := s.mh.boot == .done && !(s.stack st).selfref

/-- The storage of a dead group is zero and carries no tag. -/
def State.clearGroup (s : State) (gid : Nat) : State :=
  match s.group? gid with
  | none => s
  | some g =>
    let s := s.forgetOn g.k gid
    let s := s.modCore g.k fun co =>
      { co with ports := co.ports.map fun p => if p.2.owner = some gid then (p.1, { p.2 with owner := none, fifo := [] }) else p }
    { s with groups := tdel s.groups gid }

/-- SCRUB_ONCHIP (R356 steps 1 and 2): one group's storage, or one pinned way, of the oldest job. -/
def execScrubOnchip (st : Nat) (s : State) : Host.Outcome State Fault Refusal :=
  match (s.stack st).jobs with
  | [] => .next s
  | j :: t =>
    if !s.scrubRuns st then .next s
    else
      match j.onchip, j.ways with
      | g :: rest, _ =>
        .next (((s.clearGroup g).modStack st fun k => { k with jobs := { j with onchip := rest } :: t }).endJob st)
      | [], w :: rest =>
        let s := { s with pin := memClear s.pin (st * 2 ^ 36 + w * 2 ^ 21) (2 ^ 21) }
        .next ((s.modStack st fun k => { k with jobs := { j with ways := rest } :: t }).endJob st)
      | [], [] => .next (s.endJob st)

/-- SCRUB_FRAME (R348, R349, R356 step 3): the next frame of the oldest job, or with no job the lowest frame in QUAR. -/
def execScrubFrame (st : Nat) (s : State) : Host.Outcome State Fault Refusal :=
  if 15 < st ∨ !s.scrubRuns st then .next s
  else
    match (s.stack st).jobs with
    | j :: t =>
      if !j.onchip.isEmpty || !j.ways.isEmpty then .next s
      else
        match j.frames with
        | f :: rest =>
          .next (((s.clearFrame st f).modStack st fun k =>
            { k with jobs := { j with frames := rest, done := j.done + 1 } :: t }).endJob st)
        | [] => .next (s.endJob st)
    | [] =>
      let f := firstQuar 0 (s.stack st).frames
      if f < frameCount then .next (s.clearFrame st f) else .next s

/-- SCRUBP (Table 21.10). -/
def Stack.scrubp (k : Stack) : Nat :=
  match k.jobs with
  | [] => k.lastDone % 2 ^ 20
  | j :: _ =>
    j.vf * 2 ^ 48 + (k.jobs.any fun x => !x.ways.isEmpty).toNat * 2 ^ 41 + (k.jobs.any fun x => !x.onchip.isEmpty).toNat * 2 ^ 40 +
    (sumOf (k.jobs.map fun x => x.frames.length)) % 2 ^ 20 * 2 ^ 20 + j.done % 2 ^ 20

/-! ### Teardown (R269, R299, R348, R355) -/

/-- One accepted piece of work of a VF ends with status Aborted (R299, R366, Table 19.5). None where nothing is left; the
state is unchanged where a home has the completion wait. -/
def State.abortOne (s : State) (vf : Nat) : Option State :=
  let st := status.aborted
  let ioOf (x : EngOp) : Compl := ⟨x.cmpl, x.cnt, x.seq, x.inc⟩
  match s.cards.find? fun p => p.2.vf == vf with
  | some (id, c) =>
    if !c.accepted then some { s with cards := tdel s.cards id, fetched := tdel s.fetched id }
    else
      match s.complete (complKey id) c.die vf (readCopy c.bytes).io st with
      | .ok s () => some ((s.modDie c.die fun d =>
          { d with copyq := d.copyq.filter (· != id), engines := d.engines.filter fun p => p.2 != id }).dropItem id)
      | .wait s | .fault s _ => some s
  | none =>
  match s.cores.findSome? fun p => (p.2.eng.find? fun x => x.vf == vf).map fun x => (p.1, x) with
  | some (k, x) =>
    match s.complete (complKey x.item) (k / 16) vf (ioOf x) st with
    | .ok s () => some ((s.modCore k fun co => { co with eng := co.eng.filter fun y => y.item != x.item }).dropItem x.item)
    | .wait s | .fault s _ => some s
  | none =>
  match s.groups.findSome? fun p => if p.2.vf = vf then (p.2.savedEng.head?).map fun x => (p.1, x) else none with
  | some (g, x) =>
    match s.complete (complKey x.item) 32 vf (ioOf x) st with
    | .ok s () => some ((s.modGroup g fun y => { y with savedEng := y.savedEng.drop 1 }).dropItem x.item)
    | .wait s | .fault s _ => some s
  | none =>
  match s.colls.find? fun p => p.2.vf == vf with
  | some (id, c) =>
    match s.completeAll id 32 vf ⟨c.cmpl, c.cnt, c.seq, c.inc⟩ ((tfind s.items c.item).map (c.item, ·)) st with
    | .ok s () => some { s.dropItem c.item with colls := tdel s.colls id, stks := s.stks.map fun p => (p.1, { p.2 with abacus := p.2.abacus.filter fun a => a / 2 ^ 16 != id }) }
    | .wait s | .fault s _ => some s
  | none =>
  match s.grids.find? fun p => p.2.vf == vf with
  | some (id, q) =>
    let task : Option (Nat × Item) := q.item.bind fun i => (tfind s.items i).map (i, ·)
    match s.completeAll id 32 vf ⟨q.cmpl, q.cnt, q.seq, q.inc⟩ task st with
    | .ok s () =>
      some ({ task.elim s (fun t => s.dropItem t.1) with grids := tdel s.grids id }.emit (.msix vf ((s.ctx vf).msix + 1)))
    | .wait s | .fault s _ => some s
  | none =>
  match s.items.find? fun p => p.2.vf == vf with
  | some (id, it) => some (s.endTask id it st)
  | none => none

/-- Groups of a VF that are not dead yet. -/
def State.aliveOf (s : State) (vf : Nat) : List (Nat × Group) := s.groups.filter fun p => p.2.vf == vf && !p.2.dead

/-- Key slots that a VF holds, by stack (R348 step 2). -/
def Stack.slotsOf (k : Stack) (vf : Nat) : List Nat :=
  (k.slots.filter fun p => p.1 != 0 && p.2.st != .free && p.2.vf == vf).map (·.1)

/-- What the dies hold of a VF goes: waiters, cluster-unit lines and what waits for them, lines of L1 (R269). -/
def State.dropVf (s : State) (vf : Nat) : State :=
  let s := { s with waiters := s.waiters.filter fun p => p.2.vf != vf }
  let s := s.cores.foldl (fun s p =>
    let mine := p.2.l1.filter fun x => x.loc.vf == vf
    let s := mine.foldl (fun s x => (s.writeBackLine p.1 x).1) s
    if mine.isEmpty then s else s.modCore p.1 fun c => { c with l1 := c.l1.filter fun x => x.loc.vf != vf }) s
  let waits := (s.accs.filter fun p => p.2.ext == 5 && p.2.loc.vf == vf).map (·.1)
  { s with
    accs := s.accs.filter fun p => !waits.contains p.1
    dies := s.dies.map fun p => (p.1, { p.2 with lines := p.2.lines.filter fun c => c.loc.vf != vf
                                                 cuOps := p.2.cuOps.filter fun m => !waits.contains m }) }

/-- R348 step 5: cached buffer entries, translations and routines; stack-cache lines and code pins go with them. -/
def State.forgetVf (s : State) (vf : Nat) : State :=
  { s with
    cores := s.cores.map fun p => (p.1, { p.2 with bufs := p.2.bufs.filter fun b => b.1 != vf
                                                   icache := p.2.icache.filter fun l => l.vf != vf })
    stks := s.stks.map fun p =>
      (p.1, { p.2 with tlb := p.2.tlb.filter fun t => t.vf != vf
                       routines := p.2.routines.filter fun r => r.1 / 64 != vf
                       sc := p.2.sc.filter fun x => x.vf != vf
                       ipins := p.2.ipins.filter fun x => x.1 != vf }) }

/-- Steps 2 to 5 of R348 at once, once the windows have ended. -/
def State.wipe (s : State) (vf : Nat) : State :=
  let s := s.dropVf vf
  let groups := s.aliveOf vf
  let kept : Tab Group := s.groups.filter fun p => !(p.2.vf == vf && p.2.evicted)
  let kill (g : Group) : Group := if g.vf = vf then { g with dead := true, halted := true } else g
  let s : State := { s with groups := kept.map fun (p : Nat × Group) => (p.1, kill p.2) }
  let s := groups.foldl (fun s p => (s.forgetOn p.2.k p.1).cancelMcas p.1) s
  let s := (List.range 16).foldl (fun s st =>
    let slots := (s.stack st).slotsOf vf
    let frames := (s.stack st).framesUnder slots
    let s := slots.foldl (fun s n => s.zeroSlot st n) s
    let s := s.scrubFrames st frames
    s.queueJob st
      { vf := vf, onchip := (groups.filter fun p => !p.2.evicted && p.2.k / 16 == st).map (·.1),
        ways := (List.range 16).filter fun w => (s.pinWays st vf).testBit w, frames := frames, done := 0 }) s
  let s := s.forgetVf vf
  (s.modCtx vf fun c => { c with desc := none, tearing := false, ring := none, ringStopped := none, consents := [], scrubbing := true }).settleTdi vf

/-- A move of TEARDOWN of a VF (R348, R355); the answer says whether step 5 holds. -/
def State.teardownMove (s : State) (vf : Nat) : State × Bool :=
  let s := s.modCtx vf fun c => { c with tearing := true, tdi := if c.tdi = .locked ∨ c.tdi = .run then .error else c.tdi }
  let run := (s.aliveOf vf).filter fun p => !p.2.evicted && p.2.toHalt
  if !run.isEmpty then
    (run.foldl (fun s p => if p.2.halting then s else s.haltReq p.1) s, false)
  else
    match s.abortOne vf with
    | some s => (s, false)
    | none =>
      let s := s.endWindows fun w => w.2.2.1 == vf || w.2.2.2.1 == vf
      if (List.range 16).any fun st => ((s.stack st).slotsOf vf).any fun n => s.slotBusy st n then (s, false)
      else (s.wipe vf, true)

/-- FUNCTION_LEVEL_RESET (R358): TEARDOWN of the VF's context; of the PF, a warm reset. The device's own teardown of a TDI
in ERROR (R338) goes on by the same moves. -/
def execFunctionLevelReset (vf : Nat) (s : State) : Host.Outcome State Fault Refusal :=
  if 192 < vf then .next s
  else if vf = 0 then .next { s with agenda := .event .warmReset :: s.agenda }
  else
    match (s.modCtx vf fun c => { c with flr := true }).teardownMove vf with
    | (s, true) => .next (s.modCtx vf fun c => { c with flr := false })
    | (s, false) => .next s

end Sys2Proof.Machine
end

