-- ==== Sys2Proof/Machine/Sched.lean ====
section
/-! DEFINITION. Gang scheduling (R319 to R330) and what waits for a tick: changes of layout and of bindings (R325, R332 to
R334). -/

namespace Sys2Proof.Machine

/-! ### The rotation (R321, R328) -/

/-- WEIGHT of a VF (Table 19.7). -/
def Ctx.weight (c : Ctx) : Nat := bitsOf c.budget.toNat 7 0

/-- VFs bound to a partition, ascending. -/
def State.vfsOf (s : State) (l : Nat) : List Nat := (s.ctxs.filter fun p => p.2.bound && p.2.leader == l).map (·.1)

/-- A VF that the rotation does not skip (R321, Table 19.7). -/
def State.inRotation (s : State) (vf : Nat) : Bool :=
  decide (0 < (s.ctx vf).weight) && (!(s.aliveOf vf).isEmpty || (s.nextTask vf).isSome || s.placing vf)

/-- The VF after the current one in the rotation. -/
def State.rotate (s : State) (l : Nat) (cur : Option Nat) : Option Nat :=
  let vs := (s.vfsOf l).filter s.inRotation
  match cur with
  | some c => (vs.find? fun v => decide (c < v)).orElse fun _ => vs.head?
  | none => vs.head?

/-- The turn of the current VF ends at this tick. -/
def State.turnEnds (s : State) (l : Nat) : Bool :=
  let g := s.gang l
  match g.cur with
  | none => true
  | some v => !(s.inRotation v && (s.vfsOf l).contains v) || decide ((s.ctx v).weight ≤ g.turn + 1)

/-- When the next tick falls: a turn is shortened by what is charged to it, to 100 us at least (R328). -/
def State.tickDue (s : State) (l : Nat) : Nat :=
  let g := s.gang l
  let due := g.tickAt + 1000 * g.period
  match g.cur with
  | some v =>
    let c := tget 0 g.charge v
    if c = 0 ∨ g.misses ≠ 0 ∨ !s.turnEnds l then due else min due (max (due - c) (g.turnAt + 100000))
  | none => due

/-- A die that takes part in a switch: HOLD and OFF dies and failed ones do not (R370). -/
def State.takesPart (s : State) (d : Nat) : Bool :=
  let x := s.die d
  (x.level == .l0 || x.level == .l1 || x.level == .l2) && !x.clockStopped && !x.failed || x.trip

/-! ### Pre-emption (R319) -/

/-- Halt every core of a partition. -/
def State.haltPartition (s : State) (l : Nat) : State := (s.diesOf l).foldl (fun s d => s.haltDie d) s

/-- Every group of a partition that a halt concerns has halted. -/
def State.allHalted (s : State) (l : Nat) : Bool := (s.diesOf l).all fun d => (s.running d).isEmpty

/-- PREEMPTION_REQUEST (R319): the halt lasts until the partition's next switch tick. A switch that runs has halted it
already. -/
def execPreemptionRequest (l : Nat) (s : State) : Host.Outcome State Fault Refusal :=
  if s.leaderOfDie l ≠ l ∨ 15 < l then .next s
  else
    let s := s.haltPartition l
    .next (s.modGang l fun g => { g with phase := if g.phase = .idle then .preempted else g.phase })

/-! ### Firewalls and layouts (R325, R332, R333) -/

/-- FWCTL of a stack under a layout (Table 21.3). -/
def fwctlFor (cfg : BitVec 64) (t : Nat) : Word :=
  let l := leaderIn cfg t
  let inside (d : Nat) : Bool := leaderIn cfg d == l
  let row := (List.range 4).filter (· != colOf t)
  let col := (List.range 4).filter (· != rowOf t)
  let lk := (row.map fun c => rowOf t * 4 + c) ++ col.map fun r => r * 4 + colOf t
  let at_ := [t, t ^^^ 1, t ^^^ 4]
  let bits := (lk ++ at_).map inside
  let low := (bits.zipIdx).foldl (fun m b => if b.1 then m + 2 ^ b.2 else m) 0
  BitVec.ofNat 32 (l * 2 ^ 16 + (Config.blobHexavo l t).toNat * 2 ^ 9 + low)

/-- Leaders of the partitions that a layout alters. -/
def State.altered (s : State) (cfg : BitVec 64) : List Nat :=
  (List.range 16).filter fun l => s.leaderOfDie l == l && s.diesOf l != diesIn cfg l

/-- Spill the halted groups of a partition's dies that a test names. -/
def State.evictOn (s : State) (l : Nat) (sel : Group → Bool) : State :=
  (s.groups.filter fun p => (s.diesOf l).contains (p.2.k / 16) && !p.2.evicted && sel p.2 && s.mayEvict p.1).foldl
    (fun s p => s.evict p.1) s

/-- Groups of a test that are still on a partition's dies. -/
def State.staysOn (s : State) (l : Nat) (sel : Group → Bool) : Bool :=
  s.groups.any fun p => (s.diesOf l).contains (p.2.k / 16) && !p.2.evicted && !p.2.dead && sel p.2

/-- The layout takes force (R325 steps 3 and 4): windows of altered partitions end, TDIs leave their lock (R338), the
firewalls follow, and each new partition starts with no slice. -/
def State.applyLayout (s : State) (cfg : BitVec 64) : State :=
  let ls := s.altered cfg
  let changed (d : Nat) : Bool := ls.contains (s.leaderOfDie d)
  let s := s.endWindows fun w => ls.contains w.2.2.2.2
  let hit := (s.ctxs.filter fun p => p.2.bound && ls.contains p.2.leader && (p.2.tdi == .locked || p.2.tdi == .run)).map (·.1)
  let s := hit.foldl (fun s v => s.modCtx v fun c => { c with tdi := .error, flr := true }) s
  let s := (List.range 16).foldl (fun s t => if changed t then s.modStack t fun k => { k with fwctl := fwctlFor cfg t } else s) s
  let news := (List.range 16).filter fun d => changed d && leaderIn cfg d == d
  let s := s.modMh fun m => { m with partcfg := cfg, partNext := m.partNext.drop 1 }
  news.foldl (fun s l => s.modGang l fun g =>
    { Gang.reset with tickp := g.tickp, period := bitsOf g.tickp.toNat 19 0, tickAt := s.ns }) s

/-- VFs of a partition, bound or not, whose new binding waits (R334). -/
def State.bindsWaiting (s : State) (l : Nat) : List Nat :=
  (s.ctxs.filter fun p => p.2.leader == l && p.2.vfbindNext.isSome).map (·.1)

/-- The event of a write to a power register of PF BAR0 (Tables 23.7, 23.8); none for a TARGET that is ignored. -/
def powerEvent (off v : Nat) : Option Instr :=
  if 0x100 ≤ off ∧ off < 0x140 then
    let d := (off - 0x100) / 4
    match v % 16 with
    | 0 => some (.dieOff d)
    | 1 => some (.dieHold d)
    | 2 => some (.l2 d)
    | 3 => some (.l1 d)
    | 4 => some (.l0 d)
    | _ => none
  else if 0x200 ≤ off ∧ off < 0x240 then
    let t := (off - 0x200) / 4
    some (if v % 2 = 1 then .selfref t else .active t)
  else none

/-- Commands that came during a switch are carried out after it (R370). -/
def State.releaseLater (s : State) : State :=
  let moves := (s.mh.pwrLater.filterMap fun p => powerEvent p.1 p.2).map Move.event
  if s.mh.pwrLater.isEmpty then s else { s with agenda := moves ++ s.agenda, mh := { s.mh with pwrLater := [] } }

/-- A partition in full eviction goes on (R325 step 2, R334): everything halts and is spilt, and then the new bindings and
the new layout take force. -/
def State.evictMove (s : State) (l : Nat) : State :=
  let s := s.haltPartition l
  let layout := s.mh.partNext.head?.filter fun cfg => (s.altered cfg).contains l
  let binds := s.bindsWaiting l
  let sel (g : Group) : Bool := layout.isSome || binds.contains g.vf
  if !s.allHalted l then s
  else
    let s := s.evictOn l sel
    if s.staysOn l sel then s
    else
      let s := binds.foldl (fun s v => s.modCtx v fun c => { c with vfbind := c.vfbindNext.getD c.vfbind, vfbindNext := none }) s
      match layout with
      | some cfg =>
        if (s.altered cfg).all fun x => (s.gang x).phase == .evicting && !s.staysOn x fun _ => true then s.applyLayout cfg else s
      | none =>
        let s := s.modGang l fun g => { g with phase := .idle, cur := g.cur.filter fun v => (s.vfsOf l).contains v }
        match (s.gang l).cur with
        | some v => (s.restoreVf v).releaseLater
        | none => s.releaseLater

/-! ### Ticks (R321, R322, R325, R328) -/

/-- A switch to a VF begins: PREPARE goes to every die. -/
def State.beginSwitch (s : State) (l : Nat) (next : Option Nat) : State :=
  s.modGang l fun g => { g with phase := .preparing, next := next, prepAt := s.ns, prepared := [], ready := [],
                                misses := if g.next = next then g.misses else 0 }

/-- What the rotation does at a tick. -/
def State.tickTurn (s : State) (l : Nat) : State :=
  let g := s.gang l
  let ends := s.turnEnds l
  let retry := g.next.filter fun v => (s.vfsOf l).contains v && s.inRotation v
  let next := if retry.isSome then retry else if ends then s.rotate l g.cur else g.cur
  let s := if ends ∧ g.misses = 0 then s.modGang l fun x =>
      { x with charge := match g.cur with
        | some v => tdel x.charge v
        | none => x.charge } else s
  let barred := g.cur.elim false fun v => (s.ctx v).weight == 0 || !(s.vfsOf l).contains v
  if (next.isSome ∧ next ≠ g.cur) ∨ (next.isNone ∧ barred) then s.beginSwitch l next
  else
    -- the same VF goes on, in a new turn where the last one has ended
    let s := s.modGang l fun x =>
      { x with turn := if ends then 0 else x.turn + 1, turnAt := if ends then s.ns else x.turnAt, next := none, misses := 0,
               phase := .idle }
    (match g.cur with
      | some v => s.restoreVf v
      | none => s).releaseLater

/-- SWITCH_TICK (R321, R325, Table 21.7). -/
def execSwitchTick (l : Nat) (s : State) : Host.Outcome State Fault Refusal :=
  let g := s.gang l
  if 15 < l ∨ s.leaderOfDie l ≠ l then .next s
  else
    match g.phase with
    | .evicting => .next (s.evictMove l)
    | .idle | .preempted =>
      if s.ns < s.tickDue l then .next s
      else
        let s := s.modGang l fun g => { g with tickAt := g.tickAt + 1000 * g.period, period := bitsOf g.tickp.toNat 19 0 }
        let layout := s.mh.partNext.head?.elim false fun cfg => (s.altered cfg).contains l
        if layout || !(s.bindsWaiting l).isEmpty then
          .next ((s.modGang l fun g => { g with phase := .evicting }).evictMove l)
        else .next (s.tickTurn l)
    | _ => .next s

/-! ### Switches (R322 to R324, R326, R327) -/

/-- PREPARE reaches a die (R322). -/
def execPrepare (l d : Nat) (s : State) : Host.Outcome State Fault Refusal :=
  let g := s.gang l
  if g.phase ≠ .preparing ∨ g.prepared.contains d ∨ !(s.diesOf l).contains d then .next s
  else .next ((s.haltDie d).modGang l fun g => { g with prepared := g.prepared ++ [d] })

/-- R327: the groups of the outgoing VF that ended on the die have drained, and the grids whose last group the die held have
completed. -/
def State.settledOn (s : State) (d vf : Nat) : Bool :=
  !(s.groups.any fun p => p.2.vf == vf && p.2.k / 16 == d && !p.2.halted && !p.2.evicted && !p.2.dead) &&
  !(s.grids.any fun p => p.2.vf == vf && p.2.groups.isEmpty && p.2.lastOn == some d && (p.2.ending.isSome || decide (p.2.total ≤ p.2.nextIndex)))

/-- READY of a die (R322, R327): its control state is in the save area, which is large enough (R320). -/
def execReady (l d : Nat) (s : State) : Host.Outcome State Fault Refusal :=
  let g := s.gang l
  if g.phase ≠ .preparing ∨ !g.prepared.contains d ∨ g.ready.contains d ∨ !(s.running d).isEmpty ∨ !s.dieRuns d ∨
      g.prepAt + 2000 < s.ns then .next s
  else
    let done (s : State) : State := s.modGang l fun g => { g with ready := g.ready ++ [d] }
    match g.cur with
    | none => .next (done s)
    | some v =>
      let held := s.groups.any fun p => p.2.vf == v && p.2.k / 16 == d && p.2.halted && !p.2.dead && !p.2.evicted
      if !s.settledOn d v then .next s
      else if !held then .next (done s)
      else if s.saveFits v && s.saveOpen v then .next (done (s.scribble v))
      else .next s

/-- The dies whose READY a switch needs. -/
def State.needed (s : State) (l : Nat) : List Nat := (s.diesOf l).filter s.takesPart

/-- The switch commits: the incoming VF's groups are restored; pins of code in L1 have ended (R199). -/
def State.doCommit (s : State) (l : Nat) : State :=
  let next := (s.gang l).next
  let s := s.modGang l fun g =>
    { g with cur := next, next := none, phase := .idle, turn := 0, turnAt := s.ns, prepared := [], ready := [], misses := 0 }
  let ds := s.diesOf l
  let unpin (g : Group) : Group := if ds.contains (g.k / 16) then { g with ipins := [] } else g
  let s : State := { s with groups := s.groups.map fun (p : Nat × Group) => (p.1, unpin p.2) }
  (match next with
    | some v => s.restoreVf v
    | none => s).releaseLater

/-- COMMIT (R322, R324). With no switch under way it resumes groups of the current VF that waited for room, a die or a reply
(R257, R329). -/
def execCommit (l : Nat) (s : State) : Host.Outcome State Fault Refusal :=
  let g := s.gang l
  match g.phase with
  | .preparing =>
    if (s.needed l).all g.ready.contains then .next (s.doCommit l) else .next s
  | .committing => .next (s.doCommit l)
  | .idle => match g.cur with
    | some v => .next (s.restoreVf v)
    | none => .next s
  | _ => .next s

/-- R324: a die is reset alone. Groups of other VFs that can be spilt are; those left fault with Die Lost. -/
def State.resetDie (s : State) (d vf : Nat) : State :=
  let s := (s.groups.filter fun p => p.2.k / 16 == d && p.2.vf != vf && s.mayEvict p.1).foldl (fun s p => s.evict p.1) s
  let s := (s.groups.filter fun p => p.2.k / 16 == d && !p.2.evicted && !p.2.dead).foldl
    (fun s p => s.modGroup p.1 fun g => { g with halted := false, halting := false }) s
  match execDieFailure d s with
  | .next t => t
  | _ => s

/-- SWITCH_DEADLINE (R323, R324). -/
def execSwitchDeadline (l : Nat) (s : State) : Host.Outcome State Fault Refusal :=
  let g := s.gang l
  let late := (s.needed l).filter fun d => !g.ready.contains d
  if g.phase ≠ .preparing ∨ s.ns ≤ g.prepAt + 2000 ∨ late.isEmpty then .next s
  else if g.misses < 2 then .next (s.modGang l fun g => { g with phase := .cancelling, misses := g.misses + 1 })
  else
    let out := g.cur.getD 0
    let s := late.foldl (fun s d => s.resetDie d out) s
    let s := s.modCtx out fun c => { c with sticky := c.sticky ||| 0b1000 }
    .next (s.modGang l fun g => { g with phase := .committing })

/-- CANCEL (R323, R328): the outgoing VF resumes where it halted. -/
def execCancel (l : Nat) (s : State) : Host.Outcome State Fault Refusal :=
  let g := s.gang l
  if g.phase ≠ .cancelling then .next s
  else
    let s := s.modGang l fun x =>
      { x with phase := .idle, prepared := [], ready := []
               charge := match g.cur with
                 | some v => tset x.charge v (tget 0 x.charge v + (s.ns - g.prepAt))
                 | none => x.charge }
    match g.cur with
    | some v =>
      .next (((s.modCtx v fun c => { c with sticky := c.sticky ||| 0b0010 }).restoreVf v).releaseLater)
    | none => .next s.releaseLater

/-- R319, R330: a core cycle after which pending halts take place. -/
def State.coreEdge (s : State) (d : Nat) : State := (s.tickCore d).endHolds

end Sys2Proof.Machine
end

