-- ==== Sys2Proof/Machine/Regs.lean ====
section
/-! DEFINITION. The registers of the masthead, the compute dies and the base dies as software writes and reads them
(Table 22.1), each under its own rules. -/

namespace Sys2Proof.Machine

/-! ### Partitions and bindings (R332, R334) -/

/-- PARTCFG_WRITE (R332): an illegal layout is ignored; one that changes the layout waits for its sequence of R325, behind
those before it. -/
def execPartcfgWrite (v : BitVec 64) (s : State) : Host.Outcome State Fault Refusal :=
  let v := v &&& 0x0000FFFFFFFFFFFF
  let last := s.mh.partNext.getLast?.getD s.mh.partcfg
  if !legalLayout v || v == last then .next s else .next (s.modMh fun m => { m with partNext := m.partNext ++ [v] })

/-- R334: a binding that names a leader and a permutation of its partition's dies, with zero above. -/
def State.legalBind (s : State) (c : Ctx) : Bool :=
  let l := c.leader
  let ds := s.diesOf l
  let m := (List.range ds.length).map c.vmap
  s.leaderOfDie l == l && ds.all m.contains && m.all ds.contains && c.vfbind.toNat % 2 ^ 64 / 2 ^ (4 * ds.length) == 0

/-- LEADER and VMAP of a VFBIND value. -/
def bindPlace (v : BitVec 128) : Nat := v.toNat % 2 ^ 68

/-- The context has groups on some die. -/
def State.inPlace (s : State) (vf : Nat) : Bool := s.groups.any fun p => p.2.vf == vf && !p.2.evicted && !p.2.dead

/-- VFBIND_WRITE (R326, R334): a change of place waits for the VF's groups to be evicted; those of a suspended context are
spilt at once. -/
def execVfbindWrite (n : Nat) (v : BitVec 128) (s : State) : Host.Outcome State Fault Refusal :=
  let v : BitVec 128 := BitVec.ofNat 128 (v.toNat % 2 ^ 69)
  let c := s.ctx n
  let next : Ctx := { c with vfbind := v, vfbindNext := none }
  if 192 < n ∨ (next.bound ∧ !s.legalBind next) then .next s
  else if bindPlace v = bindPlace c.vfbind ∨ !s.inPlace n then .next (s.modCtx n fun _ => next)
  else
    let wait (s : State) : State := s.modCtx n fun c => { c with vfbindNext := some v }
    if (s.gang c.leader).cur = some n then .next (wait s)
    else
      let s := (s.groups.filter fun p => p.2.vf == n && s.mayEvict p.1).foldl (fun s p => s.evict p.1) s
      if s.inPlace n then .next (wait s) else .next (s.modCtx n fun c => { c with vfbind := v, vfbindNext := none })

/-! ### Ways and quotas (R188, R268) -/

/-- All ways that a SCWAY value names. -/
def scMask (v : BitVec 64) : Nat := let r := v.toNat; bitsOf r 15 0 ||| bitsOf r 31 16 ||| bitsOf r 47 32

/-- R188: PINWAYS lie within the VF's ways and share none with another VF's. -/
def Stack.pinLegal (k : Stack) (n : Nat) (v : BitVec 64) : Bool :=
  let pin := bitsOf v.toNat 63 48
  pin &&& scMask v == pin && k.scway.all fun p => p.1 == n || pin &&& (scMask p.2 ||| bitsOf p.2.toNat 63 48) == 0

/-- SCWAY_WRITE (R188). The VF hits no more in a way that it lost. -/
def execScwayWrite (t n : Nat) (v : BitVec 64) (s : State) : Host.Outcome State Fault Refusal :=
  if 15 < t ∨ 192 < n ∨ !(s.stack t).pinLegal n v then .next s
  else
    .next (s.modStack t fun k =>
      { k with scway := tput 0 k.scway n v, sc := k.sc.filter fun x => x.vf != n || (scMask v).testBit x.way })

/-- A table of quotas after a write, unless a field's sum over all VFs passes its table (R268). -/
def quotaWrite {w : Nat} (t : Tab (BitVec w)) (n : Nat) (v : BitVec w) (fields : List (Nat × Nat × Nat)) : Option (Tab (BitVec w)) :=
  let t' := tput 0 t n v
  if fields.all fun f => decide (sumOf (t'.map fun p => bitsOf p.2.toNat f.1 f.2.1) ≤ f.2.2) then some t' else none

/-- AQUOTA_WRITE (Table 15.10). -/
def execAquotaWrite (t n : Nat) (v : BitVec 64) (s : State) : Host.Outcome State Fault Refusal :=
  if 15 < t ∨ 192 < n then .next s
  else
    match quotaWrite (s.stack t).aquota n (v &&& 0xFFFFFFFFF) [(35, 20, 16384), (19, 8, 2048), (7, 0, 256)] with
    | some q => .next (s.modStack t fun k => { k with aquota := q })
    | none => .next s

/-- CQUOTA_WRITE (Table 15.11). What waits in the die's cluster unit looks again. -/
def execCquotaWrite (d n : Nat) (v : BitVec 32) (s : State) : Host.Outcome State Fault Refusal :=
  if 15 < d ∨ 192 < n then .next s
  else
    match quotaWrite (s.die d).cquota n (v &&& 0x07FF07FF) [(26, 16, 1024), (10, 0, 1024)] with
    | some q => .next ((s.modDie d fun x => { x with cquota := q }).cuRun d)
    | none => .next s

/-! ### Scheduling and alarms (R306, R310, R311, R321, R350) -/

/-- TICKP_WRITE (R321): the new period is in force from the next tick. -/
def execTickpWrite (l : Nat) (v : BitVec 32) (s : State) : Host.Outcome State Fault Refusal :=
  let p := bitsOf v.toNat 19 0
  if 15 < l ∨ p < 100 ∨ Config.blobTickMax < p then .next s
  else .next (s.modGang l fun g => { g with tickp := BitVec.ofNat 32 p })

/-- SUBQ_WRITE (R310, R311): a SIZELOG above 12 is ignored in its field, and the ring's service is tried again. -/
def execSubqWrite (n : Nat) (v : BitVec 256) (s : State) : Host.Outcome State Fault Refusal :=
  if 192 < n then .next s
  else
    let x := v.toNat
    let size := if 12 < subqSize v then subqSize (s.ctx n).subq else subqSize v
    let q := bitsOf x 132 132 * 2 ^ 132 + size * 2 ^ 128 + x % 2 ^ 128
    .next ((s.modCtx n fun c => { c with subq := BitVec.ofNat 256 q, ringStopped := none, ring := none }).forget (ringKey n))

/-- The action code of a sensor after a write (R337, R350). -/
def alarmCode (old new sensor : Nat) : Nat :=
  let c := bitsOf new (2 * sensor + 1) (2 * sensor)
  if c = 3 ∨ c < Config.blobFloor sensor then bitsOf old (2 * sensor + 1) (2 * sensor) else c

/-- ALARMPOL_WRITE (Table 21.11): EVENTS is cleared by ones; each action is taken or ignored for itself. -/
def execAlarmpolWrite (v : BitVec 32) (s : State) : Host.Outcome State Fault Refusal :=
  let old := s.mh.alarmpol.toNat
  let x := v.toNat
  let events := bitsOf old 11 8 &&& (15 - bitsOf x 11 8)
  let code := alarmCode old x
  .next (s.modMh fun m => { m with alarmpol := BitVec.ofNat 32 (events * 2 ^ 8 + code 3 * 2 ^ 6 + code 2 * 2 ^ 4 + code 1 * 2 ^ 2 + code 0) })

/-- CSTAT_WRITE (Table 19.3): ones clear the sticky bits. -/
def execCstatWrite (vf : Nat) (v : BitVec 32) (s : State) : Host.Outcome State Fault Refusal :=
  if 192 < vf then .next s
  else .next (s.modCtx vf fun c => { c with sticky := c.sticky &&& ~~~(v.extractLsb' 0 4) })

/-! ### Table 22.1 -/

/-- The registers that RDREG and WRREG name. -/
inductive Reg where
  | partcfg | alarmpol
  | vfbind (n : Nat) | subq (n : Nat) | budget (n : Nat) | tickp (l : Nat) | cquota (d n : Nat)
  | fwctl | scrubp | stkhealth
  | kslot (t : Nat) | scway (n : Nat) | aquota (n : Nat)
  deriving DecidableEq, Repr

/-- A register's number (Table 22.1, R353). -/
def regOf (num : Nat) : Option Reg :=
  let n := num % 256
  let vf (r : Nat → Reg) : Option Reg := if n ≤ 192 then some (r n) else none
  match num / 256 with
  | 0x0 => if num = 1 then some .partcfg else if num = 2 then some .alarmpol else none
  | 0x1 => vf .vfbind
  | 0x2 => vf .subq
  | 0x3 => vf .budget
  | 0x4 => if n ≤ 15 then some (.tickp n) else none
  | 0x200 => if n = 0 then some .fwctl else if n = 1 then some .scrubp else if n = 2 then some .stkhealth else none
  | 0x201 => if n = 0 then none else some (.kslot n)
  | 0x202 => vf .scway
  | 0x203 => vf .aquota
  | m => if 0x100 ≤ m ∧ m ≤ 0x10F then vf (.cquota (m - 0x100)) else none

/-- Width in bits. -/
def Reg.width : Reg → Nat
  | .alarmpol | .tickp _ | .cquota _ _ | .fwctl | .stkhealth => 32
  | .partcfg | .budget _ | .scrubp | .kslot _ | .scway _ | .aquota _ => 64
  | .vfbind _ => 128
  | .subq _ => 256

/-- Held by each base die; every other one is the masthead's (UNIT 16). -/
def Reg.onBase : Reg → Bool
  | .fwctl | .scrubp | .stkhealth | .kslot _ | .scway _ | .aquota _ => true
  | _ => false

/-- The stacks of a UNIT, or none where the unit does not hold the register (R353). -/
def Reg.units (r : Reg) (unit : Nat) : Option (List Nat) :=
  if r.onBase then (if unit ≤ 15 then some [unit] else if unit = 255 then some (List.range 16) else none)
  else if unit = 16 then some [16] else none

/-- A register's value. -/
def State.readReg (s : State) (r : Reg) (unit : Nat) : Nat :=
  let k := s.stack unit
  match r with
  | .partcfg => s.mh.partcfg.toNat
  | .alarmpol => s.mh.alarmpol.toNat
  | .vfbind n => (s.ctx n).vfbind.toNat
  | .subq n => (s.ctx n).subq.toNat
  | .budget n => (s.ctx n).budget.toNat
  | .tickp l => (s.gang l).tickp.toNat
  | .cquota d n => (tget 0 (s.die d).cquota n).toNat
  | .fwctl => k.fwctl.toNat
  | .scrubp => k.scrubp
  | .stkhealth => k.health.toNat
  | .kslot t => (k.slot t).word
  | .scway n => (tget 0 k.scway n).toNat
  | .aquota n => (tget 0 k.aquota n).toNat

/-- The state of an event that goes on. -/
def State.after (s : State) (o : Host.Outcome State Fault Refusal) : State :=
  match o with
  | .next t => t
  | _ => s

/-- A write to a register at one unit, under the register's own rules; RO fields and registers keep their values. -/
def State.writeReg (s : State) (r : Reg) (unit : Nat) (v : Nat) : State :=
  match r with
  | .partcfg => s.after (execPartcfgWrite (BitVec.ofNat 64 v) s)
  | .alarmpol => s.after (execAlarmpolWrite (BitVec.ofNat 32 v) s)
  | .vfbind n => s.after (execVfbindWrite n (BitVec.ofNat 128 v) s)
  | .subq n => s.after (execSubqWrite n (BitVec.ofNat 256 v) s)
  | .budget n => s.modCtx n fun c => { c with budget := BitVec.ofNat 64 (v % 2 ^ 56) }
  | .tickp l => s.after (execTickpWrite l (BitVec.ofNat 32 v) s)
  | .cquota d n => s.after (execCquotaWrite d n (BitVec.ofNat 32 v) s)
  | .fwctl | .scrubp | .kslot _ => s
  | .stkhealth => if v.testBit 2 then s.modStack unit fun k => { k with health := k.health &&& 0xFFFFFFFB } else s
  | .scway n => s.after (execScwayWrite unit n (BitVec.ofNat 64 v) s)
  | .aquota n => s.after (execAquotaWrite unit n (BitVec.ofNat 64 v) s)

/-- REGISTER_WRITE (R353): a write to a register of Table 22.1 by its number; a number or a unit that names none changes
nothing. -/
def execRegisterWrite (num unit : Nat) (v : BitVec 256) (s : State) : Host.Outcome State Fault Refusal :=
  match regOf num with
  | none => .next s
  | some r =>
    match r.units unit with
    | none => .next s
    | some us => .next (us.foldl (fun s u => s.writeReg r u v.toNat) s)

end Sys2Proof.Machine
end

