-- ==== Sys2Proof/Machine/Security.lean ====
section
/-! DEFINITION. The steward's security commands (R339 to R348, R353 to R355): each performs the oldest command of a core. -/

namespace Sys2Proof.Machine

/-! ### Commands (R339) -/

def stDone : Nat := 0
def stDenied : Nat := 1
def stBusy : Nat := 2
def stInvalid : Nat := 3

/-- A command: the submitter's VF and the fields of its four words. -/
structure Cmd where
  sub : Nat
  op : Nat
  unit : Nat
  vf : Nat
  slot : Nat
  arg : Nat
  w1 : Nat
  w2 : Nat
  w3 : Nat
  deriving DecidableEq, Repr

def cmdOf (ws : List DWord) : Cmd :=
  let w (i : Nat) : Nat := (ws.getD i 0).toNat
  let w0 := w 1
  { sub := w 0, op := bitsOf w0 7 0, unit := bitsOf w0 15 8, vf := bitsOf w0 23 16, slot := bitsOf w0 31 24,
    arg := bitsOf w0 63 32, w1 := w 2, w2 := w 3, w3 := w 4 }

def Cmd.tag (c : Cmd) : Nat := c.w3 % 2 ^ 16

/-- The OPs of Table 21.7. -/
def knownOps : List Nat := [0x01, 0x02, 0x10, 0x11, 0x12, 0x20, 0x21, 0x22, 0x30, 0x31, 0x32, 0x40, 0x41]

/-- Perform the oldest command of a core, if it is of an OP and has not been carried out: `f` gives its status once its
effect holds. A reserved bit of W3 and a UNIT that Table 21.7's word does not name make it INVALID. -/
def State.runCmd (s : State) (k op : Nat) (f : Cmd → State → State × Option Nat) : State :=
  match (s.core k).cmds with
  | [] => s
  | ws :: _ =>
    let c := cmdOf ws
    if c.op ≠ op ∨ (s.core k).cmdDone.isSome then s
    else
      match if c.w3 / 2 ^ 16 ≠ 0 ∨ (16 < c.unit ∧ c.unit ≠ 255) then (s, some stInvalid) else f c s with
      | (s, some st) => s.modCore k fun co => { co with cmdDone := some st }
      | (s, none) => s

/-- Stacks that a UNIT names to commands on slots and frames. -/
def stacksOf (unit : Nat) : Option (List Nat) :=
  if unit ≤ 15 then some [unit] else if unit = 255 then some (List.range 16) else none

/-- R338: the TDI of a VF is CONFIG_LOCKED or RUN. -/
def State.tdiLocked (s : State) (vf : Nat) : Bool := (s.ctx vf).tdi == .locked || (s.ctx vf).tdi == .run

/-- A slot that a VF under lock holds (R338). -/
def State.slotLocked (s : State) (t n : Nat) : Bool :=
  let x := (s.stack t).slot n
  x.st != .free && s.tdiLocked x.vf

/-- The steward's answers to reads beyond a port, by core. -/
def cmdKey (k : Nat) : Nat := 2 ^ 41 + k

/-! ### Registers (R353) -/

/-- Write 64-bit words one after another at .dev; none where a home has one wait. -/
def State.putWords (s : State) (e vf ptr : Nat) : List Nat → Option State
  | [] => some s
  | v :: t => (s.putWord e vf ptr v).bind fun s => s.putWords e vf (ptrAdd ptr 8) t

/-- RDREG. -/
def execRdreg (k : Nat) (s : State) : Host.Outcome State Fault Refusal :=
  .next (s.runCmd k 0x01 fun c s =>
    match regOf c.w1 with
    | none => (s, some stInvalid)
    | some r =>
      let n := (r.width + 63) / 64
      if (r.units c.unit).isNone || c.unit == 255 || c.w2 % 8 != 0 || (s.checkPtr c.sub c.w2 (8 * n) 8 .w).isSome then (s, some stInvalid)
      else
        let v := s.readReg r c.unit
        match s.putWords 32 c.sub c.w2 ((List.range n).map fun i => v / 2 ^ (64 * i) % 2 ^ 64) with
        | some s => (s, some stDone)
        | none => (s, none))

/-- WRREG: the value is W2, zero above 64 bits (R338, R348). -/
def execWrreg (k : Nat) (s : State) : Host.Outcome State Fault Refusal :=
  .next (s.runCmd k 0x02 fun c s =>
    match regOf c.w1 with
    | none => (s, some stInvalid)
    | some r =>
      match r.units c.unit with
      | none => (s, some stInvalid)
      | some us =>
        let bind := match r with
          | .vfbind n => some n
          | _ => none
        if bind.elim false s.tdiLocked then (s, some stDenied)
        else if bind.elim false fun n => (s.ctx n).scrubbing then (s, some stBusy)
        else (us.foldl (fun s u => s.writeReg r u c.w2) s, some stDone))

/-! ### Key slots and windows (R338, R340, R341, R345, R347, R348) -/

/-- KEYGEN. -/
def execKeygen (k : Nat) (s : State) : Host.Outcome State Fault Refusal :=
  .next (s.runCmd k 0x10 fun c s =>
    match stacksOf c.unit with
    | none => (s, some stInvalid)
    | some us =>
      if c.slot = 0 ∨ 192 < c.vf then (s, some stInvalid)
      else if us.any fun t => s.slotLocked t c.slot then (s, some stDenied)
      else if (s.ctx c.vf).scrubbing || us.any fun t => ((s.stack t).slot c.slot).st != .free then (s, some stBusy)
      else (us.foldl (fun s t => s.drawKey t c.slot c.vf .active) s, some stDone))

/-- ZEROISE: once no access under the slot is left, the keys go; a window ends first and its frames go to SCRUB. -/
def execZeroise (k : Nat) (s : State) : Host.Outcome State Fault Refusal :=
  .next (s.runCmd k 0x11 fun c s =>
    match stacksOf c.unit with
    | none => (s, some stInvalid)
    | some us =>
      if c.slot = 0 then (s, some stInvalid)
      else if us.any fun t => s.slotLocked t c.slot then (s, some stDenied)
      else
        let isWin (t : Nat) : Bool := ((s.stack t).slot c.slot).st == .window
        let s' := if us.any isWin then s.endWindows fun w => w.2.1 == c.slot else s
        if us.any fun t => s'.slotBusy t c.slot then (s', none)
        else
          (us.foldl (fun s t =>
            let x := (s.stack t).slot c.slot
            let s := s.zeroSlot t c.slot
            if x.st = .window then
              let fs := (s.stack t).framesUnder [c.slot]
              (s.scrubFrames t fs).queueJob t ⟨x.vf, [], [], fs, 0⟩
            else s) s', some stDone))

/-- R345: the two consents to a window that agree: the parties, the lower first. -/
def State.parties (s : State) (win : Nat) : Option (Nat × Nat) :=
  s.ctxs.findSome? fun p => (p.2.consents.find? fun x => x.win == win && decide (p.1 < x.peer) &&
    (s.ctx x.peer).consents.any fun y => y.win == win && y.peer == p.1 && y.len == x.len).map fun x => (p.1, x.peer)

/-- WINDOW. The lower party's partition is the host (log 27). -/
def execWindow (k : Nat) (s : State) : Host.Outcome State Fault Refusal :=
  .next (s.runCmd k 0x12 fun c s =>
    if 15 < c.arg ∨ c.slot = 0 then (s, some stInvalid)
    else
      match s.parties c.arg with
      | none => (s, some stBusy)
      | some (p, q) =>
        if (s.mh.windows.any fun w => w.1 == c.arg) || (List.range 16).any fun t => ((s.stack t).slot c.slot).st != .free then
          (s, some stBusy)
        else
          let host := (s.ctx p).leader
          let s := (List.range 16).foldl (fun s t =>
            (s.drawKey t c.slot p .window).modStack t fun x => { x with wins := x.wins ++ [⟨c.arg, c.slot, host, (s.ctx q).leader⟩] }) s
          (s.modMh fun m => { m with windows := m.windows ++ [(c.arg, c.slot, p, q, host)] }, some stDone))

/-! ### Frames (R339, R342) -/

/-- ASSIGN. -/
def execAssign (k : Nat) (s : State) : Host.Outcome State Fault Refusal :=
  .next (s.runCmd k 0x20 fun c s =>
    match stacksOf c.unit with
    | none => (s, some stInvalid)
    | some us =>
      if c.slot = 0 ∨ frameCount < c.w1 + c.w2 then (s, some stInvalid)
      else
        let fs := (List.range c.w2).map (c.w1 + ·)
        if us.any fun t => fs.any fun f => ((s.stack t).frame f).st != .free then (s, some stBusy)
        else
          (us.foldl (fun s t => s.modStack t fun x =>
            { x with frames := fs.foldl (fun y f => tset y f { tget Frame.reset y f with st := .assigned, key := c.slot }) x.frames }) s,
            some stDone))

/-- SCRUB. -/
def execScrub (k : Nat) (s : State) : Host.Outcome State Fault Refusal :=
  .next (s.runCmd k 0x21 fun c s =>
    match stacksOf c.unit with
    | none => (s, some stInvalid)
    | some us =>
      if 192 < c.vf ∨ frameCount < c.w1 + c.w2 then (s, some stInvalid)
      else
        (us.foldl (fun s t =>
          let fs := ((List.range c.w2).map (c.w1 + ·)).filter fun f =>
            ((s.stack t).frame f).st == .free || ((s.stack t).frame f).st == .assigned
          (s.scrubFrames t fs).queueJob t ⟨c.vf, [], [], fs, 0⟩) s, some stDone))

/-- TEARDOWN (R348, R355): its steps, one move at a time. -/
def execTeardown (k : Nat) (s : State) : Host.Outcome State Fault Refusal :=
  .next (s.runCmd k 0x22 fun c s =>
    if 192 < c.vf then (s, some stInvalid)
    else
      match s.teardownMove c.vf with
      | (s, true) => (s, some stDone)
      | (s, false) => (s, none))

/-! ### Invalidations (R172, R176, R259, R277, R311, R345) -/

/-- INVBUF. A ring that stopped at a covered buffer is tried again (R311). -/
def execInvbuf (k : Nat) (s : State) : Host.Outcome State Fault Refusal :=
  .next (s.runCmd k 0x30 fun c s =>
    if 192 < c.vf ∨ 2 ^ 16 < c.w1 + c.w2 then (s, some stInvalid)
    else
      let covers (i : Nat) : Bool := decide (c.w1 ≤ i) && decide (i < c.w1 + c.w2)
      let drop (x : Core) : Core := { x with bufs := x.bufs.filter fun b => !(b.1 == c.vf && covers b.2.1) }
      let s : State := { s with cores := s.cores.map fun (p : Nat × Core) => (p.1, drop p.2) }
      (s.modCtx c.vf fun x => { x with ringStopped := x.ringStopped.filter fun i => !covers i }, some stDone))

/-- The 64 KiB pieces of the pages that a copy card's rows on one side touch: stack and SVA. -/
def State.sidePages (s : State) (vf base rowBytes : Nat) (offs : List Nat) : List (Nat × Nat) :=
  let e := s.tableEntry vf (ptrIdx base)
  offs.flatMap fun o => (lineSegs (ptrOff base + o) rowBytes).map fun seg =>
    let h := homeOf e seg.1
    (h.1, h.2 / 2 ^ 16 * 2 ^ 16)

/-- R277: a copy that has not completed was probed against a page that the range covers. -/
def State.probedIn (s : State) (vf lo len : Nat) : Bool :=
  s.cards.any fun p => p.2.vf == vf && p.2.q == 0 &&
    let c := readCopy p.2.bytes
    let far (q : Nat) : Bool := decide (0xFE00 ≤ ptrIdx q)
    let src := if c.spad || far c.src then [] else s.sidePages vf c.src c.rowBytes ((List.range c.rows).map (c.srcOff p.2.index))
    let dst := if c.dpad || far c.dst then [] else s.sidePages vf c.dst c.rowBytes ((List.range c.rows).map c.dstOff)
    let idx := if c.gather && !far c.idx then s.sidePages vf c.idx (4 * c.rows) [0] else []
    (src ++ dst ++ idx).any fun pg =>
      let page := match s.walk pg.1 vf pg.2 with
        | .leaf _ size _ => (pg.2 / size * size, size)
        | _ => (pg.2, 2 ^ 16)
      decide (lo < page.1 + page.2) && decide (page.1 < lo + len)

/-- INVTLB. -/
def execInvtlb (k : Nat) (s : State) : Host.Outcome State Fault Refusal :=
  .next (s.runCmd k 0x31 fun c s =>
    if 192 < c.vf ∨ 2 ^ 44 < c.w1 + c.w2 then (s, some stInvalid)
    else
      let hit (t : TlbEnt) : Bool := t.vf == c.vf && decide (c.w1 < t.page + t.size) && decide (t.page < c.w1 + c.w2)
      let drop (x : Stack) : Stack := { x with tlb := x.tlb.filter fun t => !hit t }
      let s : State := { s with stks := s.stks.map fun (p : Nat × Stack) => (p.1, drop p.2) }
      (s, if s.probedIn c.vf c.w1 c.w2 then none else some stDone))

/-- INVRTN. -/
def execInvrtn (k : Nat) (s : State) : Host.Outcome State Fault Refusal :=
  .next (s.runCmd k 0x32 fun c s =>
    if 192 < c.vf then (s, some stInvalid)
    else
      let drop (x : Stack) : Stack := { x with routines := x.routines.filter fun r => r.1 / 64 != c.vf }
      ({ s with stks := s.stks.map fun (p : Nat × Stack) => (p.1, drop p.2) }, some stDone))

/-! ### Contexts and pre-emption (R305, R319, R338, R348) -/

/-- A context starts with a descriptor. -/
def Ctx.install (c : Ctx) (d : Option (BitVec 1024)) : Ctx := { c with desc := d, sticky := 0, faultCount := 0, ring := none, ringStopped := none }

/-- INSTALL: a descriptor that sets a reserved bit, or names another VF, leaves the VF without a context. -/
def execInstall (k : Nat) (s : State) : Host.Outcome State Fault Refusal :=
  .next (s.runCmd k 0x40 fun c s =>
    if 192 < c.vf then (s, some stInvalid)
    else if s.tdiLocked c.vf then (s, some stDenied)
    else if (s.ctx c.vf).scrubbing then (s, some stBusy)
    else
      match s.halyardRead c.sub (cmdKey k) c.w1 128 with
      | .wait s => (s, none)
      | .fault s _ => (s.forget (cmdKey k), some stInvalid)
      | .ok s bs =>
        let d := BitVec.ofNat 1024 (leNat bs)
        let good := legalDescriptor d && bitsOf d.toNat 7 0 == c.vf
        ((s.forget (cmdKey k)).modCtx c.vf fun x => x.install (if good then some d else none), some (if good then stDone else stInvalid)))

/-- PREEMPT: done once every group of the partition has halted; its control state is saved as at a switch (R320). -/
def execPreempt (k : Nat) (s : State) : Host.Outcome State Fault Refusal :=
  .next (s.runCmd k 0x41 fun c s =>
    let l := c.unit
    if 15 < l ∨ s.leaderOfDie l ≠ l then (s, some stInvalid)
    else
      let s := s.haltPartition l
      let s := s.modGang l fun g => { g with phase := if g.phase = .idle then .preempted else g.phase }
      if !s.allHalted l then (s, none)
      else
        ((match (s.gang l).cur with
          | some v => s.scribble v
          | none => s), some stDone))

/-! ### Status words (R339, R354) -/

/-- Serve the parked reads of q8: status words in order, and all ones where nothing is left to wait for. -/
def State.serveQ8 (s : State) (k : Nat) : Nat → State
  | 0 => s
  | n + 1 =>
    let co := s.core k
    match co.q8readers, co.statuses with
    | r :: rs, w :: ws =>
      -- the pop of a status word is an acquire at .dev (R354)
      (((s.modCore k fun co => { co with q8readers := rs, statuses := ws }).give k r w).acquire k
        (s.vfOf r.1) .dev fun _ => true).serveQ8 k n
    | r :: rs, [] =>
      if co.cmds.isEmpty then
        ((s.modCore k fun co => { co with q8readers := rs }).give k r 0xFFFFFFFF).serveQ8 k n
      else s
    | [], _ => s

/-- SECURITY_STATUS: the oldest command, once its effect holds, leaves its status word, with the masthead's writes before it
(R354). A reserved OP is INVALID. -/
def execSecurityStatus (k : Nat) (s : State) : Host.Outcome State Fault Refusal :=
  let co := s.core k
  match co.cmds with
  | [] => .next s
  | ws :: rest =>
    let c := cmdOf ws
    match (if knownOps.contains c.op then co.cmdDone else some stInvalid) with
    | none => .next s
    | some st =>
      let s := s.modCore k fun co =>
        { co with cmds := rest, cmdDone := none, statuses := co.statuses ++ [BitVec.ofNat 32 (c.tag * 2 ^ 16 + st)] }
      let s := s.modAgent (k / 16) fun a => { a with vec := vMerge a.vec (s.agent 32).vec }
      .next (s.serveQ8 k co.q8readers.length)

end Sys2Proof.Machine
end

