-- ==== Sys2Proof/Machine/Links.lean ====
section
/-! DEFINITION. SPDM, TDISP, IDE and window consents (R335 to R338, R345, R347), and the Hexavo ports (R360 to R362). -/

namespace Sys2Proof.Machine

/-! ### SPDM (R336) -/

/-- Response codes of SPDM (PRESUMED, log 28). -/
def rsp.digests : Nat := 0x01
def rsp.certificate : Nat := 0x02
def rsp.challengeAuth : Nat := 0x03
def rsp.version : Nat := 0x04
def rsp.measurements : Nat := 0x60
def rsp.capabilities : Nat := 0x61
def rsp.algorithms : Nat := 0x63
def rsp.keyExchange : Nat := 0x64
def rsp.finish : Nat := 0x65
def rsp.keyUpdateAck : Nat := 0x69
def rsp.endSessionAck : Nat := 0x6C

/-- n bytes of a response that the spec does not state. -/
def State.spdmBytes (s : State) (n : Nat) : List Byte := (List.range n).map (Config.spdmByte s.freeCtr)

/-- A response leaves the device. -/
def State.respond (s : State) (vf code : Nat) (data : List Byte) : State := (s.emit (.spdm vf code data)).bump

/-- The responder answers: bring-up has passed, and the request is a VF's (R335, R373). -/
def State.spdmUp (s : State) (vf : Nat) : Bool := s.mh.boot == .done && decide (vf ≤ 192)

/-- A request that the connection's phase admits is carried out; another one gets an error. -/
def State.spdmIf (s : State) (vf : Nat) (phases : List SpdmPh) (f : State → State) : State :=
  if !s.spdmUp vf then s
  else if phases.contains (s.ctx vf).spdm then f s
  else s.emit (.spdmError vf)

def State.setSpdm (s : State) (vf : Nat) (p : SpdmPh) : State := s.modCtx vf fun c => { c with spdm := p }

/-- The phases once the algorithms are negotiated. -/
def negotiatedOn : List SpdmPh := [.negotiated, .keyExchanged, .session]

/-- GET_VERSION (R335, R336, R373): it starts the connection over; with bring-up failed it is answered by an error. -/
def execGetVersion (vf : Nat) (s : State) : Host.Outcome State Fault Refusal :=
  match s.mh.boot with
  | .pending | .warm => .next (s.emit .retry)
  | .failed => .next (s.emit (.spdmError vf))
  | .done => if 192 < vf then .next s else .next ((s.setSpdm vf .version).respond vf rsp.version [0x13])

/-- GET_CAPABILITIES. -/
def execGetCapabilities (vf : Nat) (s : State) : Host.Outcome State Fault Refusal :=
  .next (s.spdmIf vf [.version] fun s => (s.setSpdm vf .capabilities).respond vf rsp.capabilities (s.spdmBytes 16))

/-- The algorithms that the responder selects (R336), in SPDM's ALGORITHMS layout from its length field on (PRESUMED, log
28): SHA-384 for measurements and transcripts, the Brainpool curve as the one extended asymmetric algorithm, ECDHE on
secp384r1, and AES-256-GCM. -/
def algorithms : List Byte :=
  leBytes 2 48 ++ [1, 0] ++ leBytes 4 4 ++ leBytes 4 0 ++ leBytes 4 2 ++ List.replicate 12 0 ++ [1, 0, 0, 0] ++
  leBytes 4 Config.brainpoolId.toNat ++ [2, 0x20] ++ leBytes 2 0x10 ++ [3, 0x20] ++ leBytes 2 2

/-- NEGOTIATE_ALGORITHMS. -/
def execNegotiateAlgorithms (vf : Nat) (s : State) : Host.Outcome State Fault Refusal :=
  .next (s.spdmIf vf [.capabilities] fun s => (s.setSpdm vf .negotiated).respond vf rsp.algorithms algorithms)

/-- The identity certificate chain (R335): a function of the identity key. -/
def State.chain (s : State) : List Byte :=
  (List.range Config.chainLength).map (Config.chainByte (s.mh.identity.elim 0 (·.2)))

/-- GET_DIGESTS: the SHA-384 digest of the certificate chain. -/
def execGetDigests (vf : Nat) (s : State) : Host.Outcome State Fault Refusal :=
  .next (s.spdmIf vf negotiatedOn fun s => s.respond vf rsp.digests (sha384 s.chain))

/-- GET_CERTIFICATE (R335). -/
def execGetCertificate (vf : Nat) (s : State) : Host.Outcome State Fault Refusal :=
  .next (s.spdmIf vf negotiatedOn fun s => s.respond vf rsp.certificate s.chain)

/-- CHALLENGE: an ECDSA signature over the transcript. -/
def execChallenge (vf nonce : Nat) (s : State) : Host.Outcome State Fault Refusal :=
  .next (s.spdmIf vf negotiatedOn fun s => s.respond vf rsp.challengeAuth (leBytes 32 nonce ++ s.spdmBytes 96))

/-- The digest of a measured object (Table 21.6); PARTCFG and VFBIND are read as they stand now. -/
def State.measurement (s : State) (vf idx : Nat) : List Byte :=
  if idx = 5 then
    let obj := leBytes 8 s.mh.partcfg.toNat ++ leBytes 16 (s.ctx vf).vfbind.toNat
    sha384 obj
  else (List.range 48).map (Config.measuredByte idx)

/-- GET_MEASUREMENTS (R336). -/
def execGetMeasurements (vf idx : Nat) (s : State) : Host.Outcome State Fault Refusal :=
  .next (s.spdmIf vf negotiatedOn fun s =>
    if idx = 0 ∨ 5 < idx then s.emit (.spdmError vf) else s.respond vf rsp.measurements (s.measurement vf idx))

/-- KEY_EXCHANGE: a session key is agreed. -/
def execKeyExchange (vf : Nat) (s : State) : Host.Outcome State Fault Refusal :=
  .next (s.spdmIf vf [.negotiated] fun s =>
    let key := s.mh.nextKey
    let s := (s.modMh fun m => { m with nextKey := key + 1 }).modCtx vf fun c => { c with spdm := .keyExchanged, sessionKey := key }
    s.respond vf rsp.keyExchange (s.spdmBytes 96))

/-- FINISH. -/
def execFinish (vf : Nat) (s : State) : Host.Outcome State Fault Refusal :=
  .next (s.spdmIf vf [.keyExchanged] fun s => (s.setSpdm vf .session).respond vf rsp.finish [])

/-- KEY_UPDATE: the session goes on under a new key. -/
def execKeyUpdate (vf : Nat) (s : State) : Host.Outcome State Fault Refusal :=
  .next (s.spdmIf vf [.session] fun s =>
    let key := s.mh.nextKey
    ((s.modMh fun m => { m with nextKey := key + 1 }).modCtx vf fun c => { c with sessionKey := key }).respond vf rsp.keyUpdateAck [])

/-- END_SESSION. -/
def execEndSession (vf : Nat) (s : State) : Host.Outcome State Fault Refusal :=
  .next (s.spdmIf vf [.session] fun s =>
    (s.modCtx vf fun c => { c with spdm := .negotiated, sessionKey := 0 }).respond vf rsp.endSessionAck [])

/-! ### Messages of a session (R338, R345, R347) -/

/-- CONSENT (R345): a fresh one replaces the verifier's last one for that window. -/
def execConsent (vf win peer len : Nat) (rights : BitVec 4) (s : State) : Host.Outcome State Fault Refusal :=
  .next (s.spdmIf vf [.session] fun s =>
    if 15 < win ∨ 192 < peer ∨ peer = vf then s.emit (.spdmError vf)
    else s.modCtx vf fun c => { c with consents := (c.consents.filter fun x => x.win != win) ++ [⟨win, peer, len, rights⟩] })

/-- CONSENT_WITHDRAWAL (R347): the window ends. -/
def execConsentWithdrawal (vf win : Nat) (s : State) : Host.Outcome State Fault Refusal :=
  .next (s.spdmIf vf [.session] fun s =>
    (s.endWindows fun w => w.1 == win && (w.2.2.1 == vf || w.2.2.2.1 == vf)).modCtx vf fun c =>
      { c with consents := c.consents.filter fun x => x.win != win })

/-- IDE_KEY_PROGRAMMING (R338): a key for a link stream, or for one of up to 8 selective streams of the device. -/
def execIdeKeyProgramming (vf : Nat) (stream : IdeRef) (key : Nat) (s : State) : Host.Outcome State Fault Refusal :=
  .next (s.spdmIf vf [.session] fun s =>
    let rest := s.mh.ide.filter fun x => !(x.sel == stream.sel && x.id == stream.id)
    if stream.sel && decide (8 ≤ (rest.filter (·.sel)).length) then s.emit (.spdmError vf)
    else s.modMh fun m => { m with ide := rest ++ [⟨stream.sel, stream.id, vf, key⟩] })

/-- TDISP_REQUEST (R338). A broken lock has the device tear the context down; only the end of that scrub unlocks it. -/
def execTdispRequest (vf : Nat) (r : TdiReq) (s : State) : Host.Outcome State Fault Refusal :=
  if !s.spdmUp vf then .next s
  else
    let go (t : Tdi) : State := (s.modCtx vf fun c => { c with tdi := t }).emit (.tdisp vf true)
    match r, (s.ctx vf).tdi with
    | .lock, .unlocked => .next (go .locked)
    | .start, .locked => .next (go .run)
    | .stop, .unlocked | .stop, .locked | .stop, .run => .next (go .unlocked)
    | .breakLock, .locked | .breakLock, .run => .next (s.modCtx vf fun c => { c with tdi := .error, flr := true })
    | .breakLock, _ => .next s
    | _, _ => .next (s.emit (.tdisp vf false))

/-! ### Link sessions and keys (R361, R362) -/

/-- LINK_SESSION_REQUEST (R361): VF and ENABLE are set, and the two sides have agreed on a key of generation 0. -/
def execLinkSessionRequest (vf t p : Nat) (s : State) : Host.Outcome State Fault Refusal :=
  .next (s.spdmIf vf [.session] fun s =>
    if 15 < t ∨ 1 < p ∨ vf = 0 ∨ !s.hxOpen t p then s.emit (.spdmError vf)
    else
      let key := s.mh.nextKey
      (s.modMh fun m => { m with nextKey := key + 1 }).modHx t p fun x =>
        { HxPort.reset with vf := vf, linkUp := x.linkUp, enable := true, rxg0 := true, key0 := key })

/-- LINK_KEY_ROTATION (R362 step 1): a new receive key for the inactive generation. -/
def execLinkKeyRotation (t p : Nat) (s : State) : Host.Outcome State Fault Refusal :=
  let x := s.hxPort t p
  if 15 < t ∨ 1 < p ∨ !x.enable ∨ x.rotating then .next s
  else
    let key := s.mh.nextKey
    let s := s.modMh fun m => { m with nextKey := key + 1 }
    .next (s.modHx t p fun x =>
      let x := { x with rotating := true, confirmed := false, notice := none }
      if x.txgen then { x with rxg0 := true, key0 := key, recv0 := 0, sent0 := 0 }
      else { x with rxg1 := true, key1 := key, recv1 := 0, sent1 := 0 })

/-- ROTATION_CONFIRMATION (R362 step 2): TXGEN flips, and the peer is told how many frames of the old generation it was
sent. -/
def execRotationConfirmation (t p : Nat) (s : State) : Host.Outcome State Fault Refusal :=
  let x := s.hxPort t p
  if 15 < t ∨ 1 < p ∨ !x.rotating ∨ x.confirmed then .next s
  else
    .next ((s.modHx t p fun x => { x with txgen := !x.txgen, confirmed := true }).emit
      (.hxNotice t p (if x.txgen then x.sent1 else x.sent0)))

/-- R362 step 3: once every frame that the notice counts has come or been discarded, the old receive key goes. -/
def HxPort.retire (x : HxPort) : HxPort :=
  match x.notice with
  | none => x
  | some n =>
    if !x.rotating || !x.confirmed then x
    else if x.txgen then
      (if n ≤ x.recv0 then { x with rxg0 := false, key0 := 0, rotating := false, confirmed := false, notice := none } else x)
    else if n ≤ x.recv1 then { x with rxg1 := false, key1 := 0, rotating := false, confirmed := false, notice := none }
    else x

/-- OLD_GENERATION_NOTICE (R362 step 3). -/
def execOldGenerationNotice (t p count : Nat) (s : State) : Host.Outcome State Fault Refusal :=
  if 15 < t ∨ 1 < p ∨ !(s.hxPort t p).rotating then .next s
  else .next (s.modHx t p fun x => { x with notice := some count }.retire)

/-- LINK_TRAINED (R361). -/
def execLinkTrained (t p : Nat) (up : Bool) (s : State) : Host.Outcome State Fault Refusal :=
  if 15 < t ∨ 1 < p then .next s else .next (s.modHx t p fun x => { x with linkUp := up })

/-! ### Frames (R360) -/

/-- A request that a frame brought, line by line: pointer and what is asked of that line. -/
def hxAsks : HxOp → List (Nat × MemOp)
  | .write p bs _ => (lineSegs (ptrOff p.toNat) bs.length).map fun g =>
      (ptrAdd p.toNat ((g.1 : Int) - ptrOff p.toNat), .store ((bs.drop (g.1 - ptrOff p.toNat)).take g.2))
  | .read p n _ => (lineSegs (ptrOff p.toNat) n).map fun g => (ptrAdd p.toNat ((g.1 : Int) - ptrOff p.toNat), .load g.2)
  | .atom p md x _ =>
    [(p.toNat, .atomic (.atom (md.toNat / 32) ((md.toNat / 16).testBit 0) ((md.toNat / 8).testBit 0)) [⟨0, 0, x.toNat, 0⟩])]
  | .cas p n e v _ => [(p.toNat, .atomic (.cas n) [⟨0, 0, e, v⟩])]
  | .signal p inc _ => [(p.toNat, .atomic .cadd [⟨0, 0, inc, 0⟩])]
  | .reply _ _ _ => []

/-- The tag, and the checks of R173 that the port makes: pointer, bytes, alignment and right. -/
def hxTag : HxOp → Nat
  | .write _ _ t | .read _ _ t | .atom _ _ _ t | .cas _ _ _ _ t | .signal _ _ t | .reply t _ _ => t

def hxNeed : HxOp → Nat × Nat × Nat × Right
  | .write p bs _ => (p.toNat, bs.length, 0, .w)
  | .read p n _ => (p.toNat, n, 0, .r)
  | .atom p md _ _ => let n := if (md.toNat / 16).testBit 0 then 8 else 4; (p.toNat, n, n, .a)
  | .cas p n _ _ _ => (p.toNat, n, n, .a)
  | .signal p _ _ => (p.toNat, 8, 8, .a)
  | .reply _ _ _ => (0, 0, 0, .r)

/-- A reply that a frame brought reaches the port that its request left by. -/
def State.hxReply (s : State) (t p tag : Nat) (ok : Bool) (data : List Byte) : State :=
  match tfind s.accs tag with
  | some a =>
    if a.loc.stack ≠ t ∨ a.ext ≠ p + 2 ∨ a.performed then s
    else
      let r : Reply :=
        if !ok then .fault (if data = overflowMark then cause.counterOverflow else cause.translation) 0
        else match a.op with
          | .load n => .data ((List.range n).map fun i => data.getD i 0)
          | .atomic _ (st :: _) => .olds [(st.fib, leNat data)]
          | _ => .ack
      let a' : Access := { a with performed := true, reply := some r, legs := [.back (orderedRoute a.agent t).reverse] }
      { s with accs := tset s.accs tag a' }
  | none => s

/-- One operation of a frame: a reply, or a request performed as an access of the base die (R360). -/
def State.hxOperation (s : State) (t p vf : Nat) (o : HxOp) : State :=
  match o with
  | .reply tag ok data => s.hxReply t p tag ok data
  | o =>
    let n := hxNeed o
    let refuse : State := s.hxOut t p (.hexavoReply t p (hxTag o) false [])
    if vf = 0 ∨ isExternal (ptrIdx n.1) ∨ n.2.1 = 0 ∨ (s.checkPtr vf n.1 n.2.1 n.2.2.1 n.2.2.2).isSome then refuse
    else
      (hxAsks o).foldl (fun s q =>
        let l := s.locOf (s.tableEntry vf (ptrIdx q.1)) q.1
        let op := match q.2 with
          | .atomic kind steps => MemOp.atomic kind (steps.map fun x => { x with off := l.sva % 128 })
          | x => x
        let l := match q.2 with
          | .atomic _ _ => { l with sva := l.sva / 128 * 128 }
          | _ => l
        (s.request (Access.make (16 + t) 0 l .ox .sys op (.remote t p (hxTag o)) 0 0xFFFFFFFF)).1) s

/-- HEXAVO_FRAME (R360, R362): a frame that a port without traffic, a bad tag or an invalid receive key meets is discarded
whole, and counts as one of its generation. -/
def execHexavoFrame (t p : Nat) (kg tagOk : Bool) (ops : List HxOp) (s : State) : Host.Outcome State Fault Refusal :=
  let x := s.hxPort t p
  if 15 < t ∨ 1 < p ∨ !x.enable ∨ !x.linkUp ∨ !s.hxOpen t p then .next s
  else
    let s := s.modHx t p fun x => (if kg then { x with recv1 := x.recv1 + 1 } else { x with recv0 := x.recv0 + 1 }).retire
    if !tagOk ∨ !(if kg then x.rxg1 else x.rxg0) then .next s
    else .next (ops.foldl (fun s o => s.hxOperation t p x.vf o) s)

end Sys2Proof.Machine
end

