-- ==== Sys2Proof/Machine/Host.lean ====
section
/-! DEFINITION. What the host and the package's own sensors do: accesses through the BARs (R311, R358), resets and bring-up
(R335, R349, R373), and the alarm unit (R350, R351, R372). -/

namespace Sys2Proof.Machine

/-! ### Host accesses (R311, R358) -/

/-- The endpoint takes accesses; before bring-up it answers with Retry Status (Table 23.9). -/
def State.hostTurn (s : State) (f : State → State) : State :=
  match s.mh.boot with
  | .done => f s
  | .pending | .warm => s.emit .retry
  | .failed => s

/-- The pointer of an offset of buffer 0, and whether it lies in BAR0 of a VF. -/
def inBar0 (off len : Nat) : Bool := decide (0 < len) && decide (off + len ≤ 2 ^ 20)

/-- Requests of the masthead in class .ox at .sys, line by line. -/
def State.hostRequests (s : State) (vf : Nat) (asks : List (Nat × MemOp)) (o : Owner) : State :=
  asks.foldl (fun s q =>
    let l := s.locOf (s.tableEntry vf 0) q.1
    let l : Loc := match q.2 with
      | .atomic _ _ => { l with sva := l.sva / 128 * 128 }
      | _ => l
    (s.request (Access.make 32 0 l .ox .sys q.2 o 0 0xFFFFFFFF)).1) s

/-- A power register as the host reads it (Tables 23.7, 23.8). -/
def PwrLevel.code : PwrLevel → Nat
  | .off => 0
  | .hold => 1
  | .l2 => 2
  | .l1 => 3
  | .l0 => 4

/-- STKPWR's TARGET differs from STATE only while a command waits behind a switch (R370). -/
def State.stkTarget (s : State) (t : Nat) : Nat :=
  match (s.mh.pwrLater.reverse.find? fun p => p.1 == 0x200 + 4 * t) with
  | some p => p.2 % 2
  | none => (s.stack t).selfref.toNat

def State.powerReg (s : State) (off : Nat) : Nat :=
  if 0x100 ≤ off ∧ off < 0x140 then
    let x := s.die ((off - 0x100) / 4)
    x.trip.toNat * 2 ^ 8 + x.level.code * 2 ^ 4 + x.target.code
  else if 0x200 ≤ off ∧ off < 0x240 then
    let t := (off - 0x200) / 4
    (s.stack t).selfref.toNat * 2 ^ 4 + s.stkTarget t
  else if off = 0x300 then s.mh.pwrcap
  else 0

/-- Aligned 32-bit words of a VF's MSI-X table, as offsets of BAR2 (log 29): 8 vectors of 16 bytes, then the pending bits,
which read zero. A host offset from 2^20 on, beyond BAR0, stands for BAR2. -/
def inBar2 (off len : Nat) : Bool := decide (2 ^ 20 ≤ off) && decide (off + len ≤ 2 ^ 20 + 0x88) && off % 4 == 0 && len == 4

def State.bar2Write (s : State) (vf off v : Nat) : State :=
  let i := (off - 2 ^ 20) / 4
  if i < 32 then s.modCtx vf fun c => { c with msixTable := tput 0 c.msixTable i v } else s

def State.bar2Read (s : State) (vf off : Nat) : Nat := tget 0 (s.ctx vf).msixTable ((off - 2 ^ 20) / 4)

/-- A write to PF BAR0: whole aligned 32-bit registers (log 29). -/
def State.pfWrite (s : State) (off : Nat) (data : List Byte) : State :=
  if off % 4 ≠ 0 ∨ data.length ≠ 4 ∨ 2 ^ 16 < off + 4 then s.emit (.unsupported 0)
  else
    let v := leNat data
    let i : Option Instr := if off = 0x300 then some (.pwrcapWrite (BitVec.ofNat 32 v)) else powerEvent off v
    match i with
    | some i => { s with agenda := .event i :: s.agenda }
    | none => s

/-- HOST_WRITE (R358): posted; each line is applied at its home, and a line that faults there is dropped with a record. -/
def execHostWrite (vf off : Nat) (data : List Byte) (s : State) : Host.Outcome State Fault Refusal :=
  .next (s.hostTurn fun s =>
    if vf = 0 then s.pfWrite off data
    else if vf ≤ 192 ∧ inBar2 off data.length then s.bar2Write vf off (leNat data)
    else if 192 < vf ∨ !inBar0 off data.length ∨ (s.checkPtr vf off data.length 0 .w).isSome then s.emit (.unsupported vf)
    else s.hostRequests vf ((lineSegs off data.length).map fun g => (g.1, .store ((data.drop (g.1 - off)).take g.2))) .host)

/-- HOST_READ (R358). -/
def execHostRead (vf off len : Nat) (s : State) : Host.Outcome State Fault Refusal :=
  .next (s.hostTurn fun s =>
    if vf = 0 then
      (if off % 4 ≠ 0 ∨ len ≠ 4 ∨ 2 ^ 16 < off + 4 then s.emit (.unsupported 0) else s.emit (.hostData 0 off (leBytes 4 (s.powerReg off))))
    else if vf ≤ 192 ∧ inBar2 off len then s.emit (.hostData vf off (leBytes 4 (s.bar2Read vf off)))
    else if 192 < vf ∨ !inBar0 off len ∨ (s.checkPtr vf off len 0 .r).isSome then s.emit (.unsupported vf)
    else
      let id := s.nextId
      let asks : List (Nat × MemOp) := (lineSegs off len).map fun (g : Nat × Nat) => (g.1, MemOp.load g.2)
      { s with nextId := id + 1 }.hostRequests vf asks (.hostRead id))

/-- HOST_FETCH_ADD (R311): an atomic addition of the masthead; the old value goes back to the host. -/
def execHostFetchAdd (vf off size inc : Nat) (s : State) : Host.Outcome State Fault Refusal :=
  .next (s.hostTurn fun s =>
    if vf = 0 ∨ 192 < vf ∨ (size ≠ 4 ∧ size ≠ 8) ∨ !inBar0 off size ∨ (s.checkPtr vf off size size .a).isSome then
      s.emit (.unsupported vf)
    else
      let id := s.nextId
      let l := s.locOf (s.tableEntry vf 0) off
      { s with nextId := id + 1 }.hostRequests vf [(off, .atomic (.atom 0 (size == 8) false) [⟨0, l.sva % 128, inc, 0⟩])] (.hostRead id))

/-! ### Resets (R349, R355, R358, R373) -/

/-- COLD_RESET: every part of the machine at its reset value. Numbers that only the model counts go on. -/
def execColdReset (s : State) : Host.Outcome State Fault Refusal :=
  .next { State.reset with
    agenda := s.agenda, freeCtr := s.freeCtr, out := s.out, nextId := s.nextId, nextAcc := s.nextAcc,
    mh := { Masthead.reset with nextKey := s.mh.nextKey } }

/-- A TDI that a warm reset treats as locked (R349, R355). -/
def Tdi.guarded : Tdi → Bool
  | .unlocked => false
  | _ => true

/-- What a warm reset leaves of a base die (R349): frames, jobs, keys, tree and health; in self-refresh it stays. -/
def Stack.warm (k : Stack) : Stack :=
  { Stack.reset with
    time := k.time, selfref := k.selfref, frames := k.frames, slots := k.slots, ctr1 := k.ctr1, ctr2 := k.ctr2, ctr3 := k.ctr3,
    ctr4 := k.ctr4, seals := k.seals, bad := k.bad, badCtr := k.badCtr, jobs := k.jobs, lastDone := k.lastDone, health := k.health,
    hx := k.hx.map fun p => (p.1, { HxPort.reset with linkUp := p.2.linkUp }) }

/-- What it leaves of a compute die: its power state and its clock. -/
def Die.warm (x : Die) : Die :=
  { Die.reset with cycle := x.cycle, time := x.time, target := x.target, level := x.level, waking := x.waking, trip := x.trip,
                   clockStopped := x.clockStopped }

/-- A context after a warm reset: only the lock of its TDI lasts, until its scrub is done (R355). -/
def Ctx.warm (c : Ctx) : Ctx :=
  if c.tdi.guarded || c.scrubbing then { Ctx.reset with tdi := if c.tdi.guarded then .error else .unlocked, scrubbing := true }
  else Ctx.reset

/-- VFs that hold something at a stack when a warm reset comes. -/
def State.tagged (s : State) : List Nat :=
  let vs := s.groups.map (·.2.vf) ++ s.ctxs.map (·.1) ++ s.stks.flatMap fun p => p.2.scway.map (·.1)
  vs.foldl (fun t v => fibInsert v t) []

/-- The slots of guarded VFs go, and everything tagged is queued for scrubbing. -/
def State.warmScrub (s : State) (st : Nat) : State :=
  s.tagged.foldl (fun s vf =>
    let slots := if (s.ctx vf).tdi.guarded then (s.stack st).slotsOf vf else []
    let frames := (s.stack st).framesUnder slots
    let s := (slots.foldl (fun s n => s.zeroSlot st n) s).scrubFrames st frames
    s.queueJob st
      { vf := vf, onchip := (s.groups.filter fun p => p.2.vf == vf && !p.2.dead && !p.2.evicted && p.2.k / 16 == st).map (·.1),
        ways := (List.range 16).filter fun w => (s.pinWays st vf).testBit w, frames := frames, done := 0 }) s

/-- WARM_RESET (R349, R355, R373). -/
def execWarmReset (s : State) : Host.Outcome State Fault Refusal :=
  let s := (List.range 16).foldl (fun s st => s.warmScrub st) s
  let dead (g : Group) : Group := { g with dead := true, halted := true }
  let kept := s.groups.filter fun p => !p.2.evicted
  let fwctl (k : Stack) (st : Nat) : Stack := { k.warm with fwctl := fwctlFor Masthead.reset.partcfg st }
  let core (c : Core) : Core := { Core.empty with fenced := c.fenced }
  let t : State :=
    { State.reset with
      agenda := s.agenda, freeCtr := s.freeCtr, out := s.out, nextId := s.nextId, nextAcc := s.nextAcc, fabric := s.fabric,
      ns := s.ns, mem := s.mem, pin := s.pin
      groups := kept.map fun (p : Nat × Group) => (p.1, dead p.2)
      cores := s.cores.map fun (p : Nat × Core) => (p.1, core p.2)
      dies := s.dies.map fun (p : Nat × Die) => (p.1, p.2.warm)
      stks := s.stks.map fun (p : Nat × Stack) => (p.1, fwctl p.2 p.1)
      ctxs := s.ctxs.map fun (p : Nat × Ctx) => (p.1, p.2.warm)
      mh := { Masthead.reset with boot := .warm, time := s.mh.time, nextKey := s.mh.nextKey, pwrcap := s.mh.pwrcap, identity := s.mh.identity,
                                  dieW := s.mh.dieW, stkW := s.mh.stkW, periodAt := s.mh.periodAt, degraded := s.mh.degraded } }
  .next (t.ctxs.foldl (fun s p => s.settleTdi p.1) t)

/-- BRING_UP (R335, R373): a failed check leaves the device in bring-up. After a cold reset it
rebuilds the identity, draws slot 0 (R349), loads CAP and starts the time registers; FWCTL follows PARTCFG and the blob. -/
def execBringUp (ok : Bool) (s : State) : Host.Outcome State Fault Refusal :=
  let cold := s.mh.boot == .pending
  if !cold ∧ s.mh.boot ≠ .warm then .next s
  else if !ok then .next (s.modMh fun m => { m with boot := .failed })
  else
    let s := (List.range 16).foldl (fun s st => s.modStack st fun k => { k with fwctl := fwctlFor s.mh.partcfg st }) s
    let s := s.modMh fun m => { m with boot := .done }
    if !cold then .next s
    else
      let s := (List.range 16).foldl (fun s st => s.drawSlot0 st) s
      let s := s.modMh fun m => { m with identity := some (Config.pufSeed, Config.identityKey Config.pufSeed) }
      let s := (List.range 16).foldl (fun s d =>
        (s.modStack d fun k => { k with time := TimeRegs.reset }).modDie d fun x => { x with time := TimeRegs.reset }) s
      .next (s.modMh fun m => { m with pwrcap := Config.blobCap, time := TimeRegs.reset })

/-! ### The alarm unit (R350) -/

/-- Every partition is pre-empted, until a reset; a switch under way is cancelled (Table 21.13). -/
def State.alarmStop (s : State) : State :=
  let s := s.modMh fun m => { m with alarmHalt := true }
  ((List.range 16).filter fun l => s.leaderOfDie l == l).foldl (fun s l =>
    (s.haltPartition l).modGang l fun g => { g with phase := .alarmHalt, next := none, prepared := [], ready := [] }) s

/-- Erase: every key slot but slot 0, and every assigned frame to SCRUB, in jobs of the VFs that held the slots. -/
def State.eraseStack (s : State) (st : Nat) : State :=
  let k := s.stack st
  let holders := ((k.slots.filter fun p => p.1 != 0).map (·.2.vf)).foldl (fun t v => fibInsert v t) [0]
  let jobs := holders.map fun vf =>
    (vf, k.framesUnder ((k.slots.filter fun p => p.1 != 0 && p.2.st != .free && p.2.vf == vf).map (·.1) ++ if vf = 0 then [0] else []))
  let rest := ((k.frames.filter fun p => p.2.st == .assigned && !(jobs.any fun j => j.2.contains p.1)).map (·.1))
  let s := (k.slots.filter fun p => p.1 != 0).foldl (fun s p => s.zeroSlot st p.1) s
  (jobs ++ [(0, rest)]).foldl (fun (s : State) (j : Nat × List Nat) => (s.scrubFrames st j.2).queueJob st ⟨j.1, [], [], j.2, 0⟩) s

/-- ALARM_EVENT (R350): sensor 0 voltage, 1 clock, 2 temperature, 3 mesh. -/
def execAlarmEvent (sensor : Nat) (s : State) : Host.Outcome State Fault Refusal :=
  if 3 < sensor then .next s
  else
    let act := bitsOf s.mh.alarmpol.toNat (2 * sensor + 1) (2 * sensor)
    let s := s.modMh fun m => { m with alarmpol := m.alarmpol ||| BitVec.ofNat 32 (2 ^ (8 + sensor)) }
    let s := s.faultRecord 0 32 { cause := (Config.alarmCause sensor).toNat, time := s.mh.time.ltime }
    if act = 0 then .next s
    else
      let s := s.alarmStop
      if act = 1 then .next s
      else .next ((List.range 16).foldl (fun s st => s.eraseStack st) (s.endWindows fun _ => true))

/-- THERMAL_TRIP (R372): the die's clocks stop, TRIP is set, and the temperature event follows. -/
def execThermalTrip (d : Nat) (s : State) : Host.Outcome State Fault Refusal :=
  if 15 < d ∨ (s.die d).trip ∨ (s.die d).level = .off then .next s
  else
    let s := s.modDie d fun x => { x with trip := true, clockStopped := true }
    .next { s with agenda := .event (.alarmEvent 2) :: s.agenda }

/-- REMAP_TABLE_ERROR (R351): the die goes on with the mirror, or fences a bank that is bad in both copies. -/
def execRemapTableError (st bank : Nat) (both : Bool) (s : State) : Host.Outcome State Fault Refusal :=
  if 15 < st ∨ 15 < bank then .next s
  else
    let bits := if both then 2 ^ (16 + bank) + 1 else 2
    .next (s.modStack st fun k => { k with health := k.health ||| BitVec.ofNat 32 bits })

end Sys2Proof.Machine
end

