-- ==== Sys2Proof/Machine/Power.lean ====
section
/-! DEFINITION. Power states (R369 to R372, R378), the power arbiter (R371) and the time master (R368). -/

namespace Sys2Proof.Machine

/-! ### Commands and switches (R370) -/

/-- The leader of a die's or a stack's partition. -/
def State.gangOf (s : State) (d : Nat) : Gang := s.gang (s.leaderOfDie d)

/-- A power command may take effect on unit d now: no switch of its partition runs, nor a command on another die. -/
def State.powerTurn (s : State) (d : Nat) : Bool :=
  match (s.gangOf d).phase with
  | .idle | .alarmHalt => true
  | .power => (s.gangOf d).prepared == [d]
  | _ => false

/-- A command that has to wait (R370): the last one for a register counts. -/
def State.powerLater (s : State) (off v : Nat) : State :=
  s.modMh fun m => { m with pwrLater := (m.pwrLater.filter fun p => p.1 != off) ++ [(off, v)] }

def State.setTarget (s : State) (d : Nat) (l : PwrLevel) : State := s.modDie d fun x => { x with target := l }

/-- A level at which a die runs. -/
def PwrLevel.runs : PwrLevel → Bool
  | .l0 | .l1 | .l2 => true
  | _ => false

/-! ### Leaving a run level (R239, R370) -/

/-- The partition of a die halts for a command on it. -/
def State.powerHalt (s : State) (d : Nat) : State :=
  let l := s.leaderOfDie d
  let s := if (s.gang l).phase = .power then s else s.modGang l fun g => { g with phase := .power, prepared := [d] }
  s.haltPartition l

/-- Dirty lines of the die's cores and of its cluster unit go home. -/
def State.flushDie (s : State) (d : Nat) : State :=
  let s := (coresOf d).foldl (fun s k =>
    let vs := ((s.core k).l1.map (·.loc.vf)).foldl (fun t v => fibInsert v t) []
    vs.foldl (fun s v => (s.releaseLines k v .par fun _ _ => true).1) s) s
  (s.die d).lines.foldl (fun s c => if c.dirty = 0 then s else (s.cuBack d c).1) s

/-- Every request of the die has been acknowledged. -/
def State.dieQuiet (s : State) (d : Nat) : Bool := !s.accs.any fun p => p.2.agent == d

/-- R239: the final beats; the die's frontier at each home stands at its final counter. -/
def State.finalBeats (s : State) (d : Nat) : State :=
  let n := tget 0 (s.agent d).vec d
  let s := { s with beats := s.beats.filter fun b => b.agent != d }
  (List.range 16).foldl (fun s st => s.modStack st fun k =>
    { k with fr := [0, 1, 2, 3].foldl (fun t l => tput 0 t (4 * d + l) n) k.fr }) s

/-- The partition goes on without the die. -/
def State.powerResume (s : State) (d : Nat) : State :=
  let l := s.leaderOfDie d
  let s := s.modGang l fun g => { g with phase := if s.mh.alarmHalt then .alarmHalt else .idle, prepared := [] }
  (match (s.gang l).cur with
    | some v => if s.mh.alarmHalt then s else s.restoreVf v
    | none => s).releaseLater

/-- A die at a run level, in HOLD or tripped goes down to a level, in as many moves as it takes: halt, eviction (OFF only),
acknowledgements, final beats. -/
def State.goDown (s : State) (d : Nat) (off : Bool) : State :=
  let l := s.leaderOfDie d
  let s := s.powerHalt d
  if !s.allHalted l then s
  else
    let s := if off then (s.groups.filter fun p => p.2.k / 16 == d && s.mayEvict p.1).foldl (fun s p => s.evict p.1) s else s
    if off && s.groups.any fun p => p.2.k / 16 == d && !p.2.evicted && !p.2.dead then s
    else
      let s := if (s.die d).failed || !off then s else s.flushDie d
      if !s.dieQuiet d then s
      else
        let s := s.finalBeats d
        let s := if off then
            (s.emptyDie d).modDie d fun x => { x with level := .off, trip := false, clockStopped := false }
          else s.modDie d fun x => { x with level := .hold }
        s.powerResume d

/-- DIE_OFF (R370, R372, R378). -/
def execDieOff (d : Nat) (s : State) : Host.Outcome State Fault Refusal :=
  if 15 < d then .next s
  else
    let s := s.setTarget d .off
    let x := s.die d
    if x.waking.isSome ∨ x.level = .off then .next s
    else if !s.powerTurn d then .next (s.powerLater (0x100 + 4 * d) 0)
    else .next (s.goDown d true)

/-- A die that is OFF starts to wake, to a level (R378). -/
def State.startWake (s : State) (d : Nat) (l : PwrLevel) : State := s.modDie d fun x => { x with waking := some l }

/-- DIE_HOLD (R370): the rows stay in place. A tripped die stays as it is (R372). -/
def execDieHold (d : Nat) (s : State) : Host.Outcome State Fault Refusal :=
  if 15 < d then .next s
  else
    let s := s.setTarget d .hold
    let x := s.die d
    if x.waking.isSome ∨ x.trip ∨ x.level = .hold then .next s
    else if x.level = .off then .next (s.startWake d .hold)
    else if !s.powerTurn d then .next (s.powerLater (0x100 + 4 * d) 1)
    else .next (s.goDown d false)

/-- A write of a run level: a change among run levels, the end of a HOLD, which resumes the groups in place, or a wake. -/
def State.runAt (s : State) (d : Nat) (l : PwrLevel) : State :=
  if 15 < d then s
  else
    let s := s.setTarget d l
    let x := s.die d
    if x.waking.isSome ∨ x.trip then s
    else if x.level = .off then s.startWake d l
    else if !s.powerTurn d ∨ (s.gangOf d).phase = .power then s.powerLater (0x100 + 4 * d) l.code
    else
      let held := x.level == .hold
      let s := s.modDie d fun x => { x with level := l }
      if held && !s.mh.alarmHalt then
        match (s.gangOf d).cur with
        | some v => s.restoreVf v
        | none => s
      else s

/-- L2: 0.65 GHz at 300 mV. -/
def execL2 (d : Nat) (s : State) : Host.Outcome State Fault Refusal := .next (s.runAt d .l2)

/-- L1: 1.0 GHz at 325 mV. -/
def execL1 (d : Nat) (s : State) : Host.Outcome State Fault Refusal := .next (s.runAt d .l1)

/-- L0: 1.3 GHz at 350 mV. -/
def execL0 (d : Nat) (s : State) : Host.Outcome State Fault Refusal := .next (s.runAt d .l0)

/-- The value of TARGET's field that asks for a level, and its event. -/
def targetEvent (d : Nat) (l : PwrLevel) : Move := .event (match l with
  | .off => .dieOff d
  | .hold => .dieHold d
  | .l2 => .l2 d
  | .l1 => .l1 d
  | .l0 => .l0 d)

/-- DIE_WAKE_COMPLETE (R239, R378): the die rejoins at the level of its wake, and a TARGET written meanwhile follows. -/
def execDieWakeComplete (d : Nat) (s : State) : Host.Outcome State Fault Refusal :=
  match (s.die d).waking with
  | none => .next s
  | some l =>
    let n := (s.largestOf d + 1) % 2 ^ 24
    let s := s.modAgent d fun a => { a with vec := tput 0 [] d n, lastSent := [] }
    let s := (List.range 16).foldl (fun s st => s.modStack st fun k => { k with waived := k.waived.filter (· != d) }) s
    let s := s.modDie d fun x => { x with level := l, waking := none, failed := false }
    if (s.die d).target = l then .next s else .next { s with agenda := targetEvent d (s.die d).target :: s.agenda }

/-! ### Stacks (R370) -/

/-- A STKPWR command, now or after a switch. -/
def State.stkPower (s : State) (t : Nat) (v : Bool) : State :=
  if 15 < t then s
  else if (s.gangOf t).phase = .idle ∨ (s.gangOf t).phase = .alarmHalt then s.modStack t fun k => { k with selfref := v }
  else s.powerLater (0x200 + 4 * t) v.toNat

/-- SELFREF: hits go on being served; misses and the scrub engine wait. -/
def execSelfref (t : Nat) (s : State) : Host.Outcome State Fault Refusal := .next (s.stkPower t true)

/-- ACTIVE. -/
def execActive (t : Nat) (s : State) : Host.Outcome State Fault Refusal := .next (s.stkPower t false)

/-! ### Caps and time (R368, R369, R371) -/

/-- PWRCAP_WRITE (Table 23.8): 400 to 2,500 W; other values are ignored. -/
def execPwrcapWrite (v : BitVec 32) (s : State) : Host.Outcome State Fault Refusal :=
  let w := bitsOf v.toNat 11 0
  if w < 400 ∨ 2500 < w then .next s else .next (s.modMh fun m => { m with pwrcap := w })

/-- POWER_ARBITRATION (R371): the arbiter's shares, which CAP bounds. -/
def execPowerArbitration (dieW stkW : List Nat) (s : State) : Host.Outcome State Fault Refusal :=
  if dieW.length ≠ 16 ∨ stkW.length ≠ 16 ∨ s.mh.pwrcap < sumOf dieW + sumOf stkW then .next s
  else .next (s.modMh fun m => { m with dieW := dieW.zipIdx.map fun p => (p.2, p.1), stkW := stkW.zipIdx.map fun p => (p.2, p.1) })

/-- Time registers under a new rate: reference time at this moment stays (R368). -/
def TimeRegs.retime (t : TimeRegs) (rate : Nat) : TimeRegs :=
  { t with trate := rate, toff := (t.refOf t.ltime + 2 ^ 64 - (t.ltime * rate / 2 ^ 32) % 2 ^ 64) % 2 ^ 64 }

/-- TIME_SYNC (R367, R368): a compute die 0 to 15 or a base die 16 to 31; the masthead is the reference. -/
def execTimeSync (u : Nat) (rate : BitVec 64) (s : State) : Host.Outcome State Fault Refusal :=
  if u < 16 then .next (s.modDie u fun x => { x with time := x.time.retime rate.toNat })
  else if u < 32 then .next (s.modStack (u - 16) fun k => { k with time := k.time.retime rate.toNat })
  else .next s

end Sys2Proof.Machine
end

