-- ==== Sys2Proof/Machine/RvFloat.lean ====
section
/-! DEFINITION. RISC-V single-precision arithmetic (R364): rounding, flags and NaNs as the F extension has them, which
differ from those of 05 (PRESUMED from RISC-V, log 31). -/

namespace Sys2Proof.Machine

/-- Bits of fflags. -/
def rvNx : Nat := 1
def rvUf : Nat := 2
def rvOf : Nat := 4
def rvDz : Nat := 8
def rvNv : Nat := 16

/-- The canonical NaN. -/
def rvNan : Nat := 0x7FC00000
def rvBad : FRes := (rvNan, rvNv)

/-- m * 2^s rounded to an integer under a mode (0 RNE, 1 RTZ, 2 RDN, 3 RUP, 4 RMM), and whether it differs. -/
def rvScaled (rm : Nat) (neg : Bool) (m : Nat) (s : Int) : Nat × Bool :=
  if 0 ≤ s then (m <<< s.toNat, false)
  else
    let d := min (-s).toNat (Nat.log2 m + 2)
    let q := m >>> d
    let rest := m % 2 ^ d
    let half := 2 ^ (d - 1)
    let up := match rm with
      | 0 => decide (half < rest) || (rest == half && q % 2 == 1)
      | 1 => false
      | 2 => decide (rest ≠ 0) && neg
      | 3 => decide (rest ≠ 0) && !neg
      | _ => decide (half ≤ rest)
    (q + up.toNat, decide (rest ≠ 0))

/-- Round an exact value to FP32; tininess is detected after rounding. -/
def rvRound (rm : Nat) (neg : Bool) (m : Nat) (e : Int) : FRes :=
  if m = 0 then (fp32.zero neg, 0)
  else
    let lg := magLog m e
    let k := max lg fp32.emin
    let q := rvScaled rm neg m (e - (k - 23))
    let code := (k - fp32.emin).toNat * 2 ^ 23 + q.1
    if fp32.top < code then
      let inf := match rm with
        | 0 | 4 => true
        | 1 => false
        | 2 => neg
        | _ => !neg
      (fp32.sign neg + (if inf then fp32.infCode else fp32.top), rvOf + rvNx)
    else
      let free := rvScaled rm neg m (e - (lg - 23))
      let tiny := decide (lg < fp32.emin) && !(lg + 1 == fp32.emin && free.1 == 2 ^ 24)
      (fp32.sign neg + code, if q.2 then rvNx + (if tiny then rvUf else 0) else 0)

/-- The NaN result where an operand is a NaN. -/
def rvNans (xs : List FVal) : Option FRes :=
  if xs.any FVal.isNan then some (rvNan, if xs.any FVal.isSnan then rvNv else 0) else none

/-- The exact sum of summands, rounded once. -/
def rvSum (rm : Nat) (xs : List (Bool × Option Term)) : FRes :=
  match (xs.filter fun x => x.2.isNone).map (·.1) with
  | n :: t => if t.all (· == n) then (fp32.inf n, 0) else rvBad
  | [] =>
    let ts := xs.filterMap (·.2)
    let e0 := minExp ts
    let v : Int := ts.foldl (fun a t => a + t.at e0) 0
    if v = 0 then
      let first := (ts.head?.map Term.neg).getD false
      (fp32.zero (if ts.all fun t => t.neg == first then first else rm == 2), 0)
    else rvRound rm (v < 0) v.natAbs e0

def rvAdd (rm a b : Nat) : FRes :=
  let x := fp32.decode a
  let y := fp32.decode b
  (rvNans [x, y]).getD (rvSum rm [x.summand, y.summand])

def flipSign (a : Nat) : Nat := a ^^^ 2 ^ 31

def rvSub (rm a b : Nat) : FRes := rvAdd rm a (flipSign b)

def rvFMul (rm a b : Nat) : FRes :=
  let x := fp32.decode a
  let y := fp32.decode b
  (rvNans [x, y]).getD (match mulVal x y with
    | none => rvBad
    | some (n, none) => (fp32.inf n, 0)
    | some (n, some t) => rvRound rm n t.m t.e)

/-- a * b + c, rounded once. -/
def rvFma (rm a b c : Nat) : FRes :=
  let x := fp32.decode a
  let y := fp32.decode b
  let z := fp32.decode c
  match rvNans [x, y, z] with
  | some q => (q.1, if badProduct x y then rvNv else q.2)
  | none =>
    match mulVal x y with
    | none => rvBad
    | some p => rvSum rm [p, z.summand]

def rvFDiv (rm a b : Nat) : FRes :=
  let x := fp32.decode a
  let y := fp32.decode b
  let n := x.neg ^^ y.neg
  (rvNans [x, y]).getD
    (if (x.isInf && y.isInf) || (x.isZero && y.isZero) then rvBad
    else if x.isInf then (fp32.inf n, 0)
    else if y.isInf || x.isZero then (fp32.zero n, 0)
    else if y.isZero then (fp32.inf n, rvDz)
    else
      let num := x.term.m <<< 64
      rvRound rm n (2 * (num / y.term.m) + (decide (num % y.term.m ≠ 0)).toNat) (x.term.e - y.term.e - 65))

def rvSqrt (rm a : Nat) : FRes :=
  let x := fp32.decode a
  (rvNans [x]).getD
    (if x.isZero then (a, 0)
    else if x.neg then rvBad
    else if x.isInf then (a, 0)
    else let q := sqrtMag x.term.m x.term.e; rvRound rm false q.1 q.2)

/-- FMIN and FMAX: the number where one operand is a NaN, -0 below +0. -/
def rvMinMax (max : Bool) (a b : Nat) : FRes :=
  let x := fp32.decode a
  let y := fp32.decode b
  let fl := if x.isSnan || y.isSnan then rvNv else 0
  if x.isNan && y.isNan then (rvNan, fl)
  else if x.isNan then (b, fl)
  else if y.isNan then (a, fl)
  else (if lessVal x y != max then a else b, fl)

/-- Comparisons: 0 FLE, 1 FLT, 2 FEQ, 3 FNE. -/
def rvCmp (how a b : Nat) : Nat × Nat :=
  let x := fp32.decode a
  let y := fp32.decode b
  if x.isNan || y.isNan then
    ((how == 3).toNat, if how < 2 || x.isSnan || y.isSnan then rvNv else 0)
  else
    let c := cmpVal x y
    let yes : Bool := match how with
      | 0 => c != Ordering.gt
      | 1 => c == Ordering.lt
      | 2 => c == Ordering.eq
      | _ => c != Ordering.eq
    (yes.toNat, 0)

/-- FCLASS of RISC-V. -/
def rvClass (a : Nat) : Nat :=
  match fp32.decode a with
  | .inf n => if n then 1 else 2 ^ 7
  | .nan _ s _ => if s then 2 ^ 8 else 2 ^ 9
  | .fin n m _ =>
    if m = 0 then (if n then 2 ^ 3 else 2 ^ 4)
    else if m < 2 ^ 23 then (if n then 2 ^ 2 else 2 ^ 5)
    else if n then 2 ^ 1 else 2 ^ 6

/-- Conversion to an integer of w bits; the code of the integer. -/
def rvToInt (rm w : Nat) (sgn : Bool) (a : Nat) : Nat × Nat :=
  let lo : Int := if sgn then -(2 ^ (w - 1)) else 0
  let hi : Int := if sgn then 2 ^ (w - 1) - 1 else 2 ^ w - 1
  match fp32.decode a with
  | .nan _ _ _ => (narrow w hi, rvNv)
  | .inf n => (narrow w (if n then lo else hi), rvNv)
  | .fin n m e =>
    let q := rvScaled rm n m e
    let v : Int := if n then -(q.1 : Int) else q.1
    if v < lo then (narrow w lo, rvNv)
    else if hi < v then (narrow w hi, rvNv)
    else (narrow w v, if q.2 then rvNx else 0)

/-- Conversion from an integer. -/
def rvOfInt (rm : Nat) (v : Int) : FRes := rvRound rm (v < 0) v.natAbs 0

/-- Sign injection: 0 FSGNJ, 1 FSGNJN, 2 FSGNJX. -/
def rvSgnj (how a b : Nat) : Nat :=
  let s := match how with
    | 0 => b.testBit 31
    | 1 => !b.testBit 31
    | _ => a.testBit 31 ^^ b.testBit 31
  a % 2 ^ 31 + s.toNat * 2 ^ 31

/-! ### The seven-bit estimates of RVV 1.0 -/

/-- round(256 / x) - 128 for x = (257 + 2i) / 256, the table of VFREC7. -/
def rec7Tab (i : Nat) : Nat := (2 * 65536 / (257 + 2 * i) + 1) / 2 - 128

/-- round(256 / sqrt x) - 128, the table of VFRSQRT7: index bit 6 is the low bit of the exponent. -/
def rsq7Tab (i : Nat) : Nat :=
  (isqrt (4 * 65536 * 128 / ((129 + 2 * (i % 64)) * (if i < 64 then 2 else 1))) 16 + 1) / 2 - 128

/-- Leading zeros of a 23-bit fraction. -/
def lz23 (f : Nat) : Nat := 22 - Nat.log2 f

def rvRec7 (rm a : Nat) : FRes :=
  let n := a.testBit 31
  let ex := bitsOf a 30 23
  let f := a % 2 ^ 23
  match fp32.decode a with
  | .nan _ s _ => (rvNan, if s then rvNv else 0)
  | .inf n => (fp32.zero n, 0)
  | .fin _ 0 _ => (fp32.inf n, rvDz)
  | _ =>
    let lz := if ex = 0 then lz23 f else 0
    if ex = 0 ∧ 1 < lz then
      let top := rm == 1 || (rm == 2 && !n) || (rm == 3 && n)
      (fp32.sign n + (if top then fp32.top else fp32.infCode), rvOf + rvNx)
    else
      let nf := if ex = 0 then f * 2 ^ (lz + 1) % 2 ^ 23 else f
      let ne : Int := if ex = 0 then -(lz : Int) else ex
      let oe : Int := 253 - ne
      let sig := rec7Tab (nf / 2 ^ 16) * 2 ^ 16
      if oe = 0 then (fp32.sign n + (sig / 2 + 2 ^ 22), 0)
      else if oe = -1 then (fp32.sign n + (sig / 4 + 2 ^ 21), 0)
      else (fp32.sign n + oe.toNat * 2 ^ 23 + sig, 0)

def rvRsqrt7 (a : Nat) : FRes :=
  let n := a.testBit 31
  let ex := bitsOf a 30 23
  let f := a % 2 ^ 23
  match fp32.decode a with
  | .nan _ s _ => (rvNan, if s then rvNv else 0)
  | .fin _ 0 _ => (fp32.inf n, rvDz)
  | .inf n => if n then rvBad else (0, 0)
  | _ =>
    if n then rvBad
    else
      let lz := if ex = 0 then lz23 f else 0
      let nf := if ex = 0 then f * 2 ^ (lz + 1) % 2 ^ 23 else f
      let ne : Int := if ex = 0 then -(lz : Int) else ex
      let idx := (ne % 2).toNat * 64 + nf / 2 ^ 17
      (((379 - ne) / 2).toNat * 2 ^ 23 + rsq7Tab idx * 2 ^ 16, 0)

end Sys2Proof.Machine
end

