-- ==== Sys2Proof/Machine/RvVector.lean ====
section
/-! DEFINITION. The RVV 1.0 instructions of Zve64f at VLEN = 256 that access no memory (R364; encodings and meanings
PRESUMED from RISC-V, log 31). An instruction that is none of them, or reserved, is no result: illegal. -/

namespace Sys2Proof.Machine

/-! ### Registers of an instance -/

def Inst.xr (x : Inst) (n : Nat) : Nat := if n = 0 then 0 else (tget 0 x.x n).toNat
def Inst.setX (x : Inst) (n v : Nat) : Inst := if n = 0 then x else { x with x := tput 0 x.x n (BitVec.ofNat 64 v) }
def Inst.fr (x : Inst) (n : Nat) : Nat := (tget 0 x.f n).toNat
def Inst.setF (x : Inst) (n v : Nat) : Inst := { x with f := tput 0 x.f n (BitVec.ofNat 32 v) }
/-- Raise flags of fflags. -/
def Inst.raise (x : Inst) (fl : Nat) : Inst := { x with fcsr := x.fcsr ||| BitVec.ofNat 32 (fl % 32) }
def Inst.frm (x : Inst) : Nat := bitsOf x.fcsr.toNat 7 5

/-- Element i of w bits in the group that starts at register v. -/
def Inst.elem (x : Inst) (v w i : Nat) : Nat :=
  let o := w * i
  bitsOf (tget 0 x.v (v + o / 256)).toNat (o % 256 + w - 1) (o % 256)

def Inst.setElem (x : Inst) (v w i val : Nat) : Inst :=
  let o := w * i
  let k := v + o / 256
  let old := (tget 0 x.v k).toNat
  let b := o % 256
  { x with v := tput 0 x.v k (BitVec.ofNat 256 (old - bitsOf old (b + w - 1) b * 2 ^ b + val % 2 ^ w * 2 ^ b)) }

/-- Bit i of a mask register. -/
def Inst.mbit (x : Inst) (v i : Nat) : Bool := (tget 0 x.v v).getLsbD i
def Inst.setMbit (x : Inst) (v i : Nat) (b : Bool) : Inst := x.setElem v 1 i b.toNat

/-! ### vtype -/

/-- log2 of LMUL, from the field. -/
def lmulLog (vt : Nat) : Int := let l := vt % 8; if l < 4 then l else (l : Int) - 8
def sewOf (vt : Nat) : Nat := 8 * 2 ^ bitsOf vt 5 3

/-- n * 2^e, for a result that is whole. -/
def timesPow (n : Nat) (e : Int) : Nat := if 0 ≤ e then n * 2 ^ e.toNat else n / 2 ^ (-e).toNat

/-- A vtype that the hart supports: SEW to 64, LMUL 1/8 to 8, and SEW within LMUL times ELEN. -/
def vtypeOk (vt : Nat) : Bool :=
  vt / 2 ^ 8 == 0 && decide (bitsOf vt 5 3 ≤ 3) && vt % 8 != 4 &&
  (decide (0 ≤ lmulLog vt) || decide (sewOf vt ≤ timesPow 64 (lmulLog vt)))

def vlmaxOf (vt : Nat) : Nat := timesPow 256 (lmulLog vt) / sewOf vt

def Inst.sew (x : Inst) : Nat := sewOf x.vtype
def Inst.lmul (x : Inst) : Int := lmulLog x.vtype
def Inst.vma (x : Inst) : Bool := x.vtype.testBit 7
def Inst.vta (x : Inst) : Bool := x.vtype.testBit 6

/-- Registers of a group whose EMUL is 2^e, and its alignment. -/
def groupRegs (e : Int) : Nat := if 0 < e then 2 ^ e.toNat else 1
def emulOk (e : Int) : Bool := decide (-3 ≤ e) && decide (e ≤ 3)
def alignedTo (v : Nat) (e : Int) : Bool := emulOk e && v % groupRegs e == 0

/-- EMUL of elements of w bits beside SEW and LMUL. -/
def Inst.emulFor (x : Inst) (w : Nat) : Int := x.lmul + Nat.log2 w - Nat.log2 x.sew

/-- VSETVLI, VSETIVLI and VSETVL: the new vl for an AVL, or for one of the two AVLs that x0 stands for. -/
inductive Avl where
  | keep | max | n (v : Nat)
  deriving DecidableEq, Repr

def Inst.setvl (x : Inst) (rd : Nat) (avl : Avl) (vt : Nat) : Inst :=
  if !vtypeOk vt then { x with vtype := 2 ^ 63, vl := 0, vstart := 0 }.setX rd 0
  else
    let m := vlmaxOf vt
    let vl := match avl with
      | .keep => min x.vl m
      | .max => m
      | .n a => if a ≤ m then a else if 2 * m ≤ a then m else let lo := (a + 1) / 2; lo + Config.rvVl a m % (m - lo + 1)
    { x with vtype := vt, vl := vl, vstart := 0 }.setX rd vl

/-- OPCFG. -/
def Inst.config (x : Inst) (w : Nat) : Option Inst :=
  let rd := rvRd w
  let rs1 := rvRs1 w
  let avl : Avl := if rs1 ≠ 0 then .n (x.xr rs1) else if rd ≠ 0 then .max else .keep
  if w.testBit 31 = false then some (x.setvl rd avl (bitsOf w 30 20))
  else if w.testBit 30 then some (x.setvl rd (.n rs1) (bitsOf w 29 20))
  else if bitsOf w 30 25 = 0 then some (x.setvl rd avl (x.xr (rvRs2 w)))
  else none

/-! ### The element loop -/

/-- What the elements of an instruction are written under: the free value's number, and the mask bit vm. -/
structure VEnv where
  ctr : Nat
  vm : Bool
  deriving DecidableEq, Repr

/-- The element is active. -/
def Inst.active (x : Inst) (e : VEnv) (i : Nat) : Bool := e.vm || x.mbit 0 i

/-- An agnostic element: kept, or written with ones. -/
def agnostic (e : VEnv) (w i old : Nat) : Nat := if Config.rvOnes e.ctr i then 2 ^ w - 1 else old

/-- Finish an instruction: vstart is zero. -/
def Inst.fin (x : Inst) : Inst := { x with vstart := 0 }

/-- Write the result elements of w bits into a group: active ones from vstart to vl, then the tail. The values come from the
state before the instruction; their flags are collected. -/
def Inst.vloop (x : Inst) (e : VEnv) (vd w : Nat) (val : Nat → Nat × Nat) : Inst × Nat :=
  if x.vl ≤ x.vstart then (x.fin, 0)
  else
    let body := (List.range x.vl).foldl (fun (a : Inst × Nat) i =>
      if i < x.vstart then a
      else if x.active e i then let v := val i; (a.1.setElem vd w i v.1, a.2 ||| v.2)
      else if x.vma then (a.1.setElem vd w i (agnostic e w i (x.elem vd w i)), a.2)
      else a) (x, 0)
    let total := groupRegs (x.emulFor w) * 256 / w
    let tail := if !x.vta then body.1 else
      (List.range (total - x.vl)).foldl (fun y j => let i := x.vl + j; y.setElem vd w i (agnostic e w i (x.elem vd w i))) body.1
    (tail.fin, body.2)

/-- The same for a mask result, whose tail is always agnostic. -/
def Inst.mloop (x : Inst) (e : VEnv) (vd : Nat) (masked : Bool) (val : Nat → Bool × Nat) : Inst × Nat :=
  if x.vl ≤ x.vstart then (x.fin, 0)
  else
    let body := (List.range x.vl).foldl (fun (a : Inst × Nat) i =>
      if i < x.vstart then a
      else if !masked || x.active e i then let v := val i; (a.1.setMbit vd i v.1, a.2 ||| v.2)
      else if x.vma then (a.1.setMbit vd i (agnostic e 1 i (x.mbit vd i).toNat == 1), a.2)
      else a) (x, 0)
    ((List.range (256 - x.vl)).foldl (fun y j =>
      let i := x.vl + j; y.setMbit vd i (agnostic e 1 i (x.mbit vd i).toNat == 1)) body.1 |>.fin, body.2)

/-- Groups overlap. -/
def overlap (a : Nat) (ea : Int) (b : Nat) (eb : Int) : Bool :=
  decide (a < b + groupRegs eb) && decide (b < a + groupRegs ea)

/-- RVV 1.0, 5.2: a destination of ed may overlap a source of es only as the rules say. -/
def overlapOk (vd : Nat) (ed : Int) (wd : Nat) (vs : Nat) (es : Int) (ws : Nat) : Bool :=
  !overlap vd ed vs es || wd == ws ||
  (decide (wd < ws) && vd == vs) ||
  (decide (ws < wd) && decide (0 ≤ es) && vs == vd + groupRegs ed - groupRegs es)

/-! ### Fixed point -/

/-- roundoff of RVV 1.0 under vxrm: v / 2^d. -/
def vxRound (rm : Nat) (v : Int) (d : Nat) : Int :=
  if d = 0 then v
  else
    let q := v / 2 ^ d
    let rest := (v % 2 ^ d).toNat
    let half := 2 ^ (d - 1)
    let inc := match rm with
      | 0 => decide (half ≤ rest)
      | 1 => decide (half < rest) || (rest == half && q % 2 == 1)
      | 2 => false
      | _ => q % 2 == 0 && decide (rest ≠ 0)
    q + inc.toNat

/-- Saturate to w bits; flag 1 stands for vxsat. -/
def vxSat (w : Nat) (sgn : Bool) (v : Int) : Nat × Nat :=
  let lo : Int := if sgn then -(2 ^ (w - 1)) else 0
  let hi : Int := if sgn then 2 ^ (w - 1) - 1 else 2 ^ w - 1
  if v < lo then (narrow w lo, 1) else if hi < v then (narrow w hi, 1) else (narrow w v, 0)

def Inst.vxrm (x : Inst) : Nat := bitsOf x.vcsr 2 1

/-! ### Integer instructions -/

/-- OPI operations with result, operands of SEW: vs2 element a, vs1, x or immediate b. -/
def vAlu (f6 w rm a b : Nat) : Option (Nat × Nat) :=
  let sa := toSigned w a
  let sb := toSigned w b
  let pure (v : Int) : Option (Nat × Nat) := some (narrow w v, 0)
  let sh := b % w
  match f6 with
  | 0x00 => pure (sa + sb)
  | 0x02 => pure (sa - sb)
  | 0x03 => pure (sb - sa)
  | 0x04 => some (min a b, 0)
  | 0x05 => some (if sa ≤ sb then a else b, 0)
  | 0x06 => some (max a b, 0)
  | 0x07 => some (if sa ≤ sb then b else a, 0)
  | 0x09 => some (a &&& b, 0)
  | 0x0A => some (a ||| b, 0)
  | 0x0B => some (a ^^^ b, 0)
  | 0x20 => some (vxSat w false ((a : Int) + b))
  | 0x21 => some (vxSat w true (sa + sb))
  | 0x22 => some (vxSat w false ((a : Int) - b))
  | 0x23 => some (vxSat w true (sa - sb))
  | 0x25 => pure ((a : Int) * 2 ^ sh)
  | 0x27 => if w = 64 then none else some (vxSat w true (vxRound rm (sa * sb) (w - 1)))
  | 0x28 => some (a >>> sh, 0)
  | 0x29 => pure (sa / 2 ^ sh)
  | 0x2A => pure (vxRound rm a sh)
  | 0x2B => pure (vxRound rm sa sh)
  | _ => none

/-- Comparisons of OPI. -/
def vCmp (f6 w a b : Nat) : Option Bool :=
  let sa := toSigned w a
  let sb := toSigned w b
  match f6 with
  | 0x18 => some (a == b)
  | 0x19 => some (a != b)
  | 0x1A => some (decide (a < b))
  | 0x1B => some (decide (sa < sb))
  | 0x1C => some (decide (a ≤ b))
  | 0x1D => some (decide (sa ≤ sb))
  | 0x1E => some (decide (b < a))
  | 0x1F => some (decide (sb < sa))
  | _ => none

/-- OPM operations of SEW on vs2 a, vs1 or x b, and the old vd c. -/
def vMulOp (f6 w rm a b c : Nat) : Option Nat :=
  let sa := toSigned w a
  let sb := toSigned w b
  let sc := toSigned w c
  let hi (v : Int) : Option Nat := if w = 64 then none else some (narrow w (v / 2 ^ w))
  match f6 with
  | 0x08 => some (narrow w (vxRound rm ((a : Int) + b) 1))
  | 0x09 => some (narrow w (vxRound rm (sa + sb) 1))
  | 0x0A => some (narrow w (vxRound rm ((a : Int) - b) 1))
  | 0x0B => some (narrow w (vxRound rm (sa - sb) 1))
  | 0x20 => some (narrow w (rvDiv a b))
  | 0x21 => some (narrow w (rvDiv sa sb))
  | 0x22 => some (narrow w (rvRem a b))
  | 0x23 => some (narrow w (rvRem sa sb))
  | 0x24 => hi ((a : Int) * b)
  | 0x25 => some (narrow w (sa * sb))
  | 0x26 => hi (sa * b)
  | 0x27 => hi (sa * sb)
  | 0x29 => some (narrow w (sb * sc + sa))
  | 0x2B => some (narrow w (sa - sb * sc))
  | 0x2D => some (narrow w (sb * sa + sc))
  | 0x2F => some (narrow w (sc - sb * sa))
  | _ => none

/-- Widening operations of OPM: vs2 a (2*SEW bits for the .w forms), b, and the old vd c of 2*SEW bits. -/
def vWide (f6 w a b c : Nat) (isX : Bool) : Option Nat :=
  let sa := toSigned w a
  let sb := toSigned w b
  let ww := 2 * w
  let swa := toSigned ww a
  let c' : Int := c
  let n (v : Int) : Option Nat := some (narrow ww v)
  match f6 with
  | 0x30 => n ((a : Int) + b)
  | 0x31 => n (sa + sb)
  | 0x32 => n ((a : Int) - b)
  | 0x33 => n (sa - sb)
  | 0x34 => n (swa + b)
  | 0x35 => n (swa + sb)
  | 0x36 => n (swa - b)
  | 0x37 => n (swa - sb)
  | 0x38 => n ((a : Int) * b)
  | 0x3A => n (sa * b)
  | 0x3B => n (sa * sb)
  | 0x3C => n ((a : Int) * b + c')
  | 0x3D => n (sa * sb + c')
  | 0x3E => if isX then n ((b : Int) * sa + c') else none
  | 0x3F => n (sb * (a : Int) + c')
  | _ => none

/-- Reductions of OPM and the widening ones of OPI: the next value from the accumulator and an element. -/
def vRedOp (f6 w acc a : Nat) : Nat :=
  match f6 with
  | 0 => (acc + a) % 2 ^ w
  | 1 => acc &&& a
  | 2 => acc ||| a
  | 3 => acc ^^^ a
  | 4 => min acc a
  | 5 => if toSigned w acc ≤ toSigned w a then acc else a
  | 6 => max acc a
  | _ => if toSigned w acc ≤ toSigned w a then a else acc

/-- A reduction: element 0 of vd, its tail agnostic; nothing where vl is 0. -/
def Inst.reduce (x : Inst) (e : VEnv) (vd w : Nat) (v0 : Nat) (f : Nat → Nat → Nat) : Inst :=
  if x.vl = 0 then x.fin
  else
    let r := (List.range x.vl).foldl (fun acc i => if x.active e i then f acc i else acc) v0
    let y := x.setElem vd w 0 r
    (if !x.vta then y else (List.range (256 / w - 1)).foldl (fun y j =>
      y.setElem vd w (j + 1) (agnostic e w (j + 1) (x.elem vd w (j + 1)))) y).fin

/-- The second operand: a vector element, or a scalar for each element. -/
inductive VSrc where
  | v (vs1 : Nat)
  | s (val : Nat)
  deriving DecidableEq, Repr

def Inst.src (x : Inst) (o : VSrc) (w i : Nat) : Nat :=
  match o with
  | .v n => x.elem n w i
  | .s val => val % 2 ^ w

/-- Alignment of the second operand. -/
def srcOk (o : VSrc) (e : Int) : Bool :=
  match o with
  | .v n => alignedTo n e
  | .s _ => true

/-- Overlap of the second operand with the destination. -/
def srcFree (o : VSrc) (vd : Nat) (ed : Int) (wd : Nat) (es : Int) (ws : Nat) : Bool :=
  match o with
  | .v n => overlapOk vd ed wd n es ws
  | .s _ => true

/-- A masked instruction does not write v0, unless its result is a mask or a scalar. -/
def v0Ok (vm : Bool) (vd : Nat) : Bool := vm || vd != 0

/-- Raise vxsat. -/
def Inst.satIf (p : Inst × Nat) : Inst := if p.2 = 0 then p.1 else { p.1 with vcsr := p.1.vcsr ||| 1 }

/-- VRGATHER's index of element i. -/
def Inst.gathered (x : Inst) (vs2 w idx : Nat) : Nat := if vlmaxOf x.vtype ≤ idx then 0 else x.elem vs2 w idx

/-- OPIVV, OPIVX, OPIVI. -/
def Inst.opi (x : Inst) (w : Nat) (e : VEnv) (o : VSrc) (imm : Bool) : Option Inst :=
  let f6 := bitsOf w 31 26
  let vd := rvRd w
  let vs2 := rvRs2 w
  let sw := x.sew
  let l := x.lmul
  let isV := match o with
    | .v _ => true
    | .s _ => false
  let raw := rvRs1 w
  let plain := alignedTo vd l && alignedTo vs2 l && srcOk o l && v0Ok e.vm vd
  let carry (i : Nat) : Nat := (x.mbit 0 i).toNat
  -- forms that exist only for some of the three operand kinds
  let noV := f6 == 0x03 || f6 == 0x0F || f6 == 0x1E || f6 == 0x1F
  let noI := f6 == 0x02 || f6 == 0x04 || f6 == 0x05 || f6 == 0x06 || f6 == 0x07 || f6 == 0x12 || f6 == 0x13 || f6 == 0x1A ||
    f6 == 0x1B || f6 == 0x22 || f6 == 0x23
  let uimm := f6 == 0x0C || f6 == 0x0E || f6 == 0x0F || f6 == 0x25 || (decide (0x28 ≤ f6) && decide (f6 ≤ 0x2F))
  let o : VSrc := if imm && uimm then .s raw else o
  if (noV && isV) || (noI && imm) then none
  else if f6 = 0x27 ∧ imm then
    let n := raw + 1
    if !e.vm || !(n == 1 || n == 2 || n == 4 || n == 8) || vd % n != 0 || vs2 % n != 0 then none
    else
      let total := n * 256 / 64
      some ((List.range total).foldl (fun y i => y.setElem vd 64 i (x.elem vs2 64 i)) x).fin
  else if f6 = 0x0C then
    if !plain || overlap vd l vs2 l || (match o with
      | .v n => overlap vd l n l
      | .s _ => false) then none
    else some (x.vloop e vd sw fun i => (x.gathered vs2 sw (match o with
      | .v n => x.elem n sw i
      | .s k => k), 0)).1
  else if f6 = 0x0E then
    match o with
    | .v n =>
      let e16 := x.emulFor 16
      if !alignedTo vd l || !alignedTo vs2 l || !alignedTo n e16 || !v0Ok e.vm vd || overlap vd l vs2 l || overlap vd l n e16 then none
      else some (x.vloop e vd sw fun i => (x.gathered vs2 sw (x.elem n 16 i), 0)).1
    | .s k =>
      if !plain || overlap vd l vs2 l then none
      else some (x.vloop e vd sw fun i => (if i < k then x.elem vd sw i else x.elem vs2 sw (i - k), 0)).1
  else if f6 = 0x0F then
    match o with
    | .s k => if !plain then none else some (x.vloop e vd sw fun i => (if vlmaxOf x.vtype ≤ i + k then 0 else x.elem vs2 sw (i + k), 0)).1
    | .v _ => none
  else if f6 = 0x10 ∨ f6 = 0x12 then
    if e.vm || vd == 0 || !alignedTo vd l || !alignedTo vs2 l || !srcOk o l then none
    else
      let all : VEnv := { e with vm := true }
      some (x.vloop all vd sw fun i =>
        let a : Int := x.elem vs2 sw i
        let b : Int := x.src o sw i
        (narrow sw (if f6 = 0x10 then a + b + carry i else a - b - carry i), 0)).1
  else if f6 = 0x11 ∨ f6 = 0x13 then
    if !alignedTo vs2 l || !srcOk o l || !overlapOk vd 0 1 vs2 l sw || !srcFree o vd 0 1 l sw then none
    else some (x.mloop e vd false fun i =>
        let c := if e.vm then 0 else carry i
        let a := x.elem vs2 sw i
        let b := x.src o sw i
        (if f6 = 0x11 then decide (2 ^ sw ≤ a + b + c) else decide (a < b + c), 0)).1
  else if f6 = 0x17 then
    if e.vm then
      if vs2 ≠ 0 || !alignedTo vd l || !srcOk o l then none else some (x.vloop e vd sw fun i => (x.src o sw i, 0)).1
    else if vd == 0 || !alignedTo vd l || !alignedTo vs2 l || !srcOk o l then none
    else
      let all : VEnv := { e with vm := true }
      some (x.vloop all vd sw fun i => (if x.mbit 0 i then x.src o sw i else x.elem vs2 sw i, 0)).1
  else if 0x18 ≤ f6 ∧ f6 ≤ 0x1F then
    if !alignedTo vs2 l || !srcOk o l || !overlapOk vd 0 1 vs2 l sw || !srcFree o vd 0 1 l sw then none
    else some (x.mloop e vd true fun i => ((vCmp f6 sw (x.elem vs2 sw i) (x.src o sw i)).getD false, 0)).1
  else if 0x2C ≤ f6 ∧ f6 ≤ 0x2F then
    let wide := 2 * sw
    if 64 < wide || !alignedTo vd l || !alignedTo vs2 (l + 1) || !srcOk o l || !v0Ok e.vm vd || !overlapOk vd l sw vs2 (l + 1) wide then none
    else
      let r := x.vloop e vd sw fun i =>
        let a := x.elem vs2 wide i
        let sh := x.src o sw i % wide
        let sa := toSigned wide a
        match f6 with
        | 0x2C => (narrow sw (a >>> sh : Nat), 0)
        | 0x2D => (narrow sw (sa / 2 ^ sh), 0)
        | 0x2E => vxSat sw false (vxRound x.vxrm a sh)
        | _ => vxSat sw true (vxRound x.vxrm sa sh)
      some (Inst.satIf r)
  else if f6 = 0x30 ∨ f6 = 0x31 then
    match o with
    | .v n =>
      let wide := 2 * sw
      if 64 < wide || !alignedTo vs2 l || decide (x.vstart ≠ 0) then none
      else
        let ext (a : Nat) : Nat := if f6 = 0x30 then a else narrow wide (toSigned sw a)
        some (x.reduce e vd wide (x.elem n wide 0) fun acc i => vRedOp 0 wide acc (ext (x.elem vs2 sw i)))
    | .s _ => none
  else if !plain || (vAlu f6 sw x.vxrm 0 0).isNone then none
  else some (Inst.satIf (x.vloop e vd sw fun i => (vAlu f6 sw x.vxrm (x.elem vs2 sw i) (x.src o sw i)).getD (0, 0)))

/-! ### Mask instructions -/

/-- VMSBF, VMSOF, VMSIF: the mask from the first set bit on. -/
def Inst.firstMask (x : Inst) (w : Nat) (e : VEnv) (how : Nat) : Option Inst :=
  let vd := rvRd w
  let vs2 := rvRs2 w
  if x.vstart ≠ 0 ∨ vd = vs2 ∨ !v0Ok e.vm vd then none
  else
    let hit := (List.range x.vl).find? fun i => x.active e i && x.mbit vs2 i
    some (x.mloop e vd true fun i => (match hit with
      | none => how != 2
      | some h => match how with
        | 1 => decide (i < h)
        | 2 => i == h
        | _ => decide (i ≤ h), 0)).1

/-- Active set bits of a mask among the first n elements. -/
def Inst.countBefore (x : Inst) (e : VEnv) (vs2 n : Nat) : Nat :=
  ((List.range n).filter fun i => x.active e i && x.mbit vs2 i).length

/-- Mask logicals of OPM. -/
def maskLogic (f6 : Nat) (a b : Bool) : Bool :=
  match f6 with
  | 0x18 => a && !b
  | 0x19 => a && b
  | 0x1A => a || b
  | 0x1B => a ^^ b
  | 0x1C => a || !b
  | 0x1D => !(a && b)
  | 0x1E => !(a || b)
  | _ => a == b

/-- OPMVV, OPMVX. -/
def Inst.opm (x : Inst) (w : Nat) (e : VEnv) (o : VSrc) : Option Inst :=
  let f6 := bitsOf w 31 26
  let vd := rvRd w
  let vs2 := rvRs2 w
  let vs1 := rvRs1 w
  let sw := x.sew
  let l := x.lmul
  let wide := 2 * sw
  let isV := match o with
    | .v _ => true
    | .s _ => false
  let plain := alignedTo vd l && alignedTo vs2 l && srcOk o l && v0Ok e.vm vd
  if f6 ≤ 7 then
    if !isV || !alignedTo vs2 l || decide (x.vstart ≠ 0) then none
    else some (x.reduce e vd sw (x.elem vs1 sw 0) fun acc i => vRedOp f6 sw acc (x.elem vs2 sw i))
  else if f6 = 0x0E ∨ f6 = 0x0F then
    if isV || !plain || (f6 == 0x0E && overlap vd l vs2 l) then none
    else
      let s := x.src o sw 0
      some (x.vloop e vd sw fun i =>
        (if f6 = 0x0E then (if i = 0 then s else x.elem vs2 sw (i - 1)) else if i + 1 = x.vl then s else x.elem vs2 sw (i + 1), 0)).1
  else if f6 = 0x10 then
    if isV then
      match vs1 with
      | 0 => if !e.vm then none else some (x.setX vd (n64 (toSigned sw (x.elem vs2 sw 0)))).fin
      | 16 => if x.vstart ≠ 0 then none else some (x.setX vd (x.countBefore e vs2 x.vl)).fin
      | 17 =>
        if x.vstart ≠ 0 then none
        else some (x.setX vd (((List.range x.vl).find? fun i => x.active e i && x.mbit vs2 i).elim (2 ^ 64 - 1) id)).fin
      | _ => none
    else if vs2 ≠ 0 || !e.vm then none
    else if x.vl ≤ x.vstart then some x.fin
    else
      let y := x.setElem vd sw 0 (x.src o sw 0)
      some (if !x.vta then y else (List.range (256 / sw - 1)).foldl (fun y j =>
        y.setElem vd sw (j + 1) (agnostic e sw (j + 1) (x.elem vd sw (j + 1)))) y).fin
  else if f6 = 0x12 then
    let by_ := match vs1 / 2 with
      | 1 => 8
      | 2 => 4
      | 3 => 2
      | _ => 0
    if !isV || vs1 > 7 || by_ = 0 || decide (sw / by_ < 8) then none
    else
      let n := sw / by_
      let es := x.emulFor n
      if !alignedTo vd l || !alignedTo vs2 es || !v0Ok e.vm vd || !overlapOk vd l sw vs2 es n then none
      else some (x.vloop e vd sw fun i =>
        let a := x.elem vs2 n i
        (if vs1 % 2 = 1 then narrow sw (toSigned n a) else a, 0)).1
  else if f6 = 0x14 then
    if !isV then none
    else match vs1 with
      | 1 => x.firstMask w e 1
      | 2 => x.firstMask w e 2
      | 3 => x.firstMask w e 3
      | 16 =>
        if x.vstart ≠ 0 || !alignedTo vd l || !v0Ok e.vm vd || overlap vd l vs2 0 then none
        else some (x.vloop e vd sw fun i => (x.countBefore e vs2 i, 0)).1
      | 17 => if vs2 ≠ 0 || !alignedTo vd l || !v0Ok e.vm vd then none else some (x.vloop e vd sw fun i => (i, 0)).1
      | _ => none
  else if f6 = 0x17 then
    if !isV || !e.vm || x.vstart ≠ 0 || !alignedTo vd l || !alignedTo vs2 l || overlap vd l vs2 l || overlap vd l vs1 0 then none
    else if x.vl = 0 then some x.fin
    else
      let picks := (List.range x.vl).filter fun i => x.mbit vs1 i
      let total := groupRegs l * 256 / sw
      let y := picks.zipIdx.foldl (fun y p => y.setElem vd sw p.2 (x.elem vs2 sw p.1)) x
      some (if !x.vta then y else (List.range (total - picks.length)).foldl (fun y j =>
        let i := picks.length + j; y.setElem vd sw i (agnostic e sw i (x.elem vd sw i))) y).fin
  else if 0x18 ≤ f6 ∧ f6 ≤ 0x1F then
    if !isV || !e.vm then none
    else some (x.mloop e vd false fun i => (maskLogic f6 (x.mbit vs2 i) (x.mbit vs1 i), 0)).1
  else if 0x30 ≤ f6 then
    let srcW := decide (0x34 ≤ f6) && decide (f6 ≤ 0x37)
    let wa := if srcW then wide else sw
    let ea := if srcW then l + 1 else l
    if 64 < wide || !alignedTo vd (l + 1) || !alignedTo vs2 ea || !srcOk o l || !v0Ok e.vm vd ||
        !overlapOk vd (l + 1) wide vs2 ea wa || !srcFree o vd (l + 1) wide l sw || (vWide f6 sw 0 0 0 (!isV)).isNone then none
    else some (x.vloop e vd wide fun i => ((vWide f6 sw (x.elem vs2 wa i) (x.src o sw i) (x.elem vd wide i) (!isV)).getD 0, 0)).1
  else if !plain || (vMulOp f6 sw x.vxrm 0 0 0).isNone then none
  else some (x.vloop e vd sw fun i => ((vMulOp f6 sw x.vxrm (x.elem vs2 sw i) (x.src o sw i) (x.elem vd sw i)).getD 0, 0)).1

/-! ### Floating-point instructions -/

/-- Two-operand OPF on vs2 a and vs1 or f b. -/
def vfAlu (f6 rm a b : Nat) (isF : Bool) : Option FRes :=
  match f6 with
  | 0x00 => some (rvAdd rm a b)
  | 0x02 => some (rvSub rm a b)
  | 0x04 => some (rvMinMax false a b)
  | 0x06 => some (rvMinMax true a b)
  | 0x08 => some (rvSgnj 0 a b, 0)
  | 0x09 => some (rvSgnj 1 a b, 0)
  | 0x0A => some (rvSgnj 2 a b, 0)
  | 0x20 => some (rvFDiv rm a b)
  | 0x21 => if isF then some (rvFDiv rm b a) else none
  | 0x24 => some (rvFMul rm a b)
  | 0x27 => if isF then some (rvSub rm b a) else none
  | _ => none

/-- Fused OPF on vs2 a, vs1 or f b, and the old vd c. -/
def vfFma (f6 rm a b c : Nat) : Option FRes :=
  match f6 with
  | 0x28 => some (rvFma rm b c a)
  | 0x29 => some (rvFma rm (flipSign b) c (flipSign a))
  | 0x2A => some (rvFma rm b c (flipSign a))
  | 0x2B => some (rvFma rm (flipSign b) c a)
  | 0x2C => some (rvFma rm b a c)
  | 0x2D => some (rvFma rm (flipSign b) a (flipSign c))
  | 0x2E => some (rvFma rm b a (flipSign c))
  | 0x2F => some (rvFma rm (flipSign b) a c)
  | _ => none

/-- Comparisons of OPF. -/
def vfCmp (f6 a b : Nat) (isF : Bool) : Option (Nat × Nat) :=
  match f6 with
  | 0x18 => some (rvCmp 2 a b)
  | 0x19 => some (rvCmp 0 a b)
  | 0x1B => some (rvCmp 1 a b)
  | 0x1C => some (rvCmp 3 a b)
  | 0x1D => if isF then some (rvCmp 1 b a) else none
  | 0x1F => if isF then some (rvCmp 0 b a) else none
  | _ => none

/-- One-operand conversions: widths of the destination and the source, and the value (VFUNARY0). -/
def vfConvert (code sw rm : Nat) : Option (Nat × Nat × (Nat → FRes)) :=
  let toI (w : Nat) (m : Nat) (sgn : Bool) (a : Nat) : FRes := rvToInt m w sgn a
  let ofI (w : Nat) (sgn : Bool) (a : Nat) : FRes := rvOfInt rm (if sgn then toSigned w a else a)
  match code with
  | 0 => if sw = 32 then some (32, 32, toI 32 rm false) else none
  | 1 => if sw = 32 then some (32, 32, toI 32 rm true) else none
  | 2 => if sw = 32 then some (32, 32, ofI 32 false) else none
  | 3 => if sw = 32 then some (32, 32, ofI 32 true) else none
  | 6 => if sw = 32 then some (32, 32, toI 32 1 false) else none
  | 7 => if sw = 32 then some (32, 32, toI 32 1 true) else none
  | 8 => if sw = 32 then some (64, 32, toI 64 rm false) else none
  | 9 => if sw = 32 then some (64, 32, toI 64 rm true) else none
  | 10 => if sw = 16 then some (32, 16, ofI 16 false) else none
  | 11 => if sw = 16 then some (32, 16, ofI 16 true) else none
  | 14 => if sw = 32 then some (64, 32, toI 64 1 false) else none
  | 15 => if sw = 32 then some (64, 32, toI 64 1 true) else none
  | 16 => if sw = 16 then some (16, 32, toI 16 rm false) else none
  | 17 => if sw = 16 then some (16, 32, toI 16 rm true) else none
  | 18 => if sw = 32 then some (32, 64, ofI 64 false) else none
  | 19 => if sw = 32 then some (32, 64, ofI 64 true) else none
  | 22 => if sw = 16 then some (16, 32, toI 16 1 false) else none
  | 23 => if sw = 16 then some (16, 32, toI 16 1 true) else none
  | _ => none

/-- VFUNARY1. -/
def vfUnary (code rm a : Nat) : Option FRes :=
  match code with
  | 0 => some (rvSqrt rm a)
  | 4 => some (rvRsqrt7 a)
  | 5 => some (rvRec7 rm a)
  | 16 => some (rvClass a, 0)
  | _ => none

/-- Raise the flags of a loop. -/
def Inst.raiseIf (p : Inst × Nat) : Inst := p.1.raise p.2

/-- A reduction with flags. -/
def Inst.reduceF (x : Inst) (e : VEnv) (vd v0 : Nat) (f : Nat → Nat → FRes) : Inst :=
  let go := (List.range x.vl).foldl (fun (acc : FRes) i =>
    if x.active e i then let q := f acc.1 i; (q.1, acc.2 ||| q.2) else acc) (v0, 0)
  (x.reduce e vd 32 v0 fun acc i => (f acc i).1).raise (if x.vl = 0 then 0 else go.2)

/-- VFREDUSUM: its order is open beyond one active element. -/
def Inst.usum (x : Inst) (e : VEnv) (vd vs2 v0 rm : Nat) : Inst :=
  let on := (List.range x.vl).filter (x.active e)
  if on.length ≤ 1 then x.reduceF e vd v0 fun acc i => rvAdd rm acc (x.elem vs2 32 i)
  else
    let xs := v0 :: on.map fun i => x.elem vs2 32 i
    (x.reduce e vd 32 v0 fun _ _ => (Config.rvUsum rm xs).toNat).raise (Config.rvUsumFlags rm xs).toNat

/-- OPFVV, OPFVF. -/
def Inst.opf (x : Inst) (w : Nat) (e : VEnv) (o : VSrc) : Option Inst :=
  let f6 := bitsOf w 31 26
  let vd := rvRd w
  let vs2 := rvRs2 w
  let vs1 := rvRs1 w
  let sw := x.sew
  let l := x.lmul
  let rm := x.frm
  let isF := match o with
    | .v _ => false
    | .s _ => true
  let plain := alignedTo vd l && alignedTo vs2 l && srcOk o l && v0Ok e.vm vd
  if 4 < rm then none
  else if f6 = 0x12 then
    match (if isF then none else vfConvert vs1 sw rm) with
    | none => none
    | some (wd, ws, f) =>
      let ed := x.emulFor wd
      let es := x.emulFor ws
      if !alignedTo vd ed || !alignedTo vs2 es || !v0Ok e.vm vd || !overlapOk vd ed wd vs2 es ws then none
      else some (Inst.raiseIf (x.vloop e vd wd fun i => f (x.elem vs2 ws i)))
  else if sw ≠ 32 then none
  else if f6 = 0x01 ∨ f6 = 0x03 ∨ f6 = 0x05 ∨ f6 = 0x07 then
    if isF || !alignedTo vs2 l || decide (x.vstart ≠ 0) then none
    else
      let v0 := x.elem vs1 32 0
      match f6 with
      | 0x01 => some (x.usum e vd vs2 v0 rm)
      | 0x03 => some (x.reduceF e vd v0 fun acc i => rvAdd rm acc (x.elem vs2 32 i))
      | n => some (x.reduceF e vd v0 fun acc i => rvMinMax (n == 0x07) acc (x.elem vs2 32 i))
  else if f6 = 0x0E ∨ f6 = 0x0F then
    if !isF || !plain || (f6 == 0x0E && overlap vd l vs2 l) then none
    else
      let s := x.src o 32 0
      some (x.vloop e vd 32 fun i =>
        (if f6 = 0x0E then (if i = 0 then s else x.elem vs2 32 (i - 1)) else if i + 1 = x.vl then s else x.elem vs2 32 (i + 1), 0)).1
  else if f6 = 0x10 then
    if !isF then (if vs1 ≠ 0 || !e.vm then none else some (x.setF vd (x.elem vs2 32 0)).fin)
    else if vs2 ≠ 0 || !e.vm then none
    else if x.vl ≤ x.vstart then some x.fin
    else
      let y := x.setElem vd 32 0 (x.src o 32 0)
      some (if !x.vta then y else (List.range 7).foldl (fun y j =>
        y.setElem vd 32 (j + 1) (agnostic e 32 (j + 1) (x.elem vd 32 (j + 1)))) y).fin
  else if f6 = 0x13 then
    if isF || (vfUnary vs1 rm 0).isNone || !alignedTo vd l || !alignedTo vs2 l || !v0Ok e.vm vd then none
    else some (Inst.raiseIf (x.vloop e vd 32 fun i => (vfUnary vs1 rm (x.elem vs2 32 i)).getD (0, 0)))
  else if f6 = 0x17 then
    if !isF then none
    else if e.vm then (if vs2 ≠ 0 || !alignedTo vd l then none else some (x.vloop e vd 32 fun i => (x.src o 32 i, 0)).1)
    else if vd == 0 || !alignedTo vd l || !alignedTo vs2 l then none
    else some (x.vloop { e with vm := true } vd 32 fun i => (if x.mbit 0 i then x.src o 32 i else x.elem vs2 32 i, 0)).1
  else if 0x18 ≤ f6 ∧ f6 ≤ 0x1F then
    if (vfCmp f6 0 0 isF).isNone || !alignedTo vs2 l || !srcOk o l || !overlapOk vd 0 1 vs2 l 32 || !srcFree o vd 0 1 l 32 then none
    else some (Inst.raiseIf (x.mloop e vd true fun i =>
      let q := (vfCmp f6 (x.elem vs2 32 i) (x.src o 32 i) isF).getD (0, 0)
      (q.1 == 1, q.2)))
  else if !plain then none
  else if (vfFma f6 rm 0 0 0).isSome then
    some (Inst.raiseIf (x.vloop e vd 32 fun i => (vfFma f6 rm (x.elem vs2 32 i) (x.src o 32 i) (x.elem vd 32 i)).getD (0, 0)))
  else if (vfAlu f6 rm 0 0 isF).isSome then
    some (Inst.raiseIf (x.vloop e vd 32 fun i => (vfAlu f6 rm (x.elem vs2 32 i) (x.src o 32 i) isF).getD (0, 0)))
  else none

/-- OP-V: none where the word is illegal, vill with any but a configuration instruction among that. -/
def Inst.opv (x : Inst) (w ctr : Nat) : Option Inst :=
  let e : VEnv := ⟨ctr, w.testBit 25⟩
  let f3 := rvF3 w
  if f3 = 7 then x.config w
  else if x.vtype.testBit 63 && !(f3 == 3 && bitsOf w 31 26 == 0x27) then none
  else
    match f3 with
    | 0 => x.opi w e (.v (rvRs1 w)) false
    | 1 => x.opf w e (.v (rvRs1 w))
    | 2 => x.opm w e (.v (rvRs1 w))
    | 3 => x.opi w e (.s (narrow 64 (toSigned 5 (rvRs1 w)))) true
    | 4 => x.opi w e (.s (x.xr (rvRs1 w))) false
    | 5 => x.opf w e (.s (x.fr (rvRs1 w)))
    | _ => x.opm w e (.s (x.xr (rvRs1 w)))

end Sys2Proof.Machine
end

