-- ==== Sys2Proof/Machine/Hart.lean ====
section
/-! DEFINITION. The hart of a collective instance (R364, R365): its scalar and floating-point instructions, CSRs, and its
accesses to memory. -/

namespace Sys2Proof.Machine

/-! ### Instances and their accesses (R365) -/

/-- Number under which an instance's answers from beyond a port are kept, and its key on an abacus core. -/
def instSlot (c i : Nat) : Nat := c * 2 ^ 16 + i
def instKey (c i : Nat) : Nat := 2 ^ 45 + instSlot c i

def State.setInst (s : State) (c i : Nat) (x : Inst) : State :=
  { s with colls := tmod s.colls c fun q => { q with insts := q.insts.set i x } }

def Inst.scope (x : Inst) : Scope := scopeOf (x.accctl % 8)
def Inst.cls (x : Inst) : Nat := bitsOf x.accctl 4 3
def Inst.agent (x : Inst) : Nat := 16 + x.stack

/-- The checks of an instance's access: R173 with the right it needs, natural alignment, and its kind's footprint. -/
def State.instMay (s : State) (q : Coll) (ptr n : Nat) (right : Right) : Bool :=
  (s.checkPtr q.vf ptr n n right).isNone &&
  (if right = .w then q.writes else q.reads).any fun g => g.holds ptr (ptrOff ptr) n

/-- An instance reads n bytes. -/
def State.instLoad (s : State) (c i : Nat) (q : Coll) (x : Inst) (ptr n : Nat) : Direct Nat :=
  if !s.instMay q ptr n .r then .fault s cause.footprint
  else
    match s.engineSeg x.agent q.vf (instKey c i) x.cls ptr n with
    | .ok s bs => .ok { s with fetched := tdel s.fetched (instKey c i) } (leNat bs)
    | .wait s => .wait s
    | .fault s cs => .fault s cs

/-- An instance writes n bytes. -/
def State.instStore (s : State) (c i : Nat) (q : Coll) (x : Inst) (ptr n v : Nat) : Direct Unit :=
  if !s.instMay q ptr n .w then .fault s cause.footprint
  else if isExternal (ptrIdx ptr) then .ok (s.sendOut q.vf x.agent ptr (leBytes n v) (.send c i 1)) ()
  else
    let e := s.tableEntry q.vf (ptrIdx ptr)
    let l := s.locOf e ptr
    s.writeTab x.agent l (atOffsets (l.sva % 128) (leBytes n v)) (clsRelaxed x.cls e)

/-- Writes of an instance through a port are not yet acknowledged. -/
def State.instOut (s : State) (c i n : Nat) : Bool := s.accs.any fun p => p.2.owner == .send c i n

/-! ### CSRs (Table 23.4, and those of F and Zve64f) -/

/-- A CSR that reads without any effect. -/
def Inst.csrRead (x : Inst) (num : Nat) : Option Nat :=
  match num with
  | 0x001 => some (x.fcsr.toNat % 32)
  | 0x002 => some x.frm
  | 0x003 => some (x.fcsr.toNat % 256)
  | 0x008 => some x.vstart
  | 0x009 => some (x.vcsr % 2)
  | 0x00A => some x.vxrm
  | 0x00F => some (x.vcsr % 8)
  | 0xC20 => some x.vl
  | 0xC21 => some x.vtype
  | 0xC22 => some 32
  | 0x800 => some x.cptr.toNat
  | 0x805 => some x.ctmo.toNat
  | 0x810 => some x.accctl
  | 0x811 => some (x.index % 256 + x.count % 256 * 2 ^ 8 + x.stack * 2 ^ 16)
  | 0x821 => some x.hxdone
  | _ => none

/-- A write to such a CSR; none where it is illegal. -/
def Inst.csrWrite (x : Inst) (num v : Nat) : Option Inst :=
  let f := x.fcsr.toNat % 256
  match num with
  | 0x001 => some { x with fcsr := BitVec.ofNat 32 (f / 32 * 32 + v % 32) }
  | 0x002 => some { x with fcsr := BitVec.ofNat 32 (f % 32 + v % 8 * 32) }
  | 0x003 => some { x with fcsr := BitVec.ofNat 32 (v % 256) }
  | 0x008 => some { x with vstart := v % 256 }
  | 0x009 => some { x with vcsr := x.vcsr / 2 * 2 + v % 2 }
  | 0x00A => some { x with vcsr := x.vcsr % 2 + v % 4 * 2 }
  | 0x00F => some { x with vcsr := v % 8 }
  | 0x800 => some { x with cptr := BitVec.ofNat 64 v }
  | 0x805 => some { x with ctmo := BitVec.ofNat 64 v }
  | 0x810 => if 2 ≤ v % 8 ∧ v % 8 ≤ 4 then some { x with accctl := v % 32 } else none
  | _ => none

def csrNum (w : Nat) : Nat := bitsOf w 31 20

/-- The value that a CSR instruction writes, given the old one; none where it writes nothing. -/
def Inst.csrOperand (x : Inst) (w : Nat) : Option (Nat → Nat) :=
  let src := if w.testBit 14 then rvRs1 w else x.xr (rvRs1 w)
  match rvF3 w % 4 with
  | 1 => some fun _ => src
  | 2 => if rvRs1 w = 0 then none else some fun old => old ||| src
  | _ => if rvRs1 w = 0 then none else some fun old => old - (old &&& src)

def isCsr (w : Nat) : Bool := rvOpc w == 0x73 && rvF3 w % 4 != 0

/-- CSRRW of a register whose write is an event of its own, and the value written. -/
def Inst.special (x : Inst) (w num : Nat) : Option Nat :=
  if isCsr w && rvF3 w % 4 == 1 && csrNum w == num then some (if w.testBit 14 then rvRs1 w else x.xr (rvRs1 w)) else none

/-- A read of CREAD. -/
def isCread (w : Nat) : Bool := isCsr w && rvF3 w % 4 != 1 && rvRs1 w == 0 && csrNum w == 0x803

/-- An instruction that another row carries out. -/
def isSpecial (w : Nat) : Bool :=
  isCread w || (isCsr w && rvF3 w % 4 == 1 && [0x801, 0x802, 0x804, 0x820, 0x830].contains (csrNum w))

/-- The other CSR instructions. -/
def Inst.csr (x : Inst) (w : Nat) : Option Inst :=
  match x.csrRead (csrNum w) with
  | none => none
  | some old =>
    match x.csrOperand w with
    | none => some (x.setX (rvRd w) old)
    | some f => (x.csrWrite (csrNum w) (f old)).map fun y => y.setX (rvRd w) old

/-! ### Scalar arithmetic -/

/-- The rounding mode of a floating-point instruction. -/
def Inst.rmOf (x : Inst) (w : Nat) : Option Nat :=
  let r := if rvF3 w = 7 then x.frm else rvF3 w
  if r ≤ 4 then some r else none

/-- Write an f register and raise flags. -/
def Inst.putF (x : Inst) (rd : Nat) (q : FRes) : Inst := (x.setF rd q.1).raise q.2
def Inst.putX (x : Inst) (rd : Nat) (q : FRes) : Inst := (x.setX rd q.1).raise q.2

/-- FCVT's integer width and sign, by rs2. -/
def cvtKind (n : Nat) : Option (Nat × Bool) :=
  match n with
  | 0 => some (32, true)
  | 1 => some (32, false)
  | 2 => some (64, true)
  | 3 => some (64, false)
  | _ => none

/-- OP-FP and the fused instructions. -/
def Inst.opfp (x : Inst) (w : Nat) : Option Inst :=
  let a := x.fr (rvRs1 w)
  let b := x.fr (rvRs2 w)
  let c := x.fr (bitsOf w 31 27)
  let rd := rvRd w
  let rm := x.rmOf w
  let f3 := rvF3 w
  if rvOpc w ≠ 0x53 then
    if bitsOf w 26 25 ≠ 0 then none
    else rm.map fun r => x.putF rd (match rvOpc w with
      | 0x43 => rvFma r a b c
      | 0x47 => rvFma r a b (flipSign c)
      | 0x4B => rvFma r (flipSign a) b c
      | _ => rvFma r (flipSign a) b (flipSign c))
  else
    match rvF7 w with
    | 0x00 => rm.map fun r => x.putF rd (rvAdd r a b)
    | 0x04 => rm.map fun r => x.putF rd (rvSub r a b)
    | 0x08 => rm.map fun r => x.putF rd (rvFMul r a b)
    | 0x0C => rm.map fun r => x.putF rd (rvFDiv r a b)
    | 0x2C => if rvRs2 w = 0 then rm.map fun r => x.putF rd (rvSqrt r a) else none
    | 0x10 => if f3 ≤ 2 then some (x.setF rd (rvSgnj f3 a b)) else none
    | 0x14 => if f3 ≤ 1 then some (x.putF rd (rvMinMax (f3 == 1) a b)) else none
    | 0x50 => if f3 ≤ 2 then some (x.putX rd (rvCmp f3 a b)) else none
    | 0x60 =>
      match rm, cvtKind (rvRs2 w) with
      | some r, some (n, sgn) => let q := rvToInt r n sgn a; some (x.putX rd (n64 (toSigned n q.1), q.2))
      | _, _ => none
    | 0x68 =>
      match rm, cvtKind (rvRs2 w) with
      | some r, some (n, sgn) =>
        let v := x.xr (rvRs1 w) % 2 ^ n
        some (x.putF rd (rvOfInt r (if sgn then toSigned n v else v)))
      | _, _ => none
    | 0x70 =>
      if rvRs2 w ≠ 0 then none
      else if f3 = 0 then some (x.setX rd (n64 (toSigned 32 a)))
      else if f3 = 1 then some (x.setX rd (rvClass a))
      else none
    | 0x78 => if rvRs2 w = 0 ∧ f3 = 0 then some (x.setF rd (x.xr (rvRs1 w) % 2 ^ 32)) else none
    | _ => none

/-- Integer instructions that end at the next word. -/
def Inst.opInt (x : Inst) (w : Nat) : Option Inst :=
  let a := x.xr (rvRs1 w)
  let b := x.xr (rvRs2 w)
  let put (v : Option Nat) : Option Inst := v.map (x.setX (rvRd w))
  match rvOpc w with
  | 0x37 => put (some (n64 (rvImmU w)))
  | 0x17 => put (some (n64 (x.pc.toNat + rvImmU w)))
  | 0x13 => put (rvAluI w a)
  | 0x1B => put (rvAluWI w a)
  | 0x33 => put (if rvF7 w = 1 then some (rvMul (rvF3 w) a b) else rvAlu (rvF3 w) (rvF7 w) a b)
  | 0x3B => put (if rvF7 w = 1 then rvMulW (rvF3 w) a b else rvAluW (rvF3 w) (rvF7 w) a b)
  | _ => none

/-- The target of a jump or a branch: none where the word is illegal or the target misaligned; the link where it has one. -/
def Inst.jump (x : Inst) (w : Nat) : Option (Inst × Nat) :=
  let pc := x.pc.toNat
  let to_ (y : Inst) (t : Int) : Option (Inst × Nat) := if t % 4 = 0 then some (y, n64 t) else none
  match rvOpc w with
  | 0x6F => to_ (x.setX (rvRd w) (n64 (pc + 4))) (pc + rvImmJ w)
  | 0x67 => if rvF3 w ≠ 0 then none else to_ (x.setX (rvRd w) (n64 (pc + 4))) ((s64 (x.xr (rvRs1 w)) + rvImmI w) / 2 * 2)
  | _ =>
    match rvCond (rvF3 w) (x.xr (rvRs1 w)) (x.xr (rvRs2 w)) with
    | some true => to_ x (pc + rvImmB w)
    | some false => some (x, n64 (pc + 4))
    | none => none

/-! ### Vector accesses -/

/-- One element access: address, bytes, and the element of a register group that it loads or stores. -/
structure VAcc where
  el : Nat
  addr : Nat
  n : Nat
  reg : Nat
  deriving DecidableEq, Repr

/-- A vector access: its element accesses in order, and what its loads leave agnostic: groups, element width, elements. -/
structure VPlan where
  accs : List VAcc
  groups : List Nat
  w : Nat
  emul : Int
  evl : Nat
  fof : Bool
  masked : Bool
  whole : Bool
  /-- a mask load, whose tail is always agnostic -/
  agn : Bool
  deriving DecidableEq, Repr

/-- The plan of a vector load or store; none where it is illegal. -/
def Inst.vplan (x : Inst) (w : Nat) (load : Bool) : Option VPlan :=
  let nf := bitsOf w 31 29 + 1
  let vm := w.testBit 25
  let mop := bitsOf w 27 26
  let sub := rvRs2 w
  let vd := rvRd w
  let base := x.xr (rvRs1 w)
  let width := match rvF3 w with
    | 0 => 8
    | 5 => 16
    | 6 => 32
    | _ => 64
  let vill := x.vtype.testBit 63
  let at_ (d : Int) : Nat := n64 ((base : Int) + d)
  let act (i : Nat) : Bool := vm || x.mbit 0 i
  let plan (ew : Nat) (emul : Int) (evl : Nat) (fof : Bool) (addr : Nat → Nat → Nat) : Option VPlan :=
    let regs := groupRegs emul
    if !alignedTo vd emul || decide (8 < nf * regs) || decide (32 < vd + nf * regs) || (load && !vm && vd == 0) then none
    else
      let els := (List.range evl).filter fun i => decide (x.vstart ≤ i) && act i
      some { accs := els.flatMap fun i => (List.range nf).map fun k => ⟨i, addr i k, ew / 8, vd + k * regs⟩,
             groups := (List.range nf).map fun k => vd + k * regs, w := ew, emul := emul, evl := evl, fof := fof, masked := !vm,
             whole := false, agn := sub == 11 && mop == 0 }
  if w.testBit 28 then none
  else if mop = 0 ∧ sub = 8 then
    if !vm || !(nf == 1 || nf == 2 || nf == 4 || nf == 8) || vd % nf != 0 || (!load && width != 8) then none
    else
      let evl := nf * 256 / width
      some { accs := ((List.range evl).filter fun i => decide (x.vstart ≤ i)).map fun i => ⟨i, at_ (i * (width / 8) : Nat), width / 8, vd⟩,
             groups := [vd], w := width, emul := 0, evl := evl, fof := false, masked := false, whole := true, agn := false }
  else if vill then none
  else if mop = 0 then
    match sub with
    | 0 => plan width (x.emulFor width) x.vl false fun i k => at_ ((i * nf + k) * (width / 8) : Nat)
    | 11 =>
      if !vm || nf != 1 || width != 8 then none
      else plan 8 0 ((x.vl + 7) / 8) false fun i _ => at_ (i : Nat)
    | 16 => if load then plan width (x.emulFor width) x.vl true fun i k => at_ ((i * nf + k) * (width / 8) : Nat) else none
    | _ => none
  else if mop = 2 then
    let stride := s64 (x.xr sub)
    plan width (x.emulFor width) x.vl false fun i k => at_ (stride * i + (k * (width / 8) : Nat))
  else
    let ie := x.emulFor width
    let bad := if nf = 1 then !overlapOk vd x.lmul x.sew sub ie width else
      (List.range nf).any fun k => overlap (vd + k * groupRegs x.lmul) x.lmul sub ie
    if !alignedTo sub ie || (load && bad) then none
    else plan x.sew x.lmul x.vl false fun i k => at_ ((x.elem sub width i : Nat) + (k * (x.sew / 8) : Nat))

/-- What the elements that a load did not write become. -/
def Inst.loadRest (x : Inst) (p : VPlan) (ctr : Nat) : Inst :=
  if p.whole || p.evl ≤ x.vstart then x.fin
  else
    let e : VEnv := ⟨ctr, true⟩
    let evl := if p.fof then x.vl else p.evl
    let off (i : Nat) : Bool := if i < evl then p.masked && x.vma && decide (x.vstart ≤ i) && !x.mbit 0 i else x.vta || p.agn
    let total := groupRegs p.emul * 256 / p.w
    (p.groups.foldl (fun y v => ((List.range total).filter off).foldl (fun y i =>
      y.setElem v p.w i (agnostic e p.w i (x.elem v p.w i))) y) x).fin

/-- How a run of element accesses ends. -/
inductive VEnd where
  | wait (s : State) (x : Inst)
  | fault (s : State)
  | ok (s : State) (x : Inst)

/-- One more element access of the current instruction is made. -/
def Inst.counted (x : Inst) : Inst := { x with prog := x.prog + 1 }

/-- One element access of a vector load or store: the instance after it. -/
def State.vacc (s : State) (c i : Nat) (q : Coll) (load : Bool) (x : Inst) (a : VAcc) : Direct Inst :=
  if load then
    match s.instLoad c i q x a.addr a.n with
    | .ok s v => .ok s (x.setElem a.reg (8 * a.n) a.el v).counted
    | .wait s => .wait s
    | .fault s cs => .fault s cs
  else
    match s.instStore c i q x a.addr a.n (x.elem a.reg (8 * a.n) a.el) with
    | .ok s () => .ok s x.counted
    | .wait s => .wait s
    | .fault s cs => .fault s cs

/-- Make the element accesses that are left. A fault-only-first load stops quietly at a later element. -/
def State.vrun (s : State) (c i : Nat) (q : Coll) (load : Bool) (p : VPlan) : List VAcc → Inst → VEnd
  | [], x => .ok s x
  | a :: t, x =>
    match s.vacc c i q load x a with
    | .ok s y => s.vrun c i q load p t y
    | .wait s => .wait s x
    | .fault s _ => if load && p.fof && a.el != 0 then .ok s { x with vl := a.el } else .fault s

end Sys2Proof.Machine
end

