-- ==== Sys2Proof/Machine/Collectives.lean ====
section
/-! DEFINITION. Collective programs (R363 to R366, R376): their instances' instructions, counters, Hexavo sends, and
completion. -/

namespace Sys2Proof.Machine

/-! ### Running instances (R364, R366) -/

/-- The collective and one of its instances. -/
def State.inst? (s : State) (c i : Nat) : Option (Coll × Inst) :=
  (tfind s.colls c).bind fun q => (q.insts[i]?).map (q, ·)

/-- An instance ends, and its abacus core is free. -/
def State.endInst (s : State) (c i : Nat) (x : Inst) : State :=
  (s.setInst c i { x with st := .ended }).modStack x.stack fun k => { k with abacus := k.abacus.filter (· != instSlot c i) }

/-- An instance ends with a fault. -/
def State.faultInst (s : State) (c i : Nat) (x : Inst) : State := (s.endInst c i x).collFault c x.stack

/-- The instruction word at the instance's pc, an offset of the image; none where the fetch fails. -/
def State.instWord (s : State) (q : Coll) (x : Inst) : Option Nat :=
  let pc := x.pc.toNat
  if pc % 4 ≠ 0 ∨ q.imgLen < pc + 4 ∨ (s.checkPtr q.vf (ptrAdd q.img pc) 4 0 .x).isSome then none
  else (s.peekPtr q.vf (ptrAdd q.img pc) 4).map leNat

/-- The instance has budget for an instruction (R312). -/
def State.instBudget (s : State) (q : Coll) (x : Inst) : Bool :=
  decide (tget 0 (s.stack x.stack).abUsed q.vf < (s.ctx q.vf).share 40 128000)

/-- One instruction executed: it is charged, and the instance stands at a pc. -/
def State.instNext (s : State) (c i : Nat) (q : Coll) (x : Inst) (pc : Nat) : State :=
  (s.setInst c i { x with pc := BitVec.ofNat 64 pc, prog := 0 }).modStack x.stack fun k =>
    { k with abUsed := tset k.abUsed q.vf (tget 0 k.abUsed q.vf + 1) }

/-- The frame of an instruction's event: a running instance of a collective that no event has ended; one that it has ended
stops here. -/
def State.instTurn (s : State) (c i : Nat) (f : Coll → Inst → Nat → State) : State :=
  match s.inst? c i with
  | none => s
  | some (q, x) =>
    if x.st = .ended then s
    else if q.ending.isSome then s.endInst c i x
    else if x.st ≠ .running ∨ !s.instBudget q x then s
    else
      match s.instWord q x with
      | none => s.faultInst c i x
      | some w => f q x w

def seqNext (x : Inst) : Nat := n64 (x.pc.toNat + 4)

/-- COLLECTIVE_INSTANCE_START (R364): on a free abacus core of its stack. -/
def execCollectiveInstanceStart (c i : Nat) (s : State) : Host.Outcome State Fault Refusal :=
  match s.inst? c i with
  | none => .next s
  | some (q, x) =>
    if x.st ≠ .waiting then .next s
    else if q.ending.isSome then .next (s.endInst c i x)
    else if 8 ≤ (s.stack x.stack).abacus.length then .next s
    else
      .next ((s.setInst c i { x with st := .running }).modStack x.stack fun k => { k with abacus := k.abacus ++ [instSlot c i] })

/-- A scalar load or store of an integer or a floating-point register. -/
def State.instMem (s : State) (c i : Nat) (q : Coll) (x : Inst) (w : Nat) : State :=
  let a := x.xr (rvRs1 w)
  let fin (s : State) (y : Inst) : State := s.instNext c i q y (seqNext x)
  let load (n : Nat) (put : Nat → Inst) : State :=
    match s.instLoad c i q x (n64 (s64 a + rvImmI w)) n with
    | .ok s v => fin s (put v)
    | .wait s => s
    | .fault s _ => s.faultInst c i x
  let store (n v : Nat) : State :=
    match s.instStore c i q x (n64 (s64 a + rvImmS w)) n v with
    | .ok s () => fin s x
    | .wait s => s
    | .fault s _ => s.faultInst c i x
  match rvOpc w with
  | 0x03 =>
    match rvLoad (rvF3 w) with
    | some (n, sgn) => load n fun v => x.setX (rvRd w) (rvExtend n sgn v)
    | none => s.faultInst c i x
  | 0x23 => if rvF3 w ≤ 3 then store (2 ^ rvF3 w) (x.xr (rvRs2 w) % 2 ^ (8 * 2 ^ rvF3 w)) else s.faultInst c i x
  | 0x07 => load 4 fun v => x.setF (rvRd w) v
  | _ => store 4 (x.fr (rvRs2 w))

/-- A vector load or store: the element accesses that are left (R365). -/
def State.instVmem (s : State) (c i : Nat) (q : Coll) (x : Inst) (w : Nat) : State :=
  let load := rvOpc w == 0x07
  match x.vplan w load with
  | none => s.faultInst c i x
  | some p =>
    match s.vrun c i q load p (p.accs.drop x.prog) x with
    | .wait s x => s.setInst c i x
    | .fault s => s.faultInst c i x
    | .ok s x => s.bump.instNext c i q (if load then x.loadRest p s.freeCtr else x.fin) (seqNext x)

/-- INSTANCE_INSTRUCTION (R364, R365): one instruction, but for those that rows of their own carry out. -/
def execInstanceInstruction (c i : Nat) (s : State) : Host.Outcome State Fault Refusal :=
  .next (s.instTurn c i fun q x w =>
    let seq (y : Option Inst) : State := match y with
      | some y => s.instNext c i q y (seqNext x)
      | none => s.faultInst c i x
    match rvOpc w with
    | 0x37 | 0x17 | 0x13 | 0x1B | 0x33 | 0x3B => seq (x.opInt w)
    | 0x6F | 0x67 | 0x63 =>
      match x.jump w with
      | some (y, pc) => s.instNext c i q y pc
      | none => s.faultInst c i x
    | 0x03 | 0x23 => s.instMem c i q x w
    | 0x07 | 0x27 =>
      if rvF3 w = 2 then s.instMem c i q x w
      else if rvF3 w = 0 ∨ 5 ≤ rvF3 w then s.instVmem c i q x w
      else s.faultInst c i x
    | 0x43 | 0x47 | 0x4B | 0x4F | 0x53 => seq (x.opfp w)
    | 0x57 =>
      match x.opv w s.freeCtr with
      | some y => s.bump.instNext c i q y (seqNext x)
      | none => s.faultInst c i x
    | 0x0F =>
      if rvF3 w ≠ 0 then s.faultInst c i x
      else if s.instOut c i 1 then s
      else (s.clamp q.vf x.scope).1.instNext c i q x (seqNext x)
    | 0x73 =>
      if w = rvEcall then s.instNext c i q x (seqNext x) |>.endInst c i x
      else if !isCsr w then s.faultInst c i x
      else if isSpecial w then s
      else seq (x.csr w)
    | _ => s.faultInst c i x)

/-! ### Counters and CABRT (R264 to R266, R364, R366, R376) -/

/-- A counter operation of an instance at CPTR: release first, then the counter. A check that fails, a counter beyond a port
and one that would pass 2^64 - 1 are faults of the instance. -/
def State.instCounter (s : State) (c i : Nat) (q : Coll) (x : Inst) (w : Nat) (kind : AKind) (v : Nat) : State :=
  let p := x.cptr.toNat
  if s.instOut c i 1 then s
  else if (s.checkPtr q.vf p 8 8 .a).isSome || isExternal (ptrIdx p) then s.faultInst c i x
  else
    let s := (s.clamp q.vf x.scope).1
    match s.counterDirect x.agent (s.locOf (s.tableEntry q.vf (ptrIdx p)) p) kind v with
    | .wait s => s
    | .fault s _ | .ok s none => s.faultInst c i x
    | .ok s (some old) => s.instNext c i q (x.setX (rvRd w) old) (seqNext x)

/-- CSR_CADD. -/
def execCsrCadd (c i : Nat) (s : State) : Host.Outcome State Fault Refusal :=
  .next (s.instTurn c i fun q x w => match x.special w 0x801 with
    | some v => s.instCounter c i q x w .cadd v
    | none => s)

/-- CSR_CRAISE. -/
def execCsrCraise (c i : Nat) (s : State) : Host.Outcome State Fault Refusal :=
  .next (s.instTurn c i fun q x w => match x.special w 0x802 with
    | some v => s.instCounter c i q x w .craise v
    | none => s)

/-- A read of the counter at CPTR (R265). -/
def State.instPeek (s : State) (q : Coll) (x : Inst) : Direct Nat :=
  let p := x.cptr.toNat
  if (s.checkPtr q.vf p 8 8 .a).isSome || isExternal (ptrIdx p) then .fault s cause.bufInvalid
  else
    match (s.clamp q.vf x.scope).1.readDirect x.agent (s.locOf (s.tableEntry q.vf (ptrIdx p)) p) 8 with
    | .ok s bs => .ok s (leNat bs)
    | .wait s => .wait s
    | .fault s cs => .fault s cs

/-- CSR_CREAD. -/
def execCsrCread (c i : Nat) (s : State) : Host.Outcome State Fault Refusal :=
  .next (s.instTurn c i fun q x w =>
    if !isCread w then s
    else match s.instPeek q x with
      | .ok s v => s.instNext c i q (x.setX (rvRd w) v) (seqNext x)
      | .wait s => s
      | .fault s _ => s.faultInst c i x)

/-- CSR_CWAIT (R266, R376): a target that is reached counts as reached even at the timeout; both reply the counter's value. -/
def execCsrCwait (c i : Nat) (s : State) : Host.Outcome State Fault Refusal :=
  let look (q : Coll) (x : Inst) (target rd : Nat) (deadline : Option Nat) : State :=
    match s.instPeek q x with
    | .wait s => s
    | .fault s _ => s.faultInst c i x
    | .ok s v =>
      if target ≤ v ∨ deadline.elim false fun d => decide (d ≤ s.ns) then
        s.instNext c i q ({ x with st := .running }.setX rd v) (seqNext x)
      else s.setInst c i { x with st := .cwait deadline target rd }
  match s.inst? c i with
  | some (q, x) =>
    match x.st with
    | .cwait deadline target rd => .next (if q.ending.isSome then s.endInst c i x else look q x target rd deadline)
    | _ =>
      .next (s.instTurn c i fun q x w => match x.special w 0x804 with
        | some t => look q x t (rvRd w) (if x.ctmo = 0 then none else some (s.ns + 1000 * x.ctmo.toNat))
        | none => s)
  | none => .next s

/-- CABRT (R366). -/
def execCabrt (c i : Nat) (s : State) : Host.Outcome State Fault Refusal :=
  .next (s.instTurn c i fun _ x w => match x.special w 0x830 with
    | some _ =>
      let t := (s.stack x.stack).time
      let s := s.endInst c i x
      { s with colls := tmod s.colls c fun q => q.endAt (t.refOf t.ltime) (16 + x.stack) status.collectiveAbort }
    | none => s)

/-! ### Hexavo sends (R365, Table 23.5) -/

/-- A send descriptor's fields, and whether its reserved ones are zero. -/
def readSend (bs : List Byte) : HxSend × Bool :=
  let n (o w : Nat) : Nat := lineNat bs o w
  ({ src := n 0 8, dst := n 8 8, len := n 16 4, rcnt := n 24 8, rinc := n 32 8, moved := 0, signalled := false, done := false },
    n 20 4 == 0 && n 40 24 == 0)

/-- The checks of a send: SRC in a read region, DST in a write region and through a Hexavo port. -/
def State.sendOk (s : State) (q : Coll) (d : HxSend) : Bool :=
  let e := s.tableEntry q.vf (ptrIdx d.dst)
  decide (0 < d.len) && decide (d.len ≤ 2 ^ 20) && !isExternal (ptrIdx d.src) && isExternal (ptrIdx d.dst) &&
  (s.checkPtr q.vf d.src d.len 0 .r).isNone && (s.checkPtr q.vf d.dst d.len 0 .w).isNone && (extKind e == 1 || extKind e == 2) &&
  (q.reads.any fun g => g.holds d.src (ptrOff d.src) d.len) && q.writes.any fun g => g.holds d.dst (ptrOff d.dst) d.len

/-- HXSEND: the descriptor is taken once one of the instance's 32 entries is free. -/
def execHxsend (c i : Nat) (s : State) : Host.Outcome State Fault Refusal :=
  .next (s.instTurn c i fun q x w => match x.special w 0x820 with
    | none => s
    | some p =>
      let free := 32 - x.sends.length
      if free = 0 then s
      else if !(q.reads.any fun g => g.holds p (ptrOff p) 64) then s.faultInst c i x
      else
        match s.engineRead x.agent q.vf (instKey c i) x.cls p 0 64 with
        | .wait s => s
        | .fault s _ => s.faultInst c i x
        | .ok s bs =>
          let s := { s with fetched := tdel s.fetched (instKey c i) }
          match readSend bs with
          | (d, true) =>
            if s.sendOk q d then s.instNext c i q ({ x with sends := x.sends ++ [d] }.setX (rvRd w) free) (seqNext x)
            else s.faultInst c i x
          | (_, false) => s.faultInst c i x)

/-- The bytes of a send's next remote write: within one line of its source and of its destination. -/
def HxSend.chunk (d : HxSend) : Nat :=
  min (d.len - d.moved) (min (128 - (ptrOff d.src + d.moved) % 128) (128 - (ptrOff d.dst + d.moved) % 128))

/-- HXSEND_COMPLETE: the oldest send of an instance goes on: its next remote write; once all are applied, the advance of the
remote counter; and once that is made, HXDONE rises. -/
def execHxsendComplete (c i : Nat) (s : State) : Host.Outcome State Fault Refusal :=
  match s.inst? c i with
  | none => .next s
  | some (q, x) =>
    match x.sends with
    | [] => .next s
    | d :: rest =>
      let put (s : State) (d : HxSend) : State := s.setInst c i { x with sends := d :: rest }
      if d.moved < d.len then
        match s.engineSeg x.agent q.vf (instKey c i) x.cls (ptrAdd d.src d.moved) d.chunk with
        | .wait s => .next s
        | .fault s _ => .next ((put s { d with moved := d.len }).collFault c x.stack)
        | .ok s bs => .next (put (s.sendOut q.vf x.agent (ptrAdd d.dst d.moved) bs (.send c i 0)) { d with moved := d.moved + d.chunk })
      else if s.instOut c i 0 then .next s
      else if !d.signalled then
        let en := s.tableEntry q.vf (ptrIdx d.dst)
        let l : Loc := { extLoc en d.dst with sva := d.rcnt, eptr := d.rcnt }
        let a := Access.make x.agent 0 l .cz .sys (.atomic .cadd [⟨0, 0, d.rinc, 0⟩]) (.send c i 0) 0 0xFFFFFFFF
        .next (put (s.request { a with ext := extKind en + 1, causal := false }).1 { d with signalled := true })
      else .next (s.setInst c i { x with sends := rest, hxdone := x.hxdone + 1 })

/-! ### Completion (R233, R366) -/

/-- COLLECTIVE_COMPLETION: every instance has ended, and its accesses and sends are performed. -/
def execCollectiveCompletion (c : Nat) (s : State) : Host.Outcome State Fault Refusal :=
  match tfind s.colls c with
  | none => .next s
  | some q =>
    let own (o : Owner) : Bool := match o with
      | .send d _ _ => d == c
      | _ => false
    if (q.insts.any fun x => x.st != .ended || !x.sends.isEmpty) || s.accs.any fun p => own p.2.owner then .next s
    else
      let st := if q.passed then status.counterOverflow else q.ending.elim status.completed (·.2.2)
      match s.completeAll c 32 q.vf ⟨q.cmpl, q.cnt, q.seq, q.inc⟩ ((tfind s.items q.item).map (q.item, ·)) st with
      | .wait s => .next s
      | .fault s _ => .next s
      | .ok s () => .next { s.dropItem q.item with colls := tdel s.colls c }

end Sys2Proof.Machine
end

