-- ==== Sys2Proof/Machine/Dispatch.lean ====
section
/-! DEFINITION. One arm for each constructor of Instr: the meaning of every instruction and event. -/

namespace Sys2Proof.Machine

def exec (i : Instr) (s : State) : Host.Outcome State Fault Refusal :=
  match i with
  | .iadd f => Sys2Proof.Machine.execIadd f s
  | .iaddImm f => Sys2Proof.Machine.execIaddImm f s
  | .isub f => Sys2Proof.Machine.execIsub f s
  | .imul f => Sys2Proof.Machine.execImul f s
  | .imulImm f => Sys2Proof.Machine.execImulImm f s
  | .imad f => Sys2Proof.Machine.execImad f s
  | .imadw f => Sys2Proof.Machine.execImadw f s
  | .imin f => Sys2Proof.Machine.execImin f s
  | .imax f => Sys2Proof.Machine.execImax f s
  | .iabs f => Sys2Proof.Machine.execIabs f s
  | .and f => Sys2Proof.Machine.execAnd f s
  | .andImm f => Sys2Proof.Machine.execAndImm f s
  | .or f => Sys2Proof.Machine.execOr f s
  | .orImm f => Sys2Proof.Machine.execOrImm f s
  | .xor f => Sys2Proof.Machine.execXor f s
  | .xorImm f => Sys2Proof.Machine.execXorImm f s
  | .andn f => Sys2Proof.Machine.execAndn f s
  | .shl f => Sys2Proof.Machine.execShl f s
  | .shr f => Sys2Proof.Machine.execShr f s
  | .sar f => Sys2Proof.Machine.execSar f s
  | .fshl f => Sys2Proof.Machine.execFshl f s
  | .bfx f => Sys2Proof.Machine.execBfx f s
  | .bfi f => Sys2Proof.Machine.execBfi f s
  | .popc f => Sys2Proof.Machine.execPopc f s
  | .clz f => Sys2Proof.Machine.execClz f s
  | .brev f => Sys2Proof.Machine.execBrev f s
  | .iset f => Sys2Proof.Machine.execIset f s
  | .isetImm f => Sys2Proof.Machine.execIsetImm f s
  | .sel f => Sys2Proof.Machine.execSel f s
  | .mov f => Sys2Proof.Machine.execMov f s
  | .movi f => Sys2Proof.Machine.execMovi f s
  | .lea f => Sys2Proof.Machine.execLea f s
  | .leaImm f => Sys2Proof.Machine.execLeaImm f s
  | .plop f => Sys2Proof.Machine.execPlop f s
  | .p2v f => Sys2Proof.Machine.execP2v f s
  | .v2p f => Sys2Proof.Machine.execV2p f s
  | .mfs f => Sys2Proof.Machine.execMfs f s
  | .bra f => Sys2Proof.Machine.execBra f s
  | .brx f => Sys2Proof.Machine.execBrx f s
  | .call f => Sys2Proof.Machine.execCall f s
  | .ret f => Sys2Proof.Machine.execRet f s
  | .fork f => Sys2Proof.Machine.execFork f s
  | .retire f => Sys2Proof.Machine.execRetire f s
  | .yieldI f => Sys2Proof.Machine.execYieldI f s
  | .nap f => Sys2Proof.Machine.execNap f s
  | .nop f => Sys2Proof.Machine.execNop f s
  | .time f => Sys2Proof.Machine.execTime f s
  | .fadd f => Sys2Proof.Machine.execFadd f s
  | .fsub f => Sys2Proof.Machine.execFsub f s
  | .fmul f => Sys2Proof.Machine.execFmul f s
  | .ffma f => Sys2Proof.Machine.execFfma f s
  | .fmin f => Sys2Proof.Machine.execFmin f s
  | .fmax f => Sys2Proof.Machine.execFmax f s
  | .fminn f => Sys2Proof.Machine.execFminn f s
  | .fmaxn f => Sys2Proof.Machine.execFmaxn f s
  | .fset f => Sys2Proof.Machine.execFset f s
  | .fclass f => Sys2Proof.Machine.execFclass f s
  | .frnd f => Sys2Proof.Machine.execFrnd f s
  | .fscale f => Sys2Proof.Machine.execFscale f s
  | .fdot2 f => Sys2Proof.Machine.execFdot2 f s
  | .frcp f => Sys2Proof.Machine.execFrcp f s
  | .frsq f => Sys2Proof.Machine.execFrsq f s
  | .fsqrt f => Sys2Proof.Machine.execFsqrt f s
  | .fexp2 f => Sys2Proof.Machine.execFexp2 f s
  | .flog2 f => Sys2Proof.Machine.execFlog2 f s
  | .ftanh f => Sys2Proof.Machine.execFtanh f s
  | .fsinpi f => Sys2Proof.Machine.execFsinpi f s
  | .fcospi f => Sys2Proof.Machine.execFcospi f s
  | .cvt f => Sys2Proof.Machine.execCvt f s
  | .cvtmx f => Sys2Proof.Machine.execCvtmx f s
  | .cvtx f => Sys2Proof.Machine.execCvtx f s
  | .qswp f => Sys2Proof.Machine.execQswp f s
  | .qbc f => Sys2Proof.Machine.execQbc f s
  | .shfl f => Sys2Proof.Machine.execShfl f s
  | .vote f => Sys2Proof.Machine.execVote f s
  | .red f => Sys2Proof.Machine.execRed f s
  | .scan f => Sys2Proof.Machine.execScan f s
  | .matchI f => Sys2Proof.Machine.execMatchI f s
  | .elect f => Sys2Proof.Machine.execElect f s
  | .tile f => Sys2Proof.Machine.execTile f s
  | .ld f => Sys2Proof.Machine.execLd f s
  | .st f => Sys2Proof.Machine.execSt f s
  | .ldc f => Sys2Proof.Machine.execLdc f s
  | .ldp f => Sys2Proof.Machine.execLdp f s
  | .stp f => Sys2Proof.Machine.execStp f s
  | .pref f => Sys2Proof.Machine.execPref f s
  | .wbr f => Sys2Proof.Machine.execWbr f s
  | .invr f => Sys2Proof.Machine.execInvr f s
  | .fence f => Sys2Proof.Machine.execFence f s
  | .rfence f => Sys2Proof.Machine.execRfence f s
  | .ipref f => Sys2Proof.Machine.execIpref f s
  | .ipin f => Sys2Proof.Machine.execIpin f s
  | .iunpin f => Sys2Proof.Machine.execIunpin f s
  | .atom f => Sys2Proof.Machine.execAtom f s
  | .cas f => Sys2Proof.Machine.execCas f s
  | .mcas f => Sys2Proof.Machine.execMcas f s
  | .atomp f => Sys2Proof.Machine.execAtomp f s
  | .cadd f => Sys2Proof.Machine.execCadd f s
  | .craise f => Sys2Proof.Machine.execCraise f s
  | .cread f => Sys2Proof.Machine.execCread f s
  | .cwait f => Sys2Proof.Machine.execCwait f s
  | .tdef f => Sys2Proof.Machine.execTdef f s
  | .marm f => Sys2Proof.Machine.execMarm f s
  | .msign f => Sys2Proof.Machine.execMsign f s
  | .mbind f => Sys2Proof.Machine.execMbind f s
  | .mbinds f => Sys2Proof.Machine.execMbinds f s
  | .mpair f => Sys2Proof.Machine.execMpair f s
  | .munpair f => Sys2Proof.Machine.execMunpair f s
  | .macrd f => Sys2Proof.Machine.execMacrd f s
  | .macwr f => Sys2Proof.Machine.execMacwr f s
  | .macclr f => Sys2Proof.Machine.execMacclr f s
  | .mtest f => Sys2Proof.Machine.execMtest f s
  | .mcap f => Sys2Proof.Machine.execMcap f s
  | .qwr f => Sys2Proof.Machine.execQwr f s
  | .qwrc f => Sys2Proof.Machine.execQwrc f s
  | .mts f => Sys2Proof.Machine.execMts f s
  | .trap f => Sys2Proof.Machine.execTrap f s
  | .bpt f => Sys2Proof.Machine.execBpt f s
  | .tret f => Sys2Proof.Machine.execTret f s
  | .haltg f => Sys2Proof.Machine.execHaltg f s
  | .qstat f => Sys2Proof.Machine.execQstat f s
  | .unassignedOpcode w => Sys2Proof.Machine.execUnassignedOpcode w s
  | .clusterPlacement grid => Sys2Proof.Machine.execClusterPlacement grid s
  | .groupEnd gid => Sys2Proof.Machine.execGroupEnd gid s
  | .quadSlotReturn gid q => Sys2Proof.Machine.execQuadSlotReturn gid q s
  | .bundleFormation k sl => Sys2Proof.Machine.execBundleFormation k sl s
  | .holdRunTimeout k sl => Sys2Proof.Machine.execHoldRunTimeout k sl s
  | .budgetPeriod => Sys2Proof.Machine.execBudgetPeriod s
  | .napExpiry gid fib => Sys2Proof.Machine.execNapExpiry gid fib s
  | .lineFill k vf code off dmg1 dmg2 => Sys2Proof.Machine.execLineFill k vf code off dmg1 dmg2 s
  | .bufferEntryArrival k vf idx => Sys2Proof.Machine.execBufferEntryArrival k vf idx s
  | .replyArrival m => Sys2Proof.Machine.execReplyArrival m s
  | .homeFaultArrival m => Sys2Proof.Machine.execHomeFaultArrival m s
  | .homeStoreApply m => Sys2Proof.Machine.execHomeStoreApply m s
  | .homeLoadPerform m => Sys2Proof.Machine.execHomeLoadPerform m s
  | .relaxedApply m => Sys2Proof.Machine.execRelaxedApply m s
  | .writeBack m => Sys2Proof.Machine.execWriteBack m s
  | .horizonBeat a => Sys2Proof.Machine.execHorizonBeat a s
  | .beatRecord st a lane => Sys2Proof.Machine.execBeatRecord st a lane s
  | .orderedSend m => Sys2Proof.Machine.execOrderedSend m s
  | .routerMessage m bad => Sys2Proof.Machine.execRouterMessage m bad s
  | .requestTimeout m => Sys2Proof.Machine.execRequestTimeout m s
  | .dieFailure d => Sys2Proof.Machine.execDieFailure d s
  | .dieRejoin d => Sys2Proof.Machine.execDieRejoin d s
  | .cardAcceptance c => Sys2Proof.Machine.execCardAcceptance c s
  | .arming gid kreg => Sys2Proof.Machine.execArming gid kreg s
  | .copyCardStart d e => Sys2Proof.Machine.execCopyCardStart d e s
  | .copyLine d e n => Sys2Proof.Machine.execCopyLine d e n s
  | .engineCompletion op => Sys2Proof.Machine.execEngineCompletion op s
  | .descriptorAcceptance gid kreg => Sys2Proof.Machine.execDescriptorAcceptance gid kreg s
  | .bindingLoad k => Sys2Proof.Machine.execBindingLoad k s
  | .matrixPass k => Sys2Proof.Machine.execMatrixPass k s
  | .selfTestInjection k bad => Sys2Proof.Machine.execSelfTestInjection k bad s
  | .resultPush k => Sys2Proof.Machine.execResultPush k s
  | .pairedStart k => Sys2Proof.Machine.execPairedStart k s
  | .mpairTimeout gid => Sys2Proof.Machine.execMpairTimeout gid s
  | .cwaitReply w => Sys2Proof.Machine.execCwaitReply w s
  | .cwaitTimeout w => Sys2Proof.Machine.execCwaitTimeout w s
  | .cwaitResend w => Sys2Proof.Machine.execCwaitResend w s
  | .lockAndRead x st => Sys2Proof.Machine.execLockAndRead x st s
  | .mcasCommit x st => Sys2Proof.Machine.execMcasCommit x st s
  | .mcasLockTimeout x => Sys2Proof.Machine.execMcasLockTimeout x s
  | .mcasRestart x => Sys2Proof.Machine.execMcasRestart x s
  | .mcasCancel x => Sys2Proof.Machine.execMcasCancel x s
  | .atompRoutine m => Sys2Proof.Machine.execAtompRoutine m s
  | .submissionRingService vf => Sys2Proof.Machine.execSubmissionRingService vf s
  | .taskDispatch vf => Sys2Proof.Machine.execTaskDispatch vf s
  | .gridCompletion grid => Sys2Proof.Machine.execGridCompletion grid s
  | .preemptionRequest l => Sys2Proof.Machine.execPreemptionRequest l s
  | .switchTick l => Sys2Proof.Machine.execSwitchTick l s
  | .prepare l d => Sys2Proof.Machine.execPrepare l d s
  | .ready l d => Sys2Proof.Machine.execReady l d s
  | .commit l => Sys2Proof.Machine.execCommit l s
  | .switchDeadline l => Sys2Proof.Machine.execSwitchDeadline l s
  | .cancel l => Sys2Proof.Machine.execCancel l s
  | .scrubOnchip st => Sys2Proof.Machine.execScrubOnchip st s
  | .scrubFrame st => Sys2Proof.Machine.execScrubFrame st s
  | .rdreg k => Sys2Proof.Machine.execRdreg k s
  | .wrreg k => Sys2Proof.Machine.execWrreg k s
  | .keygen k => Sys2Proof.Machine.execKeygen k s
  | .zeroise k => Sys2Proof.Machine.execZeroise k s
  | .window k => Sys2Proof.Machine.execWindow k s
  | .assign k => Sys2Proof.Machine.execAssign k s
  | .scrub k => Sys2Proof.Machine.execScrub k s
  | .teardown k => Sys2Proof.Machine.execTeardown k s
  | .invbuf k => Sys2Proof.Machine.execInvbuf k s
  | .invtlb k => Sys2Proof.Machine.execInvtlb k s
  | .invrtn k => Sys2Proof.Machine.execInvrtn k s
  | .install k => Sys2Proof.Machine.execInstall k s
  | .preempt k => Sys2Proof.Machine.execPreempt k s
  | .securityStatus k => Sys2Proof.Machine.execSecurityStatus k s
  | .consent vf win peer len rights => Sys2Proof.Machine.execConsent vf win peer len rights s
  | .consentWithdrawal vf win => Sys2Proof.Machine.execConsentWithdrawal vf win s
  | .ideKeyProgramming vf stream key => Sys2Proof.Machine.execIdeKeyProgramming vf stream key s
  | .linkSessionRequest vf st port => Sys2Proof.Machine.execLinkSessionRequest vf st port s
  | .linkKeyRotation st port => Sys2Proof.Machine.execLinkKeyRotation st port s
  | .rotationConfirmation st port => Sys2Proof.Machine.execRotationConfirmation st port s
  | .oldGenerationNotice st port count => Sys2Proof.Machine.execOldGenerationNotice st port count s
  | .hexavoFrame st port kg tagOk ops => Sys2Proof.Machine.execHexavoFrame st port kg tagOk ops s
  | .hostWrite vf off data => Sys2Proof.Machine.execHostWrite vf off data s
  | .hostRead vf off len => Sys2Proof.Machine.execHostRead vf off len s
  | .hostFetchAdd vf off size inc => Sys2Proof.Machine.execHostFetchAdd vf off size inc s
  | .functionLevelReset vf => Sys2Proof.Machine.execFunctionLevelReset vf s
  | .coldReset => Sys2Proof.Machine.execColdReset s
  | .warmReset => Sys2Proof.Machine.execWarmReset s
  | .bringUp ok => Sys2Proof.Machine.execBringUp ok s
  | .alarmEvent sensor => Sys2Proof.Machine.execAlarmEvent sensor s
  | .thermalTrip d => Sys2Proof.Machine.execThermalTrip d s
  | .remapTableError st bank both => Sys2Proof.Machine.execRemapTableError st bank both s
  | .partcfgWrite v => Sys2Proof.Machine.execPartcfgWrite v s
  | .vfbindWrite n v => Sys2Proof.Machine.execVfbindWrite n v s
  | .scwayWrite st n v => Sys2Proof.Machine.execScwayWrite st n v s
  | .aquotaWrite st n v => Sys2Proof.Machine.execAquotaWrite st n v s
  | .cquotaWrite d n v => Sys2Proof.Machine.execCquotaWrite d n v s
  | .tickpWrite l v => Sys2Proof.Machine.execTickpWrite l v s
  | .subqWrite n v => Sys2Proof.Machine.execSubqWrite n v s
  | .alarmpolWrite v => Sys2Proof.Machine.execAlarmpolWrite v s
  | .cstatWrite vf v => Sys2Proof.Machine.execCstatWrite vf v s
  | .dieOff d => Sys2Proof.Machine.execDieOff d s
  | .dieHold d => Sys2Proof.Machine.execDieHold d s
  | .l2 d => Sys2Proof.Machine.execL2 d s
  | .l1 d => Sys2Proof.Machine.execL1 d s
  | .l0 d => Sys2Proof.Machine.execL0 d s
  | .dieWakeComplete d => Sys2Proof.Machine.execDieWakeComplete d s
  | .selfref st => Sys2Proof.Machine.execSelfref st s
  | .active st => Sys2Proof.Machine.execActive st s
  | .pwrcapWrite v => Sys2Proof.Machine.execPwrcapWrite v s
  | .registerWrite num unit v => Sys2Proof.Machine.execRegisterWrite num unit v s
  | .powerArbitration dieW stkW => Sys2Proof.Machine.execPowerArbitration dieW stkW s
  | .timeSync u rate => Sys2Proof.Machine.execTimeSync u rate s
  | .collectiveInstanceStart c ix => Sys2Proof.Machine.execCollectiveInstanceStart c ix s
  | .collectiveCompletion c => Sys2Proof.Machine.execCollectiveCompletion c s
  | .csrCadd c ix => Sys2Proof.Machine.execCsrCadd c ix s
  | .csrCraise c ix => Sys2Proof.Machine.execCsrCraise c ix s
  | .csrCread c ix => Sys2Proof.Machine.execCsrCread c ix s
  | .csrCwait c ix => Sys2Proof.Machine.execCsrCwait c ix s
  | .hxsend c ix => Sys2Proof.Machine.execHxsend c ix s
  | .hxsendComplete c ix => Sys2Proof.Machine.execHxsendComplete c ix s
  | .cabrt c ix => Sys2Proof.Machine.execCabrt c ix s
  | .tdispRequest vf r => Sys2Proof.Machine.execTdispRequest vf r s
  | .instanceInstruction c ix => Sys2Proof.Machine.execInstanceInstruction c ix s
  | .linkTrained st port up => Sys2Proof.Machine.execLinkTrained st port up s
  | .getVersion vf => Sys2Proof.Machine.execGetVersion vf s
  | .getCapabilities vf => Sys2Proof.Machine.execGetCapabilities vf s
  | .negotiateAlgorithms vf => Sys2Proof.Machine.execNegotiateAlgorithms vf s
  | .getDigests vf => Sys2Proof.Machine.execGetDigests vf s
  | .getCertificate vf => Sys2Proof.Machine.execGetCertificate vf s
  | .challenge vf nonce => Sys2Proof.Machine.execChallenge vf nonce s
  | .getMeasurements vf idx => Sys2Proof.Machine.execGetMeasurements vf idx s
  | .keyExchange vf => Sys2Proof.Machine.execKeyExchange vf s
  | .finish vf => Sys2Proof.Machine.execFinish vf s
  | .keyUpdate vf => Sys2Proof.Machine.execKeyUpdate vf s
  | .endSession vf => Sys2Proof.Machine.execEndSession vf s

end Sys2Proof.Machine
end

