-- ==== Sys2Proof/Machine/Round.lean ====
section
/-! DEFINITION. The order in which the model's agents move when the agenda is empty (log 1), the clock edges, what
follows an issue, and the inputs that have no row of the opcode table. -/

namespace Sys2Proof.Machine

/-! ### What follows an issue (R34, R52, R65, R354) -/

/-- Whether a fibre is in-trap. -/
def State.trapState (s : State) (gid f : Nat) : Bool :=
  ((s.group? gid).bind fun g => tfind g.fibres f).elim false (·.inTrap)

/-- The issue of an instruction by slice `c` of state `s` has ended in `t`: R65, and R354 where it took a status word
from q8. -/
def State.afterIssue (s t : State) (i : Instr) : State :=
  match s.cur with
  | some c =>
    let t' := t.endIssue i (c.en.any fun f => !s.trapState c.gid f && t.trapState c.gid f)
    if (t.core c.k).statuses.length < (s.core c.k).statuses.length then t'.acquire c.k (s.vfOf c.gid) .dev fun _ => true
    else t'
  | none => t.endIssue i false

/-! ### Clocks -/

/-- One nanosecond: every local counter advances by one (R367). -/
def State.tickNano (s : State) : State :=
  let up (t : TimeRegs) : TimeRegs := { t with ltime := (t.ltime + 1) % 2 ^ 64 }
  let s := (List.range 16).foldl (fun s d =>
    (s.modDie d fun x => { x with time := up x.time }).modStack d fun x => { x with time := up x.time }) s
  { s with ns := s.ns + 1, mh := { s.mh with time := up s.mh.time } }

/-! ### Inputs that have no row -/

/-- A table root is set or cleared (R175). -/
def State.setTableRoot (s : State) (st vf : Nat) (root : Option Nat) : State :=
  s.modStack st fun k => { k with roots := match root with
    | some a => tset k.roots vf a
    | none => tdel k.roots vf }

/-- A DRAM line no longer verifies (R343). -/
def State.damage (s : State) (st line : Nat) : State :=
  s.modStack st fun k => { k with bad := if k.bad.contains line then k.bad else k.bad ++ [line] }

/-- A counter block no longer verifies (R344). -/
def State.damageBlock (s : State) (st level block : Nat) : State :=
  if level = 0 ∨ 3 < level then s
  else s.modStack st fun k => { k with badCtr := if k.badCtr.contains (level, block) then k.badCtr else k.badCtr ++ [(level, block)] }

/-- Bytes that the masthead's firmware writes into a stack at bring-up. -/
def State.firmwarePut (s : State) (st pa : Nat) (data : List Byte) : State :=
  (data.zipIdx).foldl (fun s b =>
    let a := pa + b.2
    let l : Loc := ⟨st, a, (tget Frame.reset (s.stack st).frames (a / 2 ^ 16)).key, 0, 0, false, false⟩
    s.homeWrite l false (memAddr st a) [(a % 128, b.1)] none) s

/-- A FREE frame that the firmware assigns under a key slot of VF 0 (R342). -/
def State.firmwareAssign (s : State) (st f key : Nat) : State :=
  if ((s.stack st).frame f).st ≠ .free then s
  else
  let s := if ((s.stack st).slot key).st = .free ∧ key ≠ 0 then s.drawKey st key 0 .active else s
  s.modStack st fun k => { k with frames := tset k.frames f { tget Frame.reset k.frames f with st := .assigned, key := key } }

/-- The steward's context, installed by the firmware; reserved bits of VFBIND0 and BUDGET0 stay zero (R8). -/
def State.firmwareInstall (s : State) (desc : BitVec 1024) (bind : BitVec 128) (budget : BitVec 64) : State :=
  if legalDescriptor desc then
    s.modCtx 0 fun c => { c.install (some desc) with vfbind := bind &&& (2 ^ 69 - 1 : Nat), budget := budget &&& (2 ^ 56 - 1 : Nat) }
  else s

/-! ### One round -/

/-- Cores that hold a group, in ascending order. -/
def State.busyCores (s : State) : List Nat := (s.groups.map fun p => p.2.k).foldl (fun t k => fibInsert k t) []

/-- What may move for a message. -/
def accMoves (m : Nat) : List Instr :=
  [.orderedSend m, .routerMessage m false, .homeStoreApply m, .homeLoadPerform m, .relaxedApply m, .writeBack m,
   .atompRoutine m, .homeFaultArrival m, .replyArrival m, .requestTimeout m]

/-- What may move for the reason that a fibre is parked. -/
def parkMoves (gid k fib : Nat) (p : Park) : List Instr :=
  match p with
  | .nap _ => [.napExpiry gid fib]
  | .bufMiss vf idx => [.bufferEntryArrival k vf idx]
  | .card item => [.cardAcceptance item]
  | .arming kr _ _ _ => [.arming gid kr]
  | .handoff kr _ => [.descriptorAcceptance gid kr]
  | .pairing _ _ => [.mpairTimeout gid]
  | _ => []

/-- What may move for a fibre of a group. -/
def State.fibreMoves (s : State) (gid : Nat) (g : Group) (p : Nat × Fibre) : List Instr :=
  if p.2.live && s.fetch g p.2.pc.toNat == .absent then
    .lineFill g.k g.vf g.codePtr (p.2.pc.toNat / 64 * 64) 0 0 :: parkMoves gid g.k p.1 p.2.park
  else parkMoves gid g.k p.1 p.2.park

/-- What may move for a group. -/
def State.groupMoves (s : State) (p : Nat × Group) : List Instr :=
  let quads : List Nat := (p.2.fibres.map fun b => b.1 / 4).foldl (fun t q => fibInsert q t) []
  List.flatten [p.2.fibres.flatMap (s.fibreMoves p.1 p.2), quads.map (Instr.quadSlotReturn p.1), [Instr.groupEnd p.1]]

/-- The event of a command by its operation. -/
def commandEvent (k op : Nat) : List Instr :=
  match op with
  | 0x01 => [.rdreg k] | 0x02 => [.wrreg k] | 0x10 => [.keygen k] | 0x11 => [.zeroise k] | 0x12 => [.window k]
  | 0x20 => [.assign k] | 0x21 => [.scrub k] | 0x22 => [.teardown k] | 0x30 => [.invbuf k] | 0x31 => [.invtlb k]
  | 0x32 => [.invrtn k] | 0x40 => [.install k] | 0x41 => [.preempt k]
  | _ => []

/-- The event of the oldest command of a core. -/
def State.commandMove (s : State) (k : Nat) : List Instr :=
  match (s.core k).cmds with
  | [] => []
  | ws :: _ => commandEvent k (cmdOf ws).op ++ [Instr.securityStatus k]

/-- What may move for a core's engine and slices. -/
def coreMoves (k : Nat) : List Instr :=
  List.flatten [[.bindingLoad k, .pairedStart k, .selfTestInjection k 0, .matrixPass k, .resultPush k],
    (List.range 4).map (Instr.holdRunTimeout k)]

/-- The lines that a copy engine may move. -/
def State.copyMoves (s : State) (d : Nat) (e : Nat × Nat) : List Instr :=
  match tfind s.cards e.2 with
  | some c => ((readCopy c.bytes).lines.filter fun n => !c.moved.contains n).map (Instr.copyLine d e.1)
  | none => []

/-- What may move for the power state of a die. -/
def powerMoves (d : Nat) (x : Die) : List Instr :=
  let down : List Instr := match x.target with
    | .off => [.dieOff d]
    | .hold => [.dieHold d]
    | _ => []
  List.flatten [if x.waking.isSome then [Instr.dieWakeComplete d] else [], if x.level == x.target then [] else down]

/-- What may move for a die: its copy engines, its power state. -/
def State.dieMoves (s : State) (d : Nat) : List Instr :=
  List.flatten [(List.range 4).map (Instr.copyCardStart d), (s.die d).engines.flatMap (s.copyMoves d), powerMoves d (s.die d)]

/-- What may move for an MCAS. -/
def mcasMoves (p : Nat × Mcas) : List Instr :=
  List.flatten [p.2.homes.map (Instr.lockAndRead p.1), p.2.homes.map (Instr.mcasCommit p.1),
    [Instr.mcasLockTimeout p.1, Instr.mcasCancel p.1, Instr.mcasRestart p.1]]

/-- What may move for a partition. -/
def State.gangMoves (s : State) (l : Nat) : List Instr :=
  List.flatten [[Instr.switchTick l], (s.diesOf l).map (Instr.prepare l), (s.diesOf l).map (Instr.ready l),
    [Instr.commit l, Instr.switchDeadline l, Instr.cancel l]]

/-- What may move for an instance of a collective. -/
def instMoves (c i : Nat) : List Instr :=
  [.collectiveInstanceStart c i, .instanceInstruction c i, .csrCadd c i, .csrCraise c i, .csrCread c i, .csrCwait c i,
   .hxsend c i, .cabrt c i, .hxsendComplete c i]

/-- What may move for a collective. -/
def collMoves (p : Nat × Coll) : List Instr :=
  List.flatten [(List.range p.2.insts.length).flatMap (instMoves p.1), [Instr.collectiveCompletion p.1]]

/-- What may move for a VF. -/
def ctxMoves (p : Nat × Ctx) : List Instr :=
  List.flatten [[Instr.submissionRingService p.1, Instr.taskDispatch p.1], if p.2.flr then [Instr.functionLevelReset p.1] else []]

/-- The messages, beats and groups that may move. -/
def State.pendingHead (s : State) : List Instr :=
  List.flatten [s.accs.flatMap fun p => accMoves p.1, (List.range 33).map Instr.horizonBeat,
    s.beats.map fun b => Instr.beatRecord b.stack b.agent b.lane, s.groups.flatMap s.groupMoves, s.busyCores.flatMap coreMoves,
    s.cores.flatMap fun p => s.commandMove p.1, (List.range 16).flatMap s.dieMoves]

/-- The work of the masthead, of the homes and of the collectives that may move. -/
def State.pendingTail (s : State) : List Instr :=
  List.flatten [s.items.map fun p => Instr.engineCompletion p.1,
    s.waiters.flatMap fun p => [Instr.cwaitReply p.1, Instr.cwaitTimeout p.1, Instr.cwaitResend p.1],
    s.mcas.flatMap mcasMoves, s.ctxs.flatMap ctxMoves,
    s.grids.flatMap fun p => [Instr.clusterPlacement p.1, Instr.gridCompletion p.1],
    ((List.range 16).filter fun l => s.leaderOfDie l == l).flatMap s.gangMoves, s.colls.flatMap collMoves,
    (List.range 16).flatMap fun st => [Instr.scrubOnchip st, Instr.scrubFrame st], [Instr.budgetPeriod]]

/-- Every event that what is in flight may bring about, in one order; one whose condition does not hold changes nothing. -/
def State.pending (s : State) : List Instr := List.append s.pendingHead s.pendingTail

/-- One round: formations, two issues and a cycle of each slice and die, the pending events, a fabric cycle and a nanosecond. -/
def State.round (s : State) : List Move :=
  let slices : List (Nat × Nat) := s.busyCores.flatMap fun k => (List.range 4).map fun sl => (k, sl)
  List.flatten [slices.map fun p => Move.event (.bundleFormation p.1 p.2), slices.flatMap fun p => [Move.issue p.1 p.2, Move.issue p.1 p.2],
    (List.range 16).map Move.coreCycle, s.pending.map Move.event, [Move.fabricCycle, Move.nanosecond]]

end Sys2Proof.Machine
end

