-- ==== Sys2Proof/Machine/Step.lean ====
section
/-! DEFINITION. The step: the head of the agenda moves; an empty agenda is filled with a round (log 1). -/

namespace Sys2Proof.Machine

/-- Events are the rows that no slice issues. -/
def isEvent (i : Instr) : Bool :=
  match i with
  | .unassignedOpcode _ => false
  | i => i.shape.isNone

/-- An instruction that a slice issued from state `s` (R34, R52, R65, R354). -/
def afterIssue (s : State) (i : Instr) : Host.Outcome State Fault Refusal → Host.Outcome State Fault Refusal
  | .next t => .next (s.afterIssue t i)
  | .fault f => .fault f
  | .refused r => .refused r

/-- One move. -/
def perform (m : Move) (s : State) : Host.Outcome State Fault Refusal :=
  match m with
  | .event i => if isEvent i then exec i s else .next s
  | .issue k sl =>
    match s.beginIssue k sl with
    | .idle => .next s
    | .stop t => .next t
    | .run t i => afterIssue t i (exec i t)
  | .coreCycle d => .next (s.coreEdge d)
  | .fabricCycle => .next { s with fabric := s.fabric + 1 }
  | .nanosecond => .next s.tickNano
  | .setRoot st vf root => .next (s.setTableRoot st vf root)
  | .damageLine st line => .next (s.damage st line)
  | .damageBlock st level block => .next (s.damageBlock st level block)
  | .firmwareBytes st pa data => .next (s.firmwarePut st pa data)
  | .firmwareFrame st f key => .next (s.firmwareAssign st f key)
  | .firmwareSteward desc bind budget => .next (s.firmwareInstall desc bind budget)
  | .coreService k on => .next (s.coreService k on)

/-- One step of the machine. -/
def step (s : State) : Host.Outcome State Fault Refusal :=
  match s.agenda with
  | [] => .next { s with agenda := s.round }
  | m :: t => perform m { s with agenda := t }

/-- A group of one fibre on core 0 whose code is one line. -/
def probeGroup : Group :=
  { vf := 0, k := 0, vdie := 0, slot := 0, grid := 0, index := 0, gx := 0, gy := 0, gz := 0, clupos := 0, cap := 4,
    wins := 4, wsize := 256, codePtr := 0, codeLen := 64, trapEn := false, trapVec := 0, fslots := [],
    fibres := [(0, Fibre.fresh true 0 0 0 [] 0), (1, Fibre.fresh false 0 256 0 [] 0), (2, Fibre.fresh false 0 512 0 [] 0),
      (3, Fibre.fresh false 0 768 0 [] 0)],
    tilew := [], sregs := [], kregs := [], tiles := [], padLen := 0, padUnits := [], pad := [], absent := [], mxst := 0, binds := [],
    macros := [], acc := [], pair := .none, pairWait := none, pairSeq := 0, pools := [0, 0, 0, 0], halted := false, halting := false, latchTags := [], dead := false, evicted := false, ended := none,
    lastRetire := none, lateFaults := [], ipins := [], savedPorts := [], savedEng := [], pendExec := [] }

/-- The bundle of that group on slice 0. -/
def probeBundle : Bundle := ⟨0, 0, [0], [0], false, 0⟩

/-- s with an instruction as the next that slice 0 of core 0 issues: a running die, a resident group with one fibre,
the line of its code in the instruction cache with the word in slot 0, a standing bundle, and the issue at the head of
the agenda. It stands for launch, placement, line fill and formation (log 6). -/
def State.withFetchWord (s : State) (nbits w : Nat) : State :=
  let line := makeLine (BitVec.ofNat 96 (w % 2 ^ nbits)) nopSlot nopSlot nopSlot nopSlot 0 0x1F
  let s := s.modDie 0 fun d => { d with level := .l0 }
  let s := s.modCore 0 fun c =>
    { c with icache := [⟨0, 0, 0, line, false⟩], slices := tset c.slices 0 { Slice.empty with bundles := [probeBundle] } }
  { s.setGroup 0 probeGroup with agenda := [.issue 0 0] }

end Sys2Proof.Machine
end

