-- ==== Sys2Proof/Machine/Assemble.lean ====
section
/-! DEFINITION. The code that the assembler lays out (R77 to R79): labels and branch targets, lines with their masks and pairs,
the values of the directives, and data. The text of a source file (R73 to R76) stands outside: an item is an instruction already
written as its fields. -/

namespace Sys2Proof.Machine

/-! ### Branch targets (R61, R75, R80) -/

/-- DISP and TSLOT of a branch at one slot to another (R61); none where a target is no slot. -/
def branchTo (f : BFmt) (pc target : Nat) : Option BFmt :=
  (pcSlot target).map fun n =>
    { f with disp := BitVec.ofInt 30 (((target / 64 : Nat) : Int) - (pc / 64 : Nat)), tslot := BitVec.ofNat 3 n }

/-! ### Code (R79) -/

/-- One instruction of a kernel in source order. -/
structure SrcItem where
  i : Instr
  /-- a label, or the kernel's entry, stands before it -/
  label : Bool
  /-- .line or .align stands before it: bytes of the alignment, 64 for .line -/
  align : Option Nat
  deriving DecidableEq, Repr

/-- A slot of a line: its instruction, and whether its MASK bit is set. -/
structure SrcSlot where
  i : Instr
  target : Bool
  deriving DecidableEq, Repr

def isCall : Instr → Bool
  | .call _ => true
  | _ => false

/-- An unused slot (R79, Table 4.2). -/
def padSlot : SrcSlot := ⟨decodeFields nopSlot, false⟩

/-- Empty lines up to the next multiple of n bytes, from line number `at_`. -/
def skipLines (at_ n : Nat) : List (List SrcSlot) := List.replicate ((n / 64 - at_ % (n / 64)) % (n / 64)) []

/-- The lines of a kernel: those that are complete, then the open one. -/
def gather5 : List SrcItem → List (List SrcSlot) → List SrcSlot → List (List SrcSlot)
  | [], done, cur => if cur.isEmpty then done else done ++ [cur]
  | x :: t, done, cur =>
    let closed := if cur.isEmpty then done else done ++ [cur]
    let p := match x.align with
      | some n => (closed ++ skipLines closed.length n, [])
      | none => if cur.length = 5 then (closed, []) else (done, cur)
    gather5 t p.1 (p.2 ++ [⟨x.i, x.label⟩])

/-- The slot before slot i of line n holds a CALL: the slot of the same line, or the last one of the line before. -/
def afterCall (ls : List (List SrcSlot)) (n i : Nat) : Bool :=
  let slot (m j : Nat) : SrcSlot := (ls.getD m []).getD j padSlot
  if i = 0 then n != 0 && isCall (slot (n - 1) 4).i else isCall (slot n (i - 1)).i

/-- PAIR bit i of a line (R79). -/
def pairBit (l : List SrcSlot) (i : Nat) : Bool := leads (l.getD i padSlot).i (l.getD (i + 1) padSlot).i

/-- A bit vector of n bits, bit by bit. -/
def bitsOfFn (n : Nat) (f : Nat → Bool) : Nat := (List.range n).foldl (fun x i => x + if f i then 2 ^ i else 0) 0

/-- Line n of five slots (R47, R48, R79). -/
def lineOf (ls : List (List SrcSlot)) (n : Nat) : BitVec 512 :=
  let l := ls.getD n []
  let w (i : Nat) : Slot := (encode (l.getD i padSlot).i).getD nopSlot
  makeLine (w 0) (w 1) (w 2) (w 3) (w 4) (BitVec.ofNat 4 (bitsOfFn 4 (pairBit l)))
    (BitVec.ofNat 5 (bitsOfFn 5 fun i => (l.getD i padSlot).target || afterCall ls n i))

/-- The code of a kernel: its first instruction is its entry. -/
def layOut (src : List SrcItem) : List (BitVec 512) :=
  let marked := match src with
    | [] => []
    | x :: t => { x with label := true, align := none } :: t
  let ls := gather5 marked [] []
  (List.range ls.length).map (lineOf ls)

/-- The bytes of a code section, in storage order. -/
def codeBytes (ls : List (BitVec 512)) : List Byte := ls.flatMap fun l => leBytes 64 l.toNat

/-! ### Directives (R78) -/

/-- What a kernel declares. -/
structure KernelDesc where
  wsize : Nat
  cap : Nat
  wins : Nat
  init : Nat
  pad : Nat
  macros : Nat
  cluster : Nat
  fslots : List Nat
  deriving DecidableEq, Repr

/-- .regs, .fibres, .pad, .cluster and .formats with their defaults (Table 3.11). -/
def kernelDesc (regs : Option Nat) (fibres : Option (Nat × Option (Nat × Option Nat))) (pad : Option (Nat × Option Nat))
    (cluster : Option Nat) (formats : List Nat) : KernelDesc :=
  let c := fibres.elim 256 (·.1)
  let n := fibres.bind (·.2)
  { wsize := regs.getD 256, cap := c, wins := n.elim c (·.1), init := (n.bind (·.2)).getD c,
    pad := (pad.elim 0 (·.1) + 4095) / 4096 * 4096, macros := (pad.bind (·.2)).getD 0, cluster := cluster.getD 1,
    fslots := formats }

/-- The ranges of Table 3.11 and R19; a value outside is an assembly error. -/
def KernelDesc.ok (d : KernelDesc) : Bool :=
  d.wsize % 8 == 0 && decide (8 ≤ d.wsize) && decide (d.wsize ≤ 256) && d.cap % 4 == 0 && decide (4 ≤ d.cap) &&
  decide (d.cap ≤ 1024) && d.wins % 4 == 0 && decide (4 ≤ d.wins) && decide (d.wins ≤ d.cap) && decide (1 ≤ d.init) &&
  decide (d.init ≤ d.cap) && decide (d.pad ≤ 512 * 1024) && decide (d.macros ≤ 64) && decide (1 ≤ d.cluster) &&
  decide (d.cluster ≤ 16) && decide (d.fslots.length ≤ 8) && d.fslots.all fun x => decide (x < 2 ^ 16)

/-- A value of .word, .half, .byte, or of .bf16 as an exact fraction n / 2^e. -/
inductive DataVal where
  | word (v : Nat)
  | half (v : Nat)
  | byte (v : Nat)
  | bf16 (neg : Bool) (n : Nat) (e : Nat)
  deriving DecidableEq, Repr

def DataVal.bytes : DataVal → List Byte
  | .word v => leBytes 4 v
  | .half v => leBytes 2 v
  | .byte v => leBytes 1 v
  | .bf16 neg n e => leBytes 2 (Machine.bf16.round 0 neg n (-(e : Int))).1

/-- A data section (R78). -/
def dataBytes (vs : List DataVal) : List Byte := vs.flatMap DataVal.bytes

end Sys2Proof.Machine
end

