-- ==== Sys2Proof/Safety.lean ====
section
/-! DEFINITION. The terms in which the claims speak: a sound state, a step that goes on, an instruction whose operands are at
hand, and what the end of an instruction leaves. -/

namespace Sys2Proof.Machine

/-- Both byte stores are in canonical form. -/
def State.memWf (s : State) : Bool := Memory.wf s.mem && Memory.wf s.pin

/-- The machine goes on from a state: its step stops on neither a fault nor a refusal. -/
def State.goesOn (s : State) : Prop := ∃ t, step s = .next t

/-- n steps one after another that all answer a next state. -/
def State.steps : Nat → State → Option State
  | 0, s => some s
  | n + 1, s =>
    match step s with
    | .next t => State.steps n t
    | _ => none

/-! ### An instruction that a bundle issues -/

/-- A fibre of a group, where both exist. -/
def State.fibre? (s : State) (gid f : Nat) : Option Fibre := (s.group? gid).bind fun g => tfind g.fibres f

/-- Bundle `c` of group `g` issues instruction `i` of shape `h` with its operands at hand: the shape names no register
past the window (R58), no queue read has to wait or faults (R272, R302), and no live fibre reads a latch whose data is
lost (R68). `u` is the state after the queue reads. -/
structure Ready (i : Instr) (s u : State) (c : Cur) (g : Group) (h : Shape) : Prop where
  cur : s.cur = some c
  shape : i.shape = some h
  window : ∃ g0, s.group? c.gid = some g0 ∧ pastWindow h g0.wsize = false
  queues : s.popAll c h.ctl (waitQueuesOf h) c.en = (u, .ok [])
  group : u.group? c.gid = some g
  operands : ∀ f ∈ g.executing c, ∀ b, tfind g.fibres f = some b → b.guard h.ctl = true →
    ∃ x, laneOperands u c g h f b = .ok x

/-- The operands of a fibre, if it executes the instruction with its guard true. -/
def argsOf (u : State) (c : Cur) (g : Group) (h : Shape) (f : Nat) (b : Fibre) : Option LaneIn :=
  if f ∈ g.executing c ∧ b.guard h.ctl = true then
    match laneOperands u c g h f b with
    | .ok x => some x
    | .error _ => none
  else none

/-! ### What an instruction writes in a fibre (R55, R59, R86) -/

/-- Register n of a fibre after a result: a v destination takes the value, 32 bits in each register of its group, unless
WBS keeps it from the register file; a second destination takes its own. -/
def regAfter (h : Shape) (b : Fibre) (o : LaneOut) (n : Nat) : Word :=
  let d := h.dst.1
  let k := n - d.num.toNat
  match o.val2, o.val with
  | some y, some x =>
    if hasDst2 h.oe.1 h.oe.2 = true ∧ n = h.oe.1.num.toNat then BitVec.ofNat 32 y
    else if d.kind = .vreg ∧ d.wbs = false ∧ d.num.toNat ≤ n ∧ k < dstRegs h.dst.2 then BitVec.ofNat 32 (x / 2 ^ (32 * k))
    else b.v n
  | some y, none => if hasDst2 h.oe.1 h.oe.2 = true ∧ n = h.oe.1.num.toNat then BitVec.ofNat 32 y else b.v n
  | none, some x =>
    if d.kind = .vreg ∧ d.wbs = false ∧ d.num.toNat ≤ n ∧ k < dstRegs h.dst.2 then BitVec.ofNat 32 (x / 2 ^ (32 * k))
    else b.v n
  | none, none => b.v n

/-- Predicate n of a fibre after a result: p15 stays true, whatever is written to it. -/
def predAfter (h : Shape) (b : Fibre) (o : LaneOut) (n : Nat) : Bool :=
  if n = 15 then true
  else
    match o.p2 with
    | some q => if hasDst2 h.oe.1 h.oe.2 = true ∧ n = h.oe.1.num.toNat then q else first
    | none => first
where
  /-- before the second destination is written: V2P's mask, else a predicate destination -/
  first : Bool :=
    match o.pw with
    | some (m, x) => if m.testBit n = true ∧ n < 15 then x.testBit n else plain
    | none => plain
  plain : Bool :=
    match o.p with
    | some q => if h.dst.1.kind = .pred ∧ n = h.dst.1.num.toNat then q else b.p n
    | none => b.p n

/-- Fibre `b'` is fibre `b` with a result written: registers, predicates and flags, and no more. A helper raises no flag. -/
structure Wrote (h : Shape) (b b' : Fibre) (o : LaneOut) : Prop where
  regs : ∀ n, b'.v n = regAfter h b o n
  preds : ∀ n, n < 16 → b'.p n = predAfter h b o n
  fpst : b'.fpst = if b.live then b.fpst ||| BitVec.ofNat 32 (o.flags % 32) else b.fpst

/-- From `u` to `t` only fibres of one group change, and bundles and latches of its core: memory, every other group, every
part of the group but its fibres, every part of a core but its slices, and all the rest of the machine stay. -/
structure FibresOnly (u t : State) (gid : Nat) (g : Group) : Prop where
  rest : t = { u with groups := t.groups, cores := t.cores }
  cores : ∀ k, t.core k = { u.core k with slices := (t.core k).slices }
  groups : ∀ j, j ≠ gid → t.group? j = u.group? j
  group : ∃ g', t.group? gid = some g' ∧ g' = { g with fibres := g'.fibres }
  bytes : ∀ a, memByte t.mem a = memByte u.mem a ∧ memByte t.pin a = memByte u.pin a

/-- The instruction ends in `t`: each fibre that executes it with its guard true receives its result, every executing live
fibre goes to its own PC, and nothing else of any fibre changes. -/
structure Ends (u t : State) (c : Cur) (g : Group) (h : Shape) (res : LaneIn → LaneOut) (pcOf : Nat → Nat) : Prop where
  frame : FibresOnly u t c.gid g
  fibres : ∀ f b, tfind g.fibres f = some b → ∃ b', t.fibre? c.gid f = some b' ∧
    b' = { b with regs := b'.regs, preds := b'.preds, fpst := b'.fpst, pc := b'.pc, popped := b'.popped } ∧
    (match argsOf u c g h f b with
     | some x => Wrote h b b' (res x)
     | none => b'.regs = b.regs ∧ b'.preds = b.preds ∧ b'.fpst = b.fpst) ∧
    (b.live = true → b'.pc = if f ∈ g.executing c then BitVec.ofNat 32 (pcOf f) else b.pc)

/-- R66: what the fibres of an instruction with CAP write to its latch. A fibre whose instruction waited on a queue writes
its data only if the latch was not cleared since that instruction first issued; where all can, the tag is theirs. -/
def Captured (u t : State) (c : Cur) (g : Group) (h : Shape) (res : LaneIn → LaneOut) : Prop :=
  h.dst.1.cap = true → h.dst.1.kind = .vreg →
    let l := tget Latch.empty (t.slice c.k c.sl).latches h.ctl.latch.toNat
    ((∀ f b x, tfind g.fibres f = some b → argsOf u c g h f b = some x → u.stillOpen c.k b = true) →
      l.valid = true ∧ l.tag = some (c.gid, h.dst.1.num.toNat, h.dst.1.wbs)) ∧
    ∀ f b x v, tfind g.fibres f = some b → argsOf u c g h f b = some x → (res x).val = some v →
      u.stillOpen c.k b = true → tfind l.data f = some (v % 2 ^ 64)

/-- No live fibre raises a flag whose enable is set (R87). -/
def NoTrap (u : State) (c : Cur) (g : Group) (h : Shape) (res : LaneIn → LaneOut) : Prop :=
  ∀ f b x, tfind g.fibres f = some b → argsOf u c g h f b = some x → b.live = true → b.enables &&& (res x).flags = 0

end Sys2Proof.Machine
end

