-- ==== Sys2Proof/Certificates/Slice0/Obligations.lean ====
section
/-! DEFINITION. The statements for the provers, with the tables of results that they speak of: what each instruction writes,
in the terms of the rules of spec/. -/

namespace Sys2Proof.Claims

open Sys2Proof Sys2Proof.Machine

/-! ### What an instruction that each fibre computes alone leaves -/

/-- A legal instruction with its operands at hand: it ends with every executing fibre's result one that `m` admits for its
operands: the results are written, captures made, the fibres stand at the next slot, and nothing else changes. -/
def Computes (i : Instr) (m : LaneIn → LaneOut → Prop) : Prop :=
  i.decodeTrap = none → ∀ s u c g h, Ready i s u c g h → ∃ t res, (∀ x, m x (res x)) ∧ exec i s = .next t ∧
    Ends u t c g h res (fun _ => seqPc c.pc) ∧ Captured u t c g h res

/-- A value under type code t goes to the destination as Put of R105 has it: its low bits, and above them in a register of
a narrower type the sign or zeros. -/
def Written (t : Nat) (v : Int) (o : LaneOut) : Prop :=
  ∃ y : Nat, o = { val := some y } ∧ (y : Int) % 2 ^ tyWidth t = v % 2 ^ tyWidth t ∧
    if tyWidth t < 32 ∧ tySigned t = true then
      y < 2 ^ 32 ∧ toSigned 32 y = toSigned (tyWidth t) (y % 2 ^ tyWidth t)
    else y < 2 ^ tyWidth t

/-- A word of w bits given bit by bit. -/
def Bits (w : Nat) (b : Nat → Bool) (o : LaneOut) : Prop :=
  ∃ y, o = { val := some y } ∧ y < 2 ^ w ∧ ∀ j, j < w → y.testBit j = b j

/-- Clamped to the type where MOD[3], .sat, is set (R105). -/
def clamp (sat : Bool) (t : Nat) (v : Int) : Int := if sat then min (max v (tyLo t)) (tyHi t) else v

/-- Bit j of IMM, sign-extended (R106). -/
def immBit (imm : BitVec 32) (j : Nat) : Bool := if j < 32 then imm.getLsbD j else imm.msb

/-- IMM as Get reads it under a type (R106). -/
def immT (t : Nat) (imm : BitVec 32) : Int := getT t (if tySigned t then narrow 64 imm.toInt else imm.toNat)

/-- The sum, product or extreme that R111 to R115 compute. -/
def arithmetic : Instr → Option (LaneIn → LaneOut → Prop)
  | .iadd f => some fun x =>
    Written f.ty (clamp (f.md.getLsbD 3) f.ty (negIf f.sa.om (getT f.ty x.a) + negIf f.sb.om (getT f.ty x.bb)))
  | .iaddImm f => some fun x =>
    Written f.ty (clamp (f.md.getLsbD 3) f.ty (negIf f.sa.om (getT f.ty x.a) + immT f.ty f.imm))
  | .isub f => some fun x => Written f.ty (clamp (f.md.getLsbD 3) f.ty (getT f.ty x.a - getT f.ty x.bb))
  | .imul f => some fun x =>
    Written f.ty ((getT f.ty x.a * getT f.ty x.bb) / if f.md.getLsbD 3 then 2 ^ tyWidth f.ty else 1)
  | .imulImm f => some fun x =>
    Written f.ty ((getT f.ty x.a * immT f.ty f.imm) / if f.md.getLsbD 3 then 2 ^ tyWidth f.ty else 1)
  | .imad f => some fun x =>
    Written f.ty (clamp (f.md.getLsbD 3) f.ty (getT f.ty x.a * getT f.ty x.bb + negIf f.sc.om (getT f.ty x.c)))
  | .imadw f => some fun x =>
    Written (f.ty + 1) (getT f.ty x.a * getT f.ty x.bb + negIf f.sc.om (getT (f.ty + 1) x.c))
  | .imin f => some fun x => Written f.ty (min (getT f.ty x.a) (getT f.ty x.bb))
  | .imax f => some fun x => Written f.ty (max (getT f.ty x.a) (getT f.ty x.bb))
  | .iabs f => some fun x => Written f.ty (clamp (f.md.getLsbD 3) f.ty |getT f.ty x.a|)
  | _ => none

/-- The bits that R116 computes. -/
def logic : Instr → Option (LaneIn → LaneOut → Prop)
  | .and f => some fun x => Bits (tyWidth f.ty) fun j => (x.a.testBit j ^^ f.sa.om) && (x.bb.testBit j ^^ f.sb.om)
  | .or f => some fun x => Bits (tyWidth f.ty) fun j => (x.a.testBit j ^^ f.sa.om) || (x.bb.testBit j ^^ f.sb.om)
  | .xor f => some fun x => Bits (tyWidth f.ty) fun j => (x.a.testBit j ^^ f.sa.om) ^^ (x.bb.testBit j ^^ f.sb.om)
  | .andn f => some fun x => Bits (tyWidth f.ty) fun j => (x.a.testBit j ^^ f.sa.om) && !(x.bb.testBit j ^^ f.sb.om)
  | .andImm f => some fun x => Bits (tyWidth f.ty) fun j => (x.a.testBit j ^^ f.sa.om) && immBit f.imm j
  | .orImm f => some fun x => Bits (tyWidth f.ty) fun j => (x.a.testBit j ^^ f.sa.om) || immBit f.imm j
  | .xorImm f => some fun x => Bits (tyWidth f.ty) fun j => (x.a.testBit j ^^ f.sa.om) ^^ immBit f.imm j
  | _ => none

/-- Bit j of a source as BFX reads it (R119): sign bits above a signed word, zeros above a natural one. -/
def bfxBit (t a j : Nat) : Bool := if j < tyWidth t then a.testBit j else tySigned t && a.testBit (tyWidth t - 1)

/-- Length of a field (R119, R120). -/
def fieldLen (t len : Nat) : Nat := min (len % 2 ^ 32 % 256) (tyWidth t)

/-- The bits that R117 to R121 shift, move and count. -/
def shifts : Instr → Option (LaneIn → LaneOut → Prop)
  | .shl f => some fun x => Bits (tyWidth f.ty) fun j => decide (x.bb % 2 ^ 32 ≤ j) && x.a.testBit (j - x.bb % 2 ^ 32)
  | .shr f => some fun x => Bits (tyWidth f.ty) fun j =>
    decide (x.bb % 2 ^ 32 + j < tyWidth f.ty) && x.a.testBit (x.bb % 2 ^ 32 + j)
  | .sar f => some fun x => Bits (tyWidth f.ty) fun j => x.a.testBit (min (x.bb % 2 ^ 32 + j) (tyWidth f.ty - 1))
  | .fshl f => some fun x =>
    let n := x.c % 2 ^ 32 % tyWidth f.ty
    Bits (tyWidth f.ty) fun j => if n ≤ j then x.a.testBit (j - n) else x.bb.testBit (tyWidth f.ty + j - n)
  | .bfx f => some fun x =>
    let p := x.bb % 2 ^ 32 % 256
    let m := fieldLen f.ty x.c
    Bits (tyWidth f.ty) fun j =>
      if j < m then bfxBit f.ty x.a (p + j) else decide (0 < m) && tySigned f.ty && bfxBit f.ty x.a (p + m - 1)
  | .bfi f => some fun x =>
    let p := x.c % 2 ^ 32 % 256
    let m := fieldLen f.ty x.oe.nat
    Bits (tyWidth f.ty) fun j => if p ≤ j ∧ j < p + m then x.bb.testBit (j - p) else x.a.testBit j
  | .popc f => some fun x o => o = { val := some ((List.range (tyWidth f.ty)).countP x.a.testBit) }
  | .clz f => some fun x o => ∃ n, o = { val := some n } ∧ n ≤ tyWidth f.ty ∧
    (∀ j, tyWidth f.ty - n ≤ j → j < tyWidth f.ty → x.a.testBit j = false) ∧
    (n < tyWidth f.ty → x.a.testBit (tyWidth f.ty - n - 1) = true)
  | .brev f => some fun x => Bits (tyWidth f.ty) fun j => x.a.testBit (tyWidth f.ty - 1 - j)
  | _ => none

/-- A condition of Table 7.6. -/
def Holds (cond : Nat) (x y : Int) : Prop :=
  (cond = 0 → x = y) ∧ (cond = 1 → x ≠ y) ∧ (cond = 2 → x < y) ∧ (cond = 3 → x ≤ y) ∧ (cond = 4 → x > y) ∧
    (cond = 5 → x ≥ y)

/-- A combine of Table 7.6. -/
def combined (comb : Nat) (c g : Bool) : Bool :=
  if comb = 1 then c && g else if comb = 2 then c || g else if comb = 3 then xor c g else c

/-- The predicates and choices that R122, R123, R128 and R129 write. -/
def choices : Instr → Option (LaneIn → LaneOut → Prop)
  | .iset f => some fun x o => ∃ c : Bool,
    (c = true ↔ Holds (bitsOf f.md.toNat 5 3) (getT f.ty x.a) (getT f.ty x.bb)) ∧
    o = { p := some (combined (bitsOf f.md.toNat 7 6) c (x.oe.nat == 1)) }
  | .isetImm f => some fun x o => ∃ c : Bool,
    (c = true ↔ Holds (bitsOf f.md.toNat 5 3) (getT f.ty x.a) (immT f.ty f.imm)) ∧ o = { p := some c }
  | .sel f => some fun x => Bits (tyWidth f.ty) fun j => if x.oe.nat = 1 then x.a.testBit j else x.bb.testBit j
  | .plop f => some fun x o =>
    o = { p := some (f.md.toNat.testBit (x.a + 2 * x.bb + 4 * x.c)), p2 := some (!f.md.toNat.testBit (x.a + 2 * x.bb + 4 * x.c)) }
  | .p2v f => some fun x => Bits 32 fun j =>
    let w := decide (j < 16) && x.b.p j
    if f.md.toNat.testBit 0 then (x.a.testBit j && !x.bb.testBit j) || (w && x.bb.testBit j) else w
  | .v2p _ => some fun x o => o = { pw := some (x.bb, x.a) }
  | .nop _ => some fun _ o => o = {}
  | _ => none


/-! ### Instructions whose results depend on the machine -/

/-- As `Computes`, under a condition on the state, with results that may depend on it. -/
def Yields (i : Instr) (cond : State → Cur → Group → Shape → Prop) (m : State → Cur → Group → LaneIn → LaneOut → Prop) :
    Prop :=
  i.decodeTrap = none → ∀ s u c g h, Ready i s u c g h → cond u c g h → ∃ t res, (∀ x, m u c g x (res x)) ∧
    exec i s = .next t ∧ Ends u t c g h res (fun _ => seqPc c.pc) ∧ Captured u t c g h res

/-- A live fibre of the bundle that executes with its guard true. -/
def acting (u : State) (c : Cur) (g : Group) (h : Shape) (f : Nat) : Bool :=
  (tfind g.fibres f).elim false fun b => b.live && (argsOf u c g h f b).isSome

/-- Those fibres, in ascending FIBID. -/
def actors (u : State) (c : Cur) (g : Group) (h : Shape) : List Nat := (g.executing c).filter (acting u c g h)

/-- KSTATEi (Table 1.5). -/
def kstate (k : KReg) : Nat := if k.armed then 2 ^ 31 + 2 ^ 16 * (k.expect % 2 ^ 11) + k.signed % 2 ^ 11 else 0

/-- The special registers of Tables 7.4 and 19.2 by number, as a fibre reads them. -/
def special (s : State) (g : Group) (f : Nat) (b : Fibre) (n : Nat) : Option Nat :=
  if n = 0x00 then some f
  else if n = 0x01 then some (f / 4)
  else if n = 0x02 then some (f / 32)
  else if n = 0x03 then some (tget 32 g.tilew (f / 32))
  else if n = 0x04 then some g.gx
  else if n = 0x05 then some g.gy
  else if n = 0x06 then some g.gz
  else if n = 0x07 then some g.clupos
  else if n < 0x10 then some (kstate (tget KReg.idle g.kregs (n - 8)))
  else if n = 0x10 then some b.fpst.toNat
  else if n = 0x11 then some g.mxst.toNat
  else if n = 0x12 then some ((s.die (g.k / 16)).time.ltime % 2 ^ 32)
  else if n = 0x40 then some ((s.ctx g.vf).parOnly.toNat * 2 ^ 9 + (s.ctx g.vf).steward.toNat * 2 ^ 8 + (s.ctx g.vf).sticky.toNat)
  else if n = 0x41 then some (b.trapCause.toNat % 256)
  else if n = 0x42 then some b.trapPc.toNat
  else if n = 0x43 then some b.trapInfo.toNat
  else if n = 0x44 then some b.trapMask.toNat
  else if n = 0x45 then some g.vdie
  else if n = 0x46 then some g.vf
  else if n = 0x80 then some (s.core g.k).mstcfg.toNat
  else none

/-- The status of a queue register (R318, R339). -/
def queueStatus (s : State) (k : Nat) (b : Fibre) (q : Nat) : Nat :=
  if q = 0 then b.card0.length
  else if q = 1 then b.card1.length
  else if q = 2 then b.card2.length
  else if q = 8 then min (s.core k).cmds.length 255 + 2 ^ 8 * min (s.core k).statuses.length 255
  else (tget ResPort.empty (s.core k).ports (q - 4)).fifo.length

/-- The immediate of MOVI: .b32 and .n64 take it with zeros above, .i64 with its sign (R125). -/
def moviValue (f : IFmt) : Nat := if f.md = 7 then (f.imm.signExtend 64).toNat else f.imm.toNat

/-- A pointer as LEA forms it (R126): the carry never reaches the buffer index. -/
def leaPointer (ptr : Nat) (off : Int) : Nat := ptr / 2 ^ 48 % 2 ^ 16 * 2 ^ 48 + (off % 2 ^ 48).toNat

/-- LEA's offset before it is narrowed (R126). -/
def leaOffset (md : BitVec 8) (ptr x : Nat) : Int := ((ptr % 2 ^ 48 : Nat) : Int) + getT (md.toNat % 8) x * 2 ^ (md.toNat / 8 % 4)

/-- The check of LEA.chk against the entry that the core's buffer cache holds (R126, R127). -/
def leaPasses (s : State) (k vf ptr : Nat) (n : Int) : Bool :=
  let e := s.cachedEntry k vf (ptrIdx ptr)
  s.usable vf (ptrIdx ptr) e && entOwner e == vf && decide (0 ≤ n ∧ n ≤ entLength e)

/-- What a LEA needs: with .chk, the entries in the buffer cache, and in the fault form, that the check of every live fibre
passes. -/
def LeaGoes (md : BitVec 8) (off : LaneIn → Nat) (form : Bool) (u : State) (c : Cur) (g : Group) (h : Shape) : Prop :=
  md.getLsbD 5 = true → ∀ f b x, tfind g.fibres f = some b → argsOf u c g h f b = some x →
    ((u.core c.k).bufEntry g.vf (ptrIdx (x.a % 2 ^ 64))).isSome = true ∧
    (b.live = true → form = false → leaPasses u c.k g.vf (x.a % 2 ^ 64) (leaOffset md (x.a % 2 ^ 64) (off x)) = true)

/-- What LEA writes. -/
def leaResult (md : BitVec 8) (off : LaneIn → Nat) (u : State) (c : Cur) (g : Group) (x : LaneIn) (o : LaneOut) : Prop :=
  let ptr := x.a % 2 ^ 64
  let n := leaOffset md ptr (off x)
  o = { val := some (leaPointer ptr n), p2 := if md.getLsbD 5 then some (leaPasses u c.k g.vf ptr n) else none }

/-- The instructions of Tables 7.2, 7.3 and 19.10 that read the machine's state, with what each needs and writes. -/
def reading : Instr → Option ((State → Cur → Group → Shape → Prop) × (State → Cur → Group → LaneIn → LaneOut → Prop))
  | .mfs f => some (fun u _ g _ => f.md = 0x80 → (u.ctx g.vf).steward = true,
      fun u _ g x o => ∀ v, special u g x.fib x.b f.md.toNat = some v → o = { val := some v })
  | .time f => some (fun _ _ _ _ => True, fun u c _ _ o =>
      let t := (u.die (c.k / 16)).time
      o = { val := some (if f.md.getLsbD 0 then (t.ltime * t.trate / 2 ^ 32 + t.toff) % 2 ^ 64 else t.ltime % 2 ^ 64) })
  | .qstat f => some (fun _ _ _ _ => True, fun u c _ x o => o = { val := some (queueStatus u c.k x.b (f.md.toNat % 16)) })
  | .mov f => if f.dst.kind = .vreg then some (fun _ _ _ _ => True, fun _ _ _ x o => o = { val := some x.a }) else none
  | .movi f => if f.dst.kind = .vreg then some (fun _ _ _ _ => True, fun _ _ _ _ o => o = { val := some (moviValue f) }) else none
  | .lea f => some (LeaGoes f.md LaneIn.bb f.oe.om, leaResult f.md LaneIn.bb)
  | .leaImm f => some (LeaGoes f.md (fun _ => f.imm.toNat) false, leaResult f.md fun _ => f.imm.toNat)
  | _ => none

/-! ### Queue pushes -/

/-- The bytes that one fibre pushes to a queue register: how many, and the value whose low bytes they are (R124, R125, R273). -/
def pushOf : Instr → Option (Nat × (LaneIn → Nat))
  | .mov f => some (if f.md.getLsbD 3 then 16 else if f.md.toNat % 4 = 3 then 8 else 4, LaneIn.a)
  | .movi f => some (if f.md.toNat % 4 = 3 then 8 else 4, fun _ => moviValue f)
  | .qwr _ => some (16, LaneIn.a)
  | _ => none

/-- From fibre `b` to `b'` nothing changes but the card buffers, the PC and what a queue read left. -/
def CardsOnly (b b' : Fibre) : Prop :=
  b' = { b with card0 := b'.card0, card1 := b'.card1, card2 := b'.card2, pc := b'.pc, popped := b'.popped }

/-- Where a live fibre stands after an instruction that every executing fibre passes. -/
def passes (c : Cur) (g : Group) (f : Nat) (b : Fibre) : Word :=
  if f ∈ g.executing c then BitVec.ofNat 32 (seqPc c.pc) else b.pc

/-! ### Transfers, birth, end and waiting -/

/-- Where R132 sends a fibre: its target if its guard is true, else the slot in sequence. -/
def nextOf (target : LaneIn → Nat) (u : State) (c : Cur) (g : Group) (h : Shape) (f : Nat) : Nat :=
  match (tfind g.fibres f).bind fun b => if b.live then argsOf u c g h f b else none with
  | some x => target x
  | none => seqPc c.pc

/-- BRA, BRX, CALL and RET: the target in a fibre, UNI, and what CALL links. -/
def transferOf (c : Cur) : Instr → Option ((LaneIn → Nat) × Bool × Bool)
  | .bra f => some (fun _ => slotPc (f.target c.pc), f.uni, false)
  | .brx f => some (fun x => x.a % 2 ^ 32, f.md.getLsbD 0, false)
  | .call f => some (fun _ => slotPc (f.target c.pc), f.uni, true)
  | .ret f => some (fun x => x.a % 2 ^ 32, f.md.getLsbD 0, false)
  | _ => none

/-- The fibres of the bundle agree on where they go (R132). -/
def Agree (next : Nat → Nat) (c : Cur) : Prop := ∀ a ∈ c.en, ∀ b ∈ c.en, next a = next b

/-- From `u` to `t` every fibre of the group becomes what `new` says, but for its PC and what a queue read left; the live ones
that execute stand at the next slot. -/
structure Passes (u t : State) (c : Cur) (g : Group) (new : Nat → Fibre → Fibre) : Prop where
  frame : FibresOnly u t c.gid g
  fibres : ∀ f b, tfind g.fibres f = some b → ∃ b', t.fibre? c.gid f = some b' ∧
    b' = { new f b with pc := b'.pc, popped := b'.popped } ∧ (b.live = true → b'.pc = passes c g f b)

/-- A trap entered by some fibres (R315): their state is recorded, they are in-trap and stand at TRAPVEC; no other live fibre
of the group moves or changes, and the data of the slice's latches is cleared. `lane` numbers the fibres. -/
structure EnteredAs (lane : Nat → Nat) (u t : State) (c : Cur) (g : Group) (cs : Nat) (who marked : List Nat)
    (low : Nat → Nat) : Prop where
  frame : FibresOnly u t c.gid g
  fibres : ∀ f b, tfind g.fibres f = some b → ∃ b', t.fibre? c.gid f = some b' ∧
    if f ∈ who then
      b' = { b with inTrap := true, trapPc := BitVec.ofNat 32 c.pc, trapCause := BitVec.ofNat 32 cs,
                    trapInfo := BitVec.ofNat 32 (lane f % 32 * 2 ^ 24 + low f),
                    trapMask := BitVec.ofNat 32 (marked.foldl (fun m x => m ||| 2 ^ lane x) 0),
                    pc := BitVec.ofNat 32 g.trapVec, popped := b'.popped }
    else b' = { b with pc := b'.pc, popped := b'.popped } ∧ (b.live = true → b'.pc = b.pc)
  latches : ∀ x, (tget Latch.empty (t.slice c.k c.sl).latches x).data = []

/-- The same by bundle lanes. -/
def Entered (u t : State) (c : Cur) (g : Group) (cs : Nat) (who marked : List Nat) (low : Nat → Nat) : Prop :=
  EnteredAs c.lane u t c g cs who marked low

/-- What a trap needs to reach its vector (R315). -/
def MayTrap (u : State) (g : Group) (who : List Nat) : Prop :=
  g.trapEn = true ∧ u.validTarget g g.trapVec = true ∧
    ∀ f ∈ who, ∃ b, tfind g.fibres f = some b ∧ b.inTrap = false

/-- The code that TRAP n and BPT put into TRAPINFO, and their causes (R318, Table 19.8). -/
def softCode : Instr → Option (Nat × Nat)
  | .trap f => some (0x01, f.md.toNat)
  | .bpt _ => some (0x02, 0)
  | _ => none

/-- The n lowest free quad slots below C/4 (R20). -/
def lowestFree (g : Group) (n : Nat) : List Nat := ((List.range (g.cap / 4)).filter fun q => g.fibres.all fun p => p.1 / 4 != q).take n

/-- CanPlace(n) of R134: the slots are there, and four windows in the pool of each (R19). -/
def roomFor (g : Group) (n : Nat) : Prop :=
  (lowestFree g n).length = n ∧ ∀ q, q < 4 → 4 * ((lowestFree g n).countP fun sl => sl / 8 % 4 == q) ≤ g.pools.getD q 0

/-- From group `g` to `g'` n quads are created for one fibre (R20, R21, R134): in the n lowest free slots, each position live at
the target, v0 the argument, v1 its number among them, everything else of it zero; its accesses wait for what the creator's
group-scope release waits for (R21); nothing else of the group changes but the pools. -/
structure Created (g g' : Group) (n target : Nat) (arg fpst : Word) (after : List Nat) : Prop where
  rest : g' = { g with fibres := g'.fibres, pools := g'.pools }
  old : ∀ f, f / 4 ∉ lowestFree g n → tfind g'.fibres f = tfind g.fibres f
  fresh : ∀ j sl i, (lowestFree g n)[j]? = some sl → i < 4 → ∃ b, tfind g'.fibres (4 * sl + i) = some b ∧
    b.live = true ∧ b.pc = BitVec.ofNat 32 target ∧ b.preds = 0 ∧ b.fpst = fpst ∧ b.inTrap = false ∧ b.park = .none ∧
    b.v 0 = arg ∧ b.v 1 = BitVec.ofNat 32 (4 * j + i) ∧ (∀ m, 2 ≤ m → b.v m = 0) ∧ b.holdAll = after

/-- The FORK of the fibres of a bundle one after another (R134): each acting fibre that finds room creates its quads, and
its predicate says so; every other fibre's predicate is false. -/
inductive Forks (u : State) (c : Cur) (g0 : Group) (h : Shape) (n target : Nat) (fpst : Word) :
    Group → List Nat → Group → List (Nat × Bool) → Prop where
  | done (g : Group) : Forks u c g0 h n target fpst g [] g []
  | skip (g g' : Group) (f : Nat) (fs : List Nat) (ps : List (Nat × Bool)) :
      (acting u c g0 h f = false ∨ ¬ roomFor g n) → Forks u c g0 h n target fpst g fs g' ps →
      Forks u c g0 h n target fpst g (f :: fs) g' ((f, false) :: ps)
  | fork (g g1 g' : Group) (f : Nat) (fs : List Nat) (ps : List (Nat × Bool)) (b : Fibre) (x : LaneIn) :
      acting u c g0 h f = true → roomFor g n → tfind g0.fibres f = some b → argsOf u c g0 h f b = some x →
      Created g g1 n target (BitVec.ofNat 32 x.a) fpst (u.earlier c.gid f .grp) → Forks u c g0 h n target fpst g1 fs g' ps →
      Forks u c g0 h n target fpst g (f :: fs) g' ((f, true) :: ps)

/-- Nothing of the group waits at a convergence point. -/
def NoneConverging (g : Group) : Prop := ∀ p ∈ g.fibres, p.2.waiting = none

/-- NAP's count in a fibre (R137). -/
def napCount (x : LaneIn) : Nat := min (x.a % 2 ^ 32) 1048576

/-- What MTS writes in steward mode (R318): FPST per fibre, MXST and MSTCFG once, with the lowest acting fibre's value, CSTAT's
sticky bits by the ones of every fibre; a read-only register stays. `vals` gives each acting fibre's value. -/
def MtsWrites (u t : State) (c : Cur) (g : Group) (n : Nat) (vals : List (Nat × Word)) : Prop :=
  match vals with
  | [] => True
  | (_, w) :: _ =>
    (∀ f b v, tfind g.fibres f = some b → (f, v) ∈ vals → ∃ b', t.fibre? c.gid f = some b' ∧
      b'.fpst = if n = 0x10 then (b.fpst &&& 0xFFFFFFE0) ||| (v &&& 0x1F) else b.fpst) ∧
    (∃ g', t.group? c.gid = some g' ∧ g'.mxst = if n = 0x11 then (g.mxst &&& 0xFFFFFFF0) ||| (w &&& 0xF) else g.mxst) ∧
    (t.core g.k).mstcfg = (if n = 0x80 then w &&& 0x0001FFFF else (u.core g.k).mstcfg) ∧
    (t.ctx g.vf).sticky = if n = 0x40 then vals.foldl (fun m p => m &&& ~~~(p.2.setWidth 4)) (u.ctx g.vf).sticky
      else (u.ctx g.vf).sticky

/-- The record of R313 and Table 19.9, field by field, as 64 bytes. -/
def recordBytes (cause vdie core pc group mask fib info eptr time lseq seq : Nat) : List Byte :=
  leBytes 2 cause ++ leBytes 1 vdie ++ leBytes 1 core ++ leBytes 4 pc ++ leBytes 4 group ++ leBytes 4 mask ++ leBytes 2 fib ++
  leBytes 2 0 ++ leBytes 4 info ++ leBytes 8 eptr ++ leBytes 8 time ++ leBytes 2 lseq ++ leBytes 6 0 ++ leBytes 8 seq ++ leBytes 8 0

/-- INFO of a fault's record (Table 19.8): the lowest lane in MASK above its code, but where the cause gives the whole word. -/
def infoOf (cs mask info : Nat) : Nat :=
  if cs = 0x2D ∨ cs = 0x20 ∨ cs = 0x2C then info
  else match (List.range 32).find? mask.testBit with
    | some j => j * 2 ^ 24 + info % 2 ^ 24
    | none => info

/-! ### Floating point -/

/-- Exponent and fraction field of a code (R81, R88), and its sign. -/
def expOf (F : Fmt) (c : Nat) : Nat := c / 2 ^ F.fr % 2 ^ F.ex
def fracOf (F : Fmt) (c : Nat) : Nat := c % 2 ^ F.fr
def negOf (F : Fmt) (c : Nat) : Prop := c / 2 ^ (F.ex + F.fr) % 2 = 1

/-- IEEE codes: infinities, NaNs, signalling NaNs (R81). -/
def IsInf (F : Fmt) (c : Nat) : Prop := expOf F c = 2 ^ F.ex - 1 ∧ fracOf F c = 0
def IsNan (F : Fmt) (c : Nat) : Prop := expOf F c = 2 ^ F.ex - 1 ∧ fracOf F c ≠ 0
def IsSnan (F : Fmt) (c : Nat) : Prop := IsNan F c ∧ fracOf F c < 2 ^ (F.fr - 1)

/-- The value of any other code (R88). -/
noncomputable def valueOf (F : Fmt) (c : Nat) : ℝ :=
  open Classical in
  (if negOf F c then -1 else 1) *
    if expOf F c = 0 then (fracOf F c : ℝ) * 2 ^ (1 - (F.bias : ℤ) - F.fr)
    else ((2 ^ F.fr + fracOf F c : Nat) : ℝ) * 2 ^ ((expOf F c : ℤ) - F.bias - F.fr)

/-- A code on the extended line, for comparisons: -0 equals +0. -/
noncomputable def lineOf (F : Fmt) (c : Nat) : EReal :=
  open Classical in if IsInf F c then (if negOf F c then ⊥ else ⊤) else ((valueOf F c : ℝ) : EReal)

/-- A code with a sign. -/
noncomputable def signed (F : Fmt) (neg : Prop) (mag : Nat) : Nat :=
  open Classical in (if neg then 2 ^ (F.ex + F.fr) else 0) + mag

/-- The magnitudes of infinity, of the largest finite value and of the default NaN (Table 5.1). -/
def infMag (F : Fmt) : Nat := (2 ^ F.ex - 1) * 2 ^ F.fr
def maxMag (F : Fmt) : Nat := infMag F - 1
def defaultNan (F : Fmt) : Nat := infMag F + 2 ^ (F.fr - 1)

/-- RoundInt of a magnitude whose value has the sign `neg` (R83, Table 5.2). -/
def RoundsInt (mode : Nat) (neg : Prop) (x : ℝ) (n : Nat) : Prop :=
  (mode = 0 → |x - n| < 1 / 2 ∨ (|x - n| = 1 / 2 ∧ n % 2 = 0)) ∧
  (mode = 1 ∨ (mode = 2 ∧ neg) ∨ (mode = 3 ∧ ¬ neg) → (n : ℝ) ≤ x ∧ x < n + 1) ∧
  ((mode = 2 ∧ ¬ neg) ∨ (mode = 3 ∧ neg) → x ≤ n ∧ (n : ℝ) - 1 < x)

/-- Whether an overflow gives an infinity (Table 5.3). -/
def OverInf (mode : Nat) (neg : Prop) : Prop := mode = 0 ∨ (mode = 2 ∧ ¬ neg) ∨ (mode = 3 ∧ neg)

/-- Round of R83 for a nonzero magnitude v with a sign, in a format whose largest finite magnitude code is `top`: the code
and its flags; `Over` says what an overflow gives. -/
def RoundsIn (F : Fmt) (top : Nat) (Over : Nat → Prop) (mode : Nat) (neg : Prop) (v : ℝ) (r : Nat × Nat) : Prop :=
  ∃ (e : ℤ) (n : Nat), 1 - (F.bias : ℤ) ≤ e ∧ v < 2 ^ (e + 1) ∧ (2 ^ e ≤ v ∨ e = 1 - (F.bias : ℤ)) ∧
    RoundsInt mode neg (v / 2 ^ (e - F.fr)) n ∧
    (valueOf F top < n * 2 ^ (e - F.fr) → Over r.1 ∧ r.2 = 5) ∧
    (n * 2 ^ (e - F.fr) ≤ valueOf F top →
      (∃ mag, mag ≤ top ∧ r.1 = signed F neg mag ∧ valueOf F mag = n * 2 ^ (e - F.fr)) ∧
      (v = n * 2 ^ (e - F.fr) → r.2 = 0) ∧
      (v ≠ n * 2 ^ (e - F.fr) → r.2 = if v < 2 ^ (1 - (F.bias : ℤ)) then 3 else 1))

/-- The same in the formats of Table 5.1, with the overflows of Table 5.3. -/
def Rounds (F : Fmt) (mode : Nat) (neg : Prop) (v : ℝ) (r : Nat × Nat) : Prop :=
  RoundsIn F (maxMag F) (fun y => (OverInf mode neg → y = signed F neg (infMag F)) ∧
    (¬ OverInf mode neg → y = signed F neg (maxMag F))) mode neg v r

/-- The rounded value of a real, with the sign of an exact zero. -/
def RoundsTo (F : Fmt) (mode : Nat) (zneg : Prop) (v : ℝ) (r : Nat × Nat) : Prop :=
  (v = 0 → r = (signed F zneg 0, 0)) ∧ (v ≠ 0 → Rounds F mode (v < 0) |v| r)

/-- A NaN of format F, quieted, in format D (R84). -/
noncomputable def quieted (D F : Fmt) (c : Nat) : Nat :=
  signed D (negOf F c)
    (infMag D + ((if D.fr ≤ F.fr then fracOf F c / 2 ^ (F.fr - D.fr) else fracOf F c * 2 ^ (D.fr - F.fr)) ||| 2 ^ (D.fr - 1)))

/-- The NaN rule of R84 over operands in source order: the first NaN, quieted, and NV for a signalling one. -/
def FirstNan (D : Fmt) (ops : List (Fmt × Nat)) (r : Nat × Nat) : Prop :=
  (∃ (pre post : List (Fmt × Nat)) (o : Fmt × Nat), ops = pre ++ o :: post ∧ (∀ q ∈ pre, ¬ IsNan q.1 q.2) ∧ IsNan o.1 o.2 ∧
    r.1 = quieted D o.1 o.2) ∧
  ((∃ q ∈ ops, IsSnan q.1 q.2) → r.2 = 16) ∧ ((∀ q ∈ ops, ¬ IsSnan q.1 q.2) → r.2 = 0)

/-- Some operand is a NaN. -/
def AnyNan (ops : List (Fmt × Nat)) : Prop := ∃ q ∈ ops, IsNan q.1 q.2

/-- 0 * infinity. -/
def BadProduct (F : Fmt) (a b : Nat) : Prop :=
  (IsInf F a ∧ ¬ IsNan F b ∧ valueOf F b = 0 ∧ ¬ IsInf F b) ∨ (IsInf F b ∧ ¬ IsNan F a ∧ valueOf F a = 0 ∧ ¬ IsInf F a)

/-- A finite code. -/
def IsFin (F : Fmt) (c : Nat) : Prop := ¬ IsInf F c ∧ ¬ IsNan F c

open Classical in
/-- FADD of two codes (R142). -/
def Adds (F : Fmt) (mode a b : Nat) (r : Nat × Nat) : Prop :=
  (AnyNan [(F, a), (F, b)] → FirstNan F [(F, a), (F, b)] r) ∧
  (IsInf F a → IsInf F b → (negOf F a ↔ ¬ negOf F b) → r = (defaultNan F, 16)) ∧
  (IsInf F a → IsInf F b → (negOf F a ↔ negOf F b) → r = (a, 0)) ∧
  (IsInf F a → IsFin F b → r = (a, 0)) ∧ (IsFin F a → IsInf F b → r = (b, 0)) ∧
  (IsFin F a → IsFin F b →
    RoundsTo F mode (if (negOf F a ↔ negOf F b) then negOf F a else mode = 3) (valueOf F a + valueOf F b) r)

/-- The sign of a code inverted (R140). -/
def flipped (F : Fmt) (c : Nat) : Nat := c ^^^ 2 ^ (F.ex + F.fr)

/-- FSUB (R142): a NaN operand keeps its sign. -/
def Subtracts (F : Fmt) (mode a b : Nat) (r : Nat × Nat) : Prop :=
  (AnyNan [(F, a), (F, b)] → FirstNan F [(F, a), (F, b)] r) ∧ (¬ AnyNan [(F, a), (F, b)] → Adds F mode a (flipped F b) r)

/-- FMUL (R142). -/
def Multiplies (F : Fmt) (mode a b : Nat) (r : Nat × Nat) : Prop :=
  let neg := ¬ (negOf F a ↔ negOf F b)
  (AnyNan [(F, a), (F, b)] → FirstNan F [(F, a), (F, b)] r) ∧
  (BadProduct F a b → r = (defaultNan F, 16)) ∧
  (¬ AnyNan [(F, a), (F, b)] → ¬ BadProduct F a b → IsInf F a ∨ IsInf F b → r = (signed F neg (infMag F), 0)) ∧
  (IsFin F a → IsFin F b → RoundsTo F mode neg (valueOf F a * valueOf F b) r)

open Classical in
/-- FFMA (R143). -/
def MultiplyAdds (F : Fmt) (mode a b c : Nat) (r : Nat × Nat) : Prop :=
  let ops := [(F, a), (F, b), (F, c)]
  let neg := ¬ (negOf F a ↔ negOf F b)
  (AnyNan ops → ∃ q, FirstNan F ops q ∧ r.1 = q.1 ∧ (BadProduct F a b → r.2 = 16) ∧ (¬ BadProduct F a b → r.2 = q.2)) ∧
  (¬ AnyNan ops → BadProduct F a b → r = (defaultNan F, 16)) ∧
  (¬ AnyNan ops → ¬ BadProduct F a b → IsInf F a ∨ IsInf F b →
    (IsInf F c ∧ (neg ↔ ¬ negOf F c) → r = (defaultNan F, 16)) ∧
    (¬ (IsInf F c ∧ (neg ↔ ¬ negOf F c)) → r = (signed F neg (infMag F), 0))) ∧
  (IsFin F a → IsFin F b → IsInf F c → r = (c, 0)) ∧
  (IsFin F a → IsFin F b → IsFin F c →
    RoundsTo F mode (if (neg ↔ negOf F c) then neg else mode = 3) (valueOf F a * valueOf F b + valueOf F c) r)

/-- FDOT2 (R149). The spec states no sign of an exact zero sum of three terms; none is claimed. -/
def Dots (F : Fmt) (mode a0 a1 b0 b1 c : Nat) (r : Nat × Nat) : Prop :=
  let ops := [(F, a0), (F, a1), (F, b0), (F, b1), (fp32, c)]
  let bad := BadProduct F a0 b0 ∨ BadProduct F a1 b1
  let infs : List (Prop × Prop) := [(IsInf F a0 ∨ IsInf F b0, ¬ (negOf F a0 ↔ negOf F b0)),
    (IsInf F a1 ∨ IsInf F b1, ¬ (negOf F a1 ↔ negOf F b1)), (IsInf fp32 c, negOf fp32 c)]
  (AnyNan ops → ∃ q, FirstNan fp32 ops q ∧ r.1 = q.1 ∧ (bad → r.2 = 16) ∧ (¬ bad → r.2 = q.2)) ∧
  (¬ AnyNan ops → bad → r = (defaultNan fp32, 16)) ∧
  (¬ AnyNan ops → ¬ bad → (∃ p ∈ infs, ∃ q ∈ infs, p.1 ∧ q.1 ∧ p.2 ∧ ¬ q.2) → r = (defaultNan fp32, 16)) ∧
  (¬ AnyNan ops → ¬ bad → ¬ (∃ p ∈ infs, ∃ q ∈ infs, p.1 ∧ q.1 ∧ p.2 ∧ ¬ q.2) →
    (∃ p ∈ infs, p.1 ∧ p.2) → r = (signed fp32 True (infMag fp32), 0)) ∧
  (¬ AnyNan ops → ¬ bad → ¬ (∃ p ∈ infs, ∃ q ∈ infs, p.1 ∧ q.1 ∧ p.2 ∧ ¬ q.2) →
    (∃ p ∈ infs, p.1 ∧ ¬ p.2) → r = (infMag fp32, 0)) ∧
  (¬ AnyNan ops → (∀ p ∈ infs, ¬ p.1) →
    let v := valueOf F a0 * valueOf F b0 + valueOf F a1 * valueOf F b1 + valueOf fp32 c
    (v = 0 → (r.1 = 0 ∨ r.1 = signed fp32 True 0) ∧ r.2 = 0) ∧ (v ≠ 0 → Rounds fp32 mode (v < 0) |v| r))

/-- FMIN, FMAX (number = false), FMINN, FMAXN (R144, Table 9.3). -/
def Extreme (F : Fmt) (greater number : Bool) (a b : Nat) (r : Nat × Nat) : Prop :=
  let two := AnyNan [(F, a), (F, b)]
  (two → (number = true ∧ ¬ (IsNan F a ∧ IsNan F b)) →
    r.1 = (open Classical in if IsNan F a then b else a) ∧
    (IsSnan F a ∨ IsSnan F b → r.2 = 16) ∧ (¬ (IsSnan F a ∨ IsSnan F b) → r.2 = 0)) ∧
  (two → ¬ (number = true ∧ ¬ (IsNan F a ∧ IsNan F b)) → FirstNan F [(F, a), (F, b)] r) ∧
  (¬ two → r.2 = 0 ∧ (r.1 = a ∨ r.1 = b) ∧
    (greater = false → lineOf F r.1 = min (lineOf F a) (lineOf F b) ∧
      (lineOf F a = lineOf F b → (negOf F r.1 ↔ negOf F a ∨ negOf F b))) ∧
    (greater = true → lineOf F r.1 = max (lineOf F a) (lineOf F b) ∧
      (lineOf F a = lineOf F b → (negOf F r.1 ↔ negOf F a ∧ negOf F b))))

/-- FSET's condition and flags (Table 9.4). -/
def Compares (F : Fmt) (cond a b : Nat) (c : Bool) (flags : Nat) : Prop :=
  let un := IsNan F a ∨ IsNan F b
  (c = true ↔ (cond = 0 ∧ ¬ un ∧ lineOf F a = lineOf F b) ∨ (cond = 1 ∧ (un ∨ lineOf F a ≠ lineOf F b)) ∨
    (cond = 2 ∧ ¬ un ∧ lineOf F a < lineOf F b) ∨ (cond = 3 ∧ ¬ un ∧ lineOf F a ≤ lineOf F b) ∨
    (cond = 4 ∧ ¬ un ∧ lineOf F a > lineOf F b) ∨ (cond = 5 ∧ ¬ un ∧ lineOf F a ≥ lineOf F b) ∨
    (cond = 6 ∧ un) ∨ (cond = 7 ∧ ¬ un)) ∧
  ((IsSnan F a ∨ IsSnan F b ∨ (un ∧ 2 ≤ cond ∧ cond ≤ 5)) → flags = 16) ∧
  (¬ (IsSnan F a ∨ IsSnan F b ∨ (un ∧ 2 ≤ cond ∧ cond ≤ 5)) → flags = 0)

/-- FCLASS (Table 9.5). -/
def Classifies (F : Fmt) (a : Nat) (r : Nat × Nat) : Prop :=
  r.2 = 0 ∧ (IsSnan F a → r.1 = 2 ^ 0) ∧ (IsNan F a ∧ ¬ IsSnan F a → r.1 = 2 ^ 1) ∧
  (IsInf F a → (negOf F a → r.1 = 2 ^ 2) ∧ (¬ negOf F a → r.1 = 2 ^ 9)) ∧
  (IsFin F a → expOf F a ≠ 0 → (negOf F a → r.1 = 2 ^ 3) ∧ (¬ negOf F a → r.1 = 2 ^ 8)) ∧
  (expOf F a = 0 → fracOf F a ≠ 0 → (negOf F a → r.1 = 2 ^ 4) ∧ (¬ negOf F a → r.1 = 2 ^ 7)) ∧
  (expOf F a = 0 → fracOf F a = 0 → (negOf F a → r.1 = 2 ^ 5) ∧ (¬ negOf F a → r.1 = 2 ^ 6))

/-- FRND (R147). -/
def RoundsWhole (F : Fmt) (mode : Nat) (exact : Bool) (a : Nat) (r : Nat × Nat) : Prop :=
  (IsNan F a → FirstNan F [(F, a)] r) ∧ (IsInf F a → r = (a, 0)) ∧
  (IsFin F a → ∃ n : Nat, RoundsInt mode (negOf F a) |valueOf F a| n ∧ IsFin F r.1 ∧ (negOf F r.1 ↔ negOf F a) ∧
    r.1 < 2 ^ (F.ex + F.fr + 1) ∧ |valueOf F r.1| = n ∧
    (exact = true ∧ |valueOf F a| ≠ n → r.2 = 1) ∧ (¬ (exact = true ∧ |valueOf F a| ≠ n) → r.2 = 0))

/-- FSCALE (R148). -/
def Scales (F : Fmt) (mode : Nat) (n : Int) (a : Nat) (r : Nat × Nat) : Prop :=
  (IsNan F a → FirstNan F [(F, a)] r) ∧ (IsInf F a → r = (a, 0)) ∧
  (IsFin F a → RoundsTo F mode (negOf F a) (valueOf F a * 2 ^ n) r)

/-- FRCP (R150, Table 9.7). -/
def Reciprocal (F : Fmt) (mode a : Nat) (r : Nat × Nat) : Prop :=
  (IsNan F a → FirstNan F [(F, a)] r) ∧ (IsInf F a → r = (signed F (negOf F a) 0, 0)) ∧
  (IsFin F a → valueOf F a = 0 → r = (signed F (negOf F a) (infMag F), 8)) ∧
  (IsFin F a → valueOf F a ≠ 0 → Rounds F mode (negOf F a) |1 / valueOf F a| r)

/-- FSQRT (R150, Table 9.7). -/
def SquareRoot (F : Fmt) (mode a : Nat) (r : Nat × Nat) : Prop :=
  (IsNan F a → FirstNan F [(F, a)] r) ∧ (IsInf F a → ¬ negOf F a → r = (a, 0)) ∧
  (IsFin F a → valueOf F a = 0 → r = (a, 0)) ∧
  (¬ IsNan F a → negOf F a → ¬ (IsFin F a ∧ valueOf F a = 0) → r = (defaultNan F, 16)) ∧
  (IsFin F a → 0 < valueOf F a → Rounds F mode False (Real.sqrt (valueOf F a)) r)

/-- An operand of Table 9.1: element e of a register or constant, its sign inverted under OM (R139, R140). -/
def IsElement (F : Fmt) (x2 om : Bool) (v : OpVal) (e c : Nat) : Prop :=
  match v with
  | .bits x =>
    let y := if x2 then x / 2 ^ (16 * e) % 2 ^ 16 else x % 2 ^ (F.ex + F.fr + 1)
    c = if om then flipped F y else y
  | .const n => n < 64 → c < 2 ^ (F.ex + F.fr + 1) ∧ IsFin F c ∧ |valueOf F c| = n ∧ (negOf F c ↔ om = true)

/-- One or two elements in the result register, their flags ORed (R81, R86, R139). -/
def Packs (x2 : Bool) (r : Nat → Nat × Nat) (o : LaneOut) : Prop :=
  o = if x2 then { val := some ((r 0).1 + 2 ^ 16 * (r 1).1), flags := (r 0).2 ||| (r 1).2 }
    else { val := some (r 0).1, flags := (r 0).2 }

/-- An instruction of one operand, element by element. -/
def Unary (f : CFmt) (op : Fmt → Nat → Nat × Nat → Prop) (x : LaneIn) (o : LaneOut) : Prop :=
  ∃ r, Packs (fltX2 f.md) r o ∧ ∀ e, e < 2 → ∃ a, IsElement (fltFmt f.md) (fltX2 f.md) false x.opA e a ∧
    op (fltFmt f.md) a (r e)

/-- An instruction of two operands, element by element. -/
def Binary (f : CFmt) (op : Fmt → Nat → Nat → Nat × Nat → Prop) (x : LaneIn) (o : LaneOut) : Prop :=
  let F := fltFmt f.md
  let x2 := fltX2 f.md
  ∃ r, Packs x2 r o ∧ ∀ e, e < 2 → ∃ a b, IsElement F x2 f.sa.om x.opA e a ∧ IsElement F x2 f.sb.om x.opB e b ∧ op F a b (r e)

/-- The exponent of FSCALE for an element (R139, R148). -/
def scaleOf (x2 : Bool) (v : OpVal) (e : Nat) : Int :=
  match v with
  | .const n => n
  | .bits x => if x2 then toSigned 16 (x / 2 ^ (16 * e) % 2 ^ 16) else toSigned 32 (x % 2 ^ 32)

/-- The floating-point arithmetic of Table 9.2. -/
def floating : Instr → Option (LaneIn → LaneOut → Prop)
  | .fadd f => some (Binary f fun F => Adds F (fltRnd f.md))
  | .fsub f => some (Binary f fun F => Subtracts F (fltRnd f.md))
  | .fmul f => some (Binary f fun F => Multiplies F (fltRnd f.md))
  | .ffma f => some fun x o =>
    let F := fltFmt f.md
    let x2 := fltX2 f.md
    ∃ r, Packs x2 r o ∧ ∀ e, e < 2 → ∃ a b c, IsElement F x2 f.sa.om x.opA e a ∧ IsElement F x2 f.sb.om x.opB e b ∧
      IsElement F x2 f.sc.om x.opC e c ∧ MultiplyAdds F (fltRnd f.md) a b c (r e)
  | .fmin f => some (Binary f fun F => Extreme F false false)
  | .fmax f => some (Binary f fun F => Extreme F true false)
  | .fminn f => some (Binary f fun F => Extreme F false true)
  | .fmaxn f => some (Binary f fun F => Extreme F true true)
  | .fset f => some fun x o => ∃ a b, IsElement (fltFmt f.md) false false x.opA 0 a ∧
    IsElement (fltFmt f.md) false false x.opB 0 b ∧ ∃ c flags, Compares (fltFmt f.md) (bitsOf f.md.toNat 7 5) a b c flags ∧
      o = { p := some (combined (bitsOf f.md.toNat 1 0) c (x.oe.nat == 1)), flags := flags }
  | .fclass f => some (Unary f Classifies)
  | .frnd f => some (Unary f fun F => RoundsWhole F (fltRnd f.md) (f.md.getLsbD 5))
  | .fscale f => some fun x o => ∃ r, Packs (fltX2 f.md) r o ∧ ∀ e, e < 2 → ∃ a,
    IsElement (fltFmt f.md) (fltX2 f.md) false x.opA e a ∧
      Scales (fltFmt f.md) (fltRnd f.md) (scaleOf (fltX2 f.md) x.opB e) a (r e)
  | .fdot2 f => some fun x o =>
    let F := fltFmt f.md
    ∃ a0 a1 b0 b1 c r, IsElement F true f.sa.om x.opA 0 a0 ∧ IsElement F true f.sa.om x.opA 1 a1 ∧
      IsElement F true f.sb.om x.opB 0 b0 ∧ IsElement F true f.sb.om x.opB 1 b1 ∧ IsElement fp32 false f.sc.om x.opC 0 c ∧
      Dots F (fltRnd f.md) a0 a1 b0 b1 c r ∧ o = { val := some r.1, flags := r.2 }
  | .frcp f => some (Unary f fun F => Reciprocal F (fltRnd f.md))
  | .fsqrt f => some (Unary f fun F => SquareRoot F (fltRnd f.md))
  | _ => none

/-- Those that raise an enabled flag (R87). -/
def raisers (u : State) (c : Cur) (g : Group) (h : Shape) (res : LaneIn → LaneOut) : List Nat :=
  (actors u c g h).filter fun f => (tfind g.fibres f).any fun b =>
    (argsOf u c g h f b).any fun x => decide (b.enables &&& (res x).flags ≠ 0)

/-- The flags that a fibre would have raised. -/
def wouldRaise (u : State) (c : Cur) (g : Group) (h : Shape) (res : LaneIn → LaneOut) (f : Nat) : Nat :=
  (((tfind g.fibres f).bind (argsOf u c g h f)).map fun x => (res x).flags).getD 0

/-- A legal instruction with flags, its operands at hand: with no enabled flag raised it ends with the results, which `m`
admits; else it writes nothing and traps (R87). -/
def Evaluates (i : Instr) (m : LaneIn → LaneOut → Prop) : Prop :=
  i.decodeTrap = none → ∀ s u c g h, Ready i s u c g h → ∃ res, (∀ x, m x (res x)) ∧
    (NoTrap u c g h res → ∃ t, exec i s = .next t ∧ Ends u t c g h res (fun _ => seqPc c.pc) ∧ Captured u t c g h res) ∧
    (¬ NoTrap u c g h res → waitQueuesOf h = [] → MayTrap u g c.en → ∃ t, exec i s = .next t ∧
      Entered u t c g 0x04 c.en (raisers u c g h res) (wouldRaise u c g h res))

/-! ### Special functions -/

/-- Table 9.7 and Table 9.8: the exact results of the six functions other than FRCP and FSQRT, by OPC[2:0]. -/
def Special (F : Fmt) (fn a : Nat) (r : Nat × Nat) : Prop :=
  (IsNan F a → FirstNan F [(F, a)] r) ∧
  (IsInf F a → ¬ negOf F a →
    (fn = 1 → r = (0, 0)) ∧ (fn = 3 ∨ fn = 4 → r = (infMag F, 0)) ∧ (fn = 5 → valueOf F r.1 = 1 ∧ IsFin F r.1 ∧ r.2 = 0) ∧
    (fn = 6 ∨ fn = 7 → r = (defaultNan F, 16))) ∧
  (IsInf F a → negOf F a →
    (fn = 3 → r = (0, 0)) ∧ (fn = 5 → valueOf F r.1 = -1 ∧ IsFin F r.1 ∧ r.2 = 0) ∧
    (fn = 1 ∨ fn = 4 ∨ fn = 6 ∨ fn = 7 → r = (defaultNan F, 16))) ∧
  (IsFin F a → valueOf F a = 0 →
    (fn = 1 → r = (signed F (negOf F a) (infMag F), 8)) ∧ (fn = 4 → r = (signed F True (infMag F), 8)) ∧
    (fn = 5 ∨ fn = 6 → r = (signed F (negOf F a) 0, 0)) ∧ (fn = 3 ∨ fn = 7 → valueOf F r.1 = 1 ∧ IsFin F r.1 ∧ r.2 = 0)) ∧
  (IsFin F a → valueOf F a < 0 → fn = 1 ∨ fn = 4 → r = (defaultNan F, 16)) ∧
  (∀ m : ℤ, IsFin F a →
    (fn = 1 → valueOf F a = 2 ^ (2 * m) → IsFin F r.1 ∧ valueOf F r.1 = 2 ^ (-m) ∧ r.2 = 0) ∧
    (fn = 3 → valueOf F a = m → 1 - (F.bias : ℤ) - F.fr ≤ m → m ≤ F.bias → IsFin F r.1 ∧ valueOf F r.1 = 2 ^ m ∧ r.2 = 0) ∧
    (fn = 4 → valueOf F a = 2 ^ m → IsFin F r.1 ∧ valueOf F r.1 = m ∧ r.2 = 0) ∧
    (fn = 6 → valueOf F a = m → m ≠ 0 → r = (signed F (m < 0) 0, 0)) ∧
    (fn = 6 → valueOf F a = m + 1 / 2 → IsFin F r.1 ∧ valueOf F r.1 = (if m % 2 = 0 then 1 else -1) ∧ r.2 = 0) ∧
    (fn = 7 → valueOf F a = m → IsFin F r.1 ∧ valueOf F r.1 = (if m % 2 = 0 then 1 else -1) ∧ r.2 = 0) ∧
    (fn = 7 → valueOf F a = m + 1 / 2 → r = (0, 0)))

/-- The operands that Tables 9.7 and 9.8 give an exact result. -/
def Tabled (F : Fmt) (fn a : Nat) : Prop :=
  ¬ IsFin F a ∨ valueOf F a = 0 ∨ (valueOf F a < 0 ∧ (fn = 1 ∨ fn = 4)) ∨
  ∃ m : ℤ, (fn = 1 ∧ valueOf F a = 2 ^ (2 * m)) ∨
    (fn = 3 ∧ valueOf F a = m ∧ 1 - (F.bias : ℤ) - F.fr ≤ m ∧ m ≤ F.bias) ∨ (fn = 4 ∧ valueOf F a = 2 ^ m) ∨
    ((fn = 6 ∨ fn = 7) ∧ (valueOf F a = m ∨ valueOf F a = m + 1 / 2))

/-- R152: the flags of every other result. -/
def Inexact (F : Fmt) (fn a : Nat) (r : Nat × Nat) : Prop :=
  ¬ Tabled F fn a → ¬ IsNan F r.1 ∧ r.1 < 2 ^ (F.ex + F.fr + 1) ∧
    (IsInf F r.1 → fn = 3 ∧ ¬ negOf F r.1 ∧ r.2 = 5) ∧
    (IsFin F r.1 → r.2 = if expOf F r.1 = 0 then 3 else 1)

/-- The six functions, by OPC[2:0]. -/
def sfu : Instr → Option (Nat × CFmt)
  | .frsq f => some (1, f)
  | .fexp2 f => some (3, f)
  | .flog2 f => some (4, f)
  | .ftanh f => some (5, f)
  | .fsinpi f => some (6, f)
  | .fcospi f => some (7, f)
  | _ => none

/-! ### Conversions -/

/-- y is v under type code t, as Put writes it (R105). -/
def PutAs (t : Nat) (v : Int) (y : Nat) : Prop := Written t v { val := some y }

/-- A floating type code of Table 9.10, and whether it is packed. -/
def codeFmt (code : Nat) : Fmt := if code = 8 then fp32 else if code = 9 ∨ code = 11 then fp16 else bf16

/-- One element from one format to another (Table 5.9, R84). -/
def Converts (S D : Fmt) (mode a : Nat) (r : Nat × Nat) : Prop :=
  (IsNan S a → FirstNan D [(S, a)] r) ∧ (IsInf S a → r = (signed D (negOf S a) (infMag D), 0)) ∧
  (IsFin S a → RoundsTo D mode (negOf S a) (valueOf S a) r)

/-- Float to integer (Table 5.9). -/
def ToInteger (S : Fmt) (mode t a : Nat) (v : Int) (flags : Nat) : Prop :=
  (IsNan S a → v = 0 ∧ flags = 16) ∧ (IsInf S a → (negOf S a → v = tyLo t) ∧ (¬ negOf S a → v = tyHi t) ∧ flags = 16) ∧
  (IsFin S a → ∃ n : Nat, RoundsInt mode (negOf S a) |valueOf S a| n ∧ ∃ w : Int,
    (negOf S a → w = -(n : Int)) ∧ (¬ negOf S a → w = n) ∧ v = max (tyLo t) (min (tyHi t) w) ∧
    (v ≠ w → flags = 16) ∧ (v = w → (valueOf S a = w → flags = 0) ∧ (valueOf S a ≠ w → flags = 1)))

/-- CVT (R154, R155, Table 9.11), by the kinds of its destination and source codes. -/
def Converted (f : CFmt) (x : LaneIn) (o : LaneOut) : Prop :=
  let d := bitsOf f.md.toNat 7 4
  let s := bitsOf f.md.toNat 3 0
  let mode := f.sb.num.toNat % 4
  (d < 8 → s < 8 → ∃ y, o = { val := some y } ∧ PutAs d (clamp true d (getT s x.a)) y) ∧
  (8 ≤ d → s < 8 → ∃ r, o = { val := some r.1, flags := r.2 } ∧ RoundsTo (codeFmt d) mode False (getT s x.a : ℤ) r) ∧
  (d < 8 → 8 ≤ s → ∃ a v y flags, IsElement (codeFmt s) false false x.opA 0 a ∧ ToInteger (codeFmt s) mode d a v flags ∧
    PutAs d v y ∧ o = { val := some y, flags := flags }) ∧
  (8 ≤ d → d < 11 → 8 ≤ s → s < 11 → ∃ a r, IsElement (codeFmt s) false false x.opA 0 a ∧
    Converts (codeFmt s) (codeFmt d) mode a r ∧ o = { val := some r.1, flags := r.2 }) ∧
  (11 ≤ d → s = 8 → ∃ a0 a1 r, IsElement fp32 false false x.opA 0 a0 ∧ IsElement fp32 false false x.opC 0 a1 ∧
    Converts fp32 (codeFmt d) mode a0 (r 0) ∧ Converts fp32 (codeFmt d) mode a1 (r 1) ∧ Packs true r o) ∧
  (d = 8 → 11 ≤ s → ∃ a0 a1 r0 r1, IsElement (codeFmt s) true false x.opA 0 a0 ∧ IsElement (codeFmt s) true false x.opA 1 a1 ∧
    Converts (codeFmt s) fp32 mode a0 r0 ∧ Converts (codeFmt s) fp32 mode a1 r1 ∧
    o = { val := some (r0.1 + 2 ^ 32 * r1.1), flags := r0.2 ||| r1.2 }) ∧
  (11 ≤ d → 11 ≤ s → ∃ (a : Nat → Nat) (r : Nat → Nat × Nat), (∀ e, e < 2 → IsElement (codeFmt s) true false x.opA e (a e) ∧
    Converts (codeFmt s) (codeFmt d) mode (a e) (r e)) ∧ Packs true r o)

/-- An element code of Table 5.8, by its ELEM: NaN, infinity, signalling, value (R88). -/
def ElemNan (el c : Nat) : Prop := (el = 3 ∧ c % 128 = 127) ∨ (el = 4 ∧ 124 < c % 128)
def ElemInf (el c : Nat) : Prop := el = 4 ∧ c % 128 = 124
noncomputable def elemValue (el c : Nat) : ℝ :=
  if el = 5 then (toSigned 8 (c % 256) : ℤ) / 64
  else valueOf (if el = 0 then e2m1 else if el = 1 then e2m3 else if el = 2 then e3m2 else if el = 3 then e4m3 else e5m2)
    (c % if el = 0 then 16 else if el ≤ 2 then 64 else 256)
def elemNegative (el c : Nat) : Prop := c.testBit (if el = 0 then 3 else if el ≤ 2 then 5 else 7) = true

/-- CVTX (R96, R157). -/
def Expands (slot : Nat) (x : LaneIn) (o : LaneOut) : Prop :=
  let el := slot % 16
  let z : Nat := if slot.testBit 4 then x.bb % 256 else 127
  ∃ r, o = { val := some r.1, flags := r.2 } ∧
    (ElemNan el x.a ∨ z = 255 → r.1 = defaultNan fp32 ∧
      (el = 4 ∧ x.a % 128 = 125 → r.2 = 16) ∧ (¬ (el = 4 ∧ x.a % 128 = 125) → r.2 = 0)) ∧
    (ElemInf el x.a → z ≠ 255 → r = (signed fp32 (elemNegative el x.a) (infMag fp32), 0)) ∧
    (¬ ElemNan el x.a → ¬ ElemInf el x.a → z ≠ 255 →
      RoundsTo fp32 0 (el ≠ 5 ∧ elemNegative el x.a) (elemValue el x.a * 2 ^ ((z : ℤ) - 127)) r)

/-! ### Rod and quad exchange instructions -/

/-- The bundle's fibres are all the live fibres of [lo, lo + n), they stand at its PC with their operands at hand, and nothing
else of the group waits at a convergence point. -/
structure Converges (i : Instr) (s : State) (c : Cur) (g : Group) (h : Shape) (lo n : Nat) : Prop where
  cur : s.cur = some c
  shape : i.shape = some h
  group : s.group? c.gid = some g
  core : g.k = c.k
  slice : c.sl = lo / 32 % 4
  window : pastWindow h g.wsize = false
  queues : waitQueuesOf h = []
  running : g.ended = none ∧ g.halted = false ∧ g.pendExec = []
  keys : (g.fibres.map (·.1)).Pairwise (· < ·) ∧ ∀ p ∈ g.fibres, p.1 < 1024
  widths : ∀ r, tget 32 g.tilew r ∈ [2, 4, 8, 16, 32]
  whole : c.en = (g.liveIn lo n).map (·.1) ∧ c.en ≠ []
  stand : ∀ f ∈ c.en, ∀ b, tfind g.fibres f = some b → b.pc.toNat = c.pc
  free : NoneConverging g ∧ ∀ f ∈ g.executing c, ∀ b, tfind g.fibres f = some b → b.park = .none
  operands : ∀ f ∈ g.executing c, ∀ b, tfind g.fibres f = some b → ∃ l, readAll s c g f b h.srcs [] = .ok l

/-- The n-th source of a fibre. -/
def sourceOf (s : State) (c : Cur) (g : Group) (h : Shape) (f n : Nat) : OpVal :=
  match tfind g.fibres f with
  | some b =>
    match readAll s c g f b h.srcs [] with
    | .ok l => l.getD n (.const 0)
    | .error _ => .const 0
  | none => .const 0

/-- The fibres of a list whose guard is true: the active set of R158 where the list is a tile's. -/
def guarded (g : Group) (h : Shape) (fs : List Nat) : List Nat :=
  fs.filter fun f => (tfind g.fibres f).any fun b => b.guard h.ctl

/-- The end of a rod or quad exchange instruction: the fibres of `who` have their results, those of the bundle stand at the
next slot, the widths of tiles are `tw`, and nothing else has changed. -/
structure RodEnds (s t : State) (c : Cur) (g : Group) (h : Shape) (who : List Nat) (res : Nat → LaneOut) (tw : Nat → Nat) :
    Prop where
  rest : t = { s with groups := t.groups, cores := t.cores }
  cores : ∀ k, t.core k = { s.core k with slices := (t.core k).slices }
  groups : ∀ j, j ≠ c.gid → t.group? j = s.group? j
  group : ∃ g', t.group? c.gid = some g' ∧ g' = { g with fibres := g'.fibres, tilew := g'.tilew } ∧
    ∀ r, tget 32 g'.tilew r = tw r
  bytes : ∀ a, memByte t.mem a = memByte s.mem a ∧ memByte t.pin a = memByte s.pin a
  fibres : ∀ f b, tfind g.fibres f = some b → ∃ b', t.fibre? c.gid f = some b' ∧
    b' = { b with regs := b'.regs, preds := b'.preds, fpst := b'.fpst, pc := b'.pc, popped := b'.popped } ∧
    (f ∈ who → Wrote h b b' (res f)) ∧
    (f ∉ who → b'.regs = b.regs ∧ b'.preds = b.preds ∧ b'.fpst = b.fpst) ∧
    (b.live = true → b'.pc = if f ∈ c.en then BitVec.ofNat 32 (seqPc c.pc) else b.pc)
  latch : h.dst.1.cap = true → h.dst.1.kind = .vreg →
    let l := tget Latch.empty (t.slice c.k c.sl).latches h.ctl.latch.toNat
    l.tag = some (c.gid, h.dst.1.num.toNat, h.dst.1.wbs) ∧
    ∀ f ∈ who, ∀ v, (res f).val = some v → l.valid = true ∧ tfind l.data f = some (v % 2 ^ 64)

/-- The lane that SHFL reads, as a number that may lie outside the tile (R162). -/
def shuffled (md : BitVec 8) (w i k : Nat) : Int :=
  let mode := md.toNat % 4
  if mode = 3 then k % w
  else if mode = 2 then (if md.getLsbD 3 then ((i : Int) - k) % w else i - k)
  else if mode = 1 then (if md.getLsbD 3 then ((i : Int) + k) % w else i + k)
  else ((i ^^^ k : Nat) : Int)

/-- Op of R164 on FP32 codes. -/
def FloatOp (op mode l h : Nat) (r : Nat × Nat) : Prop :=
  (op = 0 → Adds fp32 mode l h r) ∧ (op = 1 → Extreme fp32 false false l h r) ∧ (op = 2 → Extreme fp32 true false l h r)

/-- Node of R164 on FP32 codes, a tree of depth d over the lanes from lo, with the flags of its Ops. -/
inductive Tree (op mode : Nat) (val : Nat → Option Nat) : Nat → Nat → Option (Nat × Nat) → Prop where
  | leaf (lo : Nat) : Tree op mode val 0 lo ((val lo).map (·, 0))
  | left (d lo : Nat) (l : Option (Nat × Nat)) :
      Tree op mode val d lo l → Tree op mode val d (lo + 2 ^ d) none → Tree op mode val (d + 1) lo l
  | right (d lo : Nat) (h : Option (Nat × Nat)) :
      Tree op mode val d lo none → Tree op mode val d (lo + 2 ^ d) h → Tree op mode val (d + 1) lo h
  | both (d lo : Nat) (l h q : Nat × Nat) :
      Tree op mode val d lo (some l) → Tree op mode val d (lo + 2 ^ d) (some h) → FloatOp op mode l.1 h.1 q →
      Tree op mode val (d + 1) lo (some (q.1, l.2 ||| h.2 ||| q.2))

/-- The fold of R166 on FP32 codes. -/
inductive Folds (op : Nat) : Nat × Nat → List Nat → Nat × Nat → Prop where
  | nil (r : Nat × Nat) : Folds op r [] r
  | cons (a q r : Nat × Nat) (x : Nat) (xs : List Nat) :
      FloatOp op 0 a.1 x q → Folds op (q.1, a.2 ||| q.2) xs r → Folds op a (x :: xs) r

/-- The integer type of RED and SCAN (Table 9.13) as a type code of Table 7.1. -/
def rodType (ty : Nat) : Nat := if ty = 1 then 6 else if ty = 2 then 3 else if ty = 3 then 7 else 2

/-- An integer reduction of a nonempty list (R164): the tree's shape does not show. -/
def Reduces (op t : Nat) (xs : List Nat) (o : LaneOut) : Prop :=
  (op = 0 → Written t ((xs.map (getT t)).sum) o) ∧
  (op = 1 → ∃ x ∈ xs, (∀ y ∈ xs, getT t x ≤ getT t y) ∧ Written t (getT t x) o) ∧
  (op = 2 → ∃ x ∈ xs, (∀ y ∈ xs, getT t y ≤ getT t x) ∧ Written t (getT t x) o) ∧
  (op = 3 → Bits (tyWidth t) (fun j => xs.all fun x => x.testBit j) o) ∧
  (op = 4 → Bits (tyWidth t) (fun j => xs.any fun x => x.testBit j) o) ∧
  (op = 5 → Bits (tyWidth t) (fun j => xs.countP (fun x => x.testBit j) % 2 == 1) o)

/-- The identities of Table 9.14. -/
def Identity (op ty : Nat) (o : LaneOut) : Prop :=
  if ty = 4 then
    o = { val := some (if op = 0 then 0 else if op = 1 then infMag fp32 else 2 ^ 31 + infMag fp32) }
  else
    (op = 1 → Written (rodType ty) (tyHi (rodType ty)) o) ∧ (op = 2 → Written (rodType ty) (tyLo (rodType ty)) o) ∧
    (op = 3 → Bits (tyWidth (rodType ty)) (fun _ => true) o) ∧ (op = 0 ∨ op = 4 ∨ op = 5 → o = { val := some 0 })

/-- Largest finite magnitude of an element format (Table 5.5), and what an overflow gives (R95). -/
def elemF (el : Nat) : Fmt := if el = 0 then e2m1 else if el = 1 then e2m3 else if el = 2 then e3m2 else if el = 3 then e4m3 else e5m2
def elemTop (el : Nat) : Nat := if el = 0 then 7 else if el ≤ 2 then 31 else if el = 3 then 0x7E else 0x7B
def elemMax (el : Nat) : Int := if el ≤ 1 then 2 else if el = 2 then 4 else if el = 3 then 8 else if el = 4 then 15 else 0
noncomputable def Overflowed (el mode : Nat) (sat : Bool) (neg : Prop) (y : Nat) : Prop :=
  open Classical in
  if el = 5 then y = if neg then 0x81 else 0x7F
  else y = signed (elemF el) neg (if el ≤ 2 ∨ sat = true ∨ ¬ OverInf mode neg then elemTop el else if el = 3 then 0x7F else 0x7C)

/-- R94: the block scale of the FP32 values that take part. -/
def ScaleIs (el : Nat) (xs : List Nat) (z : Nat) : Prop :=
  ((∃ x ∈ xs, IsNan fp32 x) → z = 255) ∧
  ((∀ x ∈ xs, ¬ IsNan fp32 x) → (∀ x ∈ xs, IsFin fp32 x → valueOf fp32 x = 0) → z = 0) ∧
  ((∀ x ∈ xs, ¬ IsNan fp32 x) → ∀ x ∈ xs, IsFin fp32 x → valueOf fp32 x ≠ 0 →
    (∀ y ∈ xs, IsFin fp32 y → |valueOf fp32 y| ≤ |valueOf fp32 x|) →
    ∃ e : ℤ, 2 ^ e ≤ |valueOf fp32 x| ∧ |valueOf fp32 x| < 2 ^ (e + 1) ∧ (z : Int) = min (max (e - elemMax el) (-127)) 127 + 127)

/-- R95: an FP32 value as an element under scale exponent X. -/
def Encodes (el : Nat) (X : Int) (mode : Nat) (sat : Bool) (x : Nat) (r : Nat × Nat) : Prop :=
  let v := |valueOf fp32 x| / 2 ^ X
  (IsNan fp32 x → (el = 3 → r.1 % 128 = 0x7F) ∧ (el = 4 → r.1 % 128 = 0x7E) ∧ (el ≠ 3 → el ≠ 4 → r = (0, 16))) ∧
  (IsInf fp32 x → (el = 4 ∧ sat = false → r = (signed e5m2 (negOf fp32 x) 0x7C, 0)) ∧
    (¬ (el = 4 ∧ sat = false) → Overflowed el mode sat (negOf fp32 x) r.1 ∧ r.2 = 16)) ∧
  (IsFin fp32 x → valueOf fp32 x = 0 → r.1 = (if el = 5 then 0 else signed (elemF el) (negOf fp32 x) 0) ∧ r.2 = 0) ∧
  (IsFin fp32 x → valueOf fp32 x ≠ 0 → el ≠ 5 →
    RoundsIn (elemF el) (elemTop el) (Overflowed el mode sat (negOf fp32 x)) mode (negOf fp32 x) v r) ∧
  (IsFin fp32 x → valueOf fp32 x ≠ 0 → el = 5 → ∃ n, RoundsInt mode (negOf fp32 x) (v * 64) n ∧
    (127 < n → Overflowed el mode sat (negOf fp32 x) r.1 ∧ r.2 = 5) ∧
    (n ≤ 127 → r.1 < 256 ∧ (negOf fp32 x → toSigned 8 r.1 = -(n : Int)) ∧ (¬ negOf fp32 x → toSigned 8 r.1 = n) ∧
      (v * 64 = n → r.2 = 0) ∧ (v * 64 ≠ n → r.2 = if v * 64 < 1 then 3 else 1)))

/-- The FP32 code of a source (R56, R139). -/
def Code32 (x : OpVal) (c : Nat) : Prop := IsElement fp32 false false x 0 c

/-- What a fibre f of the active set A receives from a rod instruction over tiles of width w (R156, R162 to R168). -/
def rodResult (g : Group) (w : Nat) (A : List Nat) (op : Nat → Nat → OpVal) (f : Nat) (o : LaneOut) : Instr → Prop
  | .shfl i =>
    let j := shuffled i.md w (f % 32 % w) ((op f 1).nat % 2 ^ 32)
    ((∃ y ∈ A, ((y % 32 % w : Nat) : Int) = j) → ∃ y ∈ A, ((y % 32 % w : Nat) : Int) = j ∧
      o = { val := some (op y 0).nat, p2 := some true }) ∧
    ((∀ y ∈ A, ((y % 32 % w : Nat) : Int) ≠ j) →
      o = { val := some (if i.md.getLsbD 4 then (op f 2).nat else (op f 0).nat), p2 := some false })
  | .vote i =>
    let P := A.filter fun y => (op y 0).nat == 1
    (i.md = 0 → o = { p := some (P == A) }) ∧ (i.md = 1 → o = { p := some (decide (P ≠ [])) }) ∧
    (i.md = 3 → o = { p := some (P.length % 2 == 1) }) ∧
    (i.md = 2 → Bits 32 (fun l => P.any fun y => y % 32 % w == l) o)
  | .red i =>
    let ty := bitsOf i.md.toNat 5 3
    (ty ≠ 4 → Reduces (i.md.toNat % 8) (rodType ty) (A.map fun y => (op y 0).nat) o) ∧
    (ty = 4 → ∃ code : Nat → Nat, (∀ y ∈ A, Code32 (op y 0) (code y)) ∧ ∃ r,
      Tree (i.md.toNat % 8) (i.md.toNat / 64) (fun l => (A.find? fun y => y % 32 % w == l).map code) (Nat.log2 w) 0 (some r) ∧
      o = { val := some r.1, flags := r.2 })
  | .scan i =>
    let ty := bitsOf i.md.toNat 5 3
    let L := A.filter fun y => if i.md.getLsbD 6 then decide (y < f) else decide (y ≤ f)
    (L = [] → Identity (i.md.toNat % 8) ty o) ∧
    (L ≠ [] → ty ≠ 4 → Reduces (i.md.toNat % 8) (rodType ty) (L.map fun y => (op y 0).nat) o) ∧
    (∀ x xs, L = x :: xs → ty = 4 → ∃ code : Nat → Nat, (∀ y ∈ A, Code32 (op y 0) (code y)) ∧ ∃ r,
      Folds (i.md.toNat % 8) (code x, 0) (xs.map code) r ∧ o = { val := some r.1, flags := r.2 })
  | .matchI _ => ∃ q, Bits 32 (fun l => A.any fun y => y % 32 % w == l && (op y 0).nat == (op f 0).nat) q ∧
      o = { q with p2 := some (A.all fun y => (op y 0).nat == (op f 0).nat) }
  | .elect i =>
    ∃ y ∈ A, (∀ z ∈ A, if i.md.getLsbD 0 then z ≤ y else y ≤ z) ∧
      o = { p := some (f == y), val2 := some (y % 32 % w) }
  | .cvtmx i =>
    let slot := g.fslots.getD (i.md.toNat % 8) 0
    let el := slot % 16
    ∃ code : Nat → Nat, (∀ y ∈ A, Code32 (op y 0) (code y)) ∧ ∃ z,
      (slot.testBit 4 = true → ScaleIs el (A.map code) z) ∧ (slot.testBit 4 = false → z = 127) ∧
      (z = 255 → o.val = some 0 ∧ o = { val := some 0, val2 := some 255, flags := o.flags } ∧
        (IsSnan fp32 (code f) → o.flags = 16) ∧ (¬ IsSnan fp32 (code f) → o.flags = 0)) ∧
      (z ≠ 255 → ∃ r, Encodes el ((z : Int) - 127) (slot / 32 % 4) (slot.testBit 7) (code f) r ∧
        o = { val := some r.1, val2 := some z, flags := r.2 })
  | _ => False

/-- Rod instructions of results. -/
def rod : Instr → Bool
  | .shfl _ | .vote _ | .red _ | .scan _ | .matchI _ | .elect _ | .cvtmx _ => true
  | _ => false

/-- No fibre of a list raises a flag that it has enabled. -/
def Quiet (g : Group) (fs : List Nat) (res : Nat → LaneOut) : Prop :=
  ∀ f ∈ fs, ∀ b, tfind g.fibres f = some b → b.enables &&& (res f).flags = 0

/-! ### Memory instructions -/

/-- One live fibre alone executes with its guard true; nothing waits in its die's cluster unit. -/
structure Alone (u : State) (c : Cur) (g : Group) (h : Shape) (f : Nat) (b : Fibre) (x : LaneIn) : Prop where
  member : f ∈ g.executing c
  distinct : (g.executing c).Nodup
  fibre : tfind g.fibres f = some b
  live : b.live = true
  args : argsOf u c g h f b = some x
  rest : ∀ j ∈ g.executing c, j ≠ f → ∀ b', tfind g.fibres j = some b' → b'.guard h.ctl = false
  core : g.k = c.k
  quiet : (u.die (c.k / 16)).cuOps = []

/-- What an instruction that accesses memory leaves beside its access: no byte of memory changes before the home performs it,
no other group changes, of the group's other fibres only the PCs, of the fibre no register but the destination's. `pad` is
the scratchpad afterwards. -/
structure MemEnds (u t : State) (c : Cur) (g : Group) (h : Shape) (f : Nat) (b : Fibre) (pad : Nat → Byte) : Prop where
  rest : t = { u with groups := t.groups, cores := t.cores, dies := t.dies, agents := t.agents, ctxs := t.ctxs, accs := t.accs,
                      nextAcc := t.nextAcc, freeCtr := t.freeCtr, waiters := t.waiters }
  cores : ∀ k, t.core k = { u.core k with slices := (t.core k).slices, l1 := (t.core k).l1 }
  dies : ∀ d, t.die d = { u.die d with lines := (t.die d).lines, cuOps := (t.die d).cuOps }
  ctxs : ∀ v, t.ctx v = u.ctx v ∨ (v = g.vf ∧ t.ctx v = { u.ctx v with sticky := (u.ctx v).sticky ||| 1 })
  bytes : ∀ a, memByte t.mem a = memByte u.mem a ∧ memByte t.pin a = memByte u.pin a
  others : ∀ j, j ≠ c.gid → t.group? j = u.group? j
  group : ∃ g', t.group? c.gid = some g' ∧ g' = { g with fibres := g'.fibres, pad := g'.pad } ∧ ∀ i, tget 0 g'.pad i = pad i
  fibres : ∀ j b0, j ≠ f → tfind g.fibres j = some b0 → ∃ b', t.fibre? c.gid j = some b' ∧
    b' = { b0 with pc := b'.pc, popped := b'.popped } ∧ (b0.live = true → b'.pc = passes c g j b0)
  fibre : ∃ b', t.fibre? c.gid f = some b' ∧
    b' = { b with regs := b'.regs, pc := BitVec.ofNat 32 (seqPc c.pc), popped := b'.popped, pendRegs := b'.pendRegs,
                  holdAll := b'.holdAll, holdStore := b'.holdStore, holdRange := b'.holdRange } ∧
    ∀ n, ¬ (h.dst.1.kind = .vreg ∧ h.dst.1.wbs = false ∧ h.dst.1.num.toNat ≤ n ∧
      n < h.dst.1.num.toNat + dstRegs h.dst.2) → b'.v n = b.v n

/-- The destination group holds a value, unless WBS keeps it from the register file. -/
def DestHolds (t : State) (c : Cur) (h : Shape) (f v : Nat) : Prop :=
  ∃ b', t.fibre? c.gid f = some b' ∧ (h.dst.1.kind = .vreg → h.dst.1.wbs = false → ∀ i, i < dstRegs h.dst.2 →
    b'.v (h.dst.1.num.toNat + i) = BitVec.ofNat 32 (v / 2 ^ (32 * i)))

/-- The scoreboard waits for the destination (R30). -/
def DestPending (t : State) (c : Cur) (h : Shape) (f : Nat) : Prop :=
  ∃ b', t.fibre? c.gid f = some b' ∧ (h.dst.1.kind = .vreg → h.dst.1.wbs = false → ∀ i, i < dstRegs h.dst.2 →
    h.dst.1.num.toNat + i ∈ b'.pendRegs)

/-- EffectivePointer (R62). -/
def effective (f : MFmt) (x : LaneIn) : Nat :=
  x.a % 2 ^ 64 / 2 ^ 48 * 2 ^ 48 + (((x.a % 2 ^ 48 : Nat) + f.disp.toInt) % 2 ^ 48).toNat

/-- The entry that an access uses: the buffer cache holds it, the checks of Table 11.2 pass, and it is no window. -/
structure Passing (u : State) (c : Cur) (g : Group) (ptr size align : Nat) (right : Option Right) (win : Bool) (e : BitVec 256) :
    Prop where
  cached : (u.core c.k).bufEntry g.vf (ptr / 2 ^ 48 % 2 ^ 16) = some e
  checked : u.checkEntry g.vf e ptr size align right win = none
  plain : entOnchip e = false

/-- Beyond a port (Table 23.1). -/
def outside (ptr : Nat) : Bool := decide (0xFE00 ≤ ptr / 2 ^ 48 % 2 ^ 16 ∧ ptr / 2 ^ 48 % 2 ^ 16 ≤ 0xFEFF)

/-- The place of an access. -/
def placeOf (u : State) (e : BitVec 256) (ptr : Nat) : Loc := if outside ptr = true then extLoc e ptr else u.locOf e ptr

/-- The ordering class of CLS and DORD (R191); in a re-keyed window always .ox (R193). -/
def classOf (code : Nat) (e : BitVec 256) (l : Loc) : Cls :=
  if l.win then .ox
  else if code = 1 ∨ (code = 0 ∧ entDord e = 0) then .cz
  else if code = 2 ∨ (code = 0 ∧ entDord e = 1) then .rx
  else .ox

/-- SCOPE (Table 11.10), clamped where R221 clamps. -/
def scopeAt (u : State) (vf code : Nat) (ordered : Bool) : Scope :=
  if 3 ≤ code ∧ ordered = true ∧ (u.ctx vf).parOnly = true then .par
  else if code = 0 then .grp else if code = 1 then .clu else if code = 2 then .par else if code = 3 then .dev else .sys

/-- An access made by this instruction for a fibre: its place, class, scope, kind and fibre. -/
def Made (u t : State) (c : Cur) (f : Nat) (l : Loc) (cls : Cls) (sc : Scope) (op : MemOp) (ok : Access → Prop) : Prop :=
  ∃ id a, u.nextAcc ≤ id ∧ tfind t.accs id = some a ∧ a.agent = c.k / 16 ∧ a.port = c.k % 16 ∧ a.gid = c.gid ∧ a.pc = c.pc ∧
    a.fibs = [f] ∧ a.loc = l ∧ a.cls = cls ∧ a.scope = sc ∧ a.op = op ∧ ok a

/-- The accesses that a fibre has outstanding. -/
def Outstanding (u : State) (c : Cur) (f id : Nat) : Prop :=
  ∃ p, tfind u.accs id = some p ∧ p.gid = c.gid ∧ f ∈ p.fibs

/-- The bytes of an access meet a selection: those of its targets in an event. -/
def Touches (a : Access) (sel : Loc → Nat → Bool) : Prop :=
  match a.op with
  | .load n => sel a.loc n = true
  | .store bs => sel a.loc bs.length = true
  | .atomic kind steps => ∃ st ∈ steps, sel { a.loc with sva := a.loc.sva + st.off } kind.bytes = true
  | .wait _ => sel a.loc 8 = true
  | _ => sel a.loc 128 = true

/-- What a release of a fibre at a scope waits for (R216, R219): its earlier accesses that the selection names; what leaves the
package only at .sys (R220). -/
def Awaited (u : State) (c : Cur) (f : Nat) (sc : Scope) (sel : Loc → Nat → Bool) (id : Nat) : Prop :=
  ∃ p, tfind u.accs id = some p ∧ p.gid = c.gid ∧ f ∈ p.fibs ∧ (sc = .sys ∨ p.leaves = false) ∧ Touches p sel

/-- Every access. -/
def anyPlace (_ : Loc) (_ : Nat) : Bool := true

/-- Nothing holds an access of a fibre to the line of a place (R212, R217, R219, R242): no fence in force, for an ordered one no
earlier access, and no access of the core to that line that waits at the core. -/
def Unheld (u : State) (c : Cur) (f : Nat) (b : Fibre) (l : Loc) (cls : Cls) : Prop :=
  (cls = .ox → ∀ id, ¬ Outstanding u c f id) ∧ (∀ id ∈ b.holdStore, tfind u.accs id = none) ∧
    (∀ r ∈ b.holdRange, ∀ id ∈ r.2.2.1, tfind u.accs id = none) ∧
    ∀ p ∈ u.accs, p.2.ext = 4 → p.2.agent = c.k / 16 → p.2.port = c.k % 16 → p.2.loc.sameLine l = false

/-- L1 allocates for an access of a hint and a class (R184, Tables 3.7 and 11.9): a hint overrides the class. -/
def Allocates (hint : BitVec 3) (e : BitVec 256) : Prop := hint = 1 ∨ hint = 2 ∨ (hint ≠ 3 ∧ entCclass e ≠ 4)

/-- Bytes of the L1 line that the core itself supplies to a load at .par or wider (R187). -/
def ownBytes (u : State) (k : Nat) (l : Loc) (i : Nat) : Option Byte :=
  match (u.core k).l1.find? fun y => y.loc.sameLine l with
  | some y => if y.dirty.getLsbD (l.sva % 128 + i) then some (y.data.getD (l.sva % 128 + i) 0) else none
  | none => none

/-- A byte that the L1 line holds, valid or dirty. -/
def heldByte (u : State) (k : Nat) (l : Loc) (i : Nat) : Option Byte :=
  match (u.core k).l1.find? fun y => y.loc.sameLine l with
  | some y => if y.valid.getLsbD ((l.sva % 128 + i) / 32) || y.dirty.getLsbD (l.sva % 128 + i) then
      some (y.data.getD (l.sva % 128 + i) 0) else none
  | none => none

/-- The register value of some bytes: elements of `e` bytes, each in its own registers, zero-extended (Table 11.11). -/
def registersOf (e : Nat) (byte : Nat → Byte) (n : Nat) : Nat :=
  (List.range n).foldl (fun v j => v + (byte j).toNat * 2 ^ (32 * max 1 (e / 4) * (j / e) + 8 * (j % e))) 0

/-- Byte j that a store takes from its registers. -/
def storedByte (e v j : Nat) : Byte := BitVec.ofNat 8 (v / 2 ^ (32 * max 1 (e / 4) * (j / e) + 8 * (j % e)))

/-- Elements and bytes of a SIZE code (Table 11.11). -/
def elementsOf (z : Nat) : Nat := if z ≤ 4 then 1 else if z % 2 = 1 then 2 else 4
def elementBytes (z : Nat) : Nat := if z ≤ 4 then 2 ^ z else 2 ^ ((z - 5) / 2)
def bytesOf (z : Nat) : Nat := elementsOf z * elementBytes z

/-- The line that L1 holds after a store that it takes. -/
def L1Takes (u t : State) (k : Nat) (l : Loc) (sc : Scope) (byte : Nat → Byte) (n : Nat) : Prop :=
  ∃ y, y ∈ (t.core k).l1 ∧ y.loc.sameLine l = true ∧ (y.store = sc ∨ y.store.code ≥ sc.code) ∧
    ∀ j, j < n → y.dirty.getLsbD (l.sva % 128 + j) = true ∧
      ((∀ z ∈ (u.core k).l1, z.data.length = 128) → y.data.getD (l.sva % 128 + j) 0 = byte j)

/-- An offset in the scratchpad, formed exactly (R195), with its checks passed. -/
def padAt (f : MFmt) (x : LaneIn) : Int := ((x.a % 2 ^ 32 : Nat) : Int) + f.disp.toInt
def PadOk (g : Group) (f : MFmt) (x : LaneIn) (size off : Nat) : Prop :=
  padAt f x = off ∧ off % size = 0 ∧ off + size ≤ g.padLen

/-- No line of a scratchpad range is absent (R182). -/
def Present (g : Group) (off n : Nat) : Prop := ∀ l ∈ g.absent, ∀ i, i < n → (off + i) / 128 ≠ l

/-- A line of the L1 of a core that a range of a buffer touches (R197). -/
def InRange (g : Group) (e : BitVec 256) (ptr len : Nat) (l : Loc) : Bool := meetsRange e g.vf ptr len l 128

/-- Code lines that overlap [a, a + len) within the code section (R199). -/
def OverlapsCode (g : Group) (a len off : Nat) : Prop := off % 64 = 0 ∧ a < off + 64 ∧ off < a + len ∧ off < g.codeLen ∧ a < g.codeLen ∧ 0 < len

/-- What a fence in force makes wait for an access (R216, R218, R219): under .rel later stores, in its range where it has one;
under .acq.rel the acquire, and with it every later access. -/
def FenceWaits (t : State) (c : Cur) (f kind : Nat) (sc : Scope) (range : Option (BitVec 256 × Nat × Nat)) (id : Nat) : Prop :=
  ∃ b, t.fibre? c.gid f = some b ∧
    (kind = 2 → match range with
      | none => id ∈ b.holdStore
      | some (_, p, n) => ∃ ids, (p, n, ids, true) ∈ b.holdRange ∧ id ∈ ids) ∧
    (kind = 0 → ∃ m a, tfind t.accs m = some a ∧ a.held = true ∧ id ∈ a.after ∧ a.op = .fence (some sc) range ∧
      match range with
      | none => m ∈ b.holdAll
      | some (_, p, n) => (p, n, [m], false) ∈ b.holdRange)

/-- What a fence does to the lines of its core that a range names (R186, R216 to R218): a release writes back dirty lines and
waits for the write-backs, and an acquire alone drops the clean sectors that its scope names. -/
def FenceLines (u t : State) (c : Cur) (f vf kind : Nat) (sc : Scope) (range : Option (BitVec 256 × Nat × Nat))
    (names : Loc → Bool) : Prop :=
  (kind ≠ 1 → sc ≠ .grp → ∀ y ∈ (t.core c.k).l1, y.loc.vf = vf → names y.loc = true → y.dirty = 0 ∨ (sc = .clu ∧ y.store ≠ .grp)) ∧
  (kind ≠ 1 → ∀ y ∈ (u.core c.k).l1, y.loc.vf = vf → names y.loc = true → y.dirty ≠ 0 →
    (sc.isWide = true ∨ (sc = .clu ∧ y.store = .grp)) → ∃ id a, tfind t.accs id = some a ∧ a.owner = .writeBack c.k ∧ a.loc = y.loc ∧
      FenceWaits t c f kind sc range id) ∧
  (kind = 1 → sc ≠ .grp → ∀ y ∈ (t.core c.k).l1, y.loc.vf = vf → names y.loc = true → ∀ n, n < 4 → y.valid.getLsbD n = true →
    (∃ j, j < 32 ∧ y.dirty.getLsbD (32 * n + j) = true) ∨
      ¬ (y.fill.getD n .grp = .grp ∨ (sc.isWide = true ∧ y.fill.getD n .grp = .clu)))

/-! ### Atomic and counter operations -/

/-- ATOM, CAS, CADD, CRAISE and CREAD: the operation, its scope code, SYNC, width in bytes, and its two operands. -/
def eventOf : Instr → Option (MFmt × AKind × Nat × Bool × Bool × Nat × (LaneIn → Nat × Nat))
  | .atom f =>
    let n := if f.md.getLsbD 4 then 8 else 4
    some (f, .atom (f.md.toNat / 32) (f.md.getLsbD 4) (f.md.getLsbD 3), f.md.toNat % 8, false, false, n,
      fun x => (x.bb % 2 ^ (8 * n), 0))
  | .cas f =>
    let n := 4 * 2 ^ (f.md.toNat / 2 % 4)
    some (f, .cas n, f.md.toNat / 8 % 8, f.md.getLsbD 6, f.md.getLsbD 7, n,
      fun x => (x.bb % 2 ^ (8 * n), x.bb / 2 ^ (8 * n) % 2 ^ (8 * n)))
  | .cadd f => some (f, .cadd, f.md.toNat / 8 % 8, false, f.md.getLsbD 7, 8, fun x => (x.bb % 2 ^ 64, 0))
  | .craise f => some (f, .craise, f.md.toNat / 8 % 8, false, f.md.getLsbD 7, 8, fun x => (x.bb % 2 ^ 64, 0))
  | .cread f => some (f, .cread, f.md.toNat / 8 % 8, f.md.getLsbD 6, false, 8, fun _ => (0, 0))
  | _ => none

/-- The new value of a place under an operation (R251 to R253, R264, R265). -/
def NewValue (k : AKind) (m x y v : Nat) : Prop :=
  match k with
  | .atom op w64 sgn =>
    let w := if w64 then 64 else 32
    let key (z : Nat) : Int := if sgn then (if 2 ^ (w - 1) ≤ z then (z : Int) - 2 ^ w else z) else z
    (op = 0 → v = (m + x) % 2 ^ w) ∧ (op = 1 → v = if key x < key m then x else m) ∧
    (op = 2 → v = if key x > key m then x else m) ∧
    (op = 3 → ∀ j, v.testBit j = (m.testBit j && x.testBit j)) ∧
    (op = 4 → ∀ j, v.testBit j = (m.testBit j || x.testBit j)) ∧
    (op = 5 → ∀ j, v.testBit j = (m.testBit j ^^ x.testBit j)) ∧ (op = 6 → v = x) ∧
    (op = 7 → sgn = false → ∃ fl, Adds fp32 0 m x (v, fl)) ∧
    (op = 7 → sgn = true → ∃ r : Nat → Nat × Nat, v = (r 0).1 + 2 ^ 16 * (r 1).1 ∧
      ∀ e, e < 2 → Adds bf16 0 (m / 2 ^ (16 * e) % 2 ^ 16) (x / 2 ^ (16 * e) % 2 ^ 16) (r e))
  | .cas _ => v = if m = x then y else m
  | .cadd => v = m + x
  | .craise => v = max m x
  | .cread => v = m

/-- n bytes of a line, little-endian. -/
def fieldOf (line : List Byte) (off n : Nat) : Nat := leNat ((line.drop off).take n)

/-- The steps of one event in order (R250): the line after each, and the old value that each fibre receives. -/
inductive Events (k : AKind) (n : Nat) : List Byte → List AStep → List Byte → List (Nat × Nat) → Prop where
  | done (line : List Byte) : Events k n line [] line []
  | step (line line' last : List Byte) (st : AStep) (ss : List AStep) (olds : List (Nat × Nat)) (v : Nat) :
      NewValue k (fieldOf line st.off n) st.x st.y v → v < 2 ^ (8 * n) → line'.length = 128 → fieldOf line' st.off n = v →
      (∀ i, i < st.off ∨ st.off + n ≤ i → line'.getD i 0 = line.getD i 0) → Events k n line' ss last olds →
      Events k n line (st :: ss) last ((st.fib, fieldOf line st.off n) :: olds)

/-- The bytes of a natural number, little-endian. -/
def leByte (v j : Nat) : Byte := BitVec.ofNat 8 (v / 2 ^ (8 * j))

/-! ### Tiles, convergence registers, bindings, accumulators and cards -/

/-- An instruction performed once per bundle, with the operands of the lowest acting fibre (R39, R281, R290). -/
structure Once (i : Instr) (s u : State) (c : Cur) (g : Group) (h : Shape) (x : LaneIn) : Prop where
  ready : Ready i s u c g h
  legal : i.decodeTrap = none
  first : (actors u c g h).head? = some x.fib
  args : (tfind g.fibres x.fib).bind (argsOf u c g h x.fib) = some x

/-- The operands of a fibre of the group, where it acts. -/
def argOf (u : State) (c : Cur) (g : Group) (h : Shape) (f : Nat) : Option LaneIn := (tfind g.fibres f).bind (argsOf u c g h f)

/-- The bundle passes the instruction: its results are written, the group becomes `new` but for its fibres, and the engine of the
core takes the entries of `eng`; the groups of `but` may change. -/
structure Finishes (u t : State) (c : Cur) (g : Group) (h : Shape) (res : LaneIn → LaneOut) (new : Group) (eng : List EngOp)
    (but : List Nat) : Prop where
  rest : t = { u with groups := t.groups, cores := t.cores, nextId := t.nextId }
  cores : ∀ k, t.core k = { u.core k with slices := (t.core k).slices, eng := (u.core k).eng ++ if k = c.k then eng else [] }
  others : ∀ j, j ≠ c.gid → j ∉ but → t.group? j = u.group? j
  group : ∃ gt, t.group? c.gid = some gt ∧ gt = { new with fibres := gt.fibres }
  fibres : ∀ f b, tfind g.fibres f = some b → ∃ b', t.fibre? c.gid f = some b' ∧
    b' = { b with regs := b'.regs, preds := b'.preds, fpst := b'.fpst, pc := b'.pc, popped := b'.popped, since := b'.since } ∧
    (match argsOf u c g h f b with
     | some x => Wrote h b b' (res x)
     | none => b'.regs = b.regs ∧ b'.preds = b.preds ∧ b'.fpst = b.fpst) ∧
    (b.live = true → b'.pc = passes c g f b)

/-- The bundle parks at its instruction. -/
structure ParksAt (u t : State) (c : Cur) (g new : Group) (p : Nat → Park) : Prop where
  rest : t = { u with groups := t.groups, cores := t.cores, waiters := t.waiters }
  cores : ∀ k, t.core k = { u.core k with slices := (t.core k).slices }
  others : ∀ j, j ≠ c.gid → t.group? j = u.group? j
  group : ∃ gt, t.group? c.gid = some gt ∧ gt = { new with fibres := gt.fibres }
  fibres : ∀ f b, tfind g.fibres f = some b → ∃ b', t.fibre? c.gid f = some b' ∧
    b' = { b with park := if f ∈ c.en then p f else b.park, since := b'.since }

/-- Bits per element of Table 5.8, and the packed length of a row (R90). -/
def bitsPer (elem : Nat) : Nat :=
  if elem = 0 then 4 else if elem ≤ 2 then 6 else if elem ≤ 5 then 8 else if elem ≤ 7 then 16 else 32
def rowLength (elem n : Nat) : Nat := if elem = 1 ∨ elem = 2 then 3 * ((n + 3) / 4) else (n * bitsPer elem + 7) / 8

/-- Fields of a tile entry (Table 17.7) with its format slot. -/
def tileFormat (g : Group) (e : BitVec 256) : Nat := g.fslots.getD (e.toNat / 2 ^ 192 % 8) 0
/-- Elements of a row that are stored (R281). -/
def storedCols (g : Group) (e : BitVec 256) : Nat :=
  (e.toNat / 2 ^ 176 % 2 ^ 16) * (if tileFormat g e / 256 % 4 = 0 then 64 else 64 / 2 ^ (tileFormat g e / 256 % 4)) / 64
/-- R281: what TDEF accepts. -/
def TileSound (g : Group) (e : BitVec 256) : Prop :=
  e.toNat / 2 ^ 195 = 0 ∧ e.toNat / 2 ^ 160 % 2 ^ 16 ≠ 0 ∧ e.toNat / 2 ^ 176 % 2 ^ 16 ≠ 0 ∧
    rowLength (tileFormat g e % 16) (storedCols g e) ≤ e.toNat / 2 ^ 128 % 2 ^ 32

/-- Macros across and down that a binding takes (R282, R283). -/
def macrosDown (g : Group) (e : BitVec 256) : Nat := (storedCols g e + 127) / 128
def macrosAcross (g : Group) (e : BitVec 256) : Nat :=
  let el := tileFormat g e % 16
  let p := 128 / (if el = 0 then 1 else if el = 6 then 3 else 2)
  (e.toNat / 2 ^ 160 % 2 ^ 16 + p - 1) / p

/-- Steps 1 and 2 of R290. -/
def BindFits (g : Group) (e : BitVec 256) (m : Nat) (sparse ub : Bool) : Prop :=
  let sl := tileFormat g e
  sl % 16 ≤ 6 ∧ (sl / 256 % 4 ≠ 0 ↔ sparse = true) ∧ (ub = true → sl % 16 = 5) ∧
    (sparse = true → e.toNat / 2 ^ 176 % 2 ^ 16 % 64 = 0) ∧
    m + macrosDown g e * macrosAcross g e ≤ g.macros.length ∧
    ∀ j om, m ≤ j → j < m + macrosDown g e * macrosAcross g e → g.macros[j]? = some om → om.unavailable = false

/-- MBIND and MBINDS. -/
def bindOf : Instr → Option (CFmt × Bool)
  | .mbind f => some (f, false)
  | .mbinds f => some (f, true)
  | _ => none

/-- The entry that a binding takes in the engine's order. -/
def Binds (x : EngOp) (c : Cur) (g : Group) (e : BitVec 256) (b m : Nat) (sparse ub : Bool) : Prop :=
  x.gid = c.gid ∧ x.pc = c.pc ∧ x.started = false ∧ ∃ img, x.kind = .bind b img ∧ img.tile = e ∧ img.first = m ∧
    img.km = macrosDown g e ∧ img.nm = macrosAcross g e ∧ img.sparse = sparse ∧ img.ub = ub ∧
    img.elem = tileFormat g e % 16 ∧ img.cols = e.toNat / 2 ^ 176 % 2 ^ 16 ∧ img.n = e.toNat / 2 ^ 160 % 2 ^ 16

/-- N accumulators from x as a register group. -/
def accumulators (g : Group) (x n : Nat) : Nat :=
  (List.range n).foldl (fun v i => v + (tget 0 g.acc (x + i)).toNat * 2 ^ (32 * i)) 0

/-- No operation of the group that the engine accepted before the access first issued writes an accumulator of [x, x + n)
(R292). -/
def AccFree (u : State) (c : Cur) (g : Group) (x n : Nat) : Prop :=
  let before := (c.en.filterMap fun f => (tfind g.fibres f).bind (·.since)).headD u.nextId
  ∀ o ∈ (u.core g.k).eng, o.gid = c.gid → o.kind = .op → o.turn < before → ∀ i, i < o.m →
    o.accBase + i * o.accStride + o.width ≤ x ∨ x + n ≤ o.accBase + i * o.accStride

/-- MACRD, MACWR and MACCLR: how many accumulators a fibre names. -/
def accCount : Instr → Option (LaneIn → Nat)
  | .macrd f => some fun _ => 2 ^ (f.md.toNat % 4)
  | .macwr f => some fun _ => 2 ^ (f.md.toNat % 4)
  | .macclr _ => some fun x => x.bb % 2 ^ 32
  | _ => none

/-- Their ranges lie within the group's accumulators, and nothing of the engine writes there. -/
def AccGoes (n : LaneIn → Nat) (u : State) (c : Cur) (g : Group) (h : Shape) : Prop :=
  ∀ f ∈ actors u c g h, ∀ x, argOf u c g h f = some x → 0 < n x →
    x.a % 2 ^ 32 + n x ≤ 1024 * g.macros.length ∧ AccFree u c g (x.a % 2 ^ 32) (n x)

/-- The accumulator that the last of the acting fibres to name it writes. -/
def accWritten (u : State) (c : Cur) (g : Group) (h : Shape) (n : LaneIn → Nat) (v : LaneIn → Nat → Word) (a : Nat) : Word :=
  match ((actors u c g h).filterMap (argOf u c g h)).reverse.find? fun x =>
      decide (x.a % 2 ^ 32 ≤ a) && decide (a < x.a % 2 ^ 32 + n x) with
  | some x => v x (a - x.a % 2 ^ 32)
  | none => tget 0 g.acc a

/-- MTEST's mask (R294). -/
def testBits (g : Group) (w : Nat) : Prop :=
  ∀ i, w.testBit i = match g.macros[i]? with
    | some m => m.failed || m.replaced || m.unavailable
    | none => false

/-- MCAP's word (R294): usable macros by number, or the three counts. -/
def capResult (s : State) (g : Group) (cnt : Bool) (w : Nat) : Prop :=
  if cnt then
    let usable := (64 - (s.core g.k).fenced.length) % 128
    let spare := ((List.range 64).countP fun m => decide (m ∉ (s.core g.k).fenced) &&
      s.groups.all fun p => !(p.2.k == g.k) || p.2.evicted || p.2.macros.all fun o => o.phys != m) % 128
    w = usable + 2 ^ 8 * spare + 2 ^ 16 * (g.macros.length % 128)
  else ∀ i, w.testBit i = match g.macros[i]? with
    | some m => !m.unavailable
    | none => false

/-- The group that an MPAIR may pair with (R291). -/
def IsPartner (u : State) (g : Group) (pos : Nat) (q : Group) : Prop :=
  let size := max 1 ((tfind u.grids g.grid).elim 1 (·.cluster))
  q.grid = g.grid ∧ q.vf = g.vf ∧ q.clupos = pos ∧ q.index / size = g.index / size ∧ q.k = g.k ^^^ 1 ∧
    q.macros.length = g.macros.length ∧ q.ended = none

/-- No group waits to pair with this one, but those of a list. -/
def NoneWaits (u : State) (gid : Nat) (but : List Nat) : Prop :=
  ∀ p ∈ u.groups, p.1 ∉ but → ∀ n, p.2.pairWait ≠ some (gid, n)

/-- The predicate of MPAIR. -/
def pairResult (q : Bool) (x : LaneIn) : LaneOut := if x.b.live then { p := some q } else {}

/-- The 256 bytes of a card: what the fibre collected, its last 16 bytes, zeros (R273). -/
def cardBytes (b : Fibre) (q v : Nat) : List Byte :=
  let bs := b.card q ++ (List.range 16).map (leByte v)
  bs ++ List.replicate (256 - bs.length) 0

/-! ### The matrix engine's arithmetic -/

/-- The value of an element of an operand, signed or unsigned (R97, R99); the codes that are a NaN or an infinity. -/
noncomputable def operandValue (el : Nat) (uns : Bool) (c : Nat) : ℝ :=
  if el = 5 then (if uns then ((c % 256 : Nat) : ℝ) else ((toSigned 8 (c % 256) : ℤ) : ℝ)) / 64
  else if el = 6 then valueOf bf16 (c % 2 ^ 16) else elemValue el c
def OperandSpecial (el c : Nat) : Prop := ElemNan el c ∨ ElemInf el c ∨ (el = 6 ∧ 255 * 2 ^ 7 ≤ c % 2 ^ 15)

/-- The format whose emin R98 takes. -/
def alignedFmt (el : Nat) : Fmt := if el = 3 then e4m3 else if el = 4 then e5m2 else bf16

/-- A block of elements as integers with a weight 2^L: exact formats (R97) and Align with n magnitude bits (R98). -/
def Aligns (el n : Nat) (uns : Bool) (codes : List Nat) (r : BlockInts) : Prop :=
  let v (k : Nat) : ℝ := operandValue el uns (codes.getD k 0)
  ((∃ c ∈ codes, OperandSpecial el c) → r.special = true) ∧
  ((∀ c ∈ codes, ¬ OperandSpecial el c) → r.special = false ∧ r.ints.length = codes.length ∧
    (el = 0 ∨ el = 1 ∨ el = 2 ∨ el = 5 → r.loss = false ∧
      r.l = (if el = 0 then -1 else if el = 1 then -3 else if el = 2 then -4 else -6) ∧
      ∀ k, k < codes.length → v k = (r.ints.getD k 0 : ℤ) * 2 ^ r.l) ∧
    (el = 3 ∨ el = 4 ∨ el = 6 →
      ((∀ k, k < codes.length → v k = 0) → (∀ k, r.ints.getD k 0 = 0) ∧ r.loss = false) ∧
      ((∃ k, k < codes.length ∧ v k ≠ 0) → ∃ E : ℤ, 1 - ((alignedFmt el).bias : ℤ) ≤ E ∧
        (∀ k, k < codes.length → |v k| < 2 ^ (E + 1)) ∧
        (E = 1 - ((alignedFmt el).bias : ℤ) ∨ ∃ k, k < codes.length ∧ 2 ^ E ≤ |v k|) ∧ r.l = E - n + 1 ∧
        (∀ k, k < codes.length → RoundsInt 0 False (|v k| / 2 ^ r.l) (r.ints.getD k 0).natAbs ∧
          (0 < v k → 0 ≤ r.ints.getD k 0) ∧ (v k < 0 → r.ints.getD k 0 ≤ 0)) ∧
        (r.loss = true ↔ ∃ k, k < codes.length ∧ v k ≠ 0 ∧ r.ints.getD k 0 = 0))))

/-- An accumulator after the sum S * 2^e of a block, and whether it overflowed (R100). -/
def Accumulates (acc : Nat) (S e : ℤ) (r : Nat × Bool) : Prop :=
  (S = 0 ∨ ¬ IsFin fp32 acc → r = (acc, false)) ∧
  (S ≠ 0 → IsFin fp32 acc → ∃ fl, RoundsTo fp32 0 False (valueOf fp32 acc + S * 2 ^ e) (r.1, fl) ∧
    (r.2 = true ↔ fl / 4 % 2 = 1))

/-! ### Events -/

/-- A group that its core may work for. -/
def Running (g : Group) : Prop := g.halted = false ∧ g.evicted = false ∧ g.ended = none

/-- Exactly the fibres of a list are parked as `p` says, all at one PC. -/
def ParkedAt (g : Group) (p : Park → Prop) (fs : List Nat) (pc : Word) : Prop :=
  (g.fibres.map (·.1)).Nodup ∧ fs ≠ [] ∧ (∀ f ∈ fs, f ∈ g.fibres.map (·.1)) ∧
    ∀ q ∈ g.fibres, (q.1 ∈ fs ∧ p q.2.park ∧ q.2.pc = pc) ∨ (q.1 ∉ fs ∧ ¬ p q.2.park)

/-- From s to t a group becomes `new`, and the live ones of the listed fibres pass the instruction at which they were parked. -/
def Resumed (s t : State) (gid : Nat) (g new : Group) (fs : List Nat) : Prop :=
  (∃ gt, t.group? gid = some gt ∧ gt = { new with fibres := gt.fibres }) ∧
  (∀ f b, tfind g.fibres f = some b → b.live = true → ∃ b', t.fibre? gid f = some b' ∧
    b' = if f ∈ fs then { b with park := .none, pc := BitVec.ofNat 32 (seqPc b.pc.toNat), popped := QReads.none, since := none } else b) ∧
  ∀ j, j ≠ gid → t.group? j = s.group? j

/-- The fields of a matrix operation accepted from a descriptor (Table 17.9). -/
def OperationOf (x : EngOp) (gid id : Nat) (g : Group) (bs : List Byte) (ua : Bool) : Prop :=
  let n (o k : Nat) : Nat := leNat ((bs.drop o).take k)
  let ctl := n 0 4
  x.gid = gid ∧ x.vf = g.vf ∧ x.item = id ∧ x.kind = .op ∧ x.zero = ctl.testBit 0 ∧ x.asrc = ctl / 2 % 4 ∧
    x.bindSlot = ctl / 2 ^ 3 % 8 ∧ x.resport = ctl / 2 ^ 15 % 8 ∧ x.cls = ctl / 2 ^ 21 % 4 ∧ x.m = n 4 2 ∧ x.arow = n 8 4 ∧
    x.accBase = n 12 4 ∧ x.accStride = n 16 4 ∧ x.seq = n 40 8 ∧ x.inc = n 48 8 ∧
    x.cmpl = (if ctl.testBit 23 then some (n 24 8) else none) ∧ x.cnt = (if ctl.testBit 24 then some (n 32 8) else none) ∧
    x.ua = ua ∧ x.started = false ∧ x.row = 0 ∧ x.pushLeft = [] ∧ x.status = none

/-- A footprint of a card (Table 13.4). -/
def footprintOf (bs : List Byte) (o : Nat) : List Region :=
  [0, 1, 2, 3].map fun i => ⟨leNat ((bs.drop (o + 16 * i)).take 8), leNat ((bs.drop (o + 16 * i + 8)).take 4)⟩

/-- An item of Halyard accepted from a card: its kind, its context, its footprint, and an edge from every item in flight that
it conflicts with (R231). -/
def ItemOf (s t : State) (id : Nat) (kind : ItemKind) (vf : Nat) (bs : List Byte) : Prop :=
  let rs := footprintOf bs 128
  let ws := footprintOf bs 192
  let meets (xs ys : List Region) : Prop := ∃ x ∈ xs, ∃ y ∈ ys, x.len ≠ 0 ∧ y.len ≠ 0 ∧ x.ptr / 2 ^ 48 % 2 ^ 16 = y.ptr / 2 ^ 48 % 2 ^ 16 ∧
    x.ptr % 2 ^ 48 < y.ptr % 2 ^ 48 + y.len ∧ y.ptr % 2 ^ 48 < x.ptr % 2 ^ 48 + x.len
  ∃ it, tfind t.items id = some it ∧ it.kind = kind ∧ it.vf = vf ∧ it.reads = rs ∧ it.writes = ws ∧
    it.order = s.mh.nextOrder ∧ t.mh.nextOrder = s.mh.nextOrder + 1 ∧
    ∀ p ∈ s.items, p.2.vf = vf → meets rs p.2.writes ∨ meets ws p.2.reads ∨ meets ws p.2.writes → p.1 ∈ it.edges

/-- The engine of a core works only for a group, whose next entry is x; its die runs. -/
structure EngineFor (s : State) (k : Nat) (x : EngOp) (g : Group) : Prop where
  group : s.group? x.gid = some g
  runs : s.dieRuns (k / 16) = true ∧ g.halted = false ∧ g.evicted = false
  only : ∀ y ∈ (s.core k).eng, y.gid = x.gid
  next : (s.core k).eng.find? (fun y => y.status.isNone) = some x

/-- The entry of an item becomes `f` of itself. -/
def EntryBecomes (s t : State) (k id : Nat) (f : EngOp → EngOp) : Prop :=
  (t.core k).eng = (s.core k).eng.map fun y => if y.item = id then f y else y

/-- Macros of a pass, in ascending number (R284). -/
def passMacros (x : EngOp) : List Nat := (List.range (x.img.km * x.img.nm)).filter fun q => q / 16 == x.pass

/-- The blocks of column j that a pass adds, in ascending K. -/
def passBlocks (x : EngOp) (j : Nat) : List Nat :=
  ((passMacros x).filter fun q => q / x.img.km == j / (128 / bCells x.img.elem)).flatMap fun q => x.img.blocksOf (q % x.img.km)

/-- Column j in a pass over the row buffer: its accumulator, and the events of its blocks (R100, R101, R104). -/
def passOver (x : EngOp) (g : Group) (j : Nat) : Nat × Nat :=
  (passBlocks x j).foldl (fun r b =>
    let v := blockAcc r.1 (aBlockOf x.aelem x.ua (slotScaled x.afslot) x.rowCodes x.rowScales b) x.img j b
    (v.1, r.2 ||| v.2)) ((tget 0 g.acc (x.accBase + x.row * x.accStride + j)).toNat, 0)

/-- A completion has been made: it counts among the source's events (R238), and is not made again. -/
def completed (s : State) (key e : Nat) : State := (s.event e).heard key (2 ^ 65) .ack

/-- Bytes of a card that copies within the scratchpad: row i, byte j, and where it comes from. -/
def padRow (c : CopyCard) (index : List Nat) (i : Nat) : Nat × Nat :=
  (c.dst % 2 ^ 32 + i * c.dstride, c.src % 2 ^ 32 + (if c.ctl.testBit 0 then index.getD i 0 else i) * c.sstride)

/-- No key of a table is listed twice. -/
def Distinct {α : Type} (t : Tab α) : Prop := (t.map (·.1)).Nodup

/-- From s to t only the fibres of one group change, as `f` says. -/
def FibresBecome (s t : State) (gid : Nat) (f : Nat → Fibre → Fibre) : Prop :=
  t = { s with groups := t.groups } ∧ (∀ j, j ≠ gid → t.group? j = s.group? j) ∧
  ∀ g, s.group? gid = some g → ∃ gt, t.group? gid = some gt ∧ gt = { g with fibres := gt.fibres } ∧
    ∀ x, tfind gt.fibres x = (tfind g.fibres x).map (f x)

/-- Only the slice of a core changes, as `f` says. -/
def SliceBecomes (s t : State) (k sl : Nat) (f : Slice → Slice) : Prop :=
  t = { s with cores := t.cores } ∧ (∀ j, j ≠ k → t.core j = s.core j) ∧ t.core k = { s.core k with slices := (t.core k).slices } ∧
    ∀ j, t.slice k j = if j = sl then f (s.slice k sl) else s.slice k j

/-- What SHARE of BUDGETn leaves of a capacity (R312). -/
def shareOf (c : Ctx) (lo capacity : Nat) : Nat := capacity * (c.budget.toNat / 2 ^ lo % 256 + 1) / 256

/-- The grid of a launch record (Table 19.4). -/
def GridOf (q : Grid) (vf item : Nat) (bs : List Byte) : Prop :=
  let n (o w : Nat) : Nat := leNat ((bs.drop o).take w)
  let ctl := n 40 4
  q.vf = vf ∧ q.item = some item ∧ q.codePtr = n 0 8 ∧ q.codeLen = n 8 4 ∧ q.entry = n 12 4 ∧ q.gx = n 16 4 ∧ q.gy = n 20 4 ∧
    q.gz = n 24 4 ∧ q.cap = n 28 2 ∧ q.wins = n 30 2 ∧ q.init = n 32 2 ∧ q.wsize = n 34 2 ∧ q.pad = n 36 2 ∧ q.macros = n 38 1 ∧
    q.cluster = n 39 1 ∧ q.fpen = ctl % 32 ∧ q.trapEn = ctl.testBit 5 ∧ q.irq = ctl.testBit 6 ∧ q.trapVec = n 44 4 ∧
    q.cmpl = (if ctl.testBit 10 then some (n 48 8) else none) ∧ q.cnt = (if ctl.testBit 11 then some (n 56 8) else none) ∧
    q.seq = n 64 8 ∧ q.inc = n 72 8 ∧ q.fslots = (List.range 8).map (fun i => n (80 + 2 * i) 2) ∧
    (∀ i, i < 64 → tget 0 q.sregs i = BitVec.ofNat 32 (n (128 + 4 * i) 4)) ∧ q.nextIndex = 0 ∧ q.groups = [] ∧ q.ending = none

/-- A group as it starts (R16, R45, R180, R282). -/
def Starts (g : Group) (gridId : Nat) (q : Grid) (index k vdie : Nat) : Prop :=
  g.vf = q.vf ∧ g.k = k ∧ g.vdie = vdie ∧ g.grid = gridId ∧ g.index = index ∧ g.gx = index % q.gx ∧ g.gy = index / q.gx % q.gy ∧
    g.gz = index / (q.gx * q.gy) ∧ g.clupos = index % q.cluster ∧ g.codePtr = q.codePtr ∧ g.padLen = 4096 * q.pad ∧
    (∀ a, tget 0 g.pad a = 0) ∧ (∀ a, tget 0 g.acc a = 0) ∧ (∀ i, g.s i = tget 0 q.sregs i) ∧ g.absent = [] ∧ g.mxst = 0 ∧
    (∀ r, tget 32 g.tilew r = 32) ∧ (∀ i, tget KReg.idle g.kregs i = KReg.idle) ∧ g.tiles = [] ∧
    (∀ f, f < 4 * ((q.init + 3) / 4) → ∃ b, tfind g.fibres f = some b ∧ b.live = decide (f < q.init) ∧
      b.pc = BitVec.ofNat 32 q.entry ∧ b.preds = 0 ∧ (∀ i, b.v i = 0) ∧ b.fpst = BitVec.ofNat 32 (256 * (q.fpen % 32)) ∧
      b.inTrap = false ∧ b.park = .none) ∧
    ∀ f, 4 * ((q.init + 3) / 4) ≤ f → tfind g.fibres f = none


/-! ### Messages and homes -/

/-- A request stands at its home, next in its lane, with no earlier one to its line and, where it carries a vector, with every
agent's frontier past it (R206, R208, R209, R214, R236). -/
structure MayPerform (s : State) (m : Nat) (a : Access) : Prop where
  listed : tfind s.accs m = some a
  within : a.ext = 0
  queued : a.queued = false
  lane : a.cls ≠ .rx → s.laneFirst a = true
  copy : ∃ l r p, a.legs = l ++ .home p :: r
  fresh : s.keptReply a = none
  line : s.lineFirst a = true
  order : a.cls ≠ .rx → match a.seq with
    | some n => n = tget 0 (s.stack a.loc.stack).expectSeq (4 * a.agent + a.lane)
    | none => seqGe (tget 0 (s.stack a.loc.stack).expectSeq (4 * a.agent + a.lane)) a.seqAt = true
  gate : a.causal = true → ∀ e, e ≤ 32 → e ≠ a.agent → s.reaches e a.loc.stack = true → e ∉ (s.stack a.loc.stack).waived →
    vGe ((s.stack a.loc.stack).frontier e) (tget 0 a.vec e) = true

/-- The home answers a request: the reply goes back the way the request came, and the lane's number and the agent's frontier
move on (R206, R209, R236). -/
def Answers (t : State) (m : Nat) (a : Access) (r : Reply) : Prop :=
  (∃ a', tfind t.accs m = some a' ∧ a' = { a with performed := true, reply := some r, replyVec := a'.replyVec, legs := a'.legs } ∧
    ∃ p, Leg.home p ∈ a.legs ∧ Leg.back p ∈ a'.legs) ∧
  ∀ n, a.seq = some n → tget 0 (t.stack a.loc.stack).expectSeq (4 * a.agent + a.lane) = (n + 1) % 2 ^ 16 ∧
    (a.causal = true → tget 0 (t.stack a.loc.stack).fr (4 * a.agent + a.lane) = tget 0 a.vec a.agent ∧
      tget [] (t.stack a.loc.stack).laneVec (4 * a.agent + a.lane) = a.vec)

/-- The home writes bytes of the line of an address, given by their offset in the line, and answers. -/
def WritesHome (e : Instr) (s : State) (m : Nat) (a : Access) (bs : Tab Byte) : Prop :=
  ∀ u pin addr, s.homeAt a.loc .write (bs.length == 128) none a.hint a.cclass = (u, .at pin addr) →
    ∃ t, exec e s = .next t ∧ Answers t m a .ack ∧
      let new (old : Nat → Byte) (x : Nat) : Byte :=
        if addr / 128 * 128 ≤ x then (tfind bs (x - addr / 128 * 128)).getD (old x) else old x
      (∀ x, memByte t.mem x = if pin = true then memByte s.mem x else new (memByte s.mem) x) ∧
      ∀ x, memByte t.pin x = if pin = true then new (memByte s.pin) x else memByte s.pin x

/-- The home reads bytes and answers with them. -/
def ReadsHome (e : Instr) (s : State) (m : Nat) (a : Access) (n : Nat) : Prop :=
  ∀ u pin addr, s.homeAt a.loc .read false none a.hint a.cclass = (u, .at pin addr) →
    ∃ t bs, exec e s = .next t ∧ Answers t m a (.data bs) ∧ bs.length = n ∧ t.mem = s.mem ∧ t.pin = s.pin ∧
      ∀ j, j < n → bs.getD j 0 = memByte (if pin = true then s.pin else s.mem) (addr + j)

/-- The reply of an access that is no fault stands at its requester. -/
def Returns (s : State) (m : Nat) (a : Access) (r : Reply) : Prop :=
  tfind s.accs m = some a ∧ (∃ p, Leg.back p ∈ a.legs ∧ p.length ≤ 1) ∧ a.reply = some r

/-- The access is over, and its vector has reached its agent (R209). -/
def Over (s t : State) (m : Nat) (a : Access) : Prop :=
  tfind t.accs m = none ∧ (t.agent a.agent).vec = if a.causal = true then vMerge (s.agent a.agent).vec a.replyVec
    else (s.agent a.agent).vec

/-- A destination group holds a value, unless WBS keeps it from the registers. -/
def Holds32 (t : State) (gid f : Nat) (d : RetDst) (v : Nat) : Prop :=
  ∃ b', t.fibre? gid f = some b' ∧ (d.none = false → d.wbs = false → ∀ i, i < d.regs →
    b'.v (d.reg + i) = BitVec.ofNat 32 (v / 2 ^ (32 * i))) ∧ ∀ r ∈ d.pending, r ∉ b'.pendRegs

/-- A reissue (R235): the original number, the full vector. -/
def reissued (s : State) (a : Access) (r : List Nat) : Access :=
  { a with reissues := a.reissues + 1, sentAt := s.ns, nd := if a.causal then 33 else 0, legs := a.legs ++ [.out r []] }


/-- Eight bytes that a home holds from an address, as a number. -/
def word64At (s : State) (pin : Bool) (addr : Nat) : Nat :=
  leNat ((List.range 8).map fun j => memByte (if pin = true then s.pin else s.mem) (addr + j))

/-- The fibre resumes at the next slot. -/
def GoesOn (t : State) (gid f pc : Nat) (b : Fibre) : Prop :=
  ∃ b', t.fibre? gid f = some b' ∧ b'.park = .none ∧ (b.live = true → b'.pc = BitVec.ofNat 32 (seqPc pc))

/-- No lock of an MCAS is held. -/
def Unlocked (t : State) (x : Nat) : Prop := ∀ st, st < 16 → ∀ l ∈ (t.stack st).locks, l.2 ≠ x

/-- The coordinator of an MCAS answers. -/
def Replied (t : State) (q : Mcas) (r : Reply) : Prop :=
  ∃ a, tfind t.accs q.access = some a ∧ a.reply = some r ∧ ∃ p, a.legs = [.back p]

/-- The result of an MCAS (Table 15.5): OK, and the entries that do not match. -/
def McasWord (q : Mcas) (w : Nat) : Prop :=
  (∀ (i : Nat) (e : McasEnt), q.ents[i]? = some e → w.testBit i = !(e.seen == some e.expect)) ∧
    (w.testBit 31 = true ↔ ∀ e ∈ q.ents, e.seen = some e.expect) ∧ w < 2 ^ 32 ∧ ∀ i, q.ents.length ≤ i → i < 31 → w.testBit i = false

/-- A CWAIT that its place has answered at the timeout (R266 step 3). -/
def timedOut (s : State) (x : Waiter) (v : Nat) : Waiter :=
  { x with steps := [], entered := false, replies := x.replies ++ x.steps.map fun t => (t.1, v), replyVec := s.waitVec x }


/-! ### Halts and scrubs -/

/-- A request halts a group at an instruction boundary of every fibre, at once or after its hold run (R319, R330). -/
def Halts (s t : State) (gid : Nat) (g : Group) : Prop :=
  ∃ gt, t.group? gid = some gt ∧ (gt.halted = true ∨ gt.halting = true) ∧
    ((∀ sl, sl < 4 → (s.slice g.k sl).hold = none) → gt.halted = true) ∧
    gt = { g with fibres := gt.fibres, pairWait := gt.pairWait, halted := gt.halted, halting := gt.halting, latchTags := gt.latchTags,
                  pendExec := gt.pendExec } ∧
    ∀ f b, tfind g.fibres f = some b → ∃ b', tfind gt.fibres f = some b' ∧
      b' = { b with park := b'.park, since := b'.since, popped := b'.popped } ∧ (b'.park = b.park ∨ b'.park = .none)

/-- Only the gang state of one partition changes. -/
def GangBecomes (s t : State) (l : Nat) (f : Gang → Gang) : Prop :=
  t = { s with mh := t.mh } ∧ t.mh = { s.mh with gangs := t.mh.gangs } ∧ (∀ j, j ≠ l → t.gang j = s.gang j) ∧ t.gang l = f (s.gang l)

/-- VFs that the rotation does not skip (R321). -/
def turns (s : State) (l : Nat) : List Nat := (s.vfsOf l).filter s.inRotation

/-- A VF whose one halted group stands on its core in service, alone in its cluster, with no execution pending. -/
def OneHalted (s : State) (v gid : Nat) (g : Group) : Prop :=
  s.groups.filter (fun p => p.2.vf == v && p.2.halted && !p.2.dead) = [(gid, g)] ∧ s.mates g = [(gid, g)] ∧ g.evicted = false ∧
    g.ended = none ∧ g.lateFaults = [] ∧ (∀ p ∈ s.mcas, p.2.gid ≠ gid) ∧ s.dieRuns (g.k / 16) = true ∧ s.group? gid = some g ∧
    (s.core g.k).out = false ∧ (s.ctx v).tearing = false ∧ g.pendExec = [] ∧ NoneConverging g

/-- A frame is scrubbed (R348): zero, INIT set, FREE. -/
def FrameCleared (s t : State) (st f : Nat) : Prop :=
  tget Frame.reset (t.stack st).frames f = ⟨.free, 0, true⟩ ∧
  (∀ j, j ≠ f → tget Frame.reset (t.stack st).frames j = tget Frame.reset (s.stack st).frames j) ∧ t.pin = s.pin ∧
  ∀ a, memByte t.mem a = if memAddr st (f * 2 ^ 16) ≤ a ∧ a < memAddr st (f * 2 ^ 16) + 2 ^ 16 then 0 else memByte s.mem a


/-! ### Security commands -/

/-- The oldest command of a core, still to be carried out (R339). -/
structure Oldest (s : State) (k op : Nat) (c : Cmd) : Prop where
  first : ∃ rest sub w0 w1 w2 w3, (s.core k).cmds = [sub, w0, w1, w2, w3] :: rest ∧ op = w0.toNat % 256 ∧
    c = ⟨sub.toNat, op, w0.toNat / 2 ^ 8 % 256, w0.toNat / 2 ^ 16 % 256, w0.toNat / 2 ^ 24 % 256, w0.toNat / 2 ^ 32, w1.toNat,
      w2.toNat, w3.toNat⟩
  waiting : (s.core k).cmdDone = none

/-- The same with a tag alone in W3 and a UNIT that Table 21.7's word names (R339). -/
structure Commands (s : State) (k op : Nat) (c : Cmd) : Prop extends Oldest s k op c where
  tagged : c.w3 < 65536
  unit : c.unit ≤ 16 ∨ c.unit = 255

/-- The events of the commands, by OP (Table 21.7). -/
def commandEvents (k : Nat) : List (Nat × Instr) :=
  [(0x01, .rdreg k), (0x02, .wrreg k), (0x10, .keygen k), (0x11, .zeroise k), (0x12, .window k), (0x20, .assign k), (0x21, .scrub k),
   (0x22, .teardown k), (0x30, .invbuf k), (0x31, .invtlb k), (0x32, .invrtn k), (0x40, .install k), (0x41, .preempt k)]

/-- The command is carried out: what it changes, and its status. -/
def Carried (e : Instr) (s : State) (k st : Nat) (effect : State → Prop) : Prop :=
  ∃ u, effect u ∧ exec e s = .next (u.modCore k fun co => { co with cmdDone := some st })

/-- It ends with a status and changes nothing. -/
def Refused (e : Instr) (s : State) (k st : Nat) : Prop := Carried e s k st fun u => u = s

/-- The stacks of a UNIT. -/
def Units (unit : Nat) (us : List Nat) : Prop := (unit ≤ 15 ∧ us = [unit]) ∨ (unit = 255 ∧ us = List.range 16)
def NoUnits (unit : Nat) : Prop := 15 < unit ∧ unit ≠ 255

/-- KSLOT n of a stack. -/
def slotAt (s : State) (t n : Nat) : KeySlot := tget KeySlot.reset (s.stack t).slots n
def frameAt (s : State) (t f : Nat) : Frame := tget Frame.reset (s.stack t).frames f

/-- Only the stacks change, and of them only what is named. -/
def StacksBecome (s u : State) (f : Nat → Stack → Stack) : Prop :=
  u = { s with stks := u.stks } ∧ ∀ t, u.stack t = f t (s.stack t)

/-- The TDI of a VF under lock (R338). -/
def Locked (s : State) (vf : Nat) : Prop := (s.ctx vf).tdi = .locked ∨ (s.ctx vf).tdi = .run

/-- Only the context of one VF changes. -/
def CtxBecomes (s t : State) (vf : Nat) (f : Ctx → Ctx) : Prop :=
  t = { s with ctxs := t.ctxs } ∧ (∀ j, j ≠ vf → t.ctx j = s.ctx j) ∧ t.ctx vf = f (s.ctx vf)

/-- A window that both verifiers have consented to: number, peers and length agree (R345). -/
def BothConsent (s : State) (win p q : Nat) : Prop :=
  p < q ∧ ∃ x ∈ (s.ctx p).consents, ∃ y ∈ (s.ctx q).consents, x.win = win ∧ y.win = win ∧ x.peer = q ∧ y.peer = p ∧ x.len = y.len

/-- Nothing of a VF runs, is accepted or waits, and no access under its slots is left. -/
def Idle (s : State) (vf : Nat) : Prop :=
  (∀ p ∈ s.groups, p.2.vf = vf → p.2.evicted = true ∨ p.2.toHalt = false) ∧ (∀ p ∈ s.groups, p.2.vf = vf → p.2.savedEng = []) ∧
  (∀ p ∈ s.cards, p.2.vf ≠ vf) ∧ (∀ p ∈ s.cores, ∀ x ∈ p.2.eng, x.vf ≠ vf) ∧ (∀ p ∈ s.colls, p.2.vf ≠ vf) ∧
  (∀ p ∈ s.grids, p.2.vf ≠ vf) ∧ (∀ p ∈ s.items, p.2.vf ≠ vf) ∧
  ∀ p ∈ s.accs, (slotAt s p.2.loc.stack p.2.loc.key).st ≠ .free → (slotAt s p.2.loc.stack p.2.loc.key).vf = vf → p.2.performed = true

/-- A VF's context is torn down, with every group of it left to the scrub engine (R348). -/
def TornDown (s : State) (vf : Nat) (u : State) : Prop :=
  (u.ctx vf).desc = none ∧ (u.ctx vf).consents = [] ∧
  (∀ t n, t < 16 → n ≠ 0 → slotAt u t n = if (slotAt s t n).st ≠ .free ∧ (slotAt s t n).vf = vf then
    ⟨(slotAt s t n).gen, 0, .free, 0, 0⟩ else slotAt s t n) ∧
  (∀ t f, t < 16 → (frameAt s t f).st = .assigned → (frameAt s t f).key ≠ 0 →
    (slotAt s t (frameAt s t f).key).st ≠ .free → (slotAt s t (frameAt s t f).key).vf = vf → (frameAt u t f).st = .scrub) ∧
  (∀ w ∈ u.mh.windows, w.2.2.1 ≠ vf ∧ w.2.2.2.1 ≠ vf) ∧
  (∀ j g, s.group? j = some g → g.vf = vf → u.group? j = none ∨ ∃ gt, u.group? j = some gt ∧ gt.dead = true) ∧
  (∀ p ∈ u.cores, (∀ b ∈ p.2.bufs, b.1 ≠ vf) ∧ ∀ l ∈ p.2.icache, l.vf ≠ vf) ∧
  ∀ p ∈ u.stks, (∀ e ∈ p.2.tlb, e.vf ≠ vf) ∧ ∀ r ∈ p.2.routines, r.1 / 64 ≠ vf

/-- No key slot, frame or group of a state is listed twice. -/
def Unshadowed (s : State) : Prop :=
  Distinct s.groups ∧ ∀ t, t < 16 → Distinct (s.stack t).slots ∧ Distinct (s.stack t).frames


/-! ### Sessions and links -/

/-- The responder is up, and the VF is in one of some phases. -/
def InPhase (s : State) (vf : Nat) (ps : List SpdmPh) : Prop := s.mh.boot = .done ∧ vf ≤ 192 ∧ (s.ctx vf).spdm ∈ ps

/-- An SPDM request is answered: the phase afterwards, and a response with a code leaves the device. -/
def Responds (e : Instr) (s : State) (vf : Nat) (p : SpdmPh) (code : Nat) (data : List Byte → Prop) : Prop :=
  ∃ t bs, exec e s = .next t ∧ t = { s with ctxs := t.ctxs, mh := t.mh, out := s.out ++ [.spdm vf code bs], freeCtr := t.freeCtr } ∧
    t.mh = { s.mh with nextKey := t.mh.nextKey } ∧ (∀ j, j ≠ vf → t.ctx j = s.ctx j) ∧
    t.ctx vf = { s.ctx vf with spdm := p, sessionKey := (t.ctx vf).sessionKey } ∧ data bs

/-- A request that its phase does not admit meets an error. -/
def Rejects (e : Instr) (s : State) (vf : Nat) : Prop := exec e s = .next { s with out := s.out ++ [.spdmError vf] }

/-- Only one Hexavo port changes. -/
def PortBecomes (s t : State) (st p : Nat) (f : HxPort → HxPort) : Prop :=
  (∀ n, n ≠ st → t.stack n = s.stack n) ∧ t.stack st = { s.stack st with hx := (t.stack st).hx } ∧
    ∀ q, t.hxPort st q = if q = p then f (s.hxPort st p) else s.hxPort st q

/-- The old receive generation has brought every frame that the peer's notice counts (R362 step 3). -/
def Drained (x : HxPort) (n : Nat) : Prop := x.rotating = true ∧ x.confirmed = true ∧ n ≤ if x.txgen = true then x.recv0 else x.recv1

/-- The old receive key goes. -/
def oldKeyGone (x : HxPort) : HxPort :=
  { (if x.txgen then { x with rxg0 := false, key0 := 0 } else { x with rxg1 := false, key1 := 0 }) with
    rotating := false, confirmed := false, notice := none }

/-- The algorithms of R336 in an answer: SHA-384 for measurements and transcripts, no basic but one extended asymmetric
algorithm, ECDHE on secp384r1, AES-256-GCM. -/
def Algorithms (bs : List Byte) : Prop :=
  leNat ((bs.drop 4).take 4) = 4 ∧ leNat ((bs.drop 8).take 4) = 0 ∧ leNat ((bs.drop 12).take 4) = 2 ∧ bs.getD 28 0 = 1 ∧
  leNat ((bs.drop 32).take 4) = Config.brainpoolId.toNat ∧ leNat ((bs.drop 38).take 2) = 0x10 ∧ leNat ((bs.drop 42).take 2) = 2

/-- The phases once algorithms are negotiated. -/
def agreed : List SpdmPh := [.negotiated, .keyExchanged, .session]


/-! ### The host and the sensors -/

/-- An access of the masthead for the host at an offset of buffer 0 (R358). -/
def HostAccess (s t : State) (vf off : Nat) (op : MemOp) (o : Owner) : Prop :=
  ∃ id a, s.nextAcc ≤ id ∧ tfind t.accs id = some a ∧ a.agent = 32 ∧ a.loc = s.locOf (s.tableEntry vf 0) off ∧ a.op = op ∧ a.owner = o ∧
    a.cls = .ox ∧ a.scope = .sys

/-- The state of a TDI that a warm reset treats as locked (R349, R355). -/
abbrev Guarded (s : State) (vf : Nat) : Prop := (s.ctx vf).tdi ≠ .unlocked

/-- Every part of the machine at its reset value; what only the model counts goes on. -/
def coldState (s : State) : State :=
  let m : Masthead := { State.reset.mh with nextKey := s.mh.nextKey }
  { State.reset with agenda := s.agenda, freeCtr := s.freeCtr, out := s.out, nextId := s.nextId, nextAcc := s.nextAcc, mh := m }


/-! ### Registers and power -/

/-- A die's partition has no switch and no other command under way, nothing that a halt concerns, and nothing of the die's in
flight. -/
structure DieFree (s : State) (d : Nat) : Prop where
  idle : (s.gang (s.leaderOfDie d)).phase = .idle
  still : ∀ j ∈ s.diesOf (s.leaderOfDie d), s.running j = []
  quiet : ∀ p ∈ s.accs, p.2.agent ≠ d
  noSlice : (s.gang (s.leaderOfDie d)).cur = none
  nothingLater : s.mh.pwrLater = []

/-- R239: the final beats: every frontier of the die stands at its final counter. -/
def FinalBeats (s t : State) (d : Nat) : Prop :=
  (∀ b ∈ t.beats, b.agent ≠ d) ∧ ∀ st l, st < 16 → l < 4 → tget 0 (t.stack st).fr (4 * d + l) = tget 0 (s.agent d).vec d

/-- Only one die changes. -/
def DieBecomes (s t : State) (d : Nat) (f : Die → Die) : Prop :=
  t = { s with dies := t.dies } ∧ ∀ j, t.die j = if j = d then f (s.die d) else s.die j

/-- The level that a run event asks for. -/
def runEvent (l : PwrLevel) (d : Nat) : Instr := match l with
  | .l0 => .l0 d
  | .l1 => .l1 d
  | _ => .l2 d

/-- A field of quotas stays within its table (R268). -/
def Within {w : Nat} (t : Tab (BitVec w)) (n lo bits top : Nat) (v : BitVec w) : Prop :=
  sumOf ((tput 0 t n v).map fun p => p.2.toNat / 2 ^ lo % 2 ^ bits) ≤ top

/-! ### Collective programs -/

/-- An instance stands ready to execute the word w (R364). -/
structure InstAt (s : State) (c i : Nat) (q : Coll) (x : Inst) (w : Nat) : Prop where
  coll : tfind s.colls c = some q
  inst : q.insts[i]? = some x
  stack : x.stack < 16
  running : x.st = .running
  ending : q.ending = none
  budget : tget 0 (s.stack x.stack).abUsed q.vf < shareOf (s.ctx q.vf) 40 128000
  aligned : x.pc.toNat % 4 = 0
  within : x.pc.toNat + 4 ≤ q.imgLen
  passes : s.checkPtr q.vf (ptrAdd q.img x.pc.toNat) 4 0 .x = none
  word : ∃ bs, s.peekPtr q.vf (ptrAdd q.img x.pc.toNat) 4 = some bs ∧ leNat bs = w

/-- One stack becomes `f` of itself. -/
def OnStack (s t : State) (n : Nat) (f : Stack → Stack) : Prop :=
  ∀ m, t.stack m = if m = n then f (s.stack n) else s.stack m

/-- The instance becomes y, and one instruction is charged to the abacus budget of its VF (R364). -/
def InstBecomes (s t : State) (c i : Nat) (q : Coll) (x y : Inst) : Prop :=
  t = { s with colls := t.colls, stks := t.stks } ∧
  (∀ j, tfind t.colls j = if j = c then some { q with insts := q.insts.set i { y with prog := 0 } } else tfind s.colls j) ∧
  OnStack s t x.stack (fun k => { k with abUsed := (t.stack x.stack).abUsed }) ∧
  ∀ v, tget 0 (t.stack x.stack).abUsed v = tget 0 (s.stack x.stack).abUsed v + if v = q.vf then 1 else 0

/-- The instance ends and its core is free; with `e` the collective's first abort or fault is recorded (R366). -/
def InstEnds (s t : State) (c i : Nat) (q : Coll) (x : Inst) (e : Option Nat) : Prop :=
  t = { s with colls := t.colls, stks := t.stks } ∧
  (∃ time, tfind t.colls c = some { q with
    insts := q.insts.set i { x with st := .ended }, ending := e.elim q.ending fun st => some (time, 16 + x.stack, st) }) ∧
  (∀ j, j ≠ c → tfind t.colls j = tfind s.colls j) ∧
  OnStack s t x.stack (fun k => { k with abacus := k.abacus.filter (· != instSlot c i) })

/-- The next word in order. -/
def nextWord (x : Inst) : DWord := x.pc + 4

/-- A field of an instruction word. -/
def fieldB (w lo n : Nat) : Nat := w / 2 ^ lo % 2 ^ n

/-- Register n of a hart: x0 is zero. -/
def hartReg (x : Inst) (n : Nat) : DWord := if n = 0 then 0 else tget 0 x.x n

/-- A write of register rd; x0 discards it. -/
def RegPut (x y : Inst) (rd : Nat) (v : DWord) (pc : DWord) : Prop :=
  y = { x with x := y.x, pc := pc } ∧ ∀ n, n ≠ 0 → tget 0 y.x n = if n = rd then v else tget 0 x.x n

def sext32 (v : DWord) : DWord := (v.setWidth 32).signExtend 64

/-- RV64I and M: what OP, by funct7 and funct3, leaves for two registers. -/
def opValue (f7 f3 : Nat) (a b : DWord) : Option DWord :=
  let n := b.toNat % 64
  match f7, f3 with
  | 0, 0 => some (a + b)
  | 0x20, 0 => some (a - b)
  | 0, 1 => some (a <<< n)
  | 0, 2 => some (if a.slt b then 1 else 0)
  | 0, 3 => some (if a.ult b then 1 else 0)
  | 0, 4 => some (a ^^^ b)
  | 0, 5 => some (a >>> n)
  | 0x20, 5 => some (a.sshiftRight n)
  | 0, 6 => some (a ||| b)
  | 0, 7 => some (a &&& b)
  | 1, 0 => some (a * b)
  | 1, 1 => some (BitVec.ofInt 64 (a.toInt * b.toInt / 2 ^ 64))
  | 1, 2 => some (BitVec.ofInt 64 (a.toInt * b.toNat / 2 ^ 64))
  | 1, 3 => some (BitVec.ofNat 64 (a.toNat * b.toNat / 2 ^ 64))
  | 1, 4 => some (if b = 0 then -1 else a.sdiv b)
  | 1, 5 => some (if b = 0 then -1 else a.udiv b)
  | 1, 6 => some (if b = 0 then a else a.srem b)
  | 1, 7 => some (if b = 0 then a else a.umod b)
  | _, _ => none

/-- The same of OP-32. -/
def opValueW (f7 f3 : Nat) (a b : DWord) : Option DWord :=
  let u := a.setWidth 32
  let v := b.setWidth 32
  let n := b.toNat % 32
  let out (r : Word) : Option DWord := some (r.signExtend 64)
  match f7, f3 with
  | 0, 0 => out (u + v)
  | 0x20, 0 => out (u - v)
  | 0, 1 => out (u <<< n)
  | 0, 5 => out (u >>> n)
  | 0x20, 5 => out (u.sshiftRight n)
  | 1, 0 => out (u * v)
  | 1, 4 => out (if v = 0 then -1 else u.sdiv v)
  | 1, 5 => out (if v = 0 then -1 else u.udiv v)
  | 1, 6 => out (if v = 0 then u else u.srem v)
  | 1, 7 => out (if v = 0 then u else u.umod v)
  | _, _ => none

/-- What an integer instruction that goes on in order leaves in rd. -/
def intValue (x : Inst) (w : Nat) : Option DWord :=
  let f3 := fieldB w 12 3
  let a := hartReg x (fieldB w 15 5)
  let b := hartReg x (fieldB w 20 5)
  let imm : DWord := (BitVec.ofNat 12 (fieldB w 20 12)).signExtend 64
  match fieldB w 0 7 with
  | 0x37 => some ((BitVec.ofNat 32 (fieldB w 12 20 * 4096)).signExtend 64)
  | 0x17 => some (x.pc + (BitVec.ofNat 32 (fieldB w 12 20 * 4096)).signExtend 64)
  | 0x33 => opValue (fieldB w 25 7) f3 a b
  | 0x3B => opValueW (fieldB w 25 7) f3 a b
  | 0x13 =>
    if f3 = 1 ∨ f3 = 5 then
      if fieldB w 26 6 = 0 ∨ (fieldB w 26 6 = 0x10 ∧ f3 = 5) then opValue (2 * fieldB w 26 6) f3 a (BitVec.ofNat 64 (fieldB w 20 6)) else none
    else opValue 0 f3 a imm
  | 0x1B =>
    if f3 = 0 then opValueW 0 0 a imm
    else if f3 = 1 ∨ f3 = 5 then
      if fieldB w 25 7 = 0 ∨ (fieldB w 25 7 = 0x20 ∧ f3 = 5) then opValueW (fieldB w 25 7) f3 a (BitVec.ofNat 64 (fieldB w 20 5)) else none
    else none
  | _ => none

/-- The condition of a branch. -/
def branchTaken (f3 : Nat) (a b : DWord) : Option Bool :=
  match f3 with
  | 0 => some (a == b)
  | 1 => some (a != b)
  | 4 => some (a.slt b)
  | 5 => some (!a.slt b)
  | 6 => some (a.ult b)
  | 7 => some (!a.ult b)
  | _ => none

def branchOffset (w : Nat) : DWord :=
  (BitVec.ofNat 13 (fieldB w 31 1 * 4096 + fieldB w 7 1 * 2048 + fieldB w 25 6 * 32 + fieldB w 8 4 * 2)).signExtend 64
def jumpOffset (w : Nat) : DWord :=
  (BitVec.ofNat 21 (fieldB w 31 1 * 2 ^ 20 + fieldB w 12 8 * 4096 + fieldB w 20 1 * 2048 + fieldB w 21 10 * 2)).signExtend 64

/-- Bytes of a scalar load, and whether it extends the sign. -/
def loadKind (f3 : Nat) : Option (Nat × Bool) :=
  if f3 ≤ 3 then some (2 ^ f3, true) else if f3 ≤ 6 then some (2 ^ (f3 - 4), false) else none

/-- A loaded value in its register. -/
def extended (n : Nat) (sgn : Bool) (v : Nat) : DWord :=
  if sgn then (BitVec.ofNat (8 * n) v).signExtend 64 else BitVec.ofNat 64 v

/-- R365: an access of an instance is allowed. -/
def MayAccess (s : State) (q : Coll) (ptr n : Nat) (right : Right) : Prop :=
  s.checkPtr q.vf ptr n n right = none ∧
    ∃ g ∈ (if right = .w then q.writes else q.reads), g.holds ptr (ptrOff ptr) n = true

/-- CSRRW of a register, and the value written. -/
def Csrrw (x : Inst) (w num : Nat) (v : DWord) : Prop :=
  fieldB w 0 7 = 0x73 ∧ fieldB w 20 12 = num ∧
    ((fieldB w 12 3 = 1 ∧ v = hartReg x (fieldB w 15 5)) ∨ (fieldB w 12 3 = 5 ∧ v = BitVec.ofNat 64 (fieldB w 15 5)))

/-- The counter of CPTR may be worked on: R173 for right A, no port. -/
def CounterSound (s : State) (q : Coll) (x : Inst) : Prop :=
  s.checkPtr q.vf x.cptr.toNat 8 8 .a = none ∧ outside x.cptr.toNat = false
def counterLoc (s : State) (q : Coll) (x : Inst) : Loc :=
  s.locOf (s.tableEntry q.vf (x.cptr.toNat / 2 ^ 48 % 2 ^ 16)) x.cptr.toNat

/-- The instance's accesses beyond a port are performed. -/
def NoneOut (s : State) (c i n : Nat) : Prop := ∀ p ∈ s.accs, p.2.owner ≠ .send c i n

/-- The state after the scope clamp of R221. -/
def Clamped (s : State) (q : Coll) (x : Inst) : State := (s.clamp q.vf (scopeOf (x.accctl % 8))).1

/-- A send's descriptor is sound (Table 23.5). -/
def SendSound (s : State) (q : Coll) (bs : List Byte) : Prop :=
  let n (o k : Nat) : Nat := leNat ((bs.drop o).take k)
  n 20 4 = 0 ∧ n 40 24 = 0 ∧ 1 ≤ n 16 4 ∧ n 16 4 ≤ 2 ^ 20 ∧ outside (n 0 8) = false ∧ outside (n 8 8) = true ∧
    s.checkPtr q.vf (n 0 8) (n 16 4) 0 .r = none ∧ s.checkPtr q.vf (n 8 8) (n 16 4) 0 .w = none ∧
    (extKind (s.tableEntry q.vf (n 8 8 / 2 ^ 48 % 2 ^ 16)) = 1 ∨ extKind (s.tableEntry q.vf (n 8 8 / 2 ^ 48 % 2 ^ 16)) = 2) ∧
    (∃ g ∈ q.reads, g.holds (n 0 8) (ptrOff (n 0 8)) (n 16 4) = true) ∧
    ∃ g ∈ q.writes, g.holds (n 8 8) (ptrOff (n 8 8)) (n 16 4) = true

/-- The send that a descriptor asks for. -/
def sendOf (bs : List Byte) : HxSend :=
  let n (o k : Nat) : Nat := leNat ((bs.drop o).take k)
  ⟨n 0 8, n 8 8, n 16 4, n 24 8, n 32 8, 0, false, false⟩

/-! ### The whole machine: decoding, operands, issue -/

/-- Assigned codes (Table 3.9). -/
def assigned (n : Nat) : Prop :=
  (0x001 ≤ n ∧ n ≤ 0x019) ∨ (0x040 ≤ n ∧ n ≤ 0x047) ∨ (0x080 ≤ n ∧ n ≤ 0x08C) ∨ (0x100 ≤ n ∧ n ≤ 0x107) ∨
    (0x110 ≤ n ∧ n ≤ 0x112) ∨ (0x180 ≤ n ∧ n ≤ 0x188) ∨ (0x1A0 ≤ n ∧ n ≤ 0x1A2) ∨ (0x200 ≤ n ∧ n ≤ 0x209) ∨
    (0x280 ≤ n ∧ n ≤ 0x285) ∨ (0x290 ≤ n ∧ n ≤ 0x296) ∨ (0x300 ≤ n ∧ n ≤ 0x303) ∨ (0x310 ≤ n ∧ n ≤ 0x313) ∨
    (0x380 ≤ n ∧ n ≤ 0x38B) ∨ (0x390 ≤ n ∧ n ≤ 0x391) ∨ (0x3C0 ≤ n ∧ n ≤ 0x3C6)

/-- A slot from its three 32-bit words, bits [95:64] first. -/
def words (a b c : Word) : Slot := a ++ b ++ c

/-- A PC's slot (R49). -/
def slotAtPc (pc n : Nat) : Prop := n ≤ 4 ∧ pc % 64 = 12 * n

/-- What a slice is about to issue: the issue heads the agenda, the die runs, the slice chooses bundle b of group g, and the
bundle's line is in the instruction cache (R30, R32, R49). -/
structure AboutToIssue (s u : State) (k sl : Nat) (b : Bundle) (g : Group) (line : ILine) (n : Nat) : Prop where
  agenda : ∃ rest, s.agenda = .issue k sl :: rest ∧ u = { s with agenda := rest }
  runs : u.dieRuns (k / 16) = true
  core : k ≤ 255 ∧ sl ≤ 3 ∧ g.k = k
  picked : u.pickBundle k sl = some b
  group : u.group? b.gid = some g
  within : b.pc < g.codeLen
  slot : slotAtPc b.pc n
  held : (u.core k).iline g.vf g.codePtr (b.pc / 64 * 64) = some line

/-- What the issue itself changes from `u` to `t` (R34, R36, R67): the slot is charged once a cycle, latches of another bundle's
instruction lose their data, and each enabled fibre remembers when and in which lane it issued. -/
structure Issued (u t : State) (k sl : Nat) (b : Bundle) (g : Group) : Prop where
  rest : t = { u with cur := t.cur, groups := t.groups, cores := t.cores }
  others : ∀ j, j ≠ k → t.core j = u.core j
  slices : ∀ x, x ≠ sl → t.slice k x = u.slice k x
  core : t.core k = { u.core k with slices := (t.core k).slices, used := (t.core k).used }
  charge : ∀ v, tget 0 (t.core k).used v = tget 0 (u.core k).used v +
    if v = g.vf ∧ (u.slice k sl).issuedAt ≠ some (u.cycleOf k) then 1 else 0
  last : (t.slice k sl).last = some b.num ∧ (t.slice k sl).issuedAt = some (u.cycleOf k)
  same : (u.slice k sl).last = some b.num → (t.slice k sl).latches = (u.slice k sl).latches
  cleared : (u.slice k sl).last ≠ some b.num → ∀ x, let l := tget Latch.empty (t.slice k sl).latches x
    l.valid = false ∧ l.data = [] ∧ l.tag = (tget Latch.empty (u.slice k sl).latches x).tag
  groups : ∀ j y, u.group? j = some y → ∃ yt, t.group? j = some yt ∧ yt = { y with fibres := yt.fibres } ∧
    ∀ f z, tfind y.fibres f = some z → ∃ z', tfind yt.fibres f = some z' ∧
      z' = { z with lastIssue := z'.lastIssue, lane := z'.lane } ∧
      if j = b.gid ∧ f ∈ b.en then z'.lastIssue = u.cycleOf k ∧ z'.lane = 4 * b.quads.idxOf (f / 4) + f % 4 else z' = z

/-- The issue ends in a fault of the whole bundle, and the slice's latches lose their data (R67, R71, R72, R313). -/
def IssueFaults (s u : State) (k sl : Nat) (b : Bundle) (g : Group) (cs : Nat) : Prop :=
  ∃ t mask, Issued u t k sl b g ∧ t.cur = u.cur ∧
    step s = .next ((t.takeFault b.gid cs b.pc mask (b.en.headD 0) 0 0).modSlice k sl Slice.clearLatches) ∧
    ∀ l, l < 32 → mask.testBit l = decide (∃ f ∈ b.en, l = 4 * b.quads.idxOf (f / 4) + f % 4)

/-- A group of n registers, the first lowest (R58). -/
def GroupValue (reg : Nat → Word) (first n v : Nat) : Prop :=
  v < 2 ^ (32 * n) ∧ ∀ j, j < n → v / 2 ^ (32 * j) % 2 ^ 32 = (reg (first + j)).toNat

/-! ### Parts of statements -/

/-- R111 to R115: IADD, ISUB, IMUL, IMAD, IMADW, IMIN, IMAX and IABS in every format and type. -/
def IntegerArithmetic : Prop := ∀ i m, arithmetic i = some m → Computes i m

/-- R116: AND, OR, XOR and ANDN, bit by bit. -/
def LogicBits : Prop := ∀ i m, logic i = some m → Computes i m

/-- R117 to R121: shifts, fields, counts and reversal, bit by bit. -/
def ShiftAndFieldBits : Prop := ∀ i m, shifts i = some m → Computes i m

/-- R124, R125, R126, R130, R138, R318: MOV and MOVI to registers, LEA, MFS, TIME and QSTAT. -/
def MovesAndReads : Prop := ∀ i cond m, reading i = some (cond, m) → Yields i cond m

/-- R126: LEA.chk in its fault form writes nothing and raises Buffer Bounds for the fibres whose check fails. -/
def LeaBoundsFault : Prop :=
  ∀ i md off, (∃ f, i = .lea f ∧ f.oe.om = false ∧ md = f.md ∧ off = LaneIn.bb) ∨
      (∃ f, i = .leaImm f ∧ md = f.md ∧ off = fun _ => f.imm.toNat) →
    md.getLsbD 5 = true → ∀ s u c g h, Ready i s u c g h → ∀ f rest,
    (∀ f b x, tfind g.fibres f = some b → argsOf u c g h f b = some x →
      ((u.core c.k).bufEntry g.vf (ptrIdx (x.a % 2 ^ 64))).isSome = true) →
    (actors u c g h).filter (fun f => ((tfind g.fibres f).bind (argsOf u c g h f)).any fun x =>
      !leaPasses u c.k g.vf (x.a % 2 ^ 64) (leaOffset md (x.a % 2 ^ 64) (off x))) = f :: rest →
    ∃ eptr, exec i s = .next (u.faultAt c cause.bufBounds (f :: rest) 0 eptr)

/-- R124, R125, R273, R274: MOV, MOVI and QWR to q0, q1 and q2 append each acting fibre's bytes to its card buffer. -/
def CardAppends : Prop :=
  ∀ i n v, pushOf i = some (n, v) → i.decodeTrap = none → ∀ s u c g h, Ready i s u c g h →
    h.dst.1.kind = .queue → h.dst.1.num.toNat ≤ 2 → (g.executing c).Nodup →
    (∀ f b, tfind g.fibres f = some b → acting u c g h f = true → (b.card h.dst.1.num.toNat).length + n ≤ 256) →
    ∃ t, exec i s = .next t ∧ FibresOnly u t c.gid g ∧ ∀ f b, tfind g.fibres f = some b →
      ∃ b', t.fibre? c.gid f = some b' ∧ CardsOnly b b' ∧ (b.live = true → b'.pc = passes c g f b) ∧
      (∀ q, q ≤ 2 → b'.card q =
        if q = h.dst.1.num.toNat ∧ b.live = true then
          b.card q ++ ((argsOf u c g h f b).map fun x => leBytes n (v x)).getD []
        else b.card q)

/-- R275: an append past 256 bytes raises Card Format for the fibres that make it, and their buffers are emptied. -/
def CardOverflow : Prop :=
  ∀ i n v, pushOf i = some (n, v) → i.decodeTrap = none → ∀ s u c g h, Ready i s u c g h →
    h.dst.1.kind = .queue → h.dst.1.num.toNat ≤ 2 → ∀ f rest,
    (actors u c g h).filter (fun f => (tfind g.fibres f).any fun b =>
      decide (256 < (b.card h.dst.1.num.toNat).length + n)) = f :: rest →
    ∃ w, exec i s = .next (w.faultAt c cause.cardFormat (f :: rest) 0 0) ∧ FibresOnly u w c.gid g ∧
      ∀ f' b, tfind g.fibres f' = some b → ∃ b', w.fibre? c.gid f' = some b' ∧ CardsOnly b b' ∧
        ∀ q, q ≤ 2 → b'.card q = if q = h.dst.1.num.toNat ∧ f' ∈ f :: rest then [] else b.card q

/-- R37, R132: under UNI, fibres that disagree raise a Divergence Assertion in every fibre of the bundle, marked for those
that would branch; nothing else changes. -/
def DivergenceAssertion : Prop :=
  ∀ i s u c g h target link, Ready i s u c g h → waitQueuesOf h = [] → transferOf c i = some (target, true, link) →
    ¬ Agree (nextOf target u c g h) c → MayTrap u g c.en →
    ∃ t, exec i s = .next t ∧ Entered u t c g 0x03 c.en (actors u c g h) (fun f => if f ∈ actors u c g h then 1 else 0)

/-- R49, R132: a transfer to an invalid target is a Branch Target fault of the fibres concerned, and nothing changes. -/
def InvalidTargets : Prop :=
  ∀ i s u c g h target uni link f rest, Ready i s u c g h → transferOf c i = some (target, uni, link) →
    (uni = true → Agree (nextOf target u c g h) c) →
    (actors u c g h).filter (fun f => !u.validTarget g (nextOf target u c g h f)) = f :: rest →
    exec i s = .next (u.faultAt c 0x16 (f :: rest) 0 0)

/-- R318, R315: TRAP n and BPT take the acting fibres to the trap vector. -/
def SoftwareTraps : Prop :=
  ∀ i s u c g h cs low, Ready i s u c g h → softCode i = some (cs, low) → actors u c g h ≠ [] →
    MayTrap u g (actors u c g h) →
    ∃ t, exec i s = .next t ∧ Entered u t c g cs (actors u c g h) (actors u c g h) (fun _ => low)

/-- R313, R315: with TRAPEN 0, or where an entering fibre is in-trap, a trap is a fault of its own cause. -/
def TrapsAsFaults : Prop :=
  ∀ i s u c g h cs low, Ready i s u c g h → softCode i = some (cs, low) → actors u c g h ≠ [] →
    (g.trapEn = false ∨ ∃ f ∈ actors u c g h, ∃ b, tfind g.fibres f = some b ∧ b.inTrap = true) →
    ∃ t mask lead info, exec i s = .next t ∧ t = ((u.takeFault c.gid cs c.pc mask lead info 0).modSlice c.k c.sl Slice.clearLatches).finish c ∧
      mask = (actors u c g h).foldl (fun m x => m ||| 2 ^ c.lane x) 0

/-- R318: HALTG faults the group with Software Halt and the lowest acting fibre's operand. -/
def SoftwareHalt : Prop :=
  ∀ f s u c g h x rest b a, Ready (.haltg f) s u c g h → actors u c g h = x :: rest → tfind g.fibres x = some b →
    argsOf u c g h x b = some a →
    exec (.haltg f) s = .next (u.faultAt c 0x2D (x :: rest) (a.a % 2 ^ 32) 0)

/-- R318: TRET takes every acting fibre, all in-trap, out of its trap to TRAPPC or the slot after it. -/
def TrapReturn : Prop :=
  ∀ f s u c g h, Ready (.tret f) s u c g h →
    (∀ x ∈ actors u c g h, ∃ b, tfind g.fibres x = some b ∧ b.inTrap = true) →
    ∃ t, exec (.tret f) s = .next t ∧ FibresOnly u t c.gid g ∧ ∀ x b, tfind g.fibres x = some b →
      ∃ b', t.fibre? c.gid x = some b' ∧
        b' = { b with pc := b'.pc, popped := b'.popped, inTrap := b.inTrap && !acting u c g h x } ∧
        (b.live = true → b'.pc = if acting u c g h x = true then
            (if f.md.getLsbD 0 then BitVec.ofNat 32 (seqPc b.trapPc.toNat) else b.trapPc)
          else passes c g x b)

/-- R318: TRET of a fibre that is not in-trap is a Trap State fault. -/
def TrapStateFault : Prop :=
  ∀ f s u c g h x rest, Ready (.tret f) s u c g h →
    (actors u c g h).filter (fun x => (tfind g.fibres x).any fun b => !b.inTrap) = x :: rest →
    exec (.tret f) s = .next (u.faultAt c 0x2A (x :: rest) 0 0)

/-- R136: RETIRE ends the acting fibres, and the others go on. -/
def RetireEnds : Prop :=
  ∀ f s u c g h, Ready (.retire f) s u c g h → NoneConverging g →
    ∃ t gt, exec (.retire f) s = .next t ∧ t.group? c.gid = some gt ∧
      gt = { g with fibres := gt.fibres, lastRetire := gt.lastRetire } ∧
      gt.lastRetire = (if gt.fibres.all (fun p => !p.2.live) = true then
        some (c.pc, maskOf c.quads (actors u c g h), (actors u c g h).headD 0) else g.lastRetire) ∧
      ∀ x b, tfind g.fibres x = some b → ∃ b', tfind gt.fibres x = some b' ∧
        b'.live = (b.live && !acting u c g h x) ∧
        (acting u c g h x = true → b'.card0 = [] ∧ b'.card1 = [] ∧ b'.card2 = [] ∧ b'.cmd = []) ∧
        (acting u c g h x = false → b' = { b with pc := b'.pc, popped := b'.popped } ∧
          (b.live = true → b'.pc = passes c g x b)) ∧
        b'.regs = b.regs

/-- R137: YIELD parks the acting fibres behind their next slot until the next formation. -/
def YieldParks : Prop :=
  ∀ f s u c g h, Ready (.yieldI f) s u c g h → ∃ t, exec (.yieldI f) s = .next t ∧
    Passes u t c g fun x b => if acting u c g h x then { b with park := .yielded } else b

/-- R137: NAP parks the acting fibres for their counts; a count of zero parks nothing. -/
def NapParks : Prop :=
  ∀ f s u c g h, Ready (.nap f) s u c g h → ∃ t, exec (.nap f) s = .next t ∧
    Passes u t c g fun x b => match (if acting u c g h x then argsOf u c g h x b else none) with
      | some a => if napCount a = 0 then b else { b with park := .nap (u.cycleOf c.k + napCount a) }
      | none => b

/-- R318, R85, R104: MTS in steward mode. -/
def SpecialRegisterWrites : Prop :=
  ∀ f s u c g h, Ready (.mts f) s u c g h → (u.ctx g.vf).steward = true →
    ∃ t, exec (.mts f) s = .next t ∧
      MtsWrites u t c g f.md.toNat ((actors u c g h).map fun x =>
        (x, BitVec.ofNat 32 (((tfind g.fibres x).bind (argsOf u c g h x)).elim 0 (·.a)))) ∧
      (∀ x b, tfind g.fibres x = some b → ∃ b', t.fibre? c.gid x = some b' ∧
        b' = { b with fpst := b'.fpst, pc := b'.pc, popped := b'.popped } ∧ (b.live = true → b'.pc = passes c g x b) ∧
        (acting u c g h x = false → b'.fpst = b.fpst)) ∧
      ∀ a, memByte t.mem a = memByte u.mem a

/-- R306, R318: MTS in user mode, and MFS of a steward-only register in user mode, are Privilege faults. -/
def PrivilegeFaults : Prop :=
  ∀ i s u c g h x rest, Ready i s u c g h → (u.ctx g.vf).steward = false → actors u c g h = x :: rest →
    (∃ f, i = .mts f ∨ (i = .mfs f ∧ f.md = 0x80)) → exec i s = .next (u.faultAt c 0x29 (x :: rest) 0 0)

/-- R84, R93, R154, R155: CVT. -/
def Conversions : Prop := ∀ f, Evaluates (.cvt f) (Converted f)

/-- R96, R157: CVTX, where its slot names an element format of a conversion. -/
def ElementExpansion : Prop :=
  ∀ f, (Instr.cvtx f).decodeTrap = none → ∀ s u c g h, Ready (.cvtx f) s u c g h →
    (let slot := g.fslots.getD (f.md.toNat % 8) 0
     slot % 16 ≤ 5 → ∃ res, (∀ x, Expands slot x (res x)) ∧
      (NoTrap u c g h res → ∃ t, exec (.cvtx f) s = .next t ∧ Ends u t c g h res (fun _ => seqPc c.pc) ∧ Captured u t c g h res)) ∧
    (6 ≤ g.fslots.getD (f.md.toNat % 8) 0 % 16 → ∀ x rest, actors u c g h = x :: rest →
      exec (.cvtx f) s = .next (u.faultAt c 0x21 (x :: rest) 0 0))

/-- R27, R169: TILE of a rod whose fibres are one bundle. -/
def TileWidth : Prop :=
  ∀ f s c g h r, (Instr.tile f).decodeTrap = none → Converges (.tile f) s c g h (32 * r) 32 →
    ∃ t, exec (.tile f) s = .next t ∧ RodEnds s t c g h [] (fun _ => {})
      fun j => if j = r ∧ guarded g h c.en ≠ [] then 2 ^ (f.md.toNat % 8) else tget 32 g.tilew j

/-- R26, R29, R160, R161: QSWP and QBC of a quad whose fibres are one bundle; helpers supply and receive. -/
def QuadExchange : Prop :=
  ∀ i s c g h q partner, ((∃ f, i = .qswp f ∧ partner = fun p => p ^^^ f.md.toNat % 4) ∨
      (∃ f, i = .qbc f ∧ partner = fun _ => f.md.toNat % 4)) →
    i.decodeTrap = none → c.quads = [q] → Converges i s c g h (4 * q) 4 →
    ∃ t, exec i s = .next t ∧ RodEnds s t c g h (guarded g h (g.executing c))
      (fun f => { val := some (if 4 * q + partner (f % 4) ∈ g.executing c then
        (sourceOf s c g h (4 * q + partner (f % 4)) 0).nat else 0) }) (tget 32 g.tilew)

/-- R174: the home stack and the stack-virtual address of a byte. -/
def HomeOfBytes : Prop :=
  ∀ (s : State) (e : BitVec 256) (ptr m : Nat), (entStacks e).length = 2 ^ m → m ≤ 4 →
    let off := ptr % 2 ^ 48
    let g := 8 + e.toNat / 2 ^ 144 % 16
    let G := off / 2 ^ g
    let l := s.locOf e ptr
    ∃ j, (entStacks e)[j]? = some l.stack ∧
      (e.getLsbD 148 = false → j = G % 2 ^ m) ∧
      (e.getLsbD 148 = true → ∀ i, i < m → j.testBit i = (((List.range 48).countP fun q => G.testBit (q * m + i)) % 2 == 1)) ∧
      (e.toNat / 2 ^ 12 % 16 ≠ 15 → l.sva = e.toNat / 2 ^ 192 % 2 ^ 28 * 2 ^ 16 + (G / 2 ^ m * 2 ^ g + off % 2 ^ g)) ∧
      l.key = e.toNat / 2 ^ 24 % 2 ^ 8 ∧ l.vf = e.toNat / 2 ^ 16 % 2 ^ 8 ∧ l.eptr = ptr

/-- R173, Table 11.2: LD, ST and LDC fault precisely, with the first check that fails. -/
def AccessChecks : Prop :=
  ∀ (i : Instr) (f : MFmt) (right : Right) s u c g h fib b x e cs,
    ((i = .ld f ∨ i = .ldc f) ∧ right = .r ∨ i = .st f ∧ right = .w) →
    i.decodeTrap = none → Ready i s u c g h → Alone u c g h fib b x →
    let ptr := effective f x
    let size := bytesOf (f.md.toNat % 16)
    let invalid := u.usable g.vf (ptr / 2 ^ 48 % 2 ^ 16) e = false ∨ entOwner e ≠ g.vf ∨
      (entOnchip e = true ∧ (u.ctx g.vf).steward = false) ∨ (outside ptr = true ∧ (u.ctx g.vf).parOnly = true)
    (u.core c.k).bufEntry g.vf (ptr / 2 ^ 48 % 2 ^ 16) = some e →
    ((invalid ∧ cs = 0x18) ∨
      (¬ invalid ∧ entRight e right.bit = false ∧ cs = 0x19) ∨
      (¬ invalid ∧ entRight e right.bit = true ∧ ptr % 2 ^ 48 % size ≠ 0 ∧ cs = 0x1B) ∨
      (¬ invalid ∧ entRight e right.bit = true ∧ ptr % 2 ^ 48 % size = 0 ∧ entLength e < ptr % 2 ^ 48 + size ∧ cs = 0x1A)) →
    exec i s = .next (u.faultAt c cs [fib] 0 ptr)

/-- R182, R195: LDP and STP of present lines; on an absent line the fibre parks at the instruction. -/
def ScratchpadAccesses : Prop :=
  ∀ i f s u c g h fib b x off, i = .ldp f ∨ i = .stp f → i.decodeTrap = none → Ready i s u c g h → Alone u c g h fib b x →
    let z := f.md.toNat % 16
    let size := bytesOf z
    PadOk g f x size off →
    ∃ t, exec i s = .next t ∧
      (Present g off size →
        MemEnds u t c g h fib b (fun n => if i = .stp f ∧ off ≤ n ∧ n < off + size then
          storedByte (elementBytes z) x.bb (n - off) else tget 0 g.pad n) ∧
        (i = .ldp f → DestHolds t c h fib (registersOf (elementBytes z) (fun j => tget 0 g.pad (off + j)) size))) ∧
      (¬ Present g off size → ∃ l b', l ∈ g.absent ∧ t.fibre? c.gid fib = some b' ∧ b'.park = .pad l ∧ b'.pc = b.pc ∧
        b'.regs = b.regs ∧ ∀ a, memByte t.mem a = memByte u.mem a)

/-- R195: the scratchpad's checks, in their order. -/
def ScratchpadChecks : Prop :=
  ∀ i f s u c g h fib b x cs, i = .ldp f ∨ i = .stp f → i.decodeTrap = none → Ready i s u c g h → Alone u c g h fib b x →
    let size := bytesOf (f.md.toNat % 16)
    ((padAt f x < 0 ∧ cs = 0x1C) ∨ (0 ≤ padAt f x ∧ padAt f x % size ≠ 0 ∧ cs = 0x1B) ∨
      (0 ≤ padAt f x ∧ padAt f x % size = 0 ∧ g.padLen < padAt f x + size ∧ cs = 0x1C)) →
    exec i s = .next (u.faultAt c cs [fib] 0 0)

/-- R198, R216 to R218: FENCE: what the release waits for is awaited by later stores or by every later access, and an acquire
drops the clean sectors that its scope names. -/
def Fences : Prop :=
  ∀ f s u c g h fib b x, (Instr.fence f).decodeTrap = none → Ready (.fence f) s u c g h → Alone u c g h fib b x →
    let kind := f.md.toNat % 4
    let sc := scopeAt u g.vf (f.md.toNat / 16 % 8) true
    ∃ t, exec (.fence f) s = .next t ∧ MemEnds u t c g h fib b (tget 0 g.pad) ∧
      (∀ id, Awaited u c fib sc anyPlace id → FenceWaits t c fib kind sc none id) ∧
      FenceLines u t c fib g.vf kind sc none fun _ => true

/-- R198, R219: RFENCE: as FENCE over the accesses and lines of its range. -/
def RangeFences : Prop :=
  ∀ f s u c g h fib b x e, (Instr.rfence f).decodeTrap = none → Ready (.rfence f) s u c g h → Alone u c g h fib b x →
    let ptr := x.a % 2 ^ 64
    let len := x.bb % 2 ^ 32
    let kind := f.md.toNat % 4
    let sc := scopeAt u g.vf (f.md.toNat / 16 % 8) true
    (len ≠ 0 → Passing u c g ptr len 0 none false e) → ((entStacks e).any fun t => u.windowOf t (entKey e)) = false →
    ∃ t, exec (.rfence f) s = .next t ∧ MemEnds u t c g h fib b (tget 0 g.pad) ∧
      (len ≠ 0 → ∀ id, Awaited u c fib sc (meetsRange e g.vf ptr len) id → FenceWaits t c fib kind sc (some (e, ptr, len)) id) ∧
      (len ≠ 0 → FenceLines u t c fib g.vf kind sc (some (e, ptr, len)) (InRange g e ptr len))

/-- R243, R248, R249: ATOM, CAS, CADD, CRAISE and CREAD in the scratchpad: the bytes and the old value at once. -/
def ScratchpadAtomics : Prop :=
  ∀ i f k acq rel n ops s u c g h fib b x off, eventOf i = some (f, k, 0, acq, rel, n, ops) → i.decodeTrap = none →
    Ready i s u c g h → Alone u c g h fib b x → PadOk g f x n off → Present g off n →
    (rel = true → ∀ id, ¬ Outstanding u c fib id) → (∀ id ∈ b.holdStore, tfind u.accs id = none) →
    ∀ m, m = (List.range n).foldl (fun a j => a + (tget 0 g.pad (off + j)).toNat * 2 ^ (8 * j)) 0 →
    (k = .cadd → m + (ops x).1 < 2 ^ 64) →
    ∃ t v, exec i s = .next t ∧ NewValue k m (ops x).1 (ops x).2 v ∧ DestHolds t c h fib m ∧
      MemEnds u t c g h fib b (fun q => if off ≤ q ∧ q < off + n then leByte v (q - off) else tget 0 g.pad q)

/-- R243, R246, R248, R249: the same at .par or wider: one event of the home of its line. -/
def HomeAtomics : Prop :=
  ∀ i f k code acq rel n ops s u c g h fib b x e, eventOf i = some (f, k, code, acq, rel, n, ops) → 2 ≤ code →
    i.decodeTrap = none → Ready i s u c g h → Alone u c g h fib b x →
    let ptr := effective f x
    let l := placeOf u e ptr
    Passing u c g ptr n n (some .a) false e → outside ptr = false →
    ∃ t, exec i s = .next t ∧ MemEnds u t c g h fib b (tget 0 g.pad) ∧ DestPending t c h fib ∧
      Made u t c fib { l with sva := l.sva / 128 * 128 } (classOf f.clsCode e l)
        (scopeAt u g.vf code (acq || rel || u.actsOx e (clsOf f.clsCode e)))
        (.atomic k [⟨fib, l.sva % 128, (ops x).1, (ops x).2⟩]) fun a =>
          rel = true ∨ a.cls = .ox → ∀ id, Awaited u c fib a.scope anyPlace id → id ∈ a.after

/-- R243, R244, R249: the same at .clu, on a line that the cluster unit holds. -/
def ClusterAtomics : Prop :=
  ∀ i f k acq rel n ops s u c g h fib b x e cl, eventOf i = some (f, k, 1, acq, rel, n, ops) →
    i.decodeTrap = none → Ready i s u c g h → Alone u c g h fib b x →
    let ptr := effective f x
    let l := placeOf u e ptr
    Passing u c g ptr n n (some .a) false e → outside ptr = false → l.win = false →
    ((u.die (c.k / 16)).lines.find? fun y => y.loc.sameLine l) = some cl → cl.here = true → cl.data.length = 128 →
    ((u.core c.k).l1.all fun y => !y.loc.sameLine l) = true → Unheld u c fib b l (classOf f.clsCode e l) → rel = false →
    (k = .cadd → fieldOf cl.data (l.sva % 128) n + (ops x).1 < 2 ^ 64) →
    ∃ t v cl', exec i s = .next t ∧ NewValue k (fieldOf cl.data (l.sva % 128) n) (ops x).1 (ops x).2 v ∧
      DestHolds t c h fib (fieldOf cl.data (l.sva % 128) n) ∧
      ((t.die (c.k / 16)).lines.find? fun y => y.loc.sameLine l) = some cl' ∧
      (∀ q, cl'.data.getD q 0 = if l.sva % 128 ≤ q ∧ q < l.sva % 128 + n then leByte v (q - l.sva % 128) else cl.data.getD q 0) ∧
      MemEnds u t c g h fib b (tget 0 g.pad)

/-- R254, R255: MCAS parks its fibre and asks the coordinator, with the entries of its block. -/
def MultiWordCas : Prop :=
  ∀ f s u c g h fib b x, (Instr.mcas f).decodeTrap = none → Ready (.mcas f) s u c g h → Alone u c g h fib b x →
    let n := f.md.toNat % 8 + 2
    let off := x.a % 2 ^ 32
    let word (i j : Nat) := (List.range 8).foldl (fun a q => a + (tget 0 g.pad (off + 24 * i + 8 * j + q)).toNat * 2 ^ (8 * q)) 0
    off % 8 = 0 → off + 24 * n ≤ g.padLen → Present g off (24 * n) →
    (∀ i, i < n → ∃ e, Passing u c g (word i 0) 8 8 (some .a) false e ∧ outside (word i 0) = false) →
    (∀ i j, i < j → j < n → word i 0 ≠ word j 0) →
    ∃ t q id a, exec (.mcas f) s = .next t ∧ tfind t.mcas u.nextId = some q ∧ q.gid = c.gid ∧ q.fib = fib ∧ q.pc = c.pc ∧
      q.block = off ∧ q.phase = .sent ∧ q.access = id ∧ tfind t.accs id = some a ∧ a.op = .mcas u.nextId ∧ u.nextAcc ≤ id ∧
      q.ents = (List.range n).map (fun i =>
        ⟨u.locOf (u.cachedEntry c.k g.vf (ptrIdx (word i 0))) (word i 0), word i 1, word i 2, none, none, []⟩) ∧
      (∀ m, m ∈ q.homes ↔ ∃ en ∈ q.ents, en.loc.stack = m) ∧ q.homes.Pairwise (· < ·) ∧
      a.loc.stack = q.homes.headD 0 ∧
      (f.md.getLsbD 7 = true → ∀ i, Awaited u c fib q.scope anyPlace i → i ∈ a.after) ∧
      (∀ j b0, tfind g.fibres j = some b0 → ∃ b', t.fibre? c.gid j = some b' ∧
        b' = { b0 with pc := b'.pc, popped := b'.popped, park := if j = fib then .mcas u.nextId else b0.park } ∧
        (b0.live = true → b'.pc = if j = fib then b.pc else passes c g j b0)) ∧
      ∀ m, memByte t.mem m = memByte u.mem m

/-- R259: ATOMP sends its routine's index and four arguments to the home of its line. -/
def RoutineAtomics : Prop :=
  ∀ f s u c g h fib b x e, (Instr.atomp f).decodeTrap = none → Ready (.atomp f) s u c g h → Alone u c g h fib b x →
    let ptr := effective f x
    let l := u.locOf e ptr
    let m := f.md.toNat
    Passing u c g ptr 1 1 (some .a) false e → outside ptr = false →
    ∃ t, exec (.atomp f) s = .next t ∧ MemEnds u t c g h fib b (tget 0 g.pad) ∧ DestPending t c h fib ∧
      Made u t c fib { l with sva := l.sva / 128 * 128 } (classOf f.clsCode e l)
        (scopeAt u g.vf 3 (m.testBit 6 || m.testBit 7 || u.actsOx e (clsOf f.clsCode e)))
        (.atomp (m % 64) ((List.range 4).map fun i => x.bb / 2 ^ (64 * i) % 2 ^ 64) (ptr % 128))
        fun a => m.testBit 7 = true → ∀ id, Awaited u c fib a.scope anyPlace id → id ∈ a.after

/-- R281: TDEF writes its entry, or makes it invalid with a Matrix Format fault. -/
def TileDefinitions : Prop :=
  ∀ f s u c g h x, Once (.tdef f) s u c g h x →
    let e : BitVec 256 := BitVec.ofNat 256 x.a
    let n := f.md.toNat % 64
    (TileSound g e → ∃ t gt, exec (.tdef f) s = .next t ∧ t.group? c.gid = some gt ∧
      (∀ i, tfind gt.tiles i = if i = n then some e else tfind g.tiles i) ∧
      Finishes u t c g h (fun _ => {}) { g with tiles := gt.tiles } [] []) ∧
    (¬ TileSound g e → ∃ g', exec (.tdef f) s = .next ((u.setGroup c.gid g').faultAt c 0x21 [x.fib] 0 0) ∧
      g' = { g with tiles := g'.tiles } ∧ ∀ i, tfind g'.tiles i = if i = n then none else tfind g.tiles i)

/-- R283, R285, R290: MBIND and MBINDS: a binding that passes its checks takes its place in the engine's order; one that fails
step 1 or 2 is a Matrix Format fault. -/
def Bindings : Prop :=
  ∀ i f sparse s u c g h x, bindOf i = some (f, sparse) → Once i s u c g h x →
    let hn := x.a % 2 ^ 32
    let m := x.bb % 2 ^ 32
    let ub := f.md.getLsbD 3
    ((∀ e, tfind g.tiles hn = some e → ¬ BindFits g e m sparse ub) → exec i s = .next (u.faultAt c 0x21 [x.fib] 0 0)) ∧
    (∀ e, tfind g.tiles hn = some e → BindFits g e m sparse ub → u.rangesWhy g.vf .r none (bRanges g e) = none →
      ∀ w, (sparse = false → w = u) →
      (sparse = true → ∃ bss, u.readMasks c.k c.gid g.vf e = .ok w bss ∧ ∀ bs ∈ bss, ∀ y ∈ maskWords bs,
        (List.range 64).countP y.testBit = 64 / 2 ^ (tileFormat g e / 256 % 4)) →
      ((w.core c.k).eng.countP (fun o => !o.started) < 16 → ∃ t o, exec i s = .next t ∧
        Binds o c g e (f.md.toNat % 8) m sparse ub ∧
        Finishes { w with fetched := tdel w.fetched (bindKey c.gid) } t c g h (fun _ => {}) g [o] []) ∧
      (16 ≤ (w.core c.k).eng.countP (fun o => !o.started) → ∃ t, exec i s = .next t ∧
        ParksAt w t c g g fun _ => .binding (f.md.toNat % 8)))

/-- R39, R295, R300: MARM parks its bundle until its descriptor is read, or faults. -/
def Armings : Prop :=
  ∀ f s u c g h x, Once (.marm f) s u c g h x →
    let kr := f.dst.num.toNat
    let off := x.bb % 2 ^ 32
    let armed := (tget KReg.idle g.kregs kr).armed
    (armed = true ∨ x.a % 2 ^ 32 = 0 ∨ 1024 < x.a % 2 ^ 32 → exec (.marm f) s = .next (u.faultAt c 0x20 [x.fib] kr 0)) ∧
    (armed = false → 0 < x.a % 2 ^ 32 → x.a % 2 ^ 32 ≤ 1024 →
      (off % 16 ≠ 0 → exec (.marm f) s = .next (u.faultAt c 0x1B [x.fib] 0 0)) ∧
      (off % 16 = 0 → g.padLen < off + 256 → exec (.marm f) s = .next (u.faultAt c 0x1C [x.fib] 0 0)) ∧
      (off % 16 = 0 → off + 256 ≤ g.padLen → ∃ t, exec (.marm f) s = .next t ∧
        ParksAt u t c g g fun _ => .arming kr (x.a % 2 ^ 32) off (f.md.getLsbD 0)))

/-- R39, R41, R288: MSIGN: the signatures of a bundle count, their chunks stand in the staging area, and the bundle whose
signatures complete the count parks for the engine; too many, or on an idle register, is a Convergence Fault. -/
def Signatures : Prop :=
  ∀ f s u c g h, (Instr.msign f).decodeTrap = none → Ready (.msign f) s u c g h → (g.executing c).Nodup →
    actors u c g h ≠ [] →
    let kr := f.dst.num.toNat
    let k := tget KReg.idle g.kregs kr
    let n := k.signed + (actors u c g h).length
    let chunk := f.md.getLsbD 0
    let area := u.stageArea c.gid g k.desc
    let place (x : LaneIn) : Nat := area.1 + 16 * (x.bb % 2 ^ 32)
    (k.armed = false ∨ k.expect < n → exec (.msign f) s = .next (u.faultAt c 0x20 (actors u c g h) kr 0)) ∧
    (k.armed = true → n ≤ k.expect →
      (chunk = true → (k.desc.getD 0 0).toNat / 2 % 4 = 1 ∧ ∀ y ∈ actors u c g h, ∀ x, argOf u c g h y = some x →
        16 * (x.bb % 2 ^ 32) < area.2 ∧ place x + 16 ≤ g.padLen ∧ Present g (place x) 16) →
      ∃ t gt, exec (.msign f) s = .next t ∧ t.group? c.gid = some gt ∧
        (∀ i, tget KReg.idle gt.kregs i = if i = kr then { k with signed := n } else tget KReg.idle g.kregs i) ∧
        (∀ a, tget 0 gt.pad a = match (if chunk then ((actors u c g h).filterMap (argOf u c g h)).reverse.find? fun x =>
              decide (place x ≤ a) && decide (a < place x + 16) else none) with
          | some x => leByte x.a (a - place x)
          | none => tget 0 g.pad a) ∧
        (n = k.expect → ParksAt u t c g { g with kregs := gt.kregs, pad := gt.pad } fun _ =>
          .handoff kr (actors u c g h).length) ∧
        (n < k.expect → Finishes u { t with waiters := u.waiters } c g h (fun _ => {}) { g with kregs := gt.kregs, pad := gt.pad } [] []))

/-- R293, R294: MTEST waits for the operations accepted before it and for its injection, and then writes its mask; MCAP writes
its own. -/
def MacroReports : Prop :=
  (∀ f s u c g h x, Once (.mtest f) s u c g h x →
    ((∀ y ∈ c.en, ∀ b, tfind g.fibres y = some b → b.since = none) → 0 < u.nextId →
      (∀ o ∈ (u.core g.k).eng, o.gid ≠ c.gid) → ∃ t, exec (.mtest f) s = .next t ∧ ParksAt u t c g g fun _ => .mtest) ∧
    ((∃ y b, c.en.head? = some y ∧ tfind g.fibres y = some b ∧ b.since = some 0) → ∃ t w, exec (.mtest f) s = .next t ∧ testBits g w ∧
      Finishes u t c g h (fun _ => { val := some w }) g [] [])) ∧
  (∀ f s u c g h x, Once (.mcap f) s u c g h x → ∃ t w, exec (.mcap f) s = .next t ∧ capResult u g (f.md.getLsbD 0) w ∧
    Finishes u t c g h (fun _ => { val := some w }) g [] [])

/-- R291: MPAIR without a partner, with one that waits for this group, and with one that does not yet; MUNPAIR. -/
def Pairings : Prop :=
  (∀ f s u c g h x, Once (.mpair f) s u c g h x → (∀ p ∈ u.groups, ¬ IsPartner u g (x.a % 2 ^ 32) p.2) →
    NoneWaits u c.gid [] → ∃ t, exec (.mpair f) s = .next t ∧ Finishes u t c g h (pairResult false) g [] []) ∧
  (∀ f s u c g h x p q, Once (.mpair f) s u c g h x → p ≠ c.gid → u.group? p = some q → IsPartner u g (x.a % 2 ^ 32) q →
    (∀ r ∈ u.groups, IsPartner u g (x.a % 2 ^ 32) r.2 → r.1 = p) → NoneWaits u c.gid [p] →
    ((∃ since, q.pairWait = some (c.gid, since)) → (∀ r, g.pair = .active r → r = p) → (∀ r, q.pair = .active r → r = c.gid) →
      (q.fibres.map (·.1)).Nodup → ∃ t qt, exec (.mpair f) s = .next t ∧
      Finishes u t c g h (pairResult true)
        { g with pair := .active p, pairSeq := if g.pair = .active p then g.pairSeq else 0 } [] [p] ∧
      t.group? p = some qt ∧ qt = { q with pair := .active c.gid, pairWait := none, fibres := qt.fibres,
                                           pairSeq := if q.pair = .active c.gid then q.pairSeq else 0 } ∧
      ∀ y b, tfind q.fibres y = some b → b.live = true → ∃ b', tfind qt.fibres y = some b' ∧
        match b.park with
        | .pairing n w => b'.park = .none ∧ b'.pc.toNat = seqPc b.pc.toNat % 2 ^ 32 ∧
            b' = { b with park := b'.park, pc := b'.pc, preds := b'.preds, popped := b'.popped, since := b'.since } ∧
            ∀ m, m < 15 → b'.p m = if w = true ∧ m = n then true else b.p m
        | _ => b' = b) ∧
    ((∀ since, q.pairWait ≠ some (c.gid, since)) → ∃ t, exec (.mpair f) s = .next t ∧
      ParksAt u t c g { g with pairWait := some (p, u.cycleOf c.k) } fun y =>
        .pairing f.dst.num.toNat (decide (y ∈ actors u c g h)))) ∧
  (∀ f s u c g h x, Once (.munpair f) s u c g h x →
    ((∃ o ∈ (u.core g.k).eng, o.gid = c.gid ∧ o.paired.isSome = true) → ∃ t, exec (.munpair f) s = .next t ∧
      ParksAt u t c g g fun _ => .engine) ∧
    ((∀ o ∈ (u.core g.k).eng, o.gid = c.gid → o.paired = none) → ∃ t, exec (.munpair f) s = .next t ∧
      ∃ but, (∀ p, p ∈ but → g.pair = .active p ∧ (p ≠ c.gid → ∀ q, u.group? p = some q → t.group? p = some { q with pair := .none })) ∧
      (∀ p, g.pair = .active p → p ∈ but) ∧ Finishes u t c g h (fun _ => {}) { g with pair := .none } [] but))

/-- R39, R285, R286, R295, R300: ARMING and DESCRIPTOR_ACCEPTANCE, and CARD_ACCEPTANCE of each kind of card (R231, R275). -/
def AcceptanceEvents : Prop :=
  (∀ s gid kr g count off ua fs pc, s.group? gid = some g → Running g →
    ParkedAt g (fun p => ∃ c o a, p = .arming kr c o a) fs pc →
    (∀ p ∈ g.fibres, p.1 ∈ fs → p.2.park = .arming kr count off ua) →
    (tget KReg.idle g.kregs kr).armed = false → Present g off 256 →
    ∃ t gt, exec (.arming gid kr) s = .next t ∧ t = { s with groups := t.groups } ∧ t.group? gid = some gt ∧
      Resumed s t gid g { g with kregs := gt.kregs } fs ∧ ∀ i, tget KReg.idle gt.kregs i = if i = kr then
        ⟨true, count, 0, (List.range 256).map (fun n => tget 0 g.pad (off + n)), ua⟩ else tget KReg.idle g.kregs i) ∧
  (∀ s gid kr g fs pc n, s.group? gid = some g → Running g → ParkedAt g (fun p => ∃ m, p = .handoff kr m) fs pc →
    (∀ p ∈ g.fibres, p.1 ∈ fs → p.2.park = .handoff kr n) →
    let k := tget KReg.idle g.kregs kr
    (∀ r cs ptr, s.acceptWhy gid g k.desc k.ua = some (r, cs, ptr) → ∃ g' mask f,
      exec (.descriptorAcceptance gid kr) s = .next ((s.setGroup gid g').takeFault gid cs pc.toNat mask f 0 ptr) ∧ f ∈ fs ∧
      g' = { g with kregs := g'.kregs } ∧ tget KReg.idle g'.kregs kr = { k with signed := k.signed - n }) ∧
    (s.acceptWhy gid g k.desc k.ua = none → (s.core g.k).descUsed < 16 → ∃ t x gt,
      exec (.descriptorAcceptance gid kr) s = .next t ∧ (t.core g.k).eng = (s.core g.k).eng ++ [x] ∧
      OperationOf x gid s.nextId g k.desc k.ua ∧ ItemOf s t s.nextId .matrix g.vf k.desc ∧ x.turn = s.nextId + 1 ∧
      t.nextId = s.nextId + 2 ∧
      t.group? gid = some gt ∧ tget KReg.idle gt.kregs kr = KReg.idle ∧
      (x.resport = 0 → Resumed s t gid g { g with kregs := gt.kregs, pairSeq := gt.pairSeq } fs ∧
        ∀ i, i ≠ kr → tget KReg.idle gt.kregs i = tget KReg.idle g.kregs i))) ∧
  (∀ s id c g pc, tfind s.cards id = some c → s.group? c.gid = some g → Running g → c.accepted = false → c.q ≤ 2 →
    (∀ i ∈ c.after, tfind s.accs i = none) → ParkedAt g (fun p => p = .card id) [c.fib] pc →
    (∀ p ∈ s.cards, p.1 < id → p.2.accepted = false → s.queueOf p.2 ≠ s.queueOf c) →
    (c.q = 0 → (readCopy c.bytes).farIndex = false ∧ s.copyWaiting c.die < 64) →
    (c.q = 1 → (s.items.filter fun p => p.2.kind == .task && p.2.vf == c.vf && !p.2.started).length < Config.halyardEntries c.vf) →
    (c.q = 2 → s.acceptWhy c.gid g c.bytes c.ua = none ∧ (s.core g.k).descUsed < 16) →
    ∃ t, exec (.cardAcceptance id) s = .next t ∧
      (∀ b, tfind g.fibres c.fib = some b → b.live = true → ∃ b', t.fibre? c.gid c.fib = some b' ∧
        b'.pc = BitVec.ofNat 32 (seqPc b.pc.toNat) ∧ b'.park = .none ∧ b'.card c.q = [] ∧ b'.regs = b.regs) ∧
      (c.q = 0 → ItemOf s t id .copy c.vf c.bytes ∧ (t.die c.die).copyq = (s.die c.die).copyq ++ [id] ∧
        (∃ c', tfind t.cards id = some c' ∧ c' = { c with accepted := true }) ∧
        ((readCopy c.bytes).dpad = true → ∀ gt, t.group? c.gid = some gt →
          ∀ l, l ∈ gt.absent ↔ l ∈ g.absent ∨ l ∈ (readCopy c.bytes).lines)) ∧
      (c.q = 1 → ItemOf s t id .task c.vf c.bytes ∧ tfind t.cards id = none) ∧
      (c.q = 2 → ∃ x, (t.core g.k).eng = (s.core g.k).eng ++ [x] ∧ OperationOf x c.gid id g c.bytes c.ua ∧
        ItemOf s t id .matrix g.vf c.bytes ∧ tfind t.cards id = none))

/-- R181, R277, R278, R233: COPY_CARD_START, COPY_LINE of a copy within the scratchpad and of any other, ENGINE_COMPLETION of a
copy card and of a matrix operation. -/
def CopyEvents : Prop :=
  (∀ s d e id c pre post, e ≤ 3 → d ≤ 15 → s.dieRuns d = true → tfind (s.die d).engines e = none →
    (s.die d).copyq = pre ++ id :: post → tfind s.cards id = some c → c.running = false → s.edgesClear id = true →
    s.cardStopped c = false →
    (∀ j ∈ pre, ∀ y, tfind s.cards j = some y → y.running = true ∨ s.edgesClear j = false ∨ s.cardStopped y = true) →
    ∃ t, exec (.copyCardStart d e) s = .next t ∧ t = { s with cards := t.cards, dies := t.dies } ∧
      (∀ j, tfind t.cards j = if j = id then some { c with running := true } else tfind s.cards j) ∧
      (∀ j, t.die j = if j = d then { s.die d with engines := (t.die d).engines } else s.die j) ∧
      ∀ j, tfind (t.die d).engines j = if j = e then some id else tfind (s.die d).engines j) ∧
  (∀ s d e n id c, tfind (s.die d).engines e = some id → tfind s.cards id = some c → c.status = none → n ∉ c.moved →
    let cc := readCopy c.bytes
    n ∈ cc.lines → s.cardStopped c = false → s.dieRuns d = true →
    tget 0 (s.die d).copyUsed c.vf < (s.ctx c.vf).share 48 16000000 →
    (∀ g, cc.spad = true → cc.dpad = true → s.group? c.gid = some g → ∃ t gt, exec (.copyLine d e n) s = .next t ∧
      t = { s with groups := t.groups, cards := t.cards, dies := t.dies, waiters := t.waiters } ∧
      (∃ c', tfind t.cards id = some c' ∧ c' = { c with moved := c.moved ++ [n] }) ∧ t.group? c.gid = some gt ∧
      gt = { g with pad := gt.pad, absent := g.absent.filter (· != n), fibres := gt.fibres } ∧
      (∀ a, a / 128 ≠ n → tget 0 gt.pad a = tget 0 g.pad a) ∧
      (∀ i j, i < cc.rows → j < cc.rowBytes → ((padRow cc c.index i).1 + j) / 128 = n →
        (∀ i', i' < cc.rows → i' ≠ i → (padRow cc c.index i').1 + cc.rowBytes ≤ (padRow cc c.index i).1 + j ∨
          (padRow cc c.index i).1 + j < (padRow cc c.index i').1) →
        tget 0 gt.pad ((padRow cc c.index i).1 + j) = tget 0 g.pad ((padRow cc c.index i).2 + j)) ∧
      (∀ a, (∀ i, i < cc.rows → a < (padRow cc c.index i).1 ∨ (padRow cc c.index i).1 + cc.rowBytes ≤ a) →
        tget 0 gt.pad a = tget 0 g.pad a) ∧
      ∀ f b, tfind g.fibres f = some b → ∃ b', tfind gt.fibres f = some b' ∧
        b' = { b with park := if b.park = .pad n then .none else b.park }) ∧
    (∀ w v bs, s.copyReads id c cc (cc.pieces c.index n) [] = .ok w bs → w.copyWrite id c cc n bs = .ok v () →
      ∃ t, exec (.copyLine d e n) s = .next t ∧ t.mem = v.mem ∧ t.accs = v.accs ∧
        ∃ c', tfind t.cards id = some c' ∧ c' = { c with moved := c.moved ++ [n] })) ∧
  (∀ s id c w, tfind s.cards id = some c → c.accepted = true → s.cardStopped c = false →
    (∀ a ∈ s.accs, a.2.owner ≠ .engine id) → c.status = none → (∀ n ∈ (readCopy c.bytes).lines, n ∈ c.moved) →
    s.farStatus id = none → s.complete (complKey id) c.die c.vf (readCopy c.bytes).io 0 = .ok w () →
    ∃ t, exec (.engineCompletion id) s = .next t ∧ t.mem = w.mem ∧ t.accs = w.accs ∧ tfind t.cards id = none ∧
      tfind t.items id = none ∧ id ∉ (t.die c.die).copyq ∧ ∀ p ∈ (t.die c.die).engines, p.2 ≠ id) ∧
  (∀ s id k x g st w, tfind s.cards id = none → k < 256 → x ∈ (s.core k).eng → x.item = id → x.status = some st →
    (∀ j, j < 256 → ∀ y ∈ (s.core j).eng, y.item = id → j = k ∧ y = x) → s.group? x.gid = some g → g.halted = false →
    g.evicted = false → s.dieRuns (k / 16) = true →
    s.complete (complKey id) (k / 16) x.vf ⟨x.cmpl, x.cnt, x.seq, x.inc⟩ st = .ok w () →
    ∃ t, exec (.engineCompletion id) s = .next t ∧ t.mem = w.mem ∧ t.accs = w.accs ∧ tfind t.items id = none ∧
      (∀ y ∈ (t.core k).eng, y.item ≠ id) ∧
      ∀ gw, w.group? x.gid = some gw → ∃ gt, t.group? x.gid = some gt ∧ gt.mxst = gw.mxst ||| BitVec.ofNat 32 (x.events % 16)) ∧
  (∀ (s : State) key e vf (o : Compl) st, tget [] s.fetched key = [] → (∀ p ∈ s.accs, p.2.owner ≠ .engine key) →
    o.cmpl = none → o.cnt = none → s.complete key e vf o st = .ok (completed s key e) ()) ∧
  (∀ (s : State) key e vf p cnt seq inc st, tget [] s.fetched key = [] → (∀ p ∈ s.accs, p.2.owner ≠ .engine key) →
    s.checkPtr vf p 8 8 .w = none → (ptrIdx p < 0xFE00 ∨ 0xFEFF < ptrIdx p) →
    (cnt = none ∨ ∃ c, cnt = some c ∧ s.wouldOverflow vf c inc = true) →
    s.complete key e vf ⟨some p, cnt, seq, inc⟩ st =
      match s.writeDirect e (s.locOf (s.tableEntry vf (ptrIdx p)) p)
          (leBytes 8 (seq % 2 ^ 48 * 2 ^ 16 + if cnt.isSome then 4 else st)) with
      | .ok t _ => .ok (completed t key e) ()
      | .wait _ => .wait s
      | .fault t cs => .ok (completed (t.plainRecord vf e cs p) key e) ())

end Sys2Proof.Claims

section
open Sys2Proof Sys2Proof.Machine Sys2Proof.Claims

/-- R111 to R115: IADD, ISUB, IMUL, IMAD, IMADW, IMIN, IMAX and IABS in every format and type.
R116: AND, OR, XOR and ANDN, bit by bit.
R117 to R121: shifts, fields, counts and reversal, bit by bit. -/
def Obligations.IntegerInstructions : Prop := Claims.IntegerArithmetic ∧ Claims.LogicBits ∧ Claims.ShiftAndFieldBits

/-- R122, R123, R128, R129, R137: ISET, SEL, PLOP, P2V, V2P and NOP. -/
def Obligations.ComparesAndPredicates : Prop := ∀ i m, choices i = some m → Computes i m

/-- R124, R125, R126, R130, R138, R318: MOV and MOVI to registers, LEA, MFS, TIME and QSTAT.
R126: LEA.chk in its fault form writes nothing and raises Buffer Bounds for the fibres whose check fails. -/
def Obligations.MovesReadsAndLea : Prop := Claims.MovesAndReads ∧ Claims.LeaBoundsFault

/-- R124, R125, R273, R274: MOV, MOVI and QWR to q0, q1 and q2 append each acting fibre's bytes to its card buffer.
R275: an append past 256 bytes raises Card Format for the fibres that make it, and their buffers are emptied. -/
def Obligations.CardParts : Prop := Claims.CardAppends ∧ Claims.CardOverflow

/-- R132, R133: where the fibres of BRA, BRX, CALL and RET go, and the link of CALL. -/
def Obligations.Transfers : Prop :=
  ∀ i s u c g h target uni link, Ready i s u c g h → transferOf c i = some (target, uni, link) →
    (uni = true → Agree (nextOf target u c g h) c) →
    (∀ f ∈ actors u c g h, u.validTarget g (nextOf target u c g h f) = true) →
    ∃ t, exec i s = .next t ∧
      Ends u t c g h (fun _ => { val := if link then some (seqPc c.pc) else none }) (nextOf target u c g h) ∧
      Captured u t c g h (fun _ => { val := if link then some (seqPc c.pc) else none })

/-- R37, R132: under UNI, fibres that disagree raise a Divergence Assertion in every fibre of the bundle, marked for those
that would branch; nothing else changes.
R49, R132: a transfer to an invalid target is a Branch Target fault of the fibres concerned, and nothing changes. -/
def Obligations.TransferChecks : Prop := Claims.DivergenceAssertion ∧ Claims.InvalidTargets

/-- R318, R315: TRAP n and BPT take the acting fibres to the trap vector.
R313, R315: with TRAPEN 0, or where an entering fibre is in-trap, a trap is a fault of its own cause.
R318: HALTG faults the group with Software Halt and the lowest acting fibre's operand. -/
def Obligations.TrapInstructions : Prop := Claims.SoftwareTraps ∧ Claims.TrapsAsFaults ∧ Claims.SoftwareHalt

/-- R318: TRET takes every acting fibre, all in-trap, out of its trap to TRAPPC or the slot after it.
R318: TRET of a fibre that is not in-trap is a Trap State fault. -/
def Obligations.TrapReturns : Prop := Claims.TrapReturn ∧ Claims.TrapStateFault

/-- R134: FORK takes the fibres of the bundle in ascending FIBID; each that finds room creates its quads. -/
def Obligations.ForkCreates : Prop :=
  ∀ f s u c g h, Ready (.fork f) s u c g h → f.dst.kind = .pred → (g.executing c).Nodup →
    (actors u c g h ≠ [] → u.validTarget g (slotPc (f.target c.pc)) = true) →
    ∃ t g' ps gt, exec (.fork f) s = .next t ∧
      Forks u c g h (f.md.toNat % 8 + 1) (slotPc (f.target c.pc)) (BitVec.ofNat 32 (((tfind u.grids g.grid).elim 0 (·.fpen)) % 32 * 256))
        g (g.executing c) g' ps ∧
      t.group? c.gid = some gt ∧ gt = { g' with fibres := gt.fibres } ∧
      (∀ x b, tfind g'.fibres x = some b → ∃ b', tfind gt.fibres x = some b' ∧
        b' = { b with preds := b'.preds, pc := b'.pc, popped := b'.popped } ∧
        (b.live = true → b'.pc = if x ∈ g.executing c then BitVec.ofNat 32 (seqPc c.pc) else b.pc) ∧
        ∀ n, n < 15 → b'.p n = if n = f.dst.num.toNat ∧ x ∈ g.executing c then ps.any (· == (x, true)) else b.p n)

/-- R136: RETIRE ends the acting fibres, and the others go on.
R137: YIELD parks the acting fibres behind their next slot until the next formation.
R137: NAP parks the acting fibres for their counts; a count of zero parks nothing. -/
def Obligations.RetireYieldNap : Prop := Claims.RetireEnds ∧ Claims.YieldParks ∧ Claims.NapParks

/-- R318, R85, R104: MTS in steward mode.
R306, R318: MTS in user mode, and MFS of a steward-only register in user mode, are Privilege faults. -/
def Obligations.SpecialRegisters : Prop := Claims.SpecialRegisterWrites ∧ Claims.PrivilegeFaults

/-- R313, R314, R316: what a fault does: the record and its store where the area can be written, FAULTED and the MSI-X vector,
the end of the group, of its grid's other groups and of the grid's queued tasks. -/
def Obligations.FaultTaking : Prop :=
  ∀ (s t : State) (g : Group) (gid cs pc mask fib info eptr : Nat), s.group? gid = some g → g.ended = none →
    t = s.takeFault gid cs pc mask fib info eptr →
    t.group? gid = some { g with ended := some cs, halted := g.halted || s.switching g.vf } ∧
    (∀ q, tfind s.grids g.grid = some q → ∀ o ∈ q.groups, ∀ go, t.group? o = some go → go.ended.isSome = true) ∧
    (∀ sl b, b ∈ (t.slice g.k sl).bundles → b.gid ≠ gid) ∧
    (∀ p ∈ t.items, ¬ (p.2.fromGrid = some g.grid ∧ p.2.kind = .task ∧ p.2.started = false)) ∧
    (∀ q, tfind s.grids g.grid = some q → ∃ q', tfind t.grids g.grid = some q' ∧ q'.ending.isSome = true ∧
      (q.ending = none → q'.ending.map (·.2.2) = some (if cs = 0x2D then 0x0111 else if cs = 0x2B then 0x0112 else 0x0110))) ∧
    (t.ctx g.vf).faultCount = (s.ctx g.vf).faultCount + 1 ∧
    (t.ctx g.vf).sticky = (s.ctx g.vf).sticky ||| 4 ∧
    (let x := s.ctx g.vf
     let ptr := ptrAdd x.faultPtr (64 * (x.faultCount % 2 ^ x.faultCap))
     (x.desc = none ∨ s.checkPtr g.vf ptr 64 64 .w ≠ none → t.out = s.out ++ [.msix g.vf x.msix]) ∧
     (x.desc.isSome = true → s.checkPtr g.vf ptr 64 64 .w = none → ptrIdx ptr < 0xFE00 → t.out = s.out ∧
      ∃ id a, tfind t.accs id = some a ∧ a.agent = 32 ∧ a.scope = .dev ∧ a.owner = .record ∧
        a.loc = s.locOf (s.tableEntry g.vf (ptrIdx ptr)) ptr ∧
        a.op = .store (recordBytes cs g.vdie (g.k % 16) pc g.index mask fib (infoOf cs mask info) eptr
          (s.die (g.k / 16)).time.ltime (s.agent (g.k / 16)).events ((tfind s.grids g.grid).elim 0 (·.seq)))))

/-- R87, R139 to R150: the floating-point arithmetic of Table 9.2, each result the exact one rounded once, and the trap of an
enabled flag. -/
def Obligations.FloatArithmetic : Prop := ∀ i m, floating i = some m → Evaluates i m

/-- R150 to R152: FRSQ, FEXP2, FLOG2, FTANH, FSINPI and FCOSPI: each is a function of its operand alone, exact where Tables
9.7 and 9.8 say so, with the flags of R152 elsewhere. The bound of Table 9.6 is not claimed. -/
def Obligations.FloatSpecialFunctions : Prop :=
  ∃ fn : Nat → Fmt → Nat → Nat × Nat, (∀ n F a, F ∈ [fp32, fp16, bf16] → a < 2 ^ (F.ex + F.fr + 1) → n ∈ [1, 3, 4, 5, 6, 7] →
      Special F n a (fn n F a) ∧ Inexact F n a (fn n F a)) ∧
    ∀ i n f, sfu i = some (n, f) → Evaluates i (Unary f fun F a r => r = fn n F a)

/-- R84, R93, R154, R155: CVT.
R96, R157: CVTX, where its slot names an element format of a conversion. -/
def Obligations.ConversionInstructions : Prop := Claims.Conversions ∧ Claims.ElementExpansion

/-- R28, R94, R95, R156, R158, R162 to R168: SHFL, VOTE, RED, SCAN, MATCH, ELECT and CVTMX of a tile whose fibres are one
bundle, and the trap of an enabled flag. -/
def Obligations.RodInstructions : Prop :=
  ∀ i s c g h t, rod i = true → i.decodeTrap = none →
    let w := tget 32 g.tilew (c.en.headD 0 / 32)
    let A := guarded g h c.en
    Converges i s c g h (t * w) w →
    (∀ f, i = .cvtmx f → g.fslots.getD (f.md.toNat % 8) 0 % 16 ≤ 5) →
    ∃ res : Nat → LaneOut, (∀ f ∈ A, rodResult g w A (sourceOf s c g h) f (res f) i) ∧
      (Quiet g A res → ∃ u, exec i s = .next u ∧ RodEnds s u c g h A res (tget 32 g.tilew)) ∧
      (¬ Quiet g A res → MayTrap s g c.en → ∃ u marked, exec i s = .next u ∧
        (∀ f, f ∈ marked ↔ f ∈ A ∧ ∃ b, tfind g.fibres f = some b ∧ b.enables &&& (res f).flags ≠ 0) ∧
        EnteredAs (· % 32) s u c g 0x04 c.en marked fun f => if f ∈ A then (res f).flags else 0)

/-- R27, R169: TILE of a rod whose fibres are one bundle.
R26, R29, R160, R161: QSWP and QBC of a quad whose fibres are one bundle; helpers supply and receive. -/
def Obligations.QuadAndTile : Prop := Claims.TileWidth ∧ Claims.QuadExchange

/-- R174: the home stack and the stack-virtual address of a byte.
R173, Table 11.2: LD, ST and LDC fault precisely, with the first check that fails. -/
def Obligations.PointersAndHomes : Prop := Claims.HomeOfBytes ∧ Claims.AccessChecks

/-- R192, R184, R187: LD. At .par or wider the home is asked, but where the core's own dirty bytes cover the load; below that
L1 answers where it can, and else whole sectors are asked. -/
def Obligations.Loads : Prop :=
  ∀ f s u c g h fib b x e, (Instr.ld f).decodeTrap = none → Ready (.ld f) s u c g h → Alone u c g h fib b x →
    let z := f.md.toNat % 16
    let size := bytesOf z
    let ptr := effective f x
    let acq := f.md.getLsbD 7
    let l := placeOf u e ptr
    let cls := classOf f.clsCode e l
    let sc := scopeAt u g.vf (f.md.toNat / 16 % 8) (acq || u.actsOx e (clsOf f.clsCode e))
    let within := !l.win && !outside ptr
    let loc := within && !sc.isWide
    Passing u c g ptr size size (some .r) (u.ctx g.vf).steward e →
    ∃ t, exec (.ld f) s = .next t ∧ MemEnds u t c g h fib b (tget 0 g.pad) ∧
      (loc = false → (within = false ∨ ∃ j, j < size ∧ ownBytes u c.k l j = none) →
        DestPending t c h fib ∧ Made u t c fib l cls sc (.load size) fun a => ∃ dst own, a.owner =
          .load fib dst size 0 own none (if acq then some sc else none) false ∧ (Unheld u c fib b l cls →
          ∀ j, tfind own j = if within = true ∧ j < size then ownBytes u c.k l j else none)) ∧
      (loc = false → within = true → Unheld u c fib b l cls → ∀ v : Nat → Byte, (∀ j, j < size → ownBytes u c.k l j = some (v j)) →
        DestHolds t c h fib (registersOf (elementBytes z) v size)) ∧
      (loc = true → Unheld u c fib b l cls → ((u.die (c.k / 16)).cuLine l = none ∨ sc = .grp) →
        (∀ v : Nat → Byte, (∀ j, j < size → heldByte u c.k l j = some (v j)) →
          DestHolds t c h fib (registersOf (elementBytes z) v size)) ∧
        ((∃ j, j < size ∧ heldByte u c.k l j = none) → (u.die (c.k / 16)).cuLine l = none → DestPending t c h fib ∧
          (Allocates f.ctl.hint e → Made u t c fib { l with sva := l.sva / 32 * 32 } cls sc
            (.load ((l.sva % 32 + size + 31) / 32 * 32)) fun a => ∃ dst own, a.owner =
              .load fib dst size (l.sva % 32) own (some sc) (if acq then some sc else none) false) ∧
          (¬ Allocates f.ctl.hint e → Made u t c fib l cls sc (.load size) fun a => ∃ dst own, a.owner =
              .load fib dst size 0 own none (if acq then some sc else none) false)))

/-- R193, R184, R216: ST. At .par or wider the bytes go to the home, after everything that a release or .ox waits for; below
that L1 takes them. -/
def Obligations.Stores : Prop :=
  ∀ f s u c g h fib b x e, (Instr.st f).decodeTrap = none → Ready (.st f) s u c g h → Alone u c g h fib b x →
    let z := f.md.toNat % 16
    let size := bytesOf z
    let ptr := effective f x
    let rel := f.md.getLsbD 7
    let l := placeOf u e ptr
    let cls := classOf f.clsCode e l
    let sc := scopeAt u g.vf (f.md.toNat / 16 % 8) (rel || u.actsOx e (clsOf f.clsCode e))
    let byte := storedByte (elementBytes z) x.bb
    Passing u c g ptr size size (some .w) (u.ctx g.vf).steward e →
    ∃ t, exec (.st f) s = .next t ∧ MemEnds u t c g h fib b (tget 0 g.pad) ∧
      (l.win = true ∨ outside ptr = true ∨ sc.isWide = true →
        Made u t c fib l cls sc (.store ((List.range size).map byte)) fun a =>
          (rel = true ∨ (cls = .ox ∧ (outside ptr = false ∨ sc = .sys)) → ∀ id, Awaited u c fib sc anyPlace id → id ∈ a.after)) ∧
      (l.win = false → outside ptr = false → sc.isWide = false → (u.die (c.k / 16)).cuLine l = none →
        Unheld u c fib b l cls → (rel = true → sc = .grp ∧ ∀ id, ¬ Outstanding u c fib id) →
        (Allocates f.ctl.hint e → L1Takes u t c.k l sc byte size) ∧
        (¬ Allocates f.ctl.hint e → (∀ y ∈ (u.core c.k).l1, y.loc.sameLine l = false) →
          Made u t c fib l cls sc (.store ((List.range size).map byte)) fun _ => True))

/-- R194: LDC asks the home, where no L1 copy has its bytes, or takes them from either. -/
def Obligations.ReadOnlyLoads : Prop :=
  ∀ f s u c g h fib b x e, (Instr.ldc f).decodeTrap = none → Ready (.ldc f) s u c g h → Alone u c g h fib b x →
    let z := f.md.toNat % 16
    let size := bytesOf z
    let ptr := effective f x
    let l := placeOf u e ptr
    Passing u c g ptr size size (some .r) (u.ctx g.vf).steward e →
    ∃ t, exec (.ldc f) s = .next t ∧ MemEnds u t c g h fib b (tget 0 g.pad) ∧
      ((DestPending t c h fib ∧ Made u t c fib l (if l.win then .ox else .rx) .par (.load size) fun _ => True) ∨
       (l.win = false ∧ outside ptr = false ∧ ∃ v : Nat → Byte, (∀ j, j < size → heldByte u c.k l j = some (v j)) ∧
          DestHolds t c h fib (registersOf (elementBytes z) v size)))

/-- R182, R195: LDP and STP of present lines; on an absent line the fibre parks at the instruction.
R195: the scratchpad's checks, in their order. -/
def Obligations.Scratchpad : Prop := Claims.ScratchpadAccesses ∧ Claims.ScratchpadChecks

/-- R197: WBR and INVR: the core's lines of the range are written back, or invalidated too, and later accesses of the fibre wait
for the write-backs. -/
def Obligations.RangeWriteBacks : Prop :=
  ∀ i f s u c g h fib b x e, i = .wbr f ∨ i = .invr f → i.decodeTrap = none → Ready i s u c g h → Alone u c g h fib b x →
    let ptr := x.a % 2 ^ 64
    let len := x.bb % 2 ^ 32
    (len ≠ 0 → Passing u c g ptr len 0 none false e) →
    ∃ t, exec i s = .next t ∧ MemEnds u t c g h fib b (tget 0 g.pad) ∧
      (len = 0 → (t.core c.k).l1 = (u.core c.k).l1 ∧ t.accs = u.accs) ∧
      (len ≠ 0 → (∀ y ∈ (t.core c.k).l1, y.loc.vf = g.vf → InRange g e ptr len y.loc = true → i = .wbr f ∧ y.dirty = 0) ∧
        (∀ y ∈ (u.core c.k).l1, y.loc.vf = g.vf → InRange g e ptr len y.loc = true → y.dirty ≠ 0 →
          ∃ id a b', tfind t.accs id = some a ∧ a.owner = .writeBack c.k ∧ a.loc = y.loc ∧
            a.op = .merge ((List.range 128).filterMap fun n => if y.dirty.getLsbD n then some (n, y.data.getD n 0) else none) ∧
            t.fibre? c.gid fib = some b' ∧ id ∈ b'.holdAll))

/-- R198, R216 to R218: FENCE: what the release waits for is awaited by later stores or by every later access, and an acquire
drops the clean sectors that its scope names.
R198, R219: RFENCE: as FENCE over the accesses and lines of its range. -/
def Obligations.FenceInstructions : Prop := Claims.Fences ∧ Claims.RangeFences

/-- R199: IPREF, IPIN and IUNPIN at L1 and at the stack cache: pins are made and taken within the range alone, and a line that
is fetched stands in the instruction cache. -/
def Obligations.InstructionPins : Prop :=
  ∀ i f s u c g h fib b x, i = .ipref f ∨ i = .ipin f ∨ i = .iunpin f → i.decodeTrap = none → Ready i s u c g h →
    Alone u c g h fib b x →
    let a := x.a % 2 ^ 32
    let len := x.bb % 2 ^ 32
    let sc := f.md.getLsbD 0
    let one (off : Nat) : Prop := ∀ o, OverlapsCode g a len o ↔ o = off
    let entry (st : Nat) (p : Nat × Nat × Nat × Nat) : Prop := ∃ off, OverlapsCode g a len off ∧ st = u.codeStack g off ∧
      p.1 = g.vf ∧ p.2.1 = g.codePtr ∧ p.2.2.1 = off
    ∃ t gt, exec i s = .next t ∧ t.group? c.gid = some gt ∧ gt = { g with fibres := gt.fibres, ipins := gt.ipins } ∧
      (∀ j, j ≠ c.gid → t.group? j = u.group? j) ∧
      (∀ j b0, tfind g.fibres j = some b0 → ∃ b', t.fibre? c.gid j = some b' ∧
        b' = { b0 with pc := b'.pc, popped := b'.popped } ∧ (b0.live = true → b'.pc = passes c g j b0)) ∧
      (∀ m, memByte t.mem m = memByte u.mem m ∧ memByte t.pin m = memByte u.pin m) ∧
      (i = .ipref f ∨ sc = true → gt.ipins = g.ipins) ∧
      (sc = false → i = .ipin f → (∀ off ∈ g.ipins, off ∈ gt.ipins) ∧
        (∀ off ∈ gt.ipins, off ∈ g.ipins ∨ OverlapsCode g a len off) ∧
        (u.pinnedLines c.k + len / 64 + 2 ≤ 512 → ∀ off, OverlapsCode g a len off → off ∈ gt.ipins)) ∧
      (sc = false → i = .iunpin f → ∀ off, off ∈ gt.ipins ↔ off ∈ g.ipins ∧ ¬ OverlapsCode g a len off) ∧
      (sc = false → i ≠ .iunpin f → ∀ off, one off → (u.core c.k).icache.length < 1024 →
        (u.codeMem g.vf g.codePtr off).isSome = true → ((t.core c.k).iline g.vf g.codePtr off).isSome = true) ∧
      (i = .ipref f ∨ sc = false → ∀ st, (t.stack st).ipins = (u.stack st).ipins) ∧
      (sc = true → i = .iunpin f → ∀ st p, p ∈ (t.stack st).ipins ↔ p ∈ (u.stack st).ipins ∧ ¬ entry st p) ∧
      (sc = true → i = .ipin f → (∀ st, ∀ p ∈ (u.stack st).ipins, p ∈ (t.stack st).ipins) ∧
        (∀ st, ∀ p ∈ (t.stack st).ipins, p ∈ (u.stack st).ipins ∨ entry st p) ∧
        ∀ off, one off →
          let l := t.codeLoc g off
          ∀ pa, (t.physOf l false).2 = .ok pa → l.pin = false → ((t.stack l.stack).scFind (pa / 128) g.vf).isSome = true →
            ((u.stack l.stack).ipins.filter fun p => p.1 == g.vf).length < 16384 →
            ∃ q, (g.vf, g.codePtr, off, q) ∈ (t.stack l.stack).ipins)

/-- R196, R198, R199: FENCE, RFENCE over entries that the buffer cache holds and that pass their checks, PREF and IPREF execute in
every fibre, whatever else is under way: the fibres go on with their registers and predicates, no other group changes, and no
byte of memory does. -/
def Obligations.FencesAndHintsComplete : Prop :=
  ∀ i s u c g h, i.decodeTrap = none → Ready i s u c g h →
    ((∃ f, i = .fence f) ∨ (∃ f, i = .ipref f) ∨ (∃ f, i = .pref f ∧ (u.die (c.k / 16)).cuOps = []) ∨
      (∃ f, i = .rfence f ∧ ∀ y b x, tfind g.fibres y = some b → b.live = true → argsOf u c g h y b = some x →
        x.bb % 2 ^ 32 ≠ 0 → ∃ e, Passing u c g (x.a % 2 ^ 64) (x.bb % 2 ^ 32) 0 none false e)) →
    ∃ t gt, exec i s = .next t ∧ t.group? c.gid = some gt ∧ gt = { g with fibres := gt.fibres } ∧
      (∀ j, j ≠ c.gid → t.group? j = u.group? j) ∧
      (∀ y b, tfind g.fibres y = some b → ∃ b', t.fibre? c.gid y = some b' ∧
        b' = { b with pc := b'.pc, popped := b'.popped, holdAll := b'.holdAll, holdStore := b'.holdStore,
                      holdRange := b'.holdRange } ∧ (b.live = true → b'.pc = passes c g y b)) ∧
      ∀ a, memByte t.mem a = memByte u.mem a ∧ memByte t.pin a = memByte u.pin a

/-- R250 to R253, R264, R265: the steps of one event on a line of 128 bytes; a counter that would pass 2^64 - 1 leaves the line
unchanged. -/
def Obligations.CombinedEvents : Prop :=
  ∀ (k : AKind) (line : List Byte) (steps : List AStep), line.length = 128 →
    (∀ st ∈ steps, st.off + k.bytes ≤ 128 ∧ st.x < 2 ^ (8 * k.bytes) ∧ st.y < 2 ^ (8 * k.bytes)) →
    (∀ op w sg, k = .atom op w sg → op < 8 ∧ (op = 7 → w = false)) →
    let r := runLine k line steps
    (r.passed = false → ∃ olds, Events k k.bytes line steps r.line olds ∧
      ∀ f, tfind r.olds f = (olds.reverse.find? fun o => o.1 == f).map (·.2)) ∧
    (r.passed = true → r.line = line ∧ k = .cadd)

/-- R243, R248, R249: ATOM, CAS, CADD, CRAISE and CREAD in the scratchpad: the bytes and the old value at once.
R243, R246, R248, R249: the same at .par or wider: one event of the home of its line.
R243, R244, R249: the same at .clu, on a line that the cluster unit holds. -/
def Obligations.AtomicInstructions : Prop := Claims.ScratchpadAtomics ∧ Claims.HomeAtomics ∧ Claims.ClusterAtomics

/-- R266: CWAIT parks its fibre at its PC with a waiter at the counter's place, or its reply on the way. -/
def Obligations.CounterWaits : Prop :=
  ∀ f s u c g h fib b x e, (Instr.cwait f).decodeTrap = none → Ready (.cwait f) s u c g h → Alone u c g h fib b x →
    let code := f.md.toNat / 8 % 8
    let tmo := f.md.toNat % 8
    let ptr := effective f x
    let off := (padAt f x).toNat
    (code = 0 → PadOk g f x 8 off) → (code ≠ 0 → Passing u c g ptr 8 8 (some .a) false e ∧ outside ptr = false) →
    ∃ t w y, exec (.cwait f) s = .next t ∧ w = u.nextId ∧ tfind t.waiters w = some y ∧
      (∀ j b0, tfind g.fibres j = some b0 → ∃ b', t.fibre? c.gid j = some b' ∧
        b' = { b0 with pc := b'.pc, popped := b'.popped, park := if j = fib then .cwait w else b0.park } ∧
        (b0.live = true → b'.pc = if j = fib then b.pc else passes c g j b0)) ∧
      y.gid = c.gid ∧ y.pc = c.pc ∧ y.vf = g.vf ∧
      y.deadline = (if tmo = 0 then none else some (u.cycleOf c.k + 2 ^ (2 * tmo + 6))) ∧
      (code = 0 → y.place = .pad c.gid ∧ y.off = off) ∧ (code ≠ 0 → y.loc = u.locOf e ptr) ∧
      (2 ≤ code → y.place = .home (u.locOf e ptr).stack) ∧
      (y.steps = [(fib, x.bb % 2 ^ 64)] ∨ ∃ v, y.replies = [(fib, v)] ∧ x.bb % 2 ^ 64 ≤ v) ∧
      ∀ a, memByte t.mem a = memByte u.mem a

/-- R254, R255: MCAS parks its fibre and asks the coordinator, with the entries of its block.
R259: ATOMP sends its routine's index and four arguments to the home of its line. -/
def Obligations.McasAndRoutines : Prop := Claims.MultiWordCas ∧ Claims.RoutineAtomics

/-- R281: TDEF writes its entry, or makes it invalid with a Matrix Format fault.
R283, R285, R290: MBIND and MBINDS: a binding that passes its checks takes its place in the engine's order; one that fails
step 1 or 2 is a Matrix Format fault. -/
def Obligations.TilesAndBindings : Prop := Claims.TileDefinitions ∧ Claims.Bindings

/-- R39, R295, R300: MARM parks its bundle until its descriptor is read, or faults.
R39, R41, R288: MSIGN: the signatures of a bundle count, their chunks stand in the staging area, and the bundle whose
signatures complete the count parks for the engine; too many, or on an idle register, is a Convergence Fault. -/
def Obligations.ArmingAndSigning : Prop := Claims.Armings ∧ Claims.Signatures

/-- R292: MACRD, MACWR and MACCLR, once no operation accepted earlier writes in their ranges; past the accumulators an
Accumulator Bounds fault. -/
def Obligations.AccumulatorAccesses : Prop :=
  ∀ i n s u c g h, accCount i = some n → i.decodeTrap = none → Ready i s u c g h →
    (∀ f rest, (actors u c g h).filter (fun y => (argOf u c g h y).any fun x => decide (0 < n x) &&
        decide (1024 * g.macros.length < x.a % 2 ^ 32 + n x)) = f :: rest →
      exec i s = .next (u.faultAt c 0x24 (f :: rest) 0 0)) ∧
    (AccGoes n u c g h → ∃ t gt, exec i s = .next t ∧ t.group? c.gid = some gt ∧
      Finishes u t c g h (fun x => match i with
        | .macrd _ => { val := some (accumulators g (x.a % 2 ^ 32) (n x)) }
        | _ => {}) { g with acc := gt.acc } [] [] ∧
      ∀ a, tget 0 gt.acc a = match i with
        | .macwr _ => accWritten u c g h n (fun x j => BitVec.ofNat 32 (x.bb / 2 ^ (32 * j))) a
        | .macclr _ => accWritten u c g h n (fun _ _ => 0) a
        | _ => tget 0 g.acc a)

/-- R293, R294: MTEST waits for the operations accepted before it and for its injection, and then writes its mask; MCAP writes
its own.
R291: MPAIR without a partner, with one that waits for this group, and with one that does not yet; MUNPAIR. -/
def Obligations.MacrosAndPairs : Prop := Claims.MacroReports ∧ Claims.Pairings

/-- R232, R273, R275: QWRC of a card that passes its checks parks its fibre until the card is accepted, with everything that its
release waits for. -/
def Obligations.CardSubmission : Prop :=
  ∀ f s u c g h fib b x, (Instr.qwrc f).decodeTrap = none → Ready (.qwrc f) s u c g h → Alone u c g h fib b x →
    let q := h.dst.1.num.toNat
    let bs := b.card q ++ (List.range 16).map (leByte x.a)
    (bs.length % 16 ≠ 0 ∨ 256 < bs.length →
      exec (.qwrc f) s = .next ((u.faultAt c 0x22 [fib] 0 0).modFibre c.gid fib fun y => y.setCard q [])) ∧
    (u.cardWhy c.gid g q (f.md.getLsbD 0) bs = none → ∃ t card, exec (.qwrc f) s = .next t ∧
      tfind t.cards u.nextId = some card ∧ card.q = q ∧ card.ua = f.md.getLsbD 0 ∧ card.gid = c.gid ∧ card.fib = fib ∧
      card.vf = g.vf ∧ card.bytes = cardBytes b q x.a ∧ card.accepted = false ∧ card.moved = [] ∧ card.status = none ∧
      (∀ id, Outstanding u c fib id → id ∈ card.after) ∧
      (∀ y ∈ (t.core c.k).l1, y.loc.vf = g.vf → y.dirty = 0) ∧
      (∀ id, id ≠ u.nextId → tfind t.cards id = tfind u.cards id) ∧
      t = { u with groups := t.groups, cores := t.cores, dies := t.dies, agents := t.agents, accs := t.accs, cards := t.cards,
                   nextAcc := t.nextAcc, nextId := t.nextId, freeCtr := t.freeCtr, fetched := t.fetched, out := t.out,
                   waiters := t.waiters, ctxs := t.ctxs } ∧
      (∀ j b0, tfind g.fibres j = some b0 → ∃ b', t.fibre? c.gid j = some b' ∧
        b' = { b0 with pc := b'.pc, popped := b'.popped, park := if j = fib then .card u.nextId else b0.park } ∧
        (b0.live = true → b'.pc = if j = fib then b.pc else passes c g j b0)) ∧
      ∀ j, j ≠ c.gid → t.group? j = u.group? j)

/-- R97 to R101: a block's elements as integers, its sum added to an accumulator, and its NaNs. -/
def Obligations.BlockContributions : Prop :=
  (∀ el n uns codes, el ≤ 6 → Aligns el n uns codes (blockInts el n uns codes)) ∧
  (∀ acc S e, acc < 2 ^ 32 → Accumulates acc S e (accAdd acc S e)) ∧
  (∀ acc, acc < 2 ^ 32 → (IsNan fp32 acc → accNan acc = acc) ∧ (¬ IsNan fp32 acc → accNan acc = 0x7FC00000)) ∧
  (∀ acc a img j g, (blockAcc acc a img j g).1 =
    let b := img.ints j g
    let z := (img.scales.getD j []).getD g 0
    match a.2 with
    | none => accNan acc
    | some xa =>
      if (slotScaled img.fslot = true ∧ z = 255) ∨ a.1.special = true ∨ b.special = true then accNan acc
      else (accAdd acc (((img.blockOf j g).1.zip b.ints).foldl (fun t p => t + a.1.ints.getD p.1 0 * p.2) 0)
        (a.1.l + b.l + xa + if slotScaled img.fslot then (z : ℤ) - 127 else 0)).1)

/-- R39, R285, R286, R295, R300: ARMING and DESCRIPTOR_ACCEPTANCE, and CARD_ACCEPTANCE of each kind of card (R231, R275).
R181, R277, R278, R233: COPY_CARD_START, COPY_LINE of a copy within the scratchpad and of any other, ENGINE_COMPLETION of a
copy card and of a matrix operation. -/
def Obligations.CardsAndCopies : Prop := Claims.AcceptanceEvents ∧ Claims.CopyEvents

/-- R284, R285, R289 to R293, R297: the events of the matrix engine where one group works: BINDING_LOAD, MATRIX_PASS,
SELF_TEST_INJECTION, RESULT_PUSH, PAIRED_START and MPAIR_TIMEOUT. -/
def Obligations.MatrixEvents : Prop :=
  (∀ s k x g b img w bss, EngineFor s k x g → x.kind = .bind b img →
    ((s.modEng k x.item fun y => { y with started := true }).wakeBinders k).readB (k / 16) g.vf x.item (bRanges g img.tile) []
      = .ok w bss → ∃ t gt, exec (.bindingLoad k) s = .next t ∧ t.mem = w.mem ∧ t.group? x.gid = some gt ∧
      (∀ y ∈ (t.core k).eng, y.item ≠ x.item) ∧ gt.acc = g.acc ∧ gt.pad = g.pad ∧
      tget Binding.none gt.binds b = img.fill bss ∧ (img.fill bss).loaded = true ∧
      (∀ j, j < img.n → j < bss.length → ∀ i, i < img.ks → ((img.fill bss).codes.getD j []).getD i 0 =
        leNat (bss.getD j []) / 2 ^ (bitsPer img.elem * i) % 2 ^ bitsPer img.elem) ∧
      (∀ i, i ≠ b → ∀ y, tfind g.binds i = some y → ∃ y', tfind gt.binds i = some y' ∧ y' = { y with valid := y'.valid } ∧
        (y'.valid = true ↔ y.valid = true ∧ ∀ m ∈ y.macros, m ∉ img.macros))) ∧
  (∀ s k x g, EngineFor s k x g → x.kind = .op → x.started = false → x.paired = none → s.edgesClear x.item = true →
    (∀ p ∈ g.fibres, ∀ n, p.2.since = some n → x.turn < n) →
    let img := tget Binding.none g.binds x.bindSlot
    let st : Option Nat := if img.valid = false ∨ img.loaded = false then some 0x0006
      else if g.lostMacro img = true then some 0x0007 else none
    ∃ t, exec (.matrixPass k) s = .next t ∧
      EntryBecomes s t k x.item (fun y =>
        let y := { y with started := true, img := img }
        if st.isSome then { y with status := st, pushLeft := [] } else y) ∧
      t = { s with cores := t.cores, groups := t.groups }) ∧
  (∀ s k x g, EngineFor s k x g → x.passing = true → s.testDue k x = false → x.paired = none → x.rowCodes ≠ [] →
    (∀ y ∈ (s.core k).eng, y.item = x.item → y = x) → 0 < x.img.km →
    ∃ t gt, exec (.matrixPass k) s = .next t ∧ t.group? x.gid = some gt ∧
      t = { s with cores := t.cores, groups := t.groups } ∧ gt = { g with acc := gt.acc } ∧
      (∀ j, j < x.img.n → tget 0 gt.acc (x.accBase + x.row * x.accStride + j) = BitVec.ofNat 32 (passOver x g j).1) ∧
      (∀ a, (∀ j, j < x.img.n → a ≠ x.accBase + x.row * x.accStride + j) → tget 0 gt.acc a = tget 0 g.acc a) ∧
      ∃ ev : Nat, (∀ i, ev.testBit i = true ↔ ∃ j, j < x.img.n ∧ (passOver x g j).2.testBit i = true) ∧
      (x.pass + 1 < x.passes → EntryBecomes s t k x.item fun y =>
        { y with pass := y.pass + 1, sinceTest := y.sinceTest + 1, events := y.events ||| ev }) ∧
      (x.passes ≤ x.pass + 1 → x.row + 1 < x.m → EntryBecomes s t k x.item fun y =>
        { y with row := y.row + 1, pass := 0, rowCodes := [], rowScales := [], sinceTest := y.sinceTest + 1,
                 events := y.events ||| ev }) ∧
      (x.passes ≤ x.pass + 1 → x.m ≤ x.row + 1 → ∀ y ∈ (t.core k).eng, y.item = x.item →
        (x.resport = 0 → y.status = some 0) ∧ (x.resport ≠ 0 → y.pushLeft = (List.range x.m).flatMap fun i =>
          (List.range x.img.n).map fun j => (tget 0 gt.acc (x.accBase + i * x.accStride + j)).toNat))) ∧
  (∀ s k x g bad, EngineFor s k x g → x.passing = true → s.testDue k x = true → ∃ t gt,
    exec (.selfTestInjection k bad) s = .next t ∧ t = { s with cores := t.cores, groups := t.groups, freeCtr := t.freeCtr } ∧
    t.group? x.gid = some gt ∧ gt = { g with macros := gt.macros } ∧
    (∀ m ∈ x.img.macros, ∀ om, g.macros[m]? = some om → om.unavailable = false → bad.getLsbD om.phys = true →
      om.phys ∈ (t.core k).fenced ∧ ∃ nm, gt.macros[m]? = some nm ∧ (nm.replaced = true ∨ nm.unavailable = true)) ∧
    ((∀ m ∈ x.img.macros, ∀ om, g.macros[m]? = some om → bad.getLsbD om.phys = false ∧ om.unavailable = false) →
      (∀ m ∈ x.img.macros, m < g.macros.length) → gt = g ∧ EntryBecomes s t k x.item fun y => { y with tested := true, sinceTest := 0 })) ∧
  (∀ s k x g v rest, EngineFor s k x g → x.pushLeft = v :: rest → 4 ≤ x.resport →
    let p := tget ResPort.empty (s.core k).ports (x.resport - 4)
    p.fifo.length < 1024 → p.readers = [] → g.pendExec = [] → NoneConverging g → ∃ t, exec (.resultPush k) s = .next t ∧
      (∀ j, j ≠ x.gid → t.group? j = s.group? j) ∧
      tget ResPort.empty (t.core k).ports (x.resport - 4) = { p with fifo := p.fifo ++ [BitVec.ofNat 32 v] } ∧
      EntryBecomes s t k x.item fun y => { y with pushLeft := rest, status := if rest.isEmpty then some 0 else none }) ∧
  (∀ s k x y g p gp, k % 2 = 0 → EngineFor s k x g → EngineFor s (k + 1) y gp → g.pair = .active p → y.gid = p →
    gp.pair = .active x.gid → g.ended = none → gp.ended = none → x.kind = .op → y.kind = .op → x.paired.isSome = true → y.paired = x.paired →
    (∀ z ∈ (s.core (k + 1)).eng, z.paired = x.paired → z = y) →
    x.started = false → y.started = false → s.mayStart k x = true → s.mayStart (k + 1) y = true →
    max x.acceptedAt y.acceptedAt + 2 ≤ s.cycleOf k →
    (x.m ≠ y.m ∨ x.cols ≠ y.cols → ∃ t, exec (.pairedStart k) s = .next t ∧
      EntryBecomes s t k x.item (fun z => { z with status := some 8, pushLeft := [] }) ∧
      EntryBecomes s t (k + 1) y.item (fun z => { z with status := some 8, pushLeft := [] }) ∧ t = { s with cores := t.cores }) ∧
    (x.m = y.m → x.cols = y.cols → ∃ t, exec (.pairedStart k) s = .next t ∧
      (∀ z ∈ (t.core k).eng, z.item = x.item → z.started = true ∧ z.img = tget Binding.none g.binds x.bindSlot) ∧
      (∀ z ∈ (t.core (k + 1)).eng, z.item = y.item → z.started = true ∧ z.aelem = x.aelem ∧
        z.img = tget Binding.none gp.binds y.bindSlot) ∧ t = { s with cores := t.cores, groups := t.groups })) ∧
  (∀ s k x g, EngineFor s k x g → x.kind = .op → x.paired.isSome = true → x.started = false → s.mayStart k x = true →
    (g.ended.isSome = true ∨ ∀ p, g.pair ≠ .active p) → ∃ t, exec (.pairedStart k) s = .next t ∧ t = { s with cores := t.cores } ∧
      EntryBecomes s t k x.item fun z =>
        { z with status := some (if (tget Binding.none g.binds x.bindSlot).valid = true then 9 else 6), pushLeft := [] }) ∧
  (∀ s gid g q since, s.group? gid = some g → g.pairWait = some (q, since) → since + 1048576 ≤ s.cycleOf g.k →
    (g.fibres.map (·.1)).Nodup →
    ∃ t gt, exec (.mpairTimeout gid) s = .next t ∧ t = { s with groups := t.groups } ∧ t.group? gid = some gt ∧
      gt = { g with fibres := gt.fibres, pairWait := none } ∧
      ∀ f b, tfind g.fibres f = some b → b.live = true → ∃ b', tfind gt.fibres f = some b' ∧
        match b.park with
        | .pairing n w => b'.park = .none ∧ b'.pc = BitVec.ofNat 32 (seqPc b.pc.toNat) ∧ b'.regs = b.regs ∧
            ∀ m, m < 15 → b'.p m = if w = true ∧ m = n then false else b.p m
        | _ => b' = b)

/-- R22, R31, R34, R50, R51, R137, R172: the events of slices and of what fibres wait for: BUNDLE_FORMATION, HOLD_RUN_TIMEOUT,
NAP_EXPIRY, QUAD_SLOT_RETURN, LINE_FILL and BUFFER_ENTRY_ARRIVAL. -/
def Obligations.SliceEvents : Prop :=
  (∀ s k sl, s.cycleOf k % 4 = 0 → (s.slice k sl).formedAt ≠ some (s.cycleOf k) → s.dieRuns (k / 16) = true → sl ≤ 3 → k ≤ 255 →
    Distinct s.groups →
    ∃ t, exec (.bundleFormation k sl) s = .next t ∧ t = { s with groups := t.groups, cores := t.cores } ∧
      (∀ j g, s.group? j = some g → ∃ gt, t.group? j = some gt ∧ gt = { g with fibres := gt.fibres } ∧
        ∀ f b, tfind g.fibres f = some b → ∃ b', tfind gt.fibres f = some b' ∧
          b' = { b with park := b'.park } ∧ (b'.park = b.park ∨ (b.park = .yielded ∧ b'.park = .none))) ∧
      (∀ b ∈ (t.slice k sl).bundles, ((s.slice k sl).hold.elim True fun h => b.num ≠ h.1) → ∃ g, t.group? b.gid = some g ∧ g.k = k ∧
        b.quads.length ≤ 8 ∧ b.quads ≠ [] ∧ (∀ q ∈ b.quads, q / 8 % 4 = sl) ∧
        (∀ f, f ∈ b.en ↔ f / 4 ∈ b.quads ∧ ∃ x, tfind g.fibres f = some x ∧ x.live = true ∧ x.park = .none ∧ x.pc.toNat = b.pc)) ∧
      (t.slice k sl).formedAt = some (s.cycleOf k)) ∧
  (∀ s k sl n m, (s.slice k sl).hold = some (n, m) → (s.slice k sl).holdSince + 16 ≤ s.cycleOf k →
    (∀ b ∈ (s.slice k sl).bundles, b.num = n → s.canIssue k sl b = none) →
    ∃ t, exec (.holdRunTimeout k sl) s = .next t ∧ SliceBecomes s t k sl fun x => { x with hold := none }) ∧
  (∀ s gid f g b n, s.group? gid = some g → tfind g.fibres f = some b → b.park = .nap n → n ≤ s.cycleOf g.k →
    ∃ t, exec (.napExpiry gid f) s = .next t ∧ FibresBecome s t gid fun x y => if x = f then { y with park := .none } else y) ∧
  (∀ s gid q g, s.group? gid = some g → (∃ p ∈ g.fibres, p.1 / 4 = q) →
    (∀ p ∈ g.fibres, p.1 / 4 = q → p.2.live = false ∧ p.2.pendRegs = []) →
    ∃ t gt, exec (.quadSlotReturn gid q) s = .next t ∧ t = { s with groups := t.groups } ∧ t.group? gid = some gt ∧
      (∀ j, j ≠ gid → t.group? j = s.group? j) ∧ gt = { g with fibres := gt.fibres, pools := gt.pools } ∧
      (∀ f, tfind gt.fibres f = if f / 4 = q then none else tfind g.fibres f) ∧
      ∀ i, i < g.pools.length → gt.pools.getD i 0 = g.pools.getD i 0 + if i = q / 8 % 4 then
        g.fibres.countP (fun p => p.1 / 4 == q) else 0) ∧
  (∀ s k vf code off d1 d2 gid g m, (gid, g) ∈ s.groups → g.k = k → g.vf = vf → g.codePtr = code → off < g.codeLen →
    g.evicted = false → off % 64 = 0 → (s.core k).iline vf code off = none → s.codeMem vf code off = some m →
    (s.core k).icache.length < 1024 →
    ∃ t l, exec (.lineFill k vf code off d1 d2) s = .next t ∧ t = { s with cores := t.cores } ∧
      (∀ j, t.core j = if j = k then { s.core k with icache := (s.core k).icache ++ [l] } else s.core j) ∧
      l.vf = vf ∧ l.codePtr = code ∧ l.off = off ∧
      (lineParityOk (m ^^^ d1) = true → l.data = m ^^^ d1 ∧ l.poisoned = false) ∧
      (lineParityOk (m ^^^ d1) = false → l.data = m ^^^ d2 ∧ l.poisoned = !lineParityOk (m ^^^ d2))) ∧
  (∀ s k vf idx gid g, (gid, g) ∈ s.groups → g.k = k → g.vf = vf → (∃ p ∈ g.fibres, p.2.park = .bufMiss vf idx) →
    ∃ t, exec (.bufferEntryArrival k vf idx) s = .next t ∧
      t = { s with groups := t.groups, cores := t.cores, freeCtr := t.freeCtr, ctxs := t.ctxs, stks := t.stks, mh := t.mh } ∧
      (t.core k).bufEntry vf idx = some (s.tableEntry vf idx) ∧
      ∀ j y, s.group? j = some y → ∃ yt, t.group? j = some yt ∧ yt = { y with fibres := yt.fibres } ∧
        ∀ f b, tfind y.fibres f = some b → ∃ b', tfind yt.fibres f = some b' ∧ b' = { b with park := b'.park } ∧
          (y.k = k → y.vf = vf → b'.park = if b.park = .bufMiss vf idx then .none else b.park))

/-- R16, R23, R36, R43, R45, R307 to R312: the events of Halyard: SUBMISSION_RING_SERVICE, TASK_DISPATCH, CLUSTER_PLACEMENT,
GROUP_END, GRID_COMPLETION and BUDGET_PERIOD. -/
def Obligations.HalyardEvents : Prop :=
  (∀ (s : State) vf w bs, let c := s.ctx vf
    c.desc.isSome = true → c.bound = true → subqEnable c.subq = true → c.ringStopped = none →
    (c.ring = none → s.checkPtr vf (subqCnt c.subq) 8 8 .r = none → s.checkPtr vf (ptrAdd (subqCnt c.subq) 8) 8 8 .w = none →
      s.halyardRead vf (ringKey vf) (subqCnt c.subq) 16 = .ok w bs →
      let lim := min (leNat (bs.take 8)) (leNat ((bs.drop 8).take 8) + 2 ^ subqSize c.subq)
      ∃ t, exec (.submissionRingService vf) s = .next t ∧ t.mem = w.mem ∧
        (t.ctx vf).ring = if leNat ((bs.drop 8).take 8) < lim then some (leNat ((bs.drop 8).take 8), lim) else none) ∧
    (∀ j lim v, c.ring = some (j, lim) →
      let p := ptrAdd (subqRing c.subq) (256 * (j % 2 ^ subqSize c.subq) : Nat)
      s.checkPtr vf p 256 0 .r = none → s.checkPtr vf (ptrAdd (subqCnt c.subq) 8) 8 8 .w = none →
      s.halyardRead vf (ringKey vf) p 256 = .ok w bs → w.taskWhy vf bs = none →
      (w.items.filter fun p => p.2.kind == .task && p.2.vf == vf && !p.2.started).length < Config.halyardEntries vf →
      ((({ w with nextId := w.nextId + 1 }.addItem w.nextId (taskItem vf bs)).forget (ringKey vf)).forget (entryKey vf)).putWord
        32 vf (ptrAdd (subqCnt c.subq) 8) (j + 1) = some v →
      ∃ t, exec (.submissionRingService vf) s = .next t ∧ t = { v with ctxs := t.ctxs } ∧
        (t.ctx vf).ring = (if j + 1 < lim then some (j + 1, lim) else none) ∧ ∃ it, tfind t.items w.nextId = some it ∧
          it.kind = .task ∧ it.vf = vf ∧ it.reads = footprintOf bs 128 ∧ it.writes = footprintOf bs 192)) ∧
  (∀ s vf id it w bs, s.vfHolds vf = true → s.placing vf = false → s.nextTask vf = some (id, it) → it.waits = [] →
    s.halyardRead vf id it.launch 384 = .ok w bs → it.vf = vf → leNat ((bs.drop 8).take 4) ≠ 0 →
    (∀ u, u = { (w.forget id) with items := tmod (w.forget id).items id fun x => { x with started := true },
                                   nextId := w.nextId + 1, mh := { w.mh with nextOrder := w.mh.nextOrder + 1 } } →
      u.launchWhy vf bs (readLaunch bs) = none →
      ∃ t q, exec (.taskDispatch vf) s = .next t ∧ t = { u with grids := t.grids } ∧ tfind t.grids w.nextId = some q ∧
        GridOf q vf id bs ∧ ∀ j, j ≠ w.nextId → tfind t.grids j = tfind u.grids j)) ∧
  (∀ (s : State) gridId q index k vdie, Starts (s.newGroup gridId q index k vdie) gridId q index k vdie) ∧
  (∀ s gridId q v cores w, tfind s.grids gridId = some q → s.vfHolds q.vf = true → q.ending = none → q.nextIndex < q.total →
    ((searchDies (s.partOf q.vf).length q.lastDie).findSome? fun v =>
      (s.fitCluster q.vf ((s.ctx q.vf).vmap v) q.cluster ((List.range q.cluster).map fun p => (p, q.need))).map fun cores => (v, cores))
        = some (v, cores) →
    s.placeAll gridId q q.nextIndex v cores = some w →
    ∃ t, exec (.clusterPlacement gridId) s = .next t ∧ t = { w with grids := t.grids } ∧
      ∀ j, tfind t.grids j = if j = gridId then (tfind w.grids j).map fun q => { q with nextIndex := q.nextIndex + q.cluster, lastDie := some v }
        else tfind w.grids j) ∧
  (∀ s gid g, s.group? gid = some g → g.halted = false → g.dead = false → g.ended = none → (∀ p ∈ g.fibres, p.2.live = false) →
    s.drained gid g = true →
    ((∀ i, i < 8 → (tget KReg.idle g.kregs i).armed = false) → ∃ t, exec (.groupEnd gid) s = .next t ∧ t.group? gid = none ∧
      (∀ q, tfind t.grids g.grid = some q → gid ∉ q.groups) ∧ (∀ p ∈ (t.core g.k).ports, p.2.owner ≠ some gid) ∧
      ∀ a, memByte t.mem a = memByte s.mem a) ∧
    (∀ r pc mask fib, r < 8 → (tget KReg.idle g.kregs r).armed = true → (∀ i, i < r → (tget KReg.idle g.kregs i).armed = false) →
      g.lastRetire = some (pc, mask, fib) → exec (.groupEnd gid) s = .next (s.takeFault gid 0x20 pc mask fib r 0))) ∧
  (∀ s gridId q st w, tfind s.grids gridId = some q → q.groups = [] → (q.ending = none → q.total ≤ q.nextIndex) →
    s.backsOut q.vf = false → st = q.ending.elim 0 (·.2.2) → q.item = none →
    s.complete (complKey gridId) 32 q.vf ⟨q.cmpl, q.cnt, q.seq, q.inc⟩ st = .ok w () →
    ∃ t, exec (.gridCompletion gridId) s = .next t ∧
      t = { w with grids := t.grids, out := t.out, fetched := tdel w.fetched (complKey gridId) } ∧
      (∀ j, tfind t.grids j = if j = gridId then none else tfind w.grids j) ∧
      t.out = w.out ++ if st ≠ 0 ∨ q.irq = true then [.msix q.vf ((w.ctx q.vf).msix + 1)] else []) ∧
  (∀ s gridId q id it st w v, tfind s.grids gridId = some q → q.groups = [] → (q.ending = none → q.total ≤ q.nextIndex) →
    s.backsOut q.vf = false → st = q.ending.elim 0 (·.2.2) → q.item = some id → tfind s.items id = some it →
    s.complete (complKey gridId) 32 q.vf ⟨q.cmpl, q.cnt, q.seq, q.inc⟩ st = .ok w () →
    w.complete (complKey id) 32 it.vf ⟨it.cmpl, it.cnt, it.seq, it.inc⟩ st = .ok v () →
    ∃ t, exec (.gridCompletion gridId) s = .next t ∧ t.mem = v.mem ∧ tfind t.grids gridId = none ∧ tfind t.items id = none) ∧
  (∀ s, s.mh.periodAt + 10000 ≤ s.ns → (∀ n, Distinct (s.stack n).hbmUsed) → ∃ t, exec .budgetPeriod s = .next t ∧
    t = { s with cores := t.cores, dies := t.dies, stks := t.stks, mh := t.mh } ∧
    t.mh = { s.mh with flitUsed := t.mh.flitUsed, periodAt := s.mh.periodAt + 10000 } ∧
    (∀ k, t.core k = { s.core k with used := [] }) ∧ (∀ d, t.die d = { s.die d with copyUsed := [] }) ∧
    (∀ n, t.stack n = { s.stack n with fillUsed := [], abUsed := [], hbmUsed := (t.stack n).hbmUsed } ∧
      ∀ v, tget 0 (t.stack n).hbmUsed v = tget 0 (s.stack n).hbmUsed v - s.hbmLimit n v) ∧
    ∀ x ∈ t.mh.flitUsed, ∃ y ∈ s.mh.flitUsed, x.1 = y.1 ∧ x.2.1 = y.2.1 ∧ x.2.2 = y.2.2 - s.flitLimit y.2.1 (y.1 / 64))

/-- R177, R184, R187, R192, R204 to R213, R223 to R240, R333: the events of the fabric: REPLY_ARRIVAL, HOME_FAULT_ARRIVAL,
HOME_STORE_APPLY, HOME_LOAD_PERFORM, RELAXED_APPLY, WRITE_BACK, HORIZON_BEAT, BEAT_RECORD, ORDERED_SEND, ROUTER_MESSAGE,
REQUEST_TIMEOUT, DIE_FAILURE and DIE_REJOIN. -/
def Obligations.FabricEvents : Prop :=
  (∀ s m a bs f dst size off own fill helper g b, Returns s m a (.data bs) →
    a.owner = .load f dst size off own fill none helper → s.group? a.gid = some g → tfind g.fibres f = some b →
    size = dst.count * dst.esize → off + size ≤ bs.length → Distinct own → (∀ p ∈ own, p.1 < size) → m < s.nextAcc →
    ∃ t, exec (.replyArrival m) s = .next t ∧ tfind t.accs m = none ∧ (fill = none → Over s t m a) ∧
      Holds32 t a.gid f dst (registersOf dst.esize (fun j => (tfind own j).getD (bs.getD (off + j) 0)) size) ∧
      ∀ sc, fill = some sc → a.noFill = false → ∃ y ∈ (t.core (16 * a.agent + a.port)).l1, y.loc.sameLine a.loc = true ∧
        ∀ n, n < 4 → a.loc.sva % 128 ≤ 32 * n → 32 * n + 32 ≤ a.loc.sva % 128 + bs.length →
          y.valid.getLsbD n = true ∧ y.fill.getD n .grp = sc) ∧
  (∀ s m a vs fs dst w acq g, Returns s m a (.olds vs) → a.owner = .atomic fs dst w acq → s.group? a.gid = some g → Distinct vs →
    (∀ p ∈ vs, ∃ b, tfind g.fibres p.1 = some b) →
    ∃ t, exec (.replyArrival m) s = .next t ∧ Over s t m a ∧ ∀ p ∈ vs, Holds32 t a.gid p.1 dst p.2) ∧
  (∀ s m a f, Returns s m a .ack → a.owner = .store f ∨ a.owner = .fence f →
    ∃ t, exec (.replyArrival m) s = .next t ∧ Over s t m a ∧ t = { s with accs := t.accs, agents := t.agents, mh := t.mh }) ∧
  (∀ s m a cs info f g, Returns s m a (.fault cs info) → a.owner = .store f → s.group? a.gid = some g →
    let u := { (s.takePort a) with accs := tdel s.accs m }
    (g.halted = false → g.evicted = false →
      exec (.homeFaultArrival m) s = .next (u.takeFault a.gid cs a.pc a.mask f info a.loc.eptr)) ∧
    (g.halted = true ∨ g.evicted = true → exec (.homeFaultArrival m) s = .next
      (u.setGroup a.gid { g with lateFaults := g.lateFaults ++ [(cs, a.pc, a.mask, f, a.loc.eptr, info)] }))) ∧
  (∀ s m a cs info f dst size off own fill acq g, Returns s m a (.fault cs info) →
    a.owner = .load f dst size off own fill acq false → dst.latch = none → s.group? a.gid = some g → g.halted = false →
    g.evicted = false → ∃ u, FibresBecome { (s.takePort a) with accs := tdel s.accs m } u a.gid (fun x b => if x = f then
        { b with pendRegs := b.pendRegs.filter fun r => !dst.pending.contains r } else b) ∧
      exec (.homeFaultArrival m) s = .next (u.takeFault a.gid cs a.pc a.mask f info a.loc.eptr)) ∧
  (∀ s m a bs, MayPerform s m a → a.cls ≠ .rx → a.op = .store bs →
    WritesHome (.homeStoreApply m) s m a (bs.zipIdx.map fun b => (a.loc.sva % 128 + b.2, b.1))) ∧
  (∀ s m a n, MayPerform s m a → a.cls ≠ .rx → a.op = .load n → ReadsHome (.homeLoadPerform m) s m a n) ∧
  (∀ s m a, MayPerform s m a → a.cls = .rx → (∀ bs, a.op = .store bs →
      WritesHome (.relaxedApply m) s m a (bs.zipIdx.map fun b => (a.loc.sva % 128 + b.2, b.1))) ∧
    ∀ n, a.op = .load n → ReadsHome (.relaxedApply m) s m a n) ∧
  (∀ s m a bs, MayPerform s m a → a.op = .merge bs → Distinct bs → WritesHome (.writeBack m) s m a bs) ∧
  (∀ s e, e ≤ 32 → (s.agent e).lastBeat + 64 ≤ s.fabric → (e < 16 → s.dieRuns e = true) →
    ∃ t, exec (.horizonBeat e) s = .next t ∧ t = { s with beats := t.beats, agents := t.agents } ∧
      (∀ j, t.agent j = if j = e then { s.agent e with lastBeat := s.fabric } else s.agent j) ∧
      ∀ b, b ∈ t.beats ↔ (b ∈ s.beats ∧ ¬ (b.agent = e ∧ b.stack < 16 ∧ s.reaches e b.stack = true)) ∨
        (b.agent = e ∧ b.stack < 16 ∧ s.reaches e b.stack = true ∧ b.lane < 4 ∧ b.ctr = tget 0 (s.agent e).vec e ∧
          b.num = tget 0 (s.agent e).seqs (4 * b.stack + b.lane))) ∧
  (∀ s st e lane b, b ∈ s.beats → b.agent = e → b.stack = st → b.lane = lane →
    (∀ b' ∈ s.beats, b'.agent = e → b'.stack = st → b'.lane = lane → b' = b) →
    seqGe (tget 0 (s.stack st).expectSeq (4 * e + lane)) b.num = true →
    ∃ t, exec (.beatRecord st e lane) s = .next t ∧ t = { s with beats := t.beats, stks := t.stks } ∧
      (∀ b', b' ∈ t.beats ↔ b' ∈ s.beats ∧ b' ≠ b) ∧ (∀ n, n ≠ st → t.stack n = s.stack n) ∧
      t.stack st = { s.stack st with fr := (t.stack st).fr } ∧
      ∀ n, tget 0 (t.stack st).fr n = if n = 4 * e + lane then vMax (tget 0 (s.stack st).fr n) b.ctr
        else tget 0 (s.stack st).fr n) ∧
  (∀ s m a, tfind s.accs m = some a → a.held = true → a.ext ≠ 4 → a.ext ≠ 5 → (∀ i ∈ a.after, tfind s.accs i = none) →
    (a.causal = true → a.op.writes = true → s.counterRoom a.agent = true) → (a.op.sequenced = true → s.unacked a < 64) →
    (16 ≤ a.agent ∨ ((s.die a.agent).cuLine a.loc = none ∧ (s.die a.agent).cuOps = [])) →
    let up := a.causal && a.op.writes
    let key := 4 * a.loc.stack + a.lane
    let own := tget 0 (s.agent a.agent).vec
    let numbered := a.op.sequenced = true ∧ a.ext = 0
    ∃ t a', exec (.orderedSend m) s = .next t ∧ t = { s with agents := t.agents, accs := t.accs } ∧
      (∀ j, tfind t.accs j = if j = m then some a' else tfind s.accs j) ∧
      a' = { a with held := false, vec := a'.vec, nd := a'.nd, seq := a'.seq, seqAt := tget 0 (s.agent a.agent).seqs key, rseq := a'.rseq,
                    ord := (s.agent a.agent).sent, route := a'.route, legs := [.out a'.route []], sentAt := s.ns } ∧
      (a.cls ≠ .rx → a'.route.getLast? = some a.loc.stack) ∧ (t.agent a.agent).sent = (s.agent a.agent).sent + 1 ∧
      (∀ j, tget 0 (t.agent a.agent).vec j = if j = a.agent ∧ up = true then (own j + 1) % 2 ^ 24 else own j) ∧
      (a.causal = true → a'.vec = (t.agent a.agent).vec) ∧ (a.causal = false → a'.vec = []) ∧
      (numbered → a.cls ≠ .rx → a'.seq = some (tget 0 (s.agent a.agent).seqs key) ∧ a'.rseq = none ∧
        tget 0 (t.agent a.agent).seqs key = (tget 0 (s.agent a.agent).seqs key + 1) % 2 ^ 16) ∧
      (numbered → a.cls = .rx → a'.seq = none ∧ a'.rseq = some (tget 0 (s.agent a.agent).rseqs key) ∧
        tget 0 (t.agent a.agent).rseqs key = (tget 0 (s.agent a.agent).rseqs key + 1) % 2 ^ 16) ∧
      (¬ numbered → a'.seq = none ∧ a'.rseq = none)) ∧
  (∀ s m a st rest path, tfind s.accs m = some a → a.legs = [.out (st :: rest) path] →
    let frm := path.headD (nodeOf a.agent)
    (exec (.routerMessage m true) s = .next { s with accs := tset s.accs m { a with legs := [] } }) ∧
    (frm ≠ st → s.passes st frm a = false →
      exec (.routerMessage m false) s = .next { s with agenda := .event (.alarmEvent 3) :: s.agenda, accs := tset s.accs m { a with legs := [] } }) ∧
    ((frm = st ∨ (s.passes st frm a = true ∧ s.flitsOn (linkOf frm st) a.loc.vf < s.flitLimit a.loc.vf frm)) →
      ∃ t, exec (.routerMessage m false) s = .next t ∧ t = { s with accs := t.accs, mh := t.mh } ∧
        t.accs = tset s.accs m { a with legs := [if rest = [] then .home (st :: path) else .out rest (st :: path)] })) ∧
  (∀ s m a, tfind s.accs m = some a → a.held = false → a.queued = false →
    (∀ p, Leg.back p ∈ a.legs → 1 < p.length) →
    (a.reissues < 3 → a.isPref = false → a.sentAt + (if a.reissues = 0 then 4000 else if a.reissues = 1 then 8000 else 16000) ≤ s.ns →
      exec (.requestTimeout m) s = .next { s with accs := tset s.accs m (reissued s a a.route) }) ∧
    (∀ f g, m < s.nextAcc → a.reissues = 3 → a.sentAt + 16000 ≤ s.ns → a.owner = .store f → s.group? a.gid = some g → g.halted = false →
      g.evicted = false → g.ended = none → a.loc.stack < 16 →
      ∃ t gt, exec (.requestTimeout m) s = .next t ∧ tfind t.accs m = none ∧ t.group? a.gid = some gt ∧ gt.ended = some 0x1F ∧
        a.loc.stack ∈ t.mh.degraded ∧ (t.stack a.loc.stack).health.getLsbD 0 = true ∧ (t.ctx g.vf).sticky.getLsbD 2 = true)) ∧
  (∀ s d, d ≤ 15 → (s.die d).failed = false → ∃ t, exec (.dieFailure d) s = .next t ∧ (t.die d).failed = true ∧
    (∀ st, st < 16 → d ∈ (t.stack st).waived) ∧ (∀ j g, s.group? j = some g → g.k / 16 = d → g.evicted = false →
      ∃ gt, t.group? j = some gt ∧ gt.ended ≠ none) ∧
    (∀ j a, tfind t.accs j = some a → a.agent = d → s.mcasAccepted a = true) ∧ (t.die d).lines = []) ∧
  (∀ s d, d ≤ 15 → (s.die d).failed = true → (∀ p ∈ s.accs, p.2.agent ≠ d) → ∃ t, exec (.dieRejoin d) s = .next t ∧
    t = { s with agents := t.agents, stks := t.stks, dies := t.dies } ∧
    (∀ j, t.die j = if j = d then { s.die d with failed := false } else s.die j) ∧ (∀ st, st < 16 → d ∉ (t.stack st).waived) ∧
    (∀ j, j ≠ d → t.agent j = s.agent j) ∧ (t.agent d).lastSent = [] ∧
    ∀ e, tget 0 (t.agent d).vec e = if e = d then (s.largestOf d + 1) % 2 ^ 24 else 0)

/-- R254 to R262, R266: the events of counter waits, of MCAS and of ATOMP: CWAIT_REPLY, CWAIT_TIMEOUT, CWAIT_RESEND,
LOCK_AND_READ, MCAS_COMMIT, MCAS_LOCK_TIMEOUT, MCAS_RESTART, MCAS_CANCEL, ATOMP_ROUTINE, and the reply of an MCAS. -/
def Obligations.CounterEvents : Prop :=
  (∀ s w x f v rest g b, tfind s.waiters w = some x → x.replies = (f, v) :: rest → s.group? x.gid = some g →
    tfind g.fibres f = some b → ∃ t, exec (.cwaitReply w) s = .next t ∧ Holds32 t x.gid f x.dst v ∧ GoesOn t x.gid f x.pc b ∧
      (∀ j, tfind t.waiters j = if j ≠ w then tfind s.waiters j else if rest = [] ∧ x.steps = [] then none
        else some { x with replies := rest }) ∧
      (t.agent (g.k / 16)).vec = if x.cls ≠ .rx ∧ x.scope.isWide = true ∧ x.loc.win = false then vMerge (s.agent (g.k / 16)).vec x.replyVec
        else (s.agent (g.k / 16)).vec) ∧
  (∀ s w x g d v, tfind s.waiters w = some x → s.group? x.gid = some g → x.deadline = some d → d ≤ s.cycleOf g.k → x.steps ≠ [] →
    s.counterAt x = some v → exec (.cwaitTimeout w) s = .next { s with waiters := tset s.waiters w (timedOut s x v) }) ∧
  (∀ s w x g, tfind s.waiters w = some x → s.group? x.gid = some g → x.entered = false → x.steps ≠ [] → g.halted = false →
    x.askedAt + 256 ≤ s.cycleOf g.k → (∀ p ∈ s.accs, p.2.owner ≠ .wait w) → (s.die (g.k / 16)).cuOps = [] →
    ∃ t y, exec (.cwaitResend w) s = .next t ∧ tfind t.waiters w = some y ∧ y.askedAt = s.cycleOf g.k ∧
      (∀ i, x.place = .pad i → y.entered = true ∨ y.replies ≠ x.replies) ∧
      (∀ h, x.place = .home h → ∃ id a, s.nextAcc ≤ id ∧ tfind t.accs id = some a ∧ a.op = .wait w ∧ a.owner = .wait w ∧
        a.loc = x.loc ∧ a.scope = x.scope)) ∧
  (∀ (s : State) x st (q : Mcas) a u ps, tfind s.mcas x = some q → tfind s.accs q.access = some a → q.phase = .sent ∨ q.phase = .locking →
    q.homes.find? (fun h => !q.locked.contains h) = some st →
    (q.locked = [] → MayPerform s q.access a) → (q.locked ≠ [] → a.causal = true → s.gate st a.agent a.vec = true) →
    (∀ e ∈ q.ents, e.loc.stack = st → q.locked ≠ [] → s.routeOpen (16 + a.loc.stack) e.loc = true) → (∃ e ∈ q.ents, e.loc.stack = st) →
    s.mcasPlaces x (q.ents.filter fun e => e.loc.stack == st) [] = (u, some (.ok ps)) →
    s.lockedBy st q.vf + (ascending (ps.map fun p => lockKey p.2.1 p.2.2)).length ≤ s.lockQuota st q.vf →
    ∃ (t : State) (q' : Mcas), exec (.lockAndRead x st) s = .next t ∧ t.mem = s.mem ∧ t.pin = s.pin ∧ tfind t.mcas x = some q' ∧
      q' = { q with ents := q'.ents, locked := q.locked ++ [st], phase := .locking, lockedAt := some (q.lockedAt.getD s.ns) } ∧
      (∀ p ∈ ps, (lockKey p.2.1 p.2.2, x) ∈ (t.stack st).locks) ∧ q'.ents.length = q.ents.length ∧
      ∀ (i : Nat) (e : McasEnt), q.ents[i]? = some e → ∃ e' : McasEnt, q'.ents[i]? = some e' ∧
        e' = { e with seen := e'.seen, place := e'.place, vec := e'.vec } ∧
        (e.loc.stack ≠ st → e' = e) ∧
        (e.loc.stack = st → ∃ pin addr, (e, pin, addr) ∈ ps ∧ e'.place = some (pin, addr) ∧ e'.seen = some (word64At s pin addr))) ∧
  (∀ s x st q a, tfind s.mcas x = some q → tfind s.accs q.access = some a → q.phase = .locking ∨ q.phase = .committing →
    (∀ h ∈ q.homes, h ∈ q.locked) → st ∈ q.homes → st ∉ q.committed → q.ents.length ≤ 31 → q.fault = none →
    ((∃ e ∈ q.ents, e.seen ≠ some e.expect) → ∃ t, exec (.mcasCommit x st) s = .next t ∧ t.mem = s.mem ∧ t.pin = s.pin ∧
      (∀ l ∈ (t.stack st).locks, l.2 ≠ x) ∧
      ((∀ h ∈ q.homes, h = st ∨ h ∈ q.committed) → ∃ w, McasWord q w ∧ Replied t q (.olds [(q.fib, w)]))) ∧
    (∀ e addr, (∀ e ∈ q.ents, e.seen = some e.expect) → q.ents.filter (fun y => y.loc.stack == st) = [e] →
      e.place = some (false, addr) → (s.stack st).bankFenced st (addr % 2 ^ 36 / 128) = false →
      (st ≠ a.loc.stack → s.routeOpen (16 + a.loc.stack) e.loc = true) →
      ∃ t, exec (.mcasCommit x st) s = .next t ∧ (∀ l ∈ (t.stack st).locks, l.2 ≠ x) ∧ t.pin = s.pin ∧
        (∀ n, memByte t.mem n = if addr ≤ n ∧ n < addr + 8 then leByte e.new (n - addr) else memByte s.mem n) ∧
        ((∀ h ∈ q.homes, h = st ∨ h ∈ q.committed) → ∃ w, McasWord q w ∧ Replied t q (.olds [(q.fib, w)])))) ∧
  (∀ s x q t0 h a, tfind s.mcas x = some q → q.phase = .locking → q.lockedAt = some t0 → t0 + 2000 ≤ s.ns → h ∈ q.homes → h ∉ q.locked →
    tfind s.accs q.access = some a →
    ∃ t, exec (.mcasLockTimeout x) s = .next t ∧ t = { s with stks := t.stks, mcas := t.mcas, accs := t.accs } ∧ Unlocked t x ∧
      tfind t.mcas x = some { q with phase := .restart } ∧ Replied t q .ack) ∧
  (∀ s x q g e, tfind s.mcas x = some q → s.group? q.gid = some g → q.phase = .restart → tfind s.accs q.access = none →
    q.resendAt ≤ s.cycleOf g.k → g.halted = false → q.cancel = false → e ∈ q.ents → q.homes.head? = some e.loc.stack →
    (s.die (g.k / 16)).cuOps = [] →
    ∃ t q' a, exec (.mcasRestart x) s = .next t ∧ tfind t.mcas x = some q' ∧ q'.phase = .sent ∧ q'.locked = [] ∧ q'.committed = [] ∧
      q'.ents = q.ents ∧ tfind t.accs q'.access = some a ∧ a.op = .mcas x ∧ a.loc.stack = e.loc.stack) ∧
  (∀ s x q, tfind s.mcas x = some q → q.cancel = true →
    (q.phase = .sent → exec (.mcasCancel x) s = .next { s with mcas := tset s.mcas x { q with phase := .cancelled, cancel := false } }) ∧
    (∀ a, q.phase = .locking → tfind s.accs q.access = some a → ∃ t, exec (.mcasCancel x) s = .next t ∧ Unlocked t x ∧
      t = { s with stks := t.stks, mcas := t.mcas, accs := t.accs } ∧
      tfind t.mcas x = some { q with phase := .cancelled, cancel := false } ∧ Replied t q .ack) ∧
    (q.phase = .restart → tfind s.accs q.access = none → ∃ u, exec (.mcasCancel x) s = .next { u with mcas := tdel s.mcas x } ∧
      FibresBecome s u q.gid fun f b => if f = q.fib ∧ b.park = .mcas x then { b with park := .none } else b)) ∧
  (∀ (s : State) m a x (q : Mcas) g b w, (∃ r, Returns s m a r ∧ ∀ c i, r ≠ .fault c i) → a.owner = .mcas x → tfind s.mcas x = some q → q.phase = .done →
    s.group? q.gid = some g → tfind g.fibres q.fib = some b → q.result = some w → q.ents.length ≤ 9 →
    ∃ (t : State) (gt : Group), exec (.replyArrival m) s = .next t ∧ tfind t.accs m = none ∧ tfind t.mcas x = none ∧
      Holds32 t q.gid q.fib q.dst (if w = 0 then 2 ^ 31 else w) ∧ GoesOn t q.gid q.fib q.pc b ∧ t.group? q.gid = some gt ∧
      (∀ (i : Nat) (e : McasEnt) v, q.ents[i]? = some e → w.testBit i = true → e.seen = some v → ∀ j, j < 8 →
        tget 0 gt.pad (q.block + 24 * i + 8 + j) = leByte v j) ∧
      ∀ n, (∀ i, i < q.ents.length → w.testBit i = true → n < q.block + 24 * i + 8 ∨ q.block + 24 * i + 16 ≤ n) →
        tget 0 gt.pad n = tget 0 g.pad n) ∧
  (∀ s m a idx args eoff u pin addr ws r, MayPerform s m a → a.op = .atomp idx args eoff →
    let q := (tget 0 (s.stack a.loc.stack).aquota a.loc.vf).toNat
    s.atompAhead m a < q % 256 → s.lockedBy a.loc.stack a.loc.vf < s.lockQuota a.loc.stack a.loc.vf →
    (s.stack a.loc.stack).abacus.length < 8 →
    tget 0 (s.stack a.loc.stack).abUsed a.loc.vf < shareOf (s.ctx a.loc.vf) 40 128000 →
    s.homeAt a.loc .atomic false none a.hint a.cclass = (u, .at pin addr) →
    u.routine a.loc.stack a.loc.vf idx = some ws → routineValid ws = true →
    runRoutine ws (u.homeLine pin addr) args eoff = .ok r →
    ∃ t, exec (.atompRoutine m) s = .next t ∧ Answers t m a (.olds [(a.fibs.headD 0, xget r.x 10)]) ∧
      (let new (old : Nat → Byte) (n : Nat) : Byte := if addr / 128 * 128 ≤ n ∧ n < addr / 128 * 128 + 128 then
        r.line.getD (n - addr / 128 * 128) 0 else old n
      (∀ n, memByte t.mem n = if pin = true then memByte s.mem n else new (memByte s.mem) n) ∧
      ∀ n, memByte t.pin n = if pin = true then new (memByte s.pin) n else memByte s.pin n)) ∧
  (∀ s m a idx args eoff u pin addr, MayPerform s m a → a.op = .atomp idx args eoff →
    s.atompAhead m a < (tget 0 (s.stack a.loc.stack).aquota a.loc.vf).toNat % 256 →
    s.lockedBy a.loc.stack a.loc.vf < s.lockQuota a.loc.stack a.loc.vf →
    (s.stack a.loc.stack).abacus.length < 8 →
    tget 0 (s.stack a.loc.stack).abUsed a.loc.vf < shareOf (s.ctx a.loc.vf) 40 128000 →
    s.homeAt a.loc .atomic false none a.hint a.cclass = (u, .at pin addr) →
    ((u.routine a.loc.stack a.loc.vf idx = none ∨ ∃ ws, u.routine a.loc.stack a.loc.vf idx = some ws ∧ routineValid ws = false) →
      ∃ t, exec (.atompRoutine m) s = .next t ∧ Answers t m a (.fault 0x27 0) ∧ t.mem = s.mem ∧ t.pin = s.pin))

/-- R319 to R330, R348, R356: the events of gang scheduling and of the scrub engine: PREEMPTION_REQUEST, SWITCH_TICK, PREPARE,
READY, COMMIT, SWITCH_DEADLINE, CANCEL, SCRUB_ONCHIP and SCRUB_FRAME. -/
def Obligations.SchedulingEvents : Prop :=
  (∀ s l, l ≤ 15 → s.leaderOfDie l = l → ∃ t, exec (.preemptionRequest l) s = .next t ∧ t.mem = s.mem ∧ t.pin = s.pin ∧
    (∀ j g, s.group? j = some g → g.k / 16 ∈ s.diesOf l → g.evicted = false → g.toHalt = true → Halts s t j g) ∧
    (t.gang l).phase = if (s.gang l).phase = .idle then .preempted else (s.gang l).phase) ∧
  (∀ s l c v, let g := s.gang l
    l ≤ 15 → s.leaderOfDie l = l → g.phase = .idle ∨ g.phase = .preempted → g.tickAt + 1000 * g.period ≤ s.ns →
    s.mh.partNext = [] → s.bindsWaiting l = [] → g.next = none →
    ((g.cur = some c → (s.ctx c).weight ≤ g.turn + 1) → (g.cur = some c ∨ g.cur = none) → (turns s l).Pairwise (· < ·) → v ∈ turns s l →
      g.cur ≠ some v →
      (if ∃ w ∈ turns s l, g.cur = some c ∧ c < w then g.cur = some c ∧ c < v ∧ ∀ w ∈ turns s l, c < w → v ≤ w
        else ∀ w ∈ turns s l, v ≤ w) →
      ∃ t, exec (.switchTick l) s = .next t ∧ GangBecomes s t l fun x =>
        { x with phase := .preparing, next := some v, prepAt := s.ns, prepared := [], ready := [], misses := 0, charge := (t.gang l).charge,
                 tickAt := x.tickAt + 1000 * x.period, period := x.tickp.toNat % 2 ^ 20 }) ∧
    (g.cur = some c → s.inRotation c = true → c ∈ s.vfsOf l → g.turn + 1 < (s.ctx c).weight →
      ∃ t, exec (.switchTick l) s = .next t ∧ (t.gang l).phase = .idle ∧ (t.gang l).cur = some c ∧
        (t.gang l).turn = g.turn + 1 ∧ (t.gang l).tickAt = g.tickAt + 1000 * g.period ∧
        ∀ gid y, OneHalted s c gid y → ∃ gt, t.group? gid = some gt ∧ gt.halted = false)) ∧
  (∀ s l d, (s.gang l).phase = .preparing → d ∉ (s.gang l).prepared → d ∈ s.diesOf l →
    ∃ t, exec (.prepare l d) s = .next t ∧ t.mem = s.mem ∧ t.pin = s.pin ∧ (t.gang l).prepared = (s.gang l).prepared ++ [d] ∧
      ∀ j g, s.group? j = some g → g.k / 16 = d → g.evicted = false → g.toHalt = true → Halts s t j g) ∧
  (∀ s l d, let g := s.gang l
    g.phase = .preparing → d ∈ g.prepared → d ∉ g.ready → s.running d = [] → s.dieRuns d = true → s.ns ≤ g.prepAt + 2000 →
    (∀ v, g.cur = some v → s.settledOn d v = true) →
    ((∀ v, g.cur = some v → ∀ p ∈ s.groups, p.2.vf = v → p.2.k / 16 = d → p.2.halted = false) →
      ∃ t, exec (.ready l d) s = .next t ∧ GangBecomes s t l fun x => { x with ready := x.ready ++ [d] }) ∧
    (∀ v, g.cur = some v → s.saveFits v = true → s.saveOpen v = true → ∃ t, exec (.ready l d) s = .next t ∧ (t.gang l).ready = g.ready ++ [d] ∧
      t.groups = s.groups)) ∧
  (∀ s l, let g := s.gang l
    (g.phase = .preparing ∧ (∀ d ∈ s.diesOf l, s.takesPart d = true → d ∈ g.ready)) ∨ g.phase = .committing →
    ∃ t, exec (.commit l) s = .next t ∧ (t.gang l).cur = g.next ∧ (t.gang l).next = none ∧ (t.gang l).phase = .idle ∧
      (t.gang l).turn = 0 ∧ ∀ v gid y, g.next = some v → OneHalted s v gid y → ∃ gt, t.group? gid = some gt ∧ gt.halted = false) ∧
  (∀ s l d, let g := s.gang l
    g.phase = .preparing → g.prepAt + 2000 < s.ns → d ∈ s.diesOf l → s.takesPart d = true → d ∉ g.ready →
    (g.misses < 2 → ∃ t, exec (.switchDeadline l) s = .next t ∧
      GangBecomes s t l fun x => { x with phase := .cancelling, misses := x.misses + 1 }) ∧
    (2 ≤ g.misses → d ≤ 15 → ∃ t, exec (.switchDeadline l) s = .next t ∧ (t.gang l).phase = .committing ∧ (t.die d).failed = true ∧
      ∀ v, g.cur = some v → (t.ctx v).sticky.getLsbD 3 = true)) ∧
  (∀ s l, let g := s.gang l
    g.phase = .cancelling → ∃ t, exec (.cancel l) s = .next t ∧ (t.gang l).phase = .idle ∧ (t.gang l).cur = g.cur ∧
      ∀ v, g.cur = some v → tget 0 (t.gang l).charge v = tget 0 g.charge v + (s.ns - g.prepAt) ∧
        (t.ctx v).sticky.getLsbD 1 = true ∧ ∀ gid y, OneHalted s v gid y → ∃ gt, t.group? gid = some gt ∧ gt.halted = false) ∧
  (∀ s st j rest, s.mh.boot = .done → (s.stack st).selfref = false → (s.stack st).jobs = j :: rest →
    (∀ gid more, j.onchip = gid :: more → ∃ t, exec (.scrubOnchip st) s = .next t ∧ t.group? gid = none ∧
      (more ≠ [] → (t.stack st).jobs = { j with onchip := more } :: rest)) ∧
    (∀ w more, j.onchip = [] → j.ways = w :: more → ∃ t, exec (.scrubOnchip st) s = .next t ∧ t.mem = s.mem ∧
      (∀ a, memByte t.pin a = if st * 2 ^ 36 + w * 2 ^ 21 ≤ a ∧ a < st * 2 ^ 36 + (w + 1) * 2 ^ 21 then 0 else memByte s.pin a) ∧
      (more ≠ [] → (t.stack st).jobs = { j with ways := more } :: rest)) ∧
    (∀ f more, st ≤ 15 → j.onchip = [] → j.ways = [] → j.frames = f :: more → ∃ t, exec (.scrubFrame st) s = .next t ∧
      FrameCleared s t st f ∧
      (more ≠ [] → (t.stack st).jobs = { j with frames := more, done := j.done + 1 } :: rest) ∧
      (more = [] → (t.stack st).jobs = rest ∧ (t.stack st).lastDone = j.done + 1))) ∧
  (∀ s st f, st ≤ 15 → s.mh.boot = .done → (s.stack st).selfref = false → (s.stack st).jobs = [] →
    (s.stack st).frames.Pairwise (fun a b => a.1 < b.1) → (tget Frame.reset (s.stack st).frames f).st = .quar → f < 786432 →
    (∀ j, j < f → (tget Frame.reset (s.stack st).frames j).st ≠ .quar) →
    ∃ t, exec (.scrubFrame st) s = .next t ∧ FrameCleared s t st f)

/-- R172, R176, R259, R305, R319, R338 to R342, R345, R348, R353 to R355: the steward's security commands: RDREG, WRREG, KEYGEN,
ZEROISE, WINDOW, ASSIGN, SCRUB, TEARDOWN, INVBUF, INVTLB, INVRTN, INSTALL, PREEMPT, and SECURITY_STATUS. -/
def Obligations.SecurityCommands : Prop :=
  (∀ s k op c e, Oldest s k op c → (op, e) ∈ commandEvents k → (65536 ≤ c.w3 ∨ (16 < c.unit ∧ c.unit ≠ 255)) → Refused e s k 3) ∧
  (∀ s k c, Commands s k 0x01 c → (regOf c.w1 = none → Refused (.rdreg k) s k 3) ∧
    (∀ r, regOf c.w1 = some r → (r.units c.unit = none ∨ c.unit = 255 ∨ c.w2 % 8 ≠ 0 ∨
        s.checkPtr c.sub c.w2 (8 * ((r.width + 63) / 64)) 8 .w ≠ none) → Refused (.rdreg k) s k 3) ∧
    (∀ r us u, regOf c.w1 = some r → r.units c.unit = some us → c.unit ≠ 255 → c.w2 % 8 = 0 →
      s.checkPtr c.sub c.w2 (8 * ((r.width + 63) / 64)) 8 .w = none →
      s.putWords 32 c.sub c.w2 ((List.range ((r.width + 63) / 64)).map fun i => s.readReg r c.unit / 2 ^ (64 * i) % 2 ^ 64) = some u →
      Carried (.rdreg k) s k 0 (· = u))) ∧
  (∀ s k c, Commands s k 0x02 c → (regOf c.w1 = none → Refused (.wrreg k) s k 3) ∧
    (∀ r, regOf c.w1 = some r → r.units c.unit = none → Refused (.wrreg k) s k 3) ∧
    (∀ n us, regOf c.w1 = some (.vfbind n) → c.unit = 16 → us = [16] →
      (Locked s n → Refused (.wrreg k) s k 1) ∧ (¬ Locked s n → (s.ctx n).scrubbing = true → Refused (.wrreg k) s k 2) ∧
      (¬ Locked s n → (s.ctx n).scrubbing = false → ∀ t, exec (.vfbindWrite n (BitVec.ofNat 128 c.w2)) s = .next t →
        Carried (.wrreg k) s k 0 (· = t))) ∧
    (∀ r us, regOf c.w1 = some r → (∀ n, r ≠ .vfbind n) → r.units c.unit = some us →
      Carried (.wrreg k) s k 0 fun u => u = us.foldl (fun s t => s.writeReg r t c.w2) s)) ∧
  (∀ s k c us, Commands s k 0x10 c → (NoUnits c.unit ∨ c.slot = 0 ∨ 192 < c.vf → Refused (.keygen k) s k 3) ∧
    (Units c.unit us → c.slot ≠ 0 → c.vf ≤ 192 →
      let held := ∃ t ∈ us, (slotAt s t c.slot).st ≠ .free ∧ Locked s (slotAt s t c.slot).vf
      (held → Refused (.keygen k) s k 1) ∧
      (¬ held → ((s.ctx c.vf).scrubbing = true ∨ ∃ t ∈ us, (slotAt s t c.slot).st ≠ .free) → Refused (.keygen k) s k 2) ∧
      ((∀ t ∈ us, (slotAt s t c.slot).st = .free) → (s.ctx c.vf).scrubbing = false →
        Carried (.keygen k) s k 0 fun u => u = { s with stks := u.stks, mh := { s.mh with nextKey := s.mh.nextKey + 2 * us.length } } ∧
          (∀ t, u.stack t = { s.stack t with slots := (u.stack t).slots }) ∧
          (∀ t n, ¬ (t ∈ us ∧ n = c.slot) → slotAt u t n = slotAt s t n) ∧
          ∀ (i t : Nat), us[i]? = some t → slotAt u t c.slot = ⟨((slotAt s t c.slot).gen + 1) % 2 ^ 24, c.vf, .active,
            Config.drbg (s.mh.nextKey + 2 * i), Config.drbg (s.mh.nextKey + 2 * i + 1)⟩))) ∧
  (∀ s k c us, Commands s k 0x11 c → (NoUnits c.unit ∨ c.slot = 0 → Refused (.zeroise k) s k 3) ∧
    (Units c.unit us → c.slot ≠ 0 →
      let held := ∃ t ∈ us, (slotAt s t c.slot).st ≠ .free ∧ Locked s (slotAt s t c.slot).vf
      (held → Refused (.zeroise k) s k 1) ∧
      (¬ held → (∀ t ∈ us, (slotAt s t c.slot).st ≠ .window) →
        ((∃ t ∈ us, s.slotBusy t c.slot = true) → exec (.zeroise k) s = .next s) ∧
        ((∀ t ∈ us, s.slotBusy t c.slot = false) → Carried (.zeroise k) s k 0 fun u => u = { s with stks := u.stks } ∧
          (∀ t, u.stack t = { s.stack t with slots := (u.stack t).slots }) ∧
          (∀ t n, slotAt u t n = if t ∈ us ∧ n = c.slot then ⟨(slotAt s t n).gen, 0, .free, 0, 0⟩ else slotAt s t n))))) ∧
  (∀ s k c, Commands s k 0x12 c → (15 < c.arg ∨ c.slot = 0 → Refused (.window k) s k 3) ∧
    (c.arg ≤ 15 → c.slot ≠ 0 →
      ((∀ p q, ¬ BothConsent s c.arg p q) → (∀ p ∈ s.ctxs, s.ctx p.1 = p.2) → Refused (.window k) s k 2) ∧
      (∀ p q, BothConsent s c.arg p q → (∀ p' q', BothConsent s c.arg p' q' → p' = p ∧ q' = q) → (∀ p ∈ s.ctxs, s.ctx p.1 = p.2) →
        (∀ w ∈ s.mh.windows, w.1 ≠ c.arg) →
        ((∃ t, t < 16 ∧ (slotAt s t c.slot).st ≠ .free) → Refused (.window k) s k 2) ∧
        ((∀ t, t < 16 → (slotAt s t c.slot).st = .free) → Carried (.window k) s k 0 fun u =>
          u.mh.windows = s.mh.windows ++ [(c.arg, c.slot, p, q, (s.ctx p).leader)] ∧ ∀ t, t < 16 →
            slotAt u t c.slot = ⟨((slotAt s t c.slot).gen + 1) % 2 ^ 24, p, .window, Config.drbg (s.mh.nextKey + 2 * t),
              Config.drbg (s.mh.nextKey + 2 * t + 1)⟩ ∧
            (u.stack t).wins = (s.stack t).wins ++ [⟨c.arg, c.slot, (s.ctx p).leader, (s.ctx q).leader⟩])))) ∧
  (∀ s k c us, Commands s k 0x20 c → (NoUnits c.unit ∨ c.slot = 0 ∨ 786432 < c.w1 + c.w2 → Refused (.assign k) s k 3) ∧
    (Units c.unit us → c.slot ≠ 0 → c.w1 + c.w2 ≤ 786432 →
      ((∃ t ∈ us, ∃ f, c.w1 ≤ f ∧ f < c.w1 + c.w2 ∧ (frameAt s t f).st ≠ .free) → Refused (.assign k) s k 2) ∧
      ((∀ t ∈ us, ∀ f, c.w1 ≤ f → f < c.w1 + c.w2 → (frameAt s t f).st = .free) → Carried (.assign k) s k 0 fun u =>
        StacksBecome s u (fun t x => { x with frames := (u.stack t).frames }) ∧
        ∀ t f, frameAt u t f = if t ∈ us ∧ c.w1 ≤ f ∧ f < c.w1 + c.w2 then ⟨.assigned, c.slot, (frameAt s t f).init⟩ else frameAt s t f))) ∧
  (∀ s k c us, Commands s k 0x21 c → (NoUnits c.unit ∨ 192 < c.vf ∨ 786432 < c.w1 + c.w2 → Refused (.scrub k) s k 3) ∧
    (Units c.unit us → c.vf ≤ 192 → c.w1 + c.w2 ≤ 786432 → Carried (.scrub k) s k 0 fun u =>
      StacksBecome s u (fun t x => { x with frames := (u.stack t).frames, jobs := (u.stack t).jobs }) ∧
      (∀ t f, (frameAt u t f).st = if t ∈ us ∧ c.w1 ≤ f ∧ f < c.w1 + c.w2 ∧ ((frameAt s t f).st = .free ∨ (frameAt s t f).st = .assigned)
        then .scrub else (frameAt s t f).st) ∧
      ∀ t ∈ us, (∃ f, c.w1 ≤ f ∧ f < c.w1 + c.w2 ∧ ((frameAt s t f).st = .free ∨ (frameAt s t f).st = .assigned)) →
        ∃ fs, (u.stack t).jobs = (s.stack t).jobs ++ [⟨c.vf, [], [], fs, 0⟩] ∧ fs.Pairwise (· < ·) ∧
          ∀ f, f ∈ fs ↔ c.w1 ≤ f ∧ f < c.w1 + c.w2 ∧ ((frameAt s t f).st = .free ∨ (frameAt s t f).st = .assigned))) ∧
  (∀ s k c, Commands s k 0x22 c → (192 < c.vf → Refused (.teardown k) s k 3) ∧
    (c.vf ≤ 192 → Idle s c.vf → Unshadowed s → Carried (.teardown k) s k 0 (TornDown s c.vf))) ∧
  (∀ s k c, Commands s k 0x30 c → (192 < c.vf ∨ 65536 < c.w1 + c.w2 → Refused (.invbuf k) s k 3) ∧
    (c.vf ≤ 192 → c.w1 + c.w2 ≤ 65536 → Carried (.invbuf k) s k 0 fun u => u = { s with cores := u.cores, ctxs := u.ctxs } ∧
      (∀ j, u.core j = { s.core j with bufs := (s.core j).bufs.filter fun b => !(b.1 == c.vf && decide (c.w1 ≤ b.2.1 ∧ b.2.1 < c.w1 + c.w2)) }) ∧
      (∀ v, v ≠ c.vf → u.ctx v = s.ctx v) ∧ u.ctx c.vf = { s.ctx c.vf with ringStopped := (u.ctx c.vf).ringStopped } ∧
      ∀ i, (u.ctx c.vf).ringStopped = some i ↔ (s.ctx c.vf).ringStopped = some i ∧ ¬ (c.w1 ≤ i ∧ i < c.w1 + c.w2))) ∧
  (∀ s k c, Commands s k 0x31 c → (192 < c.vf ∨ 2 ^ 44 < c.w1 + c.w2 → Refused (.invtlb k) s k 3) ∧
    (c.vf ≤ 192 → c.w1 + c.w2 ≤ 2 ^ 44 → (∀ p ∈ s.cards, ¬ (p.2.vf = c.vf ∧ p.2.q = 0)) → Carried (.invtlb k) s k 0 fun u =>
      StacksBecome s u fun _ x => { x with tlb := x.tlb.filter fun e =>
        !(e.vf == c.vf && decide (c.w1 < e.page + e.size) && decide (e.page < c.w1 + c.w2)) })) ∧
  (∀ s k c, Commands s k 0x32 c → (192 < c.vf → Refused (.invrtn k) s k 3) ∧
    (c.vf ≤ 192 → Carried (.invrtn k) s k 0 fun u =>
      StacksBecome s u fun _ x => { x with routines := x.routines.filter fun r => r.1 / 64 != c.vf })) ∧
  (∀ s k c, Commands s k 0x40 c → (192 < c.vf → Refused (.install k) s k 3) ∧ (c.vf ≤ 192 →
    (Locked s c.vf → Refused (.install k) s k 1) ∧ (¬ Locked s c.vf → (s.ctx c.vf).scrubbing = true → Refused (.install k) s k 2) ∧
    (∀ w bs, ¬ Locked s c.vf → (s.ctx c.vf).scrubbing = false → s.halyardRead c.sub (cmdKey k) c.w1 128 = .ok w bs →
      let d := BitVec.ofNat 1024 (leNat bs)
      (legalDescriptor d = true → d.toNat % 256 = c.vf → Carried (.install k) s k 0 fun u => CtxBecomes (w.forget (cmdKey k)) u c.vf fun x =>
        { x with desc := some d, sticky := 0, faultCount := 0, ring := none, ringStopped := none }) ∧
      (legalDescriptor d = false ∨ d.toNat % 256 ≠ c.vf → Carried (.install k) s k 3 fun u => (u.ctx c.vf).desc = none)))) ∧
  (∀ s k c, Commands s k 0x41 c → (15 < c.unit ∨ s.leaderOfDie c.unit ≠ c.unit → Refused (.preempt k) s k 3) ∧
    (c.unit ≤ 15 → s.leaderOfDie c.unit = c.unit → (∀ d ∈ s.diesOf c.unit, s.running d = []) → (s.gang c.unit).cur = none →
      Carried (.preempt k) s k 0 fun u => GangBecomes s u c.unit fun g => { g with phase := if g.phase = .idle then .preempted else g.phase }) ∧
    (c.unit ≤ 15 → s.leaderOfDie c.unit = c.unit → ∃ t, exec (.preempt k) s = .next t ∧
      ∀ j g, s.group? j = some g → g.k / 16 ∈ s.diesOf c.unit → g.evicted = false → g.toHalt = true → Halts s t j g)) ∧
  (∀ s k rest sub w0 w1 w2 w3 st, (s.core k).cmds = [sub, w0, w1, w2, w3] :: rest → (s.core k).q8readers = [] →
    ((s.core k).cmdDone = some st ∧ w0.toNat % 256 ∈ [0x01, 0x02, 0x10, 0x11, 0x12, 0x20, 0x21, 0x22, 0x30, 0x31, 0x32, 0x40, 0x41]) ∨
      (st = 3 ∧ w0.toNat % 256 ∉ [0x01, 0x02, 0x10, 0x11, 0x12, 0x20, 0x21, 0x22, 0x30, 0x31, 0x32, 0x40, 0x41]) →
    ∃ t, exec (.securityStatus k) s = .next t ∧ t = { s with cores := t.cores, agents := t.agents } ∧
      t.core k = { s.core k with cmds := rest, cmdDone := none,
                                 statuses := (s.core k).statuses ++ [BitVec.ofNat 32 (w3.toNat % 2 ^ 16 * 2 ^ 16 + st)] } ∧
      (t.agent (k / 16)).vec = vMerge (s.agent (k / 16)).vec (s.agent 32).vec)

/-- R335 to R338, R345, R347, R360 to R362: the messages of sessions and links: the SPDM requests, CONSENT, CONSENT_WITHDRAWAL,
IDE_KEY_PROGRAMMING, TDISP_REQUEST, LINK_SESSION_REQUEST, LINK_KEY_ROTATION, ROTATION_CONFIRMATION, OLD_GENERATION_NOTICE,
LINK_TRAINED and HEXAVO_FRAME. The phases and codes of SPDM are the model's (log 28). -/
def Obligations.SessionEvents : Prop :=
  (∀ s vf, (s.mh.boot = .failed → Rejects (.getVersion vf) s vf) ∧
    (s.mh.boot = .done → vf ≤ 192 → Responds (.getVersion vf) s vf .version 0x04 (· = [0x13]))) ∧
  (∀ s vf, (InPhase s vf [.version] → Responds (.getCapabilities vf) s vf .capabilities 0x61 (·.length = 16)) ∧
    (InPhase s vf [.capabilities] → Responds (.negotiateAlgorithms vf) s vf .negotiated 0x63 Algorithms) ∧
    (InPhase s vf agreed → Responds (.getDigests vf) s vf (s.ctx vf).spdm 0x01 (· = sha384 s.chain) ∧
      Responds (.getCertificate vf) s vf (s.ctx vf).spdm 0x02 (· = s.chain) ∧
      (∀ nonce, Responds (.challenge vf nonce) s vf (s.ctx vf).spdm 0x03 fun bs => bs.take 32 = leBytes 32 nonce) ∧
      (∀ idx, 1 ≤ idx → idx ≤ 5 → Responds (.getMeasurements vf idx) s vf (s.ctx vf).spdm 0x60 fun bs => bs.length = 48 ∧
        (idx = 5 → bs = sha384 (leBytes 8 s.mh.partcfg.toNat ++ leBytes 16 (s.ctx vf).vfbind.toNat))) ∧
      ∀ idx, idx = 0 ∨ 5 < idx → Rejects (.getMeasurements vf idx) s vf) ∧
    (InPhase s vf [.negotiated] → Responds (.keyExchange vf) s vf .keyExchanged 0x64 (·.length = 96)) ∧
    (InPhase s vf [.keyExchanged] → Responds (.finish vf) s vf .session 0x65 (· = [])) ∧
    (InPhase s vf [.session] → Responds (.keyUpdate vf) s vf .session 0x69 (· = []) ∧
      Responds (.endSession vf) s vf .negotiated 0x6C (· = [])) ∧
    (InPhase s vf [.start, .version, .capabilities, .negotiated, .keyExchanged] → Rejects (.keyUpdate vf) s vf ∧
      Rejects (.endSession vf) s vf ∧ ∀ w p n r, Rejects (.consent vf w p n r) s vf)) ∧
  (∀ s vf win peer len rights, InPhase s vf [.session] →
    (win ≤ 15 → peer ≤ 192 → peer ≠ vf → ∃ t, exec (.consent vf win peer len rights) s = .next t ∧ CtxBecomes s t vf fun c =>
      { c with consents := (c.consents.filter fun x => x.win != win) ++ [⟨win, peer, len, rights⟩] }) ∧
    (∃ t, exec (.consentWithdrawal vf win) s = .next t ∧
      (∀ j, t.ctx j = if j = vf then { s.ctx vf with consents := (s.ctx vf).consents.filter fun x => x.win != win } else s.ctx j) ∧
      (∀ w, w ∈ t.mh.windows ↔ w ∈ s.mh.windows ∧ ¬ (w.1 = win ∧ (w.2.2.1 = vf ∨ w.2.2.2.1 = vf))) ∧
      ∀ w ∈ s.mh.windows, w.1 = win → (w.2.2.1 = vf ∨ w.2.2.2.1 = vf) →
        (∀ st, st < 16 → ∀ x ∈ (t.stack st).wins, x.slot ≠ w.2.1) ∧
        ∀ p ∈ t.cores, ∀ b ∈ p.2.bufs, ¬ ((b.1 = w.2.2.1 ∨ b.1 = w.2.2.2.1) ∧ entKey b.2.2 = w.2.1))) ∧
  (∀ s vf sel stream key, InPhase s vf [.session] →
    let rest := s.mh.ide.filter fun x => !(x.sel == sel && x.id == stream)
    (sel = false ∨ (rest.filter (·.sel)).length < 8 →
      exec (.ideKeyProgramming vf ⟨sel, stream⟩ key) s = .next { s with mh := { s.mh with ide := rest ++ [⟨sel, stream, vf, key⟩] } }) ∧
    (sel = true → 8 ≤ (rest.filter (·.sel)).length → Rejects (.ideKeyProgramming vf ⟨sel, stream⟩ key) s vf)) ∧
  (∀ s vf, s.mh.boot = .done → vf ≤ 192 → let d := (s.ctx vf).tdi
    let goes (r : TdiReq) (x : Tdi) : Prop := ∃ t, exec (.tdispRequest vf r) s = .next t ∧ (t.ctx vf) = { s.ctx vf with tdi := x } ∧
      t = { s with ctxs := t.ctxs, out := s.out ++ [.tdisp vf true] }
    (d = .unlocked → goes .lock .locked) ∧ (d = .locked → goes .start .run) ∧ (d ≠ .error → goes .stop .unlocked) ∧
    (d = .locked ∨ d = .run → ∃ t, exec (.tdispRequest vf .breakLock) s = .next t ∧
      CtxBecomes s t vf fun c => { c with tdi := .error, flr := true }) ∧
    (d = .error → ∀ r, r ≠ .breakLock → exec (.tdispRequest vf r) s = .next { s with out := s.out ++ [.tdisp vf false] })) ∧
  (∀ s vf st p, InPhase s vf [.session] → st ≤ 15 → p ≤ 1 → vf ≠ 0 →
    ((s.stack st).fwctl.getLsbD (9 + p) = true → ∃ t, exec (.linkSessionRequest vf st p) s = .next t ∧
      t = { s with stks := t.stks, mh := { s.mh with nextKey := s.mh.nextKey + 1 } } ∧ PortBecomes s t st p fun x =>
        { HxPort.reset with vf := vf, linkUp := x.linkUp, enable := true, rxg0 := true, key0 := s.mh.nextKey }) ∧
    ((s.stack st).fwctl.getLsbD (9 + p) = false → Rejects (.linkSessionRequest vf st p) s vf)) ∧
  (∀ s st p, st ≤ 15 → p ≤ 1 → let x := s.hxPort st p
    (x.enable = true → x.rotating = false → ∃ t, exec (.linkKeyRotation st p) s = .next t ∧
      t = { s with stks := t.stks, mh := { s.mh with nextKey := s.mh.nextKey + 1 } } ∧ PortBecomes s t st p fun x =>
        let y := { x with rotating := true, confirmed := false, notice := none }
        if x.txgen then { y with rxg0 := true, key0 := s.mh.nextKey, recv0 := 0, sent0 := 0 }
        else { y with rxg1 := true, key1 := s.mh.nextKey, recv1 := 0, sent1 := 0 }) ∧
    (x.rotating = true → x.confirmed = false → ∃ t, exec (.rotationConfirmation st p) s = .next t ∧
      t = { s with stks := t.stks, out := s.out ++ [.hxNotice st p (if x.txgen then x.sent1 else x.sent0)] } ∧
      PortBecomes s t st p fun x => { x with txgen := !x.txgen, confirmed := true }) ∧
    (∀ n, x.rotating = true → ∃ t, exec (.oldGenerationNotice st p n) s = .next t ∧ t = { s with stks := t.stks } ∧
      (Drained x n → PortBecomes s t st p oldKeyGone) ∧
      (¬ Drained x n → PortBecomes s t st p fun x => { x with notice := some n })) ∧
    (∀ up, ∃ t, exec (.linkTrained st p up) s = .next t ∧ t = { s with stks := t.stks } ∧
      PortBecomes s t st p fun x => { x with linkUp := up })) ∧
  (∀ (s : State) st p (kg tagOk : Bool) ops, st ≤ 15 → p ≤ 1 → let x := s.hxPort st p
    let counted (x : HxPort) : HxPort := if kg then { x with recv1 := x.recv1 + 1 } else { x with recv0 := x.recv0 + 1 }
    let lets := (s.stack st).fwctl.getLsbD (9 + p)
    (x.enable = false ∨ x.linkUp = false ∨ lets = false → exec (.hexavoFrame st p kg tagOk ops) s = .next s) ∧
    (x.enable = true → x.linkUp = true → lets = true → x.notice = none →
      ((tagOk = false ∨ (if kg then x.rxg1 else x.rxg0) = false) → ∃ t, exec (.hexavoFrame st p kg tagOk ops) s = .next t ∧
        t = { s with stks := t.stks } ∧ PortBecomes s t st p counted) ∧
      (∀ tag a n bs, tagOk = true → (if kg then x.rxg1 else x.rxg0) = true → ops = [.reply tag true bs] → tfind s.accs tag = some a →
        a.loc.stack = st → a.ext = p + 2 → a.performed = false → a.op = .load n → bs.length = n →
        ∃ t, exec (.hexavoFrame st p kg tagOk ops) s = .next t ∧ PortBecomes s t st p counted ∧
          ∃ a', tfind t.accs tag = some a' ∧ a' = { a with performed := true, reply := some (.data bs), legs := a'.legs } ∧
            ∃ r, a'.legs = [.back r]) ∧
      (∀ ptr tag n e, tagOk = true → (if kg then x.rxg1 else x.rxg0) = true → ops = [.read ptr n tag] → x.vf ≠ 0 →
        e = s.tableEntry x.vf (ptr.toNat / 2 ^ 48) → outside ptr.toNat = false →
        (s.checkPtr x.vf ptr.toNat n 0 .r = none → 0 < n → ptr.toNat % 128 + n ≤ 128 →
          ∃ t id a, exec (.hexavoFrame st p kg tagOk ops) s = .next t ∧ tfind t.accs id = some a ∧ a.op = .load n ∧ a.agent = 16 + st ∧
            a.loc = s.locOf e ptr.toNat ∧ a.owner = .remote st p tag ∧ a.cls = .ox ∧ a.scope = .sys) ∧
        (s.checkPtr x.vf ptr.toNat n 0 .r ≠ none → ∃ t, exec (.hexavoFrame st p kg tagOk ops) s = .next t ∧
          .hexavoReply st p tag false [] ∈ t.out))))

/-- R311, R348 to R351, R355, R358, R372, R373: the events of the host and of the sensors: HOST_WRITE, HOST_READ, HOST_FETCH_ADD,
FUNCTION_LEVEL_RESET, COLD_RESET, WARM_RESET, BRING_UP, ALARM_EVENT, THERMAL_TRIP and REMAP_TABLE_ERROR. Where BAR2 and the
registers of PF BAR0 stand is the model's (log 29). -/
def Obligations.HostEvents : Prop :=
  (∀ s vf off data, s.mh.boot = .done → 1 ≤ vf → vf ≤ 192 → 0 < data.length → off + data.length ≤ 2 ^ 20 →
    (s.checkPtr vf off data.length 0 .w ≠ none →
      exec (.hostWrite vf off data) s = .next { s with out := s.out ++ [.unsupported vf] }) ∧
    (s.checkPtr vf off data.length 0 .w = none → off % 128 + data.length ≤ 128 →
      ∃ t, exec (.hostWrite vf off data) s = .next t ∧ HostAccess s t vf off (.store data) .host ∧ t.mem = s.mem)) ∧
  (∀ s vf off len, s.mh.boot = .done → 1 ≤ vf → vf ≤ 192 → 0 < len → off + len ≤ 2 ^ 20 →
    (s.checkPtr vf off len 0 .r ≠ none → exec (.hostRead vf off len) s = .next { s with out := s.out ++ [.unsupported vf] }) ∧
    (s.checkPtr vf off len 0 .r = none → off % 128 + len ≤ 128 →
      ∃ t, exec (.hostRead vf off len) s = .next t ∧ HostAccess s t vf off (.load len) (.hostRead s.nextId) ∧ t.mem = s.mem)) ∧
  (∀ s vf i v, s.mh.boot = .done → 1 ≤ vf → vf ≤ 192 → i < 32 → v < 2 ^ 32 →
    (∃ t, exec (.hostWrite vf (2 ^ 20 + 4 * i) (leBytes 4 v)) s = .next t ∧ CtxBecomes s t vf (fun c => { c with msixTable := (t.ctx vf).msixTable }) ∧
      ∀ j, tget 0 (t.ctx vf).msixTable j = if j = i then v else tget 0 (s.ctx vf).msixTable j) ∧
    exec (.hostRead vf (2 ^ 20 + 4 * i) 4) s =
      .next { s with out := s.out ++ [.hostData vf (2 ^ 20 + 4 * i) (leBytes 4 (tget 0 (s.ctx vf).msixTable i))] }) ∧
  (∀ s d v, s.mh.boot = .done → d ≤ 15 → v < 2 ^ 32 →
    exec (.hostWrite 0 (0x100 + 4 * d) (leBytes 4 v)) s = .next { s with agenda := (match v % 16 with
      | 0 => [.event (.dieOff d)]
      | 1 => [.event (.dieHold d)]
      | 2 => [.event (.l2 d)]
      | 3 => [.event (.l1 d)]
      | 4 => [.event (.l0 d)]
      | _ => []) ++ s.agenda } ∧
    exec (.hostWrite 0 (0x200 + 4 * d) (leBytes 4 v)) s =
      .next { s with agenda := .event (if v % 2 = 1 then .selfref d else .active d) :: s.agenda } ∧
    exec (.hostWrite 0 0x300 (leBytes 4 v)) s = .next { s with agenda := .event (.pwrcapWrite (BitVec.ofNat 32 v)) :: s.agenda } ∧
    exec (.hostRead 0 0x300 4) s = .next { s with out := s.out ++ [.hostData 0 0x300 (leBytes 4 s.mh.pwrcap)] }) ∧
  (∀ s vf off size inc, s.mh.boot = .done → 1 ≤ vf → vf ≤ 192 → size = 4 ∨ size = 8 → off + size ≤ 2 ^ 20 →
    (s.checkPtr vf off size size .a ≠ none → exec (.hostFetchAdd vf off size inc) s = .next { s with out := s.out ++ [.unsupported vf] }) ∧
    (s.checkPtr vf off size size .a = none → ∃ t id a l, exec (.hostFetchAdd vf off size inc) s = .next t ∧ s.nextAcc ≤ id ∧
      l = s.locOf (s.tableEntry vf 0) off ∧ tfind t.accs id = some a ∧ a.agent = 32 ∧ a.loc = { l with sva := l.sva / 128 * 128 } ∧
      a.op = .atomic (.atom 0 (size == 8) false) [⟨0, l.sva % 128, inc, 0⟩] ∧ a.owner = .hostRead s.nextId ∧ t.mem = s.mem)) ∧
  (∀ s vf off data len size inc, s.mh.boot = .pending ∨ s.mh.boot = .warm →
    exec (.hostWrite vf off data) s = .next { s with out := s.out ++ [.retry] } ∧
    exec (.hostRead vf off len) s = .next { s with out := s.out ++ [.retry] } ∧
    exec (.hostFetchAdd vf off size inc) s = .next { s with out := s.out ++ [.retry] }) ∧
  (∀ s, exec (.functionLevelReset 0) s = .next { s with agenda := .event .warmReset :: s.agenda }) ∧
  (∀ s vf, 1 ≤ vf → vf ≤ 192 → Idle s vf → Unshadowed s → ∃ t, exec (.functionLevelReset vf) s = .next t ∧ TornDown s vf t ∧
    (t.ctx vf).flr = false) ∧
  (∀ s, exec .coldReset s = .next (coldState s)) ∧
  (∀ s, Unshadowed s → ∃ t, exec .warmReset s = .next t ∧
    t.mem = s.mem ∧ t.pin = s.pin ∧ t.mh.boot = .warm ∧ t.mh.partcfg = 0x924924924924 ∧ t.mh.pwrcap = s.mh.pwrcap ∧
    t.mh.time = s.mh.time ∧ t.accs = [] ∧ t.grids = [] ∧ t.items = [] ∧ t.colls = [] ∧ t.cards = [] ∧
    (∀ k, t.core k = { Core.empty with fenced := (s.core k).fenced }) ∧
    (∀ d, (t.die d).level = (s.die d).level ∧ (t.die d).target = (s.die d).target ∧ (t.die d).trip = (s.die d).trip ∧
      (t.die d).lines = []) ∧
    (∀ v, (t.ctx v).desc = none ∧ (t.ctx v).bound = false) ∧
    (∀ j g, s.group? j = some g → if g.evicted = true then t.group? j = none else ∃ gt, t.group? j = some gt ∧ gt.dead = true) ∧
    (∀ st n, st < 16 → n ≠ 0 → slotAt t st n = if (slotAt s st n).st ≠ .free ∧ Guarded s (slotAt s st n).vf then
      ⟨(slotAt s st n).gen, 0, .free, 0, 0⟩ else slotAt s st n) ∧
    (∀ st f, st < 16 → (frameAt s st f).st = .assigned → (frameAt s st f).key ≠ 0 → (slotAt s st (frameAt s st f).key).st ≠ .free →
      Guarded s (slotAt s st (frameAt s st f).key).vf → (frameAt t st f).st = .scrub) ∧
    (∀ st f, st < 16 → (frameAt s st f).st ≠ .assigned → frameAt t st f = frameAt s st f) ∧
    ∀ st, (t.stack st).selfref = (s.stack st).selfref ∧ (t.stack st).health = (s.stack st).health) ∧
  (∀ s, s.mh.boot = .pending ∨ s.mh.boot = .warm →
    (∃ t, exec (.bringUp false) s = .next t ∧ t = { s with mh := { s.mh with boot := .failed } }) ∧
    ∃ t, exec (.bringUp true) s = .next t ∧ t = { s with mh := t.mh, stks := t.stks, dies := t.dies } ∧ t.mh.boot = .done ∧
      (∀ st, st < 16 → (t.stack st).fwctl = fwctlFor s.mh.partcfg st) ∧
      (s.mh.boot = .pending → t.mh.identity = some (Config.pufSeed, Config.identityKey Config.pufSeed) ∧
        (∀ st, st < 16 → slotAt t st 0 = { slotAt s st 0 with data := Config.drbg (s.mh.nextKey + 2 * st),
                                                              mac := Config.drbg (s.mh.nextKey + 2 * st + 1) }) ∧
        400 ≤ t.mh.pwrcap ∧ t.mh.pwrcap ≤ 2500 ∧ t.mh.time = TimeRegs.reset ∧
        ∀ d, d < 16 → (t.die d).time = TimeRegs.reset ∧ (t.stack d).time = TimeRegs.reset) ∧
      (s.mh.boot = .warm → t.mh.pwrcap = s.mh.pwrcap ∧ t.mh.identity = s.mh.identity ∧ t.dies = s.dies)) ∧
  (∀ s n, n ≤ 3 → let act := s.mh.alarmpol.toNat / 2 ^ (2 * n) % 4
    ∃ t, exec (.alarmEvent n) s = .next t ∧ (∀ j, t.mh.alarmpol.getLsbD j = (s.mh.alarmpol.getLsbD j || decide (j = 8 + n))) ∧
      (t.ctx 0).sticky.getLsbD 2 = true ∧ (t.ctx 0).faultCount = (s.ctx 0).faultCount + 1 ∧
      ((s.ctx 0).desc = none → .msix 0 (s.ctx 0).msix ∈ t.out) ∧
      (act ≠ 0 → t.mh.alarmHalt = true ∧ (legalLayout s.mh.partcfg = true → ∀ j g, s.group? j = some g → g.k < 256 → g.evicted = false → g.toHalt = true → Halts s t j g)) ∧
      (2 ≤ act → Unshadowed s → ∀ st, st < 16 → (∀ m, m ≠ 0 → (slotAt t st m).st = .free ∧ (slotAt t st m).data = 0 ∧ (slotAt t st m).mac = 0 ∧
          (slotAt t st m).gen = (slotAt s st m).gen) ∧ slotAt t st 0 = slotAt s st 0 ∧
        ∀ f, (frameAt t st f).st = if (frameAt s st f).st = .assigned then .scrub else (frameAt s st f).st)) ∧
  (∀ s d, d ≤ 15 → (s.die d).trip = false → (s.die d).level ≠ .off → ∃ t, exec (.thermalTrip d) s = .next t ∧
    t = { s with dies := t.dies, agenda := .event (.alarmEvent 2) :: s.agenda } ∧
    ∀ j, t.die j = if j = d then { s.die d with trip := true, clockStopped := true } else s.die j) ∧
  (∀ s st bank, st ≤ 15 → bank ≤ 15 → ∀ both, ∃ t, exec (.remapTableError st bank both) s = .next t ∧
    StacksBecome s t (fun n x => if n = st then { x with health := (t.stack st).health } else x) ∧
    ∀ j, (t.stack st).health.getLsbD j = ((s.stack st).health.getLsbD j ||
      if both then decide (j = 0 ∨ j = 16 + bank) else decide (j = 1)))

/-- R188, R268, R310, R311, R321, R332, R334, R337, R350, R353 and Table 19.3: writes to registers: PARTCFG_WRITE, VFBIND_WRITE,
SCWAY_WRITE, AQUOTA_WRITE, CQUOTA_WRITE, TICKP_WRITE, SUBQ_WRITE, ALARMPOL_WRITE, CSTAT_WRITE and REGISTER_WRITE. -/
def Obligations.RegisterWrites : Prop :=
  (∀ s v, let v' := v &&& 0x0000FFFFFFFFFFFF
    (legalLayout v' = false → exec (.partcfgWrite v) s = .next s) ∧
    (legalLayout v' = true → s.mh.partNext = [] → v' = s.mh.partcfg → exec (.partcfgWrite v) s = .next s) ∧
    (legalLayout v' = true → s.mh.partNext = [] → v' ≠ s.mh.partcfg → ∃ t, exec (.partcfgWrite v) s = .next t ∧
      t = { s with mh := { s.mh with partNext := [v'] } }) ∧
    (∀ q p, legalLayout v' = true → s.mh.partNext = q ++ [p] → v' ≠ p → ∃ t, exec (.partcfgWrite v) s = .next t ∧
      t = { s with mh := { s.mh with partNext := q ++ [p, v'] } })) ∧
  (∀ s n (v : BitVec 128), n ≤ 192 → let v' : BitVec 128 := BitVec.ofNat 128 (v.toNat % 2 ^ 69)
    let l := v.toNat / 2 ^ 64 % 16
    let ds := s.diesOf l
    let die (i : Nat) : Nat := v.toNat / 2 ^ (4 * i) % 16
    let legal := s.leaderOfDie l = l ∧ (∀ d ∈ ds, ∃ i, i < ds.length ∧ die i = d) ∧ (∀ i, i < ds.length → die i ∈ ds) ∧
      ∀ i, ds.length ≤ i → i < 16 → die i = 0
    (v.getLsbD 68 = true → ¬ legal → exec (.vfbindWrite n v) s = .next s) ∧
    ((v.getLsbD 68 = true → legal) → (v.toNat % 2 ^ 68 = (s.ctx n).vfbind.toNat % 2 ^ 68 ∨
        ∀ p ∈ s.groups, p.2.vf = n → p.2.evicted = true ∨ p.2.dead = true) →
      ∃ t, exec (.vfbindWrite n v) s = .next t ∧ CtxBecomes s t n fun c => { c with vfbind := v', vfbindNext := none }) ∧
    ((v.getLsbD 68 = true → legal) → v.toNat % 2 ^ 68 ≠ (s.ctx n).vfbind.toNat % 2 ^ 68 →
      (∃ p ∈ s.groups, p.2.vf = n ∧ p.2.evicted = false ∧ p.2.dead = false) → (s.gang (s.ctx n).leader).cur = some n →
      ∃ t, exec (.vfbindWrite n v) s = .next t ∧ CtxBecomes s t n fun c => { c with vfbindNext := some v' })) ∧
  (∀ s st n (v : BitVec 64), st ≤ 15 → n ≤ 192 →
    let mine (i : Nat) : Bool := v.getLsbD i || v.getLsbD (16 + i) || v.getLsbD (32 + i)
    let legal := ∀ i, i < 16 → v.getLsbD (48 + i) = true → mine i = true ∧ ∀ p ∈ (s.stack st).scway, p.1 ≠ n →
      p.2.getLsbD i = false ∧ p.2.getLsbD (16 + i) = false ∧ p.2.getLsbD (32 + i) = false ∧ p.2.getLsbD (48 + i) = false
    (¬ legal → exec (.scwayWrite st n v) s = .next s) ∧
    (legal → ∃ t, exec (.scwayWrite st n v) s = .next t ∧
      StacksBecome s t (fun j x => if j = st then { x with scway := (t.stack st).scway, sc := (t.stack st).sc } else x) ∧
      (∀ j, tget 0 (t.stack st).scway j = if j = n then v else tget 0 (s.stack st).scway j) ∧
      (∀ x, x ∈ (t.stack st).sc ↔ x ∈ (s.stack st).sc ∧ (x.vf = n → x.way < 16 ∧ mine x.way = true)))) ∧
  (∀ s st n (v : BitVec 64), st ≤ 15 → n ≤ 192 → let v' := v &&& 0xFFFFFFFFF
    let q := (s.stack st).aquota
    let fits := Within q n 20 16 16384 v' ∧ Within q n 8 12 2048 v' ∧ Within q n 0 8 256 v'
    (¬ fits → exec (.aquotaWrite st n v) s = .next s) ∧
    (fits → ∃ t, exec (.aquotaWrite st n v) s = .next t ∧
      StacksBecome s t (fun j x => if j = st then { x with aquota := (t.stack st).aquota } else x) ∧
      ∀ j, tget 0 (t.stack st).aquota j = if j = n then v' else tget 0 q j)) ∧
  (∀ s d n (v : BitVec 32), d ≤ 15 → n ≤ 192 → let v' := v &&& 0x07FF07FF
    let q := (s.die d).cquota
    let fits := Within q n 16 11 1024 v' ∧ Within q n 0 11 1024 v'
    (¬ fits → exec (.cquotaWrite d n v) s = .next s) ∧
    (fits → (s.die d).cuOps = [] → ∃ t, exec (.cquotaWrite d n v) s = .next t ∧
      DieBecomes s t d (fun x => { x with cquota := (t.die d).cquota }) ∧
      ∀ j, tget 0 (t.die d).cquota j = if j = n then v' else tget 0 q j)) ∧
  (∀ s l (v : BitVec 32), l ≤ 15 → let p := v.toNat % 2 ^ 20
    (p < 100 ∨ Config.blobTickMax < p → exec (.tickpWrite l v) s = .next s) ∧
    (100 ≤ p → p ≤ Config.blobTickMax → ∃ t, exec (.tickpWrite l v) s = .next t ∧
      GangBecomes s t l fun g => { g with tickp := BitVec.ofNat 32 p })) ∧
  (∀ s n (v : BitVec 256), n ≤ 192 → ∃ t, exec (.subqWrite n v) s = .next t ∧ t = { s with ctxs := t.ctxs, fetched := t.fetched } ∧
    t.ctx n = { s.ctx n with subq := (t.ctx n).subq, ringStopped := none, ring := none } ∧ (∀ j, j ≠ n → t.ctx j = s.ctx j) ∧
    (t.ctx n).subq.toNat % 2 ^ 128 = v.toNat % 2 ^ 128 ∧ (t.ctx n).subq.getLsbD 132 = v.getLsbD 132 ∧
    (t.ctx n).subq.toNat < 2 ^ 133 ∧
    (t.ctx n).subq.toNat / 2 ^ 128 % 16 = if v.toNat / 2 ^ 128 % 16 ≤ 12 then v.toNat / 2 ^ 128 % 16
      else (s.ctx n).subq.toNat / 2 ^ 128 % 16) ∧
  (∀ s (v : BitVec 32), ∃ t, exec (.alarmpolWrite v) s = .next t ∧ t = { s with mh := t.mh } ∧
    t.mh = { s.mh with alarmpol := t.mh.alarmpol } ∧ t.mh.alarmpol.toNat < 2 ^ 12 ∧
    (∀ i, i < 4 → t.mh.alarmpol.getLsbD (8 + i) = (s.mh.alarmpol.getLsbD (8 + i) && !v.getLsbD (8 + i))) ∧
    ∀ i, i < 4 → let c := v.toNat / 2 ^ (2 * i) % 4
      t.mh.alarmpol.toNat / 2 ^ (2 * i) % 4 = if c = 3 ∨ c < Config.blobFloor i then s.mh.alarmpol.toNat / 2 ^ (2 * i) % 4 else c) ∧
  (∀ s n (v : BitVec 32), n ≤ 192 → ∃ t, exec (.cstatWrite n v) s = .next t ∧
    CtxBecomes s t n (fun c => { c with sticky := (t.ctx n).sticky }) ∧
    ∀ i, i < 4 → (t.ctx n).sticky.getLsbD i = ((s.ctx n).sticky.getLsbD i && !v.getLsbD i)) ∧
  (∀ s num unit (v : BitVec 256), ((regOf num = none ∨ ∃ r, regOf num = some r ∧ r.units unit = none) →
      exec (.registerWrite num unit v) s = .next s) ∧
    (∀ n, num = 0x300 + n → n ≤ 192 → unit = 16 → ∃ t, exec (.registerWrite num unit v) s = .next t ∧
      CtxBecomes s t n fun c => { c with budget := BitVec.ofNat 64 (v.toNat % 2 ^ 56) }) ∧
    (num = 1 → unit = 16 → exec (.registerWrite num unit v) s = exec (.partcfgWrite (v.setWidth 64)) s) ∧
    (num = 2 → unit = 16 → exec (.registerWrite num unit v) s = exec (.alarmpolWrite (v.setWidth 32)) s) ∧
    (∀ n, n ≤ 192 → unit = 16 → num = 0x100 + n → exec (.registerWrite num unit v) s = exec (.vfbindWrite n (v.setWidth 128)) s) ∧
    (∀ n, n ≤ 192 → unit = 16 → num = 0x200 + n → exec (.registerWrite num unit v) s = exec (.subqWrite n v) s) ∧
    (∀ l, l ≤ 15 → unit = 16 → num = 0x400 + l → exec (.registerWrite num unit v) s = exec (.tickpWrite l (v.setWidth 32)) s) ∧
    (∀ d n, d ≤ 15 → n ≤ 192 → unit = 16 → num = 0x10000 + 0x100 * d + n →
      exec (.registerWrite num unit v) s = exec (.cquotaWrite d n (v.setWidth 32)) s) ∧
    (∀ n, n ≤ 192 → unit ≤ 15 → num = 0x20200 + n → exec (.registerWrite num unit v) s = exec (.scwayWrite unit n (v.setWidth 64)) s) ∧
    (∀ n, n ≤ 192 → unit ≤ 15 → num = 0x20300 + n → exec (.registerWrite num unit v) s = exec (.aquotaWrite unit n (v.setWidth 64)) s) ∧
    (∀ n, n ≤ 255 → unit ≤ 15 → num = 0x20000 ∨ num = 0x20001 ∨ (n ≠ 0 ∧ num = 0x20100 + n) →
      exec (.registerWrite num unit v) s = .next s) ∧
    (unit ≤ 15 → num = 0x20002 → ∃ t, exec (.registerWrite num unit v) s = .next t ∧
      StacksBecome s t (fun j x => if j = unit then { x with health := (t.stack unit).health } else x) ∧
      ∀ i, (t.stack unit).health.getLsbD i = ((s.stack unit).health.getLsbD i && !(decide (i = 2) && v.getLsbD 2))))

/-- R239, R367 to R372, R378: power and time: DIE_OFF, DIE_HOLD, L2, L1, L0, DIE_WAKE_COMPLETE, SELFREF, ACTIVE, PWRCAP_WRITE,
POWER_ARBITRATION and TIME_SYNC. -/
def Obligations.PowerEvents : Prop :=
  (∀ s d, d ≤ 15 → (s.die d).waking = none →
    ((s.die d).level = .off → ∃ t, exec (.dieOff d) s = .next t ∧ DieBecomes s t d fun x => { x with target := .off }) ∧
    ((s.die d).level ≠ .off → DieFree s d → (s.die d).failed = true ∨ ((s.die d).lines = [] ∧ ∀ k, k / 16 = d → (s.core k).l1 = []) →
      (∀ p ∈ s.groups, p.2.k / 16 = d → p.2.evicted = true ∨ p.2.dead = true) →
      ∃ t, exec (.dieOff d) s = .next t ∧ FinalBeats s t d ∧ (t.die d).level = .off ∧ (t.die d).target = .off ∧
        (t.die d).trip = false ∧ (t.die d).lines = [] ∧ (∀ k, k / 16 = d → (t.core k).l1 = [] ∧ (t.core k).eng = []) ∧
        (t.gang (s.leaderOfDie d)).phase = if s.mh.alarmHalt = true then .alarmHalt else .idle) ∧
    ((s.gang (s.leaderOfDie d)).phase ∈ [.preempted, .preparing, .cancelling, .committing, .evicting] → (s.die d).level ≠ .off →
      ∃ t, exec (.dieOff d) s = .next t ∧ (t.die d).target = .off ∧ (t.die d).level = (s.die d).level ∧
        (0x100 + 4 * d, 0) ∈ t.mh.pwrLater)) ∧
  (∀ s d, d ≤ 15 → (s.die d).waking = none → (s.die d).trip = false →
    ((s.die d).level = .off → ∃ t, exec (.dieHold d) s = .next t ∧ DieBecomes s t d fun x => { x with target := .hold, waking := some .hold }) ∧
    ((s.die d).level ≠ .off → (s.die d).level ≠ .hold → DieFree s d →
      ∃ t, exec (.dieHold d) s = .next t ∧ FinalBeats s t d ∧ (t.die d).level = .hold ∧ (t.die d).target = .hold ∧
        t.groups = s.groups)) ∧
  (∀ s d l, d ≤ 15 → l = .l0 ∨ l = .l1 ∨ l = .l2 → (s.die d).waking = none → (s.die d).trip = false →
    ((s.die d).level = .off → ∃ t, exec (runEvent l d) s = .next t ∧ DieBecomes s t d fun x => { x with target := l, waking := some l }) ∧
    ((s.die d).level.runs = true → (s.gang (s.leaderOfDie d)).phase = .idle → ∃ t, exec (runEvent l d) s = .next t ∧
      DieBecomes s t d fun x => { x with target := l, level := l }) ∧
    ((s.die d).level = .hold → (s.gang (s.leaderOfDie d)).phase = .idle → s.mh.alarmHalt = false → ∃ t,
      exec (runEvent l d) s = .next t ∧ (t.die d).level = l ∧ (t.die d).target = l ∧
      ∀ v gid y, (s.gang (s.leaderOfDie d)).cur = some v → y.k / 16 = d →
        OneHalted (s.modDie d fun x => { x with target := l, level := l }) v gid y →
        ∃ gt, t.group? gid = some gt ∧ gt.halted = false)) ∧
  (∀ s d l, (s.die d).waking = some l → ∃ t, exec (.dieWakeComplete d) s = .next t ∧ (t.die d).level = l ∧ (t.die d).waking = none ∧
    (t.die d).failed = false ∧ (∀ st, st < 16 → d ∉ (t.stack st).waived) ∧
    (∀ e, tget 0 (t.agent d).vec e = if e = d then (s.largestOf d + 1) % 2 ^ 24 else 0) ∧ (t.agent d).lastSent = [] ∧
    ((s.die d).target = l → t.agenda = s.agenda) ∧
    ((s.die d).target ≠ l → t.agenda = .event (match (s.die d).target with
      | .off => .dieOff d
      | .hold => .dieHold d
      | .l2 => .l2 d
      | .l1 => .l1 d
      | .l0 => .l0 d) :: s.agenda)) ∧
  (∀ s st (b : Bool), st ≤ 15 → let e := if b then Instr.selfref st else .active st
    ((s.gang (s.leaderOfDie st)).phase = .idle → ∃ t, exec e s = .next t ∧
      StacksBecome s t fun j x => if j = st then { x with selfref := b } else x) ∧
    ((s.gang (s.leaderOfDie st)).phase = .preparing → ∃ t, exec e s = .next t ∧ t.stks = s.stks ∧
      (0x200 + 4 * st, if b then 1 else 0) ∈ t.mh.pwrLater)) ∧
  (∀ s (v : BitVec 32), let w := v.toNat % 2 ^ 12
    (w < 400 ∨ 2500 < w → exec (.pwrcapWrite v) s = .next s) ∧
    (400 ≤ w → w ≤ 2500 → ∃ t, exec (.pwrcapWrite v) s = .next t ∧ t = { s with mh := { s.mh with pwrcap := w } })) ∧
  (∀ s (dw sw : List Nat), dw.length = 16 → sw.length = 16 → dw.foldl (· + ·) 0 + sw.foldl (· + ·) 0 ≤ s.mh.pwrcap →
    ∃ t, exec (.powerArbitration dw sw) s = .next t ∧ t = { s with mh := t.mh } ∧
      t.mh = { s.mh with dieW := t.mh.dieW, stkW := t.mh.stkW } ∧
      ∀ j, j < 16 → tfind t.mh.dieW j = dw[j]? ∧ tfind t.mh.stkW j = sw[j]?) ∧
  (∀ s u (rate : BitVec 64), u < 32 → let old := if u < 16 then (s.die u).time else (s.stack (u - 16)).time
    ∃ t, exec (.timeSync u rate) s = .next t ∧ t = { s with dies := t.dies, stks := t.stks } ∧
      let new := if u < 16 then (t.die u).time else (t.stack (u - 16)).time
      new.trate = rate.toNat ∧ new.ltime = old.ltime ∧
        ((new.ltime * new.trate) / 2 ^ 32 + new.toff) % 2 ^ 64 = ((old.ltime * old.trate) / 2 ^ 32 + old.toff) % 2 ^ 64)

/-- R233, R261, R262, R364 to R366, R376: the events of collectives: COLLECTIVE_INSTANCE_START, INSTANCE_INSTRUCTION, the
counters of CSR_CADD, CSR_CRAISE, CSR_CREAD and CSR_CWAIT, HXSEND, HXSEND_COMPLETE, CABRT and COLLECTIVE_COMPLETION. The
pc of an instance as an offset of the image, and what RISC-V's own specification fixes, are the model's reading (log 31). -/
def Obligations.CollectiveEvents : Prop :=
  (∀ s c i q x, tfind s.colls c = some q → q.insts[i]? = some x → x.stack < 16 → x.st = .waiting →
    (q.ending = none → (s.stack x.stack).abacus.length < 8 → ∃ t, exec (.collectiveInstanceStart c i) s = .next t ∧
      t = { s with colls := t.colls, stks := t.stks } ∧
      (∀ j, tfind t.colls j = if j = c then some { q with insts := q.insts.set i { x with st := .running } } else tfind s.colls j) ∧
      OnStack s t x.stack (fun k => { k with abacus := k.abacus ++ [instSlot c i] })) ∧
    (q.ending = none → 8 ≤ (s.stack x.stack).abacus.length → exec (.collectiveInstanceStart c i) s = .next s) ∧
    (q.ending ≠ none → ∃ t, exec (.collectiveInstanceStart c i) s = .next t ∧ InstEnds s t c i q x none)) ∧
  (∀ s c i q x w v, InstAt s c i q x w → intValue x w = some v →
    ∃ t y, exec (.instanceInstruction c i) s = .next t ∧ InstBecomes s t c i q x y ∧ RegPut x y (fieldB w 7 5) v (nextWord x)) ∧
  (∀ s c i q x w, InstAt s c i q x w → intValue x w = none → fieldB w 0 7 ∈ [0x37, 0x17, 0x13, 0x1B, 0x33, 0x3B] →
    ∃ t, exec (.instanceInstruction c i) s = .next t ∧ InstEnds s t c i q x (some 0x121)) ∧
  (∀ s c i q x w target, InstAt s c i q x w →
    (fieldB w 0 7 = 0x6F ∧ target = x.pc + jumpOffset w) ∨
      (fieldB w 0 7 = 0x67 ∧ fieldB w 12 3 = 0 ∧
        target = (hartReg x (fieldB w 15 5) + (BitVec.ofNat 12 (fieldB w 20 12)).signExtend 64) &&& ~~~1#64) →
    (target.toNat % 4 = 0 → ∃ t y, exec (.instanceInstruction c i) s = .next t ∧ InstBecomes s t c i q x y ∧
      RegPut x y (fieldB w 7 5) (nextWord x) target) ∧
    (target.toNat % 4 ≠ 0 → ∃ t, exec (.instanceInstruction c i) s = .next t ∧ InstEnds s t c i q x (some 0x121))) ∧
  (∀ s c i q x w taken, InstAt s c i q x w → fieldB w 0 7 = 0x63 →
    branchTaken (fieldB w 12 3) (hartReg x (fieldB w 15 5)) (hartReg x (fieldB w 20 5)) = some taken →
    (taken = false ∨ (x.pc + branchOffset w).toNat % 4 = 0 → ∃ t, exec (.instanceInstruction c i) s = .next t ∧
      InstBecomes s t c i q x { x with pc := if taken = true then x.pc + branchOffset w else nextWord x }) ∧
    (taken = true → (x.pc + branchOffset w).toNat % 4 ≠ 0 →
      ∃ t, exec (.instanceInstruction c i) s = .next t ∧ InstEnds s t c i q x (some 0x121))) ∧
  (∀ s c i q x w n sgn, InstAt s c i q x w → fieldB w 0 7 = 3 → loadKind (fieldB w 12 3) = some (n, sgn) →
    let ptr := (hartReg x (fieldB w 15 5) + (BitVec.ofNat 12 (fieldB w 20 12)).signExtend 64).toNat
    (MayAccess s q ptr n .r → ∀ u bs, s.engineSeg (16 + x.stack) q.vf (instKey c i) (x.accctl / 8 % 4) ptr n = .ok u bs → u.colls = s.colls →
      ∃ t y, exec (.instanceInstruction c i) s = .next t ∧ InstBecomes { u with fetched := tdel u.fetched (instKey c i) } t c i q x y ∧
        RegPut x y (fieldB w 7 5) (extended n sgn (leNat bs)) (nextWord x)) ∧
    (¬ MayAccess s q ptr n .r → ∃ t, exec (.instanceInstruction c i) s = .next t ∧ InstEnds s t c i q x (some 0x121))) ∧
  (∀ s c i q x w, InstAt s c i q x w → fieldB w 0 7 = 0x23 → fieldB w 12 3 ≤ 3 →
    let n := 2 ^ fieldB w 12 3
    let ptr := (hartReg x (fieldB w 15 5) + (BitVec.ofNat 12 (fieldB w 25 7 * 32 + fieldB w 7 5)).signExtend 64).toNat
    let bs := (List.range n).map fun j => leByte (hartReg x (fieldB w 20 5)).toNat j
    let e := s.tableEntry q.vf (ptr / 2 ^ 48 % 2 ^ 16)
    (MayAccess s q ptr n .w → outside ptr = false → ∀ u,
      s.writeTab (16 + x.stack) (s.locOf e ptr) (bs.zipIdx.map fun p => ((s.locOf e ptr).sva % 128 + p.2, p.1))
        (clsRelaxed (x.accctl / 8 % 4) e) = .ok u () → u.colls = s.colls →
      ∃ t, exec (.instanceInstruction c i) s = .next t ∧ InstBecomes u t c i q x { x with pc := nextWord x }) ∧
    (¬ MayAccess s q ptr n .w → ∃ t, exec (.instanceInstruction c i) s = .next t ∧ InstEnds s t c i q x (some 0x121))) ∧
  (∀ s c i q x w y, InstAt s c i q x w → fieldB w 0 7 ∈ [0x43, 0x47, 0x4B, 0x4F, 0x53] → x.opfp w = some y →
    ∃ t, exec (.instanceInstruction c i) s = .next t ∧ InstBecomes s t c i q x { y with pc := nextWord x }) ∧
  (∀ s c i q x w y, InstAt s c i q x w → fieldB w 0 7 = 0x57 → x.opv w s.freeCtr = some y → y.stack = x.stack →
    ∃ t, exec (.instanceInstruction c i) s = .next t ∧
      InstBecomes { s with freeCtr := s.freeCtr + 1 } t c i q x { y with pc := nextWord x }) ∧
  (∀ s c i q x w, InstAt s c i q x w → fieldB w 0 7 = 0x0F → fieldB w 12 3 = 0 → NoneOut s c i 1 →
    ∃ t, exec (.instanceInstruction c i) s = .next t ∧ InstBecomes (Clamped s q x) t c i q x { x with pc := nextWord x }) ∧
  (∀ s c i q x, InstAt s c i q x 0x73 → ∃ u t, exec (.instanceInstruction c i) s = .next t ∧
    InstBecomes s u c i q x { x with pc := nextWord x } ∧ InstEnds u t c i { q with insts := q.insts.set i { x with pc := nextWord x, prog := 0 } } x none) ∧
  (∀ s c i q x w v, InstAt s c i q x w →
    (Csrrw x w 0x800 v → ∃ t y, exec (.instanceInstruction c i) s = .next t ∧ InstBecomes s t c i q x y ∧
      RegPut { x with cptr := v } y (fieldB w 7 5) x.cptr (nextWord x)) ∧
    (Csrrw x w 0x805 v → ∃ t y, exec (.instanceInstruction c i) s = .next t ∧ InstBecomes s t c i q x y ∧
      RegPut { x with ctmo := v } y (fieldB w 7 5) x.ctmo (nextWord x)) ∧
    (Csrrw x w 0x810 v → 2 ≤ v.toNat % 8 → v.toNat % 8 ≤ 4 → ∃ t y, exec (.instanceInstruction c i) s = .next t ∧ InstBecomes s t c i q x y ∧
      RegPut { x with accctl := v.toNat % 32 } y (fieldB w 7 5) (BitVec.ofNat 64 x.accctl) (nextWord x)) ∧
    ((∃ num ∈ [0x803, 0x811, 0x821], Csrrw x w num v) → ∃ t, exec (.instanceInstruction c i) s = .next t ∧ InstEnds s t c i q x (some 0x121)) ∧
    (fieldB w 0 7 = 0x73 → fieldB w 12 3 ∈ [2, 3, 6, 7] → fieldB w 15 5 = 0 → ∀ r,
      (fieldB w 20 12 = 0x800 ∧ r = x.cptr) ∨ (fieldB w 20 12 = 0x805 ∧ r = x.ctmo) ∨
        (fieldB w 20 12 = 0x811 ∧ r = BitVec.ofNat 64 (x.index % 256 + 2 ^ 8 * (x.count % 256) + 2 ^ 16 * x.stack)) ∨
        (fieldB w 20 12 = 0x821 ∧ r = BitVec.ofNat 64 x.hxdone) →
      ∃ t y, exec (.instanceInstruction c i) s = .next t ∧ InstBecomes s t c i q x y ∧ RegPut x y (fieldB w 7 5) r (nextWord x))) ∧
  (∀ s c i q x w v, InstAt s c i q x w → NoneOut s c i 1 → CounterSound s q x → ∀ u old, u.colls = s.colls →
    let l := counterLoc s q x
    (Csrrw x w 0x801 v → (Clamped s q x).counterDirect (16 + x.stack) l .cadd v.toNat = .ok u (some old) →
      ∃ t y, exec (.csrCadd c i) s = .next t ∧ InstBecomes u t c i q x y ∧ RegPut x y (fieldB w 7 5) (BitVec.ofNat 64 old) (nextWord x)) ∧
    (Csrrw x w 0x801 v → (Clamped s q x).counterDirect (16 + x.stack) l .cadd v.toNat = .ok u none →
      ∃ t, exec (.csrCadd c i) s = .next t ∧ InstEnds u t c i q x (some 0x121)) ∧
    (Csrrw x w 0x802 v → (Clamped s q x).counterDirect (16 + x.stack) l .craise v.toNat = .ok u (some old) →
      ∃ t y, exec (.csrCraise c i) s = .next t ∧ InstBecomes u t c i q x y ∧ RegPut x y (fieldB w 7 5) (BitVec.ofNat 64 old) (nextWord x))) ∧
  (∀ s c i q x w v, InstAt s c i q x w → NoneOut s c i 1 → ¬ CounterSound s q x →
    (Csrrw x w 0x801 v → ∃ t, exec (.csrCadd c i) s = .next t ∧ InstEnds s t c i q x (some 0x121)) ∧
    (Csrrw x w 0x802 v → ∃ t, exec (.csrCraise c i) s = .next t ∧ InstEnds s t c i q x (some 0x121))) ∧
  (∀ s c i q x w u bs, InstAt s c i q x w → CounterSound s q x → u.colls = s.colls →
    (Clamped s q x).readDirect (16 + x.stack) (counterLoc s q x) 8 = .ok u bs →
    (fieldB w 0 7 = 0x73 → fieldB w 12 3 ∈ [2, 3, 6, 7] → fieldB w 15 5 = 0 → fieldB w 20 12 = 0x803 →
      ∃ t y, exec (.csrCread c i) s = .next t ∧ InstBecomes u t c i q x y ∧
        RegPut x y (fieldB w 7 5) (BitVec.ofNat 64 (leNat bs)) (nextWord x)) ∧
    (∀ target, Csrrw x w 0x804 target →
      (target.toNat ≤ leNat bs → ∃ t y, exec (.csrCwait c i) s = .next t ∧ InstBecomes u t c i q x y ∧
        RegPut x y (fieldB w 7 5) (BitVec.ofNat 64 (leNat bs)) (nextWord x)) ∧
      (leNat bs < target.toNat → u.ns = s.ns → exec (.csrCwait c i) s = .next (u.setInst c i { x with
        st := .cwait (if x.ctmo = 0 then none else some (s.ns + 1000 * x.ctmo.toNat)) target.toNat (fieldB w 7 5) })))) ∧
  (∀ s c i q x deadline target rd u bs, tfind s.colls c = some q → q.insts[i]? = some x → x.stack < 16 → q.ending = none →
    x.st = .cwait deadline target rd → CounterSound s q x → u.colls = s.colls →
    (Clamped s q x).readDirect (16 + x.stack) (counterLoc s q x) 8 = .ok u bs →
    (target ≤ leNat bs ∨ (∃ d, deadline = some d ∧ d ≤ u.ns) → ∃ t y, exec (.csrCwait c i) s = .next t ∧
      InstBecomes u t c i q { x with st := .running } y ∧ RegPut { x with st := .running } y rd (BitVec.ofNat 64 (leNat bs)) (nextWord x)) ∧
    (leNat bs < target → (∀ d, deadline = some d → u.ns < d) → ∃ t, exec (.csrCwait c i) s = .next t ∧
      t = { u with colls := t.colls } ∧ ∀ j, tfind t.colls j = tfind s.colls j)) ∧
  (∀ s c i q x w v, InstAt s c i q x w → Csrrw x w 0x830 v →
    ∃ t, exec (.cabrt c i) s = .next t ∧ InstEnds s t c i q x (some 0x120)) ∧
  (∀ s c i q x w p u bs, InstAt s c i q x w → Csrrw x w 0x820 p → x.sends.length < 32 → u.colls = s.colls →
    (∃ g ∈ q.reads, g.holds p.toNat (ptrOff p.toNat) 64 = true) →
    s.engineRead (16 + x.stack) q.vf (instKey c i) (x.accctl / 8 % 4) p.toNat 0 64 = .ok u bs → bs.length = 64 →
    let z := { u with fetched := tdel u.fetched (instKey c i) }
    (SendSound z q bs → ∃ t y, exec (.hxsend c i) s = .next t ∧ InstBecomes z t c i q x y ∧
      RegPut { x with sends := x.sends ++ [sendOf bs] } y (fieldB w 7 5) (BitVec.ofNat 64 (32 - x.sends.length)) (nextWord x)) ∧
    (¬ SendSound z q bs → ∃ t, exec (.hxsend c i) s = .next t ∧ InstEnds z t c i q x (some 0x121))) ∧
  (∀ s c i q x w p, InstAt s c i q x w → Csrrw x w 0x820 p → 32 ≤ x.sends.length → exec (.hxsend c i) s = .next s) ∧
  (∀ s c i q x d rest, tfind s.colls c = some q → q.insts[i]? = some x → x.sends = d :: rest →
    (d.moved < d.len → ∀ u bs n, n = min (d.len - d.moved) (min (128 - (ptrOff d.src + d.moved) % 128) (128 - (ptrOff d.dst + d.moved) % 128)) →
      s.engineSeg (16 + x.stack) q.vf (instKey c i) (x.accctl / 8 % 4) (ptrAdd d.src d.moved) n = .ok u bs → u.colls = s.colls →
      ∃ t id a, exec (.hxsendComplete c i) s = .next t ∧ u.nextAcc ≤ id ∧ tfind t.accs id = some a ∧ a.op = .store bs ∧
        a.owner = .send c i 0 ∧ a.agent = 16 + x.stack ∧ a.ext ≠ 0 ∧
        a.loc = extLoc (u.tableEntry q.vf (ptrAdd d.dst d.moved / 2 ^ 48 % 2 ^ 16)) (ptrAdd d.dst d.moved) ∧
        ∀ j, tfind t.colls j = if j = c then some { q with insts := q.insts.set i { x with
          sends := { d with moved := d.moved + n } :: rest } } else tfind s.colls j) ∧
    (d.len ≤ d.moved → NoneOut s c i 0 → d.signalled = false → ∃ t id a, exec (.hxsendComplete c i) s = .next t ∧ s.nextAcc ≤ id ∧
      tfind t.accs id = some a ∧ a.op = .atomic .cadd [⟨0, 0, d.rinc, 0⟩] ∧ a.owner = .send c i 0 ∧ a.agent = 16 + x.stack ∧
      a.ext ≠ 0 ∧ a.loc.eptr = d.rcnt ∧
      ∀ j, tfind t.colls j = if j = c then some { q with insts := q.insts.set i { x with
        sends := { d with signalled := true } :: rest } } else tfind s.colls j) ∧
    (d.len ≤ d.moved → NoneOut s c i 0 → d.signalled = true → ∃ t, exec (.hxsendComplete c i) s = .next t ∧
      t = { s with colls := t.colls } ∧ ∀ j, tfind t.colls j = if j = c then some { q with insts := q.insts.set i { x with
        sends := rest, hxdone := x.hxdone + 1 } } else tfind s.colls j)) ∧
  (∀ s c q st w, tfind s.colls c = some q → (∀ x ∈ q.insts, x.st = .ended ∧ x.sends = []) → (∀ p ∈ s.accs, ∀ i n, p.2.owner ≠ .send c i n) →
    st = (if q.passed = true then 4 else q.ending.elim 0 (·.2.2)) →
    s.complete (complKey c) 32 q.vf ⟨q.cmpl, q.cnt, q.seq, q.inc⟩ st = .ok w () →
    (tfind s.items q.item = none → ∃ t, exec (.collectiveCompletion c) s = .next t ∧ t.mem = w.mem ∧ t.out = w.out ∧
      ∀ j, tfind t.colls j = if j = c then none else tfind w.colls j) ∧
    ∀ it v, tfind s.items q.item = some it →
      w.complete (complKey q.item) 32 it.vf ⟨it.cmpl, it.cnt, it.seq, it.inc⟩ st = .ok v () →
      ∃ t, exec (.collectiveCompletion c) s = .next t ∧ t.mem = v.mem ∧ tfind t.colls c = none ∧ tfind t.items q.item = none) ∧
  (∀ (r : Routine) w, (∀ p ∈ r.x, p.2 < 2 ^ 64) → r.line.length = 128 → r.slot < 16 →
    let reg (n : Nat) : DWord := if n = 0 then 0 else BitVec.ofNat 64 (tget 0 r.x n)
    let a := reg (fieldB w 15 5)
    let b := reg (fieldB w 20 5)
    let puts (q : Routine) (v : DWord) : Prop := q = { r with x := q.x, slot := r.slot + 1 } ∧
      ∀ n, n ≠ 0 → tget 0 q.x n = if n = fieldB w 7 5 then v.toNat else tget 0 r.x n
    (∀ v, intValue { Inst.fresh 0 0 0 0 with x := r.x.map fun p => (p.1, BitVec.ofNat 64 p.2) } w = some v → routineWord w = true →
      w % 128 ≠ 3 → w % 128 ≠ 0x23 → w % 128 ≠ 0x63 → ∃ q, r.step w = .go q ∧ puts q v) ∧
    (∀ n sgn, w % 128 = 3 → loadKind (fieldB w 12 3) = some (n, sgn) →
      let ea := (a + (BitVec.ofNat 12 (fieldB w 20 12)).signExtend 64).toNat
      if ea + n ≤ 128 ∧ ea % n = 0 then ∃ q, r.step w = .go q ∧ puts q (extended n sgn (leNat ((r.line.drop ea).take n)))
      else r.step w = .fault) ∧
    (w % 128 = 0x23 → fieldB w 12 3 ≤ 3 → let n := 2 ^ fieldB w 12 3
      let ea := (a + (BitVec.ofNat 12 (fieldB w 25 7 * 32 + fieldB w 7 5)).signExtend 64).toNat
      if ea + n ≤ 128 ∧ ea % n = 0 then ∃ q, r.step w = .go q ∧ q = { r with line := q.line, slot := r.slot + 1 } ∧
        ∀ j, j < 128 → q.line[j]? = if ea ≤ j ∧ j < ea + n then some (leByte b.toNat (j - ea)) else r.line[j]?
      else r.step w = .fault) ∧
    (∀ taken, w % 128 = 0x63 → branchTaken (fieldB w 12 3) a b = some taken →
      let t := 4 * (r.slot : Int) + (branchOffset w).toInt
      if taken = false then r.step w = .go { r with slot := r.slot + 1 }
      else if 0 ≤ t ∧ t ≤ 64 ∧ t % 4 = 0 then r.step w = .go { r with slot := (t / 4).toNat } else r.step w = .fault) ∧
    r.step 0x73 = .done { r with slot := r.slot + 1 })

/-- R335, R349 to R351, R367, R373: the machine right after cold reset: every die OFF, every stack active, every slot FREE with
GEN 0, every frame QUAR with its INIT bit, the registers at the reset values of their tables, nothing in flight and memory empty.
That memory lists nothing is the model's form of it (log 4). -/
def Obligations.ResetValues : Prop :=
  let s := State.reset
  (∀ d, (s.die d).level = .off ∧ (s.die d).target = .off ∧ (s.die d).time = ⟨0, 2 ^ 32, 0⟩) ∧
  (∀ st, (s.stack st).selfref = false ∧ (s.stack st).health = 0 ∧ (s.stack st).jobs = [] ∧ (s.stack st).fwctl = 0x7FF ∧ (s.stack st).time = ⟨0, 2 ^ 32, 0⟩) ∧
  (∀ st n, (slotAt s st n).st = .free ∧ (slotAt s st n).gen = 0) ∧
  (∀ st f, (frameAt s st f).st = .quar ∧ (frameAt s st f).init = true ∧ (frameAt s st f).key = 0) ∧
  s.mh.partcfg = 0x924924924924 ∧ s.mh.alarmpol = 0b10011010 ∧ s.mh.boot = .pending ∧
  (∀ v, (s.ctx v).desc = none ∧ (s.ctx v).sticky = 0 ∧ (s.ctx v).faultCount = 0 ∧ (s.ctx v).tdi = .unlocked) ∧
  s.groups = [] ∧ s.accs = [] ∧ s.grids = [] ∧ s.colls = [] ∧ s.mem = [] ∧ s.pin = [] ∧ s.memWf = true ∧ ∀ a, memByte s.mem a = 0

/-- Memory stays in its canonical form whatever moves. -/
def Obligations.StepKeepsMemory : Prop := ∀ s t, s.memWf = true → step s = .next t → t.memWf = true

/-- Every state goes on: no state of the machine, reachable or not, stops the model. -/
def Obligations.StepGoesOn : Prop := ∀ s : State, s.goesOn

/-- A step whose agenda has an issue at its head runs the instruction that its slice's bundle fetches: `step` is `exec` of the
decoded instruction at the state of the issue, followed by what every issue leaves (R34, R65, R67, R72). An assigned opcode runs
where the decoder accepts its slot, and q8 where the group is the steward's (R271); an unassigned one takes its trap (R70). An
empty agenda is filled with a round, which is the model's (log 1). -/
def Obligations.StepRunsDecoded : Prop :=
  (∀ s u k sl b g line n i, AboutToIssue s u k sl b g line n → line.poisoned = false → lineIllegal line.data = false →
    decodeSlot (lineSlot line.data n) = .ok i → (Instr.namesQ8 i = true → (u.ctx g.vf).steward = true) →
    ∃ t, Issued u t k sl b g ∧ t.cur = some ⟨k, sl, b.gid, b.pc, b.quads, b.en, b.num⟩ ∧ step s = afterIssue t i (exec i t)) ∧
  (∀ s u k sl b g line n, AboutToIssue s u k sl b g line n → line.poisoned = false → lineIllegal line.data = false →
    ¬ assigned (opcOf (lineSlot line.data n)) →
    let i := Instr.unassignedOpcode (lineSlot line.data n)
    ∃ t, Issued u t k sl b g ∧ t.cur = some ⟨k, sl, b.gid, b.pc, b.quads, b.en, b.num⟩ ∧ step s = afterIssue t i (exec i t)) ∧
  (∀ s i rest, s.agenda = .event i :: rest → isEvent i = true → step s = exec i { s with agenda := rest }) ∧
  ∀ s, s.agenda = [] → step s = .next { s with agenda := s.round }

/-- R49 to R51, R58, R68, R70 to R72: what stops an issue before any effect, in the order of R72: a poisoned line, an illegal
line, an Illegal Instruction (an unassigned opcode among them), an Illegal Modifier, an Operand Overlap, a register past the
window, a lost latch. Each halts the group with its own cause. -/
def Obligations.IssueStops : Prop :=
  (∀ s u k sl b g line n, AboutToIssue s u k sl b g line n →
    (line.poisoned = true → IssueFaults s u k sl b g 0x14) ∧
    (line.poisoned = false → lineIllegal line.data = true → IssueFaults s u k sl b g 0x13) ∧
    (line.poisoned = false → lineIllegal line.data = false → assigned (opcOf (lineSlot line.data n)) →
      (decodeSlot (lineSlot line.data n) = .error (.decodeTrap .illegalInstruction) → IssueFaults s u k sl b g 0x10) ∧
      (Instr.namesQ8 (decodeFields (lineSlot line.data n)) = true → (u.ctx g.vf).steward = false → IssueFaults s u k sl b g 0x10) ∧
      (Instr.namesQ8 (decodeFields (lineSlot line.data n)) = false →
        (decodeSlot (lineSlot line.data n) = .error (.decodeTrap .illegalModifier) → IssueFaults s u k sl b g 0x11) ∧
        (decodeSlot (lineSlot line.data n) = .error (.decodeTrap .operandOverlap) → IssueFaults s u k sl b g 0x12)))) ∧
  (∀ s c w, s.cur = some c → ∃ mask, exec (.unassignedOpcode w) s =
      .next ((s.takeFault c.gid 0x10 c.pc mask (c.en.headD 0) 0 0).modSlice c.k c.sl Slice.clearLatches) ∧
    mask = c.en.foldl (fun m f => m ||| 2 ^ c.lane f) 0) ∧
  (∀ i s c g h, s.cur = some c → s.group? c.gid = some g → i.shape = some h → (∃ r ∈ h.reads ++ h.writes, g.wsize < r.1 + r.2) →
    ∃ mask, exec i s =
      .next ((s.takeFault c.gid 0x15 c.pc mask (c.en.headD 0) 0 0).modSlice c.k c.sl Slice.clearLatches) ∧ mask = c.en.foldl (fun m f => m ||| 2 ^ c.lane f) 0) ∧
  (∀ i s u c g h, s.cur = some c → i.shape = some h → i.isRod = false → i.isQuad = false →
    (∃ g0, s.group? c.gid = some g0 ∧ pastWindow h g0.wsize = false) → s.popAll c h.ctl (waitQueuesOf h) c.en = (u, .ok []) →
    u.group? c.gid = some g →
    (∃ f ∈ g.executing c, ∃ b, tfind g.fibres f = some b ∧ b.guard h.ctl = true ∧ ∃ e, laneOperands u c g h f b = .error e) →
    ∃ mask lead, exec i s = .next ((u.takeFault c.gid 0x17 c.pc mask lead 0 0).modSlice c.k c.sl Slice.clearLatches))

/-- R47, R48, R50, R51: a line made of five slots, PAIR and MASK: its slots and fields read back, byte 12i + j is byte j of slot i,
every parity bit agrees, a single bit that flips among them does not go unseen, and a bit above 14 of the line word makes the line
illegal. -/
def Obligations.LineLayout : Prop :=
  (∀ (w : Nat → Slot) pair mask, let l := makeLine (w 0) (w 1) (w 2) (w 3) (w 4) pair mask
    (∀ i, i ≤ 4 → lineSlot l i = w i ∧ (lineMask l i = mask.getLsbD i) ∧ (linePair l i = pair.getLsbD i) ∧
      (∀ j, j < 12 → l.extractLsb' (8 * (12 * i + j)) 8 = (w i).extractLsb' (8 * j) 8) ∧
      (onesBelow 96 (w i).toNat + (bitOf (lineWord l).toNat (9 + i)).toNat) % 2 = 0) ∧
    onesBelow 15 (lineWord l).toNat % 2 = 0 ∧ lineParityOk l = true ∧ lineIllegal l = false) ∧
  (∀ (l : BitVec 512) j, j < 495 → lineParityOk l = true → lineParityOk (l ^^^ BitVec.twoPow 512 j) = false) ∧
  (∀ (l : BitVec 512), lineIllegal l = true ↔ ∃ j, 495 ≤ j ∧ j < 512 ∧ l.getLsbD j = true) ∧
  ∀ pc n, pcSlot pc = some n ↔ slotAtPc pc n

/-- R53 to R63, R70: decoding and encoding agree: every well-formed instruction is read back from the slot that encodes it, alone
or from bytes; a slot that the decoder accepts is the one that its instruction encodes to; and codes that Table 3.9 does not assign
are refused. -/
def Obligations.DecodeEncode : Prop :=
  (∀ i, i.WellFormed → ∃ w, encode i = some w ∧ decodeSlot w = .ok i ∧
    ∀ rest, decodeBytes (leBytes 12 w.toNat ++ rest) = .ok (i, rest)) ∧
  (∀ w i, decodeSlot w = .ok i → i.WellFormed ∧ encode i = some w) ∧
  ∀ w, ¬ assigned (opcOf w) → decodeSlot w = .error (.decodeTrap .illegalInstruction)

/-- Words that the spec writes out bit by bit: Tables 4.1 and 4.2, 7.7, 18.3 and 22.2, and the MSIGN of R295. -/
def Obligations.WrittenWords : Prop :=
  let free : Ctl := ⟨⟨false, 15⟩, ⟨false, 0⟩, .single, 0, 0, false, false, 0⟩
  let none_ : Dst := ⟨false, false, .conv, 0xFF⟩
  let v (n : BitVec 8) : Src := ⟨.vreg, n, false⟩
  decodeSlot (words 0x059E0040 0x40300800 0x08155800) =
    .ok (.iset ⟨free, ⟨false, false, .pred, 1⟩, v 3, v 4, zeroSrc, ⟨.scalar, 2, true⟩, 0x56⟩) ∧
  decodeSlot (words 0x802400FF 0xC0000001 0x70000000) =
    .ok (.bra ⟨{ free with ga := ⟨true, 2⟩ }, none_, 1, 3, true, .vreg, 0, 0⟩) ∧
  decodeSlot (words 0x821E00FF 0xC0000000 0) = .ok (.nop ⟨free, none_, zeroSrc, zeroSrc, zeroSrc, zeroSrc, 0⟩) ∧
  decodeSlot (words 0xE09E00C0 0x00800600 0x00000400) =
    .ok (.msign ⟨free, ⟨false, false, .conv, 0⟩, v 8, v 3, zeroSrc, zeroSrc, 1⟩) ∧
  decodeSlot (words 0xE04400C0 0x00200200 0) =
    .ok (.marm ⟨{ free with ga := ⟨false, 2⟩ }, ⟨false, false, .conv, 0⟩, v 2, v 1, zeroSrc, zeroSrc, 0⟩) ∧
  decodeSlot (words 0x101E0082 0x0000004F 0xF9100C00) =
    .ok (.movi ⟨free, ⟨false, false, .queue, 8⟩, zeroSrc, 0x0009FF22, false, 3⟩) ∧
  decodeSlot 0 = .error (.decodeTrap .illegalInstruction)

/-- R16, R54, R56, R58, R66, R68: guards and operands: the guard of a fibre, p15, register groups, exact constants, format slots,
free entries of q0 to q2, helpers, and latches with their tags; and that an instruction's operands are what its source fields
read. -/
def Obligations.SourceOperands : Prop :=
  (∀ (b : Fibre) (c : Ctl), let p (x : PredRef) : Bool := xor (decide (x.num = 15) || b.preds.getLsbD x.num.toNat) x.neg
    b.guard c = match c.gc with
      | .single => p c.ga
      | .both => p c.ga && p c.gb
      | .either => p c.ga || p c.gb
      | .reserved => false) ∧
  (∀ (b : Fibre) n q, (b.setP n q).p 15 = true ∧ ∀ m, m < 16 → (b.setP n q).p m = if m = n ∧ n < 15 then q else b.p m) ∧
  (∀ s c g f b x n, x.kind = .vreg → ∃ v, readSrc s c g f b x n = .ok (.bits v) ∧ GroupValue b.v x.num.toNat n v) ∧
  (∀ s c g f b x n, x.kind = .scalar → ∃ v, readSrc s c g f b x n = .ok (.bits v) ∧ GroupValue g.s x.num.toNat n v) ∧
  (∀ s c g f b x n, x.kind = .special → x.num.toNat < 0x40 → readSrc s c g f b x n = .ok (.const x.num.toNat)) ∧
  (∀ s c g f b x n, x.kind = .special → 0x40 ≤ x.num.toNat → x.num.toNat < 0x48 →
    readSrc s c g f b x n = .ok (.bits (g.fslots.getD (x.num.toNat - 0x40) 0 % 2 ^ 16))) ∧
  (∀ s c g f b x n, x.kind = .special → 0x50 ≤ x.num.toNat → x.num.toNat ≤ 0x52 →
    (b.live = true → ∃ v, readSrc s c g f b x n = .ok (.bits v) ∧ (v : Int) = if x.num.toNat = 0x50 then
        max 0 (64 - ((s.die (c.k / 16)).copyq.filter fun i => (tfind s.cards i).elim false fun y => !y.running).length : Int)
      else if x.num.toNat = 0x51 then
        max 0 (min 255 ((Config.halyardEntries g.vf : Int) - (s.items.filter fun p => p.2.kind == .task && p.2.vf == g.vf && !p.2.started).length))
      else max 0 (16 - ((s.core c.k).eng.filter fun e => !e.started).length : Int)) ∧
    (b.live = false → readSrc s c g f b x n = .ok (.bits 0))) ∧
  (∀ s c g f b x n, x.kind = .latch → n ≤ 2 → let l := tget Latch.empty (s.slice c.k c.sl).latches (x.num.toNat % 4)
    (∀ d, l.valid = true → tfind l.data f = some d → readSrc s c g f b x n = .ok (.bits (d % 2 ^ (32 * n)))) ∧
    (l.valid = false ∨ tfind l.data f = none →
      (∀ r, l.tag = some (c.gid, r, false) → ∃ v, readSrc s c g f b x n = .ok (.bits v) ∧ GroupValue b.v r n v) ∧
      (l.tag = none ∨ (∃ j r w, l.tag = some (j, r, w) ∧ (j ≠ c.gid ∨ w = true)) → readSrc s c g f b x n = .error .latchLost))) ∧
  (∀ s c g (h : Shape) f b x (i : Nat) src m om, laneOperands s c g h f b = .ok x → b.live = true → h.srcs[i]? = some (src, SrcUse.val m om) ∨ h.srcs[i]? = some (src, SrcUse.vs m om) →
    waitQueueOf src = none → ∃ v, x.ops[i]? = some v ∧ readSrc s c g f b src m = .ok v)

/-- R32, R34, R52, R65: which bundle a slice issues from, and what the control fields leave: STALL, YLD, the hold run, and the pair. -/
def Obligations.IssueControls : Prop :=
  (∀ (s : State) k sl b, s.pickBundle k sl = some b → (s.slice k sl).hold = none → (s.slice k sl).issuedAt ≠ some (s.cycleOf k) →
    let able (z : Bundle) : Prop := z ∈ (s.slice k sl).bundles ∧ (s.canIssue k sl z).isSome = true
    let count (z : Bundle) (q : Nat) : Nat := tget 0 (s.slice k sl).ages (256 * z.gid + q)
    let aged (z : Bundle) (n : Nat) : Prop := 64 ≤ n ∧ (∃ q ∈ z.quads, count z q = n) ∧ ∀ q ∈ z.quads, count z q ≤ n
    able b ∧
    ((∃ z, able z ∧ ∃ n, aged z n) → ∃ n, aged b n ∧ ∀ z m, able z → aged z m → m ≤ n) ∧
    ((∀ z, able z → ∀ n, ¬ aged z n) →
      ((∃ z, able z ∧ (s.slice k sl).lastGroup < z.gid) → (s.slice k sl).lastGroup < b.gid) ∧
      (∀ z, able z → ((s.slice k sl).lastGroup < b.gid → (s.slice k sl).lastGroup < z.gid) → b.gid ≤ z.gid) ∧
      ((∀ z, able z → ∀ q ∈ z.quads, q < 256) → ∀ z, able z → z.gid = b.gid → (b.yld = true → z.yld = true)))) ∧
  (∀ (s : State) k sl b n m, s.pickBundle k sl = some b → (s.slice k sl).hold = some (n, m) →
    (s.slice k sl).issuedAt ≠ some (s.cycleOf k) → b.num = n) ∧
  (∀ (s : State) i trapped c h g, s.cur = some c → i.shape = some h → s.group? c.gid = some g →
    ∃ t, s.endIssue i trapped = t ∧ t = { s with cur := none, groups := t.groups, cores := t.cores } ∧
      (∀ j, j ≠ c.k → t.core j = s.core j) ∧
      (∀ f b, f ∈ c.en → tfind g.fibres f = some b → ∃ b', t.fibre? c.gid f = some b' ∧ b' = { b with stallUntil := b'.stallUntil } ∧
        b'.stallUntil = if (t.slice c.k c.sl).pairNext.isSome = true then s.cycleOf c.k else s.cycleOf c.k + 1 + h.ctl.stall.toNat) ∧
      (∀ f b, f ∉ c.en → tfind g.fibres f = some b → t.fibre? c.gid f = some b) ∧
      (∀ n, (t.slice c.k c.sl).pairNext = some n → n = c.num ∧ trapped = false ∧ h.cls ≤ 2 ∧ h.ctl.stall = 0 ∧ h.ctl.hold = false ∧
        ∃ line i2 h2 x, (s.core g.k).iline g.vf g.codePtr (c.pc / 64 * 64) = some line ∧ pcSlot c.pc = some x ∧ x ≤ 3 ∧
          linePair line.data x = true ∧ s.fetch g (c.pc + 12) = .instr i2 ∧ i2.shape = some h2 ∧
          ∀ r ∈ h2.reads, ∀ w ∈ (if h.dst.1.wbs = true then dst2Group h.oe.1 h.oe.2 else h.writes), r.1 + r.2 ≤ w.1 ∨ w.1 + w.2 ≤ r.1) ∧
      (∀ n m, (t.slice c.k c.sl).hold = some (n, m) → n = c.num ∧ trapped = false ∧ h.ctl.hold = true ∧ m < 8) ∧
      (∀ b ∈ (t.slice c.k c.sl).bundles, b.num = c.num → b.yld = h.ctl.yld))

/-- R48, R52, R61, R79: the code that the assembler lays out: every line's parity agrees and none is illegal; its slots are the
kernel's instructions in order and NOPs; a pair is admitted exactly where R52 admits it; the first slot, a labelled one and the one
after a CALL are targets; and a branch written to a slot goes there. -/
def Obligations.CodeLayout : Prop :=
  (∀ src l, l ∈ layOut src → lineParityOk l = true ∧ lineIllegal l = false ∧
    (∀ i, i ≤ 4 → lineSlot l i = nopSlot ∨ ∃ x ∈ src, lineSlot l i = (encode x.i).getD nopSlot) ∧
    ((∀ x ∈ src, x.i.WellFormed) → ∀ i, i < 4 →
      linePair l i = leads (decodeFields (lineSlot l i)) (decodeFields (lineSlot l (i + 1))))) ∧
  (∀ src, (∀ x ∈ src, x.align = none) → (layOut src).length = (src.length + 4) / 5 ∧
    ∀ n x, src[n]? = some x → ∃ l, (layOut src)[n / 5]? = some l ∧ lineSlot l (n % 5) = (encode x.i).getD nopSlot ∧
      (n = 0 ∨ x.label = true → lineMask l (n % 5) = true) ∧
      (isCall x.i = true → ∀ l, (layOut src)[(n + 1) / 5]? = some l → lineMask l ((n + 1) % 5) = true)) ∧
  (∀ (f : BFmt) pc target n, pc < 2 ^ 32 → target < 2 ^ 32 → slotAtPc target n →
    ∃ g, branchTo f pc target = some g ∧ g.target pc = target ∧ g = { f with disp := g.disp, tslot := g.tslot })

end
end

