-- ==== Sys2Proof/Laws/Memory.lean ====
section
/-! SUPPORT. The laws of tables and of memory: read after write, and the canonical form. -/

namespace Sys2Proof.Machine

section
variable {α : Type}

@[simp] theorem tfind_nil (k : Nat) : tfind ([] : Tab α) k = none := rfl

theorem tfind_cons (i : Nat) (v : α) (t : Tab α) (k : Nat) : tfind ((i, v) :: t) k = if i = k then some v else tfind t k := rfl

/-- A value listed under a key is found there, and no other key changes. -/
theorem tfind_tset (t : Tab α) (k j : Nat) (v : α) : tfind (tset t k v) j = if k = j then some v else tfind t j := by
  induction t with
  | nil => simp [tset, tfind]
  | cons p r ih =>
    obtain ⟨i, w⟩ := p
    simp only [tset]
    split
    · simp [tfind]
    · split
      · subst_vars
        by_cases h : i = j <;> simp [tfind, h]
      · simp only [tfind, ih]
        by_cases h1 : i = j <;> by_cases h2 : k = j <;> simp_all

/-- A removed key is not found, and no other key changes. -/
theorem tfind_tdel (t : Tab α) (k j : Nat) : tfind (tdel t k) j = if k = j then none else tfind t j := by
  induction t with
  | nil => simp [tdel]
  | cons p r ih =>
    obtain ⟨i, w⟩ := p
    simp only [tdel] at ih ⊢
    by_cases h : i = k
    · subst h
      simp only [ne_eq, not_true_eq_false, decide_false, Bool.false_eq_true, not_false_eq_true, List.filter_cons_of_neg]
      rw [ih]
      by_cases h2 : i = j <;> simp [tfind, h2]
    · simp only [ne_eq, h, not_false_eq_true, decide_true, List.filter_cons_of_pos, tfind, ih]
      by_cases h2 : i = j <;> by_cases h3 : k = j <;> simp_all

theorem tget_tset (d : α) (t : Tab α) (k j : Nat) (v : α) : tget d (tset t k v) j = if k = j then v else tget d t j := by
  simp only [tget, tfind_tset]
  split <;> rfl

/-- Read after write, where unlisted keys read as d. -/
theorem tget_tput [DecidableEq α] (d : α) (t : Tab α) (k j : Nat) (v : α) :
    tget d (tput d t k v) j = if k = j then v else tget d t j := by
  unfold tput
  split
  · simp only [tget, tfind_tdel]
    split <;> simp_all
  · exact tget_tset ..

theorem tfind_tmod (t : Tab α) (k j : Nat) (f : α → α) :
    tfind (tmod t k f) j = if k = j then (tfind t k).map f else tfind t j := by
  unfold tmod
  split
  · rename_i v h
    rw [tfind_tset]
    split <;> simp [h]
  · rename_i h
    split
    · subst_vars
      simp [h]
    · rfl

end

/-! ### Memory -/

/-- A byte written is read back, and no other byte changes. -/
theorem memByte_memPut (m : List Host.Cell) (a b : Nat) (x : Byte) :
    memByte (memPut m a x) b = if a = b then x else memByte m b := tget_tput ..

theorem risingFrom_mono {lo lo' : Nat} (h : lo' ≤ lo) {m : List Host.Cell} (hm : risingFrom lo m = true) :
    risingFrom lo' m = true := by
  cases m with
  | nil => rfl
  | cons p t => simp only [risingFrom, Bool.and_eq_true, decide_eq_true_eq] at hm ⊢; exact ⟨by omega, hm.2⟩

theorem risingFrom_tset {lo a : Nat} (x : Byte) (h : lo ≤ a) :
    ∀ {m : List Host.Cell}, risingFrom lo m = true → risingFrom lo (tset m a x) = true := by
  intro m
  induction m generalizing lo with
  | nil => intro _; simp [tset, risingFrom, h]
  | cons p t ih =>
    obtain ⟨i, w⟩ := p
    intro hm
    simp only [risingFrom, Bool.and_eq_true, decide_eq_true_eq] at hm
    simp only [tset]
    split
    · simp only [risingFrom, Bool.and_eq_true, decide_eq_true_eq]
      exact ⟨h, by omega, hm.2⟩
    · split
      · subst_vars
        simp only [risingFrom, Bool.and_eq_true, decide_eq_true_eq]
        exact ⟨h, hm.2⟩
      · simp only [risingFrom, Bool.and_eq_true, decide_eq_true_eq]
        exact ⟨hm.1, ih (by omega) hm.2⟩

theorem risingFrom_filter {lo : Nat} (q : Host.Cell → Bool) :
    ∀ {m : List Host.Cell}, risingFrom lo m = true → risingFrom lo (m.filter q) = true := by
  intro m
  induction m generalizing lo with
  | nil => intro _; rfl
  | cons p t ih =>
    obtain ⟨i, w⟩ := p
    intro hm
    simp only [risingFrom, Bool.and_eq_true, decide_eq_true_eq] at hm
    simp only [List.filter_cons]
    split
    · simp only [risingFrom, Bool.and_eq_true, decide_eq_true_eq]
      exact ⟨hm.1, ih hm.2⟩
    · exact risingFrom_mono (by omega) (ih hm.2)

theorem mem_tset {t : Tab Byte} {a : Nat} {x : Byte} {p : Nat × Byte} (h : p ∈ tset t a x) : p = (a, x) ∨ p ∈ t := by
  induction t with
  | nil => simpa [tset] using h
  | cons q r ih =>
    obtain ⟨i, w⟩ := q
    simp only [tset] at h
    split at h
    · simp only [List.mem_cons] at h ⊢
      tauto
    · split at h
      · simp only [List.mem_cons] at h ⊢
        tauto
      · simp only [List.mem_cons] at h ⊢
        rcases h with h | h
        · tauto
        · rcases ih h with h | h <;> tauto

/-- A byte write keeps the canonical form. -/
theorem memPut_wf {m : List Host.Cell} (a : Nat) (x : Byte) (h : Memory.wf m = true) : Memory.wf (memPut m a x) = true := by
  simp only [Memory.wf, Bool.and_eq_true, List.all_eq_true] at h ⊢
  unfold memPut tput
  split
  · refine ⟨risingFrom_filter _ h.1, fun p hp => h.2 p ?_⟩
    exact List.mem_of_mem_filter hp
  · refine ⟨risingFrom_tset x (Nat.zero_le a) h.1, fun p hp => ?_⟩
    rcases mem_tset hp with h1 | h1
    · subst h1
      simpa using ‹¬x = 0›
    · exact h.2 p h1

/-- Writing several bytes keeps the canonical form. -/
theorem memPuts_wf {m : List Host.Cell} (a : Nat) (bs : List Byte) (h : Memory.wf m = true) :
    Memory.wf (memPuts m a bs) = true := by
  induction bs generalizing m a with
  | nil => exact h
  | cons b t ih => exact ih _ (memPut_wf a b h)

/-- Clearing a range keeps the canonical form. -/
theorem memClear_wf {m : List Host.Cell} (a n : Nat) (h : Memory.wf m = true) : Memory.wf (memClear m a n) = true := by
  simp only [Memory.wf, Bool.and_eq_true, List.all_eq_true] at h ⊢
  exact ⟨risingFrom_filter _ h.1, fun p hp => h.2 p (List.mem_of_mem_filter hp)⟩

/-- Writing the bytes of a table keeps the canonical form. -/
theorem memPut_foldl_wf (base : Nat) (bs : Tab Byte) : ∀ {m : List Host.Cell}, Memory.wf m = true →
    Memory.wf (bs.foldl (fun m b => memPut m (base + b.1) b.2) m) = true := by
  induction bs with
  | nil => intro m h; exact h
  | cons b t ih => intro m h; exact ih (memPut_wf _ _ h)

end Sys2Proof.Machine
end

