-- ==== Sys2Proof/Laws/Lanes.lean ====
section
/-! SUPPORT. The shared frame of the lane instructions: what writing a result does to a fibre, what retiring an instruction
does to the state, and the law of `withLanes` where the operands are at hand. -/

namespace Sys2Proof.Machine

/-! ### One fibre -/

@[simp] theorem Fibre.v_setV (b : Fibre) (n m : Nat) (x : Word) : (b.setV n x).v m = if n = m then x else b.v m := by
  simp [Fibre.v, Fibre.setV, tget_tput]

@[simp] theorem Fibre.setV_preds (b : Fibre) (n : Nat) (x : Word) : (b.setV n x).preds = b.preds := rfl
@[simp] theorem Fibre.setV_fpst (b : Fibre) (n : Nat) (x : Word) : (b.setV n x).fpst = b.fpst := rfl
@[simp] theorem Fibre.setV_live (b : Fibre) (n : Nat) (x : Word) : (b.setV n x).live = b.live := rfl
@[simp] theorem Fibre.setV_pc (b : Fibre) (n : Nat) (x : Word) : (b.setV n x).pc = b.pc := rfl

/-- What a group of registers holds after a value is written to it. -/
theorem Fibre.v_setGroup (b : Fibre) (first n x m : Nat) :
    (b.setGroup first n x).v m =
      if first ≤ m ∧ m - first < n then BitVec.ofNat 32 (x / 2 ^ (32 * (m - first))) else b.v m := by
  induction n generalizing b first x with
  | zero => simp [Fibre.setGroup]
  | succ k ih =>
    rw [Fibre.setGroup, ih, Fibre.v_setV]
    by_cases h1 : first = m
    · subst h1
      simp
    · by_cases h2 : first + 1 ≤ m ∧ m - (first + 1) < k
      · have h3 : first ≤ m ∧ m - first < k + 1 := by omega
        rw [if_pos h2, if_pos h3, Nat.div_div_eq_div_mul, ← Nat.pow_add]
        congr 3
        omega
      · have h3 : ¬(first ≤ m ∧ m - first < k + 1) := by omega
        rw [if_neg h2, if_neg h3, if_neg h1]

/-- Writing registers changes nothing else of a fibre. -/
theorem Fibre.setGroup_rest (b : Fibre) (first n x : Nat) :
    b.setGroup first n x = { b with regs := (b.setGroup first n x).regs } := by
  induction n generalizing b first x with
  | zero => rfl
  | succ k ih =>
    rw [Fibre.setGroup, ih]
    rfl

@[simp] theorem Fibre.setGroup_preds (b : Fibre) (first n x : Nat) : (b.setGroup first n x).preds = b.preds := by
  rw [Fibre.setGroup_rest]
@[simp] theorem Fibre.setGroup_fpst (b : Fibre) (first n x : Nat) : (b.setGroup first n x).fpst = b.fpst := by
  rw [Fibre.setGroup_rest]
@[simp] theorem Fibre.setGroup_live (b : Fibre) (first n x : Nat) : (b.setGroup first n x).live = b.live := by
  rw [Fibre.setGroup_rest]

theorem Fibre.setP_rest (b : Fibre) (n : Nat) (q : Bool) : b.setP n q = { b with preds := (b.setP n q).preds } := by
  unfold Fibre.setP
  split <;> rfl

@[simp] theorem Fibre.v_setP (b : Fibre) (n m : Nat) (q : Bool) : (b.setP n q).v m = b.v m := by
  unfold Fibre.setP Fibre.v
  split <;> rfl

/-- A predicate after another or the same is written: p15 reads as true. -/
theorem Fibre.p_setP (b : Fibre) (n m : Nat) (q : Bool) (hm : m < 15) :
    (b.setP n q).p m = if m = n then q else b.p m := by
  unfold Fibre.setP Fibre.p
  have h15 : ¬m = 15 := by omega
  have e (j : Nat) (hj : j < 15) : (BitVec.ofNat 16 (2 ^ j)).getLsbD m = decide (m = j) := by
    rw [BitVec.getLsbD_ofNat]
    by_cases h : m = j
    · subst h; simp [Nat.testBit_two_pow_self]; omega
    · simp [Nat.testBit_two_pow_of_ne (Ne.symm h), h]
  have hm16 : m < 16 := by omega
  split
  · have : ¬m = n := by omega
    simp [this]
  · have hn : n < 15 := by omega
    by_cases h : m = n
    · subst h
      have e1 := e m hn
      simp only [decide_true] at e1
      cases q <;> simp only [h15, decide_false, Bool.false_or, if_true, if_false, Bool.false_eq_true, BitVec.getLsbD_or,
        BitVec.getLsbD_and, BitVec.getLsbD_not, e1, hm16, decide_true, Bool.not_true, Bool.and_false, Bool.or_true]
    · have e1 := e n hn
      simp only [h, decide_false] at e1
      cases q <;> simp only [h15, h, decide_false, Bool.false_or, if_true, if_false, Bool.false_eq_true, BitVec.getLsbD_or,
        BitVec.getLsbD_and, BitVec.getLsbD_not, e1, hm16, decide_true, Bool.not_false, Bool.and_true, Bool.or_false]

theorem Fibre.p_fifteen (b : Fibre) : b.p 15 = true := by simp [Fibre.p]

/-- V2P's masked write (R129). -/
theorem pw_bit (p : BitVec 16) (m x n : Nat) (hn : n < 15) :
    ((p &&& ~~~(BitVec.ofNat 16 (m % 2 ^ 15))) ||| (BitVec.ofNat 16 x &&& BitVec.ofNat 16 (m % 2 ^ 15))).getLsbD n =
      if m.testBit n then x.testBit n else p.getLsbD n := by
  have h16 : n < 16 := by omega
  have e : (BitVec.ofNat 16 (m % 2 ^ 15)).getLsbD n = m.testBit n := by
    rw [BitVec.getLsbD_ofNat, Nat.testBit_mod_two_pow]
    simp [hn, h16]
  have f : (BitVec.ofNat 16 x).getLsbD n = x.testBit n := by
    rw [BitVec.getLsbD_ofNat]
    simp [h16]
  simp only [BitVec.getLsbD_or, BitVec.getLsbD_and, BitVec.getLsbD_not, e, f, h16, decide_true, Bool.true_and]
  cases m.testBit n <;> simp

/-! ### A result in a fibre -/

/-- Nothing but registers and predicates differs. -/
def Fibre.Near (b b' : Fibre) : Prop := b' = { b with regs := b'.regs, preds := b'.preds }

theorem Fibre.Near.refl (b : Fibre) : b.Near b := rfl

theorem Fibre.Near.trans {b c d : Fibre} (h1 : b.Near c) (h2 : c.Near d) : b.Near d := by
  unfold Fibre.Near at *
  rw [h2, h1]

theorem Fibre.setGroup_near (b : Fibre) (first n x : Nat) : b.Near (b.setGroup first n x) := by
  unfold Fibre.Near
  conv_lhs => rw [Fibre.setGroup_rest]
  rw [Fibre.setGroup_preds]

theorem Fibre.setP_near (b : Fibre) (n : Nat) (q : Bool) : b.Near (b.setP n q) := by
  unfold Fibre.Near Fibre.setP
  split <;> rfl

theorem Fibre.writeVal_near (b : Fibre) (h : Shape) (o : Option Nat) : b.Near (b.writeVal h o) := by
  cases o with
  | none => rfl
  | some x => simp only [Fibre.writeVal]; split; exacts [b.setGroup_near .., rfl]

theorem Fibre.writeP_near (b : Fibre) (h : Shape) (o : Option Bool) : b.Near (b.writeP h o) := by
  cases o with
  | none => rfl
  | some x => simp only [Fibre.writeP]; split; exacts [b.setP_near .., rfl]

theorem Fibre.writeVal2_near (b : Fibre) (h : Shape) (o : Option Nat) : b.Near (b.writeVal2 h o) := by
  cases o with
  | none => rfl
  | some x => simp only [Fibre.writeVal2]; split <;> rfl

theorem Fibre.writeMask_near (b : Fibre) (o : Option (Nat × Nat)) : b.Near (b.writeMask o) := by
  cases o <;> rfl

theorem Fibre.writeP2_near (b : Fibre) (h : Shape) (o : Option Bool) : b.Near (b.writeP2 h o) := by
  cases o with
  | none => rfl
  | some x => simp only [Fibre.writeP2]; split; exacts [b.setP_near .., rfl]

theorem Fibre.writeOut_near (b : Fibre) (h : Shape) (o : LaneOut) : b.Near (b.writeOut h o) :=
  ((((b.writeVal_near h o.val).trans (Fibre.writeP_near _ h o.p)).trans (Fibre.writeVal2_near _ h o.val2)).trans
    (Fibre.writeMask_near _ o.pw)).trans (Fibre.writeP2_near _ h o.p2)

theorem Fibre.v_writeMask (b : Fibre) (o : Option (Nat × Nat)) (n : Nat) : (b.writeMask o).v n = b.v n := by cases o <;> rfl

theorem Fibre.v_writeP (b : Fibre) (h : Shape) (o : Option Bool) (n : Nat) : (b.writeP h o).v n = b.v n := by
  cases o with
  | none => rfl
  | some x => simp only [Fibre.writeP]; split <;> simp

theorem Fibre.v_writeP2 (b : Fibre) (h : Shape) (o : Option Bool) (n : Nat) : (b.writeP2 h o).v n = b.v n := by
  cases o with
  | none => rfl
  | some x => simp only [Fibre.writeP2]; split <;> simp

/-- The registers after a result. -/
theorem Fibre.v_writeVal (b : Fibre) (h : Shape) (o : Option Nat) (n : Nat) :
    (b.writeVal h o).v n =
      match o with
      | some x =>
        if h.dst.1.kind = .vreg ∧ h.dst.1.wbs = false ∧ h.dst.1.num.toNat ≤ n ∧ n - h.dst.1.num.toNat < dstRegs h.dst.2 then
          BitVec.ofNat 32 (x / 2 ^ (32 * (n - h.dst.1.num.toNat)))
        else b.v n
      | none => b.v n := by
  cases o with
  | none => rfl
  | some x =>
    simp only [Fibre.writeVal]
    by_cases h1 : h.dst.1.kind = .vreg
    · by_cases h2 : h.dst.1.wbs = false
      · rw [if_pos ⟨h1, by rw [h2]; rfl⟩, Fibre.v_setGroup]
        simp only [h1, h2, true_and]
      · rw [if_neg (fun h => h2 (by simpa using h.2)), if_neg (fun h => h2 h.2.1)]
    · rw [if_neg (fun h => h1 h.1), if_neg (fun h => h1 h.1)]

theorem Fibre.v_writeVal2 (b : Fibre) (h : Shape) (o : Option Nat) (n : Nat) :
    (b.writeVal2 h o).v n =
      match o with
      | some y => if hasDst2 h.oe.1 h.oe.2 = true ∧ n = h.oe.1.num.toNat then BitVec.ofNat 32 y else b.v n
      | none => b.v n := by
  cases o with
  | none => rfl
  | some y =>
    simp only [Fibre.writeVal2]
    by_cases h1 : hasDst2 h.oe.1 h.oe.2 = true
    · rw [if_pos h1, Fibre.v_setV]
      simp only [h1, true_and, eq_comm]
    · rw [if_neg h1, if_neg (fun h => h1 h.1)]

/-- The registers after a result. -/
theorem Fibre.v_writeOut (b : Fibre) (h : Shape) (o : LaneOut) (n : Nat) : (b.writeOut h o).v n = regAfter h b o n := by
  unfold Fibre.writeOut regAfter
  rw [Fibre.v_writeP2, Fibre.v_writeMask, Fibre.v_writeVal2]
  rcases o with ⟨val, val2, p, p2, pw, fl⟩
  cases val <;> cases val2 <;> simp only [Fibre.v_writeP, Fibre.v_writeVal]

theorem Fibre.p_of_preds {b b' : Fibre} (h : b'.preds = b.preds) (n : Nat) : b'.p n = b.p n := by
  unfold Fibre.p
  rw [h]

theorem Fibre.writeVal_preds (b : Fibre) (h : Shape) (o : Option Nat) : (b.writeVal h o).preds = b.preds := by
  cases o with
  | none => rfl
  | some x => simp only [Fibre.writeVal]; split <;> simp

theorem Fibre.writeVal2_preds (b : Fibre) (h : Shape) (o : Option Nat) : (b.writeVal2 h o).preds = b.preds := by
  cases o with
  | none => rfl
  | some x => simp only [Fibre.writeVal2]; split <;> rfl

/-- The predicates after a result. -/
theorem Fibre.p_writeOut (b : Fibre) (h : Shape) (o : LaneOut) (n : Nat) (hn : n < 16) :
    (b.writeOut h o).p n = predAfter h b o n := by
  by_cases h15 : n = 15
  · subst h15; simp [Fibre.p, predAfter]
  · have hn' : n < 15 := by omega
    have e1 : ((b.writeVal h o.val).writeP h o.p).p n = predAfter.plain h b o n := by
      unfold predAfter.plain
      cases o.p with
      | none => exact Fibre.p_of_preds (Fibre.writeVal_preds ..) n
      | some q =>
        simp only [Fibre.writeP]
        split
        · rw [Fibre.p_setP _ _ _ _ hn']
          rw [Fibre.p_of_preds (Fibre.writeVal_preds b h o.val) n]
          split <;> simp_all
        · rw [Fibre.p_of_preds (Fibre.writeVal_preds b h o.val) n]
          simp_all
    have e2 : ((((b.writeVal h o.val).writeP h o.p).writeVal2 h o.val2).writeMask o.pw).p n = predAfter.first h b o n := by
      rw [← Fibre.p_of_preds (Fibre.writeVal2_preds _ h o.val2) n] at e1
      unfold predAfter.first
      cases hp : o.pw with
      | none => exact e1
      | some mx =>
        obtain ⟨m, x⟩ := mx
        simp only [← e1, hn', and_true]
        unfold Fibre.writeMask Fibre.p
        simp only [pw_bit _ _ _ _ hn', h15, decide_false, Bool.false_or]
    unfold predAfter Fibre.writeOut
    rw [if_neg h15]
    generalize ((((b.writeVal h o.val).writeP h o.p).writeVal2 h o.val2).writeMask o.pw) = d at *
    cases o.p2 with
    | none => exact e2
    | some q =>
      simp only [Fibre.writeP2]
      split
      · rw [Fibre.p_setP _ _ _ _ hn', e2]
        split <;> simp_all
      · rw [e2]
        simp_all

/-! ### Tables of fibres -/

section
variable {α β : Type}

/-- Entries under other keys stay. -/
theorem tfind_foldl_tmod_other (l : List β) (key : β → Nat) (F : β → α → α) (f : Nat) (h : ∀ o ∈ l, key o ≠ f) (t : Tab α) :
    tfind (l.foldl (fun t o => tmod t (key o) (F o)) t) f = tfind t f := by
  induction l generalizing t with
  | nil => rfl
  | cons o r ih =>
    rw [List.foldl_cons, ih (fun x hx => h x (List.mem_cons_of_mem _ hx)), tfind_tmod, if_neg (h o List.mem_cons_self)]

/-- What each change of an entry establishes and keeps holds of the entry at the end. -/
theorem tfind_foldl_tmod (l : List β) (key : β → Nat) (F : β → α → α) (f : Nat) (I J : α → Prop)
    (h : ∀ o ∈ l, key o = f → ∀ b, I b ∨ J b → J (F o b)) {t : Tab α} {b : α} (ht : tfind t f = some b) (hb : I b ∨ J b) :
    ∃ b', tfind (l.foldl (fun t o => tmod t (key o) (F o)) t) f = some b' ∧
      ((∃ o ∈ l, key o = f) → J b') ∧ ((∀ o ∈ l, key o ≠ f) → b' = b) ∧ (J b → J b') := by
  induction l generalizing t b with
  | nil => exact ⟨b, ht, by simp, by simp, id⟩
  | cons o r ih =>
    have hr : ∀ x ∈ r, key x = f → ∀ b, I b ∨ J b → J (F x b) := fun x hx => h x (List.mem_cons_of_mem _ hx)
    rw [List.foldl_cons]
    by_cases hk : key o = f
    · have hj := h o List.mem_cons_self hk b hb
      obtain ⟨b', h1, h2, _, h4⟩ := ih hr (t := tmod t (key o) (F o)) (b := F o b)
        (by rw [tfind_tmod, if_pos hk, hk, ht]; rfl) (.inr hj)
      refine ⟨b', h1, fun _ => h4 hj, fun hn => absurd hk (hn o List.mem_cons_self), fun _ => h4 hj⟩
    · obtain ⟨b', h1, h2, h3, h4⟩ := ih hr (t := tmod t (key o) (F o)) (b := b)
        (by rw [tfind_tmod, if_neg hk]; exact ht) hb
      refine ⟨b', h1, ?_, fun hn => h3 fun x hx => hn x (List.mem_cons_of_mem _ hx), h4⟩
      rintro ⟨x, hx, hxf⟩
      rcases List.mem_cons.mp hx with rfl | hx
      · exact absurd hxf hk
      · exact h2 ⟨x, hx, hxf⟩

end

/-! ### The fibres of a group -/

/-- A fibre whose PC alone differs. -/
theorem moveTo_find (g : Group) (fibs : List Nat) (pcOf : Nat → Nat) (f : Nat) (b : Fibre) (h : tfind g.fibres f = some b) :
    tfind (g.moveTo fibs pcOf).fibres f =
      some { b with pc := if f ∈ fibs then BitVec.ofNat 32 (pcOf f) else b.pc } := by
  obtain ⟨b', h1, h2, h3, _⟩ := tfind_foldl_tmod fibs id (fun f b => { b with pc := BitVec.ofNat 32 (pcOf f) }) f
    (fun x => x = b) (fun x => x = { b with pc := BitVec.ofNat 32 (pcOf f) })
    (fun o _ ho x hx => by simp only [id] at ho; subst ho; rcases hx with rfl | rfl <;> rfl) h (.inl rfl)
  show tfind (fibs.foldl _ g.fibres) f = _
  rw [show (fun t f => tmod t f fun b => { b with pc := BitVec.ofNat 32 (pcOf f) }) =
    (fun t o => tmod t (id o) ((fun f b => { b with pc := BitVec.ofNat 32 (pcOf f) } : Nat → Fibre → Fibre) o)) from rfl, h1]
  by_cases hf : f ∈ fibs
  · rw [if_pos hf, h2 ⟨f, hf, rfl⟩]
  · rw [if_neg hf, h3 fun o ho => fun h => hf (h ▸ ho)]

/-- Helpers take their lead's PC; a live fibre stays as it is. -/
theorem alignHelpers_find (g : Group) (quads : List Nat) (f : Nat) (b : Fibre) (h : tfind g.fibres f = some b) :
    ∃ pc, tfind (g.alignHelpers quads).fibres f = some { b with pc := pc } ∧ (b.live = true → pc = b.pc) := by
  unfold Group.alignHelpers
  generalize g.lead = lead
  simp only
  generalize g.fibres = t at h
  suffices H : ∀ (t : Tab Fibre) (pc0 : Word), tfind t f = some { b with pc := pc0 } → (b.live = true → pc0 = b.pc) →
      ∃ pc, tfind (quads.foldl (fun t q =>
      match lead q with
      | some l =>
        match tfind t l with
        | some b => [0, 1, 2, 3].foldl (fun t i =>
            tmod t (4 * q + i) fun h => if h.live then h else { h with pc := b.pc }) t
        | none => t
      | none => t) t) f = some { b with pc := pc } ∧ (b.live = true → pc = b.pc) from H t b.pc h fun _ => rfl
  clear h t
  induction quads with
  | nil => intro t pc0 h hl; exact ⟨pc0, h, hl⟩
  | cons q r ih =>
    intro t pc0 h hl
    rw [List.foldl_cons]
    have key : ∀ (l : List Nat) (p : Word) (t : Tab Fibre) (pc0 : Word), tfind t f = some { b with pc := pc0 } →
        (b.live = true → pc0 = b.pc) → ∃ pc1, tfind (l.foldl (fun t i =>
          tmod t (4 * q + i) fun h => if h.live then h else { h with pc := p }) t) f = some { b with pc := pc1 } ∧
          (b.live = true → pc1 = b.pc) := by
      intro l p
      induction l with
      | nil => intro t pc0 h hl; exact ⟨pc0, h, hl⟩
      | cons i l ih2 =>
        intro t pc0 h hl
        rw [List.foldl_cons]
        by_cases hk : 4 * q + i = f
        · by_cases hb : b.live = true
          · refine ih2 _ pc0 ?_ hl
            rw [tfind_tmod, if_pos hk, hk, h]
            simp [hb]
          · refine ih2 _ p ?_ (fun h => absurd h hb)
            rw [tfind_tmod, if_pos hk, hk, h]
            simp [hb]
        · exact ih2 _ pc0 (by rw [tfind_tmod, if_neg hk]; exact h) hl
    split
    · split
      · obtain ⟨pc1, h1, h2⟩ := key [0, 1, 2, 3] _ t pc0 h hl
        exact ih _ pc1 h1 h2
      · exact ih _ pc0 h hl
    · exact ih _ pc0 h hl

/-- Registers, predicates, flags and the popped words alone may differ. -/
def Fibre.Far (b x : Fibre) : Prop := x = { b with regs := x.regs, preds := x.preds, fpst := x.fpst, popped := x.popped }

theorem Fibre.Far.trans {b c d : Fibre} (h1 : b.Far c) (h2 : c.Far d) : b.Far d := by
  unfold Fibre.Far at *
  rw [h2, h1]

theorem Fibre.Near.far {b c : Fibre} (h : b.Near c) : b.Far c := by
  unfold Fibre.Near at h
  unfold Fibre.Far
  rw [h]

theorem Fibre.Far.live {b c : Fibre} (h : b.Far c) : c.live = b.live := by rw [h]

theorem Fibre.raise_far (b : Fibre) (n : Nat) : b.Far (b.raise n) := by
  unfold Fibre.Far Fibre.raise
  split <;> rfl

/-- Fibre `x` is `b` with a result written: registers, predicates, flags and the popped words alone may differ. -/
structure Landed (h : Shape) (b x : Fibre) (o : LaneOut) : Prop where
  near : b.Far x
  wrote : Wrote h b x o

/-- The result of one fibre as `Group.writeOuts` writes it. -/
def Fibre.land (b : Fibre) (h : Shape) (o : LaneOut) : Fibre := { ((b.writeOut h o).raise o.flags) with popped := QReads.none }

theorem Fibre.land_far (b : Fibre) (h : Shape) (o : LaneOut) : b.Far (b.land h o) :=
  (((b.writeOut_near h o).far).trans ((b.writeOut h o).raise_far o.flags)).trans rfl

theorem Fibre.land_v (b : Fibre) (h : Shape) (o : LaneOut) (n : Nat) : (b.land h o).v n = regAfter h b o n := by
  rw [← Fibre.v_writeOut]
  unfold Fibre.land Fibre.raise Fibre.v
  split <;> rfl

theorem Fibre.land_p (b : Fibre) (h : Shape) (o : LaneOut) (n : Nat) (hn : n < 16) : (b.land h o).p n = predAfter h b o n := by
  rw [← Fibre.p_writeOut _ _ _ _ hn]
  apply Fibre.p_of_preds
  unfold Fibre.land Fibre.raise
  split <;> rfl

theorem Fibre.land_fpst (b : Fibre) (h : Shape) (o : LaneOut) :
    (b.land h o).fpst = if b.live then b.fpst ||| BitVec.ofNat 32 (o.flags % 32) else b.fpst := by
  have h1 := b.writeOut_near h o
  unfold Fibre.Near at h1
  have h2 : (b.writeOut h o).live = b.live := by rw [h1]
  have h3 : (b.writeOut h o).fpst = b.fpst := by rw [h1]
  unfold Fibre.land Fibre.raise
  rw [h2]
  split <;> simp [h3]

theorem regAfter_congr {h : Shape} {b x : Fibre} {o : LaneOut} (hx : ∀ n, x.v n = regAfter h b o n) (n : Nat) :
    regAfter h x o n = regAfter h b o n := by
  have e := hx n
  unfold regAfter at *
  rcases o with ⟨val, val2, p, p2, pw, fl⟩
  clear hx
  cases val <;> cases val2 <;> grind

theorem predAfter_congr {h : Shape} {b x : Fibre} {o : LaneOut} (hx : ∀ n, n < 16 → x.p n = predAfter h b o n) (n : Nat)
    (hn : n < 16) : predAfter h x o n = predAfter h b o n := by
  have e := hx n hn
  unfold predAfter predAfter.first predAfter.plain at *
  rcases o with ⟨val, val2, p, p2, pw, fl⟩
  clear hx
  cases p <;> cases p2 <;> cases pw <;> grind

/-- Writing a result lands it, and again once more changes nothing that counts. -/
theorem land_landed {h : Shape} {b x : Fibre} {o : LaneOut} (hx : x = b ∨ Landed h b x o) : Landed h b (x.land h o) o := by
  rcases hx with rfl | hx
  · exact ⟨x.land_far h o, ⟨x.land_v h o, x.land_p h o, x.land_fpst h o⟩⟩
  · have hl : x.live = b.live := hx.near.live
    refine ⟨hx.near.trans (x.land_far h o), ⟨?_, ?_, ?_⟩⟩
    · intro n; rw [Fibre.land_v, regAfter_congr hx.wrote.regs]
    · intro n hn; rw [Fibre.land_p _ _ _ _ hn, predAfter_congr hx.wrote.preds n hn]
    · rw [Fibre.land_fpst, hl, hx.wrote.fpst]
      split
      · rw [BitVec.or_assoc, BitVec.or_self]
      · rfl

/-- The fibres after the results of some of them are written: every result of one fibre is the same. -/
theorem writeOuts_find {g : Group} {h : Shape} {outs : List (Nat × LaneOut)} {f : Nat} {b : Fibre} {o : Option LaneOut}
    (hf : tfind g.fibres f = some b) (hall : ∀ p ∈ outs, p.1 = f → o = some p.2) (hmem : ∀ r, o = some r → (f, r) ∈ outs) :
    ∃ x, tfind (g.writeOuts h outs).fibres f = some x ∧ (∀ r, o = some r → Landed h b x r) ∧ (o = none → x = b) := by
  cases o with
  | none =>
    refine ⟨b, ?_, by simp, fun _ => rfl⟩
    show tfind (outs.foldl (fun t o => tmod t o.1 fun b => b.land h o.2) g.fibres) f = some b
    rw [tfind_foldl_tmod_other outs (·.1) (fun o b => b.land h o.2) f ?_ g.fibres, hf]
    intro p hp he
    have := hall p hp he
    cases this
  | some r =>
    obtain ⟨x, h1, h2, _, _⟩ := tfind_foldl_tmod outs (·.1) (fun o b => b.land h o.2) f (fun x => x = b)
      (fun x => Landed h b x r)
      (fun p hp he x hx => by
        have := hall p hp he
        cases this
        exact land_landed hx) hf (.inl rfl)
    refine ⟨x, h1, ?_, by simp⟩
    intro r' he
    cases he
    exact h2 ⟨(f, r), hmem r rfl, rfl⟩

/-! ### The operands and results of a bundle -/

/-- The result of a fibre that executes with its guard true. -/
def resultOf (u : State) (c : Cur) (g : Group) (h : Shape) (res : LaneIn → LaneOut) (f : Nat) : Option LaneOut :=
  (tfind g.fibres f).bind fun b => (argsOf u c g h f b).map res

theorem mem_computeLanes {u : State} {c : Cur} {g : Group} {h : Shape} {res : LaneIn → LaneOut} {l : List Nat}
    {f : Nat} {r : Except Blocked LaneOut} :
    (f, r) ∈ computeLanes u c g h res l ↔
      f ∈ l ∧ ∃ b, tfind g.fibres f = some b ∧ b.guard h.ctl = true ∧ r = (laneOperands u c g h f b).map res := by
  induction l with
  | nil => simp [computeLanes]
  | cons k t ih =>
    simp only [computeLanes]
    split
    · rename_i hk
      rw [ih]
      constructor
      · rintro ⟨h1, h2⟩; exact ⟨List.mem_cons_of_mem _ h1, h2⟩
      · rintro ⟨h1, b, h2, h3⟩
        rcases List.mem_cons.mp h1 with rfl | h1
        · rw [hk] at h2; cases h2
        · exact ⟨h1, b, h2, h3⟩
    · rename_i b hk
      split
      · rename_i hg
        rw [List.mem_cons, ih]
        constructor
        · rintro (he | ⟨h1, h2⟩)
          · cases he
            exact ⟨List.mem_cons_self, b, hk, hg, rfl⟩
          · exact ⟨List.mem_cons_of_mem _ h1, h2⟩
        · rintro ⟨h1, b', h2, h3, h4⟩
          rcases List.mem_cons.mp h1 with rfl | h1
          · rw [hk] at h2; cases h2; exact .inl (by rw [h4])
          · exact .inr ⟨h1, b', h2, h3, h4⟩
      · rename_i hg
        rw [ih]
        constructor
        · rintro ⟨h1, h2⟩; exact ⟨List.mem_cons_of_mem _ h1, h2⟩
        · rintro ⟨h1, b', h2, h3, h4⟩
          rcases List.mem_cons.mp h1 with rfl | h1
          · rw [hk] at h2; cases h2; exact absurd h3 hg
          · exact ⟨h1, b', h2, h3, h4⟩

/-- The results that `withLanes` hands on. -/
def outsOf (u : State) (c : Cur) (g : Group) (h : Shape) (res : LaneIn → LaneOut) : List (Nat × LaneOut) :=
  (computeLanes u c g h res (g.executing c)).filterMap fun r =>
    match r.2 with
    | .ok o => some (r.1, o)
    | .error _ => none

theorem mem_outsOf {u : State} {c : Cur} {g : Group} {h : Shape} {res : LaneIn → LaneOut} {f : Nat} {o : LaneOut} :
    (f, o) ∈ outsOf u c g h res ↔ resultOf u c g h res f = some o := by
  unfold outsOf resultOf argsOf
  simp only [List.mem_filterMap, Prod.exists, mem_computeLanes]
  constructor
  · rintro ⟨f', r, ⟨hf, b, hb, hg, hr⟩, he⟩
    subst hr
    rcases hl : laneOperands u c g h f' b with e | x <;> rw [hl] at he <;> cases he
    simp [hb, hf, hg, hl]
  · intro he
    simp only [Option.bind_eq_some_iff, Option.map_eq_some_iff] at he
    obtain ⟨b, hb, x, hx, rfl⟩ := he
    split at hx
    · rename_i hfg
      rcases hl : laneOperands u c g h f b with e | y <;> rw [hl] at hx <;> cases hx
      exact ⟨f, _, ⟨hfg.1, b, hb, hfg.2, rfl⟩, by rw [hl]; rfl⟩
    · cases hx

/-- The law of the shared beginning: with the operands at hand, an instruction is its own part, on every result. -/
theorem withLanes_ready {i : Instr} {s u : State} {c : Cur} {g : Group} {h : Shape} (hr : Ready i s u c g h)
    (res : LaneIn → LaneOut) (k : State → Cur → Group → Shape → List Nat → List (Nat × LaneOut) → State) :
    withLanes i s res k = .next (k u c g h (g.executing c) (outsOf u c g h res)) := by
  obtain ⟨g0, hg0, hw⟩ := hr.window
  have hc : ({ c with en := c.en.filter fun f => !([] : List Nat).contains f } : Cur) = c := by
    simp
  unfold withLanes
  rw [hr.cur]
  have hp : u.parkCapture c h [] = u := rfl
  simp only [hg0, hr.shape, hw, hr.queues, hc, hr.group, hp]
  rw [if_neg (by decide), if_neg]
  · rfl
  · intro hne
    rw [Bool.not_eq_true', List.isEmpty_eq_false_iff] at hne
    apply hne
    rw [List.filterMap_eq_nil_iff]
    rintro ⟨f, r⟩ hm
    obtain ⟨hf, b, hb, hg, rfl⟩ := mem_computeLanes.mp hm
    obtain ⟨x, hx⟩ := hr.operands f hf b hb hg
    rw [hx]
    rfl

/-! ### The end of an instruction -/

/-- From `s` to `t` only slices change. -/
structure SlicesOnly (s t : State) : Prop where
  rest : t = { s with cores := t.cores }
  cores : ∀ k, t.core k = { s.core k with slices := (t.core k).slices }

theorem SlicesOnly.refl (s : State) : SlicesOnly s s := ⟨rfl, fun _ => rfl⟩

theorem SlicesOnly.trans {s t u : State} (h1 : SlicesOnly s t) (h2 : SlicesOnly t u) : SlicesOnly s u := by
  refine ⟨?_, fun k => ?_⟩
  · rw [h2.rest, h1.rest]
  · rw [h2.cores k, h1.cores k]

theorem State.core_modSlice (s : State) (k i : Nat) (f : Slice → Slice) (j : Nat) :
    (s.modSlice k i f).core j = if k = j then { s.core k with slices := tset (s.core k).slices i (f ((s.core k).slice i)) }
      else s.core j := by
  unfold State.modSlice State.modCore State.core
  rw [tget_tset]

theorem State.modSlice_only (s : State) (k i : Nat) (f : Slice → Slice) : SlicesOnly s (s.modSlice k i f) := by
  refine ⟨rfl, fun j => ?_⟩
  rw [State.core_modSlice]
  split
  · subst_vars; rfl
  · rfl

theorem State.slice_modSlice (s : State) (k i : Nat) (f : Slice → Slice) (a b : Nat) :
    (s.modSlice k i f).slice a b = if k = a ∧ i = b then f (s.slice k i) else s.slice a b := by
  unfold State.slice
  rw [State.core_modSlice]
  by_cases h1 : k = a
  · subst h1
    rw [if_pos rfl]
    unfold Core.slice
    rw [tget_tset]
    simp
  · rw [if_neg h1, if_neg (fun h => h1 h.1)]

theorem SlicesOnly.groups {s t : State} (h : SlicesOnly s t) : t.groups = s.groups := by rw [h.rest]

theorem State.capture_only (s : State) (k sl gid : Nat) (h : Shape) (vals : List (Nat × Nat)) :
    SlicesOnly s (s.capture k sl gid h vals) := by
  unfold State.capture
  simp only
  split
  · exact s.modSlice_only ..
  · exact .refl s

theorem State.settle_only (s : State) (c : Cur) : SlicesOnly s (s.settle c) := by
  unfold State.settle
  split
  · exact s.modSlice_only ..
  · simp only
    split <;> exact s.modSlice_only ..

/-- A bundle that goes on or ends leaves the latches. -/
theorem State.settle_latches (s : State) (c : Cur) (a b : Nat) : ((s.settle c).slice a b).latches = (s.slice a b).latches := by
  unfold State.settle
  split
  · rw [State.slice_modSlice]; split
    · rename_i h; rw [h.1, h.2]
    · rfl
  · simp only
    split <;>
    · rw [State.slice_modSlice]; split
      · rename_i h; rw [h.1, h.2]
      · rfl

theorem State.group_setGroup (s : State) (gid : Nat) (g : Group) (j : Nat) :
    (s.setGroup gid g).group? j = if gid = j then some g else s.group? j := tfind_tset ..

theorem State.group_modGroup (s : State) (gid : Nat) (f : Group → Group) (j : Nat) :
    (s.modGroup gid f).group? j = if gid = j then (s.group? gid).map f else s.group? j := tfind_tmod ..

theorem alignHelpers_rest (g : Group) (quads : List Nat) :
    g.alignHelpers quads = { g with fibres := (g.alignHelpers quads).fibres } := rfl

/-- A group replaced by one that differs in its fibres alone, and slices. -/
theorem fibresOnly_of {u t : State} {gid : Nat} {g g1 : Group}
    (h1 : g1 = { g with fibres := g1.fibres }) (ht : SlicesOnly (u.setGroup gid g1) t) : FibresOnly u t gid g := by
  have hg (j : Nat) : t.group? j = (u.setGroup gid g1).group? j := by unfold State.group?; rw [ht.groups]
  refine ⟨?_, fun k => ht.cores k, fun j hj => ?_, ⟨g1, ?_, h1⟩, ?_⟩
  · rw [ht.rest]; rfl
  · rw [hg, State.group_setGroup, if_neg (Ne.symm hj)]
  · rw [hg, State.group_setGroup, if_pos rfl]
  · intro a
    rw [ht.rest]
    exact ⟨rfl, rfl⟩

/-- What `finish` leaves: the group with its helpers aligned, and slices. -/
theorem State.finish_only (s : State) (c : Cur) (g : Group) (hg : s.group? c.gid = some g) :
    SlicesOnly (s.setGroup c.gid (g.alignHelpers c.quads)) (s.finish c) := by
  unfold State.finish
  have e : s.modGroup c.gid (fun g => g.alignHelpers c.quads) = s.setGroup c.gid (g.alignHelpers c.quads) := by
    unfold State.modGroup State.setGroup tmod
    unfold State.group? at hg
    rw [hg]
  rw [e]
  exact State.settle_only ..

theorem State.finish_latches (s : State) (c : Cur) (a b : Nat) : ((s.finish c).slice a b).latches = (s.slice a b).latches := by
  unfold State.finish
  rw [State.settle_latches]
  rfl

theorem tset_tset {α : Type} (t : Tab α) (k : Nat) (v w : α) : tset (tset t k v) k w = tset t k w := by
  induction t with
  | nil => simp [tset]
  | cons p r ih =>
    obtain ⟨i, x⟩ := p
    simp only [tset]
    split
    · simp [tset]
    · split
      · simp [tset]
      · rename_i h1 h2
        simp only [tset, ih]
        rw [if_neg h1, if_neg h2]

theorem SlicesOnly.setGroup {s t : State} (h : SlicesOnly s t) (gid : Nat) (g : Group) :
    SlicesOnly (s.setGroup gid g) (t.setGroup gid g) := by
  refine ⟨?_, h.cores⟩
  unfold State.setGroup
  rw [h.rest]

/-- The law of the end of an instruction. -/
theorem retireTo_ends {u : State} {c : Cur} {g : Group} {h : Shape} (res : LaneIn → LaneOut) (pcOf : Nat → Nat) : Ends u (u.retireTo c g h (g.executing c) (outsOf u c g h res) pcOf) c g h res pcOf := by
  generalize ho : outsOf u c g h res = outs
  have hmem : ∀ f o, (f, o) ∈ outs ↔ resultOf u c g h res f = some o := by intro f o; rw [← ho]; exact mem_outsOf
  let g1 := (g.writeOuts h outs).moveTo (g.executing c) pcOf
  obtain ⟨s1, e1, hs1⟩ : ∃ s1, u.retireTo c g h (g.executing c) outs pcOf = s1.finish c ∧
      SlicesOnly (u.setGroup c.gid g1) s1 := by
    refine ⟨_, rfl, ?_⟩
    split
    · exact .refl _
    · exact State.capture_only ..
  rw [e1]
  have hg1 : s1.group? c.gid = some g1 := by
    unfold State.group?; rw [hs1.groups]; exact (State.group_setGroup ..).trans (if_pos rfl)
  have ht := s1.finish_only c g1 hg1
  have hall : SlicesOnly (u.setGroup c.gid (g1.alignHelpers c.quads)) (s1.finish c) := by
    refine SlicesOnly.trans ?_ ht
    have := hs1.setGroup c.gid (g1.alignHelpers c.quads)
    unfold State.setGroup at this ⊢
    rw [tset_tset] at this
    exact this
  refine ⟨fibresOnly_of rfl hall, ?_⟩
  intro f b hb
  obtain ⟨x, hx, hxs, hxn⟩ := writeOuts_find (h := h) (outs := outs) (o := resultOf u c g h res f) hb
    (fun p hp he => by rw [← he]; exact (hmem p.1 p.2).mp hp) (fun r hr => (hmem f r).mpr hr)
  have hm := moveTo_find (g.writeOuts h outs) (g.executing c) pcOf f x hx
  obtain ⟨pc, ha, hpc⟩ := alignHelpers_find g1 c.quads f _ hm
  have hr : resultOf u c g h res f = (argsOf u c g h f b).map res := by unfold resultOf; rw [hb]; rfl
  rw [hr] at hxs hxn
  have hfar : b.Far x := by
    cases harg : argsOf u c g h f b with
    | none => rw [harg] at hxn; rw [hxn rfl]; rfl
    | some a => rw [harg] at hxs; exact (hxs _ rfl).near
  refine ⟨{ x with pc := pc }, ?_, ?_, ?_, ?_⟩
  · show (((s1.finish c).group? c.gid).bind fun g => tfind g.fibres f) = _
    have : (s1.finish c).group? c.gid = some (g1.alignHelpers c.quads) := by
      unfold State.group?; rw [hall.groups]; exact (State.group_setGroup ..).trans (if_pos rfl)
    rw [this]
    exact ha
  · unfold Fibre.Far at hfar
    conv_lhs => rw [hfar]
  · cases harg : argsOf u c g h f b with
    | none => rw [harg] at hxn; rw [hxn rfl]; exact ⟨rfl, rfl, rfl⟩
    | some a =>
      rw [harg] at hxs
      have hw := (hxs _ rfl).wrote
      exact ⟨fun n => hw.regs n, fun n hn => hw.preds n hn, hw.fpst⟩
  · intro hl
    have hpx : x.pc = b.pc := by unfold Fibre.Far at hfar; rw [hfar]
    have := hpc (by show x.live = true; rw [hfar.live]; exact hl)
    show pc = _
    rw [this]
    show (if f ∈ g.executing c then BitVec.ofNat 32 (pcOf f) else x.pc) = _
    rw [hpx]

/-- A fold that lists values under keys holds the value of a key that has one. -/
theorem tfind_foldl_tset {α : Type} (l : List (Nat × α)) (f : Nat) (v : α) (h : ∀ p ∈ l, p.1 = f → p.2 = v) (t : Tab α)
    (ht : (∃ p ∈ l, p.1 = f) ∨ tfind t f = some v) : tfind (l.foldl (fun t p => tset t p.1 p.2) t) f = some v := by
  induction l generalizing t with
  | nil =>
    rcases ht with ⟨p, hp, _⟩ | ht
    · cases hp
    · exact ht
  | cons p r ih =>
    rw [List.foldl_cons]
    apply ih (fun q hq => h q (List.mem_cons_of_mem _ hq))
    by_cases hp : p.1 = f
    · right
      rw [tfind_tset, if_pos hp, h p List.mem_cons_self hp]
    · rcases ht with ⟨q, hq, hqf⟩ | ht
      · rcases List.mem_cons.mp hq with rfl | hq
        · exact absurd hqf hp
        · exact .inl ⟨q, hq, hqf⟩
      · right
        rw [tfind_tset, if_neg hp]
        exact ht

/-- The law of captures. -/
theorem retireTo_captured {u : State} {c : Cur} {g : Group} {h : Shape} (res : LaneIn → LaneOut) (pcOf : Nat → Nat) :
    Captured u (u.retireTo c g h (g.executing c) (outsOf u c g h res) pcOf) c g h res := by
  intro hcap hkind
  generalize ho : outsOf u c g h res = outs
  have hmem : ∀ f o, (f, o) ∈ outs ↔ resultOf u c g h res f = some o := by intro f o; rw [← ho]; exact mem_outsOf
  unfold State.retireTo
  simp only
  rw [State.finish_latches]
  have hfun : (fun o : Nat × LaneOut => (tfind g.fibres o.1).elim true
      ((u.setGroup c.gid ((g.writeOuts h outs).moveTo (g.executing c) pcOf)).stillOpen c.k)) =
      fun o => (tfind g.fibres o.1).elim true (u.stillOpen c.k) := rfl
  rw [hfun]
  generalize hk : (outs.filter fun o => (tfind g.fibres o.1).elim true (u.stillOpen c.k)) = kept
  have hin : ∀ f b x, tfind g.fibres f = some b → argsOf u c g h f b = some x → u.stillOpen c.k b = true →
      (f, res x) ∈ kept := by
    intro f b x hb hx ho
    have hr : resultOf u c g h res f = some (res x) := by unfold resultOf; rw [hb]; simp [hx]
    rw [← hk, List.mem_filter]
    exact ⟨(hmem f _).mpr hr, by simp [hb, ho]⟩
  have hsub : ∀ o ∈ kept, o ∈ outs := by intro o ho; rw [← hk] at ho; exact (List.mem_filter.mp ho).1
  by_cases hskip : (kept.isEmpty && !outs.isEmpty) = true
  · rw [if_pos hskip]
    simp only [Bool.and_eq_true, List.isEmpty_iff, Bool.not_eq_true', List.isEmpty_eq_false_iff] at hskip
    refine ⟨fun hall => ?_, fun f b x v hb hx hv ho => ?_⟩
    · obtain ⟨o, ho⟩ := List.exists_mem_of_ne_nil _ hskip.2
      have h1 := (hmem o.1 o.2).mp ho
      unfold resultOf at h1
      simp only [Option.bind_eq_some_iff, Option.map_eq_some_iff] at h1
      obtain ⟨b, hb, x, hx, _⟩ := h1
      have := hin _ _ _ hb hx (hall _ _ _ hb hx)
      rw [hskip.1] at this
      cases this
    · have := hin _ _ _ hb hx ho
      rw [hskip.1] at this
      cases this
  rw [if_neg hskip]
  unfold State.capture
  simp only
  rw [if_pos ⟨hcap, hkind⟩, State.slice_modSlice, if_pos ⟨rfl, rfl⟩]
  simp only
  rw [tget_tset, if_pos rfl]
  refine ⟨fun _ => ⟨rfl, rfl⟩, ?_⟩
  intro f b x v hb hx hv ho
  have hr : resultOf u c g h res f = some (res x) := by unfold resultOf; rw [hb]; simp [hx]
  simp only
  have e : ∀ (l : List (Nat × Nat)) (t : Tab Nat), l.foldl (fun t v => tset t v.1 (v.2 % 2 ^ 64)) t =
      (l.map fun p => (p.1, p.2 % 2 ^ 64)).foldl (fun t p => tset t p.1 p.2) t := by
    intro l t
    rw [List.foldl_map]
  rw [e]
  apply tfind_foldl_tset
  · intro p hp hpf
    simp only [List.mem_map, List.mem_filterMap, Option.map_eq_some_iff] at hp
    obtain ⟨q, ⟨o, ho2, w, hw, rfl⟩, rfl⟩ := hp
    simp only at hpf
    have h1 := (hmem o.1 o.2).mp (hsub _ ho2)
    rw [hpf, hr, Option.some.injEq] at h1
    rw [← h1, hv, Option.some.injEq] at hw
    simp only [hw]
  · left
    refine ⟨(f, v % 2 ^ 64), ?_, rfl⟩
    simp only [List.mem_map, List.mem_filterMap, Option.map_eq_some_iff]
    exact ⟨(f, v), ⟨(f, res x), hin f b x hb hx ho, v, hv, rfl⟩, rfl⟩

/-- No fibre traps where no live fibre raises an enabled flag. -/
theorem trapping_nil {u : State} {c : Cur} {g : Group} {h : Shape} {res : LaneIn → LaneOut} (hn : NoTrap u c g h res) :
    trapping g (outsOf u c g h res) = [] := by
  unfold trapping
  rw [List.map_eq_nil_iff, List.filter_eq_nil_iff]
  rintro ⟨f, o⟩ ho
  have h1 := mem_outsOf.mp ho
  unfold resultOf at h1
  simp only [Option.bind_eq_some_iff, Option.map_eq_some_iff] at h1
  obtain ⟨b, hb, x, hx, rfl⟩ := h1
  rw [hb]
  simp only [Option.elim_some, Bool.and_eq_true, decide_eq_true_eq, not_and, Decidable.not_not]
  intro hl
  exact hn f b x hb hx hl

/-- The law of an instruction that each fibre computes alone: with its operands at hand and no enabled flag raised, it ends
with every result written, every capture made, and every fibre at the next slot. -/
theorem laneStep_ready {i : Instr} {s u : State} {c : Cur} {g : Group} {h : Shape} (hr : Ready i s u c g h)
    (res : LaneIn → LaneOut) (hn : NoTrap u c g h res) :
    ∃ t, laneStep i s res = .next t ∧ Ends u t c g h res (fun _ => seqPc c.pc) ∧ Captured u t c g h res := by
  refine ⟨_, ?_, retireTo_ends res _, retireTo_captured res _⟩
  unfold laneStep
  rw [withLanes_ready hr, trapping_nil hn]
  rfl

end Sys2Proof.Machine
end

