-- ==== Sys2Proof/Laws/State.lean ====
section
/-! SUPPORT. The small lemmas of State: each update changes its own part, which reads as the update says, and leaves every
other field alone. -/

namespace Sys2Proof.Machine

/-! ### A part reads as it was written -/

@[simp] theorem State.core_modCore (s : State) (k j : Nat) (f : Core → Core) :
    (s.modCore k f).core j = if k = j then f (s.core k) else s.core j := tget_tset _ s.cores k j _
@[simp] theorem State.die_modDie (s : State) (k j : Nat) (f : Die → Die) :
    (s.modDie k f).die j = if k = j then f (s.die k) else s.die j := tget_tset _ s.dies k j _
@[simp] theorem State.stack_modStack (s : State) (k j : Nat) (f : Stack → Stack) :
    (s.modStack k f).stack j = if k = j then f (s.stack k) else s.stack j := tget_tset _ s.stks k j _
@[simp] theorem State.agent_modAgent (s : State) (k j : Nat) (f : Agent → Agent) :
    (s.modAgent k f).agent j = if k = j then f (s.agent k) else s.agent j := tget_tset _ s.agents k j _
@[simp] theorem State.ctx_modCtx (s : State) (k j : Nat) (f : Ctx → Ctx) :
    (s.modCtx k f).ctx j = if k = j then f (s.ctx k) else s.ctx j := tget_tset _ s.ctxs k j _
@[simp] theorem State.gang_modGang (s : State) (k j : Nat) (f : Gang → Gang) :
    (s.modGang k f).gang j = if k = j then f (s.gang k) else s.gang j := tget_tset _ s.mh.gangs k j _

/-! ### Every other field stays -/

section
variable (s : State) (k : Nat) (f : Core → Core)
@[simp] theorem State.modCore_agenda : (s.modCore k f).agenda = s.agenda := rfl
@[simp] theorem State.modCore_cur : (s.modCore k f).cur = s.cur := rfl
@[simp] theorem State.modCore_freeCtr : (s.modCore k f).freeCtr = s.freeCtr := rfl
@[simp] theorem State.modCore_fabric : (s.modCore k f).fabric = s.fabric := rfl
@[simp] theorem State.modCore_ns : (s.modCore k f).ns = s.ns := rfl
@[simp] theorem State.modCore_mem : (s.modCore k f).mem = s.mem := rfl
@[simp] theorem State.modCore_pin : (s.modCore k f).pin = s.pin := rfl
@[simp] theorem State.modCore_groups : (s.modCore k f).groups = s.groups := rfl
@[simp] theorem State.modCore_dies : (s.modCore k f).dies = s.dies := rfl
@[simp] theorem State.modCore_agents : (s.modCore k f).agents = s.agents := rfl
@[simp] theorem State.modCore_stks : (s.modCore k f).stks = s.stks := rfl
@[simp] theorem State.modCore_ctxs : (s.modCore k f).ctxs = s.ctxs := rfl
@[simp] theorem State.modCore_mh : (s.modCore k f).mh = s.mh := rfl
@[simp] theorem State.modCore_accs : (s.modCore k f).accs = s.accs := rfl
@[simp] theorem State.modCore_nextAcc : (s.modCore k f).nextAcc = s.nextAcc := rfl
@[simp] theorem State.modCore_beats : (s.modCore k f).beats = s.beats := rfl
@[simp] theorem State.modCore_waiters : (s.modCore k f).waiters = s.waiters := rfl
@[simp] theorem State.modCore_mcas : (s.modCore k f).mcas = s.mcas := rfl
@[simp] theorem State.modCore_items : (s.modCore k f).items = s.items := rfl
@[simp] theorem State.modCore_cards : (s.modCore k f).cards = s.cards := rfl
@[simp] theorem State.modCore_fetched : (s.modCore k f).fetched = s.fetched := rfl
@[simp] theorem State.modCore_grids : (s.modCore k f).grids = s.grids := rfl
@[simp] theorem State.modCore_colls : (s.modCore k f).colls = s.colls := rfl
@[simp] theorem State.modCore_nextId : (s.modCore k f).nextId = s.nextId := rfl
@[simp] theorem State.modCore_out : (s.modCore k f).out = s.out := rfl
end

section
variable (s : State) (d : Nat) (f : Die → Die)
@[simp] theorem State.modDie_agenda : (s.modDie d f).agenda = s.agenda := rfl
@[simp] theorem State.modDie_cur : (s.modDie d f).cur = s.cur := rfl
@[simp] theorem State.modDie_freeCtr : (s.modDie d f).freeCtr = s.freeCtr := rfl
@[simp] theorem State.modDie_fabric : (s.modDie d f).fabric = s.fabric := rfl
@[simp] theorem State.modDie_ns : (s.modDie d f).ns = s.ns := rfl
@[simp] theorem State.modDie_mem : (s.modDie d f).mem = s.mem := rfl
@[simp] theorem State.modDie_pin : (s.modDie d f).pin = s.pin := rfl
@[simp] theorem State.modDie_groups : (s.modDie d f).groups = s.groups := rfl
@[simp] theorem State.modDie_cores : (s.modDie d f).cores = s.cores := rfl
@[simp] theorem State.modDie_agents : (s.modDie d f).agents = s.agents := rfl
@[simp] theorem State.modDie_stks : (s.modDie d f).stks = s.stks := rfl
@[simp] theorem State.modDie_ctxs : (s.modDie d f).ctxs = s.ctxs := rfl
@[simp] theorem State.modDie_mh : (s.modDie d f).mh = s.mh := rfl
@[simp] theorem State.modDie_accs : (s.modDie d f).accs = s.accs := rfl
@[simp] theorem State.modDie_nextAcc : (s.modDie d f).nextAcc = s.nextAcc := rfl
@[simp] theorem State.modDie_beats : (s.modDie d f).beats = s.beats := rfl
@[simp] theorem State.modDie_waiters : (s.modDie d f).waiters = s.waiters := rfl
@[simp] theorem State.modDie_mcas : (s.modDie d f).mcas = s.mcas := rfl
@[simp] theorem State.modDie_items : (s.modDie d f).items = s.items := rfl
@[simp] theorem State.modDie_cards : (s.modDie d f).cards = s.cards := rfl
@[simp] theorem State.modDie_fetched : (s.modDie d f).fetched = s.fetched := rfl
@[simp] theorem State.modDie_grids : (s.modDie d f).grids = s.grids := rfl
@[simp] theorem State.modDie_colls : (s.modDie d f).colls = s.colls := rfl
@[simp] theorem State.modDie_nextId : (s.modDie d f).nextId = s.nextId := rfl
@[simp] theorem State.modDie_out : (s.modDie d f).out = s.out := rfl
end

section
variable (s : State) (n : Nat) (f : Stack → Stack)
@[simp] theorem State.modStack_agenda : (s.modStack n f).agenda = s.agenda := rfl
@[simp] theorem State.modStack_cur : (s.modStack n f).cur = s.cur := rfl
@[simp] theorem State.modStack_freeCtr : (s.modStack n f).freeCtr = s.freeCtr := rfl
@[simp] theorem State.modStack_fabric : (s.modStack n f).fabric = s.fabric := rfl
@[simp] theorem State.modStack_ns : (s.modStack n f).ns = s.ns := rfl
@[simp] theorem State.modStack_mem : (s.modStack n f).mem = s.mem := rfl
@[simp] theorem State.modStack_pin : (s.modStack n f).pin = s.pin := rfl
@[simp] theorem State.modStack_groups : (s.modStack n f).groups = s.groups := rfl
@[simp] theorem State.modStack_cores : (s.modStack n f).cores = s.cores := rfl
@[simp] theorem State.modStack_dies : (s.modStack n f).dies = s.dies := rfl
@[simp] theorem State.modStack_agents : (s.modStack n f).agents = s.agents := rfl
@[simp] theorem State.modStack_ctxs : (s.modStack n f).ctxs = s.ctxs := rfl
@[simp] theorem State.modStack_mh : (s.modStack n f).mh = s.mh := rfl
@[simp] theorem State.modStack_accs : (s.modStack n f).accs = s.accs := rfl
@[simp] theorem State.modStack_nextAcc : (s.modStack n f).nextAcc = s.nextAcc := rfl
@[simp] theorem State.modStack_beats : (s.modStack n f).beats = s.beats := rfl
@[simp] theorem State.modStack_waiters : (s.modStack n f).waiters = s.waiters := rfl
@[simp] theorem State.modStack_mcas : (s.modStack n f).mcas = s.mcas := rfl
@[simp] theorem State.modStack_items : (s.modStack n f).items = s.items := rfl
@[simp] theorem State.modStack_cards : (s.modStack n f).cards = s.cards := rfl
@[simp] theorem State.modStack_fetched : (s.modStack n f).fetched = s.fetched := rfl
@[simp] theorem State.modStack_grids : (s.modStack n f).grids = s.grids := rfl
@[simp] theorem State.modStack_colls : (s.modStack n f).colls = s.colls := rfl
@[simp] theorem State.modStack_nextId : (s.modStack n f).nextId = s.nextId := rfl
@[simp] theorem State.modStack_out : (s.modStack n f).out = s.out := rfl
end

section
variable (s : State) (a : Nat) (f : Agent → Agent)
@[simp] theorem State.modAgent_agenda : (s.modAgent a f).agenda = s.agenda := rfl
@[simp] theorem State.modAgent_cur : (s.modAgent a f).cur = s.cur := rfl
@[simp] theorem State.modAgent_freeCtr : (s.modAgent a f).freeCtr = s.freeCtr := rfl
@[simp] theorem State.modAgent_fabric : (s.modAgent a f).fabric = s.fabric := rfl
@[simp] theorem State.modAgent_ns : (s.modAgent a f).ns = s.ns := rfl
@[simp] theorem State.modAgent_mem : (s.modAgent a f).mem = s.mem := rfl
@[simp] theorem State.modAgent_pin : (s.modAgent a f).pin = s.pin := rfl
@[simp] theorem State.modAgent_groups : (s.modAgent a f).groups = s.groups := rfl
@[simp] theorem State.modAgent_cores : (s.modAgent a f).cores = s.cores := rfl
@[simp] theorem State.modAgent_dies : (s.modAgent a f).dies = s.dies := rfl
@[simp] theorem State.modAgent_stks : (s.modAgent a f).stks = s.stks := rfl
@[simp] theorem State.modAgent_ctxs : (s.modAgent a f).ctxs = s.ctxs := rfl
@[simp] theorem State.modAgent_mh : (s.modAgent a f).mh = s.mh := rfl
@[simp] theorem State.modAgent_accs : (s.modAgent a f).accs = s.accs := rfl
@[simp] theorem State.modAgent_nextAcc : (s.modAgent a f).nextAcc = s.nextAcc := rfl
@[simp] theorem State.modAgent_beats : (s.modAgent a f).beats = s.beats := rfl
@[simp] theorem State.modAgent_waiters : (s.modAgent a f).waiters = s.waiters := rfl
@[simp] theorem State.modAgent_mcas : (s.modAgent a f).mcas = s.mcas := rfl
@[simp] theorem State.modAgent_items : (s.modAgent a f).items = s.items := rfl
@[simp] theorem State.modAgent_cards : (s.modAgent a f).cards = s.cards := rfl
@[simp] theorem State.modAgent_fetched : (s.modAgent a f).fetched = s.fetched := rfl
@[simp] theorem State.modAgent_grids : (s.modAgent a f).grids = s.grids := rfl
@[simp] theorem State.modAgent_colls : (s.modAgent a f).colls = s.colls := rfl
@[simp] theorem State.modAgent_nextId : (s.modAgent a f).nextId = s.nextId := rfl
@[simp] theorem State.modAgent_out : (s.modAgent a f).out = s.out := rfl
end

section
variable (s : State) (vf : Nat) (f : Ctx → Ctx)
@[simp] theorem State.modCtx_agenda : (s.modCtx vf f).agenda = s.agenda := rfl
@[simp] theorem State.modCtx_cur : (s.modCtx vf f).cur = s.cur := rfl
@[simp] theorem State.modCtx_freeCtr : (s.modCtx vf f).freeCtr = s.freeCtr := rfl
@[simp] theorem State.modCtx_fabric : (s.modCtx vf f).fabric = s.fabric := rfl
@[simp] theorem State.modCtx_ns : (s.modCtx vf f).ns = s.ns := rfl
@[simp] theorem State.modCtx_mem : (s.modCtx vf f).mem = s.mem := rfl
@[simp] theorem State.modCtx_pin : (s.modCtx vf f).pin = s.pin := rfl
@[simp] theorem State.modCtx_groups : (s.modCtx vf f).groups = s.groups := rfl
@[simp] theorem State.modCtx_cores : (s.modCtx vf f).cores = s.cores := rfl
@[simp] theorem State.modCtx_dies : (s.modCtx vf f).dies = s.dies := rfl
@[simp] theorem State.modCtx_agents : (s.modCtx vf f).agents = s.agents := rfl
@[simp] theorem State.modCtx_stks : (s.modCtx vf f).stks = s.stks := rfl
@[simp] theorem State.modCtx_mh : (s.modCtx vf f).mh = s.mh := rfl
@[simp] theorem State.modCtx_accs : (s.modCtx vf f).accs = s.accs := rfl
@[simp] theorem State.modCtx_nextAcc : (s.modCtx vf f).nextAcc = s.nextAcc := rfl
@[simp] theorem State.modCtx_beats : (s.modCtx vf f).beats = s.beats := rfl
@[simp] theorem State.modCtx_waiters : (s.modCtx vf f).waiters = s.waiters := rfl
@[simp] theorem State.modCtx_mcas : (s.modCtx vf f).mcas = s.mcas := rfl
@[simp] theorem State.modCtx_items : (s.modCtx vf f).items = s.items := rfl
@[simp] theorem State.modCtx_cards : (s.modCtx vf f).cards = s.cards := rfl
@[simp] theorem State.modCtx_fetched : (s.modCtx vf f).fetched = s.fetched := rfl
@[simp] theorem State.modCtx_grids : (s.modCtx vf f).grids = s.grids := rfl
@[simp] theorem State.modCtx_colls : (s.modCtx vf f).colls = s.colls := rfl
@[simp] theorem State.modCtx_nextId : (s.modCtx vf f).nextId = s.nextId := rfl
@[simp] theorem State.modCtx_out : (s.modCtx vf f).out = s.out := rfl
end

section
variable (s : State) (f : Masthead → Masthead)
@[simp] theorem State.modMh_agenda : (s.modMh f).agenda = s.agenda := rfl
@[simp] theorem State.modMh_cur : (s.modMh f).cur = s.cur := rfl
@[simp] theorem State.modMh_freeCtr : (s.modMh f).freeCtr = s.freeCtr := rfl
@[simp] theorem State.modMh_fabric : (s.modMh f).fabric = s.fabric := rfl
@[simp] theorem State.modMh_ns : (s.modMh f).ns = s.ns := rfl
@[simp] theorem State.modMh_mem : (s.modMh f).mem = s.mem := rfl
@[simp] theorem State.modMh_pin : (s.modMh f).pin = s.pin := rfl
@[simp] theorem State.modMh_groups : (s.modMh f).groups = s.groups := rfl
@[simp] theorem State.modMh_cores : (s.modMh f).cores = s.cores := rfl
@[simp] theorem State.modMh_dies : (s.modMh f).dies = s.dies := rfl
@[simp] theorem State.modMh_agents : (s.modMh f).agents = s.agents := rfl
@[simp] theorem State.modMh_stks : (s.modMh f).stks = s.stks := rfl
@[simp] theorem State.modMh_ctxs : (s.modMh f).ctxs = s.ctxs := rfl
@[simp] theorem State.modMh_accs : (s.modMh f).accs = s.accs := rfl
@[simp] theorem State.modMh_nextAcc : (s.modMh f).nextAcc = s.nextAcc := rfl
@[simp] theorem State.modMh_beats : (s.modMh f).beats = s.beats := rfl
@[simp] theorem State.modMh_waiters : (s.modMh f).waiters = s.waiters := rfl
@[simp] theorem State.modMh_mcas : (s.modMh f).mcas = s.mcas := rfl
@[simp] theorem State.modMh_items : (s.modMh f).items = s.items := rfl
@[simp] theorem State.modMh_cards : (s.modMh f).cards = s.cards := rfl
@[simp] theorem State.modMh_fetched : (s.modMh f).fetched = s.fetched := rfl
@[simp] theorem State.modMh_grids : (s.modMh f).grids = s.grids := rfl
@[simp] theorem State.modMh_colls : (s.modMh f).colls = s.colls := rfl
@[simp] theorem State.modMh_nextId : (s.modMh f).nextId = s.nextId := rfl
@[simp] theorem State.modMh_out : (s.modMh f).out = s.out := rfl
end

section
variable (s : State) (l : Nat) (f : Gang → Gang)
@[simp] theorem State.modGang_agenda : (s.modGang l f).agenda = s.agenda := rfl
@[simp] theorem State.modGang_cur : (s.modGang l f).cur = s.cur := rfl
@[simp] theorem State.modGang_freeCtr : (s.modGang l f).freeCtr = s.freeCtr := rfl
@[simp] theorem State.modGang_fabric : (s.modGang l f).fabric = s.fabric := rfl
@[simp] theorem State.modGang_ns : (s.modGang l f).ns = s.ns := rfl
@[simp] theorem State.modGang_mem : (s.modGang l f).mem = s.mem := rfl
@[simp] theorem State.modGang_pin : (s.modGang l f).pin = s.pin := rfl
@[simp] theorem State.modGang_groups : (s.modGang l f).groups = s.groups := rfl
@[simp] theorem State.modGang_cores : (s.modGang l f).cores = s.cores := rfl
@[simp] theorem State.modGang_dies : (s.modGang l f).dies = s.dies := rfl
@[simp] theorem State.modGang_agents : (s.modGang l f).agents = s.agents := rfl
@[simp] theorem State.modGang_stks : (s.modGang l f).stks = s.stks := rfl
@[simp] theorem State.modGang_ctxs : (s.modGang l f).ctxs = s.ctxs := rfl
@[simp] theorem State.modGang_accs : (s.modGang l f).accs = s.accs := rfl
@[simp] theorem State.modGang_nextAcc : (s.modGang l f).nextAcc = s.nextAcc := rfl
@[simp] theorem State.modGang_beats : (s.modGang l f).beats = s.beats := rfl
@[simp] theorem State.modGang_waiters : (s.modGang l f).waiters = s.waiters := rfl
@[simp] theorem State.modGang_mcas : (s.modGang l f).mcas = s.mcas := rfl
@[simp] theorem State.modGang_items : (s.modGang l f).items = s.items := rfl
@[simp] theorem State.modGang_cards : (s.modGang l f).cards = s.cards := rfl
@[simp] theorem State.modGang_fetched : (s.modGang l f).fetched = s.fetched := rfl
@[simp] theorem State.modGang_grids : (s.modGang l f).grids = s.grids := rfl
@[simp] theorem State.modGang_colls : (s.modGang l f).colls = s.colls := rfl
@[simp] theorem State.modGang_nextId : (s.modGang l f).nextId = s.nextId := rfl
@[simp] theorem State.modGang_out : (s.modGang l f).out = s.out := rfl
end

section
variable (s : State) (g : Nat) (v : Group)
@[simp] theorem State.setGroup_agenda : (s.setGroup g v).agenda = s.agenda := rfl
@[simp] theorem State.setGroup_cur : (s.setGroup g v).cur = s.cur := rfl
@[simp] theorem State.setGroup_freeCtr : (s.setGroup g v).freeCtr = s.freeCtr := rfl
@[simp] theorem State.setGroup_fabric : (s.setGroup g v).fabric = s.fabric := rfl
@[simp] theorem State.setGroup_ns : (s.setGroup g v).ns = s.ns := rfl
@[simp] theorem State.setGroup_mem : (s.setGroup g v).mem = s.mem := rfl
@[simp] theorem State.setGroup_pin : (s.setGroup g v).pin = s.pin := rfl
@[simp] theorem State.setGroup_cores : (s.setGroup g v).cores = s.cores := rfl
@[simp] theorem State.setGroup_dies : (s.setGroup g v).dies = s.dies := rfl
@[simp] theorem State.setGroup_agents : (s.setGroup g v).agents = s.agents := rfl
@[simp] theorem State.setGroup_stks : (s.setGroup g v).stks = s.stks := rfl
@[simp] theorem State.setGroup_ctxs : (s.setGroup g v).ctxs = s.ctxs := rfl
@[simp] theorem State.setGroup_mh : (s.setGroup g v).mh = s.mh := rfl
@[simp] theorem State.setGroup_accs : (s.setGroup g v).accs = s.accs := rfl
@[simp] theorem State.setGroup_nextAcc : (s.setGroup g v).nextAcc = s.nextAcc := rfl
@[simp] theorem State.setGroup_beats : (s.setGroup g v).beats = s.beats := rfl
@[simp] theorem State.setGroup_waiters : (s.setGroup g v).waiters = s.waiters := rfl
@[simp] theorem State.setGroup_mcas : (s.setGroup g v).mcas = s.mcas := rfl
@[simp] theorem State.setGroup_items : (s.setGroup g v).items = s.items := rfl
@[simp] theorem State.setGroup_cards : (s.setGroup g v).cards = s.cards := rfl
@[simp] theorem State.setGroup_fetched : (s.setGroup g v).fetched = s.fetched := rfl
@[simp] theorem State.setGroup_grids : (s.setGroup g v).grids = s.grids := rfl
@[simp] theorem State.setGroup_colls : (s.setGroup g v).colls = s.colls := rfl
@[simp] theorem State.setGroup_nextId : (s.setGroup g v).nextId = s.nextId := rfl
@[simp] theorem State.setGroup_out : (s.setGroup g v).out = s.out := rfl
end

section
variable (s : State) (g : Nat) (f : Group → Group)
@[simp] theorem State.modGroup_agenda : (s.modGroup g f).agenda = s.agenda := rfl
@[simp] theorem State.modGroup_cur : (s.modGroup g f).cur = s.cur := rfl
@[simp] theorem State.modGroup_freeCtr : (s.modGroup g f).freeCtr = s.freeCtr := rfl
@[simp] theorem State.modGroup_fabric : (s.modGroup g f).fabric = s.fabric := rfl
@[simp] theorem State.modGroup_ns : (s.modGroup g f).ns = s.ns := rfl
@[simp] theorem State.modGroup_mem : (s.modGroup g f).mem = s.mem := rfl
@[simp] theorem State.modGroup_pin : (s.modGroup g f).pin = s.pin := rfl
@[simp] theorem State.modGroup_cores : (s.modGroup g f).cores = s.cores := rfl
@[simp] theorem State.modGroup_dies : (s.modGroup g f).dies = s.dies := rfl
@[simp] theorem State.modGroup_agents : (s.modGroup g f).agents = s.agents := rfl
@[simp] theorem State.modGroup_stks : (s.modGroup g f).stks = s.stks := rfl
@[simp] theorem State.modGroup_ctxs : (s.modGroup g f).ctxs = s.ctxs := rfl
@[simp] theorem State.modGroup_mh : (s.modGroup g f).mh = s.mh := rfl
@[simp] theorem State.modGroup_accs : (s.modGroup g f).accs = s.accs := rfl
@[simp] theorem State.modGroup_nextAcc : (s.modGroup g f).nextAcc = s.nextAcc := rfl
@[simp] theorem State.modGroup_beats : (s.modGroup g f).beats = s.beats := rfl
@[simp] theorem State.modGroup_waiters : (s.modGroup g f).waiters = s.waiters := rfl
@[simp] theorem State.modGroup_mcas : (s.modGroup g f).mcas = s.mcas := rfl
@[simp] theorem State.modGroup_items : (s.modGroup g f).items = s.items := rfl
@[simp] theorem State.modGroup_cards : (s.modGroup g f).cards = s.cards := rfl
@[simp] theorem State.modGroup_fetched : (s.modGroup g f).fetched = s.fetched := rfl
@[simp] theorem State.modGroup_grids : (s.modGroup g f).grids = s.grids := rfl
@[simp] theorem State.modGroup_colls : (s.modGroup g f).colls = s.colls := rfl
@[simp] theorem State.modGroup_nextId : (s.modGroup g f).nextId = s.nextId := rfl
@[simp] theorem State.modGroup_out : (s.modGroup g f).out = s.out := rfl
end

section
variable (s : State) (g j : Nat) (f : Fibre → Fibre)
@[simp] theorem State.modFibre_agenda : (s.modFibre g j f).agenda = s.agenda := rfl
@[simp] theorem State.modFibre_cur : (s.modFibre g j f).cur = s.cur := rfl
@[simp] theorem State.modFibre_freeCtr : (s.modFibre g j f).freeCtr = s.freeCtr := rfl
@[simp] theorem State.modFibre_fabric : (s.modFibre g j f).fabric = s.fabric := rfl
@[simp] theorem State.modFibre_ns : (s.modFibre g j f).ns = s.ns := rfl
@[simp] theorem State.modFibre_mem : (s.modFibre g j f).mem = s.mem := rfl
@[simp] theorem State.modFibre_pin : (s.modFibre g j f).pin = s.pin := rfl
@[simp] theorem State.modFibre_cores : (s.modFibre g j f).cores = s.cores := rfl
@[simp] theorem State.modFibre_dies : (s.modFibre g j f).dies = s.dies := rfl
@[simp] theorem State.modFibre_agents : (s.modFibre g j f).agents = s.agents := rfl
@[simp] theorem State.modFibre_stks : (s.modFibre g j f).stks = s.stks := rfl
@[simp] theorem State.modFibre_ctxs : (s.modFibre g j f).ctxs = s.ctxs := rfl
@[simp] theorem State.modFibre_mh : (s.modFibre g j f).mh = s.mh := rfl
@[simp] theorem State.modFibre_accs : (s.modFibre g j f).accs = s.accs := rfl
@[simp] theorem State.modFibre_nextAcc : (s.modFibre g j f).nextAcc = s.nextAcc := rfl
@[simp] theorem State.modFibre_beats : (s.modFibre g j f).beats = s.beats := rfl
@[simp] theorem State.modFibre_waiters : (s.modFibre g j f).waiters = s.waiters := rfl
@[simp] theorem State.modFibre_mcas : (s.modFibre g j f).mcas = s.mcas := rfl
@[simp] theorem State.modFibre_items : (s.modFibre g j f).items = s.items := rfl
@[simp] theorem State.modFibre_cards : (s.modFibre g j f).cards = s.cards := rfl
@[simp] theorem State.modFibre_fetched : (s.modFibre g j f).fetched = s.fetched := rfl
@[simp] theorem State.modFibre_grids : (s.modFibre g j f).grids = s.grids := rfl
@[simp] theorem State.modFibre_colls : (s.modFibre g j f).colls = s.colls := rfl
@[simp] theorem State.modFibre_nextId : (s.modFibre g j f).nextId = s.nextId := rfl
@[simp] theorem State.modFibre_out : (s.modFibre g j f).out = s.out := rfl
end

section
variable (s : State) (k i : Nat) (f : Slice → Slice)
@[simp] theorem State.modSlice_agenda : (s.modSlice k i f).agenda = s.agenda := rfl
@[simp] theorem State.modSlice_cur : (s.modSlice k i f).cur = s.cur := rfl
@[simp] theorem State.modSlice_freeCtr : (s.modSlice k i f).freeCtr = s.freeCtr := rfl
@[simp] theorem State.modSlice_fabric : (s.modSlice k i f).fabric = s.fabric := rfl
@[simp] theorem State.modSlice_ns : (s.modSlice k i f).ns = s.ns := rfl
@[simp] theorem State.modSlice_mem : (s.modSlice k i f).mem = s.mem := rfl
@[simp] theorem State.modSlice_pin : (s.modSlice k i f).pin = s.pin := rfl
@[simp] theorem State.modSlice_groups : (s.modSlice k i f).groups = s.groups := rfl
@[simp] theorem State.modSlice_dies : (s.modSlice k i f).dies = s.dies := rfl
@[simp] theorem State.modSlice_agents : (s.modSlice k i f).agents = s.agents := rfl
@[simp] theorem State.modSlice_stks : (s.modSlice k i f).stks = s.stks := rfl
@[simp] theorem State.modSlice_ctxs : (s.modSlice k i f).ctxs = s.ctxs := rfl
@[simp] theorem State.modSlice_mh : (s.modSlice k i f).mh = s.mh := rfl
@[simp] theorem State.modSlice_accs : (s.modSlice k i f).accs = s.accs := rfl
@[simp] theorem State.modSlice_nextAcc : (s.modSlice k i f).nextAcc = s.nextAcc := rfl
@[simp] theorem State.modSlice_beats : (s.modSlice k i f).beats = s.beats := rfl
@[simp] theorem State.modSlice_waiters : (s.modSlice k i f).waiters = s.waiters := rfl
@[simp] theorem State.modSlice_mcas : (s.modSlice k i f).mcas = s.mcas := rfl
@[simp] theorem State.modSlice_items : (s.modSlice k i f).items = s.items := rfl
@[simp] theorem State.modSlice_cards : (s.modSlice k i f).cards = s.cards := rfl
@[simp] theorem State.modSlice_fetched : (s.modSlice k i f).fetched = s.fetched := rfl
@[simp] theorem State.modSlice_grids : (s.modSlice k i f).grids = s.grids := rfl
@[simp] theorem State.modSlice_colls : (s.modSlice k i f).colls = s.colls := rfl
@[simp] theorem State.modSlice_nextId : (s.modSlice k i f).nextId = s.nextId := rfl
@[simp] theorem State.modSlice_out : (s.modSlice k i f).out = s.out := rfl
end

section
variable (s : State) (o : Out)
@[simp] theorem State.emit_agenda : (s.emit o).agenda = s.agenda := rfl
@[simp] theorem State.emit_cur : (s.emit o).cur = s.cur := rfl
@[simp] theorem State.emit_freeCtr : (s.emit o).freeCtr = s.freeCtr := rfl
@[simp] theorem State.emit_fabric : (s.emit o).fabric = s.fabric := rfl
@[simp] theorem State.emit_ns : (s.emit o).ns = s.ns := rfl
@[simp] theorem State.emit_mem : (s.emit o).mem = s.mem := rfl
@[simp] theorem State.emit_pin : (s.emit o).pin = s.pin := rfl
@[simp] theorem State.emit_groups : (s.emit o).groups = s.groups := rfl
@[simp] theorem State.emit_cores : (s.emit o).cores = s.cores := rfl
@[simp] theorem State.emit_dies : (s.emit o).dies = s.dies := rfl
@[simp] theorem State.emit_agents : (s.emit o).agents = s.agents := rfl
@[simp] theorem State.emit_stks : (s.emit o).stks = s.stks := rfl
@[simp] theorem State.emit_ctxs : (s.emit o).ctxs = s.ctxs := rfl
@[simp] theorem State.emit_mh : (s.emit o).mh = s.mh := rfl
@[simp] theorem State.emit_accs : (s.emit o).accs = s.accs := rfl
@[simp] theorem State.emit_nextAcc : (s.emit o).nextAcc = s.nextAcc := rfl
@[simp] theorem State.emit_beats : (s.emit o).beats = s.beats := rfl
@[simp] theorem State.emit_waiters : (s.emit o).waiters = s.waiters := rfl
@[simp] theorem State.emit_mcas : (s.emit o).mcas = s.mcas := rfl
@[simp] theorem State.emit_items : (s.emit o).items = s.items := rfl
@[simp] theorem State.emit_cards : (s.emit o).cards = s.cards := rfl
@[simp] theorem State.emit_fetched : (s.emit o).fetched = s.fetched := rfl
@[simp] theorem State.emit_grids : (s.emit o).grids = s.grids := rfl
@[simp] theorem State.emit_colls : (s.emit o).colls = s.colls := rfl
@[simp] theorem State.emit_nextId : (s.emit o).nextId = s.nextId := rfl
end

section
variable (s : State) 
@[simp] theorem State.bump_agenda : s.bump.agenda = s.agenda := rfl
@[simp] theorem State.bump_cur : s.bump.cur = s.cur := rfl
@[simp] theorem State.bump_fabric : s.bump.fabric = s.fabric := rfl
@[simp] theorem State.bump_ns : s.bump.ns = s.ns := rfl
@[simp] theorem State.bump_mem : s.bump.mem = s.mem := rfl
@[simp] theorem State.bump_pin : s.bump.pin = s.pin := rfl
@[simp] theorem State.bump_groups : s.bump.groups = s.groups := rfl
@[simp] theorem State.bump_cores : s.bump.cores = s.cores := rfl
@[simp] theorem State.bump_dies : s.bump.dies = s.dies := rfl
@[simp] theorem State.bump_agents : s.bump.agents = s.agents := rfl
@[simp] theorem State.bump_stks : s.bump.stks = s.stks := rfl
@[simp] theorem State.bump_ctxs : s.bump.ctxs = s.ctxs := rfl
@[simp] theorem State.bump_mh : s.bump.mh = s.mh := rfl
@[simp] theorem State.bump_accs : s.bump.accs = s.accs := rfl
@[simp] theorem State.bump_nextAcc : s.bump.nextAcc = s.nextAcc := rfl
@[simp] theorem State.bump_beats : s.bump.beats = s.beats := rfl
@[simp] theorem State.bump_waiters : s.bump.waiters = s.waiters := rfl
@[simp] theorem State.bump_mcas : s.bump.mcas = s.mcas := rfl
@[simp] theorem State.bump_items : s.bump.items = s.items := rfl
@[simp] theorem State.bump_cards : s.bump.cards = s.cards := rfl
@[simp] theorem State.bump_fetched : s.bump.fetched = s.fetched := rfl
@[simp] theorem State.bump_grids : s.bump.grids = s.grids := rfl
@[simp] theorem State.bump_colls : s.bump.colls = s.colls := rfl
@[simp] theorem State.bump_nextId : s.bump.nextId = s.nextId := rfl
@[simp] theorem State.bump_out : s.bump.out = s.out := rfl
end

end Sys2Proof.Machine
end

