-- ==== Sys2Proof/Laws/StoreA.lean ====
section
/-! SUPPORT. The byte stores that the operations of Address.lean to Issue.lean leave alone: one lemma for each operation. -/

namespace Sys2Proof.Machine

/-- The two byte stores of a state: DRAM and pinned ways. -/
def State.store (s : State) : List Host.Cell × List Host.Cell := (s.mem, s.pin)

@[simp] theorem store_eta (s : State) : (s.mem, s.pin) = s.store := rfl

def Direct.state {α : Type} : Direct α → State
  | .wait s => s
  | .fault s _ => s
  | .ok s _ => s

@[simp] theorem Direct.state_wait {α : Type} (s : State) : (Direct.wait s : Direct α).state = s := rfl

@[simp] theorem Direct.state_fault {α : Type} (s : State) (c : Nat) : (Direct.fault s c : Direct α).state = s := rfl

@[simp] theorem Direct.state_ok {α : Type} (s : State) (v : α) : (Direct.ok s v).state = s := rfl

theorem foldl_store {α : Type} (f : State → α → State) (h : ∀ s x, (f s x).store = s.store) (l : List α) :
    ∀ s, (l.foldl f s).store = s.store := by
  induction l with
  | nil => intro s; rfl
  | cons x t ih => intro s; rw [List.foldl_cons, ih, h]

theorem foldl_store_pair {α β : Type} (f : State × β → α → State × β) (h : ∀ r x, (f r x).1.store = r.1.store)
    (l : List α) : ∀ r, (l.foldl f r).1.store = r.1.store := by
  induction l with
  | nil => intro r; rfl
  | cons x t ih => intro r; rw [List.foldl_cons, ih, h]

theorem elim_store {α : Type} (o : Option α) (s : State) (f : α → State) (h : ∀ x, (f x).store = s.store) :
    (o.elim s f).store = s.store := by cases o <;> simp_all

@[simp] theorem State.modCore_store (s : State) (k : Nat) (f : Core → Core) :
    (State.modCore s k f).store = s.store := by
  rfl

@[simp] theorem State.modDie_store (s : State) (d : Nat) (f : Die → Die) :
    (State.modDie s d f).store = s.store := by
  rfl

@[simp] theorem State.modStack_store (s : State) (n : Nat) (f : Stack → Stack) :
    (State.modStack s n f).store = s.store := by
  rfl

@[simp] theorem State.modAgent_store (s : State) (a : Nat) (f : Agent → Agent) :
    (State.modAgent s a f).store = s.store := by
  rfl

@[simp] theorem State.modCtx_store (s : State) (vf : Nat) (f : Ctx → Ctx) :
    (State.modCtx s vf f).store = s.store := by
  rfl

@[simp] theorem State.modMh_store (s : State) (f : Masthead → Masthead) :
    (State.modMh s f).store = s.store := by
  rfl

@[simp] theorem State.modGang_store (s : State) (l : Nat) (f : Gang → Gang) :
    (State.modGang s l f).store = s.store := by
  rfl

@[simp] theorem State.setGroup_store (s : State) (g : Nat) (v : Group) :
    (State.setGroup s g v).store = s.store := by
  rfl

@[simp] theorem State.modGroup_store (s : State) (g : Nat) (f : Group → Group) :
    (State.modGroup s g f).store = s.store := by
  rfl

@[simp] theorem State.modFibre_store (s : State) (g : Nat) (f : Nat) (h : Fibre → Fibre) :
    (State.modFibre s g f h).store = s.store := by
  rfl

@[simp] theorem State.modSlice_store (s : State) (k : Nat) (i : Nat) (f : Slice → Slice) :
    (State.modSlice s k i f).store = s.store := by
  rfl

@[simp] theorem State.emit_store (s : State) (o : Out) :
    (State.emit s o).store = s.store := by
  rfl

@[simp] theorem State.bump_store (s : State) :
    (State.bump s).store = s.store := by
  rfl

@[simp] theorem State.meshEvent_store (s : State) :
    (State.meshEvent s).store = s.store := by
  rfl

@[simp] theorem State.tamper_store (s : State) (st : Nat) :
    (State.tamper s st).store = s.store := by
  rfl

@[simp] theorem State.translate_store (s : State) (st : Nat) (vf : Nat) (sva : Nat) :
    (State.translate s st vf sva).1.store = s.store := by
  unfold State.translate; grind [State.bump_store, State.modStack_store, State.store]

@[simp] theorem State.physOf_store (s : State) (l : Loc) (write : Bool) :
    (State.physOf s l write).1.store = s.store := by
  unfold State.physOf; grind [State.translate_store, State.store, State.tamper_store]

@[simp] theorem State.lookFlags_store (s : State) (l : Loc) :
    (State.lookFlags s l).store = s.store := by
  unfold State.lookFlags; grind [State.physOf_store, State.tamper_store, State.store, foldl_store]

@[simp] theorem State.entryFlags_store (s : State) (vf : Nat) (idx : Nat) :
    (State.entryFlags s vf idx).store = s.store := by
  unfold State.entryFlags; grind [State.lookFlags_store, State.store, foldl_store]

@[simp] theorem State.send_store (s : State) (id : Nat) (a : Access) :
    (State.send s id a).store = s.store := by
  rfl

@[simp] theorem State.request_store (s : State) (a : Access) :
    (State.request s a).1.store = s.store := by
  unfold State.request; grind [State.send_store, State.store]

@[simp] theorem State.event_store (s : State) (src : Nat) :
    (State.event s src).store = s.store := by
  unfold State.event; grind [State.modAgent_store, State.store, foldl_store]

@[simp] theorem State.faultRecord_store (s : State) (vf : Nat) (src : Nat) (r : Rec) :
    (State.faultRecord s vf src r).store = s.store := by
  simp only [State.faultRecord]; (repeat' split) <;> simp_all [foldl_store]

@[simp] theorem State.dropBundles_store (s : State) (k : Nat) (gid : Nat) :
    (State.dropBundles s k gid).store = s.store := by
  rfl

@[simp] theorem State.stopGroup_store (s : State) (gid : Nat) (c : Nat) :
    (State.stopGroup s gid c).store = s.store := by
  unfold State.stopGroup; grind [State.dropBundles_store, State.setGroup_store, State.store]

@[simp] theorem State.endGroup_store (s : State) (gid : Nat) (c : Nat) (status : Nat) :
    (State.endGroup s gid c status).store = s.store := by
  simp only [State.endGroup]; (repeat' split) <;> grind [State.stopGroup_store, State.store, foldl_store]

@[simp] theorem State.takeFault_store (s : State) (gid : Nat) (c : Nat) (pc : Nat) (mask : Nat) (fib : Nat) (info : Nat) (eptr : Nat) :
    (State.takeFault s gid c pc mask fib info eptr).store = s.store := by
  unfold State.takeFault; grind [State.endGroup_store, State.faultRecord_store, State.store]

@[simp] theorem State.faultAt_store (s : State) (c : Cur) (cs : Nat) (fibs : List Nat) (info : Nat) (eptr : Nat) :
    (State.faultAt s c cs fibs info eptr).store = s.store := by
  simp [State.faultAt]

@[simp] theorem State.takeTrap_store (s : State) (c : Cur) (cs : Nat) (enter : List Nat) (marked : List Nat) (lane : Nat → Nat) (low : Nat → Nat) :
    (State.takeTrap s c cs enter marked lane low).store = s.store := by
  unfold State.takeTrap; grind [State.modSlice_store, State.setGroup_store, State.takeFault_store, State.store]

@[simp] theorem State.settle_store (s : State) (c : Cur) :
    (State.settle s c).store = s.store := by
  unfold State.settle; grind [State.modSlice_store, State.store]

@[simp] theorem State.finish_store (s : State) (c : Cur) :
    (State.finish s c).store = s.store := by
  simp [State.finish]

@[simp] theorem State.park_store (s : State) (gid : Nat) (fibs : List Nat) (p : Park) :
    (State.park s gid fibs p).store = s.store := by
  rfl

@[simp] theorem State.wake_store (s : State) (gid : Nat) (test : Park → Bool) :
    (State.wake s gid test).store = s.store := by
  rfl

@[simp] theorem State.popQueue_store (s : State) (k : Nat) (gid : Nat) (f : Nat) (n : Nat) (q : Nat) :
    (State.popQueue s k gid f n q).1.store = s.store := by
  unfold State.popQueue; grind [State.modCore_store, State.store]

@[simp] theorem State.popFibre_store (s : State) (k : Nat) (gid : Nat) (f : Nat) (x0 : List (Nat × Nat)) :
    (State.popFibre s k gid f x0).1.store = s.store := by
  induction x0 generalizing s  with
  | nil => simp [State.popFibre]
  | cons e t ih => unfold State.popFibre; grind [State.modFibre_store, State.popQueue_store, State.store]

@[simp] theorem State.popAll_store (s : State) (c : Cur) (ctl : Ctl) (qs : List Nat) (x0 : List Nat) :
    (State.popAll s c ctl qs x0).1.store = s.store := by
  induction x0 generalizing s  with
  | nil => simp [State.popAll]
  | cons e t ih => unfold State.popAll; grind [State.park_store, State.popFibre_store, State.store]

@[simp] theorem State.give_store (s : State) (k : Nat) (r : Nat × Nat × Nat) (w : Word) :
    (State.give s k r w).store = s.store := by
  unfold State.give; grind [State.modFibre_store, State.park_store, State.store, foldl_store]

@[simp] theorem State.servePort_store (s : State) (k : Nat) (q : Nat) :
    (State.servePort s k q).store = s.store := by
  simp [State.servePort, foldl_store]

@[simp] theorem State.unpop_store (s : State) (c : Cur) (qs : List Nat) (fibs : List Nat) :
    (State.unpop s c qs fibs).store = s.store := by
  simp only [State.unpop]; (repeat' split) <;> grind [State.modCore_store, State.modFibre_store, State.servePort_store, State.store, foldl_store]

@[simp] theorem State.capture_store (s : State) (k : Nat) (sl : Nat) (gid : Nat) (h : Shape) (vals : List (Nat × Nat)) :
    (State.capture s k sl gid h vals).store = s.store := by
  unfold State.capture; grind [State.modSlice_store, State.store]

@[simp] theorem State.tagLatch_store (s : State) (k : Nat) (sl : Nat) (gid : Nat) (h : Shape) (fibs : List Nat) :
    (State.tagLatch s k sl gid h fibs).1.store = s.store := by
  unfold State.tagLatch; grind [State.modSlice_store, State.store]

@[simp] theorem State.freeLatch_store (s : State) (k : Nat) (gid : Nat) (f : Nat) (at_ : Option (Nat × Nat × Nat)) :
    (State.freeLatch s k gid f at_).store = s.store := by
  unfold State.freeLatch; grind [State.modSlice_store, State.store, foldl_store]

@[simp] theorem State.lateLatch_store (s : State) (k : Nat) (gid : Nat) (f : Nat) (at_ : Option (Nat × Nat × Nat)) (v : Nat) :
    (State.lateLatch s k gid f at_ v).store = s.store := by
  unfold State.lateLatch; grind [State.modSlice_store, State.store, State.freeLatch_store]

@[simp] theorem State.parkCapture_store (s : State) (c : Cur) (h : Shape) (fibs : List Nat) :
    (State.parkCapture s c h fibs).store = s.store := by
  unfold State.parkCapture; grind [State.modFibre_store, State.tagLatch_store, State.store, foldl_store]

@[simp] theorem State.retireTo_store (s : State) (c : Cur) (g : Group) (h : Shape) (ex : List Nat) (outs : List (Nat × LaneOut)) (pcOf : Nat → Nat) :
    (State.retireTo s c g h ex outs pcOf).store = s.store := by
  simp only [State.retireTo, State.finish_store]; split <;> simp

@[simp] theorem State.retireLanes_store (s : State) (c : Cur) (g : Group) (h : Shape) (ex : List Nat) (outs : List (Nat × LaneOut)) :
    (State.retireLanes s c g h ex outs).store = s.store := by
  simp [State.retireLanes]

@[simp] theorem fpTrap_store (s : State) (c : Cur) (h : Shape) (hit : List Nat) (outs : List (Nat × LaneOut)) :
    (fpTrap s c h hit outs).store = s.store := by
  simp [fpTrap]

@[simp] theorem State.rodPops_store (s : State) (k : Nat) (gid : Nat) (qs : List Nat) (x0 : List Nat) :
    (State.rodPops s k gid qs x0).1.store = s.store := by
  induction x0 generalizing s  with
  | nil => simp [State.rodPops]
  | cons e t ih => unfold State.rodPops; grind [State.popFibre_store, State.store]

@[simp] theorem State.freeCaptures_store (s : State) (k : Nat) (gid : Nat) (g : Group) (fibs : List Nat) :
    (State.freeCaptures s k gid g fibs).store = s.store := by
  unfold State.freeCaptures; grind [State.freeLatch_store, State.store, foldl_store]

@[simp] theorem State.rodRetire_store (s : State) (k : Nat) (gid : Nat) (g : Group) (h : Shape) (e : RodExec) (helpers : List Nat) (outs : List (Nat × LaneOut)) :
    (State.rodRetire s k gid g h e helpers outs).store = s.store := by
  simp only [State.rodRetire]; (repeat' split) <;> grind [State.lateLatch_store, State.setGroup_store, State.store, foldl_store, State.freeCaptures_store]

@[simp] theorem State.rodTrap_store (s : State) (c : Cur) (g : Group) (e : RodExec) (hit : List Nat) (outs : List (Nat × LaneOut)) :
    (State.rodTrap s c g e hit outs).store = s.store := by
  unfold State.rodTrap; grind [State.freeCaptures_store, State.modGroup_store, State.takeTrap_store, State.store, foldl_store]

@[simp] theorem State.runExec_store (s : State) (gid : Nat) (e : RodExec) :
    (State.runExec s gid e).store = s.store := by
  unfold State.runExec; grind [State.modGroup_store, State.rodRetire_store, State.setGroup_store, State.takeFault_store, State.takeTrap_store, State.unpop_store, State.store, State.rodTrap_store]

@[simp] theorem State.tryExec_store (s : State) (gid : Nat) (e : RodExec) :
    (State.tryExec s gid e).1.store = s.store := by
  unfold State.tryExec; grind [State.modGroup_store, State.rodPops_store, State.runExec_store, State.takeFault_store, State.store]

@[simp] theorem State.firstExec_store (s : State) (gid : Nat) (x0 : List RodExec) :
    (State.firstExec s gid x0).1.store = s.store := by
  induction x0 generalizing s  with
  | nil => simp [State.firstExec]
  | cons e t ih => unfold State.firstExec; grind [State.tryExec_store, State.store]

@[simp] theorem State.convergeFuel_store (s : State) (gid : Nat) (x0 : Nat) :
    (State.convergeFuel s gid x0).store = s.store := by
  induction x0 generalizing s  with
  | zero => simp [State.convergeFuel]
  | succ n ih => unfold State.convergeFuel; grind [State.firstExec_store, State.store]

@[simp] theorem State.converge_store (s : State) (gid : Nat) :
    (State.converge s gid).store = s.store := by
  simp [State.converge]

@[simp] theorem State.specialWrite_store (s : State) (gid : Nat) (g : Group) (n : Nat) (vals : List (Nat × Nat)) :
    (State.specialWrite s gid g n vals).store = s.store := by
  simp only [State.specialWrite]; (repeat' split) <;> simp_all [foldl_store]

@[simp] theorem transfer_store (s : State) (c : Cur) (g : Group) (h : Shape) (ex : List Nat) (outs : List (Nat × LaneOut)) (uni : Bool) (link : Bool) :
    (transfer s c g h ex outs uni link).store = s.store := by
  unfold transfer; grind [State.faultAt_store, State.finish_store, State.retireTo_store, State.takeTrap_store, State.unpop_store, State.store]

@[simp] theorem State.appendCard_store (s : State) (gid : Nat) (f : Nat) (q : Nat) (n : Nat) (v : Nat) :
    (State.appendCard s gid f q n v).store = s.store := by
  rfl

@[simp] theorem State.pushCommand_store (s : State) (c : Cur) (f : Nat) (ws : List DWord) :
    (State.pushCommand s c f ws).store = s.store := by
  simp only [State.pushCommand]; (repeat' split) <;> grind [State.modCore_store, State.modFibre_store, State.store, foldl_store]

@[simp] theorem State.pushAll_store (s : State) (c : Cur) (g : Group) (q : Nat) (n : Nat) (vals : List (Nat × Nat)) :
    (State.pushAll s c g q n vals).1.store = s.store := by
  simp only [State.pushAll]; (repeat' split) <;> simp_all [foldl_store]

@[simp] theorem moveEnd_store (s : State) (c : Cur) (g : Group) (h : Shape) (ex : List Nat) (outs : List (Nat × LaneOut)) (n : Nat) :
    (moveEnd s c g h ex outs n).store = s.store := by
  unfold moveEnd; grind [State.faultAt_store, State.pushAll_store, State.retireLanes_store, State.store]

@[simp] theorem State.parkMiss_store (s : State) (c : Cur) (vf : Nat) (idx : Nat) :
    (State.parkMiss s c vf idx).store = s.store := by
  simp [State.parkMiss]

@[simp] theorem State.charge_store (s : State) (k : Nat) (vf : Nat) :
    (State.charge s k vf).store = s.store := by
  rfl

@[simp] theorem State.takeSlot_store (s : State) (k : Nat) (sl : Nat) (b : Bundle) (vf : Nat) :
    (State.takeSlot s k sl b vf).store = s.store := by
  unfold State.takeSlot; grind [State.charge_store, State.modFibre_store, State.modSlice_store, State.store, foldl_store]

@[simp] theorem State.endIssue_store (s : State) (i : Instr) (trapped : Bool) :
    (State.endIssue s i trapped).store = s.store := by
  simp only [State.endIssue]; (repeat' split) <;> grind [State.modFibre_store, State.modSlice_store, State.park_store, State.store, foldl_store]

@[simp] theorem State.ageSlice_store (s : State) (k : Nat) (sl : Nat) :
    (State.ageSlice s k sl).store = s.store := by
  rfl

@[simp] theorem State.chargeIdle_store (s : State) (k : Nat) (sl : Nat) :
    (State.chargeIdle s k sl).store = s.store := by
  unfold State.chargeIdle; grind [State.charge_store, State.store]

@[simp] theorem State.tickCore_store (s : State) (d : Nat) :
    (State.tickCore s d).store = s.store := by
  simp only [State.tickCore]; (repeat' split) <;> simp_all [foldl_store]

@[simp] theorem State.putLine_store (s : State) (k : Nat) (l : ILine) :
    (State.putLine s k l).store = s.store := by
  unfold State.putLine; grind [State.bump_store, State.modCore_store, State.store]

end Sys2Proof.Machine
end

