-- ==== Sys2Proof/Laws/StoreB.lean ====
section
/-! SUPPORT. The same for Cache.lean to Fabric.lean, but for what performs a store at its home: one lemma for each operation. -/

namespace Sys2Proof.Machine

@[simp] theorem State.clamp_store (s : State) (vf : Nat) (sc : Scope) :
    (State.clamp s vf sc).1.store = s.store := by
  unfold State.clamp; grind [State.modCtx_store, State.store]

@[simp] theorem State.await_store (s : State) (gid : Nat) (f : Nat) (d : RetDst) :
    (State.await s gid f d).store = s.store := by
  rfl

@[simp] theorem State.deliver_store (s : State) (gid : Nat) (f : Nat) (d : RetDst) (v : Nat) :
    (State.deliver s gid f d v).store = s.store := by
  unfold State.deliver; grind [State.lateLatch_store, State.modFibre_store, State.setGroup_store, State.store]

@[simp] theorem State.giveUp_store (s : State) (gid : Nat) (f : Nat) (d : RetDst) :
    (State.giveUp s gid f d).store = s.store := by
  unfold State.giveUp; extract_lets u; rw [elim_store _ u _ (fun g => by simp)]; rfl

@[simp] theorem State.lateFault_store (s : State) (gid : Nat) (cs : Nat) (pc : Nat) (mask : Nat) (fib : Nat) (info : Nat) (eptr : Nat) :
    (State.lateFault s gid cs pc mask fib info eptr).store = s.store := by
  unfold State.lateFault; grind [State.setGroup_store, State.takeFault_store, State.store]

@[simp] theorem State.accessFault_store (s : State) (a : Access) (cs : Nat) (info : Nat) :
    (State.accessFault s a cs info).store = s.store := by
  simp [State.accessFault]

@[simp] theorem State.dropAcc_store (s : State) (m : Nat) :
    (State.dropAcc s m).store = s.store := by
  rfl

@[simp] theorem State.l1mod_store (s : State) (k : Nat) (l : Loc) (f : L1Line → L1Line) :
    (State.l1mod s k l f).store = s.store := by
  unfold State.l1mod; grind [State.modCore_store, State.store]

@[simp] theorem State.l1drop_store (s : State) (k : Nat) (l : Loc) :
    (State.l1drop s k l).store = s.store := by
  rfl

@[simp] theorem State.stopFills_store (s : State) (k : Nat) (sel : Loc → Bool) (scs : List Scope) :
    (State.stopFills s k sel scs).store = s.store := by
  rfl

@[simp] theorem State.writeBackLine_store (s : State) (k : Nat) (x : L1Line) :
    (State.writeBackLine s k x).1.store = s.store := by
  unfold State.writeBackLine; grind [State.l1mod_store, State.request_store, State.stopFills_store, State.store]

@[simp] theorem State.l1Room_store (s : State) (k : Nat) (l : Loc) :
    (State.l1Room s k l).store = s.store := by
  unfold State.l1Room; grind [State.bump_store, State.l1drop_store, State.writeBackLine_store, State.store]

@[simp] theorem State.l1Alloc_store (s : State) (k : Nat) (l : Loc) (hint : Nat) (cclass : Nat) (since : Nat) (f : L1Line → L1Line) :
    (State.l1Alloc s k l hint cclass since f).store = s.store := by
  unfold State.l1Alloc; grind [State.l1Room_store, State.l1mod_store, State.modCore_store, State.store]

@[simp] theorem State.l1Mark_store (s : State) (k : Nat) (l : Loc) (hint : Nat) :
    (State.l1Mark s k l hint).store = s.store := by
  unfold State.l1Mark; grind [State.l1mod_store, State.store, foldl_store]

@[simp] theorem State.poke_store (s : State) (p : Place) :
    (State.poke s p).store = s.store := by
  unfold State.poke; grind [State.store]

@[simp] theorem State.enterWaiter_store (s : State) (w : Nat) :
    (State.enterWaiter s w).store = s.store := by
  unfold State.enterWaiter; grind [State.poke_store, State.store]

@[simp] theorem State.recall_store (s : State) (k : Nat) (l : Loc) (store : Bool) :
    (State.recall s k l store).store = s.store := by
  simp only [State.recall]; (repeat' split) <;> grind [State.l1mod_store, State.stopFills_store, State.writeBackLine_store, State.store, foldl_store]

@[simp] theorem State.dropCopies_store (s : State) (d : Nat) (l : Loc) :
    (State.dropCopies s d l).store = s.store := by
  simp [State.dropCopies, foldl_store]

@[simp] theorem State.cuMod_store (s : State) (d : Nat) (l : Loc) (f : CuLine → CuLine) :
    (State.cuMod s d l f).store = s.store := by
  rfl

@[simp] theorem State.cuBack_store (s : State) (d : Nat) (c : CuLine) :
    (State.cuBack s d c).1.store = s.store := by
  unfold State.cuBack; grind [State.cuMod_store, State.request_store, State.store]

@[simp] theorem State.cuMerge_store (s : State) (k : Nat) (l : Loc) :
    (State.cuMerge s k l).store = s.store := by
  unfold State.cuMerge; grind [State.cuMod_store, State.l1mod_store, State.store]

theorem State.cuAlloc_store (s : State) (k : Nat) (a : Access) :
    ∀ t, State.cuAlloc s k a = some t → t.store = s.store := by
  intro t; unfold State.cuAlloc; grind [State.bump_store, State.cuBack_store, State.cuMerge_store, State.dropCopies_store, State.modDie_store, State.recall_store, State.request_store, State.store]

@[simp] theorem State.acquire_store (s : State) (k : Nat) (vf : Nat) (sc : Scope) (sel : Loc → Bool) :
    (State.acquire s k vf sc sel).store = s.store := by
  unfold State.acquire; grind [State.modCore_store, State.stopFills_store, State.store]

@[simp] theorem State.endLoad_store (s : State) (k : Nat) (a : Access) (bs : List Byte) :
    (State.endLoad s k a bs).store = s.store := by
  unfold State.endLoad; grind [State.acquire_store, State.deliver_store, State.store]

@[simp] theorem State.endAtomic_store (s : State) (k : Nat) (a : Access) (olds : Tab Nat) :
    (State.endAtomic s k a olds).store = s.store := by
  simp only [State.endAtomic]; (repeat' split) <;> simp_all [foldl_store]

@[simp] theorem State.abandon_store (s : State) (a : Access) :
    (State.abandon s a).store = s.store := by
  simp only [State.abandon]; (repeat' split) <;> simp_all [foldl_store]

@[simp] theorem State.follow_store (s : State) (m : Nat) (ids : List Nat) :
    (State.follow s m ids).store = s.store := by
  unfold State.follow; grind [State.store, foldl_store]

@[simp] theorem State.backAfter_store (s : State) (a : Access) (m : Nat) :
    (State.backAfter s a m).store = s.store := by
  unfold State.backAfter; grind [State.cuBack_store, State.follow_store, State.writeBackLine_store, State.store, foldl_store]

@[simp] theorem State.cover_store (s : State) (k : Nat) (vf : Nat) (sel : Loc → Nat → Bool) :
    (State.cover s k vf sel).1.store = s.store := by
  unfold State.cover; grind [State.store, foldl_store]

@[simp] theorem State.cuPerform_store (s : State) (m : Nat) (a : Access) (c : CuLine) :
    (State.cuPerform s m a c).store = s.store := by
  unfold State.cuPerform; grind [State.abandon_store, State.accessFault_store, State.cuMod_store, State.dropAcc_store, State.dropCopies_store, State.endAtomic_store, State.endLoad_store, State.enterWaiter_store, State.l1Alloc_store, State.poke_store, State.store, State.backAfter_store, State.l1Mark_store]

@[simp] theorem State.cuPass_store (s : State) (d : Nat) (x0 : List Nat) :
    (State.cuPass s d x0).store = s.store := by
  induction x0 generalizing s  with
  | nil => simp [State.cuPass]
  | cons e t ih => unfold State.cuPass; grind [State.cuAlloc_store, State.cuPerform_store, State.modDie_store, State.store]

@[simp] theorem State.cuRun_store (s : State) (d : Nat) :
    (State.cuRun s d).store = s.store := by
  simp [State.cuRun]

@[simp] theorem State.cuEnter_store (s : State) (a : Access) :
    (State.cuEnter s a).1.store = s.store := by
  unfold State.cuEnter; grind [State.cuMerge_store, State.cuRun_store, State.modDie_store, State.store]

@[simp] theorem State.cuPrep_store (s : State) (a : Access) :
    (State.cuPrep s a).store = s.store := by
  unfold State.cuPrep; grind [State.cuBack_store, State.modDie_store, State.store]

@[simp] theorem State.l1Prep_store (s : State) (k : Nat) (l : Loc) :
    (State.l1Prep s k l).store = s.store := by
  unfold State.l1Prep; grind [State.l1mod_store, State.stopFills_store, State.writeBackLine_store, State.store]

@[simp] theorem State.issueHome_store (s : State) (a : Access) :
    (State.issueHome s a).1.store = s.store := by
  unfold State.issueHome; grind [State.cuPrep_store, State.cuRun_store, State.request_store, State.store]

@[simp] theorem State.releaseLines_store (s : State) (k : Nat) (vf : Nat) (sc : Scope) (sel : Loc → Nat → Bool) :
    (State.releaseLines s k vf sc sel).1.store = s.store := by
  unfold State.releaseLines
  split
  · rfl
  · simp only
    split <;> simp [foldl_store_pair]

@[simp] theorem State.release_store (s : State) (k : Nat) (gid : Nat) (f : Nat) (sc : Scope) (sel : Loc → Nat → Bool) :
    (State.release s k gid f sc sel).1.store = s.store := by
  simp [State.release]

@[simp] theorem State.cellWrite_store (s : State) (c : Cell) (b : Byte) :
    (State.cellWrite s c b).store = s.store := by
  unfold State.cellWrite; grind [State.modFibre_store, State.modGroup_store, State.store]

@[simp] theorem State.winRead_store (s : State) (e : BitVec 256) (o : Nat) (n : Nat) :
    (State.winRead s e o n).1.store = s.store := by
  unfold State.winRead; grind [State.bump_store, State.store]

@[simp] theorem State.winWrite_store (s : State) (e : BitVec 256) (o : Nat) (bs : List Byte) :
    (State.winWrite s e o bs).store = s.store := by
  simp only [State.winWrite]; (repeat' split) <;> grind [State.cellWrite_store, State.poke_store, State.store, foldl_store]

@[simp] theorem State.useFlits_store (s : State) (link : Nat) (vf : Nat) (n : Nat) :
    (State.useFlits s link vf n).store = s.store := by
  rfl

@[simp] theorem State.useRoute_store (s : State) (e : Nat) (st : Nat) (vf : Nat) (req : Nat) (rsp : Nat) :
    (State.useRoute s e st vf req rsp).store = s.store := by
  unfold State.useRoute; grind [State.useFlits_store, State.store, foldl_store]

@[simp] theorem State.degrade_store (s : State) (st : Nat) :
    (State.degrade s st).store = s.store := by
  rfl

@[simp] theorem State.scHit_store (s : State) (st : Nat) (line : Nat) (vf : Nat) (hint : Nat) :
    (State.scHit s st line vf hint).store = s.store := by
  unfold State.scHit; grind [State.modStack_store, State.store, foldl_store]

@[simp] theorem State.scFill_store (s : State) (st : Nat) (line : Nat) (vf : Nat) (kind : AccKind) (hint : Nat) (cclass : Nat) :
    (State.scFill s st line vf kind hint cclass).store = s.store := by
  unfold State.scFill; grind [State.bump_store, State.modStack_store, State.store]

@[simp] theorem State.homeAt_store (s : State) (l : Loc) (kind : AccKind) (whole : Bool) (holder : Option Nat) (hint : Nat) (cclass : Nat) :
    (State.homeAt s l kind whole holder hint cclass).1.store = s.store := by
  unfold State.homeAt; grind [State.modStack_store, State.physOf_store, State.scFill_store, State.tamper_store, State.store, State.scHit_store]

@[simp] theorem State.tickVec_store (s : State) (e : Nat) :
    (State.tickVec s e).store = s.store := by
  rfl

@[simp] theorem State.stall_store {α : Type} (s : State) (e : Nat) (l : Loc) :
    (State.stall (α := α) s e l).state.store = s.store := by
  simp only [State.stall]; (repeat' split) <;> grind [Direct.state, State.degrade_store, State.modAgent_store, State.store]

theorem State.stall_wait {α : Type} {s : State} {e : Nat} {l : Loc} {t : State} (h : State.stall (α := α) s e l = .wait t) : t.store = s.store := by
  have h1 := State.stall_store (α := α) s e l
  rw [h] at h1
  exact h1

theorem State.stall_fault {α : Type} {s : State} {e : Nat} {l : Loc} {t : State} {cs : Nat} (h : State.stall (α := α) s e l = .fault t cs) : t.store = s.store := by
  have h1 := State.stall_store (α := α) s e l
  rw [h] at h1
  exact h1

theorem State.stall_done {α : Type} {s : State} {e : Nat} {l : Loc} {t : State} {v : α} (h : State.stall (α := α) s e l = .ok t v) : t.store = s.store := by
  have h1 := State.stall_store (α := α) s e l
  rw [h] at h1
  exact h1

@[simp] theorem State.unstall_store (s : State) (e : Nat) (l : Loc) :
    (State.unstall s e l).store = s.store := by
  unfold State.unstall; grind [State.modAgent_store, State.store, foldl_store]

@[simp] theorem State.takeLane_store (s : State) (e : Nat) (l : Loc) (vec : Option (Tab Nat)) :
    (State.takeLane s e l vec).store = s.store := by
  unfold State.takeLane; grind [State.modAgent_store, State.modStack_store, State.store, foldl_store]

@[simp] theorem State.cutOff_store (s : State) (st : Nat) :
    (State.cutOff s st).store = s.store := by
  unfold State.cutOff; grind [State.degrade_store, State.meshEvent_store, State.store, foldl_store]

@[simp] theorem State.dieSync_store (s : State) (e : Nat) (l : Loc) :
    (State.dieSync s e l).store = s.store := by
  unfold State.dieSync; grind [State.cuBack_store, State.store]

@[simp] theorem State.dieDrop_store (s : State) (e : Nat) (l : Loc) :
    (State.dieDrop s e l).store = s.store := by
  unfold State.dieDrop; grind [State.modDie_store, State.store]

@[simp] theorem State.readDirect_store (s : State) (e : Nat) (l : Loc) (n : Nat) (rx : Bool) :
    (State.readDirect s e l n rx).state.store = s.store := by
  unfold State.readDirect; extract_lets u
  have hu : u.store = s.store := by simp [u]
  have h1 := State.homeAt_store u l .read false none 0 0
  split
  · simp [hu]
  · split
    · simp [hu]
    · split
      · simp [hu]
      · split <;> (rename_i h; rw [h] at h1) <;> (try split) <;> simp_all

theorem State.readDirect_wait {s : State} {e : Nat} {l : Loc} {n : Nat} {rx : Bool} {t : State} (h : State.readDirect s e l n rx = .wait t) : t.store = s.store := by
  have h1 := State.readDirect_store s e l n rx
  rw [h] at h1
  exact h1

theorem State.readDirect_fault {s : State} {e : Nat} {l : Loc} {n : Nat} {rx : Bool} {t : State} {cs : Nat} (h : State.readDirect s e l n rx = .fault t cs) : t.store = s.store := by
  have h1 := State.readDirect_store s e l n rx
  rw [h] at h1
  exact h1

theorem State.readDirect_done {s : State} {e : Nat} {l : Loc} {n : Nat} {rx : Bool} {t : State} {v : (List Byte)} (h : State.readDirect s e l n rx = .ok t v) : t.store = s.store := by
  have h1 := State.readDirect_store s e l n rx
  rw [h] at h1
  exact h1

@[simp] theorem State.answer_store (s : State) (m : Nat) (a : Access) (r : Reply) (replyVec : Tab Nat) :
    (State.answer s m a r replyVec).store = s.store := by
  unfold State.answer; grind [State.modStack_store, State.store]

@[simp] theorem State.answerAgain_store (s : State) (m : Nat) (a : Access) (r : Option Reply) :
    (State.answerAgain s m a r).store = s.store := by
  unfold State.answerAgain; grind [State.store]

@[simp] theorem State.homeLoad_store (s : State) (m : Nat) (a : Access) (n : Nat) :
    (State.homeLoad s m a n).store = s.store := by
  unfold State.homeLoad; grind [State.answer_store, State.homeAt_store, State.store]

theorem State.raiseFirst_store (s : State) (c : Cur) (fs : List Fail) :
    ∀ t, State.raiseFirst s c fs = some t → t.store = s.store := by
  intro t; unfold State.raiseFirst; grind [State.faultAt_store, State.store]

@[simp] theorem State.holdAll_store (s : State) (gid : Nat) (f : Nat) (ids : List Nat) :
    (State.holdAll s gid f ids).store = s.store := by
  rfl

@[simp] theorem State.putAside_store (s : State) (a : Access) (after : List Nat) :
    (State.putAside s a after).1.store = s.store := by
  rfl

@[simp] theorem State.runLoad_store (s : State) (a : Access) :
    (State.runLoad s a).store = s.store := by
  simp only [State.runLoad]; (repeat' split) <;> simp_all [foldl_store]

@[simp] theorem State.startLoad_store (s : State) (a : Access) (f : Nat) (dst : RetDst) :
    (State.startLoad s a f dst).store = s.store := by
  unfold State.startLoad; grind [State.await_store, State.holdAll_store, State.putAside_store, State.runLoad_store, State.store]

@[simp] theorem State.runStore_store (s : State) (a : Access) :
    (State.runStore s a).store = s.store := by
  simp only [State.runStore]; (repeat' split) <;> simp_all [foldl_store]

@[simp] theorem State.startStore_store (s : State) (a : Access) (f : Nat) (rel : Bool) :
    (State.startStore s a f rel).store = s.store := by
  unfold State.startStore; grind [State.holdAll_store, State.putAside_store, State.release_store, State.runStore_store, State.store]

@[simp] theorem State.runWindow_store (s : State) (a : Access) :
    (State.runWindow s a).store = s.store := by
  unfold State.runWindow; grind [State.endLoad_store, State.winRead_store, State.winWrite_store, State.store, foldl_store]

@[simp] theorem State.startWindow_store (s : State) (a : Access) (f : Nat) (rel : Bool) :
    (State.startWindow s a f rel).store = s.store := by
  unfold State.startWindow; grind [State.await_store, State.holdAll_store, State.putAside_store, State.release_store, State.runWindow_store, State.store, foldl_store]

@[simp] theorem State.loadWindow_store (s : State) (c : Cur) (f : Nat) (e : BitVec 256) (ptr : Nat) (size : Nat) (dst : RetDst) :
    (State.loadWindow s c f e ptr size dst).store = s.store := by
  simp [State.loadWindow]

@[simp] theorem ldOne_store (f : MFmt) (s : State) (c : Cur) (h : Shape) (t : Option (Nat × Nat × Nat)) (o : Nat × LaneOut) :
    (ldOne f s c h t o).store = s.store := by
  unfold ldOne; grind [State.clamp_store, State.deliver_store, State.loadWindow_store, State.startLoad_store, State.store, State.startWindow_store]

@[simp] theorem stOne_store (f : MFmt) (s : State) (c : Cur) (u3 : Shape) (u4 : Option (Nat × Nat × Nat)) (o : Nat × LaneOut) :
    (stOne f s c u3 u4 o).store = s.store := by
  unfold stOne; grind [State.clamp_store, State.startStore_store, State.winWrite_store, State.store, State.startWindow_store]

@[simp] theorem ldcOne_store (f : MFmt) (s : State) (c : Cur) (h : Shape) (t : Option (Nat × Nat × Nat)) (o : Nat × LaneOut) :
    (ldcOne f s c h t o).store = s.store := by
  unfold ldcOne; grind [State.await_store, State.bump_store, State.deliver_store, State.endLoad_store, State.issueHome_store, State.loadWindow_store, State.store]

@[simp] theorem prefOne_store (f : MFmt) (s : State) (c : Cur) (o : Nat × LaneOut) :
    (prefOne f s c o).store = s.store := by
  unfold prefOne; grind [State.issueHome_store, State.recall_store, State.store, foldl_store]

@[simp] theorem ldpOne_store (f : MFmt) (s : State) (c : Cur) (h : Shape) (t : Option (Nat × Nat × Nat)) (o : Nat × LaneOut) :
    (ldpOne f s c h t o).store = s.store := by
  unfold ldpOne; grind [State.deliver_store, State.store]

@[simp] theorem stpOne_store (f : MFmt) (s : State) (c : Cur) (u3 : Shape) (u4 : Option (Nat × Nat × Nat)) (o : Nat × LaneOut) :
    (stpOne f s c u3 u4 o).store = s.store := by
  simp [stpOne]

@[simp] theorem State.backRange_store (s : State) (c : Cur) (f : Nat) (sel : Loc → Nat → Bool) :
    (State.backRange s c f sel).store = s.store := by
  simp [State.backRange, foldl_store]

@[simp] theorem State.fenceEnd_store (s : State) (c : Cur) (f : Nat) (kind : Nat) (sc : Scope) (ids : List Nat) (range : Option (BitVec 256 × Nat × Nat)) (ptr : Nat) (len : Nat) :
    (State.fenceEnd s c f kind sc ids range ptr len).store = s.store := by
  unfold State.fenceEnd; grind [State.acquire_store, State.holdAll_store, State.modFibre_store, State.putAside_store, State.store]

@[simp] theorem State.fetchCode_store (s : State) (k : Nat) (g : Group) (off : Nat) (sc : Bool) :
    (State.fetchCode s k g off sc).store = s.store := by
  unfold State.fetchCode; grind [State.homeAt_store, State.putLine_store, State.store, foldl_store]

@[simp] theorem State.pinCode_store (s : State) (g : Group) (off : Nat) :
    (State.pinCode s g off).store = s.store := by
  unfold State.pinCode; grind [State.modStack_store, State.physOf_store, State.store, foldl_store]

@[simp] theorem State.padAtomic_store (s : State) (a : Access) :
    (State.padAtomic s a).store = s.store := by
  unfold State.padAtomic; grind [State.abandon_store, State.accessFault_store, State.endAtomic_store, State.modGroup_store, State.poke_store, State.store]

@[simp] theorem State.runAtomic_store (s : State) (a : Access) :
    (State.runAtomic s a).store = s.store := by
  simp only [State.runAtomic]; (repeat' split) <;> simp_all [foldl_store]

@[simp] theorem State.startAtomic_store (s : State) (a : Access) (fs : List Nat) (dst : RetDst) (rel : Bool) :
    (State.startAtomic s a fs dst rel).store = s.store := by
  unfold State.startAtomic
  extract_lets k pad holds loads acq r u
  have hr : r.1.store = s.store := by
    simp only [r]; split
    · refine foldl_store_pair _ (fun r x => ?_) fs (s, [])
      have h := State.release_store r.1 k a.gid x a.scope fun _ _ => true
      dsimp only
      exact h
    · rfl
  have hu : u.store = s.store := by rw [← hr]; exact foldl_store _ (fun _ _ => by simp) _ _
  split
  · rw [← hu, ← State.putAside_store u]
    dsimp only
    split
    · rw [foldl_store _ (fun _ _ => by simp)]
    · rfl
  · simp [hu]

@[simp] theorem State.zeroHelpers_store (s : State) (gid : Nat) (dst : RetDst) (fs : List Nat) :
    (State.zeroHelpers s gid dst fs).store = s.store := by
  simp [State.zeroHelpers, foldl_store]

@[simp] theorem State.eventAccess_store (s : State) (c : Cur) (f : MFmt) (p : AtomSpec) (dst : RetDst) (behind : List Nat) (asks : List Ask) :
    (State.eventAccess s c f p dst behind asks).store = s.store := by
  unfold State.eventAccess; grind [State.clamp_store, State.startAtomic_store, State.store]

@[simp] theorem State.lineEvents_store (s : State) (c : Cur) (f : MFmt) (p : AtomSpec) (dst : RetDst) (asks : List Ask) :
    (State.lineEvents s c f p dst asks).store = s.store := by
  unfold State.lineEvents; split
  · exact foldl_store_pair _ (fun r x => by simp) asks (s, [])
  · simp

@[simp] theorem State.runWait_store (s : State) (a : Access) (p : Place) :
    (State.runWait s a p).store = s.store := by
  unfold State.runWait; grind [State.cuEnter_store, State.issueHome_store, State.l1Prep_store, State.store, foldl_store]

@[simp] theorem State.askWaiter_store (s : State) (w : Nat) :
    (State.askWaiter s w).store = s.store := by
  unfold State.askWaiter; grind [State.cuEnter_store, State.enterWaiter_store, State.issueHome_store, State.l1Prep_store, State.store, State.putAside_store, State.runWait_store]

@[simp] theorem State.newWaiter_store (s : State) (c : Cur) (f : MFmt) (dst : RetDst) (asks : List Ask) :
    (State.newWaiter s c f dst asks).store = s.store := by
  unfold State.newWaiter; grind [State.askWaiter_store, State.clamp_store, State.park_store, State.store]

@[simp] theorem State.endWait_store (s : State) (w : Nat) (f : Nat) (v : Nat) :
    (State.endWait s w f v).store = s.store := by
  unfold State.endWait; grind [State.acquire_store, State.deliver_store, State.modAgent_store, State.modGroup_store, State.store]

@[simp] theorem State.homeWait_store (s : State) (m : Nat) (a : Access) (w : Nat) :
    (State.homeWait s m a w).store = s.store := by
  unfold State.homeWait; grind [State.answer_store, State.enterWaiter_store, State.homeAt_store, State.store]

@[simp] theorem State.sendMcas_store (s : State) (x : Nat) (after : List Nat) :
    (State.sendMcas s x after).store = s.store := by
  simp only [State.sendMcas]; (repeat' split) <;> grind [State.cuPrep_store, State.issueHome_store, State.l1Prep_store, State.store, foldl_store]

@[simp] theorem State.startMcas_store (s : State) (c : Cur) (f : CFmt) (dst : RetDst) (fib : Nat) (off : Nat) (n : Nat) :
    (State.startMcas s c f dst fib off n).store = s.store := by
  unfold State.startMcas; grind [State.clamp_store, State.park_store, State.release_store, State.sendMcas_store, State.store]

@[simp] theorem State.unlockAll_store (s : State) (x : Nat) :
    (State.unlockAll s x).store = s.store := by
  simp only [State.unlockAll]; (repeat' split) <;> grind [State.modStack_store, State.store, foldl_store]

@[simp] theorem State.acceptAt_store (s : State) (a : Access) :
    (State.acceptAt s a).store = s.store := by
  unfold State.acceptAt; grind [State.modStack_store, State.store]

@[simp] theorem State.keepLines_store (s : State) (st : Nat) (holder : Nat) (lines : List Nat) :
    (State.keepLines s st holder lines).store = s.store := by
  unfold State.keepLines; grind [State.modStack_store, State.store, foldl_store]

@[simp] theorem State.setAside_store (s : State) (m : Nat) (a : Access) (holder : Nat) (lines : List Nat) :
    (State.setAside s m a holder lines).store = s.store := by
  unfold State.setAside; grind [State.acceptAt_store, State.keepLines_store, State.store, foldl_store]

@[simp] theorem State.replyMcas_store (s : State) (m : Nat) (r : Reply) (v : Tab Nat) :
    (State.replyMcas s m r v).store = s.store := by
  unfold State.replyMcas; grind [State.modStack_store, State.store]

@[simp] theorem State.mcasPlaces_store (s : State) (x : Nat) (x0 : List McasEnt) (x1 : List (McasEnt × Bool × Nat)) :
    (State.mcasPlaces s x x0 x1).1.store = s.store := by
  induction x0 generalizing s x1 with
  | nil => simp [State.mcasPlaces]
  | cons e t ih => unfold State.mcasPlaces; grind [State.homeAt_store, State.store]

@[simp] theorem State.unparkMcas_store (s : State) (x : Nat) (q : Mcas) :
    (State.unparkMcas s x q).store = s.store := by
  rfl

@[simp] theorem State.mcasArrives_store (s : State) (x : Nat) :
    (State.mcasArrives s x).store = s.store := by
  simp only [State.mcasArrives]; (repeat' split) <;> grind [State.acquire_store, State.deliver_store, State.modGroup_store, State.poke_store, State.unparkMcas_store, State.store, foldl_store]

@[simp] theorem atompOne_store (f : MFmt) (s : State) (c : Cur) (h : Shape) (o : Nat × LaneOut) :
    (atompOne f s c h o).store = s.store := by
  unfold atompOne; grind [State.clamp_store, State.startAtomic_store, State.store]

theorem State.hop_store (s : State) (a : Access) (bad : Bool) (l : Leg) : (s.hop a bad l).state.store = s.store := by
  unfold State.hop; grind [State.useFlits_store, State.meshEvent_store]

@[simp] theorem State.hopFirst_store (s : State) (a : Access) (bad : Bool) (x0 : List Leg) :
    (State.hopFirst s a bad x0).1.store = s.store := by
  induction x0 generalizing s with
  | nil => simp [State.hopFirst]
  | cons e t ih => unfold State.hopFirst; grind [State.hop_store, State.store]

@[simp] theorem State.atPcie_store (s : State) (m : Nat) (a : Access) :
    (State.atPcie s m a).store = s.store := by
  unfold State.atPcie; extract_lets t done
  have hd : ∀ u r, (done u r).store = u.store := by
    intro u r; simp only [done]; split
    · rfl
    · simp
  split
  · rw [hd]; simp
  · rw [hd]; simp
  · extract_lets r; rw [hd]; simp only [r]; exact foldl_store_pair _ (by intros; rfl) _ (s, [])
  · rfl

@[simp] theorem State.modHx_store (s : State) (t : Nat) (p : Nat) (f : HxPort → HxPort) :
    (State.modHx s t p f).store = s.store := by
  rfl

@[simp] theorem State.hxOut_store (s : State) (t : Nat) (p : Nat) (o : Out) :
    (State.hxOut s t p o).store = s.store := by
  unfold State.hxOut; grind [State.emit_store, State.event_store, State.modHx_store, State.store, foldl_store]

@[simp] theorem State.atHexavo_store (s : State) (m : Nat) (a : Access) :
    (State.atHexavo s m a).store = s.store := by
  unfold State.atHexavo; grind [State.hxOut_store, State.store]

@[simp] theorem State.cuFilled_store (s : State) (d : Nat) (l : Loc) (bs : List Byte) :
    (State.cuFilled s d l bs).store = s.store := by
  simp [State.cuFilled]

@[simp] theorem State.fillL1_store (s : State) (a : Access) (fill : Option Scope) (bs : List Byte) :
    (State.fillL1 s a fill bs).store = s.store := by
  unfold State.fillL1; grind [State.l1Alloc_store, State.l1Mark_store, State.store, foldl_store]

@[simp] theorem State.loadArrives_store (s : State) (a : Access) (bs : List Byte) :
    (State.loadArrives s a bs).store = s.store := by
  simp only [State.loadArrives]; (repeat' split) <;> simp_all [foldl_store]

@[simp] theorem State.heard_store (s : State) (id : Nat) (ptr : Nat) (r : Reply) :
    (State.heard s id ptr r).store = s.store := by
  unfold State.heard; grind [State.wake_store, State.store, foldl_store]

@[simp] theorem State.remoteReply_store (s : State) (t : Nat) (p : Nat) (tag : Nat) :
    (State.remoteReply s t p tag).store = s.store := by
  unfold State.remoteReply; grind [State.hxOut_store, State.store]

@[simp] theorem State.remoteHeard_store (s : State) (a : Access) (t : Nat) (p : Nat) (tag : Nat) (r : Reply) :
    (State.remoteHeard s a t p tag r).store = s.store := by
  simp [State.remoteHeard]

@[simp] theorem State.hostFault_store (s : State) (vf : Nat) (ptr : Nat) (cs : Nat) (info : Nat) :
    (State.hostFault s vf ptr cs info).store = s.store := by
  simp [State.hostFault]

@[simp] theorem State.hostLine_store (s : State) (a : Access) (id : Nat) (key : Nat) (r : Reply) :
    (State.hostLine s a id key r).store = s.store := by
  have hu := State.heard_store s key a.loc.eptr (a.answerOf r)
  unfold State.hostLine
  generalize s.heard key a.loc.eptr (a.answerOf r) = u at hu ⊢
  extract_lets _ rs v
  split
  · exact hu
  · have hv : v.store = s.store := hu
    clear_value v
    split
    · rw [State.emit_store, State.hostFault_store, hv]
    · rw [State.emit_store, hv]

@[simp] theorem State.hostHeard_store (s : State) (a : Access) (id : Nat) (r : Reply) :
    (State.hostHeard s a id r).store = s.store := by
  exact State.hostLine_store ..

@[simp] theorem State.takeReply_store (s : State) (m : Nat) (a : Access) (r : Reply) :
    (State.takeReply s m a r).store = s.store := by
  unfold State.takeReply; grind [State.cuFilled_store, State.dropAcc_store, State.endAtomic_store, State.heard_store, State.hostHeard_store, State.loadArrives_store, State.mcasArrives_store, State.modAgent_store, State.remoteHeard_store, State.store, State.emit_store]

@[simp] theorem State.takePort_store (s : State) (a : Access) :
    (State.takePort s a).store = s.store := by
  unfold State.takePort; grind [State.useFlits_store, State.store, foldl_store]

@[simp] theorem State.endVfGroups_store (s : State) (vf : Nat) (cs : Nat) (st : Nat) (on : Nat → Bool) :
    (State.endVfGroups s vf cs st on).store = s.store := by
  simp [State.endVfGroups, foldl_store]

@[simp] theorem State.backFault_store (s : State) (a : Access) (info : Nat) (on : Nat → Bool) :
    (State.backFault s a info on).store = s.store := by
  simp [State.backFault]

@[simp] theorem State.cuFails_store (s : State) (d : Nat) (l : Loc) (cs : Nat) :
    (State.cuFails s d l cs).store = s.store := by
  simp only [State.cuFails]; (repeat' split) <;> grind [State.abandon_store, State.accessFault_store, State.cuRun_store, State.dropAcc_store, State.modDie_store, State.store, foldl_store, State.deliver_store]

@[simp] theorem State.collFault_store (s : State) (c : Nat) (t : Nat) :
    (State.collFault s c t).store = s.store := by
  rfl

@[simp] theorem State.failAccess_store (s : State) (m : Nat) (a : Access) (cs : Nat) (info : Nat) :
    (State.failAccess s m a cs info).store = s.store := by
  unfold State.failAccess; grind [State.abandon_store, State.accessFault_store, State.backFault_store, State.collFault_store, State.cuFails_store, State.deliver_store, State.dropAcc_store, State.heard_store, State.hostFault_store, State.hostHeard_store, State.lateFault_store, State.remoteHeard_store, State.send_store, State.unparkMcas_store, State.store, State.emit_store]

@[simp] theorem State.runAside_store (s : State) (m : Nat) (a : Access) :
    (State.runAside s m a).store = s.store := by
  unfold State.runAside; extract_lets u b k
  have hu : u.store = s.store := by simp [u]
  clear_value b u
  split
  · simp [hu]
  · split
    · exact (State.runStore_store ..).trans ((State.follow_store ..).trans hu)
    · exact (State.backAfter_store ..).trans ((State.runStore_store ..).trans hu)
  · simp [hu]
  · simp [hu]
  · rw [elim_store _ u _ (fun g => by simp), hu]
  · simp [hu]
  · simp [hu]
  · simp [hu]
  · exact hu

@[simp] theorem State.closeGap_store (s : State) (st : Nat) (key : Nat) (next : Nat) (x0 : Nat) :
    (State.closeGap s st key next x0).store = s.store := by
  induction x0 generalizing s  with
  | zero => simp [State.closeGap]
  | succ n ih => unfold State.closeGap; grind [State.modStack_store, State.store]

@[simp] theorem State.timeOut_store (s : State) (m : Nat) (a : Access) :
    (State.timeOut s m a).store = s.store := by
  unfold State.timeOut; grind [State.closeGap_store, State.degrade_store, State.dropAcc_store, State.failAccess_store, State.modStack_store, State.store]

@[simp] theorem State.discardOf_store (s : State) (d : Nat) :
    (State.discardOf s d).store = s.store := by
  simp only [State.discardOf]; (repeat' split) <;> grind [State.modStack_store, State.store, foldl_store]

@[simp] theorem State.emptyDie_store (s : State) (d : Nat) :
    (State.emptyDie s d).store = s.store := by
  simp [State.emptyDie, foldl_store]

@[simp] theorem State.loseWork_store (s : State) (d : Nat) (gs : List Nat) :
    (State.loseWork s d gs).store = s.store := by
  unfold State.loseWork; grind [State.modDie_store, State.modGroup_store, State.store, foldl_store]

end Sys2Proof.Machine
end

