-- ==== Sys2Proof/Laws/StoreC.lean ====
section
/-! SUPPORT. The same for Engines.lean to Round.lean: one lemma for each operation. -/

namespace Sys2Proof.Machine

@[simp] theorem State.addItem_store (s : State) (id : Nat) (it : Item) :
    (State.addItem s id it).store = s.store := by
  rfl

@[simp] theorem State.plainRecord_store (s : State) (vf : Nat) (e : Nat) (cs : Nat) (ptr : Nat) :
    (State.plainRecord s vf e cs ptr).store = s.store := by
  simp [State.plainRecord]

@[simp] theorem State.askOut_store (s : State) (vf : Nat) (e : Nat) (ptr : Nat) (op : MemOp) (o : Owner) :
    (State.askOut s vf e ptr op o).store = s.store := by
  simp [State.askOut]

@[simp] theorem State.sendOut_store (s : State) (vf : Nat) (e : Nat) (ptr : Nat) (bs : List Byte) (o : Owner) :
    (State.sendOut s vf e ptr bs o).store = s.store := by
  simp [State.sendOut]

@[simp] theorem State.engineSeg_store (s : State) (e : Nat) (vf : Nat) (id : Nat) (code : Nat) (ptr : Nat) (n : Nat) :
    (State.engineSeg s e vf id code ptr n).state.store = s.store := by
  simp only [State.engineSeg]; (repeat' split) <;> simp_all [foldl_store]

theorem State.engineSeg_wait {s : State} {e : Nat} {vf : Nat} {id : Nat} {code : Nat} {ptr : Nat} {n : Nat} {t : State} (h : State.engineSeg s e vf id code ptr n = .wait t) : t.store = s.store := by
  have h1 := State.engineSeg_store s e vf id code ptr n
  rw [h] at h1
  exact h1

theorem State.engineSeg_fault {s : State} {e : Nat} {vf : Nat} {id : Nat} {code : Nat} {ptr : Nat} {n : Nat} {t : State} {cs : Nat} (h : State.engineSeg s e vf id code ptr n = .fault t cs) : t.store = s.store := by
  have h1 := State.engineSeg_store s e vf id code ptr n
  rw [h] at h1
  exact h1

theorem State.engineSeg_done {s : State} {e : Nat} {vf : Nat} {id : Nat} {code : Nat} {ptr : Nat} {n : Nat} {t : State} {v : (List Byte)} (h : State.engineSeg s e vf id code ptr n = .ok t v) : t.store = s.store := by
  have h1 := State.engineSeg_store s e vf id code ptr n
  rw [h] at h1
  exact h1

@[simp] theorem State.engineSegs_store (s : State) (e : Nat) (vf : Nat) (id : Nat) (code : Nat) (base : Nat) (x0 : List (Nat × Nat)) (x1 : List Byte) :
    (State.engineSegs s e vf id code base x0 x1).state.store = s.store := by
  induction x0 generalizing s x1 with
  | nil => rfl
  | cons p t ih =>
    simp only [State.engineSegs]
    have h := State.engineSeg_store s e vf id code (ptrAdd base p.1) p.2
    generalize s.engineSeg e vf id code (ptrAdd base p.1) p.2 = d at h
    cases d with
    | wait u => exact h
    | fault u c => exact h
    | ok u v => exact (ih _ _).trans h

theorem State.engineSegs_wait {s : State} {e : Nat} {vf : Nat} {id : Nat} {code : Nat} {base : Nat} {x0 : List (Nat × Nat)} {x1 : List Byte} {t : State} (h : State.engineSegs s e vf id code base x0 x1 = .wait t) : t.store = s.store := by
  have h1 := State.engineSegs_store s e vf id code base x0 x1
  rw [h] at h1
  exact h1

theorem State.engineSegs_fault {s : State} {e : Nat} {vf : Nat} {id : Nat} {code : Nat} {base : Nat} {x0 : List (Nat × Nat)} {x1 : List Byte} {t : State} {cs : Nat} (h : State.engineSegs s e vf id code base x0 x1 = .fault t cs) : t.store = s.store := by
  have h1 := State.engineSegs_store s e vf id code base x0 x1
  rw [h] at h1
  exact h1

theorem State.engineSegs_done {s : State} {e : Nat} {vf : Nat} {id : Nat} {code : Nat} {base : Nat} {x0 : List (Nat × Nat)} {x1 : List Byte} {t : State} {v : (List Byte)} (h : State.engineSegs s e vf id code base x0 x1 = .ok t v) : t.store = s.store := by
  have h1 := State.engineSegs_store s e vf id code base x0 x1
  rw [h] at h1
  exact h1

@[simp] theorem State.engineRead_store (s : State) (e : Nat) (vf : Nat) (id : Nat) (code : Nat) (base : Nat) (off : Nat) (len : Nat) :
    (State.engineRead s e vf id code base off len).state.store = s.store := by
  simp [State.engineRead]

theorem State.engineRead_wait {s : State} {e : Nat} {vf : Nat} {id : Nat} {code : Nat} {base : Nat} {off : Nat} {len : Nat} {t : State} (h : State.engineRead s e vf id code base off len = .wait t) : t.store = s.store := by
  have h1 := State.engineRead_store s e vf id code base off len
  rw [h] at h1
  exact h1

theorem State.engineRead_fault {s : State} {e : Nat} {vf : Nat} {id : Nat} {code : Nat} {base : Nat} {off : Nat} {len : Nat} {t : State} {cs : Nat} (h : State.engineRead s e vf id code base off len = .fault t cs) : t.store = s.store := by
  have h1 := State.engineRead_store s e vf id code base off len
  rw [h] at h1
  exact h1

theorem State.engineRead_done {s : State} {e : Nat} {vf : Nat} {id : Nat} {code : Nat} {base : Nat} {off : Nat} {len : Nat} {t : State} {v : (List Byte)} (h : State.engineRead s e vf id code base off len = .ok t v) : t.store = s.store := by
  have h1 := State.engineRead_store s e vf id code base off len
  rw [h] at h1
  exact h1

@[simp] theorem State.wordRecord_store (s : State) (e : Nat) (vf : Nat) (ptr : Nat) (r : Reply) :
    (State.wordRecord s e vf ptr r).store = s.store := by
  unfold State.wordRecord; grind [State.plainRecord_store, State.store, foldl_store]

@[simp] theorem State.forget_store (s : State) (key : Nat) :
    (State.forget s key).store = s.store := by
  rfl

@[simp] theorem State.faultOne_store (s : State) (c : Cur) (f : Nat) (w : Why) :
    (State.faultOne s c f w).store = s.store := by
  simp [State.faultOne]

@[simp] theorem State.portTaken_store (s : State) (k : Nat) (q : Nat) (gid : Nat) :
    (State.portTaken s k q gid).store = s.store := by
  simp only [State.portTaken]; (repeat' split) <;> grind [State.modCore_store, State.takeFault_store, State.store, foldl_store]

@[simp] theorem State.acceptOp_store (s : State) (gid : Nat) (g : Group) (bs : List Byte) (ua : Bool) (pc : Nat) (fib : Nat) (id : Nat) :
    (State.acceptOp s gid g bs ua pc fib id).store = s.store := by
  unfold State.acceptOp; grind [State.addItem_store, State.modCore_store, State.modGroup_store, State.portTaken_store, State.store]

@[simp] theorem State.passParked_store (s : State) (gid : Nat) (fs : List Nat) :
    (State.passParked s gid fs).store = s.store := by
  rfl

@[simp] theorem State.readB_store (s : State) (e : Nat) (vf : Nat) (id : Nat) (rs : List Rng) (x0 : List (List Byte)) :
    (State.readB s e vf id rs x0).state.store = s.store := by
  induction rs generalizing s x0 with
  | nil => rfl
  | cons e t ih =>
    rw [State.readB]
    split
    · rw [ih, State.engineRead_done (h := ‹_›)]
    · exact State.engineRead_wait (h := ‹_›)
    · exact State.engineRead_fault (h := ‹_›)

theorem State.readB_wait {s : State} {e : Nat} {vf : Nat} {id : Nat} {rs : List Rng} {x0 : List (List Byte)} {t : State} (h : State.readB s e vf id rs x0 = .wait t) : t.store = s.store := by
  have h1 := State.readB_store s e vf id rs x0
  rw [h] at h1
  exact h1

theorem State.readB_fault {s : State} {e : Nat} {vf : Nat} {id : Nat} {rs : List Rng} {x0 : List (List Byte)} {t : State} {cs : Nat} (h : State.readB s e vf id rs x0 = .fault t cs) : t.store = s.store := by
  have h1 := State.readB_store s e vf id rs x0
  rw [h] at h1
  exact h1

theorem State.readB_done {s : State} {e : Nat} {vf : Nat} {id : Nat} {rs : List Rng} {x0 : List (List Byte)} {t : State} {v : (List (List Byte))} (h : State.readB s e vf id rs x0 = .ok t v) : t.store = s.store := by
  have h1 := State.readB_store s e vf id rs x0
  rw [h] at h1
  exact h1

@[simp] theorem State.readMasks_store (s : State) (k : Nat) (gid : Nat) (vf : Nat) (e : BitVec 256) :
    (State.readMasks s k gid vf e).state.store = s.store := by
  unfold State.readMasks
  split
  · simp
  · split
    · simp
    · rfl

theorem State.readMasks_wait {s : State} {k : Nat} {gid : Nat} {vf : Nat} {e : BitVec 256} {t : State} (h : State.readMasks s k gid vf e = .wait t) : t.store = s.store := by
  have h1 := State.readMasks_store s k gid vf e
  rw [h] at h1
  exact h1

theorem State.readMasks_fault {s : State} {k : Nat} {gid : Nat} {vf : Nat} {e : BitVec 256} {t : State} {cs : Nat} (h : State.readMasks s k gid vf e = .fault t cs) : t.store = s.store := by
  have h1 := State.readMasks_store s k gid vf e
  rw [h] at h1
  exact h1

theorem State.readMasks_done {s : State} {k : Nat} {gid : Nat} {vf : Nat} {e : BitVec 256} {t : State} {v : (List (List Byte))} (h : State.readMasks s k gid vf e = .ok t v) : t.store = s.store := by
  have h1 := State.readMasks_store s k gid vf e
  rw [h] at h1
  exact h1

@[simp] theorem State.wakeBinders_store (s : State) (k : Nat) :
    (State.wakeBinders s k).store = s.store := by
  simp [State.wakeBinders, foldl_store]

@[simp] theorem State.modEng_store (s : State) (k : Nat) (id : Nat) (f : EngOp → EngOp) :
    (State.modEng s k id f).store = s.store := by
  rfl

@[simp] theorem State.bindingLoaded_store (s : State) (gid : Nat) (b : Nat) (img : Binding) :
    (State.bindingLoaded s gid b img).store = s.store := by
  rfl

@[simp] theorem State.onePass_store (s : State) (k : Nat) (x : EngOp) :
    (State.onePass s k x).store = s.store := by
  rfl

@[simp] theorem State.rowIn_store (s : State) (k : Nat) (x : EngOp) (codes : List Nat) (scales : List Nat) (own : Bool) :
    (State.rowIn s k x codes scales own).store = s.store := by
  rfl

@[simp] theorem State.fetchRow_store (s : State) (k : Nat) (x : EngOp) :
    (State.fetchRow s k x).state.store = s.store := by
  simp only [State.fetchRow]
  split
  · rfl
  split
  · rfl
  split
  · split
    · split
      · exact State.engineRead_done (h := ‹_›)
      · have h := State.engineRead_done (h := ‹_›)
        split
        · rw [Direct.state_ok, State.engineRead_done (h := ‹_›), h]
        · rw [Direct.state_wait, State.engineRead_wait (h := ‹_›), h]
        · rw [Direct.state_fault, State.engineRead_fault (h := ‹_›), h]
    · exact State.engineRead_done (h := ‹_›)
  · exact State.engineRead_wait (h := ‹_›)
  · exact State.engineRead_fault (h := ‹_›)

theorem State.fetchRow_wait {s : State} {k : Nat} {x : EngOp} {t : State} (h : State.fetchRow s k x = .wait t) : t.store = s.store := by
  have h1 := State.fetchRow_store s k x
  rw [h] at h1
  exact h1

theorem State.fetchRow_fault {s : State} {k : Nat} {x : EngOp} {t : State} {cs : Nat} (h : State.fetchRow s k x = .fault t cs) : t.store = s.store := by
  have h1 := State.fetchRow_store s k x
  rw [h] at h1
  exact h1

theorem State.fetchRow_done {s : State} {k : Nat} {x : EngOp} {t : State} {v : (List Nat × List Nat)} (h : State.fetchRow s k x = .ok t v) : t.store = s.store := by
  have h1 := State.fetchRow_store s k x
  rw [h] at h1
  exact h1

@[simp] theorem State.endOp_store (s : State) (k : Nat) (id : Nat) (st : Nat) :
    (State.endOp s k id st).store = s.store := by
  rfl

@[simp] theorem State.endRow_store (s : State) (k : Nat) (x : EngOp) :
    (State.endRow s k x).store = s.store := by
  unfold State.endRow; grind [State.endOp_store, State.modEng_store, State.store]

@[simp] theorem State.startOp_store (s : State) (k : Nat) (x : EngOp) :
    (State.startOp s k x).store = s.store := by
  unfold State.startOp; grind [State.endOp_store, State.modEng_store, State.wakeBinders_store, State.store]

@[simp] theorem State.passAlone_store (s : State) (k : Nat) (x : EngOp) :
    (State.passAlone s k x).store = s.store := by
  unfold State.passAlone; grind [State.endOp_store, State.endRow_store, State.fetchRow_store, State.onePass_store, State.rowIn_store, State.fetchRow_wait, State.fetchRow_fault, State.store, State.fetchRow_done]

@[simp] theorem State.passPair_store (s : State) (k : Nat) (x : EngOp) (y : EngOp) :
    (State.passPair s k x y).store = s.store := by
  unfold State.passPair; grind [State.endOp_store, State.endRow_store, State.fetchRow_store, State.onePass_store, State.rowIn_store, State.fetchRow_wait, State.fetchRow_fault, State.store, State.fetchRow_done]

@[simp] theorem State.endPairWait_store (s : State) (gid : Nat) (q : Bool) :
    (State.endPairWait s gid q).store = s.store := by
  unfold State.endPairWait; grind [State.park_store, State.passParked_store, State.setGroup_store, State.store]

@[simp] theorem State.formPair_store (s : State) (gid : Nat) (p : Nat) :
    (State.formPair s gid p).store = s.store := by
  unfold State.formPair; grind [State.modGroup_store, State.store, foldl_store]

@[simp] theorem State.parkEngine_store (s : State) (c : Cur) (before : Nat) (p : Park) :
    (State.parkEngine s c before p).store = s.store := by
  simp [State.parkEngine, foldl_store]

@[simp] theorem State.reload_store (vf : Nat) (s : State) (r : Rng) :
    (State.reload vf s r).1.store = s.store := by
  simp only [State.reload]; (repeat' split) <;> simp_all

theorem readEach_store (read : State → Rng → State × Option (List Byte)) (h : ∀ s r, (read s r).1.store = s.store)
    (s : State) (rs : List Rng) : (readEach read s rs).1.store = s.store := by
  unfold readEach
  exact foldl_store_pair _ (fun r x => by simp only; exact h r.1 x) rs (s, some [])

@[simp] theorem State.reloads_store (s : State) (vf : Nat) (x0 : List Rng) :
    (State.reloads s vf x0).1.store = s.store :=
  readEach_store (State.reload vf) (State.reload_store vf) s x0

@[simp] theorem State.tileSame_store (s : State) (g : Group) (img : Binding) :
    (State.tileSame s g img).1.store = s.store := by
  unfold State.tileSame; grind [State.reloads_store, State.store, foldl_store]

@[simp] theorem State.fenceMacro_store (s : State) (k : Nat) (gid : Nat) (img : Binding) (bad : BitVec 64) (m : Nat) :
    (State.fenceMacro s k gid img bad m).store = s.store := by
  unfold State.fenceMacro; grind [State.modCore_store, State.modGroup_store, State.store, State.tileSame_store]

@[simp] theorem State.submit_store (s : State) (c : Cur) (q : Nat) (ua : Bool) (f : Nat) (bs : List Byte) :
    (State.submit s c q ua f bs).store = s.store := by
  unfold State.submit; grind [State.engineRead_store, State.park_store, State.release_store, State.engineRead_wait, State.engineRead_fault, State.store, State.clamp_store, State.engineRead_done]

@[simp] theorem State.farIndex_store (s : State) (id : Nat) (vf : Nat) (die : Nat) (cc : CopyCard) (have_ : List Nat) :
    (State.farIndex s id vf die cc have_).1.store = s.store := by
  unfold State.farIndex; grind [State.engineRead_store, State.engineRead_wait, State.engineRead_fault, State.store, State.engineRead_done]

@[simp] theorem State.cardFault_store (s : State) (id : Nat) (c : Card) (cs : Nat) (ptr : Nat) :
    (State.cardFault s id c cs ptr).store = s.store := by
  unfold State.cardFault; grind [State.modFibre_store, State.takeFault_store, State.store]

@[simp] theorem State.acceptCard_store (s : State) (id : Nat) (c : Card) (g : Group) (index : List Nat) :
    (State.acceptCard s id c g index).store = s.store := by
  unfold State.acceptCard; grind [State.acceptOp_store, State.addItem_store, State.modDie_store, State.modFibre_store, State.modGroup_store, State.passParked_store, State.store]

@[simp] theorem State.copyRead_store (s : State) (id : Nat) (c : Card) (cc : CopyCard) (off : Nat) (len : Nat) :
    (State.copyRead s id c cc off len).state.store = s.store := by
  simp only [State.copyRead]; (repeat' split) <;> simp_all [foldl_store]

theorem State.copyRead_wait {s : State} {id : Nat} {c : Card} {cc : CopyCard} {off : Nat} {len : Nat} {t : State} (h : State.copyRead s id c cc off len = .wait t) : t.store = s.store := by
  have h1 := State.copyRead_store s id c cc off len
  rw [h] at h1
  exact h1

theorem State.copyRead_fault {s : State} {id : Nat} {c : Card} {cc : CopyCard} {off : Nat} {len : Nat} {t : State} {cs : Nat} (h : State.copyRead s id c cc off len = .fault t cs) : t.store = s.store := by
  have h1 := State.copyRead_store s id c cc off len
  rw [h] at h1
  exact h1

theorem State.copyRead_done {s : State} {id : Nat} {c : Card} {cc : CopyCard} {off : Nat} {len : Nat} {t : State} {v : (List Byte)} (h : State.copyRead s id c cc off len = .ok t v) : t.store = s.store := by
  have h1 := State.copyRead_store s id c cc off len
  rw [h] at h1
  exact h1

@[simp] theorem State.copyReads_store (s : State) (id : Nat) (c : Card) (cc : CopyCard) (x0 : List (Nat × Nat × Nat)) (x1 : Tab Byte) :
    (State.copyReads s id c cc x0 x1).state.store = s.store := by
  induction x0 generalizing s x1 with
  | nil => rfl
  | cons e t ih =>
    rw [State.copyReads]
    split
    · rw [ih, State.copyRead_done (h := ‹_›)]
    · exact State.copyRead_wait (h := ‹_›)
    · exact State.copyRead_fault (h := ‹_›)

theorem State.copyReads_wait {s : State} {id : Nat} {c : Card} {cc : CopyCard} {x0 : List (Nat × Nat × Nat)} {x1 : Tab Byte} {t : State} (h : State.copyReads s id c cc x0 x1 = .wait t) : t.store = s.store := by
  have h1 := State.copyReads_store s id c cc x0 x1
  rw [h] at h1
  exact h1

theorem State.copyReads_fault {s : State} {id : Nat} {c : Card} {cc : CopyCard} {x0 : List (Nat × Nat × Nat)} {x1 : Tab Byte} {t : State} {cs : Nat} (h : State.copyReads s id c cc x0 x1 = .fault t cs) : t.store = s.store := by
  have h1 := State.copyReads_store s id c cc x0 x1
  rw [h] at h1
  exact h1

theorem State.copyReads_done {s : State} {id : Nat} {c : Card} {cc : CopyCard} {x0 : List (Nat × Nat × Nat)} {x1 : Tab Byte} {t : State} {v : (Tab Byte)} (h : State.copyReads s id c cc x0 x1 = .ok t v) : t.store = s.store := by
  have h1 := State.copyReads_store s id c cc x0 x1
  rw [h] at h1
  exact h1

@[simp] theorem State.dropItem_store (s : State) (id : Nat) :
    (State.dropItem s id).store = s.store := by
  rfl

@[simp] theorem State.wakeEngine_store (s : State) (k : Nat) :
    (State.wakeEngine s k).store = s.store := by
  simp [State.wakeEngine, foldl_store]

@[simp] theorem State.clearCore_store (s : State) (k : Nat) :
    (State.clearCore s k).store = s.store := by
  unfold State.clearCore; grind [State.modCore_store, State.store, foldl_store]

@[simp] theorem State.forgetOn_store (s : State) (k : Nat) (gid : Nat) :
    (State.forgetOn s k gid).store = s.store := by
  rfl

@[simp] theorem State.cancelMcas_store (s : State) (gid : Nat) :
    (State.cancelMcas s gid).store = s.store := by
  rfl

@[simp] theorem State.haltGroup_store (s : State) (gid : Nat) :
    (State.haltGroup s gid).store = s.store := by
  unfold State.haltGroup; grind [State.cancelMcas_store, State.forgetOn_store, State.park_store, State.setGroup_store, State.store, State.clearCore_store]

@[simp] theorem State.endRuns_store (s : State) (k : Nat) (gid : Nat) :
    (State.endRuns s k gid).store = s.store := by
  unfold State.endRuns; grind [State.modSlice_store, State.store, foldl_store]

@[simp] theorem State.haltReq_store (s : State) (gid : Nat) :
    (State.haltReq s gid).store = s.store := by
  unfold State.haltReq; grind [State.haltGroup_store, State.setGroup_store, State.store, State.endRuns_store]

@[simp] theorem State.haltDie_store (s : State) (d : Nat) :
    (State.haltDie s d).store = s.store := by
  simp [State.haltDie, foldl_store]

@[simp] theorem State.endHolds_store (s : State) :
    (State.endHolds s).store = s.store := by
  simp only [State.endHolds]; (repeat' split) <;> grind [State.haltGroup_store, State.store, foldl_store, State.endRuns_store, State.setGroup_store]

@[simp] theorem State.setHbm_store (s : State) (st : Nat) (vf : Nat) (n : Nat) :
    (State.setHbm s st vf n).store = s.store := by
  unfold State.setHbm; grind [State.modStack_store, State.store, foldl_store]

@[simp] theorem State.refill_store (s : State) (vf : Nat) :
    (State.refill s vf).store = s.store := by
  unfold State.refill; grind [State.setHbm_store, State.store, foldl_store]

@[simp] theorem State.bringOn_store (s : State) (gid : Nat) (k : Nat) :
    (State.bringOn s gid k).store = s.store := by
  unfold State.bringOn; grind [State.modCore_store, State.setGroup_store, State.store, State.refill_store]

@[simp] theorem State.resume_store (s : State) (gid : Nat) :
    (State.resume s gid).store = s.store := by
  simp only [State.resume]; (repeat' split) <;> simp_all [foldl_store]

@[simp] theorem State.coreService_store (s : State) (k : Nat) (on : Bool) :
    (State.coreService s k on).store = s.store := by
  unfold State.coreService; grind [State.haltReq_store, State.modCore_store, State.store, foldl_store]

@[simp] theorem State.halyardRead_store (s : State) (vf : Nat) (key : Nat) (ptr : Nat) (n : Nat) :
    (State.halyardRead s vf key ptr n).state.store = s.store := by
  simp [State.halyardRead]

theorem State.halyardRead_wait {s : State} {vf : Nat} {key : Nat} {ptr : Nat} {n : Nat} {t : State} (h : State.halyardRead s vf key ptr n = .wait t) : t.store = s.store := by
  have h1 := State.halyardRead_store s vf key ptr n
  rw [h] at h1
  exact h1

theorem State.halyardRead_fault {s : State} {vf : Nat} {key : Nat} {ptr : Nat} {n : Nat} {t : State} {cs : Nat} (h : State.halyardRead s vf key ptr n = .fault t cs) : t.store = s.store := by
  have h1 := State.halyardRead_store s vf key ptr n
  rw [h] at h1
  exact h1

theorem State.halyardRead_done {s : State} {vf : Nat} {key : Nat} {ptr : Nat} {n : Nat} {t : State} {v : (List Byte)} (h : State.halyardRead s vf key ptr n = .ok t v) : t.store = s.store := by
  have h1 := State.halyardRead_store s vf key ptr n
  rw [h] at h1
  exact h1

@[simp] theorem State.stopRing_store (s : State) (vf : Nat) (cs : Nat) (ptr : Nat) :
    (State.stopRing s vf cs ptr).store = s.store := by
  simp [State.stopRing]

@[simp] theorem State.readCounts_store (s : State) (vf : Nat) :
    (State.readCounts s vf).store = s.store := by
  unfold State.readCounts; grind [State.forget_store, State.halyardRead_store, State.modCtx_store, State.stopRing_store, State.halyardRead_wait, State.halyardRead_fault, State.store, State.halyardRead_done]

@[simp] theorem State.rejectGrid_store (s : State) (vf : Nat) (q : Grid) (l : Launch) (st : Nat) :
    (State.rejectGrid s vf q l st).1.store = s.store := by
  unfold State.rejectGrid; grind [State.plainRecord_store, State.store]

@[simp] theorem State.acquireWaits_store (s : State) (vf : Nat) (x0 : List (Nat × Nat)) :
    (State.acquireWaits s vf x0).state.store = s.store := by
  induction x0 generalizing s with
  | nil => rfl
  | cons e t ih =>
    rw [State.acquireWaits]
    split
    · split
      · rw [ih, State.readDirect_done (h := ‹_›)]
      · exact State.readDirect_done (h := ‹_›)
    · exact State.readDirect_wait (h := ‹_›)
    · exact State.readDirect_fault (h := ‹_›)

theorem State.acquireWaits_wait {s : State} {vf : Nat} {x0 : List (Nat × Nat)} {t : State} (h : State.acquireWaits s vf x0 = .wait t) : t.store = s.store := by
  have h1 := State.acquireWaits_store s vf x0
  rw [h] at h1
  exact h1

theorem State.acquireWaits_fault {s : State} {vf : Nat} {x0 : List (Nat × Nat)} {t : State} {cs : Nat} (h : State.acquireWaits s vf x0 = .fault t cs) : t.store = s.store := by
  have h1 := State.acquireWaits_store s vf x0
  rw [h] at h1
  exact h1

theorem State.acquireWaits_done {s : State} {vf : Nat} {x0 : List (Nat × Nat)} {t : State} {v : Unit} (h : State.acquireWaits s vf x0 = .ok t v) : t.store = s.store := by
  have h1 := State.acquireWaits_store s vf x0
  rw [h] at h1
  exact h1

@[simp] theorem State.freeGroup_store (s : State) (gid : Nat) (g : Group) :
    (State.freeGroup s gid g).store = s.store := by
  unfold State.freeGroup; grind [State.endPairWait_store, State.forgetOn_store, State.modCore_store, State.releaseLines_store, State.store, foldl_store]

@[simp] theorem State.modSlot_store (s : State) (st : Nat) (n : Nat) (f : KeySlot → KeySlot) :
    (State.modSlot s st n f).store = s.store := by
  rfl

@[simp] theorem State.zeroSlot_store (s : State) (st : Nat) (n : Nat) :
    (State.zeroSlot s st n).store = s.store := by
  rfl

@[simp] theorem State.drawKey_store (s : State) (st : Nat) (n : Nat) (vf : Nat) (state : SlotSt) :
    (State.drawKey s st n vf state).store = s.store := by
  rfl

@[simp] theorem State.drawSlot0_store (s : State) (st : Nat) :
    (State.drawSlot0 s st).store = s.store := by
  unfold State.drawSlot0; grind [State.modMh_store, State.modSlot_store, State.store, foldl_store]

@[simp] theorem State.endWindows_store (s : State) (sel : Nat × Nat × Nat × Nat × Nat → Bool) :
    (State.endWindows s sel).store = s.store := by
  simp only [State.endWindows]; (repeat' split) <;> grind [State.modMh_store, State.modStack_store, State.store, foldl_store]

@[simp] theorem State.scrubFrames_store (s : State) (st : Nat) (fs : List Nat) :
    (State.scrubFrames s st fs).store = s.store := by
  rfl

@[simp] theorem State.queueJob_store (s : State) (st : Nat) (j : ScrubJob) :
    (State.queueJob s st j).store = s.store := by
  unfold State.queueJob; grind [State.modStack_store, State.store]

@[simp] theorem State.settleTdi_store (s : State) (vf : Nat) :
    (State.settleTdi s vf).store = s.store := by
  unfold State.settleTdi; grind [State.modCtx_store, State.store]

@[simp] theorem State.endJob_store (s : State) (st : Nat) :
    (State.endJob s st).store = s.store := by
  unfold State.endJob; grind [State.modStack_store, State.settleTdi_store, State.store]

@[simp] theorem State.clearGroup_store (s : State) (gid : Nat) :
    (State.clearGroup s gid).store = s.store := by
  unfold State.clearGroup; grind [State.forgetOn_store, State.modCore_store, State.store]

@[simp] theorem State.dropVf_store (s : State) (vf : Nat) :
    (State.dropVf s vf).store = s.store := by
  simp only [State.dropVf]; (repeat' split) <;> grind [State.modCore_store, State.writeBackLine_store, State.store, foldl_store]

@[simp] theorem State.forgetVf_store (s : State) (vf : Nat) :
    (State.forgetVf s vf).store = s.store := by
  rfl

@[simp] theorem State.wipe_store (s : State) (vf : Nat) :
    (State.wipe s vf).store = s.store := by
  simp only [State.wipe]; (repeat' split) <;> grind [State.cancelMcas_store, State.dropVf_store, State.endWindows_store, State.forgetOn_store, State.forgetVf_store, State.modCtx_store, State.queueJob_store, State.scrubFrames_store, State.settleTdi_store, State.zeroSlot_store, State.store, foldl_store]

@[simp] theorem State.haltPartition_store (s : State) (l : Nat) :
    (State.haltPartition s l).store = s.store := by
  simp [State.haltPartition, foldl_store]

@[simp] theorem State.applyLayout_store (s : State) (cfg : BitVec 64) :
    (State.applyLayout s cfg).store = s.store := by
  simp only [State.applyLayout]; (repeat' split) <;> grind [State.endWindows_store, State.modCtx_store, State.modGang_store, State.modMh_store, State.modStack_store, State.store, foldl_store]

@[simp] theorem State.releaseLater_store (s : State) :
    (State.releaseLater s).store = s.store := by
  unfold State.releaseLater; grind [State.store, State.event_store]

@[simp] theorem State.beginSwitch_store (s : State) (l : Nat) (next : Option Nat) :
    (State.beginSwitch s l next).store = s.store := by
  rfl

@[simp] theorem State.coreEdge_store (s : State) (d : Nat) :
    (State.coreEdge s d).store = s.store := by
  simp [State.coreEdge]

theorem State.after_store (s : State) (o : Host.Outcome State Fault Refusal) (h : ∀ t, o = .next t → t.store = s.store) :
    (s.after o).store = s.store := by
  unfold State.after
  split
  · exact h _ rfl
  · rfl

theorem State.runCmd_store (s : State) (k op : Nat) (f : Cmd → State → State × Option Nat)
    (h : ∀ c, (f c s).1.store = s.store) : (s.runCmd k op f).store = s.store := by
  unfold State.runCmd
  split
  · rfl
  · rename_i ws _ _
    have h2 := h (cmdOf ws)
    simp only
    split
    · rfl
    · by_cases h3 : (cmdOf ws).w3 / 2 ^ 16 ≠ 0 ∨ (16 < (cmdOf ws).unit ∧ (cmdOf ws).unit ≠ 255)
      · rw [if_pos h3]; rfl
      · rw [if_neg h3]
        split <;> (rename_i hq; rw [hq] at h2; simpa using h2)

@[simp] theorem State.serveQ8_store (s : State) (k : Nat) (x0 : Nat) :
    (State.serveQ8 s k x0).store = s.store := by
  induction x0 generalizing s  with
  | zero => simp [State.serveQ8]
  | succ n ih => unfold State.serveQ8; grind [State.acquire_store, State.modCore_store, State.modFibre_store, State.store, State.give_store]

@[simp] theorem State.respond_store (s : State) (vf : Nat) (code : Nat) (data : List Byte) :
    (State.respond s vf code data).store = s.store := by
  rfl

theorem State.spdmIf_store (s : State) (vf : Nat) (phases : List SpdmPh) (f : State → State)
    (h : (f s).store = s.store) : (s.spdmIf vf phases f).store = s.store := by
  unfold State.spdmIf; split_ifs <;> simp [h]

@[simp] theorem State.setSpdm_store (s : State) (vf : Nat) (p : SpdmPh) :
    (State.setSpdm s vf p).store = s.store := by
  rfl

@[simp] theorem State.hxReply_store (s : State) (t : Nat) (p : Nat) (tag : Nat) (ok : Bool) (data : List Byte) :
    (State.hxReply s t p tag ok data).store = s.store := by
  unfold State.hxReply; grind [State.store]

@[simp] theorem State.hxOperation_store (s : State) (t : Nat) (p : Nat) (vf : Nat) (o : HxOp) :
    (State.hxOperation s t p vf o).store = s.store := by
  simp only [State.hxOperation]; (repeat' split) <;> simp_all [foldl_store]

theorem State.hostTurn_store (s : State) (f : State → State) (h : (f s).store = s.store) :
    (s.hostTurn f).store = s.store := by
  unfold State.hostTurn; split <;> simp [h]

@[simp] theorem State.hostRequests_store (s : State) (vf : Nat) (asks : List (Nat × MemOp)) (o : Owner) :
    (State.hostRequests s vf asks o).store = s.store := by
  simp [State.hostRequests, foldl_store]

@[simp] theorem State.bar2Write_store (s : State) (vf : Nat) (off : Nat) (v : Nat) :
    (State.bar2Write s vf off v).store = s.store := by
  simp only [State.bar2Write]; (repeat' split) <;> simp_all [foldl_store]

@[simp] theorem State.pfWrite_store (s : State) (off : Nat) (data : List Byte) :
    (State.pfWrite s off data).store = s.store := by
  unfold State.pfWrite; grind [State.emit_store, State.store, State.event_store]

@[simp] theorem State.warmScrub_store (s : State) (st : Nat) :
    (State.warmScrub s st).store = s.store := by
  simp [State.warmScrub, foldl_store]

@[simp] theorem State.alarmStop_store (s : State) :
    (State.alarmStop s).store = s.store := by
  simp [State.alarmStop, foldl_store]

@[simp] theorem State.eraseStack_store (s : State) (st : Nat) :
    (State.eraseStack s st).store = s.store := by
  simp [State.eraseStack, foldl_store]

@[simp] theorem State.powerLater_store (s : State) (off : Nat) (v : Nat) :
    (State.powerLater s off v).store = s.store := by
  rfl

@[simp] theorem State.setTarget_store (s : State) (d : Nat) (l : PwrLevel) :
    (State.setTarget s d l).store = s.store := by
  rfl

@[simp] theorem State.powerHalt_store (s : State) (d : Nat) :
    (State.powerHalt s d).store = s.store := by
  unfold State.powerHalt; grind [State.haltPartition_store, State.modGang_store, State.store]

@[simp] theorem State.flushDie_store (s : State) (d : Nat) :
    (State.flushDie s d).store = s.store := by
  simp only [State.flushDie]; (repeat' split) <;> grind [State.cuBack_store, State.releaseLines_store, State.store, foldl_store]

@[simp] theorem State.finalBeats_store (s : State) (d : Nat) :
    (State.finalBeats s d).store = s.store := by
  simp only [State.finalBeats]; (repeat' split) <;> grind [State.modStack_store, State.store, foldl_store]

@[simp] theorem State.startWake_store (s : State) (d : Nat) (l : PwrLevel) :
    (State.startWake s d l).store = s.store := by
  rfl

@[simp] theorem State.stkPower_store (s : State) (t : Nat) (v : Bool) :
    (State.stkPower s t v).store = s.store := by
  unfold State.stkPower; grind [State.modStack_store, State.powerLater_store, State.store]

@[simp] theorem State.setInst_store (s : State) (c : Nat) (i : Nat) (x : Inst) :
    (State.setInst s c i x).store = s.store := by
  rfl

@[simp] theorem State.instLoad_store (s : State) (c : Nat) (i : Nat) (q : Coll) (x : Inst) (ptr : Nat) (n : Nat) :
    (State.instLoad s c i q x ptr n).state.store = s.store := by
  simp only [State.instLoad]
  split
  · rfl
  · split
    · rename_i hq
      have h := State.engineSeg_done (h := hq)
      exact h
    · exact State.engineSeg_wait (h := ‹_›)
    · exact State.engineSeg_fault (h := ‹_›)

theorem State.instLoad_wait {s : State} {c : Nat} {i : Nat} {q : Coll} {x : Inst} {ptr : Nat} {n : Nat} {t : State} (h : State.instLoad s c i q x ptr n = .wait t) : t.store = s.store := by
  have h1 := State.instLoad_store s c i q x ptr n
  rw [h] at h1
  exact h1

theorem State.instLoad_fault {s : State} {c : Nat} {i : Nat} {q : Coll} {x : Inst} {ptr : Nat} {n : Nat} {t : State} {cs : Nat} (h : State.instLoad s c i q x ptr n = .fault t cs) : t.store = s.store := by
  have h1 := State.instLoad_store s c i q x ptr n
  rw [h] at h1
  exact h1

theorem State.instLoad_done {s : State} {c : Nat} {i : Nat} {q : Coll} {x : Inst} {ptr : Nat} {n : Nat} {t : State} {v : Nat} (h : State.instLoad s c i q x ptr n = .ok t v) : t.store = s.store := by
  have h1 := State.instLoad_store s c i q x ptr n
  rw [h] at h1
  exact h1

@[simp] theorem State.endInst_store (s : State) (c : Nat) (i : Nat) (x : Inst) :
    (State.endInst s c i x).store = s.store := by
  rfl

@[simp] theorem State.faultInst_store (s : State) (c : Nat) (i : Nat) (x : Inst) :
    (State.faultInst s c i x).store = s.store := by
  rfl

@[simp] theorem State.instNext_store (s : State) (c : Nat) (i : Nat) (q : Coll) (x : Inst) (pc : Nat) :
    (State.instNext s c i q x pc).store = s.store := by
  rfl

theorem State.instTurn_store (s : State) (c i : Nat) (f : Coll → Inst → Nat → State)
    (h : ∀ q x w, (f q x w).store = s.store) : (s.instTurn c i f).store = s.store := by
  unfold State.instTurn
  split
  · rfl
  · split_ifs
    · rfl
    · simp
    · rfl
    · split <;> simp [h]

@[simp] theorem State.instPeek_store (s : State) (q : Coll) (x : Inst) :
    (State.instPeek s q x).state.store = s.store := by
  simp only [State.instPeek]
  split
  · rfl
  · split
    · rw [Direct.state_ok, State.readDirect_done (h := ‹_›)]; simp
    · rw [Direct.state_wait, State.readDirect_wait (h := ‹_›)]; simp
    · rw [Direct.state_fault, State.readDirect_fault (h := ‹_›)]; simp

theorem State.instPeek_wait {s : State} {q : Coll} {x : Inst} {t : State} (h : State.instPeek s q x = .wait t) : t.store = s.store := by
  have h1 := State.instPeek_store s q x
  rw [h] at h1
  exact h1

theorem State.instPeek_fault {s : State} {q : Coll} {x : Inst} {t : State} {cs : Nat} (h : State.instPeek s q x = .fault t cs) : t.store = s.store := by
  have h1 := State.instPeek_store s q x
  rw [h] at h1
  exact h1

theorem State.instPeek_done {s : State} {q : Coll} {x : Inst} {t : State} {v : Nat} (h : State.instPeek s q x = .ok t v) : t.store = s.store := by
  have h1 := State.instPeek_store s q x
  rw [h] at h1
  exact h1

@[simp] theorem State.afterIssue_store (s : State) (t : State) (i : Instr) :
    (State.afterIssue s t i).store = t.store := by
  unfold State.afterIssue; split
  · simp only; split <;> simp
  · simp

@[simp] theorem State.tickNano_store (s : State) :
    (State.tickNano s).store = s.store := by
  simp only [State.tickNano]; (repeat' split) <;> grind [State.modDie_store, State.modStack_store, State.store, foldl_store]

@[simp] theorem State.setTableRoot_store (s : State) (st : Nat) (vf : Nat) (root : Option Nat) :
    (State.setTableRoot s st vf root).store = s.store := by
  rfl

@[simp] theorem State.damage_store (s : State) (st : Nat) (line : Nat) :
    (State.damage s st line).store = s.store := by
  rfl

@[simp] theorem State.damageBlock_store (s : State) (st : Nat) (level : Nat) (block : Nat) :
    (State.damageBlock s st level block).store = s.store := by
  unfold State.damageBlock; grind [State.modStack_store, State.store, foldl_store]

@[simp] theorem State.firmwareAssign_store (s : State) (st : Nat) (f : Nat) (key : Nat) :
    (State.firmwareAssign s st f key).store = s.store := by
  unfold State.firmwareAssign; grind [State.drawKey_store, State.modStack_store, State.store]

@[simp] theorem State.firmwareInstall_store (s : State) (desc : BitVec 1024) (bind : BitVec 128) (budget : BitVec 64) :
    (State.firmwareInstall s desc bind budget).store = s.store := by
  unfold State.firmwareInstall; split <;> rfl

end Sys2Proof.Machine
end

