-- ==== Sys2Proof/Laws/StoreD.lean ====
section
/-! SUPPORT. The instructions and events that leave the byte stores alone: one lemma for each, after one lemma for each shared
step. -/

namespace Sys2Proof.Machine

/-- An outcome leaves the byte stores of `s` as they were, if it is a next state. -/
def KeepsStore (s : State) (o : Host.Outcome State Fault Refusal) : Prop := ∀ t, o = .next t → t.store = s.store

theorem keepsStore_next {s t : State} (h : t.store = s.store) : KeepsStore s (.next t) := by
  intro u hu
  cases hu
  exact h

theorem keepsStore_fault (s : State) (x : Fault) : KeepsStore s (.fault x) := by intro t h; cases h

theorem withLanes_store {i : Instr} {s : State} {body : LaneIn → LaneOut}
    {k : State → Cur → Group → Shape → List Nat → List (Nat × LaneOut) → State}
    (hk : ∀ u c g h ex outs, (k u c g h ex outs).store = u.store) : KeepsStore s (withLanes i s body k) := by
  unfold withLanes
  split
  · exact keepsStore_fault _ _
  · split
    · split
      · exact keepsStore_next (by simp)
      · split
        · exact keepsStore_next (by simp)
        · rename_i u _ hp
          have hu : u.store = s.store := by
            have h1 := congrArg (fun r => r.1.store) hp
            simpa using h1.symm
          simp only
          split
          · exact keepsStore_fault _ _
          · split
            · exact keepsStore_next (by simp [hu])
            · exact keepsStore_next (by simp [hk, hu])
    · exact keepsStore_fault _ _

theorem laneStep_store (i : Instr) (s : State) (body : LaneIn → LaneOut) : KeepsStore s (laneStep i s body) := by
  unfold laneStep
  apply withLanes_store
  intro u c g h ex outs
  split <;> simp

theorem execIadd_store (f : CFmt) (s : State) :
    KeepsStore s (execIadd f s) := by
  unfold execIadd; apply laneStep_store

theorem execIaddImm_store (f : IFmt) (s : State) :
    KeepsStore s (execIaddImm f s) := by
  unfold execIaddImm; apply laneStep_store

theorem execIsub_store (f : CFmt) (s : State) :
    KeepsStore s (execIsub f s) := by
  unfold execIsub; apply laneStep_store

theorem execImul_store (f : CFmt) (s : State) :
    KeepsStore s (execImul f s) := by
  unfold execImul; apply laneStep_store

theorem execImulImm_store (f : IFmt) (s : State) :
    KeepsStore s (execImulImm f s) := by
  unfold execImulImm; apply laneStep_store

theorem execImad_store (f : CFmt) (s : State) :
    KeepsStore s (execImad f s) := by
  unfold execImad; apply laneStep_store

theorem execImadw_store (f : CFmt) (s : State) :
    KeepsStore s (execImadw f s) := by
  unfold execImadw; apply laneStep_store

theorem execImin_store (f : CFmt) (s : State) :
    KeepsStore s (execImin f s) := by
  unfold execImin; apply laneStep_store

theorem execImax_store (f : CFmt) (s : State) :
    KeepsStore s (execImax f s) := by
  unfold execImax; apply laneStep_store

theorem execIabs_store (f : CFmt) (s : State) :
    KeepsStore s (execIabs f s) := by
  unfold execIabs; apply laneStep_store

theorem execAnd_store (f : CFmt) (s : State) :
    KeepsStore s (execAnd f s) := by
  unfold execAnd; apply laneStep_store

theorem execAndImm_store (f : IFmt) (s : State) :
    KeepsStore s (execAndImm f s) := by
  unfold execAndImm; apply laneStep_store

theorem execOr_store (f : CFmt) (s : State) :
    KeepsStore s (execOr f s) := by
  unfold execOr; apply laneStep_store

theorem execOrImm_store (f : IFmt) (s : State) :
    KeepsStore s (execOrImm f s) := by
  unfold execOrImm; apply laneStep_store

theorem execXor_store (f : CFmt) (s : State) :
    KeepsStore s (execXor f s) := by
  unfold execXor; apply laneStep_store

theorem execXorImm_store (f : IFmt) (s : State) :
    KeepsStore s (execXorImm f s) := by
  unfold execXorImm; apply laneStep_store

theorem execAndn_store (f : CFmt) (s : State) :
    KeepsStore s (execAndn f s) := by
  unfold execAndn; apply laneStep_store

theorem execShl_store (f : CFmt) (s : State) :
    KeepsStore s (execShl f s) := by
  unfold execShl; apply laneStep_store

theorem execShr_store (f : CFmt) (s : State) :
    KeepsStore s (execShr f s) := by
  unfold execShr; apply laneStep_store

theorem execSar_store (f : CFmt) (s : State) :
    KeepsStore s (execSar f s) := by
  unfold execSar; apply laneStep_store

theorem execFshl_store (f : CFmt) (s : State) :
    KeepsStore s (execFshl f s) := by
  unfold execFshl; apply laneStep_store

theorem execBfx_store (f : CFmt) (s : State) :
    KeepsStore s (execBfx f s) := by
  unfold execBfx; apply laneStep_store

theorem execBfi_store (f : CFmt) (s : State) :
    KeepsStore s (execBfi f s) := by
  unfold execBfi; apply laneStep_store

theorem execPopc_store (f : CFmt) (s : State) :
    KeepsStore s (execPopc f s) := by
  unfold execPopc; apply laneStep_store

theorem execClz_store (f : CFmt) (s : State) :
    KeepsStore s (execClz f s) := by
  unfold execClz; apply laneStep_store

theorem execBrev_store (f : CFmt) (s : State) :
    KeepsStore s (execBrev f s) := by
  unfold execBrev; apply laneStep_store

theorem execIset_store (f : CFmt) (s : State) :
    KeepsStore s (execIset f s) := by
  unfold execIset; apply laneStep_store

theorem execIsetImm_store (f : IFmt) (s : State) :
    KeepsStore s (execIsetImm f s) := by
  unfold execIsetImm; apply laneStep_store

theorem execSel_store (f : CFmt) (s : State) :
    KeepsStore s (execSel f s) := by
  unfold execSel; apply laneStep_store

theorem execFadd_store (f : CFmt) (s : State) :
    KeepsStore s (execFadd f s) := by
  unfold execFadd; apply laneStep_store

theorem execFsub_store (f : CFmt) (s : State) :
    KeepsStore s (execFsub f s) := by
  unfold execFsub; apply laneStep_store

theorem execFmul_store (f : CFmt) (s : State) :
    KeepsStore s (execFmul f s) := by
  unfold execFmul; apply laneStep_store

theorem execFfma_store (f : CFmt) (s : State) :
    KeepsStore s (execFfma f s) := by
  unfold execFfma; apply laneStep_store

theorem execFmin_store (f : CFmt) (s : State) :
    KeepsStore s (execFmin f s) := by
  unfold execFmin; apply laneStep_store

theorem execFmax_store (f : CFmt) (s : State) :
    KeepsStore s (execFmax f s) := by
  unfold execFmax; apply laneStep_store

theorem execFminn_store (f : CFmt) (s : State) :
    KeepsStore s (execFminn f s) := by
  unfold execFminn; apply laneStep_store

theorem execFmaxn_store (f : CFmt) (s : State) :
    KeepsStore s (execFmaxn f s) := by
  unfold execFmaxn; apply laneStep_store

theorem execFset_store (f : CFmt) (s : State) :
    KeepsStore s (execFset f s) := by
  unfold execFset; apply laneStep_store

theorem execFclass_store (f : CFmt) (s : State) :
    KeepsStore s (execFclass f s) := by
  unfold execFclass; apply laneStep_store

theorem execFrnd_store (f : CFmt) (s : State) :
    KeepsStore s (execFrnd f s) := by
  unfold execFrnd; apply laneStep_store

theorem execFscale_store (f : CFmt) (s : State) :
    KeepsStore s (execFscale f s) := by
  unfold execFscale; apply laneStep_store

theorem execFdot2_store (f : CFmt) (s : State) :
    KeepsStore s (execFdot2 f s) := by
  unfold execFdot2; apply laneStep_store

theorem execFrcp_store (f : CFmt) (s : State) :
    KeepsStore s (execFrcp f s) := by
  unfold execFrcp; apply laneStep_store

theorem execFsqrt_store (f : CFmt) (s : State) :
    KeepsStore s (execFsqrt f s) := by
  unfold execFsqrt; apply laneStep_store

theorem execFrsq_store (f : CFmt) (s : State) :
    KeepsStore s (execFrsq f s) := by
  unfold execFrsq; apply laneStep_store

theorem execFexp2_store (f : CFmt) (s : State) :
    KeepsStore s (execFexp2 f s) := by
  unfold execFexp2; apply laneStep_store

theorem execFlog2_store (f : CFmt) (s : State) :
    KeepsStore s (execFlog2 f s) := by
  unfold execFlog2; apply laneStep_store

theorem execFtanh_store (f : CFmt) (s : State) :
    KeepsStore s (execFtanh f s) := by
  unfold execFtanh; apply laneStep_store

theorem execFsinpi_store (f : CFmt) (s : State) :
    KeepsStore s (execFsinpi f s) := by
  unfold execFsinpi; apply laneStep_store

theorem execFcospi_store (f : CFmt) (s : State) :
    KeepsStore s (execFcospi f s) := by
  unfold execFcospi; apply laneStep_store

theorem execCvt_store (f : CFmt) (s : State) :
    KeepsStore s (execCvt f s) := by
  unfold execCvt; apply laneStep_store

theorem execCvtx_store (f : CFmt) (s : State) :
    KeepsStore s (execCvtx f s) := by
  unfold execCvtx; apply withLanes_store; intro u c g h ex outs; simp only; (repeat' split) <;> simp_all [foldl_store]

theorem arrive_store (i : Instr) (s : State) : KeepsStore s (arrive i s) := by
  unfold arrive
  split
  · exact keepsStore_fault _ _
  · split
    · simp only
      split_ifs
      · exact keepsStore_next (by simp)
      · exact keepsStore_next (by simp)
      · exact keepsStore_next (by simp [foldl_store])
      · exact keepsStore_next (by simp)
      · exact keepsStore_next (by simp [foldl_store])
    · exact keepsStore_fault _ _

theorem execQswp_store (f : CFmt) (s : State) :
    KeepsStore s (execQswp f s) := by
  unfold execQswp; apply arrive_store

theorem execQbc_store (f : CFmt) (s : State) :
    KeepsStore s (execQbc f s) := by
  unfold execQbc; apply arrive_store

theorem execShfl_store (f : CFmt) (s : State) :
    KeepsStore s (execShfl f s) := by
  unfold execShfl; apply arrive_store

theorem execVote_store (f : CFmt) (s : State) :
    KeepsStore s (execVote f s) := by
  unfold execVote; apply arrive_store

theorem execRed_store (f : CFmt) (s : State) :
    KeepsStore s (execRed f s) := by
  unfold execRed; apply arrive_store

theorem execScan_store (f : CFmt) (s : State) :
    KeepsStore s (execScan f s) := by
  unfold execScan; apply arrive_store

theorem execMatchI_store (f : CFmt) (s : State) :
    KeepsStore s (execMatchI f s) := by
  unfold execMatchI; apply arrive_store

theorem execElect_store (f : CFmt) (s : State) :
    KeepsStore s (execElect f s) := by
  unfold execElect; apply arrive_store

theorem execTile_store (f : CFmt) (s : State) :
    KeepsStore s (execTile f s) := by
  unfold execTile; apply arrive_store

theorem execCvtmx_store (f : CFmt) (s : State) :
    KeepsStore s (execCvtmx f s) := by
  unfold execCvtmx; apply arrive_store

theorem execPlop_store (f : CFmt) (s : State) :
    KeepsStore s (execPlop f s) := by
  unfold execPlop; apply laneStep_store

theorem execP2v_store (f : CFmt) (s : State) :
    KeepsStore s (execP2v f s) := by
  unfold execP2v; apply laneStep_store

theorem execV2p_store (f : CFmt) (s : State) :
    KeepsStore s (execV2p f s) := by
  unfold execV2p; apply laneStep_store

theorem execMfs_store (f : CFmt) (s : State) :
    KeepsStore s (execMfs f s) := by
  unfold execMfs; apply withLanes_store; intro u c g h ex outs; simp only; (repeat' split) <;> simp_all [foldl_store]

theorem execMts_store (f : CFmt) (s : State) :
    KeepsStore s (execMts f s) := by
  unfold execMts; apply withLanes_store; intro u c g h ex outs; simp only; (repeat' split) <;> simp_all [foldl_store]

theorem execTime_store (f : CFmt) (s : State) :
    KeepsStore s (execTime f s) := by
  unfold execTime; apply laneStep_store

theorem execBra_store (f : BFmt) (s : State) :
    KeepsStore s (execBra f s) := by
  unfold execBra; apply withLanes_store; intro u c g h ex outs; simp [foldl_store]

theorem execBrx_store (f : CFmt) (s : State) :
    KeepsStore s (execBrx f s) := by
  unfold execBrx; apply withLanes_store; intro u c g h ex outs; simp [foldl_store]

theorem execCall_store (f : BFmt) (s : State) :
    KeepsStore s (execCall f s) := by
  unfold execCall; apply withLanes_store; intro u c g h ex outs; simp [foldl_store]

theorem execRet_store (f : CFmt) (s : State) :
    KeepsStore s (execRet f s) := by
  unfold execRet; apply withLanes_store; intro u c g h ex outs; simp [foldl_store]

theorem execFork_store (f : BFmt) (s : State) :
    KeepsStore s (execFork f s) := by
  unfold execFork; apply withLanes_store; intro u c g h ex outs; simp only; (repeat' split) <;> simp_all [foldl_store]

theorem execRetire_store (f : CFmt) (s : State) :
    KeepsStore s (execRetire f s) := by
  unfold execRetire; apply withLanes_store; intro u c g h ex outs; simp [foldl_store]

theorem execYieldI_store (f : CFmt) (s : State) :
    KeepsStore s (execYieldI f s) := by
  unfold execYieldI; apply withLanes_store; intro u c g h ex outs; simp [foldl_store]

theorem execNap_store (f : CFmt) (s : State) :
    KeepsStore s (execNap f s) := by
  unfold execNap; apply withLanes_store; intro u c g h ex outs; simp [foldl_store]

theorem execNop_store (f : CFmt) (s : State) :
    KeepsStore s (execNop f s) := by
  unfold execNop; apply laneStep_store

theorem softTrap_store (i : Instr) (s : State) (cs : Nat) (low : Nat) :
    KeepsStore s (softTrap i s cs low) := by
  unfold softTrap
  apply withLanes_store
  intro u c g h ex outs
  split <;> simp

theorem execTrap_store (f : CFmt) (s : State) :
    KeepsStore s (execTrap f s) := by
  unfold execTrap; apply softTrap_store

theorem execBpt_store (f : CFmt) (s : State) :
    KeepsStore s (execBpt f s) := by
  unfold execBpt; apply softTrap_store

theorem execTret_store (f : CFmt) (s : State) :
    KeepsStore s (execTret f s) := by
  unfold execTret; apply withLanes_store; intro u c g h ex outs; simp only; (repeat' split) <;> simp_all [foldl_store]

theorem execHaltg_store (f : CFmt) (s : State) :
    KeepsStore s (execHaltg f s) := by
  unfold execHaltg; apply withLanes_store; intro u c g h ex outs; simp only; (repeat' split) <;> simp_all [foldl_store]

theorem execQstat_store (f : CFmt) (s : State) :
    KeepsStore s (execQstat f s) := by
  unfold execQstat; apply laneStep_store

theorem execMov_store (f : CFmt) (s : State) :
    KeepsStore s (execMov f s) := by
  unfold execMov; apply withLanes_store; intro u c g h ex outs; simp [foldl_store]

theorem execMovi_store (f : IFmt) (s : State) :
    KeepsStore s (execMovi f s) := by
  unfold execMovi; apply withLanes_store; intro u c g h ex outs; simp [foldl_store]

theorem leaStep_store (i : Instr) (s : State) (md : Nat) (off : LaneIn → Nat) (form : Bool) :
    KeepsStore s (leaStep i s md off form) := by
  unfold leaStep
  apply withLanes_store
  intro u c g h ex outs
  simp only
  split
  · simp
  · split <;> simp

theorem execLea_store (f : CFmt) (s : State) :
    KeepsStore s (execLea f s) := by
  unfold execLea; apply leaStep_store

theorem execLeaImm_store (f : IFmt) (s : State) :
    KeepsStore s (execLeaImm f s) := by
  unfold execLeaImm; apply leaStep_store

theorem execUnassignedOpcode_store (u0 : Slot) (s : State) :
    KeepsStore s (execUnassignedOpcode u0 s) := by
  intro t h; unfold execUnassignedOpcode at h; grind [State.faultAt_store, State.store]

theorem execBundleFormation_store (k : Nat) (sl : Nat) (s : State) :
    KeepsStore s (execBundleFormation k sl s) := by
  intro t h; simp only [execBundleFormation] at h; (repeat' split at h) <;> simp_all <;> subst h <;> simp [foldl_store]

theorem execHoldRunTimeout_store (k : Nat) (sl : Nat) (s : State) :
    KeepsStore s (execHoldRunTimeout k sl s) := by
  intro t h; unfold execHoldRunTimeout at h; grind [State.modSlice_store, State.store]

theorem execNapExpiry_store (gid : Nat) (fib : Nat) (s : State) :
    KeepsStore s (execNapExpiry gid fib s) := by
  intro t h; unfold execNapExpiry at h; grind [State.modFibre_store, State.park_store, State.store]

theorem execQuadSlotReturn_store (gid : Nat) (q : Nat) (s : State) :
    KeepsStore s (execQuadSlotReturn gid q s) := by
  intro t h; unfold execQuadSlotReturn at h; grind [State.setGroup_store, State.store]

theorem execLineFill_store (k : Nat) (vf : Nat) (code : Nat) (off : Nat) (dmg1 : BitVec 512) (dmg2 : BitVec 512) (s : State) :
    KeepsStore s (execLineFill k vf code off dmg1 dmg2 s) := by
  intro t h; unfold execLineFill at h; grind [State.putLine_store, State.store, State.lookFlags_store]

theorem execBufferEntryArrival_store (k : Nat) (vf : Nat) (idx : Nat) (s : State) :
    KeepsStore s (execBufferEntryArrival k vf idx s) := by
  intro t h; simp only [execBufferEntryArrival] at h; (repeat' split at h) <;> simp_all <;> subst h <;> simp [foldl_store]

theorem globalStep_store (i : Instr) (s : State) (body : LaneIn → LaneOut) (size align : Nat) (right : Option Right)
    (helpers : Bool) (one : State → Cur → Shape → Option (Nat × Nat × Nat) → Nat × LaneOut → State)
    (h1 : ∀ u c h t o, (one u c h t o).store = u.store) :
    KeepsStore s (globalStep i s body size align right helpers one) := by
  unfold globalStep
  apply withLanes_store
  intro u c g h ex outs
  simp only
  split
  · simp
  · split
    · exact State.raiseFirst_store _ _ _ _ ‹_›
    · rw [foldl_store _ (fun _ _ => h1 _ _ _ _ _)]
      simp

theorem execLd_store (f : MFmt) (s : State) :
    KeepsStore s (execLd f s) := by
  unfold execLd; apply globalStep_store; intro u c h t o; simp [foldl_store]

theorem execSt_store (f : MFmt) (s : State) :
    KeepsStore s (execSt f s) := by
  unfold execSt; apply globalStep_store; intro u c h t o; simp [foldl_store]

theorem execLdc_store (f : MFmt) (s : State) :
    KeepsStore s (execLdc f s) := by
  unfold execLdc; apply globalStep_store; intro u c h t o; simp [foldl_store]

theorem execPref_store (f : MFmt) (s : State) :
    KeepsStore s (execPref f s) := by
  unfold execPref; apply withLanes_store; intro u c g h ex outs; simp [foldl_store]

theorem padStep_store (i : Instr) (s : State) (body : LaneIn → LaneOut) (size : Nat) (helpers : Bool)
    (one : State → Cur → Shape → Option (Nat × Nat × Nat) → Nat × LaneOut → State)
    (h1 : ∀ u c h t o, (one u c h t o).store = u.store) : KeepsStore s (padStep i s body size helpers one) := by
  unfold padStep
  apply withLanes_store
  intro u c g h ex outs
  simp only
  split
  · exact State.raiseFirst_store _ _ _ _ ‹_›
  · rw [foldl_store _ (fun _ _ => h1 _ _ _ _ _)]
    simp

theorem execLdp_store (f : MFmt) (s : State) :
    KeepsStore s (execLdp f s) := by
  unfold execLdp; apply padStep_store; intro u c h t o; simp [foldl_store]

theorem execStp_store (f : MFmt) (s : State) :
    KeepsStore s (execStp f s) := by
  unfold execStp; apply padStep_store; intro u c h t o; simp [foldl_store]

theorem rangeStep_store (i : Instr) (s : State) (one : State → Cur → Nat → Nat → Nat → State)
    (h1 : ∀ u c f p n, (one u c f p n).store = u.store) : KeepsStore s (rangeStep i s one) := by
  unfold rangeStep
  apply withLanes_store
  intro u c g h ex outs
  simp only
  split
  · simp
  · split
    · exact State.raiseFirst_store _ _ _ _ ‹_›
    · rw [foldl_store _ (fun _ _ => h1 _ _ _ _ _)]
      simp

theorem execWbr_store (f : CFmt) (s : State) :
    KeepsStore s (execWbr f s) := by
  unfold execWbr; apply rangeStep_store; intro u c f p n; simp [foldl_store]

theorem execInvr_store (f : CFmt) (s : State) :
    KeepsStore s (execInvr f s) := by
  unfold execInvr; apply rangeStep_store; intro u c f p n; simp [foldl_store]

theorem execFence_store (f : CFmt) (s : State) :
    KeepsStore s (execFence f s) := by
  unfold execFence; apply withLanes_store; intro u c g h ex outs; simp only; (repeat' split) <;> simp_all [foldl_store]

theorem execRfence_store (f : CFmt) (s : State) :
    KeepsStore s (execRfence f s) := by
  unfold execRfence; apply rangeStep_store; intro u c f p n; simp only; (repeat' split) <;> simp_all [foldl_store]

theorem codeStep_store (i : Instr) (s : State) (one : State → Cur → Group → List Nat → State)
    (h1 : ∀ u c g l, (one u c g l).store = u.store) : KeepsStore s (codeStep i s one) := by
  unfold codeStep
  apply withLanes_store
  intro u c g h ex outs
  simp only
  rw [foldl_store _ (fun _ _ => h1 _ _ _ _)]
  simp

theorem execIpref_store (f : CFmt) (s : State) :
    KeepsStore s (execIpref f s) := by
  unfold execIpref; apply codeStep_store; intro u c g l; simp [foldl_store]

theorem execIpin_store (f : CFmt) (s : State) :
    KeepsStore s (execIpin f s) := by
  unfold execIpin; apply codeStep_store; intro u c g l; simp only; (repeat' split) <;> grind [State.modStack_store, State.modGroup_store, State.store, foldl_store, State.fetchCode_store, State.pinCode_store, codeStep_store]

theorem execIunpin_store (f : CFmt) (s : State) :
    KeepsStore s (execIunpin f s) := by
  unfold execIunpin; apply codeStep_store; intro u c g l; simp only; (repeat' split) <;> simp_all [foldl_store]

theorem atomicStep_store (i : Instr) (f : MFmt) (s : State) (p : AtomSpec) (operand : LaneIn → Nat) :
    KeepsStore s (atomicStep i f s p operand) := by
  unfold atomicStep
  apply withLanes_store
  intro u c g h ex outs
  simp only
  split
  · split
    · exact State.raiseFirst_store _ _ _ _ ‹_›
    · rw [foldl_store _ (fun _ _ => State.eventAccess_store ..)]
      simp
  · split
    · simp
    · split
      · exact State.raiseFirst_store _ _ _ _ ‹_›
      · split
        · simp
        · rw [foldl_store _ (fun _ _ => State.lineEvents_store ..)]
          simp

theorem execAtom_store (f : MFmt) (s : State) :
    KeepsStore s (execAtom f s) := by
  unfold execAtom; apply atomicStep_store

theorem execCas_store (f : MFmt) (s : State) :
    KeepsStore s (execCas f s) := by
  unfold execCas; apply atomicStep_store

theorem execCadd_store (f : MFmt) (s : State) :
    KeepsStore s (execCadd f s) := by
  unfold execCadd; apply atomicStep_store

theorem execCraise_store (f : MFmt) (s : State) :
    KeepsStore s (execCraise f s) := by
  unfold execCraise; apply atomicStep_store

theorem execCread_store (f : MFmt) (s : State) :
    KeepsStore s (execCread f s) := by
  unfold execCread; apply atomicStep_store

theorem execCwait_store (f : MFmt) (s : State) :
    KeepsStore s (execCwait f s) := by
  unfold execCwait; apply withLanes_store; intro u c g h ex outs; simp only; (repeat' split) <;> grind [State.setGroup_store, State.faultAt_store, State.finish_store, State.parkMiss_store, State.raiseFirst_store, State.zeroHelpers_store, State.newWaiter_store, State.store, foldl_store, withLanes_store]

theorem execCwaitReply_store (w : Nat) (s : State) :
    KeepsStore s (execCwaitReply w s) := by
  intro t h; unfold execCwaitReply at h; grind [State.endWait_store, State.store]

theorem execCwaitTimeout_store (w : Nat) (s : State) :
    KeepsStore s (execCwaitTimeout w s) := by
  intro t h; unfold execCwaitTimeout at h; grind [State.lateFault_store, State.store]

theorem execCwaitResend_store (w : Nat) (s : State) :
    KeepsStore s (execCwaitResend w s) := by
  intro t h; unfold execCwaitResend at h; grind [State.askWaiter_store, State.store]

theorem execMcas_store (f : CFmt) (s : State) :
    KeepsStore s (execMcas f s) := by
  unfold execMcas; apply withLanes_store; intro u c g h ex outs; simp only; (repeat' split) <;> grind [State.setGroup_store, State.faultAt_store, State.finish_store, State.parkMiss_store, State.raiseFirst_store, State.zeroHelpers_store, State.startMcas_store, State.store, foldl_store, withLanes_store]

theorem execLockAndRead_store (x : Nat) (st : Nat) (s : State) :
    KeepsStore s (execLockAndRead x st s) := by
  intro t h; unfold execLockAndRead at h; grind [State.modStack_store, State.unlockAll_store, State.acceptAt_store, State.replyMcas_store, State.mcasPlaces_store, State.store, State.cutOff_store, State.keepLines_store, State.setAside_store, State.takeLane_store]

theorem execMcasLockTimeout_store (x : Nat) (s : State) :
    KeepsStore s (execMcasLockTimeout x s) := by
  intro t h; unfold execMcasLockTimeout at h; grind [State.unlockAll_store, State.replyMcas_store, State.store]

theorem execMcasRestart_store (x : Nat) (s : State) :
    KeepsStore s (execMcasRestart x s) := by
  intro t h; unfold execMcasRestart at h; grind [State.sendMcas_store, State.store]

theorem execMcasCancel_store (x : Nat) (s : State) :
    KeepsStore s (execMcasCancel x s) := by
  intro t h; unfold execMcasCancel at h; grind [State.unlockAll_store, State.replyMcas_store, State.unparkMcas_store, State.store]

theorem execAtomp_store (f : MFmt) (s : State) :
    KeepsStore s (execAtomp f s) := by
  unfold execAtomp; apply withLanes_store; intro u c g h ex outs; simp only; (repeat' split) <;> grind [State.faultAt_store, State.retireLanes_store, State.parkMiss_store, State.raiseFirst_store, State.zeroHelpers_store, atompOne_store, State.store, foldl_store, withLanes_store]

theorem execRouterMessage_store (m : Nat) (bad : Bool) (s : State) :
    KeepsStore s (execRouterMessage m bad s) := by
  intro t h; unfold execRouterMessage at h; grind [State.hopFirst_store, State.store]

theorem execHorizonBeat_store (e : Nat) (s : State) :
    KeepsStore s (execHorizonBeat e s) := by
  intro t h; unfold execHorizonBeat at h; grind [State.modAgent_store, State.store]

theorem execBeatRecord_store (st : Nat) (e : Nat) (lane : Nat) (s : State) :
    KeepsStore s (execBeatRecord st e lane s) := by
  intro t h; unfold execBeatRecord at h; grind [State.modStack_store, State.store]

theorem execReplyArrival_store (m : Nat) (s : State) :
    KeepsStore s (execReplyArrival m s) := by
  intro t h; unfold execReplyArrival at h; grind [State.useFlits_store, State.takeReply_store, State.store, State.takePort_store]

theorem execHomeFaultArrival_store (m : Nat) (s : State) :
    KeepsStore s (execHomeFaultArrival m s) := by
  intro t h; unfold execHomeFaultArrival at h; grind [State.failAccess_store, State.store, State.takePort_store]

theorem execOrderedSend_store (m : Nat) (s : State) :
    KeepsStore s (execOrderedSend m s) := by
  intro t h; unfold execOrderedSend at h; grind [State.send_store, State.cuRun_store, State.cuPrep_store, State.runAside_store, State.after_store, State.store]

theorem execDieFailure_store (d : Nat) (s : State) :
    KeepsStore s (execDieFailure d s) := by
  intro t h; simp only [execDieFailure] at h; (repeat' split at h) <;> grind [State.modDie_store, State.modStack_store, State.takeFault_store, State.discardOf_store, State.emptyDie_store, State.store, foldl_store, State.loseWork_store, State.modGroup_store]

theorem execDieRejoin_store (d : Nat) (s : State) :
    KeepsStore s (execDieRejoin d s) := by
  intro t h; simp only [execDieRejoin] at h; (repeat' split at h) <;> simp_all <;> subst h <;> simp [foldl_store]

theorem onceStep_store (i : Instr) (s : State)
    (k : State → Cur → Group → Shape → List Nat → List (Nat × LaneOut) → Nat × LaneOut → State)
    (hk : ∀ u c g h ex outs o, (k u c g h ex outs o).store = u.store) : KeepsStore s (onceStep i s k) := by
  unfold onceStep
  apply withLanes_store
  intro u c g h ex outs
  split
  · exact hk ..
  · simp

theorem execTdef_store (f : CFmt) (s : State) :
    KeepsStore s (execTdef f s) := by
  unfold execTdef; apply onceStep_store; intro u c g h ex outs o; simp only; (repeat' split) <;> simp_all [foldl_store]

theorem execMarm_store (f : CFmt) (s : State) :
    KeepsStore s (execMarm f s) := by
  unfold execMarm; apply onceStep_store; intro u c g h ex outs o; simp only; (repeat' split) <;> simp_all [foldl_store]

theorem execArming_store (gid : Nat) (kr : Nat) (s : State) :
    KeepsStore s (execArming gid kr s) := by
  intro t h; unfold execArming at h; grind [State.setGroup_store, State.takeFault_store, State.park_store, State.passParked_store, State.store]

theorem execMsign_store (f : CFmt) (s : State) :
    KeepsStore s (execMsign f s) := by
  unfold execMsign; apply withLanes_store; intro u c g h ex outs; simp only; (repeat' split) <;> simp_all [foldl_store]

theorem execDescriptorAcceptance_store (gid : Nat) (kr : Nat) (s : State) :
    KeepsStore s (execDescriptorAcceptance gid kr s) := by
  intro t h; unfold execDescriptorAcceptance at h; grind [State.setGroup_store, State.modGroup_store, State.takeFault_store, State.park_store, State.acceptOp_store, State.passParked_store, State.store]

theorem bindStep_store (i : Instr) (f : CFmt) (sparse : Bool) (s : State) : KeepsStore s (bindStep i f sparse s) := by
  unfold bindStep
  apply onceStep_store
  intro u c g h ex outs o
  extract_lets b hn m ub e img take
  have ht : ∀ v : State, v.store = u.store → (take v).store = u.store := by
    intro v hv
    simp only [take]
    split
    · simpa using hv
    · rw [State.retireLanes_store, State.modCore_store]; exact hv
  clear_value take
  split
  · simp
  · split
    · exact ht _ rfl
    · have hr := State.readMasks_store u c.k c.gid g.vf e
      generalize u.readMasks c.k c.gid g.vf e = r at hr
      cases r with
      | wait v =>
        dsimp only
        simpa using hr
      | fault v cs =>
        dsimp only
        simpa using hr
      | ok v bss =>
        dsimp only
        split
        · simpa using hr
        · exact ht _ hr

theorem execMbind_store (f : CFmt) (s : State) :
    KeepsStore s (execMbind f s) := by
  unfold execMbind; apply bindStep_store

theorem execMbinds_store (f : CFmt) (s : State) :
    KeepsStore s (execMbinds f s) := by
  unfold execMbinds; apply bindStep_store

theorem execBindingLoad_store (k : Nat) (s : State) :
    KeepsStore s (execBindingLoad k s) := by
  intro t h; unfold execBindingLoad at h; grind [State.modCore_store, State.modGroup_store, State.lateFault_store, State.wakeBinders_store, State.modEng_store, State.readB_store, State.bindingLoaded_store, State.readB_wait, State.readB_fault, State.store, State.readB_done]

theorem execMatrixPass_store (k : Nat) (s : State) :
    KeepsStore s (execMatrixPass k s) := by
  intro t h; unfold execMatrixPass at h; grind [State.modCore_store, State.startOp_store, State.passAlone_store, State.passPair_store, State.store]

theorem execMpair_store (f : CFmt) (s : State) :
    KeepsStore s (execMpair f s) := by
  unfold execMpair; apply onceStep_store; intro u c g h ex outs o; simp only; (repeat' split) <;> simp_all [foldl_store]

theorem execMpairTimeout_store (gid : Nat) (s : State) :
    KeepsStore s (execMpairTimeout gid s) := by
  intro t h; simp only [execMpairTimeout] at h; (repeat' split at h) <;> simp_all <;> subst h <;> simp [foldl_store]

theorem execMunpair_store (f : CFmt) (s : State) :
    KeepsStore s (execMunpair f s) := by
  unfold execMunpair; apply onceStep_store; intro u c g h ex outs o; simp only; (repeat' split) <;> simp_all [foldl_store]

theorem execPairedStart_store (k : Nat) (s : State) :
    KeepsStore s (execPairedStart k s) := by
  intro t h; simp only [execPairedStart] at h; (repeat' split at h) <;> simp_all <;> subst h <;> simp [foldl_store]

theorem accStep_store (i : Instr) (s : State) (count : Nat × LaneOut → Nat) (helpers : Bool)
    (act : Group → Nat × LaneOut → Group × LaneOut) : KeepsStore s (accStep i s count helpers act) := by
  unfold accStep
  apply withLanes_store
  intro u c g h ex outs
  simp only
  split
  · simp
  · split <;> simp

theorem execMacrd_store (f : CFmt) (s : State) :
    KeepsStore s (execMacrd f s) := by
  unfold execMacrd; apply accStep_store

theorem execMacwr_store (f : CFmt) (s : State) :
    KeepsStore s (execMacwr f s) := by
  unfold execMacwr; apply accStep_store

theorem execMacclr_store (f : CFmt) (s : State) :
    KeepsStore s (execMacclr f s) := by
  unfold execMacclr; apply accStep_store

theorem execSelfTestInjection_store (k : Nat) (bad : BitVec 64) (s : State) :
    KeepsStore s (execSelfTestInjection k bad s) := by
  intro t h; simp only [execSelfTestInjection] at h; (repeat' split at h) <;> simp_all <;> subst h <;> simp [foldl_store]

theorem execMtest_store (f : CFmt) (s : State) :
    KeepsStore s (execMtest f s) := by
  unfold execMtest; apply onceStep_store; intro u c g h ex outs o; simp only; (repeat' split) <;> simp_all [foldl_store]

theorem execMcap_store (f : CFmt) (s : State) :
    KeepsStore s (execMcap f s) := by
  unfold execMcap; apply onceStep_store; intro u c g h ex outs o; simp [foldl_store]

theorem execResultPush_store (k : Nat) (s : State) :
    KeepsStore s (execResultPush k s) := by
  intro t h; unfold execResultPush at h; grind [State.modCore_store, State.servePort_store, State.converge_store, State.modEng_store, State.store]

theorem execQwr_store (f : CFmt) (s : State) :
    KeepsStore s (execQwr f s) := by
  unfold execQwr; apply withLanes_store; intro u c g h ex outs; simp [foldl_store]

theorem execQwrc_store (f : CFmt) (s : State) :
    KeepsStore s (execQwrc f s) := by
  unfold execQwrc; apply withLanes_store; intro u c g h ex outs; simp only; (repeat' split) <;> grind [State.setGroup_store, State.modFibre_store, State.finish_store, State.raiseFirst_store, State.submit_store, State.store, foldl_store, State.lookFlags_store, withLanes_store]

theorem execCardAcceptance_store (id : Nat) (s : State) :
    KeepsStore s (execCardAcceptance id s) := by
  intro t h; simp only [execCardAcceptance] at h; (repeat' split at h) <;> grind [State.farIndex_store, State.cardFault_store, State.acceptCard_store, State.after_store, State.store, foldl_store]

theorem execCopyCardStart_store (d : Nat) (e : Nat) (s : State) :
    KeepsStore s (execCopyCardStart d e s) := by
  intro t h; unfold execCopyCardStart at h; grind [State.modDie_store, State.store]

theorem execBudgetPeriod_store (s : State) :
    KeepsStore s (execBudgetPeriod s) := by
  intro t h; unfold execBudgetPeriod at h; grind [State.store]

theorem execPreemptionRequest_store (l : Nat) (s : State) :
    KeepsStore s (execPreemptionRequest l s) := by
  intro t h; unfold execPreemptionRequest at h; grind [State.modGang_store, State.haltPartition_store, State.store]

theorem execPrepare_store (l : Nat) (d : Nat) (s : State) :
    KeepsStore s (execPrepare l d s) := by
  intro t h; unfold execPrepare at h; grind [State.modGang_store, State.haltDie_store, State.store]

theorem execPartcfgWrite_store (v : BitVec 64) (s : State) :
    KeepsStore s (execPartcfgWrite v s) := by
  intro t h; unfold execPartcfgWrite at h; grind [State.modMh_store, State.store]

theorem execScwayWrite_store (t : Nat) (n : Nat) (v : BitVec 64) (s : State) :
    KeepsStore s (execScwayWrite t n v s) := by
  intro t h; unfold execScwayWrite at h; grind [State.modStack_store, State.store]

theorem execAquotaWrite_store (t : Nat) (n : Nat) (v : BitVec 64) (s : State) :
    KeepsStore s (execAquotaWrite t n v s) := by
  intro t h; unfold execAquotaWrite at h; grind [State.modStack_store, State.store]

theorem execCquotaWrite_store (d : Nat) (n : Nat) (v : BitVec 32) (s : State) :
    KeepsStore s (execCquotaWrite d n v s) := by
  intro t h; unfold execCquotaWrite at h; grind [State.modDie_store, State.cuRun_store, State.store]

theorem execTickpWrite_store (l : Nat) (v : BitVec 32) (s : State) :
    KeepsStore s (execTickpWrite l v s) := by
  intro t h; unfold execTickpWrite at h; grind [State.modGang_store, State.store]

theorem execSubqWrite_store (n : Nat) (v : BitVec 256) (s : State) :
    KeepsStore s (execSubqWrite n v s) := by
  intro t h; unfold execSubqWrite at h; grind [State.modCtx_store, State.forget_store, State.store]

theorem execAlarmpolWrite_store (v : BitVec 32) (s : State) :
    KeepsStore s (execAlarmpolWrite v s) := by
  intro t h; simp [execAlarmpolWrite] at h; simp [← h]

theorem execCstatWrite_store (vf : Nat) (v : BitVec 32) (s : State) :
    KeepsStore s (execCstatWrite vf v s) := by
  intro t h; unfold execCstatWrite at h; grind [State.modCtx_store, State.store]

theorem execKeygen_store (k : Nat) (s : State) :
    KeepsStore s (execKeygen k s) := by
  intro t h; simp only [execKeygen] at h; (repeat' split at h) <;> grind [State.drawKey_store, State.runCmd_store, State.store, foldl_store]

theorem execZeroise_store (k : Nat) (s : State) :
    KeepsStore s (execZeroise k s) := by
  intro t h; simp only [execZeroise] at h; (repeat' split at h) <;> grind [State.zeroSlot_store, State.endWindows_store, State.scrubFrames_store, State.queueJob_store, State.runCmd_store, State.store, foldl_store]

theorem execWindow_store (k : Nat) (s : State) :
    KeepsStore s (execWindow k s) := by
  intro t h; simp only [execWindow] at h; (repeat' split at h) <;> grind [State.modStack_store, State.modMh_store, State.drawKey_store, State.runCmd_store, State.store, foldl_store]

theorem execAssign_store (k : Nat) (s : State) :
    KeepsStore s (execAssign k s) := by
  intro t h; simp only [execAssign] at h; (repeat' split at h) <;> grind [State.modStack_store, State.runCmd_store, State.store, foldl_store]

theorem execScrub_store (k : Nat) (s : State) :
    KeepsStore s (execScrub k s) := by
  intro t h; simp only [execScrub] at h; (repeat' split at h) <;> grind [State.scrubFrames_store, State.queueJob_store, State.runCmd_store, State.store, foldl_store]

theorem execInvbuf_store (k : Nat) (s : State) :
    KeepsStore s (execInvbuf k s) := by
  intro t h; unfold execInvbuf at h; grind [State.modCtx_store, State.runCmd_store, State.store]

theorem execInvtlb_store (k : Nat) (s : State) :
    KeepsStore s (execInvtlb k s) := by
  intro t h; unfold execInvtlb at h; grind [State.runCmd_store, State.store]

theorem execInvrtn_store (k : Nat) (s : State) :
    KeepsStore s (execInvrtn k s) := by
  intro t h; unfold execInvrtn at h; grind [State.runCmd_store, State.store]

theorem execInstall_store (k : Nat) (s : State) :
    KeepsStore s (execInstall k s) := by
  intro t h; unfold execInstall at h; grind [State.modCtx_store, State.forget_store, State.halyardRead_store, State.runCmd_store, State.halyardRead_wait, State.halyardRead_fault, State.store, State.halyardRead_done]

theorem execSecurityStatus_store (k : Nat) (s : State) :
    KeepsStore s (execSecurityStatus k s) := by
  intro t h; unfold execSecurityStatus at h; grind [State.modCore_store, State.modAgent_store, State.serveQ8_store, State.store]

theorem execGetVersion_store (vf : Nat) (s : State) :
    KeepsStore s (execGetVersion vf s) := by
  intro t h; unfold execGetVersion at h; grind [State.emit_store, State.respond_store, State.setSpdm_store, State.store]

theorem execGetCapabilities_store (vf : Nat) (s : State) :
    KeepsStore s (execGetCapabilities vf s) := by
  intro t h; unfold execGetCapabilities at h; grind [State.respond_store, State.spdmIf_store, State.setSpdm_store, State.store]

theorem execNegotiateAlgorithms_store (vf : Nat) (s : State) :
    KeepsStore s (execNegotiateAlgorithms vf s) := by
  intro t h; unfold execNegotiateAlgorithms at h; grind [State.respond_store, State.spdmIf_store, State.setSpdm_store, State.store]

theorem execGetDigests_store (vf : Nat) (s : State) :
    KeepsStore s (execGetDigests vf s) := by
  intro t h; unfold execGetDigests at h; grind [State.respond_store, State.spdmIf_store, State.store]

theorem execGetCertificate_store (vf : Nat) (s : State) :
    KeepsStore s (execGetCertificate vf s) := by
  intro t h; unfold execGetCertificate at h; grind [State.respond_store, State.spdmIf_store, State.store]

theorem execChallenge_store (vf : Nat) (nonce : Nat) (s : State) :
    KeepsStore s (execChallenge vf nonce s) := by
  intro t h; unfold execChallenge at h; grind [State.respond_store, State.spdmIf_store, State.store]

theorem execGetMeasurements_store (vf : Nat) (idx : Nat) (s : State) :
    KeepsStore s (execGetMeasurements vf idx s) := by
  intro t h; unfold execGetMeasurements at h; grind [State.emit_store, State.respond_store, State.spdmIf_store, State.store]

theorem execKeyExchange_store (vf : Nat) (s : State) :
    KeepsStore s (execKeyExchange vf s) := by
  intro t h; unfold execKeyExchange at h; grind [State.modCtx_store, State.modMh_store, State.respond_store, State.spdmIf_store, State.store]

theorem execFinish_store (vf : Nat) (s : State) :
    KeepsStore s (execFinish vf s) := by
  intro t h; unfold execFinish at h; grind [State.finish_store, State.respond_store, State.spdmIf_store, State.setSpdm_store, State.store]

theorem execKeyUpdate_store (vf : Nat) (s : State) :
    KeepsStore s (execKeyUpdate vf s) := by
  intro t h; unfold execKeyUpdate at h; grind [State.modCtx_store, State.modMh_store, State.respond_store, State.spdmIf_store, State.store]

theorem execEndSession_store (vf : Nat) (s : State) :
    KeepsStore s (execEndSession vf s) := by
  intro t h; unfold execEndSession at h; grind [State.modCtx_store, State.respond_store, State.spdmIf_store, State.store]

theorem execConsent_store (vf : Nat) (win : Nat) (peer : Nat) (len : Nat) (rights : BitVec 4) (s : State) :
    KeepsStore s (execConsent vf win peer len rights s) := by
  intro t h; unfold execConsent at h; grind [State.modCtx_store, State.emit_store, State.spdmIf_store, State.store]

theorem execConsentWithdrawal_store (vf : Nat) (win : Nat) (s : State) :
    KeepsStore s (execConsentWithdrawal vf win s) := by
  intro t h; unfold execConsentWithdrawal at h; grind [State.modCtx_store, State.endWindows_store, State.spdmIf_store, State.store]

theorem execIdeKeyProgramming_store (vf : Nat) (stream : IdeRef) (key : Nat) (s : State) :
    KeepsStore s (execIdeKeyProgramming vf stream key s) := by
  intro t h; unfold execIdeKeyProgramming at h; grind [State.modCtx_store, State.emit_store, State.spdmIf_store, State.store, State.modMh_store]

theorem execTdispRequest_store (vf : Nat) (r : TdiReq) (s : State) :
    KeepsStore s (execTdispRequest vf r s) := by
  intro t h; unfold execTdispRequest at h; grind [State.modCtx_store, State.emit_store, State.store]

theorem execLinkSessionRequest_store (vf : Nat) (t : Nat) (p : Nat) (s : State) :
    KeepsStore s (execLinkSessionRequest vf t p s) := by
  intro t h; unfold execLinkSessionRequest at h; grind [State.modMh_store, State.emit_store, State.modHx_store, State.spdmIf_store, State.store]

theorem execLinkKeyRotation_store (t : Nat) (p : Nat) (s : State) :
    KeepsStore s (execLinkKeyRotation t p s) := by
  intro t h; unfold execLinkKeyRotation at h; grind [State.modMh_store, State.modHx_store, State.store]

theorem execRotationConfirmation_store (t : Nat) (p : Nat) (s : State) :
    KeepsStore s (execRotationConfirmation t p s) := by
  intro t h; unfold execRotationConfirmation at h; grind [State.emit_store, State.modHx_store, State.store]

theorem execOldGenerationNotice_store (t : Nat) (p : Nat) (count : Nat) (s : State) :
    KeepsStore s (execOldGenerationNotice t p count s) := by
  intro t h; unfold execOldGenerationNotice at h; grind [State.modHx_store, State.store]

theorem execLinkTrained_store (t : Nat) (p : Nat) (up : Bool) (s : State) :
    KeepsStore s (execLinkTrained t p up s) := by
  intro t h; unfold execLinkTrained at h; grind [State.modHx_store, State.store]

theorem execHexavoFrame_store (t : Nat) (p : Nat) (kg : Bool) (tagOk : Bool) (ops : List HxOp) (s : State) :
    KeepsStore s (execHexavoFrame t p kg tagOk ops s) := by
  intro t h; simp only [execHexavoFrame] at h; (repeat' split at h) <;> simp_all <;> subst h <;> simp [foldl_store]

theorem execHostWrite_store (vf : Nat) (off : Nat) (data : List Byte) (s : State) :
    KeepsStore s (execHostWrite vf off data s) := by
  intro t h; unfold execHostWrite at h; grind [State.emit_store, State.hostTurn_store, State.hostRequests_store, State.bar2Write_store, State.pfWrite_store, State.store]

theorem execHostRead_store (vf : Nat) (off : Nat) (len : Nat) (s : State) :
    KeepsStore s (execHostRead vf off len s) := by
  intro t h; unfold execHostRead at h; grind [State.emit_store, State.hostTurn_store, State.hostRequests_store, State.store]

theorem execHostFetchAdd_store (vf : Nat) (off : Nat) (size : Nat) (inc : Nat) (s : State) :
    KeepsStore s (execHostFetchAdd vf off size inc s) := by
  intro t h; unfold execHostFetchAdd at h; grind [State.emit_store, State.hostTurn_store, State.hostRequests_store, State.store]

theorem execBringUp_store (ok : Bool) (s : State) :
    KeepsStore s (execBringUp ok s) := by
  intro t h; simp only [execBringUp] at h; (repeat' split at h) <;> simp_all <;> subst h <;> simp [foldl_store]

theorem execAlarmEvent_store (sensor : Nat) (s : State) :
    KeepsStore s (execAlarmEvent sensor s) := by
  intro t h; simp only [execAlarmEvent] at h; (repeat' split at h) <;> simp_all <;> subst h <;> simp [foldl_store]

theorem execThermalTrip_store (d : Nat) (s : State) :
    KeepsStore s (execThermalTrip d s) := by
  intro t h; unfold execThermalTrip at h; grind [State.modDie_store, State.store, State.event_store]

theorem execRemapTableError_store (st : Nat) (bank : Nat) (both : Bool) (s : State) :
    KeepsStore s (execRemapTableError st bank both s) := by
  intro t h; unfold execRemapTableError at h; grind [State.modStack_store, State.store]

theorem execDieWakeComplete_store (d : Nat) (s : State) :
    KeepsStore s (execDieWakeComplete d s) := by
  intro t h; simp only [execDieWakeComplete] at h; (repeat' split at h) <;> grind [State.modDie_store, State.modStack_store, State.modAgent_store, State.store, foldl_store]

theorem execSelfref_store (t : Nat) (s : State) :
    KeepsStore s (execSelfref t s) := by
  intro t h; simp [execSelfref] at h; simp [← h]

theorem execActive_store (t : Nat) (s : State) :
    KeepsStore s (execActive t s) := by
  intro t h; simp [execActive] at h; simp [← h]

theorem execPwrcapWrite_store (v : BitVec 32) (s : State) :
    KeepsStore s (execPwrcapWrite v s) := by
  intro t h; unfold execPwrcapWrite at h; grind [State.modMh_store, State.store]

theorem execPowerArbitration_store (dieW : List Nat) (stkW : List Nat) (s : State) :
    KeepsStore s (execPowerArbitration dieW stkW s) := by
  intro t h; unfold execPowerArbitration at h; grind [State.modMh_store, State.store]

theorem execTimeSync_store (u : Nat) (rate : BitVec 64) (s : State) :
    KeepsStore s (execTimeSync u rate s) := by
  intro t h; unfold execTimeSync at h; grind [State.modDie_store, State.modStack_store, State.store]

theorem execCollectiveInstanceStart_store (c : Nat) (i : Nat) (s : State) :
    KeepsStore s (execCollectiveInstanceStart c i s) := by
  intro t h; unfold execCollectiveInstanceStart at h; grind [State.modStack_store, State.setInst_store, State.endInst_store, State.store]

theorem execCsrCread_store (c : Nat) (i : Nat) (s : State) :
    KeepsStore s (execCsrCread c i s) := by
  intro t h; unfold execCsrCread at h; grind [State.faultInst_store, State.instNext_store, State.instTurn_store, State.instPeek_store, State.instPeek_wait, State.instPeek_fault, State.store, State.instPeek_done]

theorem execCsrCwait_store (c : Nat) (i : Nat) (s : State) :
    KeepsStore s (execCsrCwait c i s) := by
  intro t h; simp only [execCsrCwait] at h; (repeat' split at h) <;> grind [State.setInst_store, State.endInst_store, State.faultInst_store, State.instNext_store, State.instTurn_store, State.instPeek_store, State.instPeek_wait, State.instPeek_fault, State.store, foldl_store, State.instPeek_done]

theorem execCabrt_store (c : Nat) (i : Nat) (s : State) :
    KeepsStore s (execCabrt c i s) := by
  intro t h; unfold execCabrt at h; grind [State.endInst_store, State.instTurn_store, State.store]

theorem execHxsend_store (c : Nat) (i : Nat) (s : State) :
    KeepsStore s (execHxsend c i s) := by
  unfold execHxsend
  apply keepsStore_next
  apply State.instTurn_store
  intro q x w
  split
  · rfl
  · simp only
    split
    · rfl
    · split
      · simp
      · split
        · rw [State.engineRead_wait (h := ‹_›)]
        · rw [State.faultInst_store, State.engineRead_fault (h := ‹_›)]
        · have h1 := State.engineRead_done (h := ‹_›)
          split
          · split
            · rw [State.instNext_store]; exact h1
            · rw [State.faultInst_store]; exact h1
          · rw [State.faultInst_store]; exact h1

theorem execHxsendComplete_store (c : Nat) (i : Nat) (s : State) :
    KeepsStore s (execHxsendComplete c i s) := by
  intro t h; unfold execHxsendComplete at h; grind [State.send_store, State.request_store, State.collFault_store, State.sendOut_store, State.engineSeg_store, State.setInst_store, State.engineSeg_wait, State.engineSeg_fault, State.store, State.engineSeg_done]

end Sys2Proof.Machine
end

