-- ==== Sys2Proof/Laws/StoreE.lean ====
section
/-! SUPPORT. The operations of Home.lean to Cards.lean that write the byte stores keep their canonical form. -/

namespace Sys2Proof.Machine

/-- The two byte stores are in canonical form. -/
def okStore (p : List Host.Cell × List Host.Cell) : Prop := Memory.wf p.1 = true ∧ Memory.wf p.2 = true

/-- What keeps the canonical form of the byte stores. -/
abbrev Ok (s t : State) : Prop := okStore s.store → okStore t.store

theorem ok_of_eq {s t : State} (h : t.store = s.store) : Ok s t := by intro hs; rw [h]; exact hs

theorem ok_trans {s t u : State} (h1 : Ok s t) (h2 : Ok t u) : Ok s u := fun h => h2 (h1 h)

theorem foldl_ok {α : Type} (f : State → α → State) (h : ∀ s x, Ok s (f s x)) (l : List α) :
    ∀ s, Ok s (l.foldl f s) := by
  induction l with
  | nil => intro s hs; exact hs
  | cons x t ih => intro s hs; exact ih _ (h s x hs)

theorem foldl_ok_pair {α β : Type} (f : State × β → α → State × β)
    (h : ∀ r x, okStore r.1.store → okStore (f r x).1.store) (l : List α) :
    ∀ r, okStore r.1.store → okStore (l.foldl f r).1.store := by
  induction l with
  | nil => intro r hr; exact hr
  | cons x t ih => intro r hr; exact ih _ (h r x hr)

theorem State.homeWrite_ok (s : State) (l : Loc) (pin : Bool) (addr : Nat) (bs : Tab Byte) (vec : Option (Tab Nat)) :
    Ok s (State.homeWrite s l pin addr bs vec) := by
  intro h
  unfold State.homeWrite
  simp only
  split
  · rw [State.poke_store, State.modStack_store]
    exact ⟨h.1, memPut_foldl_wf _ _ h.2⟩
  · rw [State.poke_store, State.modStack_store]
    exact ⟨memPut_foldl_wf (addr / 128 * 128) bs h.1, h.2⟩

theorem State.homeAt_fst {s t : State} {l : Loc} {k : AccKind} {w : Bool} {o : Option Nat} {a b : Nat} {x : HomeAt}
    (h : s.homeAt l k w o a b = (t, x)) : t.store = s.store := by
  have h1 := State.homeAt_store s l k w o a b
  rw [h] at h1
  exact h1

theorem State.writeTab_ok (s : State) (e : Nat) (l : Loc) (bs : Tab Byte) (rx : Bool) :
    Ok s (State.writeTab s e l bs rx).state := by
  intro hs
  unfold State.writeTab
  extract_lets u
  have hu : okStore u.store := by simpa [u] using hs
  clear_value u
  split
  · simpa using hu
  · split
    · exact hu
    · split
      · simpa using hu
      · have hh := State.homeAt_store u l .write (bs.length == 128) none 0 0
        generalize u.homeAt l .write (bs.length == 128) none 0 0 = r at hh
        obtain ⟨v, x⟩ := r
        have hv : okStore v.store := by rw [show v.store = u.store from hh]; exact hu
        cases x with
        | wait => simpa using hv
        | fault cs => simpa using hv
        | drop => simpa using hv
        | _ pin addr =>
          dsimp only
          split
          · exact State.homeWrite_ok _ _ _ _ _ _ (by simpa using hv)
          · split
            · exact State.homeWrite_ok _ _ _ _ _ _ (by simpa using hv)
            · exact State.homeWrite_ok _ _ _ _ _ _ (by simpa using hv)

theorem State.writeTab_wait {s : State} {e : Nat} {l : Loc} {bs : Tab Byte} {rx : Bool} {t : State} (h : State.writeTab s e l bs rx = .wait t) : Ok s t := by
  have h1 := State.writeTab_ok s e l bs rx
  rw [h] at h1
  exact h1

theorem State.writeTab_fault {s : State} {e : Nat} {l : Loc} {bs : Tab Byte} {rx : Bool} {t : State} {cs : Nat} (h : State.writeTab s e l bs rx = .fault t cs) : Ok s t := by
  have h1 := State.writeTab_ok s e l bs rx
  rw [h] at h1
  exact h1

theorem State.writeTab_done {s : State} {e : Nat} {l : Loc} {bs : Tab Byte} {rx : Bool} {t : State} {v : Unit} (h : State.writeTab s e l bs rx = .ok t v) : Ok s t := by
  have h1 := State.writeTab_ok s e l bs rx
  rw [h] at h1
  exact h1

theorem State.writeDirect_ok (s : State) (e : Nat) (l : Loc) (bs : List Byte) :
    Ok s (State.writeDirect s e l bs).state :=
  State.writeTab_ok s e l (atOffsets (l.sva % 128) bs) false

theorem State.writeDirect_wait {s : State} {e : Nat} {l : Loc} {bs : List Byte} {t : State} (h : State.writeDirect s e l bs = .wait t) : Ok s t := by
  have h1 := State.writeDirect_ok s e l bs
  rw [h] at h1
  exact h1

theorem State.writeDirect_fault {s : State} {e : Nat} {l : Loc} {bs : List Byte} {t : State} {cs : Nat} (h : State.writeDirect s e l bs = .fault t cs) : Ok s t := by
  have h1 := State.writeDirect_ok s e l bs
  rw [h] at h1
  exact h1

theorem State.writeDirect_done {s : State} {e : Nat} {l : Loc} {bs : List Byte} {t : State} {v : Unit} (h : State.writeDirect s e l bs = .ok t v) : Ok s t := by
  have h1 := State.writeDirect_ok s e l bs
  rw [h] at h1
  exact h1

theorem State.counterDirect_ok (s : State) (e : Nat) (l : Loc) (kind : AKind) (x : Nat) :
    Ok s (State.counterDirect s e l kind x).state := by
  intro hs
  unfold State.counterDirect
  extract_lets u
  have hu : okStore u.store := by simpa [u] using hs
  clear_value u
  split
  · simpa using hu
  · split
    · exact hu
    · split
      · simpa using hu
      · have hh := State.homeAt_store u l .atomic false none 0 0
        generalize u.homeAt l .atomic false none 0 0 = r at hh
        obtain ⟨v, x⟩ := r
        have hv : okStore v.store := by rw [show v.store = u.store from hh]; exact hu
        cases x with
        | wait => simpa using hv
        | fault cs => simpa using hv
        | drop => simpa using hv
        | _ pin addr =>
          dsimp only
          split
          · simpa using hv
          · split
            · exact State.homeWrite_ok _ _ _ _ _ _ (by simpa using hv)
            · exact State.homeWrite_ok _ _ _ _ _ _ (by simpa using hv)

theorem State.counterDirect_wait {s : State} {e : Nat} {l : Loc} {kind : AKind} {x : Nat} {t : State} (h : State.counterDirect s e l kind x = .wait t) : Ok s t := by
  have h1 := State.counterDirect_ok s e l kind x
  rw [h] at h1
  exact h1

theorem State.counterDirect_fault {s : State} {e : Nat} {l : Loc} {kind : AKind} {x : Nat} {t : State} {cs : Nat} (h : State.counterDirect s e l kind x = .fault t cs) : Ok s t := by
  have h1 := State.counterDirect_ok s e l kind x
  rw [h] at h1
  exact h1

theorem State.counterDirect_done {s : State} {e : Nat} {l : Loc} {kind : AKind} {x : Nat} {t : State} {v : (Option Nat)} (h : State.counterDirect s e l kind x = .ok t v) : Ok s t := by
  have h1 := State.counterDirect_ok s e l kind x
  rw [h] at h1
  exact h1

theorem State.homeStore_ok (s : State) (m : Nat) (a : Access) (bs : Tab Byte) :
    Ok s (State.homeStore s m a bs) := by
  intro hs; unfold State.homeStore; grind [State.homeAt_store, State.answer_store, State.homeWrite_ok, State.store, foldl_ok]

theorem State.homeAtomic_ok (s : State) (m : Nat) (a : Access) (kind : AKind) (steps : List AStep) :
    Ok s (State.homeAtomic s m a kind steps) := by
  intro hs; unfold State.homeAtomic; grind [State.homeAt_store, State.answer_store, State.homeWrite_ok, State.store, foldl_ok]

theorem State.mcasWrite_ok (s : State) (vec : Option (Tab Nat)) (x0 : List McasEnt) :
    Ok s (State.mcasWrite s vec x0).1 := by
  induction x0 generalizing s with
  | nil => intro hs; exact hs
  | cons e t ih =>
    intro hs
    rw [State.mcasWrite]
    split
    · split
      · exact ih s hs
      · exact ih _ (State.homeWrite_ok _ _ _ _ _ _ hs)
    · exact ih s hs

theorem execMcasCommit_ok (x : Nat) (st : Nat) (s : State) :
    ∀ t, execMcasCommit x st s = .next t → Ok s t := by
  intro t ht hs
  unfold execMcasCommit at ht
  split at ht
  · cases ht; exact hs
  · split at ht
    · cases ht; exact hs
    · rename_i q _ _ a _
      extract_lets all m here lost u at ht
      split at ht
      · cases ht; exact hs
      · have hu : okStore u.store := by
          simp only [u]; split
          · exact hs
          · split <;> simpa using hs
        clear_value u m here all
        have hw : okStore ((if lost then (u, if m = 0 then some cause.fabricTimeout else none)
            else if m = 0 then u.mcasWrite a.stored here else (u, none)).1).store := by
          split
          · exact hu
          · split
            · exact State.mcasWrite_ok _ _ _ hu
            · exact hu
        generalize (if lost then (u, if m = 0 then some cause.fabricTimeout else none)
            else if m = 0 then u.mcasWrite a.stored here else (u, none)) = r at ht hw
        obtain ⟨v, err⟩ := r
        dsimp only at ht hw
        split at ht <;> cases ht
        · rw [State.replyMcas_store]; exact hw
        · exact hw

theorem execAtompRoutine_ok (m : Nat) (s : State) :
    ∀ t, execAtompRoutine m s = .next t → Ok s t := by
  intro t ht hs; simp only [execAtompRoutine] at ht; (repeat' split at ht) <;> grind [State.modStack_store, State.charge_store, State.homeAt_store, State.answer_store, State.answerAgain_store, State.forget_store, State.homeWrite_ok, State.store, foldl_ok, State.keepLines_store, State.setAside_store]

theorem State.performAt_ok (s : State) (m : Nat) (a : Access) :
    Ok s (State.performAt s m a) := by
  intro hs; unfold State.performAt; grind [State.answerAgain_store, State.homeLoad_store, State.homeWait_store, State.atPcie_store, State.atHexavo_store, State.forget_store, State.homeStore_ok, State.homeAtomic_ok, State.store, foldl_ok]

theorem State.performIf_ok (s : State) (m : Nat) (kind : Access → Bool) :
    Ok s (State.performIf s m kind) := by
  intro hs; unfold State.performIf; grind [State.performAt_ok, State.store, foldl_ok]

theorem execHomeStoreApply_ok (m : Nat) (s : State) :
    ∀ t, execHomeStoreApply m s = .next t → Ok s t := by
  intro t ht hs; unfold execHomeStoreApply at ht; grind [State.performIf_ok, State.store, foldl_ok]

theorem execHomeLoadPerform_ok (m : Nat) (s : State) :
    ∀ t, execHomeLoadPerform m s = .next t → Ok s t := by
  intro t ht hs; unfold execHomeLoadPerform at ht; grind [State.performIf_ok, State.store, foldl_ok]

theorem execRelaxedApply_ok (m : Nat) (s : State) :
    ∀ t, execRelaxedApply m s = .next t → Ok s t := by
  intro t ht hs; unfold execRelaxedApply at ht; grind [State.performIf_ok, State.store, foldl_ok]

theorem execWriteBack_ok (m : Nat) (s : State) :
    ∀ t, execWriteBack m s = .next t → Ok s t := by
  intro t ht hs; unfold execWriteBack at ht; grind [State.performIf_ok, State.store, foldl_ok]

theorem State.mcasLost_ok (s : State) (a : Access) :
    Ok s (State.mcasLost s a) := by
  intro hs; unfold State.mcasLost; grind [State.unlockAll_store, State.mcasWrite_ok, State.store, foldl_ok]

theorem execRequestTimeout_ok (m : Nat) (s : State) :
    ∀ t, execRequestTimeout m s = .next t → Ok s t := by
  intro t ht hs; unfold execRequestTimeout at ht; grind [State.timeOut_store, State.mcasLost_ok, State.store, foldl_ok]

theorem State.putWord_ok {s t : State} {e vf ptr v : Nat} (h : State.putWord s e vf ptr v = some t) : Ok s t := by
  intro hs
  unfold State.putWord at h
  split at h
  · cases h; simpa using hs
  · split at h
    · cases h; simpa using hs
    · split at h
      · cases h
      · cases h; simpa using State.writeDirect_fault ‹_› hs
      · cases h; exact State.writeDirect_done ‹_› hs

theorem State.advanceCounter_ok (s : State) (e vf ptr inc : Nat) :
    Ok s (State.advanceCounter s e vf ptr inc).state := by
  intro hs
  unfold State.advanceCounter
  split
  · simpa using hs
  · split
    · simpa using hs
    · split
      · exact State.counterDirect_wait ‹_› hs
      · split
        · exact State.counterDirect_fault ‹_› hs
        · simpa using State.counterDirect_fault ‹_› hs
      · exact State.counterDirect_done ‹_› hs

theorem State.advanceCounter_wait {s : State} {e : Nat} {vf : Nat} {ptr : Nat} {inc : Nat} {t : State} (h : State.advanceCounter s e vf ptr inc = .wait t) : Ok s t := by
  have h1 := State.advanceCounter_ok s e vf ptr inc
  rw [h] at h1
  exact h1

theorem State.advanceCounter_fault {s : State} {e : Nat} {vf : Nat} {ptr : Nat} {inc : Nat} {t : State} {cs : Nat} (h : State.advanceCounter s e vf ptr inc = .fault t cs) : Ok s t := by
  have h1 := State.advanceCounter_ok s e vf ptr inc
  rw [h] at h1
  exact h1

theorem State.advanceCounter_done {s : State} {e : Nat} {vf : Nat} {ptr : Nat} {inc : Nat} {t : State} {v : Bool} (h : State.advanceCounter s e vf ptr inc = .ok t v) : Ok s t := by
  have h1 := State.advanceCounter_ok s e vf ptr inc
  rw [h] at h1
  exact h1

theorem State.advance_ok (s : State) (key : Nat) (e : Nat) (vf : Nat) (o : Compl) :
    Ok s (State.advance s key e vf o).state := by
  intro hs
  unfold State.advance
  split
  · exact hs
  · split
    · extract_lets w
      have h1 := State.advanceCounter_done ‹_› hs
      split
      · simpa using h1
      · generalize hq : State.putWord _ e vf _ w = q
        cases q with
        | none => exact hs
        | some v => exact State.putWord_ok hq h1
    · exact State.advanceCounter_done ‹_› hs
    · exact State.advanceCounter_fault ‹_› hs
    · exact hs

theorem State.advance_wait {s : State} {key : Nat} {e : Nat} {vf : Nat} {o : Compl} {t : State} (h : State.advance s key e vf o = .wait t) : Ok s t := by
  have h1 := State.advance_ok s key e vf o
  rw [h] at h1
  exact h1

theorem State.advance_fault {s : State} {key : Nat} {e : Nat} {vf : Nat} {o : Compl} {t : State} {cs : Nat} (h : State.advance s key e vf o = .fault t cs) : Ok s t := by
  have h1 := State.advance_ok s key e vf o
  rw [h] at h1
  exact h1

theorem State.advance_done {s : State} {key : Nat} {e : Nat} {vf : Nat} {o : Compl} {t : State} {v : Unit} (h : State.advance s key e vf o = .ok t v) : Ok s t := by
  have h1 := State.advance_ok s key e vf o
  rw [h] at h1
  exact h1

theorem State.complete_ok (s : State) (key e vf : Nat) (o : Compl) (st : Nat) :
    Ok s (State.complete s key e vf o st).state := by
  intro hs
  unfold State.complete
  extract_lets marked ovf w done
  have hd : ∀ d : Direct Unit, okStore d.state.store → okStore (done d).state.store := by
    intro d h
    cases d with
    | ok t v => simpa [done] using h
    | wait t =>
      simp only [done]
      split
      · exact h
      · exact hs
    | fault t cs => exact h
  clear_value done
  split
  · exact hs
  · split
    · exact hs
    · split
      · refine hd _ ?_
        split
        · exact hs
        · exact State.advance_ok _ _ _ _ _ hs
      · split
        · have h1 : ∀ p r, okStore (s.wordRecord e vf p r).store := by intro p r; simpa using hs
          refine hd _ ?_
          split
          · exact h1 _ _
          · exact State.advance_ok _ _ _ _ _ (h1 _ _)
        · refine hd _ ?_
          simpa using hs
        · split
          · show okStore (State.store _)
            split <;> simpa using hs
          · split
            · exact hs
            · have h1 := State.putWord_ok ‹_› hs
              refine hd _ ?_
              split
              · exact h1
              · exact State.advance_ok _ _ _ _ _ h1

theorem State.complete_wait {s : State} {key : Nat} {e : Nat} {vf : Nat} {o : Compl} {st : Nat} {t : State} (h : State.complete s key e vf o st = .wait t) : Ok s t := by
  have h1 := State.complete_ok s key e vf o st
  rw [h] at h1
  exact h1

theorem State.complete_fault {s : State} {key : Nat} {e : Nat} {vf : Nat} {o : Compl} {st : Nat} {t : State} {cs : Nat} (h : State.complete s key e vf o st = .fault t cs) : Ok s t := by
  have h1 := State.complete_ok s key e vf o st
  rw [h] at h1
  exact h1

theorem State.complete_done {s : State} {key : Nat} {e : Nat} {vf : Nat} {o : Compl} {st : Nat} {t : State} {v : Unit} (h : State.complete s key e vf o st = .ok t v) : Ok s t := by
  have h1 := State.complete_ok s key e vf o st
  rw [h] at h1
  exact h1

theorem State.completeAll_ok (s : State) (id : Nat) (e : Nat) (vf : Nat) (o : Compl) (task : Option (Nat × Item)) (st : Nat) :
    Ok s (State.completeAll s id e vf o task st).state := by
  intro hs
  unfold State.completeAll
  have h1 := State.complete_ok s (complKey id) e vf o st hs
  split
  · rename_i u h; rw [h] at h1
    split
    · simpa using h1
    · split
      · simpa using State.complete_done ‹_› h1
      · exact State.complete_ok u _ e _ _ st h1
  · exact h1

theorem State.completeAll_wait {s : State} {id : Nat} {e : Nat} {vf : Nat} {o : Compl} {task : Option (Nat × Item)} {st : Nat} {t : State} (h : State.completeAll s id e vf o task st = .wait t) : Ok s t := by
  have h1 := State.completeAll_ok s id e vf o task st
  rw [h] at h1
  exact h1

theorem State.completeAll_fault {s : State} {id : Nat} {e : Nat} {vf : Nat} {o : Compl} {task : Option (Nat × Item)} {st : Nat} {t : State} {cs : Nat} (h : State.completeAll s id e vf o task st = .fault t cs) : Ok s t := by
  have h1 := State.completeAll_ok s id e vf o task st
  rw [h] at h1
  exact h1

theorem State.completeAll_done {s : State} {id : Nat} {e : Nat} {vf : Nat} {o : Compl} {task : Option (Nat × Item)} {st : Nat} {t : State} {v : Unit} (h : State.completeAll s id e vf o task st = .ok t v) : Ok s t := by
  have h1 := State.completeAll_ok s id e vf o task st
  rw [h] at h1
  exact h1

theorem State.copyWrite_ok (s : State) (id : Nat) (c : Card) (cc : CopyCard) (line : Nat) (bs : Tab Byte) :
    Ok s (State.copyWrite s id c cc line bs).state := by
  intro hs
  unfold State.copyWrite
  simp only
  split
  · simpa using hs
  · split
    · exact hs
    · split
      · rw [Direct.state_ok, foldl_store _ (fun _ _ => by simp)]; exact hs
      · split
        · rw [Direct.state_ok, foldl_store _ (fun _ _ => by simp)]; exact hs
        · exact State.writeTab_ok _ _ _ _ _ hs

theorem State.copyWrite_wait {s : State} {id : Nat} {c : Card} {cc : CopyCard} {line : Nat} {bs : Tab Byte} {t : State} (h : State.copyWrite s id c cc line bs = .wait t) : Ok s t := by
  have h1 := State.copyWrite_ok s id c cc line bs
  rw [h] at h1
  exact h1

theorem State.copyWrite_fault {s : State} {id : Nat} {c : Card} {cc : CopyCard} {line : Nat} {bs : Tab Byte} {t : State} {cs : Nat} (h : State.copyWrite s id c cc line bs = .fault t cs) : Ok s t := by
  have h1 := State.copyWrite_ok s id c cc line bs
  rw [h] at h1
  exact h1

theorem State.copyWrite_done {s : State} {id : Nat} {c : Card} {cc : CopyCard} {line : Nat} {bs : Tab Byte} {t : State} {v : Unit} (h : State.copyWrite s id c cc line bs = .ok t v) : Ok s t := by
  have h1 := State.copyWrite_ok s id c cc line bs
  rw [h] at h1
  exact h1

theorem execCopyLine_ok (d : Nat) (e : Nat) (n : Nat) (s : State) :
    ∀ t, execCopyLine d e n s = .next t → Ok s t := by
  intro t ht hs
  unfold execCopyLine at ht
  split at ht
  · cases ht; exact hs
  · extract_lets cc fail at ht
    split at ht
    · cases ht; exact hs
    · split at ht
      · cases ht; rw [State.copyReads_wait (h := ‹_›)]; exact hs
      · cases ht
        show okStore (State.store _)
        have h1 := State.copyReads_fault (h := ‹_›)
        exact h1 ▸ hs
      · rename_i u bs hu
        have h1 : okStore u.store := by rw [State.copyReads_done (h := hu)]; exact hs
        split at ht
        · cases ht; exact State.copyWrite_wait ‹_› h1
        · cases ht
          rename_i w cs hw
          have h2 : okStore w.store := State.copyWrite_fault hw h1
          exact h2
        · cases ht
          rename_i w hw
          have h2 : okStore w.store := State.copyWrite_done hw h1
          rw [State.modDie_store]
          exact h2

theorem State.completeCopy_ok (s : State) (id : Nat) (c : Card) :
    Ok s (State.completeCopy s id c) := by
  intro hs
  unfold State.completeCopy
  extract_lets cc ended st
  split
  · exact hs
  · split
    · exact State.complete_wait ‹_› hs
    · exact State.complete_fault ‹_› hs
    · simpa using State.complete_done ‹_› hs

theorem execEngineCompletion_ok (op : Nat) (s : State) :
    ∀ t, execEngineCompletion op s = .next t → Ok s t := by
  intro t ht hs
  unfold execEngineCompletion at ht
  split at ht
  · cases ht
    split
    · exact State.completeCopy_ok _ _ _ hs
    · exact hs
  · split at ht
    · cases ht; exact hs
    · split at ht
      · cases ht; exact hs
      · split at ht
        · cases ht; exact hs
        · split at ht <;> cases ht
          · exact State.complete_wait ‹_› hs
          · exact State.complete_fault ‹_› hs
          · simpa using State.complete_done ‹_› hs

theorem State.saveOut_ok (s : State) (vf : Nat) :
    Ok s (State.saveOut s vf).1 := by
  intro hs
  unfold State.saveOut
  extract_lets p e r
  have hr : okStore r.1.store := by
    refine foldl_ok_pair _ ?_ _ (s, true) hs
    intro q x hq
    extract_lets l used back
    have hb : ∀ v : State, okStore v.store → okStore (back v).store := by
      intro v hv; simpa [back] using hv
    clear_value back
    have hh := State.homeAt_store (q.1.setHbm l.stack vf 0) l .write (x.2 == 128) none 0 0
    generalize (q.1.setHbm l.stack vf 0).homeAt l .write (x.2 == 128) none 0 0 = y at hh
    obtain ⟨v, z⟩ := y
    have hv : okStore v.store := by
      rw [show v.store = q.1.store by simpa using hh]; exact hq
    cases z with
    | wait => exact hb _ hv
    | fault cs => exact hb _ hv
    | drop => exact hb _ hv
    | _ pin addr => exact State.homeWrite_ok _ _ _ _ _ _ (hb _ hv)
  simpa using hr

theorem State.scribble_ok (s : State) (vf : Nat) :
    Ok s (State.scribble s vf) := by
  intro hs; unfold State.scribble; grind [State.bump_store, State.homeAt_store, State.homeWrite_ok, State.store, foldl_ok, State.saveOut_ok]

theorem State.evict_ok (s : State) (gid : Nat) :
    Ok s (State.evict s gid) := by
  intro hs; unfold State.evict; grind [State.modCore_store, State.setGroup_store, State.releaseLines_store, State.scribble_ok, State.store, foldl_ok]

theorem State.makeRoom_ok {s t : State} {vf k : Nat} {n : Need} {gs : List Nat}
    (h : State.makeRoom s vf k n gs = some t) : Ok s t := by
  induction gs generalizing s with
  | nil =>
    intro hs
    simp only [State.makeRoom] at h
    split at h <;> cases h
    exact hs
  | cons g r ih =>
    intro hs
    simp only [State.makeRoom] at h
    split at h
    · cases h; exact hs
    · split at h
      · exact ih h (State.evict_ok _ _ hs)
      · exact ih h hs

theorem State.clear_ok {s t : State} {vf k : Nat} {n : Need} (h : State.clear s vf k n = some t) : Ok s t :=
  State.makeRoom_ok h

theorem State.bringAll_ok {s t : State} {vf : Nat} {gs : List (Nat × Nat)}
    (h : State.bringAll s vf gs = some t) : Ok s t := by
  induction gs generalizing s with
  | nil =>
    intro hs
    simp only [State.bringAll] at h
    cases h
    exact hs
  | cons g r ih =>
    intro hs
    simp only [State.bringAll] at h
    split at h
    · exact ih h hs
    · split at h
      · exact ih h (by simpa using State.clear_ok ‹_› hs)
      · cases h

theorem State.restoreCluster_ok (s : State) (g0 : Group) :
    Ok s (State.restoreCluster s g0).1 := by
  intro hs; simp only [State.restoreCluster]; (repeat' split) <;> grind [State.modGroup_store, State.resume_store, State.evict_ok, State.bringAll_ok, State.store, foldl_ok]

theorem State.restoreList_ok (s : State) (blocked : List Nat) (x0 : List Group) :
    Ok s (State.restoreList s blocked x0) := by
  induction x0 generalizing s blocked with
  | nil => intro hs; exact hs
  | cons g r ih =>
    intro hs
    simp only [State.restoreList]
    split
    · exact ih _ _ hs
    · split
      · exact ih _ _ hs
      · have h1 := State.restoreCluster_ok s g hs
        split <;> (rename_i hq; rw [hq] at h1; exact ih _ _ h1)

theorem State.restoreVf_ok (s : State) (vf : Nat) :
    Ok s (State.restoreVf s vf) := by
  intro hs; unfold State.restoreVf; grind [State.restoreList_ok, State.store, foldl_ok]

end Sys2Proof.Machine
end

