-- ==== Sys2Proof/Laws/StoreF.lean ====
section
/-! SUPPORT. The operations of Halyard.lean to Collectives.lean that write the byte stores keep their canonical form. -/

namespace Sys2Proof.Machine

theorem State.countTaken_ok (s t : State) (vf j lim cnt : Nat) :
    okStore s.store → Ok t (State.countTaken s t vf j lim cnt) := by
  intro hs ht
  unfold State.countTaken
  generalize hq : State.putWord _ 32 vf cnt (j + 1) = q
  cases q with
  | none => exact hs
  | some u => simpa using State.putWord_ok hq (by simpa using ht)

theorem State.countEntry_ok (s : State) (vf : Nat) (j : Nat) (lim : Nat) (cnt : Nat) (bs : List Byte) :
    Ok s (State.countEntry s vf j lim cnt bs) := by
  intro hs
  unfold State.countEntry
  split
  · split
    · have h1 := State.complete_done ‹_› hs
      exact State.countTaken_ok _ _ _ _ _ _ h1 h1
    · exact State.complete_wait ‹_› hs
    · exact State.complete_fault ‹_› hs
  · split
    · exact State.countTaken_ok _ _ _ _ _ _ hs ((State.addItem_store ..).symm ▸ hs)
    · exact hs

theorem State.readEntry_ok (s : State) (vf : Nat) (j : Nat) (lim : Nat) (p : Nat) (cnt : Nat) :
    Ok s (State.readEntry s vf j lim p cnt) := by
  intro hs
  unfold State.readEntry
  split
  · rw [State.halyardRead_wait (h := ‹_›)]; exact hs
  · rw [State.stopRing_store, State.forget_store, State.halyardRead_fault (h := ‹_›)]; exact hs
  · apply State.countEntry_ok
    rw [State.halyardRead_done (h := ‹_›)]; exact hs

theorem State.serveEntry_ok (s : State) (vf : Nat) (j : Nat) (lim : Nat) :
    Ok s (State.serveEntry s vf j lim) := by
  intro hs
  unfold State.serveEntry
  extract_lets q p cnt
  split
  · rw [State.stopRing_store]; exact hs
  · split
    · rw [State.stopRing_store]; exact hs
    · exact State.readEntry_ok _ _ _ _ _ _ hs

theorem execSubmissionRingService_ok (vf : Nat) (s : State) :
    ∀ t, execSubmissionRingService vf s = .next t → Ok s t := by
  intro t ht hs; unfold execSubmissionRingService at ht; grind [State.readCounts_store, State.serveEntry_ok, State.store, foldl_ok]

theorem State.endTask_ok (s : State) (id : Nat) (it : Item) (st : Nat) :
    Ok s (State.endTask s id it st) := by
  intro hs
  unfold State.endTask
  split
  · simpa using State.complete_done ‹_› hs
  · exact State.complete_wait ‹_› hs
  · exact State.complete_fault ‹_› hs

theorem State.startTask_ok (s : State) (id : Nat) (it : Item) (bs : List Byte) :
    Ok s (State.startTask s id it bs) := by
  intro hs; unfold State.startTask; grind [State.modMh_store, State.rejectGrid_store, State.endTask_ok, State.store, foldl_ok]

theorem execTaskDispatch_ok (vf : Nat) (s : State) :
    ∀ t, execTaskDispatch vf s = .next t → Ok s t := by
  intro t ht hs; unfold execTaskDispatch at ht; grind [State.forget_store, State.halyardRead_store, State.acquireWaits_store, State.halyardRead_wait, State.halyardRead_fault, State.acquireWaits_wait, State.acquireWaits_fault, State.endTask_ok, State.startTask_ok, State.store, foldl_ok, State.acquireWaits_done, State.halyardRead_done]

theorem State.placeAll_ok {s t : State} {gridId : Nat} {q : Grid} {first vdie : Nat} {ps : Tab Nat}
    (h : State.placeAll s gridId q first vdie ps = some t) : Ok s t := by
  induction ps generalizing s with
  | nil =>
    intro hs
    simp only [State.placeAll] at h
    cases h
    exact hs
  | cons p r ih =>
    intro hs
    simp only [State.placeAll] at h
    split at h
    · cases h
    · rename_i u hc
      have h1 : okStore u.store := State.clear_ok hc hs
      exact ih h h1

theorem execClusterPlacement_ok (gridId : Nat) (s : State) : ∀ t, execClusterPlacement gridId s = .next t → Ok s t := by
  intro t ht hs
  unfold execClusterPlacement at ht
  split at ht
  · cases ht; exact hs
  · split at ht
    · cases ht; exact hs
    · extract_lets ms found at ht
      clear_value found
      split at ht
      · cases ht; exact hs
      · split at ht
        · cases ht; exact hs
        · rename_i u hu
          have h1 : okStore u.store := State.placeAll_ok hu hs
          cases ht
          exact h1

theorem State.drainSaved_ok (s : State) (gid : Nat) (g : Group) :
    Ok s (State.drainSaved s gid g) := by
  intro hs
  unfold State.drainSaved
  split
  · split
    · generalize hq : State.bringAll s _ _ = q
      cases q with
      | none => exact hs
      | some u => exact State.bringAll_ok hq hs
    · exact hs
  · exact hs

theorem execGroupEnd_ok (gid : Nat) (s : State) :
    ∀ t, execGroupEnd gid s = .next t → Ok s t := by
  intro t ht hs; unfold execGroupEnd at ht; grind [State.takeFault_store, State.forgetOn_store, State.cancelMcas_store, State.store, foldl_ok, State.drainSaved_ok, State.freeGroup_store]

theorem execGridCompletion_ok (gridId : Nat) (s : State) : ∀ t, execGridCompletion gridId s = .next t → Ok s t := by
  intro t ht hs
  unfold execGridCompletion at ht
  split at ht
  · cases ht; exact hs
  · split at ht
    · cases ht; exact hs
    · extract_lets st task at ht
      split at ht <;> cases ht
      · exact State.completeAll_wait ‹_› hs
      · exact State.completeAll_fault ‹_› hs
      · rename_i u hu
        have h1 := State.completeAll_done hu hs
        have h2 : okStore (task.elim u fun t => u.dropItem t.1).store := by
          rw [elim_store _ u _ (fun g => by simp)]; exact h1
        clear_value task
        split
        · rw [State.emit_store]; exact h2
        · exact h2

theorem State.clearFrame_ok (s : State) (st : Nat) (f : Nat) :
    Ok s (State.clearFrame s st f) := by
  intro h
  unfold State.clearFrame
  rw [State.modStack_store]
  exact ⟨memClear_wf _ _ h.1, h.2⟩

theorem execScrubOnchip_ok (st : Nat) (s : State) : ∀ t, execScrubOnchip st s = .next t → Ok s t := by
  intro t ht hs
  unfold execScrubOnchip at ht
  split at ht
  · cases ht; exact hs
  · split at ht
    · cases ht; exact hs
    · split at ht
      · cases ht; simpa using hs
      · cases ht
        simp only [State.endJob_store, State.modStack_store]
        exact ⟨hs.1, memClear_wf _ _ hs.2⟩
      · cases ht; simpa using hs

theorem execScrubFrame_ok (st : Nat) (s : State) :
    ∀ t, execScrubFrame st s = .next t → Ok s t := by
  intro t ht hs; unfold execScrubFrame at ht; grind [State.modStack_store, State.endJob_store, State.clearFrame_ok, State.store, foldl_ok]

theorem State.abortOne_ok {s t : State} {vf : Nat} (h : State.abortOne s vf = some t) : Ok s t := by
  intro hs
  unfold State.abortOne at h
  extract_lets st ioOf at h
  split at h
  · split at h
    · cases h; exact hs
    · split at h <;> cases h
      · simpa using State.complete_done ‹_› hs
      · exact State.complete_wait ‹_› hs
      · exact State.complete_fault ‹_› hs
  · split at h
    · split at h <;> cases h
      · simpa using State.complete_done ‹_› hs
      · exact State.complete_wait ‹_› hs
      · exact State.complete_fault ‹_› hs
    · split at h
      · split at h <;> cases h
        · simpa using State.complete_done ‹_› hs
        · exact State.complete_wait ‹_› hs
        · exact State.complete_fault ‹_› hs
      · split at h
        · split at h <;> cases h
          · rename_i id c _ _ u hu
            have h1 := State.completeAll_done hu hs
            rw [← State.dropItem_store u c.item] at h1
            exact h1
          · exact State.completeAll_wait ‹_› hs
          · exact State.completeAll_fault ‹_› hs
        · split at h
          · extract_lets task at h
            split at h <;> cases h
            · rename_i u hu
              have h1 := State.completeAll_done hu hs
              have h2 : okStore (task.elim u fun t => u.dropItem t.1).store := by
                rw [elim_store _ u _ (fun g => by simp)]; exact h1
              clear_value task
              rw [State.emit_store]; exact h2
            · exact State.completeAll_wait ‹_› hs
            · exact State.completeAll_fault ‹_› hs
          · split at h
            · cases h; exact State.endTask_ok _ _ _ _ hs
            · cases h

theorem State.teardownMove_ok (s : State) (vf : Nat) :
    Ok s (State.teardownMove s vf).1 := by
  intro hs; unfold State.teardownMove; grind [State.modCtx_store, State.haltReq_store, State.wipe_store, State.abortOne_ok, State.store, foldl_ok, State.endWindows_store]

theorem execFunctionLevelReset_ok (vf : Nat) (s : State) :
    ∀ t, execFunctionLevelReset vf s = .next t → Ok s t := by
  intro t ht hs; unfold execFunctionLevelReset at ht; grind [State.modCtx_store, State.teardownMove_ok, State.store, foldl_ok, State.event_store]

theorem State.evictOn_ok (s : State) (l : Nat) (sel : Group → Bool) :
    Ok s (State.evictOn s l sel) := by
  intro hs; unfold State.evictOn; grind [State.evict_ok, State.store, foldl_ok]

theorem State.evictMove_ok (s : State) (l : Nat) :
    Ok s (State.evictMove s l) := by
  intro hs; unfold State.evictMove; grind [State.modCtx_store, State.modGang_store, State.haltPartition_store, State.applyLayout_store, State.releaseLater_store, State.restoreVf_ok, State.evictOn_ok, State.store, foldl_ok]

theorem State.tickTurn_ok (s : State) (l : Nat) :
    Ok s (State.tickTurn s l) := by
  intro hs; unfold State.tickTurn; grind [State.modGang_store, State.charge_store, State.releaseLater_store, State.beginSwitch_store, State.restoreVf_ok, State.store, foldl_ok]

theorem execSwitchTick_ok (l : Nat) (s : State) :
    ∀ t, execSwitchTick l s = .next t → Ok s t := by
  intro t ht hs; unfold execSwitchTick at ht; grind [State.modGang_store, State.evictMove_ok, State.tickTurn_ok, State.store, foldl_ok]

theorem execReady_ok (l : Nat) (d : Nat) (s : State) :
    ∀ t, execReady l d s = .next t → Ok s t := by
  intro t ht hs; unfold execReady at ht; grind [State.modGang_store, State.scribble_ok, State.store, foldl_ok]

theorem State.doCommit_ok (s : State) (l : Nat) :
    Ok s (State.doCommit s l) := by
  intro hs; unfold State.doCommit; grind [State.modGang_store, State.releaseLater_store, State.restoreVf_ok, State.store, foldl_ok]

theorem execCommit_ok (l : Nat) (s : State) :
    ∀ t, execCommit l s = .next t → Ok s t := by
  intro t ht hs; unfold execCommit at ht; grind [State.restoreVf_ok, State.doCommit_ok, State.store, foldl_ok]

theorem execDieFailure_next {s t : State} {d : Nat} (h : execDieFailure d s = .next t) : t.store = s.store :=
  execDieFailure_store d s t h

theorem State.resetDie_ok (s : State) (d : Nat) (vf : Nat) :
    Ok s (State.resetDie s d vf) := by
  intro hs
  unfold State.resetDie
  simp only
  have h1 := foldl_ok (fun (u : State) (p : Nat × Group) => u.evict p.1) (fun u p => State.evict_ok _ _)
    (s.groups.filter fun p => p.2.k / 16 == d && p.2.vf != vf && s.mayEvict p.1) s hs
  split
  · rw [execDieFailure_next ‹_›, foldl_store _ (fun _ _ => by simp)]
    exact h1
  · rw [foldl_store _ (fun _ _ => by simp)]
    exact h1

theorem execSwitchDeadline_ok (l : Nat) (s : State) :
    ∀ t, execSwitchDeadline l s = .next t → Ok s t := by
  intro t ht hs; unfold execSwitchDeadline at ht; grind [State.modCtx_store, State.modGang_store, State.resetDie_ok, State.store, foldl_ok]

theorem execCancel_ok (l : Nat) (s : State) :
    ∀ t, execCancel l s = .next t → Ok s t := by
  intro t ht hs; unfold execCancel at ht; grind [State.modCtx_store, State.modGang_store, State.charge_store, State.releaseLater_store, State.restoreVf_ok, State.store, foldl_ok]

theorem execVfbindWrite_ok (n : Nat) (v : BitVec 128) (s : State) :
    ∀ t, execVfbindWrite n v s = .next t → Ok s t := by
  intro t ht hs; unfold execVfbindWrite at ht; grind [State.modCtx_store, State.evict_ok, State.store, foldl_ok]

theorem State.after_ok {s : State} {o : Host.Outcome State Fault Refusal} (h : ∀ t, o = .next t → Ok s t) :
    Ok s (s.after o) := by
  unfold State.after
  split
  · exact h _ rfl
  · exact fun hs => hs

theorem keepsStore_ok {s : State} {o : Host.Outcome State Fault Refusal} (h : KeepsStore s o) : ∀ t, o = .next t → Ok s t :=
  fun t ht => ok_of_eq (h t ht)

theorem State.writeReg_ok (s : State) (r : Reg) (unit : Nat) (v : Nat) : Ok s (State.writeReg s r unit v) := by
  cases r <;> simp only [State.writeReg]
  case partcfg => exact State.after_ok (keepsStore_ok (execPartcfgWrite_store _ _))
  case alarmpol => exact State.after_ok (keepsStore_ok (execAlarmpolWrite_store _ _))
  case vfbind => exact State.after_ok (execVfbindWrite_ok _ _ _)
  case subq => exact State.after_ok (keepsStore_ok (execSubqWrite_store _ _ _))
  case budget => exact ok_of_eq (by simp)
  case tickp => exact State.after_ok (keepsStore_ok (execTickpWrite_store _ _ _))
  case cquota => exact State.after_ok (keepsStore_ok (execCquotaWrite_store _ _ _ _))
  case stkhealth => split <;> exact ok_of_eq (by simp)
  case scway => exact State.after_ok (keepsStore_ok (execScwayWrite_store _ _ _ _))
  case aquota => exact State.after_ok (keepsStore_ok (execAquotaWrite_store _ _ _ _))
  all_goals exact ok_of_eq rfl

theorem execRegisterWrite_ok (num : Nat) (unit : Nat) (v : BitVec 256) (s : State) :
    ∀ t, execRegisterWrite num unit v s = .next t → Ok s t := by
  intro t ht hs; unfold execRegisterWrite at ht; grind [State.writeReg_ok, State.store, foldl_ok]

theorem State.runCmd_okk (s : State) (k op : Nat) (f : Cmd → State → State × Option Nat) (h : ∀ c, Ok s (f c s).1) :
    Ok s (s.runCmd k op f) := by
  intro hs
  unfold State.runCmd
  split
  · exact hs
  · extract_lets c
    split
    · exact hs
    · split
      · rename_i u st hu
        have h1 : okStore u.store := by
          split at hu
          · cases hu; exact hs
          · have := h c hs; rw [hu] at this; exact this
        rw [State.modCore_store]; exact h1
      · rename_i u hu
        split at hu
        · cases hu
        · have := h c hs; rw [hu] at this; exact this

theorem State.putWords_ok {s t : State} {e vf ptr : Nat} {vs : List Nat}
    (h : State.putWords s e vf ptr vs = some t) : Ok s t := by
  induction vs generalizing s ptr with
  | nil =>
    intro hs
    simp only [State.putWords] at h
    cases h
    exact hs
  | cons v r ih =>
    intro hs
    simp only [State.putWords, Option.bind_eq_some_iff] at h
    obtain ⟨u, hu, ht⟩ := h
    exact ih ht (State.putWord_ok hu hs)

theorem execRdreg_ok (k : Nat) (s : State) : ∀ t, execRdreg k s = .next t → Ok s t := by
  intro t ht
  cases ht
  apply State.runCmd_okk
  intro c hs
  split
  · exact hs
  · extract_lets n v
    split
    · exact hs
    · split
      · rename_i u hu
        exact State.putWords_ok hu hs
      · exact hs

theorem execWrreg_ok (k : Nat) (s : State) : ∀ t, execWrreg k s = .next t → Ok s t := by
  intro t ht
  cases ht
  apply State.runCmd_okk
  intro c hs
  split
  · exact hs
  · split
    · exact hs
    · extract_lets bind
      split
      · exact hs
      · split
        · exact hs
        · exact foldl_ok _ (fun u x => State.writeReg_ok u _ x _) _ s hs

theorem execTeardown_ok (k : Nat) (s : State) : ∀ t, execTeardown k s = .next t → Ok s t := by
  intro t ht
  cases ht
  apply State.runCmd_okk
  intro c hs
  split
  · exact hs
  · have h1 := State.teardownMove_ok s c.vf hs
    generalize s.teardownMove c.vf = r at h1
    obtain ⟨u, b⟩ := r
    cases b <;> exact h1

theorem execPreempt_ok (k : Nat) (s : State) : ∀ t, execPreempt k s = .next t → Ok s t := by
  intro t ht
  cases ht
  apply State.runCmd_okk
  intro c hs
  extract_lets l u v
  have h1 : okStore v.store := by
    show okStore (State.modGang _ _ _).store
    rw [State.modGang_store, State.haltPartition_store]; exact hs
  split
  · exact hs
  · split
    · exact h1
    · split
      · exact State.scribble_ok _ _ h1
      · exact h1

theorem execColdReset_ok (s : State) : ∀ t, execColdReset s = .next t → Ok s t := by
  intro t ht _
  cases ht
  exact ⟨rfl, rfl⟩

theorem execWarmReset_ok (s : State) :
    ∀ t, execWarmReset s = .next t → Ok s t := by
  intro t ht hs; unfold execWarmReset at ht; grind [State.settleTdi_store, State.warmScrub_store, State.store, foldl_ok]

theorem State.powerResume_ok (s : State) (d : Nat) :
    Ok s (State.powerResume s d) := by
  intro hs; unfold State.powerResume; grind [State.modGang_store, State.releaseLater_store, State.restoreVf_ok, State.store, foldl_ok]

theorem State.goDown_ok (s : State) (d : Nat) (off : Bool) :
    Ok s (State.goDown s d off) := by
  intro hs; unfold State.goDown; grind [State.modDie_store, State.emptyDie_store, State.powerHalt_store, State.flushDie_store, State.finalBeats_store, State.evict_ok, State.powerResume_ok, State.store, foldl_ok]

theorem execDieOff_ok (d : Nat) (s : State) :
    ∀ t, execDieOff d s = .next t → Ok s t := by
  intro t ht hs; unfold execDieOff at ht; grind [State.powerLater_store, State.setTarget_store, State.goDown_ok, State.store, foldl_ok]

theorem execDieHold_ok (d : Nat) (s : State) :
    ∀ t, execDieHold d s = .next t → Ok s t := by
  intro t ht hs; unfold execDieHold at ht; grind [State.powerLater_store, State.setTarget_store, State.startWake_store, State.goDown_ok, State.store, foldl_ok]

theorem State.runAt_ok (s : State) (d : Nat) (l : PwrLevel) :
    Ok s (State.runAt s d l) := by
  intro hs; unfold State.runAt; grind [State.modDie_store, State.powerLater_store, State.setTarget_store, State.startWake_store, State.restoreVf_ok, State.store, foldl_ok]

theorem execL2_ok (d : Nat) (s : State) :
    ∀ t, execL2 d s = .next t → Ok s t := by
  intro t ht hs; unfold execL2 at ht; grind [State.runAt_ok, State.store, foldl_ok]

theorem execL1_ok (d : Nat) (s : State) :
    ∀ t, execL1 d s = .next t → Ok s t := by
  intro t ht hs; unfold execL1 at ht; grind [State.runAt_ok, State.store, foldl_ok]

theorem execL0_ok (d : Nat) (s : State) :
    ∀ t, execL0 d s = .next t → Ok s t := by
  intro t ht hs; unfold execL0 at ht; grind [State.runAt_ok, State.store, foldl_ok]

theorem State.instStore_ok (s : State) (c : Nat) (i : Nat) (q : Coll) (x : Inst) (ptr : Nat) (n : Nat) (v : Nat) :
    Ok s (State.instStore s c i q x ptr n v).state := by
  intro hs
  unfold State.instStore
  split
  · exact hs
  · split
    · simpa using hs
    · exact State.writeTab_ok _ _ _ _ _ hs

theorem State.instStore_wait {s : State} {c : Nat} {i : Nat} {q : Coll} {x : Inst} {ptr : Nat} {n : Nat} {v : Nat} {t : State} (h : State.instStore s c i q x ptr n v = .wait t) : Ok s t := by
  have h1 := State.instStore_ok s c i q x ptr n v
  rw [h] at h1
  exact h1

theorem State.instStore_fault {s : State} {c : Nat} {i : Nat} {q : Coll} {x : Inst} {ptr : Nat} {n : Nat} {v : Nat} {t : State} {cs : Nat} (h : State.instStore s c i q x ptr n v = .fault t cs) : Ok s t := by
  have h1 := State.instStore_ok s c i q x ptr n v
  rw [h] at h1
  exact h1

theorem State.instStore_done {s : State} {c : Nat} {i : Nat} {q : Coll} {x : Inst} {ptr : Nat} {n : Nat} {v : Nat} {t : State} {w : Unit} (h : State.instStore s c i q x ptr n v = .ok t w) : Ok s t := by
  have h1 := State.instStore_ok s c i q x ptr n v
  rw [h] at h1
  exact h1

/-- The state in which the accesses of a vector instruction ended. -/
def VEnd.state : VEnd → State
  | .wait s _ | .fault s | .ok s _ => s

theorem State.vacc_ok (s : State) (c : Nat) (i : Nat) (q : Coll) (load : Bool) (x : Inst) (a : VAcc) :
    Ok s (State.vacc s c i q load x a).state := by
  intro hs
  unfold State.vacc
  split
  · split
    · rename_i u _ hu
      show okStore u.store
      rw [State.instLoad_done (h := hu)]; exact hs
    · rename_i u hu
      show okStore u.store
      rw [State.instLoad_wait (h := hu)]; exact hs
    · rename_i u _ hu
      show okStore u.store
      rw [State.instLoad_fault (h := hu)]; exact hs
  · split
    · rename_i u hu
      exact State.instStore_done hu hs
    · rename_i u hu
      exact State.instStore_wait hu hs
    · rename_i u _ hu
      exact State.instStore_fault hu hs

theorem State.vacc_wait {s : State} {c : Nat} {i : Nat} {q : Coll} {load : Bool} {x : Inst} {a : VAcc} {t : State} (h : State.vacc s c i q load x a = .wait t) : Ok s t := by
  have h1 := State.vacc_ok s c i q load x a
  rw [h] at h1
  exact h1

theorem State.vacc_fault {s : State} {c : Nat} {i : Nat} {q : Coll} {load : Bool} {x : Inst} {a : VAcc} {t : State} {cs : Nat} (h : State.vacc s c i q load x a = .fault t cs) : Ok s t := by
  have h1 := State.vacc_ok s c i q load x a
  rw [h] at h1
  exact h1

theorem State.vacc_done {s : State} {c : Nat} {i : Nat} {q : Coll} {load : Bool} {x : Inst} {a : VAcc} {t : State} {v : Inst} (h : State.vacc s c i q load x a = .ok t v) : Ok s t := by
  have h1 := State.vacc_ok s c i q load x a
  rw [h] at h1
  exact h1

theorem State.vrun_ok (s : State) (c : Nat) (i : Nat) (q : Coll) (load : Bool) (p : VPlan) (x0 : List VAcc) (x1 : Inst) :
    Ok s (State.vrun s c i q load p x0 x1).state := by
  induction x0 generalizing s x1 with
  | nil => intro hs; exact hs
  | cons a r ih =>
    intro hs
    have h1 := State.vacc_ok s c i q load x1 a hs
    rw [State.vrun]
    generalize s.vacc c i q load x1 a = d at h1
    cases d with
    | ok u y => exact ih _ _ h1
    | wait u => exact h1
    | fault u _ => simp only; split <;> exact h1

theorem State.instTurn_okk (s : State) (c i : Nat) (f : Coll → Inst → Nat → State) (h : ∀ q x w, Ok s (f q x w)) :
    Ok s (s.instTurn c i f) := by
  intro hs
  unfold State.instTurn
  split
  · exact hs
  · split_ifs
    · exact hs
    · simpa using hs
    · exact hs
    · split
      · simpa using hs
      · exact h _ _ _ hs

theorem State.instMem_ok (s : State) (c : Nat) (i : Nat) (q : Coll) (x : Inst) (w : Nat) :
    Ok s (State.instMem s c i q x w) := by
  intro hs
  have hl (n : Nat) (put : Nat → Inst) :
      okStore (match s.instLoad c i q x (n64 (s64 (x.xr (rvRs1 w)) + rvImmI w)) n with
        | .ok s v => s.instNext c i q (put v) (seqNext x)
        | .wait s => s
        | .fault s _ => s.faultInst c i x).store := by
    split
    · rw [State.instNext_store, State.instLoad_done (h := ‹_›)]; exact hs
    · rw [State.instLoad_wait (h := ‹_›)]; exact hs
    · rw [State.faultInst_store, State.instLoad_fault (h := ‹_›)]; exact hs
  have hw (n v : Nat) :
      okStore (match s.instStore c i q x (n64 (s64 (x.xr (rvRs1 w)) + rvImmS w)) n v with
        | .ok s () => s.instNext c i q x (seqNext x)
        | .wait s => s
        | .fault s _ => s.faultInst c i x).store := by
    split
    · rw [State.instNext_store]; exact State.instStore_done ‹_› hs
    · exact State.instStore_wait ‹_› hs
    · rw [State.faultInst_store]; exact State.instStore_fault ‹_› hs
  unfold State.instMem
  simp only
  split
  · split
    · exact hl _ _
    · simpa using hs
  · split
    · exact hw _ _
    · simpa using hs
  · exact hl _ _
  · exact hw _ _

theorem State.instVmem_ok (s : State) (c : Nat) (i : Nat) (q : Coll) (x : Inst) (w : Nat) :
    Ok s (State.instVmem s c i q x w) := by
  intro hs
  unfold State.instVmem
  simp only
  split
  · simpa using hs
  · rename_i p _
    have h1 := State.vrun_ok s c i q (rvOpc w == 0x07) p (p.accs.drop x.prog) x hs
    generalize State.vrun s c i q (rvOpc w == 0x07) p (p.accs.drop x.prog) x = r at h1
    cases r
    · rw [State.setInst_store]; exact h1
    · rw [State.faultInst_store]; exact h1
    · rw [State.instNext_store, State.bump_store]; exact h1

theorem execInstanceInstruction_ok (c : Nat) (i : Nat) (s : State) :
    ∀ t, execInstanceInstruction c i s = .next t → Ok s t := by
  intro t ht
  cases ht
  apply State.instTurn_okk
  intro q x w
  extract_lets seq
  have hq (y : Option Inst) : (seq y).store = s.store := by
    cases y
    · exact State.faultInst_store ..
    · exact State.instNext_store ..
  split
  all_goals (repeat' split) <;> first
    | exact ok_of_eq (by simp)
    | with_reducible exact ok_of_eq (hq _)
    | with_reducible exact State.instMem_ok _ _ _ _ _ _
    | with_reducible exact State.instVmem_ok _ _ _ _ _ _

theorem State.instCounter_ok (s : State) (c : Nat) (i : Nat) (q : Coll) (x : Inst) (w : Nat) (kind : AKind) (v : Nat) :
    Ok s (State.instCounter s c i q x w kind v) := by
  intro hs
  unfold State.instCounter
  simp only
  split
  · exact hs
  · split
    · simpa using hs
    · split
      · exact State.counterDirect_wait ‹_› (by simpa using hs)
      · rw [State.faultInst_store]; exact State.counterDirect_fault ‹_› (by simpa using hs)
      · rw [State.faultInst_store]; exact State.counterDirect_done ‹_› (by simpa using hs)
      · rw [State.instNext_store]; exact State.counterDirect_done ‹_› (by simpa using hs)

theorem execCsrCadd_ok (c : Nat) (i : Nat) (s : State) :
    ∀ t, execCsrCadd c i s = .next t → Ok s t := by
  intro t ht
  cases ht
  apply State.instTurn_okk
  intro q x w
  split
  · exact State.instCounter_ok _ _ _ _ _ _ _ _
  · exact fun hs => hs

theorem execCsrCraise_ok (c : Nat) (i : Nat) (s : State) :
    ∀ t, execCsrCraise c i s = .next t → Ok s t := by
  intro t ht
  cases ht
  apply State.instTurn_okk
  intro q x w
  split
  · exact State.instCounter_ok _ _ _ _ _ _ _ _
  · exact fun hs => hs

theorem execCollectiveCompletion_ok (c : Nat) (s : State) : ∀ t, execCollectiveCompletion c s = .next t → Ok s t := by
  intro t ht hs
  unfold execCollectiveCompletion at ht
  split at ht
  · cases ht; exact hs
  · rename_i q hq
    extract_lets own st at ht
    split at ht
    · cases ht; exact hs
    · split at ht <;> cases ht
      · exact State.completeAll_wait ‹_› hs
      · exact State.completeAll_fault ‹_› hs
      · rename_i u hu
        have h1 := State.completeAll_done hu hs
        rw [← State.dropItem_store u q.item] at h1
        exact h1

theorem State.firmwarePut_ok (s : State) (st : Nat) (pa : Nat) (data : List Byte) :
    Ok s (State.firmwarePut s st pa data) := by
  intro hs; unfold State.firmwarePut; grind [State.homeWrite_ok, State.store, foldl_ok]

end Sys2Proof.Machine
end

