-- ==== Sys2Proof/Laws/Step.lean ====
section
/-! SUPPORT. What the issue of an instruction and the step leave of the byte stores. -/

namespace Sys2Proof.Machine

theorem State.beginIssue_run {s t : State} {k sl : Nat} {i : Instr} (h : s.beginIssue k sl = .run t i) :
    t.store = s.store := by
  unfold State.beginIssue at h
  split at h
  · cases h
  · split at h
    · cases h
    · split at h
      · cases h
      · simp only at h
        split at h <;> cases h
        exact State.takeSlot_store ..

theorem State.beginIssue_stop {s t : State} {k sl : Nat} (h : s.beginIssue k sl = .stop t) : t.store = s.store := by
  unfold State.beginIssue at h
  split at h
  · cases h
  · split at h
    · cases h
    · split at h
      · cases h
      · simp only at h
        split at h <;> cases h
        simp

/-- What `perform` does beside `exec` keeps the canonical form: the issue of an instruction. -/
theorem afterIssue_next {s t : State} {i : Instr} {o : Host.Outcome State Fault Refusal} (h : afterIssue s i o = .next t) :
    ∃ u, o = .next u ∧ t = s.afterIssue u i := by
  cases o <;> cases h
  exact ⟨_, rfl, rfl⟩

theorem memWf_iff (s : State) : s.memWf = true ↔ okStore s.store := by
  unfold State.memWf okStore
  rw [Bool.and_eq_true]
  exact Iff.rfl

end Sys2Proof.Machine
end

