-- ==== Sys2Proof/Tests/Slice0.lean ====
section
/-! SUPPORT. Small tests: words of the spec's encodings, ill-formed slots that WellFormed refuses, results taken from the spec's
tables, and for each statement states and operands that meet its hypotheses. -/

namespace Sys2Proof.Tests

set_option Elab.async false

open Sys2Proof Sys2Proof.Machine Sys2Proof.Claims

/-! ### A small machine -/

def ctl0 : Ctl := ⟨⟨false, 15⟩, ⟨false, 0⟩, .single, 0, 0, false, false, 0⟩
def dst0 : Dst := ⟨false, false, .conv, 0xFF⟩
def vsrc (n : BitVec 8) : Src := ⟨.vreg, n, false⟩
def vdst (n : BitVec 8) : Dst := ⟨false, false, .vreg, n⟩
def pdst (n : BitVec 8) : Dst := ⟨false, false, .pred, n⟩
/-- A common format without sources. -/
def cf (d : Dst) (md : BitVec 8) : CFmt := ⟨ctl0, d, zeroSrc, zeroSrc, zeroSrc, zeroSrc, md⟩
def cf1 (d : Dst) (a : Src) (md : BitVec 8) : CFmt := { cf d md with sa := a }
def cf2 (d : Dst) (a b : Src) (md : BitVec 8) : CFmt := { cf1 d a md with sb := b }
def mf (d : Dst) (a b : Src) (md : BitVec 8) : MFmt := ⟨ctl0, d, a, b, 0, md⟩

/-- An entry of one MiB at stack 0 with every right (Table 11.1). -/
def labEntry : BitVec 256 := BitVec.ofNat 256 (0x1F + 0x100000 * 2 ^ 64 + 2 ^ 128)

/-- Fibre 0 leads quad 0 with helpers 1 to 3. -/
def labFibre (live : Bool) (regs : Tab Word) : Fibre := Fibre.fresh live 0 0 0 regs 0

/-- A group of one quad with a scratchpad page and two macros. -/
def labGroup (regs : Tab Word) : Group :=
  { probeGroup with
    fibres := [(0, labFibre true regs), (1, labFibre false regs), (2, labFibre false regs), (3, labFibre false regs)],
    padLen := 4096, macros := [⟨0, false, false, false⟩, ⟨1, false, false, false⟩] }

/-- A line of five NOPs, each of them a target. -/
def labLine : BitVec 512 := makeLine nopSlot nopSlot nopSlot nopSlot nopSlot 0 0x1F

def labCur : Cur := ⟨0, 0, 0, 0, [0], [0], 0⟩

/-- Core 0 of a running die 0, where that group's bundle issues, with entry 1 of its table in the buffer cache. -/
def lab (g : Group) : State :=
  { State.reset with
    cur := some labCur, groups := [(0, g)], cores := [(0, { Core.empty with bufs := [(0, 1, labEntry)], icache := [⟨0, 0, 0, labLine, false⟩] })],
    dies := [(0, { Die.reset with level := .l0 })] }

/-- The shape of an instruction of the opcode map. -/
def shapeOf (i : Instr) : Shape := i.shape.getD ⟨ctl0, 0, [], (zeroSrc, .unused), (dst0, .none), false, false⟩

/-- `Ready` where no queue is read, as a computation. -/
def readyB (i : Instr) (s : State) (c : Cur) (g : Group) : Bool :=
  i.shape.isSome && (s.group? c.gid == some g) && !(pastWindow (shapeOf i) g.wsize) && (waitQueuesOf (shapeOf i)).isEmpty &&
  (g.executing c).all fun f => (tfind g.fibres f).all fun b => !(b.guard (shapeOf i).ctl) ||
    match laneOperands s c g (shapeOf i) f b with
    | .ok _ => true
    | .error _ => false

theorem popAll_none (s : State) (c : Cur) (ctl : Ctl) (fs : List Nat) : s.popAll c ctl [] fs = (s, .ok []) := by
  induction fs with
  | nil => rfl
  | cons f t ih =>
    unfold State.popAll
    split
    · exact ih
    · split
      · simp [QReads.unserved, State.popFibre, ih]
      · exact ih

theorem ready_of {i : Instr} {s : State} {c : Cur} {g : Group} (hc : s.cur = some c) (h : readyB i s c g = true) :
    Ready i s s c g (shapeOf i) := by
  simp only [readyB, Bool.and_eq_true, Option.isSome_iff_exists, List.isEmpty_iff, List.all_eq_true, Option.all_eq_true,
    beq_iff_eq, Bool.not_eq_true'] at h
  obtain ⟨⟨⟨⟨⟨h', hs⟩, hg⟩, hw⟩, hq⟩, ho⟩ := h
  have hs' : i.shape = some (shapeOf i) := by simp [shapeOf, hs]
  refine ⟨hc, hs', ⟨g, hg, hw⟩, ?_, hg, fun f hf b hb hgd => ?_⟩
  · rw [hq, popAll_none]
  · have := ho f hf b hb
    simp only [hgd, Bool.not_true, Bool.false_or] at this
    split at this
    · rename_i x hx; exact ⟨x, hx⟩
    · cases this

/-- A legal instruction issues in the small machine, and some live fibre executes it. -/
structure Issues (i : Instr) (s : State) (c : Cur) (g : Group) : Prop where
  legal : i.decodeTrap = none
  ready : Ready i s s c g (shapeOf i)
  acts : actors s c g (shapeOf i) ≠ []

/-- The same as a computation. -/
def issuesB (i : Instr) (s : State) (c : Cur) (g : Group) : Bool :=
  i.decodeTrap.isNone && (s.cur == some c) && readyB i s c g && !(actors s c g (shapeOf i)).isEmpty

theorem issues_of {i : Instr} {s : State} {c : Cur} {g : Group} (h : issuesB i s c g = true) : Issues i s c g := by
  simp only [issuesB, Bool.and_eq_true, Option.isNone_iff_eq_none, beq_iff_eq, Bool.not_eq_true', List.isEmpty_eq_false_iff] at h
  exact ⟨h.1.1.1, ready_of h.1.1.2 h.1.2, h.2⟩

/-- The operands of fibre 0. -/
def operands (i : Instr) (s : State) (c : Cur) (g : Group) : Option (Fibre × LaneIn) :=
  (tfind g.fibres 0).bind fun b => (argsOf s c g (shapeOf i) 0 b).map fun x => (b, x)

/-- Fibre 0 alone executes, and its operands meet a condition. -/
def aloneB (i : Instr) (s : State) (c : Cur) (g : Group) (p : Fibre → LaneIn → Bool) : Bool :=
  issuesB i s c g && decide (0 ∈ g.executing c) && decide (g.executing c).Nodup && decide (g.k = c.k) &&
  decide ((s.die (c.k / 16)).cuOps = []) &&
  ((g.executing c).all fun j => decide (j = 0) || (tfind g.fibres j).all fun y => !(y.guard (shapeOf i).ctl)) &&
  (operands i s c g).any fun y => y.1.live && p y.1 y.2

theorem alone_of {i : Instr} {s : State} {c : Cur} {g : Group} {p : Fibre → LaneIn → Bool} (h : aloneB i s c g p = true) :
    ∃ b x, i.decodeTrap = none ∧ Ready i s s c g (shapeOf i) ∧ Alone s c g (shapeOf i) 0 b x ∧ p b x = true := by
  simp only [aloneB, Bool.and_eq_true, decide_eq_true_eq, Option.any_eq_true, List.all_eq_true, Bool.or_eq_true,
    Option.all_eq_true, Bool.not_eq_true'] at h
  obtain ⟨⟨⟨⟨⟨⟨hi, hm⟩, hd⟩, hk⟩, hq⟩, hr⟩, ⟨y, ho, hl, hp⟩⟩ := h
  unfold operands at ho
  simp only [Option.bind_eq_some_iff, Option.map_eq_some_iff] at ho
  obtain ⟨b, hb, x, hx, rfl⟩ := ho
  exact ⟨b, x, (issues_of hi).legal, (issues_of hi).ready, ⟨hm, hd, hb, hl, hx,
    fun j hj hn y hy => (hr j hj).resolve_left hn y hy, hk, hq⟩, hp⟩

def passingB (s : State) (c : Cur) (g : Group) (ptr size align : Nat) (right : Option Right) (win : Bool) (e : BitVec 256) : Bool :=
  ((s.core c.k).bufEntry g.vf (ptr / 2 ^ 48 % 2 ^ 16) == some e) && (s.checkEntry g.vf e ptr size align right win).isNone &&
  !entOnchip e

theorem passing_of {s : State} {c : Cur} {g : Group} {ptr size align : Nat} {right : Option Right} {win : Bool} {e : BitVec 256}
    (h : passingB s c g ptr size align right win e = true) : Passing s c g ptr size align right win e := by
  simp only [passingB, Bool.and_eq_true, beq_iff_eq, Option.isNone_iff_eq_none, Bool.not_eq_true'] at h
  exact ⟨h.1.1, h.1.2, h.2⟩

/-- What holds of every fibre listed holds of every fibre found. -/
theorem found_of {α : Type} {t : Tab α} {p : Nat → α → Bool} (h : (t.all fun x => p x.1 x.2) = true) :
    ∀ k v, tfind t k = some v → p k v = true := by
  induction t with
  | nil => intro k v hv; cases hv
  | cons y r ih =>
    intro k v hv
    simp only [List.all_cons, Bool.and_eq_true] at h
    unfold tfind at hv
    split at hv
    · cases hv; subst_vars; exact h.1
    · exact ih h.2 k v hv

/-- What every executing fibre's operands meet. -/
theorem args_of {i : Instr} {s : State} {c : Cur} {g : Group} {p : Fibre → LaneIn → Bool}
    (h : (g.fibres.all fun y => (argsOf s c g (shapeOf i) y.1 y.2).all fun x => p y.2 x) = true) :
    ∀ f b x, tfind g.fibres f = some b → argsOf s c g (shapeOf i) f b = some x → p b x = true := fun f b x hb hx => by
  have := found_of (p := fun f b => (argsOf s c g (shapeOf i) f b).all fun x => p b x) h f b hb
  simp only [Option.all_eq_true] at this
  exact this x hx

/-- A pointer to byte 256 of entry 1, then the words 5, 7, 9, 11. -/
def labRegs : Tab Word := [(0, 0x100), (1, 0x10000), (2, 5), (3, 7), (4, 9), (5, 11)]
def labG : Group := labGroup labRegs

/-- The same registers in four live fibres, of which the bundle holds fibre 0 alone. -/
def loneGroup (regs : Tab Word) : Group :=
  { labGroup regs with fibres := [(0, labFibre true regs), (1, { labFibre true regs with pc := 12 }),
      (2, { labFibre true regs with pc := 12 }), (3, { labFibre true regs with pc := 12 })] }
def loneG : Group := loneGroup labRegs


/-! ### Instructions with their operands at hand, for the hypotheses of the statements about instructions -/

theorem test_issues_integer : Issues (.iadd (cf2 (vdst 6) (vsrc 2) (vsrc 3) 2)) (lab labG) labCur labG ∧
    Issues (.and (cf2 (vdst 6) (vsrc 2) (vsrc 3) 2)) (lab labG) labCur labG ∧
    Issues (.shl (cf2 (vdst 6) (vsrc 2) (vsrc 3) 2)) (lab labG) labCur labG :=
  ⟨issues_of (by decide), issues_of (by decide), issues_of (by decide)⟩

theorem test_issues_compares : Issues (.iset (cf2 (pdst 1) (vsrc 2) (vsrc 3) 0x12)) (lab labG) labCur labG ∧
    Issues (.plop (cf (pdst 1) 0x80)) (lab labG) labCur labG :=
  ⟨issues_of (by decide), issues_of (by decide)⟩

theorem test_issues_moves : Issues (.mov (cf1 (vdst 6) (vsrc 2) 2)) (lab labG) labCur labG ∧
    Issues (.mfs (cf (vdst 6) 0x10)) (lab labG) labCur labG := ⟨issues_of (by decide), issues_of (by decide)⟩

def leaI : Instr := .lea (cf2 (vdst 6) (vsrc 0) (vsrc 2) 0x22)

/-- LEA.chk with its entry cached: its check passes with v2 = 5 as the index. -/
theorem test_meets_lea : Issues leaI (lab labG) labCur labG ∧ LeaGoes 0x22 LaneIn.bb false (lab labG) labCur labG (shapeOf leaI) := by
  refine ⟨issues_of (by decide), fun _ f b x hb hx => ?_⟩
  have := args_of (p := fun b x => (((lab labG).core 0).bufEntry 0 (ptrIdx (x.a % 2 ^ 64))).isSome &&
      (!b.live || leaPasses (lab labG) 0 0 (x.a % 2 ^ 64) (leaOffset 0x22 (x.a % 2 ^ 64) x.bb))) (by decide) f b x hb hx
  simp only [Bool.and_eq_true, Bool.or_eq_true, Bool.not_eq_true'] at this
  exact ⟨this.1, fun hl _ => this.2.resolve_left (by simp [hl])⟩

/-- The same with an index past the entry's LENGTH: fibre 0 raises Buffer Bounds. -/
def farG : Group := labGroup [(0, 0x100), (1, 0x10000), (2, 0x7FFFFFFF)]
theorem test_meets_lea_fault : Issues leaI (lab farG) labCur farG ∧
    (∀ f b x, tfind farG.fibres f = some b → argsOf (lab farG) labCur farG (shapeOf leaI) f b = some x →
      (((lab farG).core 0).bufEntry 0 (ptrIdx (x.a % 2 ^ 64))).isSome = true) ∧
    (actors (lab farG) labCur farG (shapeOf leaI)).filter (fun f => ((tfind farG.fibres f).bind
      (argsOf (lab farG) labCur farG (shapeOf leaI) f)).any fun x =>
        !leaPasses (lab farG) 0 0 (x.a % 2 ^ 64) (leaOffset 0x22 (x.a % 2 ^ 64) x.bb)) = [0] :=
  ⟨issues_of (by decide), args_of (p := fun _ x => (((lab farG).core 0).bufEntry 0 (ptrIdx (x.a % 2 ^ 64))).isSome) (by decide), by decide⟩

/-! Cards: MOV, MOVI and QWR push to q0; a full buffer overflows. -/

def qdst (n : BitVec 8) : Dst := ⟨false, false, .queue, n⟩
def fullG : Group := { labG with fibres := labG.fibres.map fun p => (p.1, { p.2 with card0 := List.replicate 256 0 }) }

theorem test_meets_card_appends : Issues (.mov (cf1 (qdst 0) (vsrc 2) 2)) (lab labG) labCur labG ∧ (labG.executing labCur).Nodup ∧
    ∀ f b, tfind labG.fibres f = some b → (b.card 0).length + 4 ≤ 256 :=
  ⟨issues_of (by decide), by decide, fun f b h => of_decide_eq_true
    (found_of (p := fun _ b => decide ((b.card 0).length + 4 ≤ 256)) (by decide) f b h)⟩

theorem test_meets_card_overflow : Issues (.mov (cf1 (qdst 0) (vsrc 2) 2)) (lab fullG) labCur fullG ∧
    (actors (lab fullG) labCur fullG (shapeOf (.mov (cf1 (qdst 0) (vsrc 2) 2)))).filter (fun f =>
      (tfind fullG.fibres f).any fun b => decide (256 < (b.card 0).length + 4)) = [0] := ⟨issues_of (by decide +kernel), by decide +kernel⟩

/-! Transfers: BRA to slot 0 of its own line. Two fibres that disagree; a target past the code; a branch in place. -/

def braI (uni : Bool) (disp : BitVec 30) (c : Ctl) : Instr := .bra ⟨c, dst0, disp, 0, uni, .vreg, 0, 0⟩
def pairG : Group :=
  { labG with fibres := [(0, { labFibre true labRegs with preds := 2 }), (1, labFibre true labRegs)], trapEn := true, trapVec := 12 }
def pairCur : Cur := { labCur with en := [0, 1] }
def guarded1 : Ctl := { ctl0 with ga := ⟨false, 1⟩ }

theorem test_meets_transfer : Issues (braI true 0 ctl0) (lab labG) labCur labG ∧
    Agree (nextOf (fun _ => slotPc ((⟨ctl0, dst0, 0, 0, true, .vreg, 0, 0⟩ : BFmt).target 0)) (lab labG) labCur labG (shapeOf (braI true 0 ctl0))) labCur ∧
    ∀ f ∈ actors (lab labG) labCur labG (shapeOf (braI true 0 ctl0)), (lab labG).validTarget labG
      (nextOf (fun _ => slotPc ((⟨ctl0, dst0, 0, 0, true, .vreg, 0, 0⟩ : BFmt).target 0)) (lab labG) labCur labG (shapeOf (braI true 0 ctl0)) f) = true :=
  ⟨issues_of (by decide), by unfold Agree; decide +kernel, by decide +kernel⟩

def labOf (c : Cur) (g : Group) : State := { lab g with cur := some c }

theorem test_meets_divergence : Issues (braI true 0 guarded1) (labOf pairCur pairG) pairCur pairG ∧
    ¬ Agree (nextOf (fun _ => slotPc ((⟨guarded1, dst0, 0, 0, true, .vreg, 0, 0⟩ : BFmt).target 0)) (labOf pairCur pairG) pairCur pairG
      (shapeOf (braI true 0 guarded1))) pairCur ∧ pairG.trapEn = true ∧ (labOf pairCur pairG).validTarget pairG pairG.trapVec = true ∧
    ∀ f ∈ pairCur.en, ∃ b, tfind pairG.fibres f = some b ∧ b.inTrap = false :=
  ⟨issues_of (by decide), by unfold Agree; decide +kernel, rfl, by decide +kernel, by simp [pairCur, pairG, tfind, labFibre, Fibre.fresh]⟩

theorem test_meets_invalid_target : Issues (braI false 1 ctl0) (lab labG) labCur labG ∧
    (actors (lab labG) labCur labG (shapeOf (braI false 1 ctl0))).filter (fun f => !(lab labG).validTarget labG
      (nextOf (fun _ => slotPc ((⟨ctl0, dst0, 1, 0, false, .vreg, 0, 0⟩ : BFmt).target 0)) (lab labG) labCur labG (shapeOf (braI false 1 ctl0)) f)) = [0] :=
  ⟨issues_of (by decide), by decide⟩
/-! Traps and faults: a group with a handler at slot 1, and one fibre in-trap. -/

def trapG : Group := { labG with trapEn := true, trapVec := 12 }
def inTrapG : Group := { labG with fibres := [(0, { labFibre true labRegs with inTrap := true, trapPc := 24 })] }

theorem test_meets_soft_trap : Issues (.trap (cf dst0 5)) (lab trapG) labCur trapG ∧ (lab trapG).validTarget trapG 12 = true ∧
    ∀ f ∈ actors (lab trapG) labCur trapG (shapeOf (.trap (cf dst0 5))), (tfind trapG.fibres f).any (fun b => !b.inTrap) = true :=
  ⟨issues_of (by decide), by decide +kernel, by decide⟩

theorem test_meets_trap_as_fault : Issues (.bpt (cf dst0 0)) (lab labG) labCur labG ∧ labG.trapEn = false := ⟨issues_of (by decide), rfl⟩

theorem test_meets_halt : ∃ b x, (Instr.haltg (cf1 dst0 (vsrc 2) 0)).decodeTrap = none ∧
    Ready (.haltg (cf1 dst0 (vsrc 2) 0)) (lab loneG) (lab loneG) labCur loneG (shapeOf (.haltg (cf1 dst0 (vsrc 2) 0))) ∧
    Alone (lab loneG) labCur loneG (shapeOf (.haltg (cf1 dst0 (vsrc 2) 0))) 0 b x ∧ decide (x.a = 5) = true :=
  alone_of (p := fun _ x => decide (x.a = 5)) (by decide)

theorem test_meets_trap_return : Issues (.tret (cf dst0 0)) (lab inTrapG) labCur inTrapG ∧
    ∀ x ∈ actors (lab inTrapG) labCur inTrapG (shapeOf (.tret (cf dst0 0))), (tfind inTrapG.fibres x).any (·.inTrap) = true :=
  ⟨issues_of (by decide), by decide⟩

theorem test_meets_trap_state : Issues (.tret (cf dst0 0)) (lab labG) labCur labG ∧
    (actors (lab labG) labCur labG (shapeOf (.tret (cf dst0 0)))).filter (fun x => (tfind labG.fibres x).any fun b => !b.inTrap) = [0] :=
  ⟨issues_of (by decide), by decide⟩

/-! FORK of one quad where slot 1 is free; RETIRE, YIELD and NAP. -/

def forkI : BFmt := ⟨ctl0, pdst 1, 0, 0, false, .vreg, 2, 0⟩
def roomG : Group := { labG with cap := 8, pools := [4, 4, 4, 4] }

theorem test_meets_fork : Issues (.fork forkI) (lab roomG) labCur roomG ∧ forkI.dst.kind = .pred ∧ (roomG.executing labCur).Nodup ∧
    (lab roomG).validTarget roomG (slotPc (forkI.target 0)) = true ∧ lowestFree roomG 1 = [1] :=
  ⟨issues_of (by decide), rfl, by decide, by decide +kernel, by decide⟩

theorem test_issues_retire : Issues (.retire (cf dst0 0)) (lab labG) labCur labG ∧ Issues (.yieldI (cf dst0 0)) (lab labG) labCur labG ∧
    Issues (.nap (cf1 dst0 (vsrc 2) 0)) (lab labG) labCur labG :=
  ⟨issues_of (by decide), issues_of (by decide), issues_of (by decide)⟩

/-- NAP as a hint: R137's count is capped, and nothing waits to converge. -/
theorem test_none_converging : NoneConverging labG := by unfold NoneConverging; decide

/-! MTS in steward mode and in user mode (CSTAT[8] is STEWARD of the descriptor, Table 19.1). -/

def stewardLab (g : Group) : State := { lab g with ctxs := [(0, { Ctx.reset with desc := some 0x100 })] }

theorem test_meets_mts : Issues (.mts (cf1 dst0 (vsrc 2) 0x10)) (stewardLab labG) labCur labG ∧ ((stewardLab labG).ctx 0).steward = true :=
  ⟨issues_of (by decide +kernel), by decide +kernel⟩

theorem test_meets_privilege : Issues (.mts (cf1 dst0 (vsrc 2) 0x10)) (lab labG) labCur labG ∧ ((lab labG).ctx 0).steward = false ∧
    actors (lab labG) labCur labG (shapeOf (.mts (cf1 dst0 (vsrc 2) 0x10))) = [0] := ⟨issues_of (by decide), by decide, by decide⟩

/-- A fault of a group that has not ended, with a record area that cannot be written (no descriptor). -/
theorem test_meets_fault : (lab labG).group? 0 = some labG ∧ labG.ended = none ∧ ((lab labG).ctx 0).desc = none := ⟨rfl, rfl, rfl⟩

/-! Floating point: no trap is enabled; and one is. -/

theorem test_meets_float : Issues (.fadd (cf2 (vdst 6) (vsrc 2) (vsrc 3) 0)) (lab labG) labCur labG ∧
    ∀ res : LaneIn → LaneOut, NoTrap (lab labG) labCur labG (shapeOf (.fadd (cf2 (vdst 6) (vsrc 2) (vsrc 3) 0))) res := by
  refine ⟨issues_of (by decide), fun res f b x hb _ _ => ?_⟩
  have h : b.enables = 0 := of_decide_eq_true (found_of (t := labG.fibres) (p := fun _ b => decide (b.enables = 0)) (by decide) f b hb)
  rw [h, Nat.zero_and]

/-- FADD of two signalling NaNs with NV enabled (FPST[12]). -/
def nvG : Group :=
  { labGroup [(2, 0x7F800001), (3, 0x7F800001)] with
    fibres := [(0, { labFibre true [(2, 0x7F800001), (3, 0x7F800001)] with fpst := 0x1000 })], trapEn := true, trapVec := 12 }
theorem test_meets_float_trap : Issues (.fadd (cf2 (vdst 6) (vsrc 2) (vsrc 3) 0)) (lab nvG) labCur nvG ∧
    waitQueuesOf (shapeOf (.fadd (cf2 (vdst 6) (vsrc 2) (vsrc 3) 0))) = [] ∧ (lab nvG).validTarget nvG nvG.trapVec = true ∧
    (tfind nvG.fibres 0).any (fun b => decide (b.enables = 16)) = true :=
  ⟨issues_of (by decide), by decide, by decide +kernel, by decide⟩

theorem test_issues_special : Issues (.frsq (cf1 (vdst 6) (vsrc 2) 0)) (lab labG) labCur labG ∧
    Issues (.flog2 (cf1 (vdst 6) (vsrc 2) 0)) (lab labG) labCur labG := ⟨issues_of (by decide), issues_of (by decide)⟩

/-- CVT from .f32 to .n32 rounds to nearest even (Table 9.10: codes 8 and 2). -/
def cvtI : CFmt := cf2 (vdst 6) (vsrc 2) ⟨.special, 0, false⟩ 0x28
theorem test_issues_cvt : Issues (.cvt cvtI) (lab labG) labCur labG ∧ Issues (.cvtx (cf2 (vdst 6) (vsrc 2) (vsrc 3) 0)) (lab labG) labCur labG ∧
    labG.fslots.getD 0 0 % 16 ≤ 5 := ⟨issues_of (by decide), issues_of (by decide), by decide⟩

/-- CVTX under a slot of BF16 (Table 5.8), which names no element format of a conversion. -/
def bfSlotG : Group := { labG with fslots := [6] }
theorem test_meets_cvtx_fault : Issues (.cvtx (cf2 (vdst 6) (vsrc 2) (vsrc 3) 0)) (lab bfSlotG) labCur bfSlotG ∧
    6 ≤ bfSlotG.fslots.getD 0 0 % 16 := ⟨issues_of (by decide), by decide⟩

/-! Rods and quads: one live fibre is the whole of its tile and of its quad. -/

theorem converges_of {i : Instr} {n : Nat} (h : issuesB i (lab labG) labCur labG = true) (hq : waitQueuesOf (shapeOf i) = [])
    (hp : pastWindow (shapeOf i) labG.wsize = false) (hw : labCur.en = (labG.liveIn 0 n).map (·.1))
    (ho : (labG.fibres.all fun y => match readAll (lab labG) labCur labG y.1 y.2 (shapeOf i).srcs [] with
      | .ok _ => true
      | .error _ => false) = true) : Converges i (lab labG) labCur labG (shapeOf i) 0 n where
  cur := rfl
  shape := (issues_of h).ready.shape
  group := rfl
  core := rfl
  slice := rfl
  window := hp
  queues := hq
  running := ⟨rfl, rfl, rfl⟩
  keys := by decide
  widths := fun r => by simp [labG, labGroup, probeGroup, tget, tfind]
  whole := ⟨hw, by decide⟩
  stand := by
    intro f hf b hb
    exact of_decide_eq_true (found_of (t := labG.fibres) (p := fun _ b => decide (b.pc.toNat = 0)) (by decide) f b hb)
  free := ⟨test_none_converging, fun f _ b hb =>
    of_decide_eq_true (found_of (t := labG.fibres) (p := fun _ b => decide (b.park = .none)) (by decide) f b hb)⟩
  operands := fun f _ b hb => by
    have := found_of (t := labG.fibres) (p := fun f b => match readAll (lab labG) labCur labG f b (shapeOf i).srcs [] with
      | .ok _ => true
      | .error _ => false) ho f b hb
    revert this
    split
    · rename_i l hl; exact fun _ => ⟨l, hl⟩
    · intro h; cases h

theorem test_meets_rod : (Instr.vote (cf (pdst 1) 0)).decodeTrap = none ∧
    Converges (.vote (cf (pdst 1) 0)) (lab labG) labCur labG (shapeOf (.vote (cf (pdst 1) 0))) 0 32 ∧
    Converges (.cvtmx (cf1 (vdst 6) (vsrc 2) 0)) (lab labG) labCur labG (shapeOf (.cvtmx (cf1 (vdst 6) (vsrc 2) 0))) 0 32 :=
  ⟨by decide, converges_of (by decide) (by decide) (by decide) (by decide) (by decide),
   converges_of (by decide) (by decide) (by decide) (by decide) (by decide)⟩

theorem test_meets_quad : (Instr.qswp (cf1 (vdst 6) (vsrc 2) 1)).decodeTrap = none ∧ labCur.quads = [0] ∧
    Converges (.qswp (cf1 (vdst 6) (vsrc 2) 1)) (lab labG) labCur labG (shapeOf (.qswp (cf1 (vdst 6) (vsrc 2) 1))) 0 4 ∧
    Converges (.tile (cf dst0 3)) (lab labG) labCur labG (shapeOf (.tile (cf dst0 3))) 0 32 :=
  ⟨by decide, rfl, converges_of (by decide) (by decide) (by decide) (by decide) (by decide),
   converges_of (by decide) (by decide) (by decide) (by decide) (by decide)⟩
/-! ### Memory: fibre 0 alone, with a pointer to entry 1 -/

theorem passes_of {i : Instr} {s : State} {c : Cur} {g : Group} {ptr : LaneIn → Nat} {size align : Nat} {right : Option Right}
    {win : Bool} {e : BitVec 256}
    (h : aloneB i s c g (fun _ x => passingB s c g (ptr x) size align right win e) = true) :
    ∃ b x, i.decodeTrap = none ∧ Ready i s s c g (shapeOf i) ∧ Alone s c g (shapeOf i) 0 b x ∧
      Passing s c g (ptr x) size align right win e := by
  obtain ⟨b, x, h1, h2, h3, h4⟩ := alone_of h
  exact ⟨b, x, h1, h2, h3, passing_of h4⟩

theorem test_meets_home_of_bytes : (entStacks labEntry).length = 2 ^ 0 ∧ entStacks labEntry = [0] := by decide

/-- LD of four bytes at .par, at .grp, ST and LDC. -/
def ldF (md : BitVec 8) : MFmt := mf (vdst 6) (vsrc 0) zeroSrc md
def stF (md : BitVec 8) : MFmt := mf dst0 (vsrc 0) (vsrc 2) md

theorem test_meets_loads : (∃ b x, (Instr.ld (ldF 0x22)).decodeTrap = none ∧
      Ready (.ld (ldF 0x22)) (lab loneG) (lab loneG) labCur loneG (shapeOf (.ld (ldF 0x22))) ∧
      Alone (lab loneG) labCur loneG (shapeOf (.ld (ldF 0x22))) 0 b x ∧
      Passing (lab loneG) labCur loneG (effective (ldF 0x22) x) 4 4 (some .r) false labEntry) ∧
    ∃ b x, (Instr.ld (ldF 0x02)).decodeTrap = none ∧
      Ready (.ld (ldF 0x02)) (lab loneG) (lab loneG) labCur loneG (shapeOf (.ld (ldF 0x02))) ∧
      Alone (lab loneG) labCur loneG (shapeOf (.ld (ldF 0x02))) 0 b x ∧
      Passing (lab loneG) labCur loneG (effective (ldF 0x02) x) 4 4 (some .r) false labEntry :=
  ⟨passes_of (by decide +kernel), passes_of (by decide +kernel)⟩

theorem test_meets_stores : ∃ b x, (Instr.st (stF 0x22)).decodeTrap = none ∧
      Ready (.st (stF 0x22)) (lab loneG) (lab loneG) labCur loneG (shapeOf (.st (stF 0x22))) ∧
      Alone (lab loneG) labCur loneG (shapeOf (.st (stF 0x22))) 0 b x ∧
      Passing (lab loneG) labCur loneG (effective (stF 0x22) x) 4 4 (some .w) false labEntry := passes_of (by decide +kernel)

theorem test_meets_ldc : ∃ b x, (Instr.ldc (ldF 0x02)).decodeTrap = none ∧
      Ready (.ldc (ldF 0x02)) (lab loneG) (lab loneG) labCur loneG (shapeOf (.ldc (ldF 0x02))) ∧
      Alone (lab loneG) labCur loneG (shapeOf (.ldc (ldF 0x02))) 0 b x ∧
      Passing (lab loneG) labCur loneG (effective (ldF 0x02) x) 4 4 (some .r) false labEntry := passes_of (by decide +kernel)

/-- Nothing holds the access of that fibre. -/
theorem test_unheld (b : Fibre) (l : Loc) (cls : Cls) (h0 : b.holdStore = []) (h1 : b.holdRange = []) :
    Unheld (lab loneG) labCur 0 b l cls :=
  ⟨fun _ id h => by obtain ⟨p, hp, _⟩ := h; simp [lab, State.reset, tfind] at hp, by simp [h0], by simp [h1], by simp [lab, State.reset]⟩

/-- The same machine with another entry 1, for each check of Table 11.2. -/
def labE (e : BitVec 256) (g : Group) : State := { lab g with cores := [(0, { Core.empty with bufs := [(0, 1, e)] })] }
def noRightEntry : BitVec 256 := labEntry &&& ~~~0x1E#256
def shortEntry : BitVec 256 := BitVec.ofNat 256 (0x1F + 0x103 * 2 ^ 64 + 2 ^ 128)
def oddG : Group := loneGroup [(0, 0x101), (1, 0x10000)]

theorem test_meets_access_checks :
    (∃ b x, (Instr.ld (ldF 0x22)).decodeTrap = none ∧ Ready (.ld (ldF 0x22)) (labE 0 loneG) (labE 0 loneG) labCur loneG (shapeOf (.ld (ldF 0x22))) ∧
      Alone (labE 0 loneG) labCur loneG (shapeOf (.ld (ldF 0x22))) 0 b x ∧
      (!(labE 0 loneG).usable 0 (effective (ldF 0x22) x / 2 ^ 48 % 2 ^ 16) 0) = true) ∧
    (∃ b x, (Instr.ld (ldF 0x22)).decodeTrap = none ∧
      Ready (.ld (ldF 0x22)) (labE noRightEntry loneG) (labE noRightEntry loneG) labCur loneG (shapeOf (.ld (ldF 0x22))) ∧
      Alone (labE noRightEntry loneG) labCur loneG (shapeOf (.ld (ldF 0x22))) 0 b x ∧
      ((labE noRightEntry loneG).usable 0 (effective (ldF 0x22) x / 2 ^ 48 % 2 ^ 16) noRightEntry && !entRight noRightEntry Right.r.bit) = true) ∧
    (∃ b x, (Instr.ld (ldF 0x22)).decodeTrap = none ∧ Ready (.ld (ldF 0x22)) (lab oddG) (lab oddG) labCur oddG (shapeOf (.ld (ldF 0x22))) ∧
      Alone (lab oddG) labCur oddG (shapeOf (.ld (ldF 0x22))) 0 b x ∧ decide (effective (ldF 0x22) x % 2 ^ 48 % 4 = 1) = true) ∧
    ∃ b x, (Instr.ld (ldF 0x22)).decodeTrap = none ∧
      Ready (.ld (ldF 0x22)) (labE shortEntry loneG) (labE shortEntry loneG) labCur loneG (shapeOf (.ld (ldF 0x22))) ∧
      Alone (labE shortEntry loneG) labCur loneG (shapeOf (.ld (ldF 0x22))) 0 b x ∧
      decide (entLength shortEntry + 1 = effective (ldF 0x22) x % 2 ^ 48 + 4) = true :=
  ⟨alone_of (p := fun _ x => !(labE 0 loneG).usable 0 (effective (ldF 0x22) x / 2 ^ 48 % 2 ^ 16) 0) (by decide +kernel),
   alone_of (p := fun _ x => (labE noRightEntry loneG).usable 0 (effective (ldF 0x22) x / 2 ^ 48 % 2 ^ 16) noRightEntry &&
     !entRight noRightEntry Right.r.bit) (by decide +kernel),
   alone_of (p := fun _ x => decide (effective (ldF 0x22) x % 2 ^ 48 % 4 = 1)) (by decide +kernel),
   alone_of (p := fun _ x => decide (entLength shortEntry + 1 = effective (ldF 0x22) x % 2 ^ 48 + 4)) (by decide +kernel)⟩

/-! Scratchpad: an offset in v2, in range and present; on an absent line; negative, misaligned and past the end. -/

def padG (off : Nat) (absent : List Nat) : Group := { loneGroup [(2, BitVec.ofNat 32 off), (3, 7)] with absent := absent }
def ldpF (disp : BitVec 22) : MFmt := { mf (vdst 6) (vsrc 2) zeroSrc 0x02 with disp := disp }

theorem test_meets_scratchpad : (∃ b x, (Instr.ldp (ldpF 0)).decodeTrap = none ∧
      Ready (.ldp (ldpF 0)) (lab (padG 4092 [])) (lab (padG 4092 [])) labCur (padG 4092 []) (shapeOf (.ldp (ldpF 0))) ∧
      Alone (lab (padG 4092 [])) labCur (padG 4092 []) (shapeOf (.ldp (ldpF 0))) 0 b x ∧ decide (padAt (ldpF 0) x = 4092) = true) ∧
    PadOk (padG 4092 []) (ldpF 0) ⟨0, labFibre true [], [.bits 4092], .const 0⟩ 4 4092 ∧ Present (padG 4092 []) 4092 4 ∧
    ¬ Present (padG 4092 [31]) 4092 4 :=
  ⟨alone_of (p := fun _ x => decide (padAt (ldpF 0) x = 4092)) (by decide +kernel), by unfold PadOk; decide, by simp [Present, padG],
   fun h => h 31 (by simp [padG]) 0 (by decide) rfl⟩

theorem test_meets_scratchpad_checks : ((∃ b x, (Instr.ldp (ldpF (-4))).decodeTrap = none ∧
      Ready (.ldp (ldpF (-4))) (lab (padG 0 [])) (lab (padG 0 [])) labCur (padG 0 []) (shapeOf (.ldp (ldpF (-4)))) ∧
      Alone (lab (padG 0 [])) labCur (padG 0 []) (shapeOf (.ldp (ldpF (-4)))) 0 b x ∧ decide (padAt (ldpF (-4)) x = -4) = true)) ∧
    (∃ b x, (Instr.ldp (ldpF 0)).decodeTrap = none ∧
      Ready (.ldp (ldpF 0)) (lab (padG 4094 [])) (lab (padG 4094 [])) labCur (padG 4094 []) (shapeOf (.ldp (ldpF 0))) ∧
      Alone (lab (padG 4094 [])) labCur (padG 4094 []) (shapeOf (.ldp (ldpF 0))) 0 b x ∧ decide (padAt (ldpF 0) x = 4094) = true) ∧
    (∃ b x, (Instr.ldp (ldpF 0)).decodeTrap = none ∧
      Ready (.ldp (ldpF 0)) (lab (padG 4096 [])) (lab (padG 4096 [])) labCur (padG 4096 []) (shapeOf (.ldp (ldpF 0))) ∧
      Alone (lab (padG 4096 [])) labCur (padG 4096 []) (shapeOf (.ldp (ldpF 0))) 0 b x ∧ decide (padAt (ldpF 0) x = 4096) = true) :=
  ⟨alone_of (p := fun _ x => decide (padAt (ldpF (-4)) x = -4)) (by decide +kernel),
   alone_of (p := fun _ x => decide (padAt (ldpF 0) x = 4094)) (by decide +kernel),
   alone_of (p := fun _ x => decide (padAt (ldpF 0) x = 4096)) (by decide +kernel)⟩

/-! WBR, INVR and RFENCE over [0x100, 0x105) of entry 1; FENCE; IPREF over the code; PREF. -/

def rangeF (md : BitVec 8) : CFmt := cf2 dst0 (vsrc 0) (vsrc 2) md

theorem test_meets_ranges : (∃ b x, (Instr.wbr (rangeF 0)).decodeTrap = none ∧
      Ready (.wbr (rangeF 0)) (lab loneG) (lab loneG) labCur loneG (shapeOf (.wbr (rangeF 0))) ∧
      Alone (lab loneG) labCur loneG (shapeOf (.wbr (rangeF 0))) 0 b x ∧
      Passing (lab loneG) labCur loneG (x.a % 2 ^ 64) 5 0 none false labEntry) ∧
    (∃ b x, (Instr.rfence (rangeF 0x20)).decodeTrap = none ∧
      Ready (.rfence (rangeF 0x20)) (lab loneG) (lab loneG) labCur loneG (shapeOf (.rfence (rangeF 0x20))) ∧
      Alone (lab loneG) labCur loneG (shapeOf (.rfence (rangeF 0x20))) 0 b x ∧
      Passing (lab loneG) labCur loneG (x.a % 2 ^ 64) 5 0 none false labEntry) ∧
    ((entStacks labEntry).any fun t => (lab loneG).windowOf t (entKey labEntry)) = false :=
  ⟨passes_of (by decide +kernel), passes_of (by decide +kernel), by decide⟩

theorem test_meets_fence : ∃ b x, (Instr.fence (cf dst0 0x20)).decodeTrap = none ∧
      Ready (.fence (cf dst0 0x20)) (lab loneG) (lab loneG) labCur loneG (shapeOf (.fence (cf dst0 0x20))) ∧
      Alone (lab loneG) labCur loneG (shapeOf (.fence (cf dst0 0x20))) 0 b x ∧ true = true := alone_of (p := fun _ _ => true) (by decide)

def ipF (md : BitVec 8) : CFmt := cf2 dst0 ⟨.special, 0, false⟩ (vsrc 2) md
theorem test_meets_pins : (∃ b x, (Instr.ipin (ipF 0)).decodeTrap = none ∧
      Ready (.ipin (ipF 0)) (lab loneG) (lab loneG) labCur loneG (shapeOf (.ipin (ipF 0))) ∧
      Alone (lab loneG) labCur loneG (shapeOf (.ipin (ipF 0))) 0 b x ∧ decide (x.a = 0 ∧ x.bb = 5) = true) ∧
    OverlapsCode loneG 0 5 0 :=
  ⟨alone_of (p := fun _ x => decide (x.a = 0 ∧ x.bb = 5)) (by decide), by unfold OverlapsCode; decide⟩

theorem test_issues_hints : Issues (.fence (cf dst0 0x20)) (lab labG) labCur labG ∧ Issues (.ipref (ipF 0)) (lab labG) labCur labG ∧
    Issues (.pref (mf dst0 (vsrc 0) zeroSrc 0x21)) (lab labG) labCur labG ∧
    ∀ f b x, tfind labG.fibres f = some b → argsOf (lab labG) labCur labG (shapeOf (.rfence (rangeF 0x20))) f b = some x →
      passingB (lab labG) labCur labG (x.a % 2 ^ 64) (x.bb % 2 ^ 32) 0 none false labEntry = true :=
  ⟨issues_of (by decide), issues_of (by decide), issues_of (by decide),
   args_of (p := fun _ x => passingB (lab labG) labCur labG (x.a % 2 ^ 64) (x.bb % 2 ^ 32) 0 none false labEntry) (by decide +kernel)⟩
/-! ### Atomics, counters, tiles, cards -/

/-- The bundle performs an instruction once, with operands that meet a condition, as a computation. -/
def onceB (i : Instr) (s : State) (c : Cur) (g : Group) (p : LaneIn → Bool) : Bool :=
  issuesB i s c g && ((actors s c g (shapeOf i)).head?.bind (argOf s c g (shapeOf i))).any fun x =>
    decide ((actors s c g (shapeOf i)).head? = some x.fib) && p x

theorem once_of {i : Instr} {s : State} {c : Cur} {g : Group} {p : LaneIn → Bool} (h : onceB i s c g p = true) :
    ∃ x, Once i s s c g (shapeOf i) x ∧ p x = true := by
  simp only [onceB, Bool.and_eq_true, Option.any_eq_true, decide_eq_true_eq, Option.bind_eq_some_iff] at h
  obtain ⟨hi, x, ⟨f, hf, hx⟩, hh, hp⟩ := h
  rw [hh] at hf; cases hf
  exact ⟨x, ⟨(issues_of hi).ready, (issues_of hi).legal, hh, hx⟩, hp⟩

/-- Two steps on one counter, each at a value of the range's end. -/
theorem test_meets_combined : ([⟨0, 0, 2 ^ 64 - 1, 0⟩, ⟨1, 120, 0, 0⟩] : List AStep).all (fun st =>
    decide (st.off + AKind.cadd.bytes ≤ 128 ∧ st.x < 2 ^ (8 * AKind.cadd.bytes) ∧ st.y < 2 ^ (8 * AKind.cadd.bytes))) = true := by decide

/-- ATOM.add.32, CADD. The scopes are codes 0 to 2. -/
def atF (code : BitVec 8) : MFmt := mf (vdst 6) (vsrc 0) (vsrc 2) code
def padF (code : BitVec 8) : MFmt := mf (vdst 6) (vsrc 2) (vsrc 3) code

theorem test_meets_pad_atomic : (eventOf (.atom (padF 0))).isSome = true ∧ (∃ b x, (Instr.atom (padF 0)).decodeTrap = none ∧
      Ready (.atom (padF 0)) (lab (padG 4092 [])) (lab (padG 4092 [])) labCur (padG 4092 []) (shapeOf (.atom (padF 0))) ∧
      Alone (lab (padG 4092 [])) labCur (padG 4092 []) (shapeOf (.atom (padF 0))) 0 b x ∧
      decide (padAt (padF 0) x = 4092 ∧ b.holdStore = []) = true) ∧ Present (padG 4092 []) 4092 4 :=
  ⟨rfl, alone_of (p := fun b x => decide (padAt (padF 0) x = 4092 ∧ b.holdStore = [])) (by decide +kernel), by simp [Present, padG]⟩

theorem test_meets_home_atomic : (eventOf (.atom (atF 2))).isSome = true ∧ ∃ b x, (Instr.atom (atF 2)).decodeTrap = none ∧
    Ready (.atom (atF 2)) (lab loneG) (lab loneG) labCur loneG (shapeOf (.atom (atF 2))) ∧
    Alone (lab loneG) labCur loneG (shapeOf (.atom (atF 2))) 0 b x ∧
    Passing (lab loneG) labCur loneG (effective (atF 2) x) 4 4 (some .a) false labEntry :=
  ⟨rfl, passes_of (by decide +kernel)⟩

/-- The cluster unit holds the line that v0 points into. -/
def cluLine : CuLine := ⟨(lab loneG).locOf labEntry 0x1000000000100, List.replicate 128 0, 0, true⟩
def labClu : State := { lab loneG with dies := [(0, { Die.reset with level := .l0, lines := [cluLine] })] }

theorem test_meets_cluster_atomic : (∃ b x, (Instr.atom (atF 1)).decodeTrap = none ∧
    Ready (.atom (atF 1)) labClu labClu labCur loneG (shapeOf (.atom (atF 1))) ∧
    Alone labClu labCur loneG (shapeOf (.atom (atF 1))) 0 b x ∧
    Passing labClu labCur loneG (effective (atF 1) x) 4 4 (some .a) false labEntry) ∧
    (((labClu.die 0).lines.find? fun y => y.loc.sameLine (placeOf labClu labEntry 0x1000000000100)) = some cluLine) ∧
    cluLine.data.length = 128 ∧ ((labClu.core 0).l1.all fun y => !y.loc.sameLine (placeOf labClu labEntry 0x1000000000100)) = true :=
  ⟨passes_of (by decide +kernel), by decide +kernel, by simp [cluLine], by decide⟩

/-- CWAIT at .par and in the scratchpad, without a timeout and with one. -/
theorem test_meets_counter_waits : (∃ b x, (Instr.cwait (atF 0x11)).decodeTrap = none ∧
      Ready (.cwait (atF 0x11)) (lab loneG) (lab loneG) labCur loneG (shapeOf (.cwait (atF 0x11))) ∧
      Alone (lab loneG) labCur loneG (shapeOf (.cwait (atF 0x11))) 0 b x ∧
      Passing (lab loneG) labCur loneG (effective (atF 0x11) x) 8 8 (some .a) false labEntry) ∧
    ∃ b x, (Instr.cwait { padF 0 with sb := vsrc 4 }).decodeTrap = none ∧
      Ready (.cwait { padF 0 with sb := vsrc 4 }) (lab (padG 4088 [])) (lab (padG 4088 [])) labCur (padG 4088 []) (shapeOf (.cwait { padF 0 with sb := vsrc 4 })) ∧
      Alone (lab (padG 4088 [])) labCur (padG 4088 []) (shapeOf (.cwait { padF 0 with sb := vsrc 4 })) 0 b x ∧
      decide (padAt { padF 0 with sb := vsrc 4 } x = 4088) = true :=
  ⟨passes_of (by decide +kernel), alone_of (p := fun _ x => decide (padAt { padF 0 with sb := vsrc 4 } x = 4088)) (by decide +kernel)⟩

/-- MCAS of two entries: the counters at bytes 256 and 264 of entry 1, its block at byte 0 of the scratchpad. -/
def mcasG : Group :=
  { loneGroup [(2, 0)] with pad := [(1, 1), (6, 1), (24, 8), (25, 1), (30, 1)] }
def mcasF : CFmt := cf1 (vdst 6) (vsrc 2) 0x10

theorem test_meets_mcas : (∃ b x, (Instr.mcas mcasF).decodeTrap = none ∧
      Ready (.mcas mcasF) (lab mcasG) (lab mcasG) labCur mcasG (shapeOf (.mcas mcasF)) ∧
      Alone (lab mcasG) labCur mcasG (shapeOf (.mcas mcasF)) 0 b x ∧ decide (x.a % 2 ^ 32 = 0) = true) ∧
    Present mcasG 0 48 ∧ passingB (lab mcasG) labCur mcasG 0x1000000000100 8 8 (some .a) false labEntry = true ∧
    passingB (lab mcasG) labCur mcasG 0x1000000000108 8 8 (some .a) false labEntry = true :=
  ⟨alone_of (p := fun _ x => decide (x.a % 2 ^ 32 = 0)) (by decide +kernel), by simp [Present, mcasG, loneGroup, labGroup, probeGroup],
   by decide +kernel, by decide +kernel⟩

theorem test_meets_atomp : ∃ b x, (Instr.atomp (mf (vdst 6) (vsrc 0) (vsrc 8) 0x45)).decodeTrap = none ∧
    Ready (.atomp (mf (vdst 6) (vsrc 0) (vsrc 8) 0x45)) (lab loneG) (lab loneG) labCur loneG (shapeOf (.atomp (mf (vdst 6) (vsrc 0) (vsrc 8) 0x45))) ∧
    Alone (lab loneG) labCur loneG (shapeOf (.atomp (mf (vdst 6) (vsrc 0) (vsrc 8) 0x45))) 0 b x ∧
    Passing (lab loneG) labCur loneG (effective (mf (vdst 6) (vsrc 0) (vsrc 8) 0x45) x) 1 1 (some .a) false labEntry :=
  passes_of (by decide +kernel)

/-! A tile entry in v0 to v7: 128 rows of 128 bytes of ELEM 3 in format slot 0, from byte 0 of entry 1; one with WIDTH 0. -/

def tileWords (cols : Nat) : Tab Word := [(1, 0x10000), (4, 128), (5, BitVec.ofNat 32 (128 + cols * 2 ^ 16)), (8, 5)]
def tileG (cols : Nat) : Group := { labGroup (tileWords cols) with fslots := [3] }
def tdefF : CFmt := cf1 dst0 (vsrc 0) 9

def soundB (g : Group) (e : BitVec 256) : Bool :=
  decide (e.toNat / 2 ^ 195 = 0 ∧ e.toNat / 2 ^ 160 % 2 ^ 16 ≠ 0 ∧ e.toNat / 2 ^ 176 % 2 ^ 16 ≠ 0 ∧
    rowLength (tileFormat g e % 16) (storedCols g e) ≤ e.toNat / 2 ^ 128 % 2 ^ 32)
theorem soundB_iff (g : Group) (e : BitVec 256) : soundB g e = true ↔ TileSound g e := by simp only [soundB, TileSound, decide_eq_true_eq]

theorem test_meets_tile : (∃ x, Once (.tdef tdefF) (lab (tileG 128)) (lab (tileG 128)) labCur (tileG 128) (shapeOf (.tdef tdefF)) x ∧
      TileSound (tileG 128) (BitVec.ofNat 256 x.a)) ∧
    ∃ x, Once (.tdef tdefF) (lab (tileG 0)) (lab (tileG 0)) labCur (tileG 0) (shapeOf (.tdef tdefF)) x ∧
      ¬ TileSound (tileG 0) (BitVec.ofNat 256 x.a) := by
  obtain ⟨x, h, hp⟩ := once_of (i := .tdef tdefF) (s := lab (tileG 128)) (c := labCur) (g := tileG 128)
    (p := fun x => soundB (tileG 128) (BitVec.ofNat 256 x.a)) (by decide +kernel)
  obtain ⟨y, k, hq⟩ := once_of (i := .tdef tdefF) (s := lab (tileG 0)) (c := labCur) (g := tileG 0)
    (p := fun x => !soundB (tileG 0) (BitVec.ofNat 256 x.a)) (by decide +kernel)
  exact ⟨⟨x, h, (soundB_iff _ _).mp hp⟩, y, k, fun z => by rw [← soundB_iff] at z; simp [z] at hq⟩
/-! ### Bindings, signatures, accumulators, pairs, cards -/

/-- The stack behind it: VF 0's root at 4096, whose first entry maps the first GiB; frames 0 to 15 stand under key slot 0. -/
def labStack : Stack :=
  { Stack.reset with
    roots := [(0, 4096)], frames := (List.range 16).map fun n => (n, ⟨.assigned, 0, true⟩), slots := [(0, { KeySlot.reset with st := .active })] }

/-- The same machine with that entry in the steward's table in memory as well (Table 11.1). -/
def labM (g : Group) : State :=
  { lab g with
    ctxs := [(0, { Ctx.reset with desc := some 0x100 })], mem := [(32, 0x1F), (42, 0x10), (48, 1), (4096, 3)], stks := [(0, labStack)] }

/-- MBIND of tile 5 at macro 0. -/
def boundG : Group := { tileG 128 with tiles := [(5, BitVec.ofNat 256 (0x1000000000000 + 128 * 2 ^ 128 + 128 * 2 ^ 160 + 128 * 2 ^ 176))] }
def bindF : CFmt := cf2 dst0 (vsrc 8) (vsrc 9) 1
def fitsB (g : Group) (e : BitVec 256) (m : Nat) (sparse ub : Bool) : Bool :=
  let sl := tileFormat g e
  decide (sl % 16 ≤ 6 ∧ (sl / 256 % 4 ≠ 0 ↔ sparse = true) ∧ (ub = true → sl % 16 = 5) ∧
    (sparse = true → e.toNat / 2 ^ 176 % 2 ^ 16 % 64 = 0) ∧ m + macrosDown g e * macrosAcross g e ≤ g.macros.length) &&
  g.macros.all fun om => !om.unavailable
theorem fits_of {g : Group} {e : BitVec 256} {m : Nat} {sparse ub : Bool} (h : fitsB g e m sparse ub = true) : BindFits g e m sparse ub := by
  simp only [fitsB, Bool.and_eq_true, decide_eq_true_eq, List.all_eq_true, Bool.not_eq_true'] at h
  obtain ⟨⟨h1, h2, h3, h4, h5⟩, h6⟩ := h
  exact ⟨h1, h2, h3, h4, h5, fun j om _ _ hj => h6 om (List.mem_of_getElem? hj)⟩

theorem test_meets_bindings : ∃ x e, Once (.mbind bindF) (labM boundG) (labM boundG) labCur boundG (shapeOf (.mbind bindF)) x ∧
    tfind boundG.tiles (x.a % 2 ^ 32) = some e ∧ BindFits boundG e (x.bb % 2 ^ 32) false false ∧
    (labM boundG).rangesWhy 0 .r none (bRanges boundG e) = none ∧ ((labM boundG).core 0).eng.countP (fun o => !o.started) < 16 := by
  obtain ⟨x, h, hp⟩ := once_of (i := .mbind bindF) (s := labM boundG) (c := labCur) (g := boundG)
    (p := fun x => decide (x.a % 2 ^ 32 = 5 ∧ x.bb % 2 ^ 32 = 0)) (by decide +kernel)
  simp only [decide_eq_true_eq] at hp
  refine ⟨x, _, h, by rw [hp.1]; rfl, by rw [hp.2]; exact fits_of (by decide +kernel), by decide +kernel, by decide⟩

theorem test_meets_bindings_refused : ∃ x, Once (.mbind bindF) (labM (tileG 128)) (labM (tileG 128)) labCur (tileG 128) (shapeOf (.mbind bindF)) x ∧
    decide (tfind (tileG 128).tiles (x.a % 2 ^ 32) = none) = true :=
  once_of (p := fun x => decide (tfind (tileG 128).tiles (x.a % 2 ^ 32) = none)) (by decide +kernel)

/-- MARM of register 0 by 5 signatures: on an idle register with a descriptor at offset 0, and on an armed one. -/
def kdst (n : BitVec 8) : Dst := ⟨false, false, .conv, n⟩
def armF (a b : Src) : CFmt := cf2 (kdst 0) a b 0
def armedG (signed : Nat) (d : List Byte) : Group := { labG with kregs := [(0, ⟨true, 2, signed, d, false⟩)] }

theorem test_meets_armings : (∃ x, Once (.marm (armF (vsrc 2) (vsrc 8))) (lab labG) (lab labG) labCur labG (shapeOf (.marm (armF (vsrc 2) (vsrc 8)))) x ∧
      decide (x.a % 2 ^ 32 = 5 ∧ x.bb % 2 ^ 32 = 0) = true) ∧
    (∃ x, Once (.marm (armF (vsrc 2) (vsrc 2))) (lab labG) (lab labG) labCur labG (shapeOf (.marm (armF (vsrc 2) (vsrc 2)))) x ∧
      decide (x.bb % 2 ^ 32 % 16 ≠ 0) = true) ∧
    (∃ x, Once (.marm (armF (vsrc 2) (vsrc 8))) (lab (armedG 0 [])) (lab (armedG 0 [])) labCur (armedG 0 []) (shapeOf (.marm (armF (vsrc 2) (vsrc 8)))) x ∧
      decide (x.a % 2 ^ 32 = 5) = true) ∧ labG.padLen = 4096 :=
  ⟨once_of (p := fun x => decide (x.a % 2 ^ 32 = 5 ∧ x.bb % 2 ^ 32 = 0)) (by decide +kernel),
   once_of (p := fun x => decide (x.bb % 2 ^ 32 % 16 ≠ 0)) (by decide +kernel),
   once_of (p := fun x => decide (x.a % 2 ^ 32 = 5)) (by decide +kernel), rfl⟩

/-- MSIGN on an idle register; as the first and as the last of two; with a chunk into the staging area of a bound operation. -/
def signF (md : BitVec 8) : CFmt := if md = 0 then cf (kdst 0) 0 else cf2 (kdst 0) (vsrc 4) (vsrc 8) 1
def stagedG : Group := { armedG 0 [2, 0, 0, 0, 1] with
  binds := [(0, { Binding.none with valid := true, loaded := true, elem := 3, cols := 128, km := 1, nm := 2, n := 128 })], fslots := [3] }

theorem test_meets_signatures : Issues (.msign (signF 0)) (lab labG) labCur labG ∧ Issues (.msign (signF 0)) (lab (armedG 0 [])) labCur (armedG 0 []) ∧
    Issues (.msign (signF 0)) (lab (armedG 1 [])) labCur (armedG 1 []) ∧ actors (lab labG) labCur labG (shapeOf (.msign (signF 0))) = [0] ∧
    Issues (.msign (signF 1)) (lab stagedG) labCur stagedG ∧ (lab stagedG).stageArea 0 stagedG [2, 0, 0, 0, 1] = (0, 128) :=
  ⟨issues_of (by decide), issues_of (by decide), issues_of (by decide), by decide, issues_of (by decide), by decide +kernel⟩

/-- MACRD of the last accumulator, MACCLR of five from the first; one past the end. -/
def accG (a : Nat) : Group := labGroup [(0, BitVec.ofNat 32 a), (2, 5)]
theorem test_meets_accumulators : Issues (.macrd (cf1 (vdst 6) (vsrc 0) 0)) (lab (accG 2047)) labCur (accG 2047) ∧
    AccGoes (fun _ => 1) (lab (accG 2047)) labCur (accG 2047) (shapeOf (.macrd (cf1 (vdst 6) (vsrc 0) 0))) ∧
    (actors (lab (accG 2048)) labCur (accG 2048) (shapeOf (.macrd (cf1 (vdst 6) (vsrc 0) 0)))).filter (fun y =>
      (argOf (lab (accG 2048)) labCur (accG 2048) (shapeOf (.macrd (cf1 (vdst 6) (vsrc 0) 0))) y).any fun x =>
        decide (0 < 1) && decide (1024 * (accG 2048).macros.length < x.a % 2 ^ 32 + 1)) = [0] := by
  refine ⟨issues_of (by decide), fun f _ x hx _ => ?_, by decide⟩
  obtain ⟨b, hb, hx⟩ := Option.bind_eq_some_iff.mp hx
  have h := args_of (i := .macrd (cf1 (vdst 6) (vsrc 0) 0)) (s := lab (accG 2047)) (c := labCur) (g := accG 2047)
    (p := fun _ x => decide (x.a % 2 ^ 32 = 2047)) (by decide +kernel) f b x hb hx
  simp only [decide_eq_true_eq] at h
  exact ⟨by rw [h]; exact (by decide : 2047 + 1 ≤ 1024 * (accG 2047).macros.length), fun o ho => by simp [lab, State.core, tget, tfind, Core.empty, accG, labGroup, probeGroup] at ho⟩

theorem test_meets_macro_reports : (∃ x, Once (.mtest (cf (vdst 6) 0)) (lab labG) (lab labG) labCur labG (shapeOf (.mtest (cf (vdst 6) 0))) x ∧ true = true) ∧
    (∃ x, Once (.mcap (cf (vdst 6) 0)) (lab labG) (lab labG) labCur labG (shapeOf (.mcap (cf (vdst 6) 0))) x ∧ true = true) ∧
    0 < (lab labG).nextId ∧ ((lab labG).core 0).eng = [] ∧
    ∃ b, tfind { labG with fibres := [(0, { labFibre true [] with since := some 0 })] }.fibres 0 = some b ∧ b.since = some 0 :=
  ⟨once_of (p := fun _ => true) (by decide +kernel), once_of (p := fun _ => true) (by decide +kernel), by decide, rfl, _, rfl, rfl⟩

/-- A second group of the grid, on core 1, at place 1 of the cluster. -/
def mateG (w : Option (Nat × Nat)) : Group := { labG with k := 1, index := 1, clupos := 1, pairWait := w }

def mateGrid : Grid :=
  { vf := 0, item := none, codePtr := 0, codeLen := 64, entry := 0, gx := 2, gy := 1, gz := 1, cap := 4, wins := 4, init := 1, wsize := 256,
    pad := 1, macros := 2, cluster := 2, fpen := 0, trapEn := false, irq := false, trapVec := 0, scope := .par, cmpl := none, cnt := none,
    seq := 0, inc := 0, fslots := [], sregs := [], launchedAt := 0, nextIndex := 2, lastDie := none, groups := [0, 1], lastOn := none,
    ending := none, order := 0 }
def labPair (w : Option (Nat × Nat)) : State :=
  { lab (accG 1) with groups := [(0, accG 1), (1, mateG w)], grids := [(0, mateGrid)] }

/-- No other group names place 5; group 1 stands at place 1. -/
theorem test_meets_pairing : (∃ x, Once (.mpair (cf1 (pdst 1) (vsrc 2) 0)) (lab labG) (lab labG) labCur labG (shapeOf (.mpair (cf1 (pdst 1) (vsrc 2) 0))) x ∧
      decide (x.a % 2 ^ 32 = 5) = true) ∧ (∀ p ∈ (lab labG).groups, ¬ IsPartner (lab labG) labG 5 p.2) ∧ NoneWaits (lab labG) 0 [] :=
  ⟨once_of (p := fun x => decide (x.a % 2 ^ 32 = 5)) (by decide +kernel), by
    intro p hp h
    simp only [lab, List.mem_singleton] at hp
    subst hp
    exact absurd h.2.2.1 (by decide), by
    intro p hp _ n
    simp only [lab, List.mem_singleton] at hp
    subst hp
    simp [labG, labGroup, probeGroup]⟩

theorem test_meets_pairing_met (w : Option (Nat × Nat)) : IsPartner (labPair w) (accG 1) 1 (mateG w) ∧
    (∀ r ∈ (labPair w).groups, IsPartner (labPair w) (accG 1) 1 r.2 → r.1 = 1) ∧ NoneWaits (labPair w) 0 [1] ∧
    (labPair w).group? 1 = some (mateG w) ∧ ((mateG w).fibres.map (·.1)).Nodup := by
  refine ⟨⟨rfl, rfl, rfl, (by decide : 1 / 2 = 0 / 2), rfl, rfl, rfl⟩, fun r hr h => ?_, fun p hp hn n => ?_, rfl, (by decide : (labG.fibres.map (·.1)).Nodup)⟩
  · simp only [labPair, List.mem_cons, List.not_mem_nil, or_false] at hr
    rcases hr with rfl | rfl
    · exact absurd h.2.2.1 (by simp [accG, labGroup, probeGroup])
    · rfl
  · simp only [labPair, List.mem_cons, List.not_mem_nil, or_false] at hp
    rcases hp with rfl | rfl
    · simp [accG, labGroup, probeGroup]
    · exact absurd hn (by simp)

theorem test_meets_pairing_issues : (∃ x, Once (.mpair (cf1 (pdst 1) (vsrc 0) 0)) (labPair none) (labPair none) labCur (accG 1)
      (shapeOf (.mpair (cf1 (pdst 1) (vsrc 0) 0))) x ∧ decide (x.a % 2 ^ 32 = 1) = true) ∧
    (∃ x, Once (.mpair (cf1 (pdst 1) (vsrc 0) 0)) (labPair (some (0, 0))) (labPair (some (0, 0))) labCur (accG 1)
      (shapeOf (.mpair (cf1 (pdst 1) (vsrc 0) 0))) x ∧ decide (x.a % 2 ^ 32 = 1) = true) ∧
    ∃ x, Once (.munpair (cf dst0 0)) (lab labG) (lab labG) labCur labG (shapeOf (.munpair (cf dst0 0))) x ∧ true = true :=
  ⟨once_of (p := fun x => decide (x.a % 2 ^ 32 = 1)) (by decide +kernel), once_of (p := fun x => decide (x.a % 2 ^ 32 = 1)) (by decide +kernel),
   once_of (p := fun _ => true) (by decide +kernel)⟩

/-- An operation of group 0 that the engine of core 0 has accepted; MUNPAIR waits for it where it is paired. -/
def labOp : EngOp := { EngOp.blank 0 0 0 0 .op 7 0 with m := 1, width := 128, paired := some 0 }
def labEng (g : Group) (ops : List EngOp) : State :=
  { labM g with cores := [(0, { Core.empty with bufs := [(0, 1, labEntry)], icache := [⟨0, 0, 0, labLine, false⟩], eng := ops })] }
theorem test_meets_unpair_waits : (∃ x, Once (.munpair (cf dst0 0)) (labEng labG [labOp]) (labEng labG [labOp]) labCur labG (shapeOf (.munpair (cf dst0 0))) x ∧
      true = true) ∧ (∃ o ∈ ((labEng labG [labOp]).core 0).eng, o.gid = 0 ∧ o.paired.isSome = true) ∧
    ¬ ((labEng labG (List.replicate 16 labOp)).core 0).eng.countP (fun o => !o.started) < 16 :=
  ⟨once_of (p := fun _ => true) (by decide +kernel), ⟨labOp, by decide, rfl, rfl⟩, by decide⟩

/-- A card that copies four bytes within the scratchpad, of which three QWR have collected 48 bytes; a card too long. -/
def copyHead : List Byte :=
  leBytes 8 0 ++ leBytes 8 128 ++ leBytes 8 0 ++ leBytes 4 4 ++ leBytes 4 1 ++ leBytes 4 0 ++ leBytes 4 0 ++ leBytes 4 22 ++ leBytes 4 0
def cardG (bs : List Byte) : Group :=
  { loneG with fibres := loneG.fibres.map fun p => (p.1, { p.2 with card0 := bs }) }
def qwrcF : CFmt := cf1 ⟨false, false, .queue, 0⟩ (vsrc 8) 0
theorem test_meets_card : (∃ b x, (Instr.qwrc qwrcF).decodeTrap = none ∧
      Ready (.qwrc qwrcF) (lab (cardG copyHead)) (lab (cardG copyHead)) labCur (cardG copyHead) (shapeOf (.qwrc qwrcF)) ∧
      Alone (lab (cardG copyHead)) labCur (cardG copyHead) (shapeOf (.qwrc qwrcF)) 0 b x ∧
      ((lab (cardG copyHead)).cardWhy 0 (cardG copyHead) 0 false (b.card 0 ++ (List.range 16).map (leByte x.a))).isNone = true) ∧
    ∃ b x, (Instr.qwrc qwrcF).decodeTrap = none ∧
      Ready (.qwrc qwrcF) (lab (cardG (List.replicate 256 0))) (lab (cardG (List.replicate 256 0))) labCur (cardG (List.replicate 256 0)) (shapeOf (.qwrc qwrcF)) ∧
      Alone (lab (cardG (List.replicate 256 0))) labCur (cardG (List.replicate 256 0)) (shapeOf (.qwrc qwrcF)) 0 b x ∧
      decide (256 < (b.card 0 ++ (List.range 16).map (leByte x.a)).length) = true :=
  ⟨alone_of (p := fun b x => ((lab (cardG copyHead)).cardWhy 0 (cardG copyHead) 0 false (b.card 0 ++ (List.range 16).map (leByte x.a))).isNone)
     (by decide +kernel),
   alone_of (p := fun b x => decide (256 < (b.card 0 ++ (List.range 16).map (leByte x.a)).length)) (by decide +kernel)⟩
/-! ### Cards, copies and the engine -/

theorem test_meets_blocks : (6 : Nat) ≤ 6 ∧ 2 ^ 32 - 1 < 2 ^ 32 := by decide

/-- Fibre 0 of group 0 is parked. -/
def parkG (g : Group) (p : Park) : Group :=
  { g with fibres := [(0, { labFibre true labRegs with park := p }), (1, labFibre false []), (2, labFibre false []), (3, labFibre false [])] }

theorem parkedAt_park {g : Group} {p : Park} {q : Park → Prop} (h : q p) (hn : ¬ q .none) : ParkedAt (parkG g p) q [0] 0 := by
  refine ⟨(by decide : [0, 1, 2, 3].Nodup), by simp, by simp [parkG], fun y hy => ?_⟩
  simp only [parkG, List.mem_cons, List.not_mem_nil, or_false] at hy
  rcases hy with rfl | rfl | rfl | rfl
  · exact .inl ⟨by simp, h, rfl⟩
  all_goals exact .inr ⟨by simp, hn⟩

/-- A descriptor: one row from the staging area through binding 0. -/
def labDesc : List Byte := leBytes 4 (2 + 2 * 2 ^ 18) ++ leBytes 4 1 ++ List.replicate 248 0
def handG (d : List Byte) : Group := parkG { stagedG with kregs := [(0, ⟨true, 2, 2, d, false⟩)] } (.handoff 0 2)

theorem test_meets_arming : Running (parkG labG (.arming 0 5 0 false)) ∧
    ParkedAt (parkG labG (.arming 0 5 0 false)) (fun p => ∃ c o a, p = .arming 0 c o a) [0] 0 ∧ Present (parkG labG (.arming 0 5 0 false)) 0 256 :=
  ⟨⟨rfl, rfl, rfl⟩, parkedAt_park ⟨_, _, _, rfl⟩ (by simp), by simp [Present, parkG, labG, labGroup, probeGroup]⟩

theorem test_meets_descriptor (d : List Byte) : Running (handG d) ∧ ParkedAt (handG d) (fun p => ∃ m, p = .handoff 0 m) [0] 0 :=
  ⟨⟨rfl, rfl, rfl⟩, parkedAt_park ⟨_, rfl⟩ (by simp)⟩

theorem test_meets_descriptor_cases : (lab (handG labDesc)).acceptWhy 0 (handG labDesc) labDesc false = none ∧ ((lab (handG labDesc)).core 0).descUsed < 16 ∧
    ((lab (handG [])).acceptWhy 0 (handG []) [] false).isSome = true := by decide +kernel

/-- The copy card of above, submitted; and accepted. -/
def labCard (acc : Bool) : Card := ⟨0, false, 0, 0, 0, 0, padCard (copyHead ++ leBytes 16 0), [], acc, false, [], [], none⟩
def cardItem : Item := Item.plain .copy 0 [] []
def labCards (c : Card) (p : Park) : State :=
  { lab (parkG labG p) with
    cards := [(7, c)], items := [(7, cardItem)], nextId := 8, dies := [(0, { Die.reset with level := .l0, copyq := [7], engines := [(1, 7)] })] }

theorem test_meets_card_acceptance : tfind (labCards (labCard false) (.card 7)).cards 7 = some (labCard false) ∧
    Running (parkG labG (.card 7)) ∧ ParkedAt (parkG labG (.card 7)) (fun p => p = .card 7) [0] 0 ∧
    (readCopy (labCard false).bytes).farIndex = false ∧ (labCards (labCard false) (.card 7)).copyWaiting 0 < 64 ∧
    ∀ p ∈ (labCards (labCard false) (.card 7)).cards, p.1 < 7 → p.2.accepted = false →
      (labCards (labCard false) (.card 7)).queueOf p.2 ≠ (labCards (labCard false) (.card 7)).queueOf (labCard false) :=
  ⟨rfl, ⟨rfl, rfl, rfl⟩, parkedAt_park rfl (by simp), by decide +kernel, by decide +kernel, by
    intro p hp h
    simp only [labCards, List.mem_singleton] at hp
    subst hp; exact absurd h (by decide)⟩

/-- Task and matrix cards: a free entry of each queue. -/
theorem test_meets_card_queues : (lab (handG labDesc)).acceptWhy 0 (handG labDesc) (padCard labDesc) false = none ∧
    ((lab labG).items.filter fun p => p.2.kind == .task && p.2.vf == 0 && !p.2.started) = [] := by decide +kernel

theorem test_meets_copy_start : tfind ((labCards (labCard true) .none).die 0).engines 0 = none ∧ (labCards (labCard true) .none).dieRuns 0 = true ∧
    ((labCards (labCard true) .none).die 0).copyq = [] ++ 7 :: [] ∧ (labCards (labCard true) .none).edgesClear 7 = true ∧
    (labCards (labCard true) .none).cardStopped (labCard true) = false := by decide +kernel

theorem test_meets_copy_line : tfind ((labCards (labCard true) .none).die 0).engines 1 = some 7 ∧ 1 ∉ (labCard true).moved ∧
    1 ∈ (readCopy (labCard true).bytes).lines ∧ (readCopy (labCard true).bytes).spad = true ∧ (readCopy (labCard true).bytes).dpad = true ∧
    tget 0 ((labCards (labCard true) .none).die 0).copyUsed 0 < ((labCards (labCard true) .none).ctx 0).share 48 16000000 := by decide +kernel

/-- Its bytes lie in the scratchpad, so reading and writing them never waits. -/
theorem test_meets_copy_piece : ∃ w v bs,
    (labCards (labCard true) .none).copyReads 7 (labCard true) (readCopy (labCard true).bytes)
      ((readCopy (labCard true).bytes).pieces [] 1) [] = .ok w bs ∧
    w.copyWrite 7 (labCard true) (readCopy (labCard true).bytes) 1 bs = .ok v () := ⟨_, _, _, rfl, rfl⟩

def movedCard : Card := { labCard true with moved := [1] }
theorem test_meets_copy_completion : (∀ n ∈ (readCopy movedCard.bytes).lines, n ∈ movedCard.moved) ∧
    (labCards movedCard .none).farStatus 7 = none ∧
    ∃ w, (labCards movedCard .none).complete (complKey 7) 0 0 (readCopy movedCard.bytes).io 0 = .ok w () :=
  ⟨by decide +kernel, by decide +kernel, _, rfl⟩

/-- An operation that has ended with status 0. -/
theorem test_meets_operation_completion : ∃ w, (∀ y ∈ ((labEng labG [{ labOp with status := some 0 }]).core 0).eng, y.item = 7) ∧
    (labEng labG [{ labOp with status := some 0 }]).group? 0 = some labG ∧ (labEng labG [{ labOp with status := some 0 }]).dieRuns 0 = true ∧
    (labEng labG [{ labOp with status := some 0 }]).complete (complKey 7) 0 0 ⟨none, none, 0, 0⟩ 0 = .ok w () :=
  ⟨_, by decide, rfl, by decide, rfl⟩

/-- A completion word at byte 256 of entry 1. -/
theorem test_meets_completion_word : tget [] (labM labG).fetched (complKey 7) = [] ∧ (∀ p ∈ (labM labG).accs, p.2.owner ≠ .engine (complKey 7)) ∧
    (labM labG).checkPtr 0 0x1000000000100 8 8 .w = none := ⟨rfl, by simp [labM, lab, State.reset], by decide +kernel⟩
/-! ### The matrix engine -/

theorem engineFor {g : Group} {x : EngOp} (hg : g.halted = false ∧ g.evicted = false) (h0 : x.gid = 0) (hs : x.status = none) :
    EngineFor (labEng g [x]) 0 x g :=
  ⟨by rw [h0]; rfl, ⟨by rfl, hg⟩, by simp [labEng, labM, lab, State.core, tget, tfind], by simp [labEng, labM, lab, State.core, tget, tfind, hs]⟩

/-- A direct access completes, as a computation. -/
def okB {α : Type} : Direct α → Bool
  | .ok _ _ => true
  | _ => false
theorem ok_of {α : Type} {d : Direct α} (h : okB d = true) : ∃ w v, d = .ok w v := by
  cases d with
  | ok w v => exact ⟨w, v, rfl⟩
  | wait _ => cases h
  | fault _ _ => cases h

/-- A binding of a tile of one element, to load into slot 0. -/
def tinyTile : BitVec 256 := BitVec.ofNat 256 (0x1000000000000 + 128 * 2 ^ 128 + 2 ^ 160 + 2 ^ 176)
def tinyImg : Binding := { Binding.none with valid := true, tile := tinyTile, elem := 3, km := 1, nm := 1, ks := 1, cols := 1, n := 1 }
def tinyG : Group := { labG with fslots := [3], binds := [(0, { tinyImg with loaded := true, codes := [[0x38]] })] }
def bindOp : EngOp := EngOp.blank 0 0 0 0 (.bind 0 tinyImg) 7 0

theorem test_meets_binding_load : EngineFor (labEng tinyG [bindOp]) 0 bindOp tinyG ∧ ∃ w bss,
    (((labEng tinyG [bindOp]).modEng 0 7 fun y => { y with started := true }).wakeBinders 0).readB 0 0 7 (bRanges tinyG tinyTile) []
      = .ok w bss := ⟨engineFor ⟨rfl, rfl⟩ rfl rfl, ok_of (by decide +kernel)⟩

def tinyOp : EngOp := { EngOp.blank 0 0 0 0 .op 7 0 with m := 1, width := 1, tested := true, img := tget Binding.none tinyG.binds 0 }
def passOp : EngOp := { tinyOp with started := true, rowCodes := [0x38] }

theorem test_meets_matrix_start : EngineFor (labEng tinyG [tinyOp]) 0 tinyOp tinyG ∧ (labEng tinyG [tinyOp]).edgesClear 7 = true ∧
    ∀ p ∈ tinyG.fibres, ∀ n, p.2.since = some n → tinyOp.turn < n :=
  ⟨engineFor ⟨rfl, rfl⟩ rfl rfl, by decide, fun p hp n hn => by
    have := List.all_eq_true.mp (by decide : (tinyG.fibres.all fun p => p.2.since == none) = true) p hp
    simp only [beq_iff_eq] at this
    rw [this] at hn; cases hn⟩

theorem test_meets_matrix_pass : EngineFor (labEng tinyG [passOp]) 0 passOp tinyG ∧ passOp.passing = true ∧
    (labEng tinyG [passOp]).testDue 0 passOp = false ∧ passOp.paired = none ∧ passOp.rowCodes ≠ [] ∧ 0 < passOp.img.km :=
  ⟨engineFor ⟨rfl, rfl⟩ rfl rfl, by decide, by decide, rfl, by decide, by decide⟩

def dueOp : EngOp := { passOp with tested := false }
theorem test_meets_self_test : EngineFor (labEng tinyG [dueOp]) 0 dueOp tinyG ∧ dueOp.passing = true ∧ (labEng tinyG [dueOp]).testDue 0 dueOp = true :=
  ⟨engineFor ⟨rfl, rfl⟩ rfl rfl, by decide, by decide⟩

def pushOp : EngOp := { passOp with row := 1, resport := 4, pushLeft := [5] }
theorem test_meets_result_push : EngineFor (labEng tinyG [pushOp]) 0 pushOp tinyG ∧ NoneConverging tinyG ∧
    (tget ResPort.empty ((labEng tinyG [pushOp]).core 0).ports 0).readers = [] :=
  ⟨engineFor ⟨rfl, rfl⟩ rfl rfl, fun p hp => by
    have := List.all_eq_true.mp (by decide : (tinyG.fibres.all fun p => decide (p.2.waiting = none)) = true) p hp
    exact of_decide_eq_true this, rfl⟩

/-- The engines of cores 0 and 1 hold one operation each of the pair's first order. -/
def mateOp (w : Nat) : EngOp := { EngOp.blank 1 0 0 0 .op 8 0 with m := 1, cols := w, paired := some 0, asrc := 2 }
def evenOp : EngOp := { tinyOp with paired := some 0, cols := 1 }
def evenG : Group := { tinyG with pair := .active 1 }
def oddG1 : Group := { tinyG with k := 1, pair := .active 0 }
def labTwo (w : Nat) : State :=
  { labM evenG with
    groups := [(0, evenG), (1, oddG1)], dies := [(0, { Die.reset with level := .l0, cycle := 2 })],
    cores := [(0, { Core.empty with eng := [evenOp] }), (1, { Core.empty with eng := [mateOp w] })] }

theorem test_meets_paired_start (w : Nat) : EngineFor (labTwo w) 0 evenOp evenG ∧ EngineFor (labTwo w) 1 (mateOp w) oddG1 ∧
    (∀ z ∈ ((labTwo w).core 1).eng, z.paired = evenOp.paired → z = mateOp w) ∧ (mateOp w).paired = evenOp.paired ∧
    (mateOp w).m = evenOp.m ∧ (mateOp w).cols = w ∧ max evenOp.acceptedAt (mateOp w).acceptedAt + 2 ≤ (labTwo w).cycleOf 0 :=
  ⟨⟨rfl, ⟨rfl, rfl, rfl⟩, by simp [labTwo, State.core, tget, tfind], rfl⟩,
   ⟨rfl, ⟨rfl, rfl, rfl⟩, by simp [labTwo, State.core, tget, tfind], rfl⟩, by simp [labTwo, State.core, tget, tfind], rfl, rfl, rfl,
   (by decide : max 0 0 + 2 ≤ 2)⟩

theorem test_meets_paired_start_now : (labTwo 1).mayStart 0 evenOp = true ∧ (labTwo 1).mayStart 1 (mateOp 1) = true ∧
    (labTwo 2).mayStart 0 evenOp = true ∧ (labTwo 2).mayStart 1 (mateOp 2) = true := by decide +kernel

/-- A paired operation whose group has no partner. -/
theorem test_meets_partner_lost : EngineFor (labEng tinyG [evenOp]) 0 evenOp tinyG ∧ (labEng tinyG [evenOp]).mayStart 0 evenOp = true ∧
    ∀ p, tinyG.pair ≠ .active p := ⟨engineFor ⟨rfl, rfl⟩ rfl rfl, by decide +kernel, fun p h => by cases h⟩

/-- MPAIR has waited 2^20 cycles. -/
theorem test_meets_pair_timeout : (⟨0, 0⟩ : Nat × Nat).2 + 1048576 ≤
    ({ labM evenG with dies := [(0, { Die.reset with level := .l0, cycle := 2 ^ 20 })] } : State).cycleOf 0 ∧
    ((parkG { tinyG with pairWait := some (1, 0) } (.pairing 1 true)).fibres.map (·.1)).Nodup := by decide +kernel
/-! ### Slices and Halyard -/

theorem test_meets_formation : (labM labG).cycleOf 0 % 4 = 0 ∧ ((labM labG).slice 0 0).formedAt ≠ some 0 ∧ (labM labG).dieRuns 0 = true ∧
    Distinct (labM labG).groups := by unfold Distinct; decide

/-- A hold run of bundle 0 whose next instruction waits since cycle 0; a NAP that ended at cycle 16. -/
def labTime (g : Group) (n : Nat) : State :=
  { labM g with
    dies := [(0, { Die.reset with level := .l0, cycle := n })],
    cores := [(0, { Core.empty with slices := [(0, { Slice.empty with hold := some (0, 1) })] })] }
theorem test_meets_hold_timeout : ((labTime labG 16).slice 0 0).hold = some (0, 1) ∧
    ((labTime labG 16).slice 0 0).holdSince + 16 ≤ (labTime labG 16).cycleOf 0 ∧ ((labTime labG 16).slice 0 0).bundles = [] := by decide
theorem test_meets_nap : (labTime (parkG labG (.nap 16)) 16).group? 0 = some (parkG labG (.nap 16)) ∧ 16 ≤ (labTime (parkG labG (.nap 16)) 16).cycleOf 0 :=
  ⟨rfl, by decide⟩

/-- Every fibre of quad 0 has retired. -/
def emptyG : Group := { labG with
  fibres := [(0, labFibre false []), (1, labFibre false []), (2, labFibre false []), (3, labFibre false [])], lastRetire := some (0, 1, 0) }
theorem test_meets_quad_return : (∃ p ∈ emptyG.fibres, p.1 / 4 = 0) ∧ ∀ p ∈ emptyG.fibres, p.1 / 4 = 0 → p.2.live = false ∧ p.2.pendRegs = [] :=
  ⟨⟨_, .head _, rfl⟩, fun p hp _ => by
    have := List.all_eq_true.mp (by decide : (emptyG.fibres.all fun p => decide (p.2.live = false ∧ p.2.pendRegs = [])) = true) p hp
    exact of_decide_eq_true this⟩

/-- Code at byte 32768 of entry 1: the line of NOPs. -/
def codePtr0 : Nat := 0x1000000008000
def codeCells : List Host.Cell :=
  ((List.range 64).map fun j => ((⟨32768 + j, (labLine.toNat / 2 ^ (8 * j)) % 256⟩ : Nat × Nat))).filterMap fun c =>
    if c.2 = 0 then none else some (c.1, BitVec.ofNat 8 c.2)
def codeG : Group := { labG with codePtr := codePtr0 }
def labCode : State := { labM codeG with mem := (labM codeG).mem ++ codeCells, cores := [] }
theorem test_meets_line_fill : (labCode.core 0).iline 0 codePtr0 0 = none ∧ (∃ m, labCode.codeMem 0 codePtr0 0 = some m) ∧
    0 < codeG.codeLen ∧ codeG.evicted = false ∧ (labCode.core 0).icache.length < 1024 :=
  ⟨by decide, Option.isSome_iff_exists.mp (by decide +kernel), by decide, rfl, by decide⟩

theorem test_meets_buffer_arrival : ∃ p ∈ (parkG labG (.bufMiss 0 1)).fibres, p.2.park = .bufMiss 0 1 := ⟨_, .head _, rfl⟩

/-! VF 0 is bound to the partition of die 0 alone and holds its slice; its ring's counts stand at byte 8192 of entry 1, its
one entry at 8448, and the launch record that the entry names at 16384. -/

def ringCtx (ring : Option (Nat × Nat)) : Ctx :=
  { Ctx.reset with
    desc := some 0x100, vfbind := BitVec.ofNat 128 (2 ^ 68), ring := ring,
    subq := BitVec.ofNat 256 (0x1000000002100 + 0x1000000002000 * 2 ^ 64 + 2 ^ 132) }
def taskCells : List Host.Cell := [(8192, 1), (8448 + 1, 0x40), (8448 + 6, 1), (8448 + 40, 0x80)]
def launchCells : List Host.Cell :=
  [(16384 + 1, 0x80), (16384 + 6, 1), (16384 + 8, 64), (16384 + 16, 1), (16384 + 20, 1), (16384 + 24, 1), (16384 + 28, 4), (16384 + 30, 4),
   (16384 + 32, 1), (16384 + 35, 1), (16384 + 36, 1), (16384 + 38, 2), (16384 + 39, 1), (16384 + 41, 1)]
def labH (ring : Option (Nat × Nat)) : State :=
  { labM labG with
    groups := [], grids := [], cores := [], mem := (labM labG).mem ++ taskCells ++ launchCells ++ codeCells, ctxs := [(0, ringCtx ring)],
    mh := { Masthead.reset with partcfg := 0, boot := .done, gangs := [(0, { Gang.reset with cur := some 0 })] } }

theorem test_meets_ring_counts : ((labH none).ctx 0).bound = true ∧ subqEnable ((labH none).ctx 0).subq = true ∧
    (labH none).checkPtr 0 (subqCnt ((labH none).ctx 0).subq) 8 8 .r = none ∧
    (labH none).checkPtr 0 (ptrAdd (subqCnt ((labH none).ctx 0).subq) 8) 8 8 .w = none ∧
    okB ((labH none).halyardRead 0 (ringKey 0) (subqCnt ((labH none).ctx 0).subq) 16) = true := by decide +kernel

theorem test_meets_ring_entry :
    let p := ptrAdd (subqRing ((labH (some (0, 1))).ctx 0).subq) (256 * (0 % 2 ^ subqSize ((labH (some (0, 1))).ctx 0).subq) : Nat)
    (labH (some (0, 1))).checkPtr 0 p 256 0 .r = none ∧
    (match (labH (some (0, 1))).halyardRead 0 (ringKey 0) p 256 with
    | .ok w bs => (w.taskWhy 0 bs).isNone &&
      ((({ w with nextId := w.nextId + 1 }.addItem w.nextId (taskItem 0 bs)).forget (ringKey 0)).forget (entryKey 0)
        |>.putWord 32 0 (ptrAdd (subqCnt ((labH (some (0, 1))).ctx 0).subq) 8) 1).isSome
    | _ => false) = true := by decide +kernel
theorem test_meets_ring_room (vf : Nat) : ([] : List Nat).length < Config.halyardEntries vf := Nat.succ_pos _

def labTask : State := { labH none with items := [(7, { Item.plain .task 0 [] [] with launch := 0x1000000004000 })], nextId := 8 }
theorem test_meets_dispatch : labTask.vfHolds 0 = true ∧ labTask.placing 0 = false ∧ (labTask.nextTask 0).map (·.1) = some 7 ∧
    (match labTask.halyardRead 0 7 0x1000000004000 384 with
    | .ok w bs => decide (leNat ((bs.drop 8).take 4) ≠ 0) &&
      ({ (w.forget 7) with items := tmod (w.forget 7).items 7 fun x => { x with started := true },
                           nextId := w.nextId + 1, mh := { w.mh with nextOrder := w.mh.nextOrder + 1 } }.launchWhy 0 bs (readLaunch bs)).isNone
    | _ => false) = true := by decide +kernel

/-- A grid of one group of one fibre. -/
def oneGrid (next : Nat) : Grid := { mateGrid with gx := 1, cluster := 1, macros := 0, nextIndex := next, groups := [] }
theorem test_meets_placement :
    let s : State := { labH none with grids := [(3, oneGrid 0)] }
    (((searchDies (s.partOf 0).length none).findSome? fun v => (s.fitCluster 0 ((s.ctx 0).vmap v) 1 [(0, (oneGrid 0).need)]).map fun cores => (v, cores)).any
      fun r => (s.placeAll 3 (oneGrid 0) 0 r.1 r.2).isSome) = true := by decide +kernel

theorem test_meets_group_end : emptyG.halted = false ∧ emptyG.ended = none ∧ (∀ p ∈ emptyG.fibres, p.2.live = false) ∧ (lab emptyG).drained 0 emptyG = true ∧
    (∀ i, i < 8 → (tget KReg.idle emptyG.kregs i).armed = false) ∧
    (tget KReg.idle ({ emptyG with kregs := [(0, ⟨true, 2, 0, [], false⟩)] } : Group).kregs 0).armed = true ∧ emptyG.lastRetire = some (0, 1, 0) :=
  ⟨rfl, rfl, fun p hp => by
    have := List.all_eq_true.mp (by decide : (emptyG.fibres.all fun p => decide (p.2.live = false)) = true) p hp
    exact of_decide_eq_true this, by decide, by decide, rfl, rfl⟩

/-- The grid has placed its group, which has ended; without a task, and with one. -/
theorem test_meets_grid_completion (it : Option Nat) :
    let s : State := { labTask with grids := [(3, { oneGrid 1 with item := it })] }
    tfind s.grids 3 = some { oneGrid 1 with item := it } ∧ s.backsOut 0 = false ∧ (tfind s.items 7).isSome = true ∧
    ∃ w, s.complete (complKey 3) 32 0 ⟨none, none, 0, 0⟩ 0 = .ok w () := ⟨rfl, rfl, rfl, _, rfl⟩

theorem test_meets_budget_period : ({ labM labG with ns := 10000 } : State).mh.periodAt + 10000 ≤ 10000 ∧
    ∀ n, Distinct (({ labM labG with ns := 10000 } : State).stack n).hbmUsed := by
  refine ⟨by decide, fun n => ?_⟩
  by_cases h : n = 0
  · subst h; exact List.nodup_nil
  · have : ({ labM labG with ns := 10000 } : State).stack n = Stack.reset := by simp [State.stack, labM, tget, tfind, Ne.symm h]
    rw [this]; exact List.nodup_nil
/-! ### The fabric and the homes -/

/-- A request of core 0 of die 0 for bytes at offset 256 of entry 1, on its way by `legs`. -/
def labAcc (op : MemOp) (o : Owner) (legs : List Leg) : Access :=
  { agent := 0, port := 0, loc := (labM labG).locOf labEntry 0x1000000000100, lane := 0, cls := .cz, scope := .par, causal := true, vec := [],
    nd := 0, seq := some 0, seqAt := 0, ord := 0, route := [0], queued := false, rseq := none, op := op, owner := o, gid := 0, pc := 0,
    mask := 1, after := [], held := false, legs := legs, performed := false, reply := none, replyVec := [], old := false, sentAt := 0,
    reissues := 0, noFill := false, back := false, hint := 0, cclass := 0, ext := 0 }
def labAccs (a : Access) : State := { labM labG with accs := [(5, a)], nextAcc := 6 }
def atHomeLeg : List Leg := [.home [0]]

/-- What MayPerform asks, as a computation. -/
def mayB (s : State) (m : Nat) (a : Access) : Bool :=
  (tfind s.accs m == some a) && decide (a.ext = 0) && !a.queued && s.laneFirst a && (s.keptReply a).isNone && s.lineFirst a &&
  (match a.cls with
    | .rx => true
    | _ => match a.seq with
      | some n => decide (n = tget 0 (s.stack a.loc.stack).expectSeq (4 * a.agent + a.lane))
      | none => seqGe (tget 0 (s.stack a.loc.stack).expectSeq (4 * a.agent + a.lane)) a.seqAt) &&
  ((List.range 33).all fun e => vGe ((s.stack a.loc.stack).frontier e) (tget 0 a.vec e))

theorem may_of {s : State} {m : Nat} {a : Access} (hl : a.legs = atHomeLeg) (h : mayB s m a = true) : MayPerform s m a := by
  simp only [mayB, Bool.and_eq_true, beq_iff_eq, decide_eq_true_eq, Bool.not_eq_true', Option.isNone_iff_eq_none, List.all_eq_true,
    List.mem_range] at h
  obtain ⟨⟨⟨⟨⟨⟨⟨h1, h2⟩, h3⟩, h4⟩, h5⟩, h6⟩, h7⟩, h8⟩ := h
  refine ⟨h1, h2, h3, fun _ => h4, ⟨[], [], [0], hl⟩, h5, h6, fun hc => ?_, fun _ e he _ _ _ => h8 e (by omega)⟩
  revert h7
  cases hk : a.cls <;> cases a.seq <;> simp_all

/-- The reply stands at its requester. -/
def backAcc (o : Owner) (r : Reply) : Access := { labAcc (.load 4) o [.back [0]] with performed := true, reply := some r }
def dst6 : RetDst := ⟨6, 1, 4, false, false, none⟩
theorem returns_of (o : Owner) (r : Reply) : Returns (labAccs (backAcc o r)) 5 (backAcc o r) r := ⟨rfl, ⟨[0], .head _, Nat.le_refl 1⟩, rfl⟩

theorem test_meets_load_reply : Returns (labAccs (backAcc (.load 0 dst6 4 0 [] (some .par) none false) (.data [1, 2, 3, 4]))) 5
      (backAcc (.load 0 dst6 4 0 [] (some .par) none false) (.data [1, 2, 3, 4])) (.data [1, 2, 3, 4]) ∧
    (labAccs (backAcc (.load 0 dst6 4 0 [] (some .par) none false) (.data [1, 2, 3, 4]))).group? 0 = some labG ∧
    (∃ b, tfind labG.fibres 0 = some b) ∧ Distinct ([] : Tab Byte) ∧ 4 = dst6.count * dst6.esize := ⟨returns_of _ _, rfl, ⟨_, rfl⟩, List.nodup_nil, rfl⟩
theorem test_meets_atomic_reply : Returns (labAccs (backAcc (.atomic [0] dst6 4 none) (.olds [(0, 9)]))) 5 (backAcc (.atomic [0] dst6 4 none) (.olds [(0, 9)]))
      (.olds [(0, 9)]) ∧ Distinct [(0, 9)] ∧ ∀ p ∈ [(0, 9)], ∃ b, tfind labG.fibres p.1 = some b := ⟨returns_of _ _, by unfold Distinct; decide, by
    intro p hp
    simp only [List.mem_singleton] at hp
    subst hp; exact ⟨_, rfl⟩⟩
theorem test_meets_acknowledgement : Returns (labAccs (backAcc (.store 0) .ack)) 5 (backAcc (.store 0) .ack) .ack := returns_of _ _
theorem test_meets_home_fault : Returns (labAccs (backAcc (.store 0) (.fault 0x1D 0))) 5 (backAcc (.store 0) (.fault 0x1D 0)) (.fault 0x1D 0) ∧
    Returns (labAccs (backAcc (.load 0 dst6 4 0 [] none none false) (.fault 0x1D 0))) 5 (backAcc (.load 0 dst6 4 0 [] none none false) (.fault 0x1D 0))
      (.fault 0x1D 0) ∧ labG.halted = false ∧ labG.evicted = false ∧ ({ labG with halted := true } : Group).halted = true :=
  ⟨returns_of _ _, returns_of _ _, rfl, rfl, rfl⟩

def storeAcc : Access := labAcc (.store [1, 2, 3, 4]) (.store 0) atHomeLeg
def loadAcc : Access := labAcc (.load 4) (.load 0 dst6 4 0 [] none none false) atHomeLeg
def backLineAcc : Access := labAcc (.merge [(0, 1)]) (.writeBack 0) atHomeLeg
def atPlace (s : State) (l : Loc) (k : AccKind) : Bool := match (s.homeAt l k false none 0 0).2 with
  | .at _ _ => true
  | _ => false
theorem test_meets_home_access : MayPerform (labAccs storeAcc) 5 storeAcc ∧ MayPerform (labAccs loadAcc) 5 loadAcc ∧
    MayPerform (labAccs backLineAcc) 5 backLineAcc ∧
    MayPerform (labAccs { storeAcc with cls := .rx, seq := none, rseq := some 0 }) 5 { storeAcc with cls := .rx, seq := none, rseq := some 0 } ∧
    MayPerform (labAccs { loadAcc with cls := .rx, seq := none, rseq := some 0 }) 5 { loadAcc with cls := .rx, seq := none, rseq := some 0 } :=
  ⟨may_of rfl (by decide +kernel), may_of rfl (by decide +kernel), may_of rfl (by decide +kernel), may_of rfl (by decide +kernel),
   may_of rfl (by decide +kernel)⟩
theorem test_meets_home_place : atPlace (labAccs storeAcc) storeAcc.loc .write = true ∧ atPlace (labAccs loadAcc) loadAcc.loc .read = true := by
  decide +kernel

theorem test_meets_beats : ((labM labG).agent 0).lastBeat + 64 ≤ ({ labM labG with fabric := 64 } : State).fabric ∧
    seqGe (tget 0 ((labM labG).stack 0).expectSeq 0) (⟨0, 0, 0, 1, 0⟩ : Beat).num = true ∧
    ∀ b' ∈ [(⟨0, 0, 0, 1, 0⟩ : Beat)], b'.agent = 0 → b'.stack = 0 → b'.lane = 0 → b' = ⟨0, 0, 0, 1, 0⟩ := by decide

/-- A store that is held for nothing that is still outstanding. -/
def heldAcc : Access := { storeAcc with held := true, seq := none, legs := [], after := [3] }
theorem test_meets_send : tfind (labAccs heldAcc).accs 5 = some heldAcc ∧ (∀ i ∈ heldAcc.after, tfind (labAccs heldAcc).accs i = none) ∧
    (labAccs heldAcc).counterRoom 0 = true ∧ (labAccs heldAcc).unacked heldAcc < 64 ∧
    ((labAccs heldAcc).die 0).cuLine heldAcc.loc = none ∧ ((labAccs heldAcc).die 0).cuOps = [] := by decide +kernel

/-- A request about to enter stack 0 from its own die; one about to enter stack 1, which a closed firewall discards. -/
def outAcc (st : Nat) (path : List Nat) : Access := { storeAcc with legs := [.out [st] path] }
def labShut : State := { labAccs (outAcc 1 [0]) with stks := [(0, { labStack with fwctl := 0 }), (1, { Stack.reset with fwctl := 0 })] }
theorem test_meets_router : tfind (labAccs (outAcc 0 [])).accs 5 = some (outAcc 0 []) ∧ (labAccs (outAcc 0 [])).passes 0 (nodeOf 0) (outAcc 0 []) = true ∧
    labShut.passes 1 0 (outAcc 1 [0]) = false ∧ (labAccs (outAcc 1 [0])).passes 1 0 (outAcc 1 [0]) = true ∧
    (labAccs (outAcc 1 [0])).flitsOn (linkOf 0 1) 0 < (labAccs (outAcc 1 [0])).flitLimit 0 0 := by decide +kernel

theorem test_meets_timeout : (∀ p, Leg.back p ∈ (outAcc 0 []).legs → 1 < p.length) ∧ (outAcc 0 []).isPref = false ∧
    (outAcc 0 []).sentAt + 4000 ≤ ({ labAccs (outAcc 0 []) with ns := 4000 } : State).ns ∧
    ({ outAcc 0 [] with reissues := 3 } : Access).sentAt + 16000 ≤ ({ labAccs (outAcc 0 []) with ns := 16000 } : State).ns ∧ labG.ended = none :=
  ⟨by simp [outAcc], rfl, by decide, by decide, rfl⟩

theorem test_meets_die_failure : ((labM labG).die 15).failed = false ∧
    ({ labM labG with dies := [(15, { Die.reset with failed := true })] } : State).accs = [] ∧
    (({ labM labG with dies := [(15, { Die.reset with failed := true })] } : State).die 15).failed = true := ⟨by decide, rfl, by decide⟩
/-! ### Counters, MCAS, routines, switches -/

/-- A CWAIT of fibre 0 on the counter at offset 8 of its scratchpad. -/
def labWaiter (steps replies : List (Nat × Nat)) : Waiter :=
  { place := .pad 0, vf := 0, gid := 0, pc := 0, loc := storeAcc.loc, off := 8, cls := .cz, scope := .par, steps := steps, dst := dst6, acq := none,
    deadline := some 16, entered := false, askedAt := 0, replies := replies, replyVec := [] }
def labWaits (w : Waiter) (cycle : Nat) : State :=
  { labM labG with waiters := [(4, w)], dies := [(0, { Die.reset with level := .l0, cycle := cycle })] }
theorem test_meets_counter_reply : (labWaiter [] [(0, 5)]).replies = (0, 5) :: [] ∧ (∃ b, tfind labG.fibres 0 = some b) ∧
    (labWaits (labWaiter [(0, 7)] []) 16).counterAt (labWaiter [(0, 7)] []) = some 0 ∧ 16 ≤ (labWaits (labWaiter [(0, 7)] []) 16).cycleOf 0 ∧
    (labWaiter [(0, 7)] []).askedAt + 256 ≤ (labWaits (labWaiter [(0, 7)] []) 256).cycleOf 0 ∧
    (∀ p ∈ (labWaits (labWaiter [(0, 7)] []) 256).accs, p.2.owner ≠ .wait 4) ∧ ((labWaits (labWaiter [(0, 7)] []) 256).die 0).cuOps = [] :=
  ⟨rfl, ⟨_, rfl⟩, by decide +kernel, by decide, by decide, by simp [labWaits, labM, lab, State.reset], by decide⟩

/-- An MCAS of one entry, whose counter is at stack 0, in several phases. -/
def labEnt (seen : Option Nat) : McasEnt := ⟨storeAcc.loc, 0, 9, seen, some (false, 0x100), []⟩
def labMcas (ph : McasPh) (homes locked : List Nat) (e : McasEnt) : Mcas :=
  { gid := 0, fib := 0, pc := 0, vf := 0, block := 0, ents := [e], scope := .par, cls := .cz, acq := none, dst := dst6, homes := homes,
    locked := locked, committed := [], phase := ph, lockedAt := some 0, resendAt := 0, cancel := false, result := some 0, fault := none, access := 5 }
def mcasAcc : Access := labAcc (.mcas 9) (.mcas 9) atHomeLeg
def labMc (q : Mcas) (a : Access) : State :=
  { labAccs a with mcas := [(9, q)], ns := 2000, stks := [(0, { labStack with aquota := [(0, 0x101)], routines := [(0, [0x73])], locks := [] })] }
theorem test_meets_lock : MayPerform (labMc (labMcas .sent [0] [] (labEnt none)) mcasAcc) 5 mcasAcc ∧
    (labMcas .sent [0] [] (labEnt none)).homes.find? (fun h => !(labMcas .sent [0] [] (labEnt none)).locked.contains h) = some 0 ∧
    (match ((labMc (labMcas .sent [0] [] (labEnt none)) mcasAcc).mcasPlaces 9 [labEnt none] []).2 with
    | some (.ok ps) => decide ((ascending (ps.map fun p => lockKey p.2.1 p.2.2)).length ≤ 8)
    | _ => false) = true ∧
    (labMc (labMcas .sent [0] [] (labEnt none)) mcasAcc).lockQuota 0 0 = 8 ∧
    (labMc (labMcas .sent [0] [] (labEnt none)) mcasAcc).lockedBy 0 0 = 0 :=
  ⟨may_of rfl (by decide +kernel), by decide, by decide +kernel, by decide +kernel, by decide +kernel⟩
theorem test_meets_commit : (∀ h ∈ (labMcas .committing [0] [0] (labEnt (some 0))).homes, h ∈ (labMcas .committing [0] [0] (labEnt (some 0))).locked) ∧
    (labEnt (some 0)).seen = some (labEnt (some 0)).expect ∧ (labEnt (some 1)).seen ≠ some (labEnt (some 1)).expect ∧
    (labMcas .committing [0] [0] (labEnt (some 0))).ents.filter (fun y => y.loc.stack == 0) = [labEnt (some 0)] ∧
    ((labMc (labMcas .committing [0] [0] (labEnt (some 0))) mcasAcc).stack 0).bankFenced 0 (0x100 / 128) = false := by decide +kernel
theorem test_meets_lock_timeout : (labMcas .locking [0, 1] [0] (labEnt none)).lockedAt = some 0 ∧
    0 + 2000 ≤ (labMc (labMcas .locking [0, 1] [0] (labEnt none)) mcasAcc).ns ∧ 1 ∉ (labMcas .locking [0, 1] [0] (labEnt none)).locked ∧
    tfind (labMc (labMcas .locking [0, 1] [0] (labEnt none)) mcasAcc).accs 5 = some mcasAcc := by decide +kernel
theorem test_meets_restart : let s : State := { labMc (labMcas .restart [0] [] (labEnt none)) mcasAcc with accs := [] }
    tfind s.accs 5 = none ∧ (labMcas .restart [0] [] (labEnt none)).resendAt ≤ s.cycleOf 0 ∧
    (labMcas .restart [0] [] (labEnt none)).homes.head? = some (labEnt none).loc.stack ∧ (s.die 0).cuOps = [] := by decide +kernel
theorem test_meets_cancel (ph : McasPh) : ({ labMcas ph [0] [] (labEnt none) with cancel := true } : Mcas).cancel = true ∧
    ({ labMcas ph [0] [] (labEnt none) with cancel := true } : Mcas).phase = ph ∧
    tfind (labMc { labMcas ph [0] [] (labEnt none) with cancel := true } mcasAcc).accs 5 = some mcasAcc := ⟨rfl, rfl, rfl⟩
theorem test_meets_mcas_reply : Returns (labMc (labMcas .done [0] [0] (labEnt (some 0))) (backAcc (.mcas 9) .ack)) 5 (backAcc (.mcas 9) .ack) .ack ∧
    (labMcas .done [0] [0] (labEnt (some 0))).result = some 0 ∧ (labMcas .done [0] [0] (labEnt (some 0))).ents.length ≤ 9 :=
  ⟨⟨rfl, ⟨[0], .head _, Nat.le_refl 1⟩, rfl⟩, rfl, by decide⟩

/-- Routine 0 of VF 0 is an ECALL alone; routine 1 has a first word of zero. -/
def atompAcc (idx : Nat) : Access := labAcc (.atomp idx [1, 2, 3, 4] 0) (.atomic [0] dst6 8 none) atHomeLeg
theorem test_meets_routine : MayPerform (labMc (labMcas .done [] [] (labEnt none)) (atompAcc 0)) 5 (atompAcc 0) ∧
    (labMc (labMcas .done [] [] (labEnt none)) (atompAcc 0)).atompAhead 5 (atompAcc 0) < 0x101 % 256 ∧
    atPlace (labMc (labMcas .done [] [] (labEnt none)) (atompAcc 0)) storeAcc.loc .atomic = true ∧
    (labMc (labMcas .done [] [] (labEnt none)) (atompAcc 0)).routine 0 0 0 = some [0x73] ∧ routineValid [0x73] = true ∧
    (match runRoutine [0x73] (List.replicate 128 0) [1, 2, 3, 4] 0 with
    | .ok _ => true
    | .error _ => false) = true ∧
    (labMc (labMcas .done [] [] (labEnt none)) (atompAcc 1)).routine 0 0 1 = none :=
  ⟨may_of rfl (by decide +kernel), by decide +kernel, by decide +kernel, by decide, by decide, by decide +kernel, by decide +kernel⟩

/-! A partition of die 0 alone. VFs 1 and 2 are bound to it and have a task each. -/

def vfCtx (w : Nat) : Ctx := { Ctx.reset with desc := some 0x100, budget := BitVec.ofNat 64 w, vfbind := BitVec.ofNat 128 (2 ^ 68) }
def labGang (g : Gang) : State :=
  { labM labG with
    groups := [(0, { labG with vf := 1 })], ctxs := [(1, vfCtx 1), (2, vfCtx 1)], ns := 1000000,
    items := [(7, Item.plain .task 1 [] []), (8, Item.plain .task 2 [] [])],
    mh := { Masthead.reset with partcfg := 0, boot := .done, gangs := [(0, g)] } }
def gangOf (cur next : Option Nat) (ph : SwPh) (prepared ready : List Nat) : Gang :=
  { Gang.reset with cur := cur, next := next, phase := ph, prepared := prepared, ready := ready }
theorem test_meets_preemption : (labGang Gang.reset).leaderOfDie 0 = 0 ∧ (labGang Gang.reset).diesOf 0 = [0] := by decide +kernel
theorem test_meets_tick_switch : (gangOf (some 1) none .idle [] []).tickAt + 1000 * (gangOf (some 1) none .idle [] []).period ≤ (labGang (gangOf (some 1) none .idle [] [])).ns ∧
    (labGang (gangOf (some 1) none .idle [] [])).bindsWaiting 0 = [] ∧ turns (labGang (gangOf (some 1) none .idle [] [])) 0 = [1, 2] ∧
    ((labGang (gangOf (some 1) none .idle [] [])).ctx 1).weight ≤ (gangOf (some 1) none .idle [] []).turn + 1 := by decide +kernel
theorem test_meets_tick_same : let s : State := { labGang (gangOf (some 1) none .idle [] []) with ctxs := [(1, vfCtx 2)] }
    s.inRotation 1 = true ∧ 1 ∈ s.vfsOf 0 ∧ 0 + 1 < (s.ctx 1).weight := by decide +kernel
/-- A group of VF 1 that has halted, alone in its cluster. -/
theorem test_meets_one_halted : OneHalted { labGang (gangOf (some 1) none .idle [] []) with groups := [(0, { labG with vf := 1, halted := true })] } 1 0
    { labG with vf := 1, halted := true } :=
  ⟨by decide +kernel, by decide +kernel, rfl, rfl, rfl, by simp [labGang, labM, lab, State.reset], by decide +kernel, rfl, by decide +kernel, by decide +kernel, rfl,
   fun p hp => by
    have := List.all_eq_true.mp (by decide : (labG.fibres.all fun p => decide (p.2.waiting = none)) = true) p hp
    exact of_decide_eq_true this⟩
theorem test_meets_prepare : 0 ∉ (gangOf (some 1) (some 2) .preparing [] []).prepared ∧
    0 ∈ (labGang (gangOf (some 1) (some 2) .preparing [] [])).diesOf 0 := by decide +kernel
def labReady : State := { labGang { gangOf (some 1) (some 2) .preparing [0] [] with prepAt := 1000000 } with groups := [] }
theorem test_meets_ready : labReady.running 0 = [] ∧ labReady.dieRuns 0 = true ∧ labReady.ns ≤ (labReady.gang 0).prepAt + 2000 ∧ labReady.settledOn 0 1 = true ∧
    0 ∉ (labReady.gang 0).ready ∧ 0 ∈ (labReady.gang 0).prepared ∧ labReady.groups = [] := by decide +kernel
theorem test_meets_commit_switch : (∀ d ∈ (labGang (gangOf (some 1) (some 2) .preparing [0] [0])).diesOf 0,
      (labGang (gangOf (some 1) (some 2) .preparing [0] [0])).takesPart d = true → d ∈ (gangOf (some 1) (some 2) .preparing [0] [0]).ready) ∧
    (gangOf (some 1) (some 2) .committing [0] []).phase = .committing := by decide +kernel
theorem test_meets_deadline : (gangOf (some 1) (some 2) .preparing [0] []).prepAt + 2000 < (labGang (gangOf (some 1) (some 2) .preparing [0] [])).ns ∧
    0 ∈ (labGang (gangOf (some 1) (some 2) .preparing [0] [])).diesOf 0 ∧ (labGang (gangOf (some 1) (some 2) .preparing [0] [])).takesPart 0 = true ∧
    (gangOf (some 1) (some 2) .preparing [0] []).misses < 2 ∧ 2 ≤ ({ gangOf (some 1) (some 2) .preparing [0] [] with misses := 2 } : Gang).misses ∧
    (gangOf (some 1) (some 2) .cancelling [] []).phase = .cancelling := by decide +kernel

def labJob (j : ScrubJob) : State :=
  { labGang Gang.reset with stks := [(0, { labStack with jobs := [j] })] }
theorem test_meets_scrub : ((labJob ⟨1, [0], [2], [3], 0⟩).stack 0).selfref = false ∧ ((labJob ⟨1, [], [2], [3], 0⟩).stack 0).jobs = ⟨1, [], [2], [3], 0⟩ :: [] ∧
    ((labJob ⟨1, [], [], [3, 4], 0⟩).stack 0).jobs = ⟨1, [], [], [3, 4], 0⟩ :: [] ∧ (labJob ⟨1, [0], [2], [3], 0⟩).mh.boot = .done := by decide +kernel
theorem test_meets_scrub_boot : ((labGang Gang.reset).stack 0).jobs = [] ∧ (tget Frame.reset ((labGang Gang.reset).stack 0).frames 16).st = .quar ∧
    ∀ j, j < 16 → (tget Frame.reset ((labGang Gang.reset).stack 0).frames j).st ≠ .quar := by decide +kernel
theorem test_meets_scrub_order : ((labGang Gang.reset).stack 0).frames.Pairwise (fun a b => a.1 < b.1) := by decide +kernel

/-! Security commands: the word of OP, UNIT 0, SLOT 1, VF 2. -/

def labCmd (w0 w1 w2 w3 : DWord) : State :=
  { labGang Gang.reset with
    groups := [], items := [], cores := [(0, { Core.empty with cmds := [[1, w0, w1, w2, w3]] })] }
def cmdOf (op unit slot vf arg : Nat) (w1 w2 w3 : Nat) : Cmd := ⟨1, op, unit, slot, vf, arg, w1, w2, w3⟩
def cmdWord (op unit slot vf arg : Nat) : DWord := BitVec.ofNat 64 (op + 2 ^ 8 * unit + 2 ^ 16 * slot + 2 ^ 24 * vf + 2 ^ 32 * arg)
theorem commands_of {op unit slot vf arg w1 w2 w3 : Nat} (h1 : (cmdWord op unit slot vf arg).toNat % 256 = op ∧
      (cmdWord op unit slot vf arg).toNat / 2 ^ 8 % 256 = unit ∧ (cmdWord op unit slot vf arg).toNat / 2 ^ 16 % 256 = slot ∧
      (cmdWord op unit slot vf arg).toNat / 2 ^ 24 % 256 = vf ∧ (cmdWord op unit slot vf arg).toNat / 2 ^ 32 = arg)
    (h2 : w1 < 2 ^ 64 ∧ w2 < 2 ^ 64 ∧ w3 < 65536) (h3 : unit ≤ 16 ∨ unit = 255) :
    Commands (labCmd (cmdWord op unit slot vf arg) (BitVec.ofNat 64 w1) (BitVec.ofNat 64 w2) (BitVec.ofNat 64 w3)) 0 op
      (cmdOf op unit slot vf arg w1 w2 w3) := by
  refine ⟨⟨⟨[], 1, _, _, _, _, rfl, h1.1.symm, ?_⟩, rfl⟩, h2.2.2, h3⟩
  simp only [cmdOf, Cmd.mk.injEq, BitVec.toNat_ofNat]
  refine ⟨rfl, trivial, h1.2.1.symm, h1.2.2.1.symm, h1.2.2.2.1.symm, h1.2.2.2.2.symm, ?_, ?_, ?_⟩ <;> omega

/-- Each command with words that it accepts, and the conditions on the machine. -/
theorem test_meets_commands :
    Commands (labCmd (cmdWord 0x01 0 0 0 0) 0x20000 0x1000000000100 7) 0 0x01 (cmdOf 0x01 0 0 0 0 0x20000 0x1000000000100 7) ∧
    Commands (labCmd (cmdWord 0x02 16 0 0 0) 0x102 0 7) 0 0x02 (cmdOf 0x02 16 0 0 0 0x102 0 7) ∧
    Commands (labCmd (cmdWord 0x10 255 1 2 0) 0 0 7) 0 0x10 (cmdOf 0x10 255 1 2 0 0 0 7) ∧
    Commands (labCmd (cmdWord 0x11 0 1 2 0) 0 0 7) 0 0x11 (cmdOf 0x11 0 1 2 0 0 0 7) ∧
    Commands (labCmd (cmdWord 0x12 16 1 0 3) 0 0 7) 0 0x12 (cmdOf 0x12 16 1 0 3 0 0 7) ∧
    Commands (labCmd (cmdWord 0x20 0 1 0 0) 786431 1 7) 0 0x20 (cmdOf 0x20 0 1 0 0 786431 1 7) ∧
    Commands (labCmd (cmdWord 0x21 0 0 192 0) 0 786432 7) 0 0x21 (cmdOf 0x21 0 0 192 0 0 786432 7) ∧
    Commands (labCmd (cmdWord 0x22 0 0 2 0) 0 0 7) 0 0x22 (cmdOf 0x22 0 0 2 0 0 0 7) ∧
    Commands (labCmd (cmdWord 0x30 0 0 2 0) 0 65536 7) 0 0x30 (cmdOf 0x30 0 0 2 0 0 65536 7) ∧
    Commands (labCmd (cmdWord 0x31 0 0 2 0) 0 (2 ^ 44) 7) 0 0x31 (cmdOf 0x31 0 0 2 0 0 (2 ^ 44) 7) ∧
    Commands (labCmd (cmdWord 0x32 0 0 2 0) 0 0 7) 0 0x32 (cmdOf 0x32 0 0 2 0 0 0 7) ∧
    Commands (labCmd (cmdWord 0x40 0 0 2 0) 0x1000000000100 0 7) 0 0x40 (cmdOf 0x40 0 0 2 0 0x1000000000100 0 7) ∧
    Commands (labCmd (cmdWord 0x41 0 0 0 0) 0 0 7) 0 0x41 (cmdOf 0x41 0 0 0 0 0 0 7) := by
  refine ⟨?_, ?_, ?_, ?_, ?_, ?_, ?_, ?_, ?_, ?_, ?_, ?_, ?_⟩ <;> exact commands_of (by decide) (by decide) (by decide)

theorem test_meets_command_state : let s := labCmd (cmdWord 0x10 255 1 2 0) 0 0 7
    (∀ t ∈ List.range 16, (slotAt s t 1).st = .free) ∧ (s.ctx 2).scrubbing = false ∧ regOf 0x20000 = some .fwctl ∧
    ((Reg.fwctl).units 0).isSome = true ∧ (s.gang 0).cur = none ∧ (∀ d ∈ s.diesOf 0, s.running d = []) ∧ (frameAt s 1 0).st = .quar := by
  decide +kernel
theorem test_meets_command_held : ({ vfCtx 1 with tdi := .locked } : Ctx).tdi = .locked ∧ (slotAt (labGang Gang.reset) 0 0).st ≠ .free := by decide +kernel
theorem test_meets_consents : let s : State := { labGang Gang.reset with
      ctxs := [(1, { vfCtx 1 with consents := [⟨3, 2, 100, 15⟩] }), (2, { vfCtx 1 with consents := [⟨3, 1, 100, 15⟩] })] }
    BothConsent s 3 1 2 ∧ (∀ p ∈ s.ctxs, s.ctx p.1 = p.2) ∧ s.mh.windows = [] :=
  ⟨⟨by decide, ⟨3, 2, 100, 15⟩, .head _, ⟨3, 1, 100, 15⟩, .head _, rfl, rfl, rfl, rfl, rfl⟩, by decide +kernel, rfl⟩
theorem test_meets_teardown : Idle (labCmd (cmdWord 0x22 0 0 2 0) 0 0 7) 2 ∧ Unshadowed (labCmd (cmdWord 0x22 0 0 2 0) 0 0 7) := by
  refine ⟨⟨?_, ?_, ?_, ?_, ?_, ?_, ?_, ?_⟩, ?_, ?_⟩
  · simp [labCmd]
  · simp [labCmd]
  · simp [labCmd, labGang, labM, lab, State.reset]
  · simp [labCmd, Core.empty]
  · simp [labCmd, labGang, labM, lab, State.reset]
  · simp [labCmd, labGang, labM, lab, State.reset]
  · simp [labCmd]
  · simp [labCmd, labGang, labM, lab, State.reset]
  · exact List.nodup_nil
  · unfold Distinct; decide +kernel
theorem test_meets_install : okB ((labCmd (cmdWord 0x40 0 0 2 0) 0x1000000000100 0 7).halyardRead 0 (cmdKey 0) 0x1000000000100 128) = true ∨
    okB ((labM labG).halyardRead 0 (cmdKey 0) 0x1000000000100 128) = true := by decide +kernel
theorem test_meets_status : (0x55 : DWord).toNat % 256 ∉ [0x01, 0x02, 0x10, 0x11, 0x12, 0x20, 0x21, 0x22, 0x30, 0x31, 0x32, 0x40, 0x41] ∧
    ((labCmd 0x55 0 0 7).core 0).cmds = [1, 0x55, 0, 0, 7] :: [] ∧ ((labCmd 0x55 0 0 7).core 0).q8readers = [] := by decide +kernel
/-! ### Sessions, links, the host, registers, power -/

def inSession : State := { labGang Gang.reset with ctxs := [(1, { vfCtx 1 with spdm := .session }), (2, { vfCtx 1 with spdm := .start })] }
theorem test_meets_session : InPhase inSession 1 [.session] ∧ InPhase inSession 2 [.start, .version, .capabilities, .negotiated, .keyExchanged] ∧
    (inSession.mh.ide.filter (·.sel)).length < 8 ∧ (inSession.ctx 1).tdi = .unlocked ∧ (inSession.stack 0).fwctl.getLsbD 9 = true := by
  unfold InPhase; decide +kernel
theorem test_meets_phases (p : SpdmPh) : InPhase { inSession with ctxs := [(1, { vfCtx 1 with spdm := p })] } 1 [p] ∧
    ({ Masthead.reset with boot := .failed } : Masthead).boot = .failed := ⟨⟨rfl, by decide, by
    cases p <;> decide +kernel⟩, rfl⟩
theorem test_meets_ide_full : 8 ≤ (((List.range 8).map fun n => (⟨true, n, 1, 0⟩ : IdeStream)).filter (·.sel)).length ∧
    ((((List.range 8).map fun n => (⟨true, n, 1, 0⟩ : IdeStream)).filter fun x => !(x.sel == true && x.id == 8)).filter (·.sel)).length = 8 := by decide
def openPort : HxPort := { HxPort.reset with vf := 1, linkUp := true, enable := true, rxg0 := true, key0 := 5 }
def labPort (x : HxPort) : State := { inSession with stks := [(0, { labStack with hx := [(0, x)] })] }
theorem test_meets_links : (labPort openPort).hxPort 0 0 = openPort ∧ openPort.enable = true ∧ openPort.rotating = false ∧
    ({ openPort with rotating := true } : HxPort).confirmed = false ∧ Drained { openPort with rotating := true, confirmed := true, recv1 := 3 } 3 ∧
    ¬ Drained { openPort with rotating := true, confirmed := true, recv1 := 3 } 4 ∧ ((labPort openPort).stack 0).fwctl.getLsbD 9 = true ∧
    openPort.notice = none ∧ openPort.rxg1 = false := by unfold Drained; decide +kernel

/-- The host's accesses: VF 1's buffer 0, whose table is at byte 0x6000 of the steward's entry 1. -/
def labHost : State :=
  { labM labG with
    ctxs := [(0, { Ctx.reset with desc := some 0x100 }), (1, { vfCtx 1 with desc := some (BitVec.ofNat 1024 (1 + 0x1000000006000 * 2 ^ 320)) })],
    mem := (labM labG).mem ++ [(0x6000, 0x1F), (0x6002, 1), (0x6003, 1), (0x600A, 1), (0x6010, 1)],
    stks := [(0, { labStack with slots := [(0, { KeySlot.reset with st := .active }), (1, { KeySlot.reset with vf := 1, st := .active })] })], mh := { Masthead.reset with partcfg := 0, boot := .done } }
theorem test_meets_host_refused : labHost.checkPtr 1 (2 ^ 20 - 4) 4 0 .w ≠ none := by decide +kernel
theorem test_meets_host_access : labHost.checkPtr 1 256 4 0 .w = none ∧ labHost.checkPtr 1 256 4 0 .r = none ∧ labHost.checkPtr 1 256 8 8 .a = none ∧
    labHost.mh.boot = .done := by decide +kernel
theorem test_meets_boot : State.reset.mh.boot = .pending ∧ ({ Masthead.reset with boot := .warm } : Masthead).boot = .warm ∧ Unshadowed State.reset := by
  unfold Unshadowed Distinct; decide +kernel
theorem test_meets_trip : (State.reset.die 15).trip = false ∧ ((labM labG).die 0).level ≠ .off := by decide

/-- Layouts: one partition of sixteen dies, sixteen of one, and none that the table gives. -/
theorem test_meets_layouts : legalLayout 0x924924924924 = true ∧ legalLayout 0 = true ∧ legalLayout 5 = false ∧
    (0 : BitVec 64) ≠ State.reset.mh.partcfg := by decide +kernel
theorem test_meets_binding_writes : let s := labGang Gang.reset
    s.leaderOfDie 0 = 0 ∧ s.diesOf 0 = [0] ∧ (∃ p ∈ s.groups, p.2.vf = 1 ∧ p.2.evicted = false ∧ p.2.dead = false) ∧
    ((labGang (gangOf (some 1) none .idle [] [])).gang ((labGang (gangOf (some 1) none .idle [] [])).ctx 1).leader).cur = some 1 ∧
    (2 ^ 68 + 1) % 2 ^ 68 ≠ (s.ctx 1).vfbind.toNat % 2 ^ 68 := by
  refine ⟨by decide +kernel, by decide +kernel, ⟨_, .head _, rfl, rfl, rfl⟩, by decide +kernel, by decide +kernel⟩
theorem test_meets_quota_writes : Within ([] : Tab (BitVec 64)) 1 8 12 2048 0x80000 ∧ ¬ Within [((2, 0x100) : Nat × BitVec 64)] 1 8 12 2048 0x80000 ∧
    Within ([] : Tab (BitVec 32)) 1 16 11 1024 0x4000000 ∧ ¬ Within [((2, 0x10000) : Nat × BitVec 32)] 1 16 11 1024 0x4000000 := by
  unfold Within; decide +kernel
theorem test_meets_tick_period : 100 ≤ 1000 ∧ 1000 ≤ Config.blobTickMax := ⟨by decide, Nat.le_add_right _ _⟩
theorem test_meets_register_numbers : regOf 0 = none ∧ regOf 1 = some .partcfg ∧ (Reg.partcfg).units 0 = none := by decide

/-- Power: a die that runs with nothing in flight, one that is OFF, one that a switch occupies, one that wakes. -/
def idleDie (l : PwrLevel) : State := { labM labG with groups := [], cores := [], dies := [(0, { Die.reset with level := l })] }
theorem test_meets_die_free : DieFree (idleDie .l0) 0 ∧ ((idleDie .l0).die 0).lines = [] ∧ (∀ k, k / 16 = 0 → ((idleDie .l0).core k).l1 = []) ∧
    ((idleDie .off).die 0).level = .off ∧ ((idleDie .hold).die 0).level = .hold ∧ (idleDie .hold).mh.alarmHalt = false ∧
    ((idleDie .l2).die 0).level.runs = true :=
  ⟨⟨by decide +kernel, fun j _ => by simp [idleDie, State.running], by simp [idleDie, labM, lab, State.reset], by decide +kernel, rfl⟩, rfl,
   fun k _ => by simp [idleDie, State.core, tget, tfind, Core.empty], rfl, rfl, rfl, rfl⟩
theorem test_meets_power_later : ((labGang (gangOf (some 1) (some 2) .preparing [] [])).gang ((labGang (gangOf (some 1) (some 2) .preparing [] [])).leaderOfDie 0)).phase
    ∈ ([.preempted, .preparing, .cancelling, .committing, .evicting] : List SwPh) := by decide +kernel
theorem test_meets_wake : (({ labM labG with dies := [(0, { Die.reset with waking := some .l1, target := .l0 })] } : State).die 0).waking = some .l1 := rfl
theorem test_meets_arbitration : (List.replicate 16 0).foldl (· + ·) 0 + (List.replicate 16 0).foldl (· + ·) 0 ≤ State.reset.mh.pwrcap := by decide

/-! A collective of one instance on stack 0, whose program stands at byte 16384 of entry 1. -/

def labInst : Inst := { Inst.fresh 0 0 1 0 with st := .running, x := [(1, 0x1000000000100), (2, 5)], cptr := 0x1000000000100, accctl := 2 }
def labColl (x : Inst) : Coll :=
  { vf := 0, item := 7, img := 0x1000000004000, imgLen := 64, stks := [0], cores := 1, arg := 0, scope := .par,
    reads := [⟨0x1000000000000, 0x8000⟩], writes := [⟨0x1000000000000, 0x8000⟩], insts := [x], ending := none, passed := false,
    cmpl := none, cnt := none, seq := 0, inc := 0 }
def wordCells (w : Nat) : List Host.Cell := (leBytes 4 w).zipIdx.filterMap fun b => if b.1 = 0 then none else some (16384 + b.2, b.1)
def labRuns (w : Nat) (x : Inst) : State :=
  { labM labG with mem := (labM labG).mem ++ wordCells w, colls := [(3, labColl x)], nextId := 8 }

/-- What InstAt asks, as a computation. -/
def instB (w : Nat) (x : Inst) : Bool :=
  let s := labRuns w x
  decide (x.stack < 16) && decide (x.st = .running) && decide (tget 0 (s.stack x.stack).abUsed 0 < shareOf (s.ctx 0) 40 128000) &&
  decide (x.pc.toNat % 4 = 0) && decide (x.pc.toNat + 4 ≤ 64) && (s.checkPtr 0 (ptrAdd 0x1000000004000 x.pc.toNat) 4 0 .x).isNone &&
  (s.peekPtr 0 (ptrAdd 0x1000000004000 x.pc.toNat) 4).any fun bs => decide (leNat bs = w)
theorem inst_of {w : Nat} {x : Inst} (h : instB w x = true) : InstAt (labRuns w x) 3 0 (labColl x) x w := by
  simp only [instB, Bool.and_eq_true, decide_eq_true_eq, Option.isNone_iff_eq_none, Option.any_eq_true] at h
  obtain ⟨⟨⟨⟨⟨⟨h1, h2⟩, h3⟩, h4⟩, h5⟩, h6⟩, h7⟩ := h
  exact ⟨rfl, rfl, h1, h2, rfl, h3, h4, h5, h6, h7⟩

/-- ADD, JAL, BEQ, LD, SD, FADD.S, VADD.VV, FENCE, ECALL and CSRRW of each register, as RISC-V encodes them. -/
theorem test_meets_instances : InstAt (labRuns 0x002081B3 labInst) 3 0 (labColl labInst) labInst 0x002081B3 ∧
    (intValue labInst 0x002081B3).isSome = true ∧ (intValue labInst 0x0220A1B3).isSome = true ∧
    InstAt (labRuns 0x008000EF labInst) 3 0 (labColl labInst) labInst 0x008000EF ∧
    InstAt (labRuns 0x00208463 labInst) 3 0 (labColl labInst) labInst 0x00208463 ∧
    InstAt (labRuns 0x0000B183 labInst) 3 0 (labColl labInst) labInst 0x0000B183 ∧
    InstAt (labRuns 0x0020B023 labInst) 3 0 (labColl labInst) labInst 0x0020B023 ∧
    InstAt (labRuns 0x0020F1D3 labInst) 3 0 (labColl labInst) labInst 0x0020F1D3 ∧ (labInst.opfp 0x0020F1D3).isSome = true ∧
    InstAt (labRuns 0x0000000F labInst) 3 0 (labColl labInst) labInst 0x0000000F ∧
    InstAt (labRuns 0x00000073 labInst) 3 0 (labColl labInst) labInst 0x00000073 :=
  ⟨inst_of (by decide +kernel), by decide +kernel, by decide +kernel, inst_of (by decide +kernel), inst_of (by decide +kernel),
   inst_of (by decide +kernel), inst_of (by decide +kernel), inst_of (by decide +kernel), by decide +kernel, inst_of (by decide +kernel),
   inst_of (by decide +kernel)⟩
theorem test_meets_instance_registers : ∀ num ∈ [0x800, 0x801, 0x802, 0x803, 0x804, 0x805, 0x810, 0x811, 0x820, 0x821, 0x830],
    Csrrw labInst (num * 2 ^ 20 + 2 * 2 ^ 15 + 2 ^ 12 + 3 * 2 ^ 7 + 0x73) num 5 ∧ instB (num * 2 ^ 20 + 2 * 2 ^ 15 + 2 ^ 12 + 3 * 2 ^ 7 + 0x73) labInst = true := by
  unfold Csrrw; decide +kernel
theorem test_meets_instance_memory : (labRuns 0 labInst).checkPtr 0 0x1000000000100 8 8 .r = none ∧
    (∃ g ∈ (labColl labInst).reads, g.holds 0x1000000000100 (ptrOff 0x1000000000100) 8 = true) ∧
    CounterSound (labRuns 0 labInst) (labColl labInst) labInst ∧
    okB ((labRuns 0 labInst).engineSeg 16 0 (instKey 3 0) 0 0x1000000000100 8) = true ∧
    okB ((Clamped (labRuns 0 labInst) (labColl labInst) labInst).readDirect 16 (counterLoc (labRuns 0 labInst) (labColl labInst) labInst) 8) = true ∧
    okB ((Clamped (labRuns 0 labInst) (labColl labInst) labInst).counterDirect 16 (counterLoc (labRuns 0 labInst) (labColl labInst) labInst) .cadd 5) = true :=
  ⟨by decide +kernel, ⟨_, .head _, by decide +kernel⟩, by unfold CounterSound; decide +kernel, by decide +kernel, by decide +kernel, by decide +kernel⟩
theorem test_meets_instance_start : ({ labInst with st := .waiting } : Inst).st = .waiting ∧
    ((labRuns 0 { labInst with st := .waiting }).stack 0).abacus.length < 8 := by decide +kernel
theorem test_meets_sends : ([] : List HxSend).length < 32 ∧ okB ((labRuns 0 labInst).engineRead 16 0 (instKey 3 0) 0 0x1000000000100 0 64) = true ∧
    NoneOut (labRuns 0 labInst) 3 0 0 := by
  refine ⟨by decide, by decide +kernel, ?_⟩
  simp [NoneOut, labRuns, labM, lab, State.reset]
theorem test_meets_collective_completion : (∀ x ∈ (labColl { labInst with st := .ended }).insts, x.st = .ended ∧ x.sends = []) ∧
    okB ((labRuns 0 { labInst with st := .ended }).complete (complKey 3) 32 0 ⟨none, none, 0, 0⟩ 0) = true := by decide +kernel
theorem test_meets_routine_step : (∀ p ∈ (⟨[(10, 2 ^ 64 - 1)], 15, List.replicate 128 0, 0⟩ : Routine).x, p.2 < 2 ^ 64) ∧
    (⟨[], 15, List.replicate 128 0, 0⟩ : Routine).line.length = 128 := ⟨by decide, by simp⟩

/-! ### The whole machine -/

theorem test_meets_step_memory : State.reset.memWf = true := by decide
/-! ### Words written out from Tables 3.4 to 3.9 -/

/-- An unguarded slot: opcode, destination, bits [61:18] and MOD. -/
def wordOf (opc : BitVec 10) (dst : BitVec 12) (body : BitVec 44) (md : BitVec 8) : Slot :=
  opc ++ (0b01111#5 ++ 0b00000#5 ++ 0b00#2) ++ dst ++ body ++ md ++ (0b000#3 ++ 0b000#3 ++ 0b0#1 ++ 0b0#1 ++ 0b00#2)

/-- v register n as a destination and as a source, and none of both. -/
def dV (n : BitVec 8) : BitVec 12 := 0b0000#4 ++ n
def sV (n : BitVec 8) : BitVec 11 := 0b00#2 ++ n ++ 0b0#1
def dNone : BitVec 12 := 0b0011#4 ++ 0xFF#8
def s0 : BitVec 11 := 0#11

theorem test_decode_class0 :
    decodeSlot (wordOf 0x001 (dV 6) (sV 2 ++ sV 3 ++ s0 ++ s0) 2) = .ok (.iadd (cf2 (vdst 6) (vsrc 2) (vsrc 3) 2)) ∧
    decodeSlot (wordOf 0x041 (dV 3) (sV 3 ++ 1#32 ++ 0#1) 2) = .ok (.iaddImm ⟨ctl0, vdst 3, vsrc 3, 1, false, 2⟩) ∧
    decodeSlot (wordOf 0x018 (0b0010#4 ++ 8#8) (sV 4 ++ s0 ++ s0 ++ s0) 0x0B) = .ok (.mov (cf1 (qdst 8) (vsrc 4) 0x0B)) := by decide
theorem test_decode_float :
    decodeSlot (wordOf 0x083 (dV 1) (sV 2 ++ (0b01#2 ++ 9#8 ++ 0b0#1) ++ (0b11#2 ++ 1#8 ++ 0b1#1) ++ s0) 0) =
      .ok (.ffma { cf1 (vdst 1) (vsrc 2) 0 with sb := ⟨.scalar, 9, false⟩, sc := ⟨.special, 1, true⟩ }) ∧
    decodeSlot (wordOf 0x100 (dV 1) (sV 2 ++ s0 ++ s0 ++ s0) 0) = .ok (.frcp (cf1 (vdst 1) (vsrc 2) 0)) ∧
    decodeSlot (wordOf 0x110 (dV 1) (sV 2 ++ (0b11#2 ++ 0#8 ++ 0b0#1) ++ s0 ++ s0) 0x86) =
      .ok (.cvt { cf1 (vdst 1) (vsrc 2) 0x86 with sb := ⟨.special, 0, false⟩ }) := by decide
theorem test_decode_lanes :
    decodeSlot (wordOf 0x182 (dV 1) (sV 2 ++ sV 3 ++ s0 ++ (0b01#2 ++ 4#8 ++ 0b1#1)) 1) =
      .ok (.shfl { cf2 (vdst 1) (vsrc 2) (vsrc 3) 1 with oe := ⟨.scalar, 4, true⟩ }) ∧
    decodeSlot (wordOf 0x1A0 (0b0001#4 ++ 1#8) (sV 2 ++ sV 3 ++ sV 15 ++ s0) 0x80) =
      .ok (.plop { cf2 (pdst 1) (vsrc 2) (vsrc 3) 0x80 with sc := vsrc 15 }) := by decide
theorem test_decode_control :
    decodeSlot (wordOf 0x202 (dV 7) ((-1 : BitVec 30) ++ 0b100#3 ++ 0b1#1 ++ 0#10) 0) =
      .ok (.call ⟨ctl0, vdst 7, -1, 4, true, .vreg, 0, 0⟩) ∧
    decodeSlot (wordOf 0x204 (0b0001#4 ++ 2#8) (3#30 ++ 0b001#3 ++ 0b0#1 ++ (0b01#2 ++ 5#8)) 1) =
      .ok (.fork ⟨ctl0, pdst 2, 3, 1, false, .scalar, 5, 1⟩) ∧
    decodeSlot (wordOf 0x205 dNone 0 0) = .ok (.retire (cf dst0 0)) := by decide
theorem test_decode_memory :
    decodeSlot (wordOf 0x280 (dV 6) (sV 0 ++ s0 ++ (-4 : BitVec 22)) 0x22) = .ok (.ld { mf (vdst 6) (vsrc 0) zeroSrc 0x22 with disp := -4 }) ∧
    decodeSlot (wordOf 0x292 dNone 0 0x32) = .ok (.fence (cf dst0 0x32)) ∧
    decodeSlot (wordOf 0x301 (dV 8) ((0b01#2 ++ 2#8 ++ 0b0#1) ++ sV 4 ++ 8#22) 0x18) =
      .ok (.cas { mf (vdst 8) ⟨.scalar, 2, false⟩ (vsrc 4) 0x18 with disp := 8 }) ∧
    decodeSlot (wordOf 0x310 dNone (sV 0 ++ sV 2 ++ 0#22) 0x18) = .ok (.cadd (mf dst0 (vsrc 0) (vsrc 2) 0x18)) := by decide
theorem test_decode_engines :
    decodeSlot (wordOf 0x387 (dV 4) (sV 2 ++ s0 ++ s0 ++ s0) 2) = .ok (.macrd (cf1 (vdst 4) (vsrc 2) 2)) ∧
    decodeSlot (wordOf 0x391 (0b0010#4 ++ 2#8) (sV 4 ++ s0 ++ s0 ++ s0) 1) = .ok (.qwrc (cf1 (qdst 2) (vsrc 4) 1)) ∧
    decodeSlot (wordOf 0x3C0 (dV 0) 0 0x41) = .ok (.mfs (cf (vdst 0) 0x41)) ∧
    decodeSlot (wordOf 0x3C2 dNone 0 0x7F) = .ok (.trap (cf dst0 0x7F)) := by decide
/-- R70: a zeroed slot and one of all ones have unassigned opcodes. -/
theorem test_decode_unassigned : decodeSlot 0 = .error (.decodeTrap .illegalInstruction) ∧
    decodeSlot (BitVec.allOnes 96) = .error (.decodeTrap .illegalInstruction) := by decide
/-- The guard (!p2) and the scheduling control: GA 0b10010, GB p3, GC 0b01, HINT 2, STALL 5, YLD, x2. -/
theorem test_decode_control_fields :
    getCtl (0#10 ++ (0b10010#5 ++ 0b00011#5 ++ 0b01#2) ++ 0#64 ++ (0b010#3 ++ 0b101#3 ++ 0b0#1 ++ 0b1#1 ++ 0b10#2)) =
      ⟨⟨true, 2⟩, ⟨false, 3⟩, .both, 2, 5, false, true, 2⟩ := by decide

/-! ### Ill-formed slots, one for each check -/

/-- The instructions below but for one field: what each trap of R54 to R64 and R71 refuses. -/
def iaddOf (f : CFmt → CFmt) : Instr := .iadd (f (cf2 (vdst 6) (vsrc 2) (vsrc 3) 2))
def ctlOf (f : Ctl → Ctl) : Instr := iaddOf fun x => { x with ctl := f x.ctl }
theorem test_wf_plain : (iaddOf id).WellFormed := ⟨rfl, by decide⟩
theorem test_wf_guard : (ctlOf fun c => { c with gc := .reserved }).decodeTrap = some .illegalInstruction ∧
    (ctlOf fun c => { c with gb := ⟨false, 1⟩ }).decodeTrap = some .illegalInstruction := by decide
theorem test_wf_hold_yield : (ctlOf fun c => { c with hold := true, yld := true }).decodeTrap = some .illegalInstruction := by decide
theorem test_wf_hint : (ctlOf fun c => { c with hint := 1 }).decodeTrap = some .illegalInstruction ∧
    (Instr.ld { mf (vdst 6) (vsrc 0) zeroSrc 2 with ctl := { ctl0 with hint := 7 } }).decodeTrap = some .illegalModifier := by decide
theorem test_wf_modifier : (iaddOf fun x => { x with md := 0x12 }).decodeTrap = some .illegalModifier := by decide
theorem test_wf_group : (iaddOf fun x => { x with md := 3, sa := vsrc 3 }).decodeTrap = some .illegalInstruction ∧
    (iaddOf fun x => { x with md := 3, dst := vdst 5 }).decodeTrap = some .illegalInstruction := by decide
theorem test_wf_source : (iaddOf fun x => { x with sa := ⟨.scalar, 64, false⟩ }).decodeTrap = some .illegalInstruction ∧
    (iaddOf fun x => { x with sa := ⟨.latch, 4, false⟩ }).decodeTrap = some .illegalInstruction ∧
    (iaddOf fun x => { x with sa := ⟨.special, 0x48, false⟩ }).decodeTrap = some .illegalInstruction ∧
    (iaddOf fun x => { x with sa := ⟨.special, 0x53, false⟩ }).decodeTrap = some .illegalInstruction := by decide
theorem test_wf_om : (Instr.isub (cf2 (vdst 6) ⟨.vreg, 2, true⟩ (vsrc 3) 2)).decodeTrap = some .illegalInstruction := by decide
theorem test_wf_source_kinds : (Instr.st (mf dst0 ⟨.special, 1, false⟩ (vsrc 2) 2)).decodeTrap = some .illegalInstruction ∧
    (leaI.decodeTrap = none ∧ (Instr.lea (cf2 (vdst 6) ⟨.special, 1, false⟩ (vsrc 2) 0x22)).decodeTrap = some .illegalInstruction) ∧
    (Instr.cvtx (cf2 (vdst 6) ⟨.special, 0x40, false⟩ (vsrc 2) 0)).decodeTrap = some .illegalInstruction ∧
    (Instr.plop { cf2 (pdst 1) (vsrc 16) (vsrc 3) 0x80 with sc := vsrc 15 }).decodeTrap = some .illegalInstruction ∧
    (Instr.cvt { cf1 (vdst 1) (vsrc 2) 0x86 with sb := ⟨.special, 4, false⟩ }).decodeTrap = some .illegalInstruction := by decide
theorem test_wf_zero : (Instr.trap (cf1 dst0 (vsrc 1) 0)).decodeTrap = some .illegalInstruction ∧
    (Instr.ld (mf (vdst 6) (vsrc 0) (vsrc 1) 2)).decodeTrap = some .illegalInstruction := by decide
theorem test_wf_destination : (iaddOf fun x => { x with dst := pdst 1 }).decodeTrap = some .illegalInstruction ∧
    (iaddOf fun x => { x with dst := dst0 }).decodeTrap = some .illegalInstruction ∧
    (Instr.st (mf (vdst 1) (vsrc 0) (vsrc 2) 2)).decodeTrap = some .illegalInstruction ∧
    (Instr.iset (cf2 (pdst 16) (vsrc 2) (vsrc 3) 2)).decodeTrap = some .illegalInstruction ∧
    (Instr.v2p (cf2 (pdst 1) (vsrc 2) (vsrc 3) 0)).decodeTrap = some .illegalInstruction := by decide
theorem test_wf_queues : (Instr.mov (cf1 (qdst 4) (vsrc 2) 2)).decodeTrap = some .illegalInstruction ∧
    (Instr.qwr (cf1 (qdst 3) (vsrc 4) 0)).decodeTrap = some .illegalInstruction ∧
    (Instr.qstat (cf (vdst 1) 3)).decodeTrap = some .illegalInstruction ∧
    (Instr.marm (cf2 ⟨false, false, .conv, 8⟩ (vsrc 2) (vsrc 3) 0)).decodeTrap = some .illegalInstruction := by decide
theorem test_wf_capture : (iaddOf fun x => { x with dst := ⟨true, false, .vreg, 6⟩ }).decodeTrap = some .illegalInstruction ∧
    (Instr.iset (cf2 ⟨false, true, .pred, 1⟩ (vsrc 2) (vsrc 3) 2)).decodeTrap = some .illegalInstruction ∧
    (Instr.ld (mf ⟨false, true, .vreg, 8⟩ (vsrc 0) zeroSrc 4)).decodeTrap = some .illegalInstruction ∧
    (Instr.atom (mf ⟨false, true, .vreg, 8⟩ (vsrc 0) (vsrc 2) 3)).decodeTrap = some .illegalInstruction ∧
    (Instr.macrd (cf1 ⟨false, true, .vreg, 4⟩ (vsrc 2) 0)).decodeTrap = some .illegalInstruction := by decide
theorem test_wf_oe : (iaddOf fun x => { x with oe := vsrc 1 }).decodeTrap = some .illegalInstruction ∧
    (Instr.bfi { cf2 (vdst 6) (vsrc 2) (vsrc 3) 2 with oe := ⟨.vreg, 1, true⟩ }).decodeTrap = some .illegalInstruction ∧
    (Instr.sel { cf2 (vdst 6) (vsrc 2) (vsrc 3) 2 with oe := vsrc 1 }).decodeTrap = some .illegalInstruction ∧
    (Instr.shfl { cf2 (vdst 1) (vsrc 2) (vsrc 3) 1 with oe := ⟨.vreg, 4, true⟩ }).decodeTrap = some .illegalInstruction ∧
    (Instr.shfl { cf2 (vdst 1) (vsrc 2) (vsrc 3) 1 with oe := ⟨.scalar, 4, false⟩ }).decodeTrap = some .illegalInstruction := by decide
theorem test_wf_formats : (Instr.iaddImm ⟨ctl0, vdst 3, vsrc 3, 1, true, 2⟩).decodeTrap = some .illegalInstruction ∧
    (Instr.bra ⟨ctl0, dst0, 0, 5, false, .vreg, 0, 0⟩).decodeTrap = some .illegalInstruction ∧
    (Instr.fork ⟨ctl0, pdst 2, 3, 1, true, .scalar, 5, 1⟩).decodeTrap = some .illegalInstruction ∧
    (Instr.call ⟨ctl0, vdst 7, 0, 0, false, .vreg, 1, 0⟩).decodeTrap = some .illegalInstruction := by decide
theorem test_wf_overlap : (Instr.iadd (cf2 (vdst 2) (vsrc 4) (vsrc 6) 3)).decodeTrap = none ∧
    (Instr.mov (cf1 (vdst 4) (vsrc 4) 0xB)).decodeTrap = none ∧
    (Instr.imadw { cf2 (vdst 2) (vsrc 3) (vsrc 6) 2 with sc := vsrc 4 }).decodeTrap = some .operandOverlap ∧
    (Instr.elect { cf (pdst 1) 0 with oe := ⟨.vreg, 1, true⟩ }).decodeTrap = none ∧
    (Instr.shfl { cf2 (vdst 1) (vsrc 2) (vsrc 3) 1 with dst := vdst 1, oe := ⟨.scalar, 4, true⟩ }).decodeTrap = none ∧
    (Instr.cvtmx { cf1 (vdst 1) (vsrc 2) 0 with oe := ⟨.vreg, 1, true⟩ }).decodeTrap = some .operandOverlap ∧
    (Instr.plop { cf2 (pdst 1) (vsrc 2) (vsrc 3) 0x80 with sc := vsrc 15, oe := ⟨.scalar, 1, true⟩ }).decodeTrap =
      some .operandOverlap := by decide

/-! ### Lines and code -/

/-- The BRA of Table 4.1. -/
def spec41 : Instr := .bra ⟨{ ctl0 with ga := ⟨true, 2⟩ }, dst0, 1, 3, true, .vreg, 0, 0⟩
theorem test_branch_word : encode spec41 = some (words 0x802400FF 0xC0000001 0x70000000) := by decide
/-- Table 4.2. -/
theorem test_line_bytes : codeBytes (layOut [⟨spec41, true, none⟩]) =
    [0x00, 0x00, 0x00, 0x70, 0x01, 0x00, 0x00, 0xC0, 0xFF, 0x00, 0x24, 0x80] ++
    (List.replicate 4 [0x00, 0x00, 0x00, 0x00, 0x00, 0x00, 0x00, 0xC0, 0xFF, 0x00, 0x1E, 0x82]).flatten ++
    [0x01, 0x02, 0x00, 0x00] := by decide +kernel

/-- Line 0xC0 of 04: four IADDs and a RETIRE, with a label before the fourth. -/
def lineC0 : List SrcItem :=
  [3, 4, 5, 6].map (fun n => ⟨.iaddImm ⟨ctl0, vdst n, vsrc n, 1, false, 2⟩, n == 6, none⟩) ++ [⟨.retire (cf dst0 0), false, none⟩]
/-- PAIR is 0b1111; MASK names the label and the entry. -/
theorem test_line_pairs : (layOut lineC0).map (fun l => (lineWord l).extractLsb' 0 9) = [0b1111#4 ++ 0b01001#5] := by decide +kernel

theorem test_meets_layout : (0 : Nat) < 495 ∧ lineParityOk labLine = true ∧ (∃ l, l ∈ layOut lineC0) ∧ (∀ x ∈ lineC0, x.i.WellFormed) ∧
    (∀ x ∈ lineC0, x.align = none) ∧ (0x80 : Nat) < 2 ^ 32 ∧ slotAtPc 0xE4 3 :=
  ⟨by decide, by decide +kernel, ⟨_, .head _⟩, by simp only [lineC0, List.forall_mem_append]; exact ⟨by
    simp only [List.forall_mem_map]; intro n hn; simp only [List.mem_cons, List.not_mem_nil, or_false] at hn
    rcases hn with rfl | rfl | rfl | rfl <;> exact ⟨rfl, by decide⟩, by simp [Instr.WellFormed]; decide⟩, by decide, by decide, by unfold slotAtPc; decide⟩

theorem test_meets_decode : (iaddOf id).WellFormed ∧ decodeSlot (wordOf 0x205 dNone 0 0) = .ok (.retire (cf dst0 0)) ∧
    ¬ assigned (opcOf 0) := ⟨test_wf_plain, by decide, by unfold assigned; decide⟩

/-! ### The step -/

/-- The reset machine about to issue a word from slot 0, and the same from a line that is held as it stands. -/
def probe (w : Nat) : State := State.reset.withFetchWord 96 w
def probeLine (w : Nat) : ILine := ⟨0, 0, 0, makeLine (BitVec.ofNat 96 w) nopSlot nopSlot nopSlot nopSlot 0 0x1F, false⟩
def probeOf (l : ILine) : State := (probe 0).modCore 0 fun c => { c with icache := [l] }

def aboutB (s : State) (line : ILine) : Bool :=
  let u := { s with agenda := [] }
  (s.agenda == [.issue 0 0]) && u.dieRuns 0 && (u.pickBundle 0 0 == some probeBundle) && (u.group? 0 == some probeGroup) &&
  ((u.core 0).iline 0 0 0 == some line)

theorem about_of {s : State} {line : ILine} (h : aboutB s line = true) :
    AboutToIssue s { s with agenda := [] } 0 0 probeBundle probeGroup line 0 := by
  simp only [aboutB, Bool.and_eq_true, beq_iff_eq] at h
  obtain ⟨⟨⟨⟨ha, hr⟩, hp⟩, hg⟩, hl⟩ := h
  exact ⟨⟨[], ha, rfl⟩, hr, ⟨by decide, by decide, rfl⟩, hp, hg, by decide, ⟨by decide, by decide⟩, hl⟩

def retireWord : Nat := (wordOf 0x205 dNone 0 0).toNat
theorem test_meets_step : AboutToIssue (probe retireWord) { probe retireWord with agenda := [] } 0 0 probeBundle probeGroup (probeLine retireWord) 0 ∧
    lineIllegal (probeLine retireWord).data = false ∧ decodeSlot (lineSlot (probeLine retireWord).data 0) = .ok (.retire (cf dst0 0)) ∧
    Instr.namesQ8 (.retire (cf dst0 0)) = false := ⟨about_of (by decide +kernel), by decide +kernel, by decide +kernel, by decide +kernel⟩
theorem test_meets_unassigned : AboutToIssue (probe 0) { probe 0 with agenda := [] } 0 0 probeBundle probeGroup (probeLine 0) 0 ∧
    lineIllegal (probeLine 0).data = false ∧ ¬ assigned (opcOf (lineSlot (probeLine 0).data 0)) :=
  ⟨about_of (by decide +kernel), by decide +kernel, by unfold assigned; decide +kernel⟩
theorem test_meets_bad_lines : AboutToIssue (probeOf ⟨0, 0, 0, labLine, true⟩) { probeOf ⟨0, 0, 0, labLine, true⟩ with agenda := [] } 0 0
      probeBundle probeGroup ⟨0, 0, 0, labLine, true⟩ 0 ∧
    AboutToIssue (probeOf ⟨0, 0, 0, BitVec.twoPow 512 511, false⟩) { probeOf ⟨0, 0, 0, BitVec.twoPow 512 511, false⟩ with agenda := [] } 0 0
      probeBundle probeGroup ⟨0, 0, 0, BitVec.twoPow 512 511, false⟩ 0 ∧ lineIllegal (BitVec.twoPow 512 511) = true :=
  ⟨about_of (by decide +kernel), about_of (by decide +kernel), by decide +kernel⟩

/-- Words that raise each decode trap, and one that names q8 outside the steward's VF: MOV q8 (R339). -/
def illWord : Nat := (wordOf 0x001 dNone (sV 2 ++ sV 3 ++ s0 ++ s0) 2).toNat
def modWord : Nat := (wordOf 0x001 (dV 6) (sV 2 ++ sV 3 ++ s0 ++ s0) 0x12).toNat
def overWord : Nat := (wordOf 0x005 (dV 2) (sV 3 ++ sV 6 ++ sV 4 ++ s0) 2).toNat
def q8Word : Nat := (wordOf 0x018 (0b0010#4 ++ 8#8) (sV 4 ++ s0 ++ s0 ++ s0) 2).toNat
theorem test_meets_decode_traps : (∀ w ∈ [illWord, modWord, overWord, q8Word], aboutB (probe w) (probeLine w) = true ∧
      lineIllegal (probeLine w).data = false) ∧
    decodeSlot (lineSlot (probeLine illWord).data 0) = .error (.decodeTrap .illegalInstruction) ∧
    decodeSlot (lineSlot (probeLine modWord).data 0) = .error (.decodeTrap .illegalModifier) ∧
    decodeSlot (lineSlot (probeLine overWord).data 0) = .error (.decodeTrap .operandOverlap) ∧
    Instr.namesQ8 (decodeFields (lineSlot (probeLine q8Word).data 0)) = true := by decide +kernel
theorem test_meets_q8 : (State.reset.ctx 0).steward = false := by decide +kernel
theorem test_meets_event_step : isEvent .coldReset = true ∧ ({ State.reset with agenda := [.event .coldReset] } : State).agenda = .event .coldReset :: [] ∧
    State.reset.agenda = [] := by decide

/-- A register past a window of eight, and a latch whose data is lost. -/
def narrowG : Group := { labG with wsize := 8 }
def latchI : Instr := iaddOf fun x => { x with sa := ⟨.latch, 1, false⟩ }
theorem test_meets_past_window : (lab narrowG).group? 0 = some narrowG ∧
    (∃ r ∈ (shapeOf (iaddOf fun x => { x with dst := vdst 8 })).reads ++ (shapeOf (iaddOf fun x => { x with dst := vdst 8 })).writes,
      narrowG.wsize < r.1 + r.2) := by decide +kernel
theorem test_meets_lost_latch : latchI.isRod = false ∧ latchI.isQuad = false ∧ latchI.decodeTrap = none ∧ pastWindow (shapeOf latchI) labG.wsize = false ∧
    (lab labG).popAll labCur (shapeOf latchI).ctl (waitQueuesOf (shapeOf latchI)) labCur.en = (lab labG, .ok []) ∧
    0 ∈ labG.executing labCur ∧ ((tfind labG.fibres 0).any fun b => b.guard (shapeOf latchI).ctl &&
      match laneOperands (lab labG) labCur labG (shapeOf latchI) 0 b with | .error _ => true | .ok _ => false) = true := by decide +kernel

end Sys2Proof.Tests
end

/-! ## Encoding and decoding of one slot (R53 to R63, R70) -/

namespace Sys2Proof

/-! ### Appended and extracted fields

The widths of a slot's fields stand as literals where Lean's own lemmas have a sum; `no_index` lets `simp` see past that. -/

section
variable {v w s l : Nat} (hi : BitVec v) (lo : BitVec w)

theorem extractLsb'_high (h : w ≤ s) :
    BitVec.extractLsb' (n := no_index (v + w)) s l (@HAppend.hAppend (BitVec v) (BitVec w) (no_index (BitVec (v + w))) _ hi lo) =
      hi.extractLsb' (s - w) l := BitVec.extractLsb'_append_eq_of_le h

theorem extractLsb'_low (h : s + l ≤ w) :
    BitVec.extractLsb' (n := no_index (v + w)) s l (@HAppend.hAppend (BitVec v) (BitVec w) (no_index (BitVec (v + w))) _ hi lo) =
      lo.extractLsb' s l := BitVec.extractLsb'_append_eq_of_add_le h

theorem getLsbD_high (h : w ≤ s) :
    BitVec.getLsbD (w := no_index (v + w)) (@HAppend.hAppend (BitVec v) (BitVec w) (no_index (BitVec (v + w))) _ hi lo) s =
      hi.getLsbD (s - w) := by rw [BitVec.getLsbD_append, if_neg (by omega)]

theorem getLsbD_low (h : s < w) :
    BitVec.getLsbD (w := no_index (v + w)) (@HAppend.hAppend (BitVec v) (BitVec w) (no_index (BitVec (v + w))) _ hi lo) s =
      lo.getLsbD s := by rw [BitVec.getLsbD_append, if_pos h]

theorem getLsbD_ofBool_zero (b : Bool) : (BitVec.ofBool b).getLsbD 0 = b := by cases b <;> rfl

theorem ofBool_getLsbD (x : BitVec w) (i : Nat) : BitVec.ofBool (x.getLsbD i) = x.extractLsb' i 1 := by
  ext j hj
  obtain rfl : j = 0 := by omega
  simp

/-- Two fields side by side are one field. -/
theorem append_fields (x : BitVec w) {m n i : Nat} (h : i = s + n) :
    (@HAppend.hAppend (BitVec m) (BitVec n) (no_index (BitVec (m + n))) _ (x.extractLsb' i m) (x.extractLsb' s n)) =
      x.extractLsb' s (m + n) :=
  BitVec.extractLsb'_append_extractLsb'_eq_extractLsb' h
end

/-! ### Fields read back as they are written -/

theorem getPred_putPred (p : PredRef) : getPred (putPred p) = p := by
  simp (disch := decide) only [getPred, putPred, extractLsb'_low, getLsbD_high, Nat.reduceSub,
    BitVec.extractLsb'_eq_self, getLsbD_ofBool_zero]

theorem getCombine_putCombine (c : Combine) : getCombine (putCombine c) = c := by cases c <;> rfl
theorem getDstKind_putDstKind (k : DstKind) : getDstKind (putDstKind k) = k := by cases k <;> rfl
theorem getSrcKind_putSrcKind (k : SrcKind) : getSrcKind (putSrcKind k) = k := by cases k <;> rfl

theorem getDst_putDst (d : Dst) : getDst (putDst d) = d := by
  simp (disch := decide) only [getDst, putDst, extractLsb'_high, extractLsb'_low, getLsbD_high, getLsbD_low, Nat.reduceSub,
    BitVec.extractLsb'_eq_self, getLsbD_ofBool_zero, getDstKind_putDstKind]

theorem getSrc_putSrc (x : Src) : getSrc (putSrc x) = x := by
  simp (disch := decide) only [getSrc, putSrc, extractLsb'_high, extractLsb'_low, getLsbD_low, Nat.reduceSub,
    BitVec.extractLsb'_eq_self, getLsbD_ofBool_zero, getSrcKind_putSrcKind]

section
variable (opc : BitVec 10) (c : Ctl) (d : Dst) (body : BitVec 44) (md : BitVec 8)

theorem opcOf_putSlot : opcOf (putSlot opc c d body md) = opc.toNat := by
  simp (disch := decide) only [opcOf, putSlot, extractLsb'_high, Nat.reduceSub, BitVec.extractLsb'_eq_self]

theorem getCtl_putSlot : getCtl (putSlot opc c d body md) = c := by
  simp (disch := decide) only [getCtl, putSlot, putGuard, putSched, extractLsb'_high, extractLsb'_low, getLsbD_high,
    getLsbD_low, Nat.reduceSub, Nat.reduceAdd, BitVec.extractLsb'_eq_self, getPred_putPred, getCombine_putCombine,
    getLsbD_ofBool_zero]

theorem getDst_putSlot : getDst ((putSlot opc c d body md).extractLsb' 62 12) = d := by
  simp (disch := decide) only [putSlot, extractLsb'_high, extractLsb'_low, Nat.reduceSub, BitVec.extractLsb'_eq_self,
    getDst_putDst]

theorem md_putSlot : (putSlot opc c d body md).extractLsb' 10 8 = md := by
  simp (disch := decide) only [putSlot, extractLsb'_high, extractLsb'_low, Nat.reduceSub, BitVec.extractLsb'_eq_self]

/-- A field within bits [61:18] is the body's. -/
theorem body_putSlot {s l : Nat} (h1 : 18 ≤ s) (h2 : s + l ≤ 62) :
    (putSlot opc c d body md).extractLsb' s l = body.extractLsb' (s - 18) l := by
  rw [putSlot, extractLsb'_high _ _ (by omega), extractLsb'_high _ _ (by omega), extractLsb'_low _ _ (by omega)]
  congr 1

theorem bodyBit_putSlot {s : Nat} (h1 : 18 ≤ s) (h2 : s < 62) :
    (putSlot opc c d body md).getLsbD s = body.getLsbD (s - 18) := by
  rw [putSlot, getLsbD_high _ _ (by omega), getLsbD_high _ _ (by omega), getLsbD_low _ _ (by omega)]
  congr 1
end

theorem getC_putC (opc : BitVec 10) (f : CFmt) : getC (putC opc f) = f := by
  simp (disch := decide) only [getC, putC, getCtl_putSlot, getDst_putSlot, md_putSlot, body_putSlot, extractLsb'_high,
    extractLsb'_low, Nat.reduceSub, BitVec.extractLsb'_eq_self, getSrc_putSrc]
theorem getI_putI (opc : BitVec 10) (f : IFmt) : getI (putI opc f) = f := by
  simp (disch := decide) only [getI, putI, getCtl_putSlot, getDst_putSlot, md_putSlot, body_putSlot, bodyBit_putSlot,
    extractLsb'_high, extractLsb'_low, getLsbD_low, Nat.reduceSub, BitVec.extractLsb'_eq_self, getSrc_putSrc, getLsbD_ofBool_zero]
theorem getB_putB (opc : BitVec 10) (f : BFmt) : getB (putB opc f) = f := by
  simp (disch := decide) only [getB, putB, getCtl_putSlot, getDst_putSlot, md_putSlot, body_putSlot, bodyBit_putSlot,
    extractLsb'_high, extractLsb'_low, getLsbD_high, getLsbD_low, Nat.reduceSub, BitVec.extractLsb'_eq_self,
    getSrcKind_putSrcKind, getLsbD_ofBool_zero]
theorem getM_putM (opc : BitVec 10) (f : MFmt) : getM (putM opc f) = f := by
  simp (disch := decide) only [getM, putM, getCtl_putSlot, getDst_putSlot, md_putSlot, body_putSlot, extractLsb'_high,
    extractLsb'_low, Nat.reduceSub, BitVec.extractLsb'_eq_self, getSrc_putSrc]

/-! ### Fields written back as they are read -/

theorem putPred_getPred (x : BitVec 5) : putPred (getPred x) = x := by
  simp (disch := decide) only [putPred, getPred, ofBool_getLsbD, append_fields]
  exact BitVec.extractLsb'_eq_self
theorem putCombine_getCombine : ∀ x : BitVec 2, putCombine (getCombine x) = x := by decide
theorem putDstKind_getDstKind : ∀ x : BitVec 2, putDstKind (getDstKind x) = x := by decide
theorem putSrcKind_getSrcKind : ∀ x : BitVec 2, putSrcKind (getSrcKind x) = x := by decide
theorem putDst_getDst (x : BitVec 12) : putDst (getDst x) = x := by
  simp (disch := decide) only [putDst, getDst, ofBool_getLsbD, putDstKind_getDstKind, append_fields]
  exact BitVec.extractLsb'_eq_self
theorem putSrc_getSrc (x : BitVec 11) : putSrc (getSrc x) = x := by
  simp (disch := decide) only [putSrc, getSrc, ofBool_getLsbD, putSrcKind_getSrcKind, append_fields]
  exact BitVec.extractLsb'_eq_self

/-- A slot is its opcode and the fields read from it. -/
theorem putSlot_fields (w : Slot) :
    putSlot (w.extractLsb' 86 10) (getCtl w) (getDst (w.extractLsb' 62 12)) (w.extractLsb' 18 44) (w.extractLsb' 10 8) = w := by
  simp (disch := decide) only [putSlot, putGuard, putSched, getCtl, putPred_getPred, putCombine_getCombine, putDst_getDst,
    ofBool_getLsbD, append_fields]
  exact BitVec.extractLsb'_eq_self

theorem putC_getC (w : Slot) : putC (w.extractLsb' 86 10) (getC w) = w := by
  simp (disch := decide) only [putC, getC, putSrc_getSrc, append_fields]
  exact putSlot_fields w
theorem putI_getI (w : Slot) : putI (w.extractLsb' 86 10) (getI w) = w := by
  simp (disch := decide) only [putI, getI, putSrc_getSrc, ofBool_getLsbD, append_fields]
  exact putSlot_fields w
theorem putB_getB (w : Slot) : putB (w.extractLsb' 86 10) (getB w) = w := by
  simp (disch := decide) only [putB, getB, putSrcKind_getSrcKind, ofBool_getLsbD, append_fields]
  exact putSlot_fields w
theorem putM_getM (w : Slot) : putM (w.extractLsb' 86 10) (getM w) = w := by
  simp (disch := decide) only [putM, getM, putSrc_getSrc, append_fields]
  exact putSlot_fields w

/-! ### The opcode map -/

/-- A row of Table 3.9: code c reads its slots in one of the four formats, and the instruction that its constructor makes
encodes to c in that format. -/
inductive IsRow (c : BitVec 10) : (Slot → Instr) → Prop
  | common (k : CFmt → Instr) (enc : ∀ f, encode (k f) = some (putC c f)) (shape : ∀ f, (k f).shape.isSome = true) :
      IsRow c (k ∘ getC)
  | imm (k : IFmt → Instr) (enc : ∀ f, encode (k f) = some (putI c f)) (shape : ∀ f, (k f).shape.isSome = true) :
      IsRow c (k ∘ getI)
  | branch (k : BFmt → Instr) (enc : ∀ f, encode (k f) = some (putB c f)) (shape : ∀ f, (k f).shape.isSome = true) :
      IsRow c (k ∘ getB)
  | memory (k : MFmt → Instr) (enc : ∀ f, encode (k f) = some (putM c f)) (shape : ∀ f, (k f).shape.isSome = true) :
      IsRow c (k ∘ getM)

theorem isRow_of_mem : ∀ p ∈ opcTable, IsRow (BitVec.ofNat 10 p.1) p.2 := by
  simp only [opcTable, opcTable0, opcTable1, opcTable3, opcTable5, List.cons_append, List.nil_append, List.forall_mem_cons,
    List.not_mem_nil, false_implies, implies_true, and_true]
  repeat' apply And.intro
  all_goals constructor <;> intro f <;> rfl

/-- What a row reads from a slot of its code is an instruction that encodes to that slot. -/
theorem IsRow.encode_read {w : Slot} {read : Slot → Instr} (h : IsRow (w.extractLsb' 86 10) read) :
    (read w).shape.isSome = true ∧ encode (read w) = some w := by
  cases h with
  | common k enc shape => exact ⟨shape _, (enc _).trans (congrArg some (putC_getC w))⟩
  | imm k enc shape => exact ⟨shape _, (enc _).trans (congrArg some (putI_getI w))⟩
  | branch k enc shape => exact ⟨shape _, (enc _).trans (congrArg some (putB_getB w))⟩
  | memory k enc shape => exact ⟨shape _, (enc _).trans (congrArg some (putM_getM w))⟩

theorem mem_of_lookupOpc {t : List (Nat × (Slot → Instr))} {n : Nat} {read : Slot → Instr} (h : lookupOpc t n = some read) :
    (n, read) ∈ t := by
  induction t with
  | nil => cases h
  | cons p t ih =>
    simp only [lookupOpc] at h
    split at h
    · next hn => cases h; cases hn; exact List.mem_cons_self
    · exact List.mem_cons_of_mem _ (ih h)

theorem assigned_of_code : ∀ n ∈ opcTable.map Prod.fst, Claims.assigned n := by
  simp only [opcTable, List.map_append, List.forall_mem_append, Claims.assigned]
  exact ⟨⟨⟨by decide, by decide⟩, by decide⟩, by decide⟩

theorem lookupOpc_of_assigned {n : Nat} (h : Claims.assigned n) : (lookupOpc opcTable n).isSome = true := by
  rcases h with h | h | h | h | h | h | h | h | h | h | h | h | h | h | h <;>
  · obtain ⟨h1, h2⟩ := h
    interval_cases n <;> rfl

/-- The two things that the fields of a slot can be (R70). -/
theorem decodeFields_cases (w : Slot) :
    (Claims.assigned (opcOf w) ∧ (decodeFields w).shape.isSome = true ∧ encode (decodeFields w) = some w) ∨
      (¬ Claims.assigned (opcOf w) ∧ decodeFields w = .unassignedOpcode w) := by
  unfold decodeFields
  split
  · next read h =>
    have hm := mem_of_lookupOpc h
    have hr := isRow_of_mem _ hm
    rw [opcOf, BitVec.ofNat_toNat, BitVec.setWidth_eq] at hr
    exact .inl ⟨assigned_of_code _ (List.mem_map_of_mem hm), hr.encode_read⟩
  · next h =>
    refine .inr ⟨fun ha => ?_, rfl⟩
    have := lookupOpc_of_assigned ha
    rw [h] at this
    exact Bool.noConfusion this

section
variable {opc : BitVec 10}

theorem decodeFields_of_lookup {w : Slot} {read : Slot → Instr} (ho : opcOf w = opc.toNat)
    (row : lookupOpc opcTable opc.toNat = some read) : decodeFields w = read w := by
  rw [decodeFields, ho, row]

theorem decodeFields_putC {k : CFmt → Instr} (row : lookupOpc opcTable opc.toNat = some (k ∘ getC)) (f : CFmt) :
    decodeFields (putC opc f) = k f :=
  (decodeFields_of_lookup (opcOf_putSlot ..) row).trans (congrArg k (getC_putC opc f))
theorem decodeFields_putI {k : IFmt → Instr} (row : lookupOpc opcTable opc.toNat = some (k ∘ getI)) (f : IFmt) :
    decodeFields (putI opc f) = k f :=
  (decodeFields_of_lookup (opcOf_putSlot ..) row).trans (congrArg k (getI_putI opc f))
theorem decodeFields_putB {k : BFmt → Instr} (row : lookupOpc opcTable opc.toNat = some (k ∘ getB)) (f : BFmt) :
    decodeFields (putB opc f) = k f :=
  (decodeFields_of_lookup (opcOf_putSlot ..) row).trans (congrArg k (getB_putB opc f))
theorem decodeFields_putM {k : MFmt → Instr} (row : lookupOpc opcTable opc.toNat = some (k ∘ getM)) (f : MFmt) :
    decodeFields (putM opc f) = k f :=
  (decodeFields_of_lookup (opcOf_putSlot ..) row).trans (congrArg k (getM_putM opc f))
end

/-- Every instruction of the opcode map is read back from the slot that encodes it, whatever its fields hold. -/
theorem decodeFields_encode {i : Instr} (h : i.shape.isSome = true) : ∃ w, encode i = some w ∧ decodeFields w = i := by
  cases i with
  | iaddImm f | imulImm f | andImm f | orImm f | xorImm f | isetImm f | movi f | leaImm f =>
    exact ⟨_, rfl, decodeFields_putI rfl f⟩
  | bra f | call f | fork f => exact ⟨_, rfl, decodeFields_putB rfl f⟩
  | ld f | st f | ldc f | ldp f | stp f | pref f | atom f | cas f | atomp f | cadd f | craise f | cread f | cwait f =>
    exact ⟨_, rfl, decodeFields_putM rfl f⟩
  | iadd f | isub f | imul f | imad f | imadw f | imin f | imax f | iabs f | and f | or f | xor f | andn f | shl f | shr f
  | sar f | fshl f | bfx f | bfi f | popc f | clz f | brev f | iset f | sel f | mov f | lea f | plop f | p2v f | v2p f
  | mfs f | brx f | ret f | retire f | yieldI f | nap f | nop f | time f | fadd f | fsub f | fmul f | ffma f | fmin f
  | fmax f | fminn f | fmaxn f | fset f | fclass f | frnd f | fscale f | fdot2 f | frcp f | frsq f | fsqrt f | fexp2 f
  | flog2 f | ftanh f | fsinpi f | fcospi f | cvt f | cvtmx f | cvtx f | qswp f | qbc f | shfl f | vote f | red f | scan f
  | matchI f | elect f | tile f | wbr f | invr f | fence f | rfence f | ipref f | ipin f | iunpin f | mcas f | tdef f
  | marm f | msign f | mbind f | mbinds f | mpair f | munpair f | macrd f | macwr f | macclr f | mtest f | mcap f | qwr f
  | qwrc f | mts f | trap f | bpt f | tret f | haltg f | qstat f => exact ⟨_, rfl, decodeFields_putC rfl f⟩
  | _ => exact Bool.noConfusion h

/-! ### Decoding -/

theorem slotTrap_of_unassigned {w : Slot} (h : decodeFields w = .unassignedOpcode w) : slotTrap w = some .illegalInstruction := by
  rw [slotTrap, h]

theorem slotTrap_of_shape {w : Slot} (h : (decodeFields w).shape.isSome = true) : slotTrap w = (decodeFields w).decodeTrap := by
  unfold slotTrap
  split
  · next v hv => rw [hv] at h; exact Bool.noConfusion h
  · rfl

/-- A slot whose fields are an instruction without a trap is that instruction. -/
theorem decodeSlot_of_wellFormed {w : Slot} {i : Instr} (h : decodeFields w = i) (hw : i.WellFormed) : decodeSlot w = .ok i := by
  subst h
  rw [decodeSlot, slotTrap_of_shape hw.1, hw.2]

theorem decodeSlot_unassigned {w : Slot} (h : ¬ Claims.assigned (opcOf w)) :
    decodeSlot w = .error (.decodeTrap .illegalInstruction) := by
  rcases decodeFields_cases w with ⟨ha, -⟩ | ⟨-, hu⟩
  · exact absurd ha h
  · rw [decodeSlot, slotTrap_of_unassigned hu]

theorem wellFormed_of_decodeSlot {w : Slot} {i : Instr} (h : decodeSlot w = .ok i) :
    i.WellFormed ∧ encode i = some w ∧ i = decodeFields w := by
  unfold decodeSlot at h
  split at h
  · cases h
  · next ht =>
    cases h
    rcases decodeFields_cases w with ⟨-, hs, he⟩ | ⟨-, hu⟩
    · exact ⟨⟨hs, (slotTrap_of_shape hs).symm.trans ht⟩, he, rfl⟩
    · rw [slotTrap_of_unassigned hu] at ht; cases ht

/-! ### Bytes -/

theorem length_leBytes (n x : Nat) : (leBytes n x).length = n := by
  induction n generalizing x with
  | zero => rfl
  | succ n ih => rw [leBytes, List.length_cons, ih]

theorem leNat_leBytes (n x : Nat) : leNat (leBytes n x) = x % 2 ^ (8 * n) := by
  induction n generalizing x with
  | zero => simp [leBytes, leNat, Nat.mod_one]
  | succ n ih =>
    rw [leBytes, leNat, ih, BitVec.toNat_ofNat, Nat.mul_succ, Nat.add_comm (8 * n), Nat.pow_add, Nat.mod_mul]

/-- Twelve bytes of a slot and what follows decode to the slot's instruction and the rest. -/
theorem decodeBytes_leBytes {w : Slot} {i : Instr} (h : decodeSlot w = .ok i) (rest : List Byte) :
    decodeBytes (leBytes 12 w.toNat ++ rest) = .ok (i, rest) := by
  have hl := length_leBytes 12 w.toNat
  have ht : (leBytes 12 w.toNat ++ rest).take 12 = leBytes 12 w.toNat := List.take_left' hl
  have hw : BitVec.ofNat 96 (leNat (leBytes 12 w.toNat)) = w := by
    rw [leNat_leBytes, Nat.mod_eq_of_lt w.isLt, BitVec.ofNat_toNat, BitVec.setWidth_eq]
  rw [decodeBytes, if_neg (by rw [List.length_append]; omega), ht, hw, h, List.drop_left' hl]

/-- Settles O55: each format's fields are read back as written and written back as read, and each row of the opcode map encodes to
its own code. -/
theorem decodeEncode : Obligations.DecodeEncode := by
  refine ⟨fun i hi => ?_, fun w i h => ?_, fun w h => decodeSlot_unassigned h⟩
  · obtain ⟨w, he, hd⟩ := decodeFields_encode hi.1
    have hs := decodeSlot_of_wellFormed hd hi
    exact ⟨w, he, hs, decodeBytes_leBytes hs⟩
  · obtain ⟨hw, he, -⟩ := wellFormed_of_decodeSlot h
    exact ⟨hw, he⟩

end Sys2Proof


/-! ## Fetch lines (R47 to R51) -/

namespace Sys2Proof

/-! ### Counting ones -/

theorem onesBelow_eq_sum (n x : Nat) : onesBelow n x = ∑ i ∈ Finset.range n, (x.testBit i).toNat := by
  induction n generalizing x with
  | zero => rfl
  | succ n ih =>
    rw [onesBelow, ih, Finset.sum_range_succ', Nat.add_comm, Nat.testBit_zero]
    congr 1
    · exact Finset.sum_congr rfl fun i _ => by rw [Nat.testBit_succ]
    · rcases Nat.mod_two_eq_zero_or_one x with h | h <;> simp [h]

theorem onesBelow_succ (n x : Nat) : onesBelow (n + 1) x = onesBelow n x + (x.testBit n).toNat := by
  simp only [onesBelow_eq_sum, Finset.sum_range_succ]

theorem onesBelow_congr {n x y : Nat} (h : ∀ i, i < n → x.testBit i = y.testBit i) : onesBelow n x = onesBelow n y := by
  simp only [onesBelow_eq_sum]
  exact Finset.sum_congr rfl fun i hi => by rw [h i (Finset.mem_range.mp hi)]

/-- A bit that flips changes the parity of the bits among which it stands. -/
theorem onesBelow_flip (n x j : Nat) : onesBelow n (x ^^^ 2 ^ j) % 2 = (onesBelow n x + if j < n then 1 else 0) % 2 := by
  induction n with
  | zero => simp [onesBelow]
  | succ n ih =>
    have hb : (x ^^^ 2 ^ j).testBit n = (x.testBit n ^^ decide (j = n)) := by
      rw [Nat.testBit_xor, Nat.testBit_two_pow]
    rw [onesBelow_succ, onesBelow_succ, hb, Nat.add_mod, ih]
    rcases Nat.lt_trichotomy j n with h | h | h
    · simp only [show j < n from h, show j < n + 1 by omega, show ¬ j = n by omega, if_true, decide_false, Bool.xor_false]
      omega
    · simp only [h, Nat.lt_irrefl, Nat.lt_succ_self, if_true, if_false, decide_true, Bool.xor_true]
      cases x.testBit n <;> simp only [Bool.not_true, Bool.not_false, Bool.toNat_true, Bool.toNat_false] <;> omega
    · simp only [show ¬ j < n by omega, show ¬ j < n + 1 by omega, show ¬ j = n by omega, if_false, decide_false,
        Bool.xor_false]
      omega

/-- A one-bit count is the parity of what it counts. -/
theorem toNat_getLsbD_zero_ofNat (n : Nat) : ((BitVec.ofNat 1 n).getLsbD 0).toNat = n % 2 := by
  rcases Nat.mod_two_eq_zero_or_one n with h | h <;> simp only [BitVec.getLsbD_ofNat, Nat.testBit_zero, h] <;> rfl

/-! ### Reading a line -/

section
variable (l : BitVec 512)

theorem lineWord_bit {i : Nat} (h : i < 32) : (lineWord l).getLsbD i = l.getLsbD (480 + i) := by
  simp [lineWord, h]

theorem bitOf_lineWord {i : Nat} (h : i < 32) : bitOf (lineWord l).toNat i = l.getLsbD (480 + i) := lineWord_bit l h

theorem lineSlot_byte {i j : Nat} (h : j < 12) :
    l.extractLsb' (8 * (12 * i + j)) 8 = (lineSlot l i).extractLsb' (8 * j) 8 := by
  ext k hk
  simp only [lineSlot, BitVec.getElem_extractLsb', BitVec.getLsbD_extractLsb', show 8 * j + k < 96 by omega, decide_true,
    Bool.true_and]
  congr 1
  omega

theorem lineParityOk_iff : lineParityOk l = true ↔ onesBelow 15 (lineWord l).toNat % 2 = 0 ∧
    ∀ i, i < 5 → (onesBelow 96 (lineSlot l i).toNat + (bitOf (lineWord l).toNat (9 + i)).toNat) % 2 = 0 := by
  simp only [lineParityOk, Bool.and_eq_true, beq_iff_eq, List.all_eq_true, List.mem_range]

/-- R51: a line is illegal exactly where one of the bits [31:15] of its line word is set. -/
theorem lineIllegal_iff : lineIllegal l = true ↔ ∃ j, 495 ≤ j ∧ j < 512 ∧ l.getLsbD j = true := by
  have hbit (i : Nat) : ((lineWord l).toNat >>> 15 % 2 ^ 17).testBit i = (decide (i < 17) && (lineWord l).getLsbD (15 + i)) := by
    rw [Nat.testBit_mod_two_pow, Nat.testBit_shiftRight, BitVec.getLsbD]
  rw [lineIllegal, bitsOf, bne_iff_ne]
  constructor
  · intro h
    obtain ⟨i, hi⟩ := Nat.exists_testBit_of_ne_zero h
    rw [hbit, Bool.and_eq_true, decide_eq_true_eq, lineWord_bit l (by omega)] at hi
    exact ⟨480 + (15 + i), by omega, by omega, hi.2⟩
  · rintro ⟨j, h1, h2, h3⟩ h0
    have hj := hbit (j - 495)
    rw [h0, Nat.zero_testBit, lineWord_bit l (by omega), show 480 + (15 + (j - 495)) = j by omega, h3,
      decide_eq_true (by omega)] at hj
    exact Bool.noConfusion hj

end

/-! ### Lines made of slots -/

section
variable (w : Nat → Slot) (pair : BitVec 4) (mask : BitVec 5)

/-- The line of five slots, PAIR and MASK. -/
def lineFrom : BitVec 512 := makeLine (w 0) (w 1) (w 2) (w 3) (w 4) pair mask

theorem lineSlot_lineFrom {i : Nat} (h : i ≤ 4) : lineSlot (lineFrom w pair mask) i = w i := by
  interval_cases i <;> simp (disch := decide) only [lineSlot, lineFrom, makeLine, extractLsb'_high, extractLsb'_low,
    Nat.reduceMul, Nat.reduceSub, BitVec.extractLsb'_eq_self]

theorem lineMask_lineFrom {i : Nat} (h : i ≤ 4) : lineMask (lineFrom w pair mask) i = mask.getLsbD i := by
  rw [lineMask, lineWord_bit _ (by omega), lineFrom, makeLine]
  interval_cases i <;> simp (disch := decide) only [getLsbD_high, getLsbD_low, Nat.reduceAdd, Nat.reduceSub]

theorem linePair_lineFrom {i : Nat} (h : i ≤ 4) : linePair (lineFrom w pair mask) i = pair.getLsbD i := by
  rcases Nat.lt_or_eq_of_le h with h | rfl
  · rw [linePair, lineWord_bit _ (by omega), decide_eq_true h, Bool.true_and, lineFrom, makeLine]
    interval_cases i <;> simp (disch := decide) only [getLsbD_high, getLsbD_low, Nat.reduceAdd, Nat.reduceSub]
  · rw [linePair, BitVec.getLsbD_of_ge _ _ (Nat.le_refl 4)]
    rfl

/-- SPAR bit i is the parity of slot i (R48). -/
theorem parityBit_lineFrom {i : Nat} (h : i ≤ 4) :
    (bitOf (lineWord (lineFrom w pair mask)).toNat (9 + i)).toNat = onesBelow 96 (w i).toNat % 2 := by
  rw [bitOf_lineWord _ (by omega), ← toNat_getLsbD_zero_ofNat, lineFrom, makeLine]
  interval_cases i <;> simp (disch := decide) only [getLsbD_high, getLsbD_low, Nat.reduceAdd, Nat.reduceSub]

/-- Bits [13:0] of the line word: the slots' parities, PAIR and MASK (Table 3.2). -/
def lowBits : BitVec 14 :=
  let par (i : Nat) : BitVec 1 := BitVec.ofNat 1 (onesBelow 96 (w i).toNat)
  par 4 ++ par 3 ++ par 2 ++ par 1 ++ par 0 ++ pair ++ mask

theorem lineFrom_eq : lineFrom w pair mask =
    (0 : BitVec 17) ++ BitVec.ofNat 1 (onesBelow 14 (lowBits w pair mask).toNat) ++ lowBits w pair mask ++
      w 4 ++ w 3 ++ w 2 ++ w 1 ++ w 0 :=
  rfl

theorem lineWord_low {i : Nat} (h : i < 14) :
    (lineWord (lineFrom w pair mask)).getLsbD i = (lowBits w pair mask).getLsbD i := by
  rw [lineWord_bit _ (by omega), lineFrom_eq]
  interval_cases i <;> simp (disch := decide) only [getLsbD_high, getLsbD_low, Nat.reduceAdd, Nat.reduceSub]

theorem lineWord_lpar :
    (lineWord (lineFrom w pair mask)).getLsbD 14 = (BitVec.ofNat 1 (onesBelow 14 (lowBits w pair mask).toNat)).getLsbD 0 := by
  rw [lineWord_bit _ (by omega), lineFrom_eq]
  simp (disch := decide) only [getLsbD_high, getLsbD_low, Nat.reduceAdd, Nat.reduceSub]

theorem lineFrom_top {j : Nat} (h1 : 495 ≤ j) (h2 : j < 512) : (lineFrom w pair mask).getLsbD j = false := by
  rw [lineFrom_eq]
  interval_cases j <;> simp (disch := decide) only [getLsbD_high, Nat.reduceSub, BitVec.ofNat_eq_ofNat, BitVec.getLsbD_zero]

/-- LPAR makes the line word even (R48). -/
theorem lineWord_even : onesBelow 15 (lineWord (lineFrom w pair mask)).toNat % 2 = 0 := by
  have hlow : onesBelow 14 (lineWord (lineFrom w pair mask)).toNat = onesBelow 14 (lowBits w pair mask).toNat :=
    onesBelow_congr fun i hi => lineWord_low w pair mask hi
  have hpar : ((lineWord (lineFrom w pair mask)).toNat.testBit 14).toNat = onesBelow 14 (lowBits w pair mask).toNat % 2 :=
    (congrArg Bool.toNat (lineWord_lpar w pair mask)).trans (toNat_getLsbD_zero_ofNat _)
  rw [onesBelow_succ, hlow, hpar]
  omega

theorem slotParity_even {i : Nat} (h : i ≤ 4) :
    (onesBelow 96 (w i).toNat + (bitOf (lineWord (lineFrom w pair mask)).toNat (9 + i)).toNat) % 2 = 0 := by
  rw [parityBit_lineFrom w pair mask h]
  omega

theorem lineParityOk_lineFrom : lineParityOk (lineFrom w pair mask) = true :=
  (lineParityOk_iff _).mpr ⟨lineWord_even w pair mask, fun i hi => by
    rw [lineSlot_lineFrom w pair mask (by omega)]
    exact slotParity_even w pair mask (by omega)⟩

theorem lineIllegal_lineFrom : lineIllegal (lineFrom w pair mask) = false := by
  rw [← Bool.not_eq_true, lineIllegal_iff]
  rintro ⟨j, h1, h2, h3⟩
  rw [lineFrom_top w pair mask h1 h2] at h3
  exact Bool.noConfusion h3
end

/-! ### A bit that flips -/

theorem extractLsb'_twoPow_of_le {n s k j : Nat} (hj : j < n) (h : s ≤ j) :
    (BitVec.twoPow n j).extractLsb' s k = BitVec.twoPow k (j - s) := by
  ext i hi
  simp only [BitVec.getElem_extractLsb', BitVec.getLsbD_twoPow, BitVec.getElem_twoPow, hj, decide_true, Bool.true_and]
  exact decide_eq_decide.mpr (by omega)

theorem extractLsb'_twoPow_of_notMem {n s k j : Nat} (h : j < s ∨ s + k ≤ j) : (BitVec.twoPow n j).extractLsb' s k = 0 := by
  ext i hi
  simp only [BitVec.getElem_extractLsb', BitVec.getLsbD_twoPow, BitVec.ofNat_eq_ofNat, BitVec.getElem_zero,
    show j ≠ s + i by omega, decide_false, Bool.and_false]

/-- The ones of a word after one of its bits flips. -/
theorem onesBelow_xor_twoPow {m : Nat} (n : Nat) (x : BitVec m) {j : Nat} (hj : j < m) (hn : j < n) :
    onesBelow n (x ^^^ BitVec.twoPow m j).toNat % 2 = (onesBelow n x.toNat + 1) % 2 := by
  rw [BitVec.toNat_xor, BitVec.toNat_twoPow_of_lt hj, onesBelow_flip, if_pos hn]

/-- R48, R50: one bit that flips among the slots and the bits [14:0] of the line word is seen. -/
theorem lineParityOk_flip {l : BitVec 512} {j : Nat} (hj : j < 495) (h : lineParityOk l = true) :
    lineParityOk (l ^^^ BitVec.twoPow 512 j) = false := by
  obtain ⟨hw, hs⟩ := (lineParityOk_iff l).mp h
  rw [← Bool.not_eq_true, lineParityOk_iff]
  rintro ⟨hw', hs'⟩
  by_cases hslot : j < 480
  · have hword : lineWord (l ^^^ BitVec.twoPow 512 j) = lineWord l := by
      rw [lineWord, BitVec.extractLsb'_xor, extractLsb'_twoPow_of_notMem (by omega)]
      exact BitVec.xor_zero
    have hflip : lineSlot (l ^^^ BitVec.twoPow 512 j) (j / 96) =
        lineSlot l (j / 96) ^^^ BitVec.twoPow 96 (j - 96 * (j / 96)) := by
      rw [lineSlot, BitVec.extractLsb'_xor, extractLsb'_twoPow_of_le (by omega) (by omega)]
      rfl
    have h1 := hs (j / 96) (by omega)
    have h2 := hs' (j / 96) (by omega)
    rw [hword, hflip, Nat.add_mod, onesBelow_xor_twoPow 96 _ (by omega) (by omega)] at h2
    omega
  · have hflip : lineWord (l ^^^ BitVec.twoPow 512 j) = lineWord l ^^^ BitVec.twoPow 32 (j - 480) := by
      rw [lineWord, BitVec.extractLsb'_xor, extractLsb'_twoPow_of_le (by omega) (by omega)]
      rfl
    rw [hflip, onesBelow_xor_twoPow 15 _ (by omega) (by omega)] at hw'
    omega

/-! ### PCs of slots -/

theorem pcSlot_eq_some_iff (pc n : Nat) : pcSlot pc = some n ↔ Claims.slotAtPc pc n := by
  unfold pcSlot Claims.slotAtPc
  split
  case h_6 h0 h1 h2 h3 h4 =>
    refine iff_of_false nofun fun ⟨hn, he⟩ => ?_
    interval_cases n
    exacts [h0 he, h1 he, h2 he, h3 he, h4 he]
  all_goals simp only [Option.some.injEq]; omega

/-- Settles O54: the fields of a line are read from their bits, and a parity is the count of ones modulo two. -/
theorem lineLayout : Obligations.LineLayout := by
  refine ⟨fun w pair mask => ⟨fun i hi => ?_, lineWord_even w pair mask, lineParityOk_lineFrom w pair mask,
    lineIllegal_lineFrom w pair mask⟩, fun l j hj h => lineParityOk_flip hj h, lineIllegal_iff, pcSlot_eq_some_iff⟩
  have hslot := lineSlot_lineFrom w pair mask hi
  refine ⟨hslot, lineMask_lineFrom w pair mask hi, linePair_lineFrom w pair mask hi, fun j hj => ?_,
    slotParity_even w pair mask hi⟩
  rw [← hslot]
  exact lineSlot_byte _ hj

end Sys2Proof


/-! ## The code that the assembler lays out (R48, R52, R61, R79) -/

namespace Sys2Proof.Machine

/-! ### The bits of a line word -/

theorem bitsOfFn_succ (n : Nat) (f : Nat → Bool) : bitsOfFn (n + 1) f = bitsOfFn n f + if f n then 2 ^ n else 0 := by
  simp only [bitsOfFn, List.range_succ, List.foldl_append, List.foldl_cons, List.foldl_nil]

theorem bitsOfFn_lt (n : Nat) (f : Nat → Bool) : bitsOfFn n f < 2 ^ n := by
  induction n with
  | zero => exact Nat.zero_lt_one
  | succ n ih => rw [bitsOfFn_succ, Nat.pow_succ]; split <;> omega

theorem testBit_bitsOfFn {n i : Nat} (f : Nat → Bool) (h : i < n) : (bitsOfFn n f).testBit i = f i := by
  induction n with
  | zero => exact absurd h (Nat.not_lt_zero i)
  | succ n ih =>
    have hlt := bitsOfFn_lt n f
    rw [bitsOfFn_succ]
    rcases Nat.lt_or_eq_of_le (Nat.le_of_lt_succ h) with hi | rfl
    · rw [← ih hi]
      split
      · rw [Nat.add_comm, Nat.testBit_two_pow_add_gt hi]
      · rfl
    · cases hf : f i
      · exact Nat.testBit_lt_two_pow hlt
      · rw [if_pos rfl, Nat.add_comm, Nat.testBit_two_pow_add_eq, Nat.testBit_lt_two_pow hlt]
        rfl

theorem getLsbD_bitsOfFn {n i : Nat} (f : Nat → Bool) (h : i < n) : (BitVec.ofNat n (bitsOfFn n f)).getLsbD i = f i := by
  rw [BitVec.getLsbD_ofNat, testBit_bitsOfFn f h, decide_eq_true h, Bool.true_and]

/-! ### One line -/

/-- Slot i of line n; an unused one is a NOP (R79). -/
def itemAt (ls : List (List SrcSlot)) (n i : Nat) : SrcSlot := (ls.getD n []).getD i padSlot

/-- The word of a slot of a line. -/
def SrcSlot.word (x : SrcSlot) : Slot := (encode x.i).getD nopSlot

theorem encode_decodeFields (w : Slot) : encode (decodeFields w) = some w := by
  rcases decodeFields_cases w with ⟨-, -, h⟩ | ⟨-, h⟩
  · exact h
  · rw [h]; rfl

@[simp] theorem word_padSlot : padSlot.word = nopSlot := by rw [SrcSlot.word, padSlot, encode_decodeFields]; rfl

section
variable (ls : List (List SrcSlot)) (n : Nat)

theorem lineOf_eq : lineOf ls n = lineFrom (fun i => (itemAt ls n i).word) (BitVec.ofNat 4 (bitsOfFn 4 (pairBit (ls.getD n []))))
    (BitVec.ofNat 5 (bitsOfFn 5 fun i => (itemAt ls n i).target || afterCall ls n i)) := rfl

theorem lineParityOk_lineOf : lineParityOk (lineOf ls n) = true := by rw [lineOf_eq, lineParityOk_lineFrom]

theorem lineIllegal_lineOf : lineIllegal (lineOf ls n) = false := by rw [lineOf_eq, lineIllegal_lineFrom]

theorem lineSlot_lineOf {i : Nat} (h : i ≤ 4) : lineSlot (lineOf ls n) i = (itemAt ls n i).word := by
  rw [lineOf_eq, lineSlot_lineFrom _ _ _ h]

theorem lineMask_lineOf {i : Nat} (h : i ≤ 4) : lineMask (lineOf ls n) i = ((itemAt ls n i).target || afterCall ls n i) := by
  rw [lineOf_eq, lineMask_lineFrom _ _ _ h, getLsbD_bitsOfFn _ (Nat.lt_succ_of_le h)]

theorem linePair_lineOf {i : Nat} (h : i < 4) : linePair (lineOf ls n) i = leads (itemAt ls n i).i (itemAt ls n (i + 1)).i := by
  rw [lineOf_eq, linePair_lineFrom _ _ _ h.le, getLsbD_bitsOfFn _ h]
  rfl

/-- A slot of a line is one that the line holds or an unused one. -/
theorem itemAt_of_forall {P : SrcSlot → Prop} (hls : ∀ l ∈ ls, ∀ y ∈ l, P y) (hpad : P padSlot) (i : Nat) :
    P (itemAt ls n i) := by
  have hline : ∀ y ∈ ls.getD n [], P y := by
    rw [List.getD_eq_getElem?_getD]
    cases h : ls[n]? with
    | none => exact fun y hy => absurd hy List.not_mem_nil
    | some l => exact hls l (List.mem_of_getElem? h)
  rw [itemAt, List.getD_eq_getElem?_getD]
  cases h : (ls.getD n [])[i]? with
  | none => exact hpad
  | some y => exact hline y (List.mem_of_getElem? h)

/-- The slot before slot m of a kernel, numbered through its lines, holds a CALL. -/
theorem afterCall_of_isCall {m : Nat} (h : isCall (itemAt ls (m / 5) (m % 5)).i = true) :
    afterCall ls ((m + 1) / 5) ((m + 1) % 5) = true := by
  unfold afterCall
  split
  · next h0 =>
    rw [show (m + 1) / 5 - 1 = m / 5 by omega, Bool.and_eq_true, bne_iff_ne]
    rw [show m % 5 = 4 by omega] at h
    exact ⟨by omega, h⟩
  · next h0 =>
    rw [show (m + 1) % 5 - 1 = m % 5 by omega, show (m + 1) / 5 = m / 5 by omega]
    exact h
end

/-! ### Gathering slots in lines -/

/-- The slot that an item of the source fills. -/
def SrcItem.slot (x : SrcItem) : SrcSlot := ⟨x.i, x.label⟩

/-- What holds of every item of the source holds of every slot of its lines. -/
theorem gather5_forall {P : SrcSlot → Prop} {src : List SrcItem} {done : List (List SrcSlot)} {cur : List SrcSlot}
    (hsrc : ∀ x ∈ src, P x.slot) (hdone : ∀ l ∈ done, ∀ y ∈ l, P y) (hcur : ∀ y ∈ cur, P y) :
    ∀ l ∈ gather5 src done cur, ∀ y ∈ l, P y := by
  have hclosed : ∀ {d : List (List SrcSlot)} {c : List SrcSlot}, (∀ l ∈ d, ∀ y ∈ l, P y) → (∀ y ∈ c, P y) →
      ∀ l ∈ (if c.isEmpty then d else d ++ [c]), ∀ y ∈ l, P y := by
    intro d c hd hc l hl
    split at hl
    · exact hd l hl
    · rcases List.mem_append.mp hl with hl | hl
      · exact hd l hl
      · rw [List.mem_singleton.mp hl]; exact hc
  induction src generalizing done cur with
  | nil => exact hclosed hdone hcur
  | cons x t ih =>
    have hx : ∀ y ∈ [x.slot], P y := fun y hy => by rw [List.mem_singleton.mp hy]; exact hsrc x List.mem_cons_self
    have hnil : ∀ y ∈ ([] : List SrcSlot), P y := fun y hy => absurd hy List.not_mem_nil
    have ht : ∀ z ∈ t, P z.slot := fun z hz => hsrc z (List.mem_cons_of_mem _ hz)
    simp only [gather5]
    split
    · refine ih ht (fun l hl => ?_) hx
      rcases List.mem_append.mp hl with hl | hl
      · exact hclosed hdone hcur l hl
      · rw [List.eq_of_mem_replicate hl]; exact hnil
    · split
      · exact ih ht (hclosed hdone hcur) hx
      · exact ih ht hdone fun y hy => (List.mem_append.mp hy).elim (hcur y) (hx y)

/-- Complete lines, then the open one if it holds a slot. -/
def linesOf (full : List (List SrcSlot)) (last : List SrcSlot) : List (List SrcSlot) :=
  if last.isEmpty then full else full ++ [last]

/-- Lines of five slots and an open one of at most five, with these slots in order. -/
structure Packed (full : List (List SrcSlot)) (last slots : List SrcSlot) : Prop where
  five : ∀ l ∈ full, l.length = 5
  most : last.length ≤ 5
  order : full.flatten ++ last = slots

/-- Without alignment the slots of a kernel fill line after line. -/
theorem gather5_packed {src : List SrcItem} (hsrc : ∀ x ∈ src, x.align = none) {done : List (List SrcSlot)}
    {cur slots : List SrcSlot}
    (h : Packed done cur slots) :
    ∃ full last, gather5 src done cur = linesOf full last ∧ Packed full last (slots ++ src.map SrcItem.slot) := by
  induction src generalizing done cur slots with
  | nil => exact ⟨done, cur, rfl, by rw [List.map_nil, List.append_nil]; exact h⟩
  | cons x t ih =>
    have ht : ∀ z ∈ t, z.align = none := fun z hz => hsrc z (List.mem_cons_of_mem _ hz)
    rw [List.map_cons, List.append_cons]
    simp only [gather5, hsrc x List.mem_cons_self]
    split
    · next h5 =>
      have hne : cur.isEmpty = false := by cases cur <;> simp_all
      refine ih ht ⟨?_, by simp, ?_⟩
      · rw [hne]
        exact fun l hl => (List.mem_append.mp hl).elim (h.five l) fun hl => by rw [List.mem_singleton.mp hl]; exact h5
      · rw [hne, ← h.order]
        simp [SrcItem.slot]
    · next h5 =>
      have hmost := h.most
      refine ih ht ⟨h.five, by simp only [List.length_append, List.length_singleton]; omega, ?_⟩
      rw [← List.append_assoc, h.order]
      rfl

theorem Packed.length_lines {full : List (List SrcSlot)} {last slots : List SrcSlot} (h : Packed full last slots) :
    (linesOf full last).length = (slots.length + 4) / 5 := by
  have hfull : full.flatten.length = 5 * full.length := by
    rw [List.length_flatten, List.map_eq_replicate_iff.mpr h.five, List.sum_replicate, smul_eq_mul, Nat.mul_comm]
  have := h.most
  rw [linesOf, ← h.order, List.length_append, hfull]
  cases last with
  | nil => simp only [List.isEmpty_nil, if_true, List.length_nil]; omega
  | cons y r =>
    simp only [List.isEmpty_cons, Bool.false_eq_true, if_false, List.length_append, List.length_cons, List.length_nil] at this ⊢
    omega

/-- Slot n of the kernel is slot n % 5 of line n / 5. -/
theorem itemAt_linesOf {full : List (List SrcSlot)} {last : List SrcSlot} (five : ∀ l ∈ full, l.length = 5)
    (most : last.length ≤ 5) (n : Nat) : itemAt (linesOf full last) (n / 5) (n % 5) = (full.flatten ++ last).getD n padSlot := by
  induction full generalizing n with
  | nil =>
    rcases Nat.lt_or_ge n 5 with hn | hn
    · rw [Nat.div_eq_of_lt hn, Nat.mod_eq_of_lt hn]
      cases last <;> rfl
    · have hnone : (linesOf [] last).getD (n / 5) [] = [] := by
        apply List.getD_eq_default
        rw [linesOf]
        split <;> simp only [List.nil_append, List.length_nil, List.length_singleton] <;> omega
      rw [itemAt, hnone, List.flatten_nil, List.nil_append, List.getD_eq_default last _ (by omega)]
      rfl
  | cons l t ih =>
    have hl : l.length = 5 := five l List.mem_cons_self
    have hlines : linesOf (l :: t) last = l :: linesOf t last := by
      unfold linesOf
      split <;> rfl
    rw [hlines, List.flatten_cons, List.append_assoc]
    rcases Nat.lt_or_ge n 5 with hn | hn
    · rw [Nat.div_eq_of_lt hn, Nat.mod_eq_of_lt hn, List.getD_append _ _ _ _ (by omega)]
      rfl
    · rw [List.getD_append_right _ _ _ _ (by omega), hl, ← ih (fun l hl => five l (List.mem_cons_of_mem _ hl)),
        show n / 5 = (n - 5) / 5 + 1 by omega, show n % 5 = (n - 5) % 5 by omega]
      rfl

/-! ### The code of a kernel -/

/-- The items of a source with the entry marked; nothing aligns the first (R79). -/
def marked : List SrcItem → List SrcItem
  | [] => []
  | x :: t => { x with label := true, align := none } :: t

/-- The lines of a source. -/
def linesOfSrc (src : List SrcItem) : List (List SrcSlot) := gather5 (marked src) [] []

theorem layOut_eq (src : List SrcItem) : layOut src = (List.range (linesOfSrc src).length).map (lineOf (linesOfSrc src)) := by
  cases src <;> rfl

theorem getElem?_layOut (src : List SrcItem) (n : Nat) :
    (layOut src)[n]? = if n < (linesOfSrc src).length then some (lineOf (linesOfSrc src) n) else none := by
  rw [layOut_eq, List.getElem?_map]
  split
  · next h => rw [List.getElem?_range h]; rfl
  · next h => rw [List.getElem?_eq_none (by rw [List.length_range]; omega)]; rfl

theorem mem_marked {src : List SrcItem} {x : SrcItem} (h : x ∈ marked src) :
    ∃ y ∈ src, x.i = y.i ∧ (x.align = none ∨ x.align = y.align) := by
  cases src with
  | nil => cases h
  | cons y t =>
    rcases List.mem_cons.mp h with rfl | h
    · exact ⟨y, List.mem_cons_self, rfl, .inl rfl⟩
    · exact ⟨x, List.mem_cons_of_mem _ h, rfl, .inr rfl⟩

/-- A slot of the code is an item of the source or an unused one. -/
theorem itemAt_linesOfSrc (src : List SrcItem) (n i : Nat) :
    itemAt (linesOfSrc src) n i = padSlot ∨ ∃ x ∈ src, (itemAt (linesOfSrc src) n i).i = x.i := by
  refine itemAt_of_forall (P := fun y => y = padSlot ∨ ∃ x ∈ src, y.i = x.i) _ n
    (gather5_forall (fun x hx => ?_) ?_ ?_) (.inl rfl) i
  · obtain ⟨y, hy, he, -⟩ := mem_marked hx
    exact .inr ⟨y, hy, he⟩
  · exact fun l hl => absurd hl List.not_mem_nil
  · exact fun y hy => absurd hy List.not_mem_nil

/-- A well-formed slot is read back from its word. -/
theorem decodeFields_word {src : List SrcItem} (hsrc : ∀ x ∈ src, x.i.WellFormed) (n i : Nat) :
    decodeFields (itemAt (linesOfSrc src) n i).word = (itemAt (linesOfSrc src) n i).i := by
  rcases itemAt_linesOfSrc src n i with h | ⟨x, hx, h⟩
  · rw [h, word_padSlot]; rfl
  · obtain ⟨w, he, hd⟩ := decodeFields_encode (hsrc x hx).1
    rw [SrcSlot.word, h, he]
    exact hd

theorem slot_word_eq (src : List SrcItem) (n i : Nat) :
    (itemAt (linesOfSrc src) n i).word = nopSlot ∨
      ∃ x ∈ src, (itemAt (linesOfSrc src) n i).word = (encode x.i).getD nopSlot := by
  rcases itemAt_linesOfSrc src n i with h | ⟨x, hx, h⟩
  · exact .inl (by rw [h, word_padSlot])
  · exact .inr ⟨x, hx, by rw [SrcSlot.word, h]⟩

/-- Without alignment, the code holds the source's items in order, five to a line. -/
theorem linesOfSrc_packed {src : List SrcItem} (hsrc : ∀ x ∈ src, x.align = none) :
    (linesOfSrc src).length = (src.length + 4) / 5 ∧
      ∀ n, itemAt (linesOfSrc src) (n / 5) (n % 5) = ((marked src).map SrcItem.slot).getD n padSlot := by
  have hmarked : ∀ x ∈ marked src, x.align = none := fun x hx => by
    obtain ⟨y, hy, -, he⟩ := mem_marked hx
    exact he.elim id fun he => he.trans (hsrc y hy)
  have hlen : (marked src).length = src.length := by cases src <;> rfl
  obtain ⟨full, last, he, hp⟩ := gather5_packed hmarked (done := []) (cur := []) (slots := [])
    ⟨fun l hl => absurd hl List.not_mem_nil, Nat.zero_le 5, rfl⟩
  rw [linesOfSrc, he, hp.length_lines]
  refine ⟨by rw [List.nil_append, List.length_map, hlen], fun n => ?_⟩
  rw [itemAt_linesOf hp.five hp.most, hp.order, List.nil_append]

/-- The slot of item n of a source. -/
theorem marked_slot {src : List SrcItem} {n : Nat} {x : SrcItem} (h : src[n]? = some x) :
    ((marked src).map SrcItem.slot).getD n padSlot = ⟨x.i, n = 0 || x.label⟩ := by
  cases src with
  | nil => cases h
  | cons y t =>
    cases n with
    | zero => cases h; rfl
    | succ n =>
      rw [List.getElem?_cons_succ] at h
      simp [marked, SrcItem.slot, h]

/-! ### Branches -/

/-- R61: a branch written for a slot reaches it. -/
theorem branchTo_target {f : BFmt} {pc target n : Nat} (hpc : pc < 2 ^ 32) (ht : target < 2 ^ 32)
    (hn : Claims.slotAtPc target n) :
    ∃ g, branchTo f pc target = some g ∧ g.target pc = target ∧ g = { f with disp := g.disp, tslot := g.tslot } := by
  refine ⟨{ f with disp := BitVec.ofInt 30 (((target / 64 : Nat) : Int) - (pc / 64 : Nat)), tslot := BitVec.ofNat 3 n },
    ?_, ?_, rfl⟩
  · rw [branchTo, (pcSlot_eq_some_iff target n).mpr hn]
    rfl
  · obtain ⟨h4, hm⟩ := hn
    have hdisp : (BitVec.ofInt 30 (((target / 64 : Nat) : Int) - (pc / 64 : Nat))).toInt =
        ((target / 64 : Nat) : Int) - (pc / 64 : Nat) := by
      rw [BitVec.toInt_ofInt]
      exact Int.bmod_eq_of_le (by omega) (by omega)
    have hslot : (BitVec.ofNat 3 n).toNat = n := by
      rw [BitVec.toNat_ofNat]; omega
    simp only [BFmt.target, hdisp, hslot]
    omega

/-- Settles O59: every line is one of five slots with its parities, and without alignment the slots fill five to a line,
in order. -/
theorem codeLayout : Obligations.CodeLayout := by
  refine ⟨fun src l hl => ?_, fun src hsrc => ?_, fun f pc target n => branchTo_target⟩
  · obtain ⟨n, hn⟩ := List.mem_iff_getElem?.mp hl
    rw [getElem?_layOut] at hn
    split at hn <;> cases hn
    refine ⟨lineParityOk_lineOf .., lineIllegal_lineOf .., fun i hi => ?_, fun hwf i hi => ?_⟩
    · rw [lineSlot_lineOf _ _ hi]
      exact slot_word_eq src n i
    · rw [lineSlot_lineOf _ _ hi.le, lineSlot_lineOf _ _ hi, decodeFields_word hwf, decodeFields_word hwf,
        linePair_lineOf _ _ hi]
  · obtain ⟨hlen, hat⟩ := linesOfSrc_packed hsrc
    refine ⟨by rw [layOut_eq, List.length_map, List.length_range, hlen], fun n x hx => ?_⟩
    have hn : n < src.length := (List.getElem?_eq_some_iff.mp hx).1
    have hitem : itemAt (linesOfSrc src) (n / 5) (n % 5) = ⟨x.i, n = 0 || x.label⟩ := (hat n).trans (marked_slot hx)
    refine ⟨lineOf (linesOfSrc src) (n / 5), by rw [getElem?_layOut, if_pos (by omega)], ?_, fun h => ?_,
      fun hcall l hl => ?_⟩
    · rw [lineSlot_lineOf _ _ (by omega), hitem]
      rfl
    · rw [lineMask_lineOf _ _ (by omega), hitem]
      rcases h with h | h <;> simp [h]
    · rw [getElem?_layOut] at hl
      split at hl <;> cases hl
      rw [lineMask_lineOf _ _ (by omega), afterCall_of_isCall _ (by rw [hitem]; exact hcall), Bool.or_true]

end Sys2Proof.Machine


/-! ## What stops an issue (R49 to R51, R58, R68, R70 to R72) -/

namespace Sys2Proof.Machine

/-! ### Masks -/

theorem testBit_foldl_or (key : Nat → Nat) (fs : List Nat) (m l : Nat) :
    (fs.foldl (fun m f => m ||| 2 ^ key f) m).testBit l = true ↔ m.testBit l = true ∨ ∃ f ∈ fs, l = key f := by
  induction fs generalizing m with
  | nil => simp
  | cons f t ih =>
    simp only [List.foldl_cons, ih, Nat.testBit_or, Nat.testBit_two_pow, Bool.or_eq_true, decide_eq_true_eq, List.mem_cons,
      exists_eq_or_imp, or_assoc, eq_comm (a := l)]

theorem testBit_maskOf (quads fs : List Nat) (l : Nat) :
    (maskOf quads fs).testBit l = true ↔ ∃ f ∈ fs, l = 4 * quads.idxOf (f / 4) + f % 4 := by
  rw [maskOf, testBit_foldl_or, Nat.zero_testBit]
  simp only [Bool.false_eq_true, false_or]
  rfl

/-! ### The slot that an issue takes -/

theorem State.modCore_modCore (s : State) (k : Nat) (f h : Core → Core) :
    (s.modCore k f).modCore k h = s.modCore k (h ∘ f) := by
  rw [State.modCore, State.core_modCore, if_pos rfl, State.modCore, State.modCore, tset_tset]
  rfl

theorem State.modCore_congr (s : State) (k : Nat) {f h : Core → Core} (e : f (s.core k) = h (s.core k)) :
    s.modCore k f = s.modCore k h := by
  rw [State.modCore, State.modCore, e]

section
variable (gid : Nat) (F : Nat → Fibre → Fibre) (fs : List Nat) (s : State)

theorem State.foldl_modFibre_rest :
    fs.foldl (fun s f => s.modFibre gid f (F f)) s =
      { s with groups := (fs.foldl (fun s f => s.modFibre gid f (F f)) s).groups } := by
  induction fs generalizing s with
  | nil => rfl
  | cons f t ih => rw [List.foldl_cons, ih]; rfl

theorem State.core_foldl_modFibre (j : Nat) : (fs.foldl (fun s f => s.modFibre gid f (F f)) s).core j = s.core j := by
  rw [State.foldl_modFibre_rest]
  rfl

theorem State.group_foldl_modFibre (j : Nat) :
    (fs.foldl (fun s f => s.modFibre gid f (F f)) s).group? j =
      if gid = j then (s.group? j).map fun y => { y with fibres := fs.foldl (fun t f => tmod t f (F f)) y.fibres }
      else s.group? j := by
  induction fs generalizing s with
  | nil => simp
  | cons f t ih =>
    rw [List.foldl_cons, ih]
    split
    · next h =>
      subst h
      rw [State.modFibre, State.group_modGroup, if_pos rfl, Option.map_map]
      rfl
    · next h => rw [State.modFibre, State.group_modGroup, if_neg h]
end

/-- What a fibre remembers of its issue: when, and in which lane. -/
def Fibre.issuedIn (z : Fibre) (cycle : Nat) (quads : List Nat) (f : Nat) : Fibre :=
  { z with lastIssue := cycle, lane := laneIn quads f }

/-- Issue slots used on a core, with one for the VF unless the slice has issued in this cycle (R36, R52). -/
def Core.usedAfter (co : Core) (sl vf cycle : Nat) : Tab Nat :=
  if (co.slice sl).issuedAt = some cycle then co.used else tset co.used vf (tget 0 co.used vf + 1)

/-- The core of a slice that takes bundle b. -/
def Core.takes (co : Core) (sl : Nat) (b : Bundle) (vf cycle : Nat) : Core :=
  { co with slices := tset co.slices sl ((co.slice sl).takes b cycle), used := co.usedAfter sl vf cycle }

/-- Taking its slot changes the slice's core, then the fibres that issue. -/
theorem State.takeSlot_eq (s : State) (k sl : Nat) (b : Bundle) (vf : Nat) : s.takeSlot k sl b vf =
    b.en.foldl (fun t f => t.modFibre b.gid f fun z => z.issuedIn (s.cycleOf k) b.quads f)
      (s.modCore k fun co => co.takes sl b vf (s.cycleOf k)) := by
  have hcore : (s.modCore k fun co => co.takes sl b vf (s.cycleOf k)) =
      (if ((s.core k).slice sl).issuedAt == some (s.cycleOf k) then s.modSlice k sl fun y => y.takes b (s.cycleOf k)
        else (s.modSlice k sl fun y => y.takes b (s.cycleOf k)).charge k vf) := by
    by_cases h : ((s.core k).slice sl).issuedAt = some (s.cycleOf k)
    · rw [if_pos (beq_iff_eq.mpr h), State.modSlice]
      exact s.modCore_congr k (by rw [Core.takes, Core.usedAfter, if_pos h])
    · rw [if_neg fun e => h (beq_iff_eq.mp e), State.charge, State.modSlice, State.modCore_modCore]
      exact s.modCore_congr k (by rw [Core.takes, Core.usedAfter, if_neg h]; rfl)
  rw [State.takeSlot, hcore]
  rfl

section
variable (s : State) (k sl : Nat) (b : Bundle) (vf : Nat)

theorem State.takeSlot_rest : s.takeSlot k sl b vf =
    { s with groups := (s.takeSlot k sl b vf).groups, cores := (s.takeSlot k sl b vf).cores } := by
  rw [State.takeSlot_eq, State.foldl_modFibre_rest b.gid fun f z => z.issuedIn (s.cycleOf k) b.quads f]
  rfl

@[simp] theorem State.takeSlot_cur : (s.takeSlot k sl b vf).cur = s.cur := by rw [State.takeSlot_rest]

theorem State.core_takeSlot (j : Nat) :
    (s.takeSlot k sl b vf).core j = if k = j then (s.core k).takes sl b vf (s.cycleOf k) else s.core j := by
  rw [State.takeSlot_eq, State.core_foldl_modFibre b.gid fun f z => z.issuedIn (s.cycleOf k) b.quads f, State.core_modCore]

theorem State.slice_takeSlot (x : Nat) :
    (s.takeSlot k sl b vf).slice k x = if sl = x then (s.slice k sl).takes b (s.cycleOf k) else s.slice k x := by
  rw [State.slice, State.core_takeSlot, if_pos rfl, Core.slice, Core.takes, tget_tset]
  rfl

theorem State.group_takeSlot (j : Nat) :
    (s.takeSlot k sl b vf).group? j = if b.gid = j then
      (s.group? j).map fun y =>
        { y with fibres := b.en.foldl (fun t f => tmod t f fun z => z.issuedIn (s.cycleOf k) b.quads f) y.fibres }
      else s.group? j := by
  rw [State.takeSlot_eq, State.group_foldl_modFibre b.gid fun f z => z.issuedIn (s.cycleOf k) b.quads f]
  rfl

/-- R36: the VF is charged once a cycle. -/
theorem Core.tget_usedAfter (co : Core) (cycle v : Nat) : tget 0 (co.usedAfter sl vf cycle) v =
    tget 0 co.used v + if v = vf ∧ (co.slice sl).issuedAt ≠ some cycle then 1 else 0 := by
  unfold Core.usedAfter
  by_cases h : (co.slice sl).issuedAt = some cycle
  · rw [if_pos h, if_neg fun hn => hn.2 h, Nat.add_zero]
  · rw [if_neg h, tget_tset]
    by_cases hv : vf = v
    · subst hv
      rw [if_pos rfl, if_pos ⟨rfl, h⟩]
    · rw [if_neg hv, if_neg fun hn => hv hn.1.symm, Nat.add_zero]
end

/-- A fibre that issues remembers when and in which lane. -/
theorem tfind_issued {t : Tab Fibre} {f : Nat} {z : Fibre} (h : tfind t f = some z) (cycle : Nat) (quads fs : List Nat) :
    tfind (fs.foldl (fun t f => tmod t f fun z => z.issuedIn cycle quads f) t) f =
      some (if f ∈ fs then z.issuedIn cycle quads f else z) := by
  obtain ⟨z', h1, h2, h3, -⟩ := tfind_foldl_tmod fs id (fun f z => z.issuedIn cycle quads f) f
    (fun x => x = z) (fun x => x = z.issuedIn cycle quads f)
    (fun o _ ho x hx => by cases ho; rcases hx with rfl | rfl <;> rfl) h (.inl rfl)
  refine Eq.trans h1 (congrArg some ?_)
  by_cases hf : f ∈ fs
  · rw [if_pos hf, h2 ⟨f, hf, rfl⟩]
  · rw [if_neg hf, h3 fun o ho he => hf (he ▸ ho)]

theorem tfind_mapVal {α : Type} (t : Tab α) (F : α → α) (k : Nat) :
    tfind (t.map fun p => (p.1, F p.2)) k = (tfind t k).map F := by
  induction t with
  | nil => rfl
  | cons p t ih =>
    rw [List.map_cons, tfind_cons, ih, ← Prod.mk.eta (p := p), tfind_cons]
    split <;> rfl

/-- A latch after its slice clears it (R67): no data, the same tag. -/
theorem Slice.clearLatches_latch (y : Slice) (x : Nat) :
    let l := tget Latch.empty y.clearLatches.latches x
    l.valid = false ∧ l.data = [] ∧ l.tag = (tget Latch.empty y.latches x).tag := by
  simp only [Slice.clearLatches, tget,
    tfind_mapVal y.latches fun l => { l with valid := false, data := [], epoch := l.epoch + 1 }]
  cases tfind y.latches x <;> exact ⟨rfl, rfl, rfl⟩

/-- Taking its slot is what an issue changes by itself (R34, R36, R67). -/
theorem State.takeSlot_issued (u : State) (k sl : Nat) (b : Bundle) (g : Group) :
    Claims.Issued u (u.takeSlot k sl b g.vf) k sl b g := by
  have hslice := u.slice_takeSlot k sl b g.vf sl
  rw [if_pos rfl] at hslice
  have hcore := u.core_takeSlot k sl b g.vf k
  rw [if_pos rfl] at hcore
  have hrest : u.takeSlot k sl b g.vf = { u with cur := (u.takeSlot k sl b g.vf).cur, groups := (u.takeSlot k sl b g.vf).groups,
                                                 cores := (u.takeSlot k sl b g.vf).cores } := by
    rw [State.takeSlot_cur]
    exact u.takeSlot_rest k sl b g.vf
  refine ⟨hrest, fun j hj => ?_, fun x hx => ?_, ?_, fun v => ?_, ?_, fun hl => ?_, fun hl x => ?_, fun j y hy => ?_⟩
  · rw [State.core_takeSlot, if_neg (Ne.symm hj)]
  · rw [State.slice_takeSlot, if_neg (Ne.symm hx)]
  · rw [hcore]; rfl
  · rw [hcore]
    exact Core.tget_usedAfter sl g.vf (u.core k) (u.cycleOf k) v
  · rw [hslice]
    exact ⟨rfl, rfl⟩
  · rw [hslice, Slice.takes, if_pos hl]
  · rw [hslice, Slice.takes, if_neg hl]
    exact (u.slice k sl).clearLatches_latch x
  · have hgroup := u.group_takeSlot k sl b g.vf j
    rw [hy] at hgroup
    by_cases hj : b.gid = j
    · rw [if_pos hj] at hgroup
      refine ⟨_, hgroup, rfl, fun f z hz => ⟨_, tfind_issued hz _ _ _, ?_⟩⟩
      by_cases hf : f ∈ b.en
      · rw [if_pos hf, if_pos ⟨hj.symm, hf⟩]
        exact ⟨rfl, rfl, rfl⟩
      · rw [if_neg hf, if_neg fun h => hf h.2]
        exact ⟨rfl, rfl⟩
    · rw [if_neg hj] at hgroup
      refine ⟨y, hgroup, rfl, fun f z hz => ⟨z, hz, rfl, ?_⟩⟩
      rw [if_neg fun h => hj h.1.symm]

/-! ### The bundle that issues -/

section
variable {α : Type}

theorem foldl_pick_mem {pick : α → α → α} (hp : ∀ a y, pick a y = a ∨ pick a y = y) (t : List α) (x : α) :
    t.foldl pick x ∈ x :: t := by
  induction t generalizing x with
  | nil => exact List.mem_singleton_self x
  | cons y t ih =>
    rw [List.foldl_cons]
    rcases hp x y with h | h <;> rw [h]
    · exact (List.mem_cons.mp (ih x)).elim (fun e => by rw [e]; exact List.mem_cons_self)
        fun hm => List.mem_cons_of_mem _ (List.mem_cons_of_mem _ hm)
    · exact List.mem_cons_of_mem _ (ih y)

theorem mem_of_leastBy {key : α → Nat} {l : List α} {x : α} (h : leastBy key l = some x) : x ∈ l := by
  cases l with
  | nil => cases h
  | cons y t => cases h; exact foldl_pick_mem (fun a y => by split <;> simp) t y

theorem mem_of_mostBy {key : α → Nat} {l : List α} {x : α} (h : mostBy key l = some x) : x ∈ l := by
  cases l with
  | nil => cases h
  | cons y t => cases h; exact foldl_pick_mem (fun a y => by split <;> simp) t y
end

theorem Slice.mem_of_choose {x : Slice} {ready : List Bundle} {b : Bundle} (h : x.choose ready = some b) : b ∈ ready := by
  unfold Slice.choose at h
  split at h
  · next a ha =>
    cases h
    exact List.mem_of_mem_filter (mem_of_mostBy ha)
  · simp only at h
    split at h
    · cases h
    · have hpool := List.mem_of_mem_filter (mem_of_leastBy h)
      split at hpool
      · exact hpool
      · exact List.mem_of_mem_filter hpool

/-- The slice chooses among the bundles that can issue. -/
theorem State.canIssue_of_pickBundle {s : State} {k sl : Nat} {b : Bundle} (h : s.pickBundle k sl = some b) :
    (s.canIssue k sl b).isSome = true := by
  suffices hb : b ∈ (s.slice k sl).bundles.filter fun b => (s.canIssue k sl b).isSome from (List.mem_filter.mp hb).2
  unfold State.pickBundle at h
  simp only at h
  split at h
  · exact List.mem_of_find?_eq_some h
  · split at h
    · exact List.mem_of_find?_eq_some h
    · exact Slice.mem_of_choose h

/-- A bundle that can issue does so with what it fetches. -/
theorem State.canIssue_fetch {s : State} {k sl : Nat} {b : Bundle} {g g' : Group} {w : Fetch} (hg : s.group? b.gid = some g)
    (h : s.canIssue k sl b = some (g', w)) : g' = g ∧ s.fetch g b.pc = w := by
  unfold State.canIssue at h
  rw [hg] at h
  simp only at h
  split at h
  · cases h
  · split at h
    · cases h
    · next cs hf => cases h; exact ⟨rfl, hf⟩
    · next i hf =>
      split at h
      · cases h; exact ⟨rfl, hf⟩
      · split at h <;> cases h
        exact ⟨rfl, hf⟩

end Sys2Proof.Machine

namespace Sys2Proof.Claims
open Sys2Proof.Machine

section
variable {s u : State} {k sl : Nat} {b : Bundle} {g : Group} {line : ILine} {n : Nat}

/-! ### What the fetch of an issue meets -/

theorem AboutToIssue.fetch_poisoned (h : AboutToIssue s u k sl b g line n) (hp : line.poisoned = true) :
    u.fetch g b.pc = .stop 0x14 := by
  rw [State.fetch, if_neg (Nat.not_le.mpr h.within), (pcSlot_eq_some_iff _ _).mpr h.slot]
  simp only [h.core.2.2, h.held, hp, if_true]
  rfl

theorem AboutToIssue.fetch_illegal (h : AboutToIssue s u k sl b g line n) (hp : line.poisoned = false)
    (hl : lineIllegal line.data = true) : u.fetch g b.pc = .stop 0x13 := by
  rw [State.fetch, if_neg (Nat.not_le.mpr h.within), (pcSlot_eq_some_iff _ _).mpr h.slot]
  simp only [h.core.2.2, h.held, hp, hl, if_true, Bool.false_eq_true, if_false]
  rfl

theorem AboutToIssue.fetch_trap (h : AboutToIssue s u k sl b g line n) (hp : line.poisoned = false)
    (hl : lineIllegal line.data = false) {cs : Nat}
    (ht : issueTrap (decodeFields (lineSlot line.data n)) (u.ctx g.vf).steward = some cs) : u.fetch g b.pc = .stop cs := by
  rw [State.fetch, if_neg (Nat.not_le.mpr h.within), (pcSlot_eq_some_iff _ _).mpr h.slot]
  simp only [h.core.2.2, h.held, hp, hl, ht, Bool.false_eq_true, if_false]

/-- An issue whose fetch stops faults the whole bundle with the fetch's cause, after its slot is taken. -/
theorem AboutToIssue.faults (h : AboutToIssue s u k sl b g line n) {cs : Nat} (hf : u.fetch g b.pc = .stop cs) :
    IssueFaults s u k sl b g cs := by
  obtain ⟨rest, hagenda, hu⟩ := h.agenda
  obtain ⟨⟨g', w⟩, hcan⟩ := Option.isSome_iff_exists.mp (State.canIssue_of_pickBundle h.picked)
  obtain ⟨rfl, hw⟩ := State.canIssue_fetch h.group hcan
  rw [hf] at hw
  subst hw
  have hbegin : u.beginIssue k sl =
      .stop ((u.takeSlot k sl b g'.vf).faultAt ⟨k, sl, b.gid, b.pc, b.quads, b.en, b.num⟩ cs b.en 0 0) := by
    have hguard : ¬ (!u.dieRuns (k / 16) || decide (3 < sl) || decide (255 < k)) = true := by
      rw [h.runs, decide_eq_false (Nat.not_lt.mpr h.core.2.1), decide_eq_false (Nat.not_lt.mpr h.core.1)]
      decide
    rw [State.beginIssue, if_neg hguard, h.picked]
    simp only [hcan]
  refine ⟨_, maskOf b.quads b.en, u.takeSlot_issued k sl b g', State.takeSlot_cur .., ?_, fun l _ => ?_⟩
  · rw [step, hagenda]
    simp only [perform, ← hu, hbegin]
    rfl
  · exact Bool.eq_iff_iff.mpr ((testBit_maskOf _ _ l).trans decide_eq_true_iff.symm)
end

end Sys2Proof.Claims

namespace Sys2Proof

/-- An assigned opcode is an instruction of the map, whose decode trap is its slot's. -/
theorem slotTrap_of_assigned {w : Slot} (h : Claims.assigned (opcOf w)) : slotTrap w = (decodeFields w).decodeTrap := by
  rcases decodeFields_cases w with ⟨-, hs, -⟩ | ⟨hn, -⟩
  · exact slotTrap_of_shape hs
  · exact absurd h hn

theorem slotTrap_of_decodeSlot {w : Slot} {t : DecodeTrap} (h : decodeSlot w = .error (.decodeTrap t)) : slotTrap w = some t := by
  unfold decodeSlot at h
  split at h <;> cases h
  assumption

end Sys2Proof

namespace Sys2Proof.Machine

theorem issueTrap_illegal {i : Instr} (h : i.decodeTrap = some .illegalInstruction) (st : Bool) : issueTrap i st = some 0x10 := by
  rw [issueTrap, h]
  rfl

/-- R271: q8 outside steward mode is an Illegal Instruction. -/
theorem issueTrap_q8 {i : Instr} (h : Instr.namesQ8 i = true) : issueTrap i false = some 0x10 := by
  rw [issueTrap, h]
  split <;> rfl

theorem issueTrap_plain {i : Instr} (h : Instr.namesQ8 i = false) (st : Bool) :
    issueTrap i st = i.decodeTrap.map decodeCause := by
  rw [issueTrap, h]
  split
  · next h => rw [h]; rfl
  · rfl

/-! ### Registers past the window and lost latches -/

/-- R58: a register past the window stops an instruction that computes in each fibre. -/
theorem withLanes_pastWindow {i : Instr} {s : State} {c : Cur} {g : Group} {h : Shape} (hc : s.cur = some c)
    (hg : s.group? c.gid = some g) (hi : i.shape = some h) (hw : pastWindow h g.wsize = true) (body : LaneIn → LaneOut)
    (k : State → Cur → Group → Shape → List Nat → List (Nat × LaneOut) → State) :
    withLanes i s body k = .next (s.faultAt c cause.regRange c.en 0 0) := by
  rw [withLanes, hc]
  simp only [hg, hi, hw, if_true]

/-- R58 for an instruction that waits at a convergence point. -/
theorem arrive_pastWindow {i : Instr} {s : State} {c : Cur} {g : Group} {h : Shape} (hc : s.cur = some c)
    (hg : s.group? c.gid = some g) (hi : i.shape = some h) (hw : pastWindow h g.wsize = true) :
    arrive i s = .next (s.faultAt c cause.regRange c.en 0 0) := by
  rw [arrive, hc]
  simp only [hg, hi, hw, if_true]

/-- The fibres whose operands `withLanes` does not find. -/
def lostOf (u : State) (c : Cur) (g : Group) (h : Shape) (body : LaneIn → LaneOut) : List Nat :=
  (computeLanes u c g h body (g.executing c)).filterMap fun r =>
    match r.2 with
    | .error _ => some r.1
    | .ok _ => none

theorem mem_lostOf {u : State} {c : Cur} {g : Group} {h : Shape} {body : LaneIn → LaneOut} {f : Nat} {b : Fibre} {e : Blocked}
    (hf : f ∈ g.executing c) (hb : tfind g.fibres f = some b) (hg : b.guard h.ctl = true)
    (he : laneOperands u c g h f b = .error e) :
    f ∈ lostOf u c g h body :=
  List.mem_filterMap.mpr ⟨(f, .error e), mem_computeLanes.mpr ⟨hf, b, hb, hg, by rw [he]; rfl⟩, rfl⟩

/-- R68: a live fibre whose latch data is lost stops the instruction. -/
theorem withLanes_latchLost {i : Instr} {s u : State} {c : Cur} {g : Group} {h : Shape} (hc : s.cur = some c)
    (hi : i.shape = some h) (hw : ∃ g0, s.group? c.gid = some g0 ∧ pastWindow h g0.wsize = false)
    (hq : s.popAll c h.ctl (waitQueuesOf h) c.en = (u, .ok [])) (hg : u.group? c.gid = some g)
    (hl : ∃ f ∈ g.executing c, ∃ b, tfind g.fibres f = some b ∧ b.guard h.ctl = true ∧
      ∃ e, laneOperands u c g h f b = .error e)
    (body : LaneIn → LaneOut) (k : State → Cur → Group → Shape → List Nat → List (Nat × LaneOut) → State) :
    ∃ lost, withLanes i s body k = .next (u.faultAt c cause.latchLost lost 0 0) := by
  obtain ⟨g0, hg0, hw⟩ := hw
  obtain ⟨f, hf, b, hb, hguard, e, he⟩ := hl
  have hen : ({ c with en := c.en.filter fun f => !([] : List Nat).contains f } : Cur) = c := by simp
  have hpark : u.parkCapture c h [] = u := rfl
  have hlost : (!(lostOf u c g h body).isEmpty) = true := by
    rw [Bool.not_eq_true', List.isEmpty_eq_false_iff]
    exact List.ne_nil_of_mem (mem_lostOf hf hb hguard he)
  refine ⟨lostOf u c g h body, ?_⟩
  rw [withLanes, hc]
  simp only [hg0, hi, hw, hq, hen, hpark, hg, Bool.false_eq_true, if_false]
  exact (if_pos hlost).trans rfl

/-- An outcome that begins as every instruction does that computes in each fibre. -/
def Begins (i : Instr) (s : State) (o : Host.Outcome State Fault Refusal) : Prop := ∃ body k, o = withLanes i s body k

section
variable {i : Instr} {s : State}

theorem withLanes_begins (body k) : Begins i s (withLanes i s body k) := ⟨_, _, rfl⟩
theorem laneStep_begins (body) : Begins i s (laneStep i s body) := ⟨_, _, rfl⟩
theorem leaStep_begins (md off form) : Begins i s (leaStep i s md off form) := by
  unfold leaStep
  exact withLanes_begins _ _
theorem softTrap_begins (cs low) : Begins i s (softTrap i s cs low) := ⟨_, _, rfl⟩
theorem globalStep_begins (body size align right helpers one) : Begins i s (globalStep i s body size align right helpers one) :=
  ⟨_, _, rfl⟩
theorem padStep_begins (body size helpers one) : Begins i s (padStep i s body size helpers one) := ⟨_, _, rfl⟩
theorem rangeStep_begins (one) : Begins i s (rangeStep i s one) := ⟨_, _, rfl⟩
theorem codeStep_begins (one) : Begins i s (codeStep i s one) := ⟨_, _, rfl⟩
theorem atomicStep_begins (f p operand) : Begins i s (atomicStep i f s p operand) := by
  unfold atomicStep
  exact withLanes_begins _ _
theorem onceStep_begins (k) : Begins i s (onceStep i s k) := ⟨_, _, rfl⟩
theorem bindStep_begins (f sparse) : Begins i s (bindStep i f sparse s) := onceStep_begins _
theorem accStep_begins (count helpers act) : Begins i s (accStep i s count helpers act) := ⟨_, _, rfl⟩
end

/-- How every instruction begins: a rod or quad exchange instruction arrives at its convergence point, any other computes in each
fibre. -/
theorem exec_begins {i : Instr} (h : i.shape.isSome = true) (s : State) :
    Begins i s (exec i s) ∨ ((i.isRod = true ∨ i.isQuad = true) ∧ exec i s = arrive i s) := by
  cases i with
  | qswp f | qbc f => exact .inr ⟨.inr rfl, rfl⟩
  | shfl f | vote f | red f | scan f | matchI f | elect f | tile f | cvtmx f => exact .inr ⟨.inl rfl, rfl⟩
  | iadd f | iaddImm f | isub f | imul f | imulImm f | imad f | imadw f | imin f | imax f | iabs f | and f | andImm f | or f
  | orImm f | xor f | xorImm f | andn f | shl f | shr f | sar f | fshl f | bfx f | bfi f | popc f | clz f | brev f | iset f
  | isetImm f | sel f | plop f | p2v f | v2p f | nop f | time f | fadd f | fsub f | fmul f | ffma f | fmin f | fmax f | fminn f
  | fmaxn f | fset f | fclass f | frnd f | fscale f | fdot2 f | frcp f | frsq f | fsqrt f | fexp2 f | flog2 f | ftanh f
  | fsinpi f | fcospi f | cvt f | qstat f => unfold exec; exact .inl (laneStep_begins _)
  | movi f | bra f | brx f | call f | ret f | fork f | retire f | yieldI f | nap f | pref f | fence f | atomp f | qwr f | qwrc f
  | mts f | tret f | haltg f => unfold exec; exact .inl (withLanes_begins _ _)
  | mov f | cvtx f | mfs f | cwait f | mcas f | msign f =>
    dsimp only [exec, execMov, execCvtx, execMfs, execCwait, execMcas, execMsign]
    exact .inl (withLanes_begins _ _)
  | lea f | leaImm f => unfold exec; exact .inl (leaStep_begins ..)
  | ld f | st f | ldc f => unfold exec; exact .inl (globalStep_begins ..)
  | ldp f | stp f => unfold exec; exact .inl (padStep_begins ..)
  | wbr f | invr f | rfence f => unfold exec; exact .inl (rangeStep_begins _)
  | ipref f | ipin f | iunpin f => unfold exec; exact .inl (codeStep_begins _)
  | atom f | cas f | cadd f | craise f | cread f => unfold exec; exact .inl (atomicStep_begins ..)
  | tdef f | marm f | mpair f | munpair f | mtest f | mcap f => unfold exec; exact .inl (onceStep_begins _)
  | mbind f | mbinds f => unfold exec; exact .inl (bindStep_begins ..)
  | macrd f | macwr f | macclr f =>
    dsimp only [exec, execMacrd, execMacwr, execMacclr]
    exact .inl (accStep_begins ..)
  | trap f | bpt f => unfold exec; exact .inl (softTrap_begins ..)
  | _ => exact Bool.noConfusion h

/-- Settles O53: what the fetch meets decides the cause before any instruction runs; the two later checks stand in the
shared beginning of every instruction. -/
theorem issueStops : Obligations.IssueStops := by
  refine ⟨fun s u k sl b g line n h => ⟨fun hp => h.faults (h.fetch_poisoned hp),
    fun hp hl => h.faults (h.fetch_illegal hp hl),
    fun hp hl ha => ⟨fun hd => ?_, fun hq hs => ?_, fun hq => ⟨fun hd => ?_, fun hd => ?_⟩⟩⟩, fun s c w hc => ?_,
    fun i s c g h hc hg hi hr => ?_, fun i s u c g h hc hi hrod hquad hw hq hg hl => ?_⟩
  · have ht := (slotTrap_of_assigned ha).symm.trans (slotTrap_of_decodeSlot hd)
    exact h.faults (h.fetch_trap hp hl (issueTrap_illegal ht _))
  · exact h.faults (h.fetch_trap hp hl (by rw [hs, issueTrap_q8 hq]))
  · have ht := (slotTrap_of_assigned ha).symm.trans (slotTrap_of_decodeSlot hd)
    exact h.faults (h.fetch_trap hp hl (by rw [issueTrap_plain hq, ht]; rfl))
  · have ht := (slotTrap_of_assigned ha).symm.trans (slotTrap_of_decodeSlot hd)
    exact h.faults (h.fetch_trap hp hl (by rw [issueTrap_plain hq, ht]; rfl))
  · refine ⟨maskOf c.quads c.en, ?_, rfl⟩
    rw [exec, execUnassignedOpcode, hc]
    rfl
  · have hpast : pastWindow h g.wsize = true := by
      obtain ⟨r, hr, hlt⟩ := hr
      exact List.any_eq_true.mpr ⟨r, hr, decide_eq_true hlt⟩
    refine ⟨maskOf c.quads c.en, ?_, rfl⟩
    rcases exec_begins (by rw [hi]; rfl) s with ⟨body, k, he⟩ | ⟨-, he⟩
    · exact he.trans (withLanes_pastWindow hc hg hi hpast body k)
    · exact he.trans (arrive_pastWindow hc hg hi hpast)
  · rcases exec_begins (by rw [hi]; rfl) s with ⟨body, k, he⟩ | ⟨hn, -⟩
    · obtain ⟨lost, hlost⟩ := withLanes_latchLost hc hi hw hq hg hl body k
      exact ⟨maskOf c.quads lost, lost.headD 0, he.trans hlost⟩
    · rw [hrod, hquad] at hn
      exact absurd hn (by decide)

end Sys2Proof.Machine

namespace Sys2Proof.Machine

/-! ### The results of a bundle, fibre by fibre -/

section
variable {u : State} {c : Cur} {g : Group} {h : Shape} {res : LaneIn → LaneOut}

/-- The results that `withLanes` hands on are those of the executing fibres in their order. -/
theorem outsOf_eq : outsOf u c g h res = (g.executing c).filterMap fun f => (resultOf u c g h res f).map (f, ·) := by
  suffices key : ∀ l : List Nat, (∀ f ∈ l, f ∈ g.executing c) →
      ((computeLanes u c g h res l).filterMap fun r =>
        match r.2 with
        | .ok o => some (r.1, o)
        | .error _ => none) = l.filterMap fun f => (resultOf u c g h res f).map (f, ·) from key _ fun _ => id
  intro l hl
  induction l with
  | nil => rfl
  | cons f t ih =>
    have ht := ih fun x hx => hl x (List.mem_cons_of_mem _ hx)
    have hf := hl f List.mem_cons_self
    rw [List.filterMap_cons, computeLanes, ← ht, resultOf]
    cases hb : tfind g.fibres f with
    | none => rfl
    | some b =>
      simp only [Option.bind_some, argsOf, hf, true_and]
      by_cases hg : b.guard h.ctl = true
      · simp only [hg, if_true, List.filterMap_cons]
        cases laneOperands u c g h f b <;> rfl
      · simp only [hg]
        rfl

/-- The live fibres among those with a result are the acting ones. -/
theorem liveOf_outsOf : g.liveOf (outsOf u c g h res) = Claims.actors u c g h := by
  rw [Group.liveOf, outsOf_eq, List.filter_filterMap, List.map_filterMap, Claims.actors, ← List.filterMap_eq_filter]
  refine List.filterMap_congr fun f _ => ?_
  cases hb : tfind g.fibres f with
  | none => simp [resultOf, Claims.acting, Option.guard, hb]
  | some b => cases ha : argsOf u c g h f b <;> cases hl : b.live <;> simp [resultOf, Claims.acting, Option.guard, Option.filter, hb, ha, hl]

theorem outsOf_map (F : LaneOut → LaneOut) :
    (outsOf u c g h res).map (fun o => (o.1, F o.2)) = outsOf u c g h fun x => F (res x) := by
  rw [outsOf_eq, outsOf_eq, List.map_filterMap]
  refine List.filterMap_congr fun f _ => ?_
  rw [resultOf, resultOf]
  cases tfind g.fibres f with
  | none => rfl
  | some b => cases ha : argsOf u c g h f b <;> simp [ha]

/-- A result without a value: nothing is written, no flag is raised. -/
theorem Fibre.land_empty (b : Fibre) (h : Shape) : b.land h {} = { b with popped := QReads.none } := by
  have hz : b.fpst ||| BitVec.ofNat 32 (0 % 32) = b.fpst := BitVec.or_zero
  rw [Fibre.land, Fibre.raise, show b.writeOut h {} = b from rfl]
  split
  · rw [hz]
  · rfl

/-- After results without values a fibre is as it was, but for what its queue reads left. -/
theorem writeOuts_empty {f : Nat} {b : Fibre} (hb : tfind g.fibres f = some b) :
    ∃ q, tfind (g.writeOuts h (outsOf u c g h fun _ => {})).fibres f = some { b with popped := q } := by
  have hall : ∀ o ∈ outsOf u c g h (fun _ => {}), o.2 = {} := fun o ho => by
    have hr := mem_outsOf.mp (show (o.1, o.2) ∈ _ from ho)
    simp only [resultOf, Option.bind_eq_some_iff, Option.map_eq_some_iff] at hr
    obtain ⟨-, -, -, -, he⟩ := hr
    exact he.symm
  obtain ⟨x, hx, hin, hout, -⟩ := tfind_foldl_tmod (outsOf u c g h fun _ => {}) (·.1) (fun o b => b.land h o.2) f
    (fun x => x = b) (fun x => x = { b with popped := QReads.none })
    (fun o ho _ x hx => by
      rw [hall o ho, Fibre.land_empty]
      rcases hx with rfl | rfl <;> rfl) hb (.inl rfl)
  by_cases hf : ∃ o ∈ outsOf u c g h (fun _ => {}), o.1 = f
  · exact ⟨QReads.none, (hin hf) ▸ hx⟩
  · exact ⟨b.popped, (hout fun o ho he => hf ⟨o, ho, he⟩) ▸ hx⟩

end

/-! ### The end of an instruction, for the state and for one fibre -/

section
variable {u s t : State} {c : Cur} {g g1 : Group} {gid f : Nat}

theorem SlicesOnly.group_setGroup (h : SlicesOnly (u.setGroup gid g) t) (j : Nat) :
    t.group? j = if gid = j then some g else u.group? j := by
  rw [State.group?, h.groups]
  exact u.group_setGroup gid g j

theorem State.fibre_of_group (hg : s.group? gid = some g) : s.fibre? gid f = tfind g.fibres f := by
  rw [State.fibre?, hg]
  rfl

theorem SlicesOnly.fibre_setGroup (h : SlicesOnly (u.setGroup gid g) t) : t.fibre? gid f = tfind g.fibres f :=
  State.fibre_of_group ((h.group_setGroup gid).trans (if_pos rfl))

/-- The end of an instruction aligns the helpers of its group and changes slices. -/
theorem State.finish_setGroup (h : SlicesOnly (u.setGroup c.gid g1) s) :
    SlicesOnly (u.setGroup c.gid (g1.alignHelpers c.quads)) (s.finish c) := by
  have hg : s.group? c.gid = some g1 := (h.group_setGroup c.gid).trans (if_pos rfl)
  refine SlicesOnly.trans ?_ (s.finish_only c g1 hg)
  have hset := h.setGroup c.gid (g1.alignHelpers c.quads)
  unfold State.setGroup at hset ⊢
  rwa [tset_tset] at hset
end

/-- What `retireTo` leaves: the group with the results written, its fibres moved and its helpers aligned, and slices. -/
theorem State.retireTo_only (u : State) (c : Cur) (g : Group) (h : Shape) (ex : List Nat) (outs : List (Nat × LaneOut))
    (pcOf : Nat → Nat) :
    SlicesOnly (u.setGroup c.gid (((g.writeOuts h outs).moveTo ex pcOf).alignHelpers c.quads))
      (u.retireTo c g h ex outs pcOf) := by
  unfold State.retireTo
  refine State.finish_setGroup ?_
  split
  · exact .refl _
  · exact State.capture_only ..

/-- A fibre after `retireTo`: its result is written, and a live one has moved if it executes. -/
theorem State.retireTo_fibre {u : State} {c : Cur} {g : Group} {h : Shape} {ex : List Nat} {outs : List (Nat × LaneOut)}
    {pcOf : Nat → Nat} {f : Nat} {x : Fibre} (hx : tfind (g.writeOuts h outs).fibres f = some x) :
    ∃ pc, (u.retireTo c g h ex outs pcOf).fibre? c.gid f = some { x with pc := pc } ∧
      (x.live = true → pc = if f ∈ ex then BitVec.ofNat 32 (pcOf f) else x.pc) := by
  obtain ⟨pc, hp, hl⟩ := alignHelpers_find _ c.quads f _ (moveTo_find (g.writeOuts h outs) ex pcOf f x hx)
  exact ⟨pc, ((u.retireTo_only c g h ex outs pcOf).fibre_setGroup).trans hp, hl⟩

/-- An instruction that writes no result leaves each fibre as it was, but for its PC and what its queue reads left. -/
theorem State.retireLanes_empty {u : State} {c : Cur} {g : Group} {h : Shape} {f : Nat} {b : Fibre}
    (hb : tfind g.fibres f = some b) :
    ∃ pc q, (u.retireLanes c g h (g.executing c) (outsOf u c g h fun _ => {})).fibre? c.gid f =
      some { b with pc := pc, popped := q } ∧ (b.live = true → pc = Claims.passes c g f b) := by
  obtain ⟨q, hq⟩ := writeOuts_empty (u := u) (c := c) (h := h) hb
  obtain ⟨pc, hp, hl⟩ := State.retireTo_fibre (u := u) (c := c) (ex := g.executing c) (pcOf := fun _ => seqPc c.pc) hq
  exact ⟨pc, q, hp, hl⟩

/-! ### MTS and MFS (R306, R318) -/

/-- The value that MTS takes from a fibre. -/
def mtsValue (u : State) (c : Cur) (g : Group) (h : Shape) (f : Nat) : Nat :=
  ((tfind g.fibres f).bind (argsOf u c g h f)).elim 0 (·.a)

/-- What MTS writes is given by the acting fibres, in their order. -/
theorem mtsVals_eq (u : State) (c : Cur) (g : Group) (h : Shape) :
    ((outsOf u c g h fun x => outVal x.a).filter fun o => (Claims.actors u c g h).contains o.1).filterMap
      (fun o => o.2.val.map (o.1, ·)) = (Claims.actors u c g h).map fun f => (f, mtsValue u c g h f) := by
  have hact {f : Nat} (hf : f ∈ g.executing c) : f ∈ Claims.actors u c g h ↔ Claims.acting u c g h f = true := by
    rw [Claims.actors, List.mem_filter]
    exact and_iff_right hf
  rw [outsOf_eq, List.filter_filterMap, List.filterMap_filterMap, ← List.filterMap_eq_map]
  conv_rhs => rw [Claims.actors, ← List.filterMap_eq_filter, List.filterMap_filterMap]
  refine List.filterMap_congr fun f hf => ?_
  cases hb : tfind g.fibres f with
  | none => simp [resultOf, Claims.acting, Option.guard, hb]
  | some b =>
    cases ha : argsOf u c g h f b <;> cases hl : b.live <;>
      simp [resultOf, hact hf, Claims.acting, mtsValue, outVal, Option.guard, Option.filter, hb, ha, hl]

/-- MTS with its operand at hand: a Privilege fault in user mode where a fibre acts, else the write. -/
theorem execMts_ready {f : CFmt} {s u : State} {c : Cur} {g : Group} {h : Shape} (hr : Ready (.mts f) s u c g h) :
    exec (.mts f) s = .next
      (if !(u.ctx g.vf).steward ∧ !(Claims.actors u c g h).isEmpty then u.faultAt c cause.privilege (Claims.actors u c g h) 0 0
      else
        let s := u.retireLanes c g h (g.executing c) (outsOf u c g h fun _ => {})
        if (Claims.actors u c g h).isEmpty then s
        else s.specialWrite c.gid g f.md.toNat ((Claims.actors u c g h).map fun f => (f, mtsValue u c g h f))) := by
  have hnone := outsOf_map (u := u) (c := c) (g := g) (h := h) (res := fun x => outVal x.a) fun o => { o with val := none }
  rw [show exec (.mts f) s = execMts f s from rfl, execMts, withLanes_ready hr]
  simp only [liveOf_outsOf, mtsVals_eq, hnone, List.isEmpty_map]
  rfl

/-! ### What a special register takes (R85, R104, R318) -/

section
variable (s : State) (gid : Nat)

theorem State.group_modFibre (f : Nat) (F : Fibre → Fibre) (j : Nat) :
    (s.modFibre gid f F).group? j =
      if gid = j then (s.group? gid).map fun g => { g with fibres := tmod g.fibres f F } else s.group? j :=
  s.group_modGroup gid _ j

/-- Fibres of one group changed one after another. -/
theorem State.foldl_modFibre {β : Type} (key : β → Nat) (F : β → Fibre → Fibre) (l : List β) (s : State) :
    (l.foldl (fun s o => s.modFibre gid (key o) (F o)) s).group? gid =
      (s.group? gid).map (fun g => { g with fibres := l.foldl (fun t o => tmod t (key o) (F o)) g.fibres }) ∧
    ∃ gs, l.foldl (fun s o => s.modFibre gid (key o) (F o)) s = { s with groups := gs } := by
  induction l generalizing s with
  | nil => exact ⟨by rw [List.foldl_nil]; cases s.group? gid <;> rfl, s.groups, rfl⟩
  | cons o t ih =>
    obtain ⟨hg, gs, hrest⟩ := ih (s.modFibre gid (key o) (F o))
    rw [List.foldl_cons]
    refine ⟨?_, gs, hrest⟩
    rw [hg, State.group_modFibre, if_pos rfl, Option.map_map]
    rfl
end

theorem fpstWrite_again (b w : Word) : fpstWrite (fpstWrite b w) w = fpstWrite b w := by
  have hz : (w &&& 0x1F) &&& 0xFFFFFFE0 = 0#32 := by rw [BitVec.and_assoc]; exact BitVec.and_zero
  rw [fpstWrite, fpstWrite, BitVec.and_or_distrib_right, hz, BitVec.or_zero, BitVec.and_assoc, BitVec.and_self]

/-- The ones of all values clear the sticky bits that the ones of each would, one after another. -/
theorem sticky_clear (l : List Nat) (x : BitVec 4) (a : Nat) :
    (x &&& ~~~(BitVec.ofNat 4 (l.foldl (fun m v => m ||| v) a))) =
      l.foldl (fun m v => m &&& ~~~((BitVec.ofNat 32 v).setWidth 4)) (x &&& ~~~(BitVec.ofNat 4 a)) := by
  induction l generalizing a with
  | nil => rfl
  | cons v t ih =>
    have hv : (BitVec.ofNat 32 v).setWidth 4 = BitVec.ofNat 4 v := BitVec.setWidth_ofNat_of_le (by decide) v
    rw [List.foldl_cons, List.foldl_cons, ih, hv, BitVec.ofNat_or, BitVec.not_or, BitVec.and_assoc]

/-- What MTS leaves of a state in steward mode, written for the fibres of a list with their values (R85, R104, R318). -/
structure SpecialWritten (s t : State) (gid : Nat) (g : Group) (n : Nat) (fs : List Nat) (val : Nat → Nat) : Prop where
  bytes : t.mem = s.mem
  mxst : ∃ g', t.group? gid = some g' ∧
    g'.mxst = if n = 0x11 then mxstWrite g.mxst (BitVec.ofNat 32 (val (fs.headD 0))) else g.mxst
  mstcfg : (t.core g.k).mstcfg =
    if n = 0x80 then BitVec.ofNat 32 (val (fs.headD 0)) &&& 0x0001FFFF else (s.core g.k).mstcfg
  sticky : (t.ctx g.vf).sticky =
    if n = 0x40 then (fs.map val).foldl (fun m v => m &&& ~~~((BitVec.ofNat 32 v).setWidth 4)) (s.ctx g.vf).sticky
    else (s.ctx g.vf).sticky
  fibres : ∀ f b, s.fibre? gid f = some b → t.fibre? gid f =
    some { b with fpst := if n = 0x10 ∧ f ∈ fs then fpstWrite b.fpst (BitVec.ofNat 32 (val f)) else b.fpst }

/-- MTS's write of one fibre's FPST. -/
def writeFpst (v : Nat × Nat) (b : Fibre) : Fibre := { b with fpst := fpstWrite b.fpst (BitVec.ofNat 32 v.2) }

/-- A fibre of the list takes its value, however often it is listed. -/
theorem tfind_foldl_writeFpst (fs : List Nat) (val : Nat → Nat) {t : List (Nat × Fibre)} {f : Nat} {b : Fibre} (hb : tfind t f = some b) :
    tfind ((fs.map fun f => (f, val f)).foldl (fun t o => tmod t o.1 (writeFpst o)) t) f =
      some (if f ∈ fs then writeFpst (f, val f) b else b) := by
  obtain ⟨x, hx, hin, hout, -⟩ := tfind_foldl_tmod (fs.map fun f => (f, val f)) Prod.fst writeFpst f
    (fun x => x = b) (fun x => x = writeFpst (f, val f) b)
    (fun o ho hof x hx => by
      obtain ⟨f', -, rfl⟩ := List.mem_map.mp ho
      cases hof
      rcases hx with rfl | rfl
      · rfl
      · exact congrArg (fun w => { b with fpst := w }) (fpstWrite_again ..)) hb (.inl rfl)
  refine hx.trans (congrArg some ?_)
  by_cases hf : f ∈ fs
  · rw [if_pos hf]
    exact hin ⟨_, List.mem_map_of_mem hf, rfl⟩
  · rw [if_neg hf]
    refine hout fun o ho hof => hf ?_
    obtain ⟨f', hf', rfl⟩ := List.mem_map.mp ho
    exact hof ▸ hf'

theorem specialWrite_written {s : State} {gid : Nat} {g g1 : Group} (hg : s.group? gid = some g1) (hm : g1.mxst = g.mxst) (n : Nat)
    {fs : List Nat} (hfs : fs ≠ []) (val : Nat → Nat) :
    SpecialWritten s (s.specialWrite gid g n (fs.map fun f => (f, val f))) gid g n fs val := by
  obtain ⟨f0, rest, rfl⟩ := List.exists_cons_of_ne_nil hfs
  have hsame {f : Nat} {b : Fibre} (hb : s.fibre? gid f = some b) : tfind g1.fibres f = some b :=
    (State.fibre_of_group hg).symm.trans hb
  unfold State.specialWrite
  split
  · obtain ⟨hgr, gs, hrest⟩ := State.foldl_modFibre gid Prod.fst writeFpst ((f0 :: rest).map fun f => (f, val f)) s
    rw [hg] at hgr
    refine ⟨(congrArg State.mem hrest :), ⟨_, hgr, hm⟩, (congrArg (fun t : State => (t.core g.k).mstcfg) hrest :),
      (congrArg (fun t : State => (t.ctx g.vf).sticky) hrest :), fun f b hb => ?_⟩
    refine ((State.fibre_of_group hgr).trans (tfind_foldl_writeFpst _ val (hsame hb))).trans (congrArg some ?_)
    by_cases hf : f ∈ f0 :: rest
    · rw [if_pos hf, if_pos ⟨rfl, hf⟩]
      rfl
    · rw [if_neg hf, if_neg fun h => hf h.2]
  · have hgr := s.group_modGroup gid (fun g => { g with mxst := mxstWrite g.mxst (BitVec.ofNat 32 (val f0)) }) gid
    rw [if_pos rfl, hg] at hgr
    refine ⟨rfl, ⟨_, hgr, congrArg (mxstWrite · _) hm⟩, rfl, rfl, fun f b hb => ?_⟩
    exact (State.fibre_of_group hgr).trans (hsame hb)
  · refine ⟨rfl, ⟨g1, hg, hm⟩, rfl, ?_, fun f b hb => hb⟩
    have hclear := sticky_clear ((f0 :: rest).map val) (s.ctx g.vf).sticky 0
    rw [show (s.ctx g.vf).sticky &&& ~~~0#4 = (s.ctx g.vf).sticky from BitVec.and_allOnes] at hclear
    rw [State.ctx_modCtx, if_pos rfl, if_pos rfl, ← hclear, List.foldl_map, List.foldl_map]
  · refine ⟨rfl, ⟨g1, hg, hm⟩, ?_, rfl, fun f b hb => hb⟩
    rw [State.core_modCore, if_pos rfl]
    rfl
  · next h1 h2 h3 h4 =>
    refine ⟨rfl, ⟨g1, hg, ?_⟩, ?_, ?_, fun f b hb => ?_⟩
    · rw [if_neg h2, hm]
    · rw [if_neg h4]
    · rw [if_neg h3]
    · rw [if_neg fun h => h1 h.1, hb]

end Sys2Proof.Machine

namespace Sys2Proof.Claims
open Sys2Proof.Machine

/-- In user mode the acting fibres fault before anything is written. -/
theorem privilegeFaults : PrivilegeFaults := by
  rintro i s u c g h x rest hr hu ha ⟨f, rfl | ⟨rfl, hmd⟩⟩
  · rw [execMts_ready hr, if_pos (by simp [hu, ha]), ha]
    rfl
  · rw [show exec (.mfs f) s = execMfs f s from rfl, execMfs, withLanes_ready hr]
    simp only [liveOf_outsOf, ha]
    rw [if_pos (by simp [hu, hmd])]
    rfl

/-- The acting fibres' values are written once the instruction has passed. -/
theorem specialRegisterWrites : SpecialRegisterWrites := by
  intro f s u c g h hr hst
  have hexec := execMts_ready hr
  rw [if_neg (by simp [hst])] at hexec
  have honly := u.retireTo_only c g h (g.executing c) (outsOf u c g h fun _ => {}) fun _ => seqPc c.pc
  have hfib {x : Nat} {b : Fibre} (hb : tfind g.fibres x = some b) := State.retireLanes_empty (u := u) (c := c) (h := h) hb
  rw [show u.retireTo c g h (g.executing c) (outsOf u c g h fun _ => {}) (fun _ => seqPc c.pc) =
    u.retireLanes c g h (g.executing c) (outsOf u c g h fun _ => {}) from rfl] at honly
  generalize u.retireLanes c g h (g.executing c) (outsOf u c g h fun _ => {}) = s1 at hexec honly hfib
  have hmem : s1.mem = u.mem := by rw [honly.rest]; rfl
  have hctx : s1.ctx g.vf = u.ctx g.vf := by rw [honly.rest]; rfl
  have hcfg : (s1.core g.k).mstcfg = (u.core g.k).mstcfg := by rw [honly.cores]; rfl
  rcases hx : actors u c g h with _ | ⟨x0, xs⟩
  · refine ⟨s1, hexec.trans (by rw [hx]; rfl), trivial, fun x b hb => ?_, fun a => by rw [hmem]⟩
    obtain ⟨pc, q, hb', hpc⟩ := hfib hb
    exact ⟨_, hb', rfl, hpc, fun _ => rfl⟩
  · have hw := specialWrite_written ((honly.group_setGroup c.gid).trans (if_pos rfl)) (g := g) rfl f.md.toNat
      (List.cons_ne_nil x0 xs) (mtsValue u c g h)
    refine ⟨_, hexec.trans (by rw [hx]; rfl), ⟨fun x b v hb hv => ?_, hw.mxst, ?_, ?_⟩, fun x b hb => ?_, fun a => by rw [hw.bytes, hmem]⟩
    · obtain ⟨pc, q, hb', -⟩ := hfib hb
      obtain ⟨x', hx', he⟩ := List.mem_map.mp hv
      cases he
      refine ⟨_, hw.fibres _ _ hb', ?_⟩
      simp only [hx', and_true]
      rfl
    · rw [hw.mstcfg, hcfg]; rfl
    · rw [hw.sticky, hctx, List.foldl_map, List.foldl_map]; rfl
    · obtain ⟨pc, q, hb', hpc⟩ := hfib hb
      refine ⟨_, hw.fibres _ _ hb', rfl, hpc, fun hact => ?_⟩
      have hnot : x ∉ x0 :: xs := by
        rw [← hx, actors, List.mem_filter]
        exact fun h => Bool.false_ne_true (hact.symm.trans h.2)
      simp only [hnot, and_false, if_false]

/-- Settles O11: MTS passes as an instruction without a result, then writes the register; outside steward mode the acting
fibres fault. -/
theorem specialRegisters : Obligations.SpecialRegisters := ⟨specialRegisterWrites, privilegeFaults⟩

end Sys2Proof.Claims


/-! ## Rounding (R82, R83) -/

namespace Sys2Proof.Claims
open Sys2Proof Sys2Proof.Machine

/-! ### Rounding to an integer (R82) -/

/-- The exact value m * 2^s lies between the quotient and the next integer, as the remainder of `roundScaled` says. -/
theorem scaled_parts (m : Nat) {s : Int} (hs : s < 0) :
    let d := min (-s).toNat (Nat.log2 m + 2)
    ∃ ρ : ℝ, (m : ℝ) * 2 ^ s = (m >>> d : Nat) + ρ ∧ 0 ≤ ρ ∧ ρ < 1 ∧ (2 ^ (d - 1) < m % 2 ^ d ↔ 1 / 2 < ρ) ∧
      (m % 2 ^ d = 2 ^ (d - 1) ↔ ρ = 1 / 2) ∧ (m % 2 ^ d ≠ 0 ↔ ρ ≠ 0) := by
  intro d
  obtain ⟨k, hk⟩ : ∃ k : Nat, s = -(k : Int) := ⟨(-s).toNat, by omega⟩
  have hk0 : 0 < k := by omega
  have hpow : (2 : ℝ) ^ s = (2 ^ k)⁻¹ := by rw [hk, zpow_neg, zpow_natCast]
  rcases Nat.le_total k (Nat.log2 m + 2) with hle | hle
  · have hd : d = k := by omega
    have hpos : (0 : ℝ) < 2 ^ k := by positivity
    have hhalf : (2 : ℝ) ^ k = 2 * 2 ^ (k - 1) := by rw [← pow_succ']; congr 1; omega
    have hdiv : (m : ℝ) = 2 ^ k * (m / 2 ^ k : Nat) + (m % 2 ^ k : Nat) := by exact_mod_cast (Nat.div_add_mod m (2 ^ k)).symm
    have hlt : ((m % 2 ^ k : Nat) : ℝ) < 2 ^ k := by exact_mod_cast Nat.mod_lt m (by positivity)
    rw [hd, Nat.shiftRight_eq_div_pow, hpow]
    refine ⟨(m % 2 ^ k : Nat) / 2 ^ k, ?_, by positivity, (div_lt_one hpos).mpr hlt, ?_, ?_, ?_⟩
    · rw [hdiv]; field_simp
    · rw [div_lt_div_iff₀ two_pos hpos, one_mul, hhalf, mul_comm _ (2 : ℝ), mul_lt_mul_iff_right₀ two_pos]
      exact_mod_cast Iff.rfl
    · rw [div_eq_div_iff hpos.ne' two_ne_zero, one_mul, hhalf, mul_comm _ (2 : ℝ), mul_right_inj' two_ne_zero]
      exact_mod_cast Iff.rfl
    · rw [ne_eq, ne_eq, div_eq_zero_iff, or_iff_left hpos.ne']
      exact_mod_cast Iff.rfl
  · have hd : d = Nat.log2 m + 2 := by omega
    have hm : m < 2 ^ (d - 1) := by rw [hd]; exact Nat.lt_log2_self
    have hmd : m < 2 ^ d := hm.trans_le (Nat.pow_le_pow_right two_pos (Nat.sub_le d 1))
    have hpos : (0 : ℝ) < 2 ^ k := by positivity
    have hlt : (m : ℝ) * 2 ^ s < 1 / 2 := by
      have h2 : 2 * m < 2 ^ k := calc
        2 * m < 2 * 2 ^ (d - 1) := by omega
        _ = 2 ^ d := by rw [← pow_succ']; congr 1; omega
        _ ≤ 2 ^ k := Nat.pow_le_pow_right two_pos (by omega)
      rw [hpow, ← div_eq_mul_inv, div_lt_div_iff₀ hpos two_pos, one_mul, mul_comm]
      exact_mod_cast h2
    refine ⟨m * 2 ^ s, ?_, by positivity, by linarith, iff_of_false ?_ (by linarith), iff_of_false ?_ (by linarith), ?_⟩
    · rw [Nat.shiftRight_eq_div_pow, Nat.div_eq_of_lt hmd, Nat.cast_zero, zero_add]
    · rw [Nat.mod_eq_of_lt hmd]; omega
    · rw [Nat.mod_eq_of_lt hmd]; omega
    · rw [Nat.mod_eq_of_lt hmd, ne_eq, ne_eq, mul_eq_zero, or_iff_left (by positivity), Nat.cast_eq_zero]

/-- What `roundScaled` gives for an exact magnitude x: the rounded integer, between the integers around x. -/
structure RoundedTo (mode : Nat) (neg : Prop) (x : ℝ) (r : Nat × Bool) : Prop where
  rounds : RoundsInt mode neg x r.1
  inexact : r.2 = true ↔ x ≠ r.1
  le : ∀ n : Nat, x ≤ n → r.1 ≤ n
  ge : ∀ n : Nat, (n : ℝ) ≤ x → n ≤ r.1

/-- Rounding by a fraction: up or not, as the mode says. -/
theorem roundedTo_of_parts {mode q : Nat} {neg up ne : Bool} {x ρ : ℝ} (hx : x = q + ρ) (h0 : 0 ≤ ρ) (h1 : ρ < 1)
    (hne : ne = true ↔ ρ ≠ 0) (hup : up = true → ne = true)
    (hn : mode = 0 → (up = true ↔ 1 / 2 < ρ ∨ (ρ = 1 / 2 ∧ q % 2 = 1)))
    (hd : mode = 1 ∨ (mode = 2 ∧ neg = true) ∨ (mode = 3 ∧ ¬ neg = true) → up = false)
    (hu : (mode = 2 ∧ ¬ neg = true) ∨ (mode = 3 ∧ neg = true) → up = ne) :
    RoundedTo mode (neg = true) x (q + up.toNat, ne) := by
  have hfloor (n : Nat) (hnx : (n : ℝ) ≤ x) : n ≤ q := by
    have : (n : ℝ) < q + 1 := by linarith
    exact Nat.lt_succ_iff.mp (by exact_mod_cast this)
  have hceil (n : Nat) (hnx : x ≤ n) (hρ : ρ ≠ 0) : q + 1 ≤ n := by
    have : (q : ℝ) < n := by linarith [lt_of_le_of_ne h0 (Ne.symm hρ)]
    exact_mod_cast this
  cases up with
  | false =>
    have hcast : ((q + false.toNat : Nat) : ℝ) = q := rfl
    have habs : |x - (q : ℝ)| = ρ := by rw [hx, add_sub_cancel_left, abs_of_nonneg h0]
    refine ⟨⟨fun hm => ?_, fun _ => by rw [hcast]; constructor <;> linarith, fun hm => ?_⟩, ?_, fun n hnx => ?_,
      hfloor⟩
    · have hnot := mt (hn hm).mpr Bool.false_ne_true
      push Not at hnot
      rw [Bool.toNat_false, add_zero, habs]
      rcases lt_or_eq_of_le hnot.1 with hlt | heq
      · exact .inl hlt
      · exact .inr ⟨heq, by have := hnot.2 heq; omega⟩
    · have hρ : ρ = 0 := not_not.mp (mt hne.mpr (by rw [← hu hm]; exact Bool.false_ne_true))
      rw [hcast]
      constructor <;> linarith
    · rw [hne, hx, Bool.toNat_false, add_zero, ne_eq, ne_eq, add_eq_left]
    · have : (q : ℝ) ≤ n := by linarith
      exact_mod_cast this
  | true =>
    have hnt : ne = true := hup rfl
    have hρ : 0 < ρ := lt_of_le_of_ne h0 (Ne.symm (hne.mp hnt))
    have hcast : ((q + true.toNat : Nat) : ℝ) = q + 1 := by rw [Bool.toNat_true]; push_cast; rfl
    refine ⟨⟨fun hm => ?_, fun hm => absurd (hd hm) Bool.noConfusion, fun _ => ?_⟩, ?_, fun n hnx => hceil n hnx hρ.ne',
      fun n hnx => (hfloor n hnx).trans (Nat.le_add_right q _)⟩
    · have habs : |x - ((q + true.toNat : Nat) : ℝ)| = 1 - ρ := by
        rw [hcast, abs_sub_comm, abs_of_nonneg (by linarith), hx]; ring
      rw [habs]
      rcases (hn hm).mp rfl with hgt | ⟨heq, hodd⟩
      · exact .inl (by linarith)
      · exact .inr ⟨by linarith, by rw [Bool.toNat_true]; omega⟩
    · rw [hcast]
      constructor <;> linarith
    · rw [hcast]
      exact iff_of_true hnt (by linarith)

/-- R82: `roundScaled` rounds m * 2^s to an integer. -/
theorem roundScaled_rounds (mode : Nat) (neg : Bool) (m : Nat) (s : Int) :
    RoundedTo mode (neg = true) ((m : ℝ) * 2 ^ s) (roundScaled mode neg m s) := by
  unfold roundScaled
  split
  · next hs =>
    obtain ⟨k, rfl⟩ := Int.eq_ofNat_of_zero_le hs
    refine roundedTo_of_parts (q := m <<< k) (up := false) (ρ := 0) ?_ le_rfl one_pos (by simp) (by simp) (by norm_num)
      (fun _ => rfl) fun _ => rfl
    rw [Nat.shiftLeft_eq]
    push_cast
    simp
  · next hs =>
    obtain ⟨ρ, hx, h0, h1, hgt, heq, hne⟩ := scaled_parts m (not_le.mp hs)
    refine roundedTo_of_parts hx h0 h1 (by rw [decide_eq_true_eq, hne]) ?_ (fun hm => ?_) (fun hm => ?_) fun hm => ?_
    · split <;> intro hup <;> rw [decide_eq_true_eq] <;> intro hzero <;> simp [hzero] at hup
      exact absurd hup.1 (by positivity)
    · subst hm
      simp [hgt, heq]
    · rcases hm with rfl | ⟨rfl, rfl⟩ | ⟨rfl, hneg⟩
      · rfl
      · simp
      · simp [hneg]
    · rcases hm with ⟨rfl, hneg⟩ | ⟨rfl, rfl⟩
      · simp [hneg]
      · simp

/-! ### Magnitudes -/

/-- The value of a magnitude code (R88), where every code is finite. -/
noncomputable def magVal (F : Fmt) (c : Nat) : ℝ :=
  if c / 2 ^ F.fr = 0 then (c % 2 ^ F.fr : Nat) * 2 ^ F.low else (2 ^ F.fr + c % 2 ^ F.fr : Nat) * 2 ^ (F.low + (c / 2 ^ F.fr : Nat) - 1)

section
variable (F : Fmt)

/-- A magnitude code is a binade j above the lowest and a significand n. -/
theorem magVal_code {j n : Nat} (hn : n ≤ 2 ^ (F.fr + 1)) (hj : j = 0 ∨ 2 ^ F.fr ≤ n) :
    magVal F (j * 2 ^ F.fr + n) = n * 2 ^ (F.low + j) := by
  have hP : 0 < 2 ^ F.fr := by positivity
  rw [pow_succ] at hn
  rcases lt_or_ge n (2 ^ F.fr) with hlt | hge
  · obtain rfl : j = 0 := hj.resolve_right (not_le.mpr hlt)
    rw [Nat.zero_mul, Nat.zero_add, magVal, if_pos (Nat.div_eq_of_lt hlt), Nat.mod_eq_of_lt hlt, Nat.cast_zero, add_zero]
  · have hsplit : j * 2 ^ F.fr + n = (n - 2 ^ F.fr) + 2 ^ F.fr * (j + 1) := by
      rw [Nat.mul_succ, Nat.mul_comm]; omega
    rw [magVal, hsplit, Nat.add_mul_div_left _ _ hP, Nat.add_mul_mod_self_left]
    rcases lt_or_ge (n - 2 ^ F.fr) (2 ^ F.fr) with hlt | hge2
    · rw [Nat.div_eq_of_lt hlt, Nat.mod_eq_of_lt hlt, if_neg (by omega), Nat.add_sub_cancel' hge]
      congr 2
      push_cast
      ring
    · have hn2 : n - 2 ^ F.fr = 2 ^ F.fr := by omega
      have hn3 : n = 2 ^ F.fr * 2 := by omega
      rw [hn2, Nat.div_self hP, Nat.mod_self, if_neg (by omega), hn3, Nat.add_zero]
      push_cast
      rw [mul_assoc, ← zpow_one_add₀ two_ne_zero]
      congr 2
      ring

theorem exists_code (c : Nat) : ∃ j n, c = j * 2 ^ F.fr + n ∧ n < 2 ^ (F.fr + 1) ∧ (j = 0 ∨ 2 ^ F.fr ≤ n) := by
  have hP : 0 < 2 ^ F.fr := by positivity
  have hdm := Nat.div_add_mod c (2 ^ F.fr)
  have hlt := Nat.mod_lt c hP
  rw [pow_succ]
  rcases hE : c / 2 ^ F.fr with _ | j
  · rw [hE] at hdm
    exact ⟨0, c % 2 ^ F.fr, by omega, by omega, .inl rfl⟩
  · rw [hE, Nat.mul_succ, Nat.mul_comm] at hdm
    exact ⟨j, 2 ^ F.fr + c % 2 ^ F.fr, by omega, by omega, .inr (by omega)⟩

theorem magVal_strictMono : StrictMono (magVal F) := by
  refine strictMono_nat_of_lt_succ fun c => ?_
  obtain ⟨j, n, rfl, hn, hj⟩ := exists_code F c
  rw [magVal_code F hn.le hj, Nat.add_assoc, magVal_code F hn (hj.imp_right fun h => h.trans (Nat.le_succ n))]
  have : (0 : ℝ) < 2 ^ (F.low + (j : ℤ)) := by positivity
  exact mul_lt_mul_of_pos_right (by exact_mod_cast Nat.lt_succ_self n) this

end

/-! ### Codes and what they stand for (R81, R88) -/

/-- A code without its sign. -/
def magOf (F : Fmt) (c : Nat) : Nat := c % 2 ^ (F.ex + F.fr)

/-- The sign bit of a code. -/
def negBit (F : Fmt) (c : Nat) : Bool := c.testBit (F.ex + F.fr)

/-- The real factor of a sign. -/
def signR (b : Bool) : ℝ := if b then -1 else 1

section
variable (F : Fmt) (c : Nat)

theorem negOf_iff : negOf F c ↔ negBit F c = true := by
  rw [negOf, negBit, Nat.testBit_eq_decide_div_mod_eq, decide_eq_true_eq]

theorem magOf_div : magOf F c / 2 ^ F.fr = expOf F c := by
  rw [magOf, expOf, Nat.add_comm, Nat.pow_add, Nat.mod_mul_right_div_self]

theorem magOf_mod : magOf F c % 2 ^ F.fr = fracOf F c :=
  Nat.mod_mod_of_dvd c (Nat.pow_dvd_pow 2 (Nat.le_add_left ..))

theorem magOf_eq : magOf F c = 2 ^ F.fr * expOf F c + fracOf F c := by
  rw [← magOf_div, ← magOf_mod, Nat.div_add_mod]

theorem fracOf_lt : fracOf F c < 2 ^ F.fr := Nat.mod_lt c (by positivity)

theorem infMag_add : infMag F + 2 ^ F.fr = 2 ^ (F.ex + F.fr) := by
  have : 0 < 2 ^ F.ex := by positivity
  rw [infMag, Nat.pow_add, ← Nat.succ_mul]
  congr 1
  omega

theorem expOf_eq_iff : expOf F c = 2 ^ F.ex - 1 ↔ infMag F ≤ magOf F c := by
  have hlt : expOf F c < 2 ^ F.ex := Nat.mod_lt _ (by positivity)
  rw [infMag, ← Nat.le_div_iff_mul_le (by positivity), magOf_div]
  omega

/-- The value of a code is that of its magnitude with its sign. -/
theorem valueOf_eq : valueOf F c = signR (negBit F c) * magVal F (magOf F c) := by
  simp only [valueOf, magVal, signR, negOf_iff, magOf_div, magOf_mod, Fmt.low, Fmt.emin]
  congr 3
  ring_nf

theorem signed_eq (b : Bool) (mag : Nat) : signed F (b = true) mag = F.sign b + mag := by
  cases b <;> simp [signed, Fmt.sign]
end

section
variable {F : Fmt} {c : Nat}

theorem valueOf_mag (h : c < 2 ^ (F.ex + F.fr)) : valueOf F c = magVal F c := by
  rw [valueOf_eq, negBit, Nat.testBit_lt_two_pow h, magOf, Nat.mod_eq_of_lt h, signR, if_neg Bool.false_ne_true, one_mul]

theorem isInf_iff : IsInf F c ↔ magOf F c = infMag F := by
  have hm := magOf_eq F c
  rw [IsInf, expOf_eq_iff]
  constructor
  · rintro ⟨he, hf⟩
    rw [← expOf_eq_iff] at he
    rw [hm, he, hf, infMag, Nat.mul_comm, Nat.add_zero]
  · intro h
    refine ⟨h.ge, ?_⟩
    have he := (expOf_eq_iff F c).mpr h.ge
    rw [he, h, infMag, Nat.mul_comm] at hm
    omega

theorem isNan_iff : IsNan F c ↔ infMag F < magOf F c := by
  have h := isInf_iff (F := F) (c := c)
  rw [IsInf, expOf_eq_iff] at h
  rw [IsNan, expOf_eq_iff]
  omega

theorem isFin_iff : IsFin F c ↔ magOf F c < infMag F := by
  rw [IsFin, isInf_iff, isNan_iff]
  omega

/-- A finite magnitude code stands for its value. -/
theorem decode_mag (h : magOf F c ≤ F.top) :
    ∃ m e, F.decode c = .fin (negBit F c) m e ∧ (m : ℝ) * 2 ^ e = magVal F (magOf F c) ∧ F.low ≤ e := by
  unfold Fmt.decode magVal
  simp only [show c % 2 ^ (F.ex + F.fr) = magOf F c from rfl, if_neg (not_lt.mpr h)]
  generalize magOf F c / 2 ^ F.fr = q
  split
  · exact ⟨_, _, rfl, rfl, le_rfl⟩
  · exact ⟨_, _, rfl, rfl, by omega⟩

/-- Any other code stands for a NaN or an infinity. -/
theorem decode_special (h : F.top < magOf F c) : ((F.decode c).isNan || (F.decode c).isInf) = true := by
  unfold Fmt.decode
  simp only [show c % 2 ^ (F.ex + F.fr) = magOf F c from rfl, if_pos h]
  split <;> rfl
end

/-- The formats of Table 5.1, with IEEE's infinities and NaNs. -/
structure Ieee (F : Fmt) : Prop where
  inf : F.hasInf = true
  top : F.top + 1 = infMag F
  fr : 0 < F.fr

theorem ieee_fp32 : Ieee fp32 := ⟨rfl, by decide, by decide⟩

section
variable {F : Fmt} (hF : Ieee F) {c : Nat}
include hF

theorem Ieee.top_lt : F.top < 2 ^ (F.ex + F.fr) := by
  have h1 := hF.top
  have h2 := infMag_add F
  have h3 : 0 < 2 ^ F.fr := by positivity
  omega

theorem Ieee.infCode_eq : F.infCode = infMag F := hF.top

theorem Ieee.maxMag_eq : maxMag F = F.top := by
  have := hF.top
  rw [maxMag]
  omega

theorem Ieee.decode_inf (h : IsInf F c) : F.decode c = .inf (negBit F c) := by
  have hm : c % 2 ^ (F.ex + F.fr) = F.infCode := (isInf_iff.mp h).trans hF.infCode_eq.symm
  simp [Fmt.decode, hm, Fmt.infCode, hF.inf, negBit]

theorem Ieee.isSnan_iff : IsSnan F c ↔ IsNan F c ∧ (magOf F c).testBit (F.fr - 1) = false := by
  have hlt := fracOf_lt F c
  have hfr := hF.fr
  have h2 : 2 ^ F.fr = 2 * 2 ^ (F.fr - 1) := by rw [← pow_succ']; congr 1; omega
  have hbit : (magOf F c).testBit (F.fr - 1) = (fracOf F c).testBit (F.fr - 1) := by
    rw [← magOf_mod, Nat.testBit_mod_two_pow, decide_eq_true (by omega), Bool.true_and]
  rw [IsSnan, hbit, Nat.testBit_eq_decide_div_mod_eq, decide_eq_false_iff_not]
  refine and_congr_right fun _ => ?_
  have hdiv : fracOf F c / 2 ^ (F.fr - 1) < 2 := Nat.div_lt_of_lt_mul (by omega)
  rw [← Nat.div_eq_zero_iff_lt (by positivity)]
  generalize fracOf F c / 2 ^ (F.fr - 1) = q at hdiv ⊢
  omega

theorem Ieee.decode_nan (h : IsNan F c) :
    ∃ sig, F.decode c = .nan (negBit F c) sig (fracOf F c) ∧ (sig = true ↔ IsSnan F c) := by
  have hm := isNan_iff.mp h
  have htop : F.top < magOf F c := by have := hF.top; omega
  have hne : magOf F c ≠ F.infCode := by rw [hF.infCode_eq]; omega
  refine ⟨!(magOf F c).testBit (F.fr - 1), ?_, ?_⟩
  · unfold Fmt.decode
    simp only [show c % 2 ^ (F.ex + F.fr) = magOf F c from rfl, if_pos htop, hne, and_false, if_false, magOf_mod, hF.inf,
      Bool.true_and]
    rfl
  · rw [hF.isSnan_iff, Bool.not_eq_true']
    exact (and_iff_right h).symm

theorem Ieee.decode_fin (h : IsFin F c) :
    ∃ m e, F.decode c = .fin (negBit F c) m e ∧ signR (negBit F c) * (m * 2 ^ e) = valueOf F c := by
  have hm := isFin_iff.mp h
  obtain ⟨m, e, hd, hv, -⟩ := decode_mag (F := F) (c := c) (by have := hF.top; omega)
  exact ⟨m, e, hd, by rw [hv, valueOf_eq]⟩
end

/-! ### Rounding to a format (R83) -/

theorem magLog_le {m : Nat} (hm : m ≠ 0) (e : Int) : (2 : ℝ) ^ magLog m e ≤ m * 2 ^ e := by
  rw [magLog, zpow_add₀ two_ne_zero, zpow_natCast]
  exact mul_le_mul_of_nonneg_right (by exact_mod_cast Nat.log2_self_le hm) (by positivity)

theorem lt_magLog (m : Nat) (e : Int) : (m : ℝ) * 2 ^ e < 2 ^ (magLog m e + 1) := by
  rw [magLog, add_right_comm, zpow_add₀ two_ne_zero]
  have : (m : ℝ) < 2 ^ ((Nat.log2 m : ℤ) + 1) := by exact_mod_cast Nat.lt_log2_self (n := m)
  exact mul_lt_mul_of_pos_right this (by positivity)

theorem lt_two_zpow_iff {m : Nat} (hm : m ≠ 0) (e k : Int) : (m : ℝ) * 2 ^ e < 2 ^ k ↔ magLog m e < k := by
  constructor
  · exact fun h => (zpow_lt_zpow_iff_right₀ one_lt_two).mp ((magLog_le hm e).trans_lt h)
  · exact fun h => (lt_magLog m e).trans_le (zpow_le_zpow_right₀ one_le_two h)

/-- R83: `Fmt.round` rounds a nonzero magnitude in any format; `Over` is what the format makes of an overflow. -/
theorem round_rounds {F : Fmt} {mode : Nat} {neg : Bool} {m : Nat} {e : Int} {Over : Nat → Prop} (htop : F.top < 2 ^ (F.ex + F.fr))
    (hm : m ≠ 0)
    (hover : Over (F.sign neg + (if overInf mode neg then (if F.hasInf then F.infCode else F.nanCode) else F.top))) :
    RoundsIn F F.top Over mode (neg = true) (m * 2 ^ e) (F.round mode neg m e) := by
  rw [Fmt.round, if_neg hm]
  simp only
  generalize hk : max (magLog m e) F.emin = k
  have hke : F.emin ≤ k := hk ▸ le_max_right ..
  have hlog : magLog m e ≤ k := hk ▸ le_max_left ..
  have hv : (m : ℝ) * 2 ^ e < 2 ^ (k + 1) := (lt_two_zpow_iff hm e _).mpr (by omega)
  have hx : (m : ℝ) * 2 ^ (e - (k - F.fr)) = m * 2 ^ e / 2 ^ (k - F.fr) := by
    rw [zpow_sub₀ two_ne_zero, mul_div_assoc]
  have hr := roundScaled_rounds mode neg m (e - (k - F.fr))
  rw [hx] at hr
  generalize roundScaled mode neg m (e - (k - F.fr)) = r at hr ⊢
  obtain ⟨n, ne⟩ := r
  obtain ⟨hround, hne, hle, hge⟩ := hr
  have hpos : (0 : ℝ) < 2 ^ (k - F.fr) := by positivity
  have hn : n ≤ 2 ^ (F.fr + 1) := hle _ (by
    rw [div_le_iff₀ hpos, Nat.cast_pow, Nat.cast_two, ← zpow_natCast, ← zpow_add₀ two_ne_zero]
    refine hv.le.trans_eq ?_
    congr 1
    push_cast
    ring)
  have hj : (k - F.emin).toNat = 0 ∨ 2 ^ F.fr ≤ n := by
    rcases le_or_gt k F.emin with h | h
    · exact .inl (by omega)
    · refine .inr (hge _ ?_)
      have hkl : k = magLog m e := by omega
      rw [le_div_iff₀ hpos, Nat.cast_pow, Nat.cast_two, ← zpow_natCast, ← zpow_add₀ two_ne_zero, add_sub_cancel, hkl]
      exact magLog_le hm e
  have hcode : magVal F ((k - F.emin).toNat * 2 ^ F.fr + n) = n * 2 ^ (k - F.fr) := by
    rw [magVal_code F hn hj, Fmt.low]
    congr 2
    omega
  have hlt : F.top < (k - F.emin).toNat * 2 ^ F.fr + n ↔ valueOf F F.top < n * 2 ^ (k - F.fr) := by
    rw [valueOf_mag htop, ← hcode, (magVal_strictMono F).lt_iff_lt]
  refine ⟨k, n, hke, hv, ?_, hround, fun h => ?_, fun h => ?_⟩
  · rcases le_or_gt k F.emin with h | h
    · exact .inr (le_antisymm h hke)
    · refine .inl ?_
      rw [show k = magLog m e by omega]
      exact magLog_le hm e
  · rw [if_pos (hlt.mpr h)]
    exact ⟨hover, rfl⟩
  · have hnot := mt hlt.mp (not_lt.mpr h)
    have hmag := not_lt.mp hnot
    rw [if_neg hnot]
    refine ⟨⟨_, hmag, (signed_eq F neg _).symm, (valueOf_mag (hmag.trans_lt htop)).trans hcode⟩, fun heq => ?_, fun hneq => ?_⟩
    · have : ne ≠ true := fun h => hne.mp h (by rw [heq, mul_div_cancel_right₀ _ hpos.ne'])
      rw [if_neg this]
    · have : ne = true := hne.mpr fun h => hneq (by rw [← h, div_mul_cancel₀ _ hpos.ne'])
      rw [if_pos this]
      have htiny : (m : ℝ) * 2 ^ e < 2 ^ (1 - (F.bias : ℤ)) ↔ magLog m e < F.emin := lt_two_zpow_iff hm e _
      by_cases hlow : magLog m e < F.emin
      · rw [if_pos hlow, if_pos (htiny.mpr hlow)]; rfl
      · rw [if_neg hlow, if_neg (mt htiny.mp hlow)]; rfl

theorem overInf_iff {mode : Nat} (hmode : mode ≤ 3) (neg : Bool) : OverInf mode (neg = true) ↔ overInf mode neg = true := by
  unfold OverInf
  interval_cases mode <;> cases neg <;> simp [overInf]

section
variable {F : Fmt} (hF : Ieee F) {mode : Nat} (hmode : mode ≤ 3)
include hF hmode

/-- R83 in the formats of Table 5.1. -/
theorem Ieee.round_rounds (neg : Bool) {m : Nat} (hm : m ≠ 0) (e : Int) :
    Rounds F mode (neg = true) (m * 2 ^ e) (F.round mode neg m e) := by
  have h := Claims.round_rounds (F := F) (mode := mode) (neg := neg) (m := m) (e := e)
    (Over := fun y => (OverInf mode (neg = true) → y = signed F (neg = true) (infMag F)) ∧
      (¬ OverInf mode (neg = true) → y = signed F (neg = true) (maxMag F))) hF.top_lt hm (by
    rw [signed_eq, signed_eq, overInf_iff hmode, hF.inf, hF.infCode_eq, hF.maxMag_eq]
    exact ⟨fun h => by simp [h], fun h => by simp [h]⟩)
  rw [Rounds, hF.maxMag_eq]
  rw [hF.maxMag_eq] at h
  exact h

/-- An exact value rounded once. -/
theorem Ieee.round_roundsTo (neg : Bool) (m : Nat) (e : Int) :
    RoundsTo F mode (neg = true) (signR neg * (m * 2 ^ e)) (F.round mode neg m e) := by
  rcases Nat.eq_zero_or_pos m with rfl | hm
  · refine ⟨fun _ => ?_, fun h => absurd (by simp) h⟩
    rw [Fmt.round, if_pos rfl, signed_eq]
    rfl
  · have hpos : (0 : ℝ) < m * 2 ^ e := by positivity
    have hneg : (signR neg * ((m : ℝ) * 2 ^ e) < 0) = (neg = true) := by
      cases neg <;> simp only [signR, if_true, if_false, Bool.false_eq_true, eq_iff_iff, one_mul, neg_one_mul, iff_true, iff_false] <;>
        linarith
    have habs : |signR neg * ((m : ℝ) * 2 ^ e)| = m * 2 ^ e := by
      cases neg <;> simp [signR, abs_of_pos hpos]
    refine ⟨fun h => absurd habs (by rw [h, abs_zero]; exact hpos.ne), fun _ => ?_⟩
    rw [hneg, habs]
    exact hF.round_rounds hmode neg hm.ne' e
end

theorem signR_natAbs (v : ℤ) : signR (decide (v < 0)) * (v.natAbs : ℝ) = v := by
  rw [Nat.cast_natAbs, Int.cast_abs, signR]
  split
  · next h => rw [abs_of_neg (by exact_mod_cast of_decide_eq_true h)]; ring
  · next h => rw [abs_of_nonneg (by exact_mod_cast not_lt.mp (mt decide_eq_true h)), one_mul]

/-- The sign of an exact zero does not show in another result. -/
theorem roundsTo_sign {F : Fmt} {mode : Nat} {z z' : Prop} {v : ℝ} {r : Nat × Nat} (h : RoundsTo F mode z v r) (hz : v = 0 → (z ↔ z')) :
    RoundsTo F mode z' v r :=
  ⟨fun h0 => by rw [← propext (hz h0)]; exact h.1 h0, h.2⟩

/-! ### Exact sums (R83) -/

/-- The real number that a term stands for. -/
noncomputable def Term.real (t : Term) : ℝ := signR t.neg * (t.m * 2 ^ t.e)

theorem term_at_real {t : Term} {e0 : Int} (h : e0 ≤ t.e) : ((t.at e0 : ℤ) : ℝ) * 2 ^ e0 = Term.real t := by
  obtain ⟨k, hk⟩ := Int.eq_ofNat_of_zero_le (sub_nonneg.mpr h)
  have he : t.e = k + e0 := by omega
  have hmag : (((t.m <<< (t.e - e0).toNat : Nat) : ℤ) : ℝ) * 2 ^ e0 = t.m * 2 ^ t.e := by
    rw [hk, he, zpow_add₀ two_ne_zero, zpow_natCast, Nat.shiftLeft_eq]
    push_cast
    rw [Int.toNat_natCast, mul_assoc]
  rw [Term.at, Term.real, ← hmag]
  cases t.neg <;> simp [signR]

theorem foldl_min_le (ts : List Term) (a : Int) :
    ts.foldl (fun a t => min a t.e) a ≤ a ∧ ∀ t ∈ ts, ts.foldl (fun a t => min a t.e) a ≤ t.e := by
  induction ts generalizing a with
  | nil => exact ⟨le_rfl, by simp⟩
  | cons t r ih =>
    obtain ⟨h1, h2⟩ := ih (min a t.e)
    rw [List.foldl_cons]
    refine ⟨h1.trans (min_le_left ..), fun x hx => ?_⟩
    rcases List.mem_cons.mp hx with rfl | hx
    · exact h1.trans (min_le_right ..)
    · exact h2 x hx

theorem minExp_le {ts : List Term} {t : Term} (h : t ∈ ts) : minExp ts ≤ t.e := (foldl_min_le ts _).2 t h

/-- Terms in a common unit add up to their exact sum. -/
theorem foldl_at (ts : List Term) (e0 : Int) (h : ∀ t ∈ ts, e0 ≤ t.e) (a : Int) :
    ((ts.foldl (fun a t => a + t.at e0) a : ℤ) : ℝ) * 2 ^ e0 = a * 2 ^ e0 + (ts.map Term.real).sum := by
  induction ts generalizing a with
  | nil => simp
  | cons t r ih =>
    rw [List.foldl_cons, ih fun x hx => h x (List.mem_cons_of_mem _ hx), List.map_cons, List.sum_cons,
      ← term_at_real (h t List.mem_cons_self)]
    push_cast
    ring

/-- The sign that `Fmt.sum` gives a zero sum. -/
def zeroNeg (mode : Nat) (ts : List Term) : Bool :=
  if ts.all fun t => t.neg == (ts.head?.map Term.neg).getD false then (ts.head?.map Term.neg).getD false else decide (mode = 3)

theorem zeroNeg_pair (mode : Nat) (s t : Term) :
    zeroNeg mode [s, t] = if s.neg = t.neg then s.neg else decide (mode = 3) := by
  cases hs : s.neg <;> cases ht : t.neg <;> simp [zeroNeg, hs, ht]

/-- The exact sum of terms, rounded once. -/
theorem Ieee.sum_roundsTo {F : Fmt} (hF : Ieee F) {mode : Nat} (hmode : mode ≤ 3) (ts : List Term) :
    RoundsTo F mode (zeroNeg mode ts = true) (ts.map Term.real).sum (F.sum mode ts) := by
  have hsum := foldl_at ts (minExp ts) (fun _ => minExp_le) 0
  rw [Int.cast_zero, zero_mul, zero_add] at hsum
  rw [← hsum, Fmt.sum]
  simp only
  generalize ts.foldl (fun a t => a + t.at (minExp ts)) 0 = v
  split
  · next hv =>
    refine ⟨fun _ => ?_, fun h => absurd (by rw [hv]; simp) h⟩
    rw [signed_eq]
    rfl
  · next hv =>
    have hr := hF.round_roundsTo hmode (decide (v < 0)) v.natAbs (minExp ts)
    have hval : signR (decide (v < 0)) * ((v.natAbs : ℝ) * 2 ^ minExp ts) = v * 2 ^ minExp ts := by
      rw [← mul_assoc, signR_natAbs]
    rw [hval] at hr
    exact roundsTo_sign hr fun h0 => absurd h0 (mul_ne_zero (Int.cast_ne_zero.mpr hv) (by positivity))

end Sys2Proof.Claims


/-! ## Blocks of a matrix product (R97 to R101) -/

namespace Sys2Proof.Claims
open Sys2Proof Sys2Proof.Machine

/-! ### Accumulators (R100, R101) -/

/-- Terms that cancel have opposite signs. -/
theorem neg_ne_of_cancel {s t : Term} (ht : t.m ≠ 0) (h : Term.real s + Term.real t = 0) : s.neg ≠ t.neg := by
  intro heq
  have hpos : (0 : ℝ) < s.m * 2 ^ s.e + t.m * 2 ^ t.e := by positivity
  rw [Term.real, Term.real, heq, ← mul_add] at h
  cases htn : t.neg <;> simp [htn, signR] at h <;> linarith

/-- What is not finite does not decode to a finite value. -/
theorem Ieee.isFin_of_decode {F : Fmt} (hF : Ieee F) {c m : Nat} {n : Bool} {e : Int} (h : F.decode c = .fin n m e) :
    IsFin F c := by
  refine ⟨fun hinf => ?_, fun hnan => ?_⟩
  · rw [hF.decode_inf hinf] at h
    cases h
  · obtain ⟨sig, hd, -⟩ := hF.decode_nan hnan
    rw [hd] at h
    cases h

/-- A finite accumulator takes the exact sum, rounded once. -/
theorem accAdd_of_fin {acc m : Nat} {n : Bool} {ea S : Int} (hS : S ≠ 0) (e : Int) (hd : fp32.decode acc = .fin n m ea) :
    accAdd acc S e = ((fp32.sum 0 [⟨n, m, ea⟩, ⟨decide (S < 0), S.natAbs, e⟩]).1,
      (fp32.sum 0 [⟨n, m, ea⟩, ⟨decide (S < 0), S.natAbs, e⟩]).2.testBit 2) := by
  rw [accAdd, if_neg hS, hd]

theorem accAdd_of_not_isFin {acc : Nat} (h : ¬ IsFin fp32 acc) (S e : ℤ) : accAdd acc S e = (acc, false) := by
  unfold accAdd
  split
  · rfl
  · split
    · next hd => exact absurd (ieee_fp32.isFin_of_decode hd) h
    · rfl

theorem accAdd_accumulates (acc : Nat) (S e : ℤ) : Accumulates acc S e (accAdd acc S e) := by
  refine ⟨fun h => h.elim (fun hS => by rw [accAdd, if_pos hS]) fun h => accAdd_of_not_isFin h S e, fun hS hfin => ?_⟩
  obtain ⟨m, ea, hd, hacc⟩ := ieee_fp32.decode_fin hfin
  have hblock : Term.real ⟨decide (S < 0), S.natAbs, e⟩ = S * 2 ^ e := by rw [Term.real, ← mul_assoc, signR_natAbs]
  have hr := ieee_fp32.sum_roundsTo (mode := 0) (by decide) [⟨negBit fp32 acc, m, ea⟩, ⟨decide (S < 0), S.natAbs, e⟩]
  rw [List.map_cons, List.map_cons, List.map_nil, List.sum_cons, List.sum_cons, List.sum_nil, add_zero, hblock,
    show Term.real ⟨negBit fp32 acc, m, ea⟩ = valueOf fp32 acc from hacc] at hr
  rw [accAdd_of_fin hS e hd]
  generalize fp32.sum 0 _ = r at hr ⊢
  refine ⟨r.2, roundsTo_sign hr fun h0 => ?_, by rw [Nat.testBit_eq_decide_div_mod_eq, decide_eq_true_eq]⟩
  have hne := neg_ne_of_cancel (s := ⟨negBit fp32 acc, m, ea⟩) (t := ⟨decide (S < 0), S.natAbs, e⟩)
    (Int.natAbs_ne_zero.mpr hS) (by rw [hblock, ← h0]; congr 1)
  rw [zeroNeg_pair, if_neg hne]
  simp

theorem accNan_of_isNan {acc : Nat} (h : IsNan fp32 acc) : accNan acc = acc := by
  obtain ⟨sig, hd, -⟩ := ieee_fp32.decode_nan h
  rw [accNan, hd]

theorem accNan_of_not_isNan {acc : Nat} (h : ¬ IsNan fp32 acc) : accNan acc = 0x7FC00000 := by
  by_cases hinf : IsInf fp32 acc
  · rw [accNan, ieee_fp32.decode_inf hinf]
    rfl
  · obtain ⟨m, e, hd, -⟩ := ieee_fp32.decode_fin ⟨hinf, h⟩
    rw [accNan, hd]
    rfl

/-- One block of one column. -/
theorem blockAcc_fst (acc : Nat) (a : BlockInts × Option Int) (img : Binding) (j g : Nat) :
    (blockAcc acc a img j g).1 =
      let b := img.ints j g
      let z := (img.scales.getD j []).getD g 0
      match a.2 with
      | none => accNan acc
      | some xa =>
        if (slotScaled img.fslot = true ∧ z = 255) ∨ a.1.special = true ∨ b.special = true then accNan acc
        else (accAdd acc (((img.blockOf j g).1.zip b.ints).foldl (fun t p => t + a.1.ints.getD p.1 0 * p.2) 0)
          (a.1.l + b.l + xa + if slotScaled img.fslot then (z : ℤ) - 127 else 0)).1 := by
  obtain ⟨x, xa⟩ := a
  unfold blockAcc
  simp only [List.foldl_map]
  generalize (img.scales.getD j []).getD g 0 = z
  cases xa with
  | none => rfl
  | some xa =>
    cases slotScaled img.fslot with
    | false => by_cases hs : x.special = true ∨ (img.ints j g).special = true <;> simp [hs]
    | true =>
      by_cases hz : z = 255
      · simp [hz]
      · by_cases hs : x.special = true ∨ (img.ints j g).special = true <;> simp [hz, hs]

/-! ### Elements (R97, R99) -/

/-- A value that is finite and stands for a real number. -/
def Stands (v : FVal) (x : ℝ) : Prop := ∃ n m e, v = .fin n m e ∧ signR n * (m * 2 ^ e) = x

section
variable {el c : Nat} {uns : Bool}

theorem operandValue_eq_valueOf (hel : el ≤ 6) (h5 : el ≠ 5) :
    operandValue el uns c = valueOf (elemFmt el) (c % 2 ^ elemBits el) := by
  obtain rfl | rfl | rfl | rfl | rfl | rfl : el = 0 ∨ el = 1 ∨ el = 2 ∨ el = 3 ∨ el = 4 ∨ el = 6 := by omega
  all_goals rfl

theorem operandSpecial_iff (hel : el ≤ 6) (h5 : el ≠ 5) :
    OperandSpecial el c ↔ (elemFmt el).top < magOf (elemFmt el) (c % 2 ^ elemBits el) := by
  unfold OperandSpecial ElemNan ElemInf magOf
  interval_cases el <;> simp [elemFmt, elemBits, Fmt.bits, e2m1, e2m3, e3m2, e4m3, e5m2, bf16] at h5 ⊢ <;> omega

theorem not_operandSpecial_int : ¬ OperandSpecial 5 c := by simp [OperandSpecial, ElemNan, ElemInf]

theorem elemDecode_eq_decode (h5 : el ≠ 5) : elemDecode el uns c = (elemFmt el).decode (c % 2 ^ elemBits el) := if_neg h5

theorem elemDecode_special (hel : el ≤ 6) (h : OperandSpecial el c) :
    ((elemDecode el uns c).isNan || (elemDecode el uns c).isInf) = true := by
  have h5 : el ≠ 5 := by rintro rfl; exact not_operandSpecial_int h
  rw [elemDecode_eq_decode h5]
  exact decode_special ((operandSpecial_iff hel h5).mp h)

/-- The exact formats hold only multiples of their weight. -/
theorem low_of_exactL {l : Int} (h5 : el ≠ 5) (h : exactL el = some l) : l = (elemFmt el).low := by
  unfold exactL at h
  split at h <;> simp at h h5 <;> subst h <;> rfl

/-- Any other element is a finite value, a multiple of the weight of its format. -/
theorem elemDecode_stands (hel : el ≤ 6) (h : ¬ OperandSpecial el c) :
    Stands (elemDecode el uns c) (operandValue el uns c) ∧ ∀ l, exactL el = some l → l ≤ (elemDecode el uns c).term.e := by
  by_cases h5 : el = 5
  · subst h5
    refine ⟨⟨_, _, _, rfl, ?_⟩, fun l hl => (Option.some.inj hl).ge⟩
    rw [← mul_assoc, signR_natAbs, operandValue, if_pos rfl]
    cases uns <;> norm_num [zpow_neg, div_eq_mul_inv]
    norm_cast
  · rw [operandSpecial_iff hel h5, not_lt] at h
    obtain ⟨m, e, hd, hv, hlow⟩ := decode_mag h
    rw [elemDecode_eq_decode h5, operandValue_eq_valueOf hel h5, valueOf_eq, hd]
    exact ⟨⟨_, _, _, rfl, by rw [hv]⟩, fun l hl => (low_of_exactL h5 hl).trans_le hlow⟩

end

/-! ### Blocks (R97, R98) -/

theorem signR_abs (b : Bool) (x : ℝ) : |signR b * x| = |x| := by cases b <;> simp [signR]

theorem signedOf_natAbs (b : Bool) (k : Nat) : (signedOf b k).natAbs = k := by cases b <;> simp [signedOf]

theorem forall_mem_iff_getD (codes : List Nat) (P : Nat → Prop) :
    (∀ c ∈ codes, P c) ↔ ∀ k, k < codes.length → P (codes.getD k 0) := by
  rw [List.forall_mem_iff_getElem]
  exact forall₂_congr fun k hk => by rw [List.getD_eq_getElem _ _ hk]

theorem exists_mem_iff_getD (codes : List Nat) (P : Nat → Prop) :
    (∃ c ∈ codes, P c) ↔ ∃ k, k < codes.length ∧ P (codes.getD k 0) := by
  simpa only [not_forall, not_not, exists_prop] using not_congr (forall_mem_iff_getD codes fun c => ¬ P c)

theorem getD_mem {codes : List Nat} {k : Nat} (hk : k < codes.length) : codes.getD k 0 ∈ codes := by
  rw [List.getD_eq_getElem _ _ hk]
  exact List.getElem_mem hk

theorem getD_map_of_lt {α β : Type} (f : α → β) {xs : List α} {k : Nat} (hk : k < xs.length) (d : α) (d' : β) :
    (xs.map f).getD k d' = f (xs.getD k d) := by
  rw [List.getD_eq_getElem _ _ hk, List.getD_eq_getElem _ _ (by rwa [List.length_map]), List.getElem_map]

/-- The exponent that a nonzero element asks of its block (R98). -/
def elemLog (F : Fmt) (v : FVal) : Option Int :=
  if (v.isNan || v.isInf) || v.isZero then none else some (max (magLog v.term.m v.term.e) F.emin)

/-- An element in units of 2^l (R98). -/
def alignedMag (l : Int) (v : FVal) : Nat := if v.isNan || v.isInf then 0 else (roundScaled 0 false v.term.m (v.term.e - l)).1

section
variable {v : FVal} {x : ℝ} (h : Stands v x)
include h

theorem Stands.finite : (v.isNan || v.isInf) = false := by
  obtain ⟨n, m, e, rfl, -⟩ := h
  rfl

theorem Stands.value : signR v.neg * (v.term.m * 2 ^ v.term.e) = x := by
  obtain ⟨n, m, e, rfl, hx⟩ := h
  exact hx

theorem Stands.abs : |x| = v.term.m * 2 ^ v.term.e := by
  rw [← h.value, signR_abs, abs_of_nonneg (by positivity)]

theorem Stands.eq_zero_iff : x = 0 ↔ v.term.m = 0 := by
  rw [← abs_eq_zero, h.abs, mul_eq_zero, or_iff_left (by positivity), Nat.cast_eq_zero]

theorem Stands.isZero_iff : v.isZero = true ↔ x = 0 := by
  rw [h.eq_zero_iff]
  obtain ⟨n, m, e, rfl, -⟩ := h
  exact decide_eq_true_iff

theorem Stands.elemLog_eq (F : Fmt) :
    elemLog F v = if v.term.m = 0 then none else some (max (magLog v.term.m v.term.e) F.emin) := by
  obtain ⟨n, m, e, rfl, -⟩ := h
  by_cases hm : m = 0 <;> simp [elemLog, FVal.isNan, FVal.isInf, FVal.isZero, FVal.term, hm]

theorem Stands.elemLog_eq_none_iff (F : Fmt) : elemLog F v = none ↔ x = 0 := by
  rw [h.elemLog_eq, h.eq_zero_iff]
  simp

/-- The exponent of a nonzero element is that of its value, or emin below that. -/
theorem Stands.binade {F : Fmt} {E : Int} (hE : elemLog F v = some E) :
    F.emin ≤ E ∧ |x| < 2 ^ (E + 1) ∧ (E = F.emin ∨ 2 ^ E ≤ |x|) := by
  rw [h.elemLog_eq] at hE
  split at hE
  · cases hE
  next hm =>
  obtain rfl := Option.some.inj hE
  rw [h.abs, lt_two_zpow_iff hm]
  refine ⟨le_max_right .., by omega, ?_⟩
  rcases le_total (magLog v.term.m v.term.e) F.emin with hle | hle
  · exact .inl (max_eq_right hle)
  · rw [max_eq_left hle]
    exact .inr (magLog_le hm _)

theorem Stands.alignedMag_rounds (l : Int) : RoundsInt 0 False (|x| / 2 ^ l) (alignedMag l v) := by
  have hr := (roundScaled_rounds 0 false v.term.m (v.term.e - l)).rounds
  rw [zpow_sub₀ two_ne_zero, ← mul_div_assoc, ← h.abs, Bool.false_eq_true] at hr
  rw [alignedMag, h.finite]
  exact hr

/-- An aligned element has the sign of its value. -/
theorem Stands.signedOf_sign (k : Nat) : (0 < x → 0 ≤ signedOf v.neg k) ∧ (x < 0 → signedOf v.neg k ≤ 0) := by
  have hx := h.value
  have hnonneg : (0 : ℝ) ≤ v.term.m * 2 ^ v.term.e := by positivity
  cases hn : v.neg <;> simp only [hn, signR, if_true, if_false, Bool.false_eq_true, one_mul, neg_one_mul] at hx <;>
    simp only [signedOf, if_true, if_false, Bool.false_eq_true]
  · exact ⟨fun _ => Int.natCast_nonneg k, fun hlt => by linarith⟩
  · exact ⟨fun hlt => by linarith, fun _ => by omega⟩

/-- An element in units of 2^l, where its exponent is no smaller. -/
theorem Stands.shifted {l : Int} (hl : l ≤ v.term.e) :
    x = (signedOf v.neg (v.term.m <<< (v.term.e - l).toNat) : ℤ) * 2 ^ l := by
  have hat := term_at_real hl
  rw [Term.real, show v.term.neg = v.neg by cases v <;> rfl, h.value] at hat
  rw [← hat, Term.at, show v.term.neg = v.neg by cases v <;> rfl]
  rfl

end

section
variable {el n : Nat} {uns : Bool} {codes : List Nat}

theorem blockInts_special : (blockInts el n uns codes).special =
    codes.any fun c => (elemDecode el uns c).isNan || (elemDecode el uns c).isInf := by
  unfold blockInts
  simp only
  split
  · exact List.any_map
  · split <;> exact List.any_map

theorem blockInts_exact {l : Int} (h : exactL el = some l) : (blockInts el n uns codes).loss = false ∧ (blockInts el n uns codes).l = l ∧
    (blockInts el n uns codes).ints = codes.map fun c =>
      signedOf (elemDecode el uns c).neg ((elemDecode el uns c).term.m <<< ((elemDecode el uns c).term.e - l).toNat) := by
  rw [blockInts, h]
  exact ⟨rfl, rfl, List.map_map⟩

theorem blockInts_zero (h : exactL el = none) (hlogs : (codes.map (elemDecode el uns)).filterMap (elemLog (elemFmt el)) = []) :
    (blockInts el n uns codes).loss = false ∧ (blockInts el n uns codes).ints = codes.map fun _ => 0 := by
  unfold elemLog at hlogs
  simp only [blockInts, h, hlogs, List.map_map, true_and]
  rfl

theorem blockInts_aligned (h : exactL el = none) {a : Int} {t : List Int}
    (hlogs : (codes.map (elemDecode el uns)).filterMap (elemLog (elemFmt el)) = a :: t) :
    let r := blockInts el n uns codes
    r.l = t.foldl max a - n + 1 ∧
      (r.ints = codes.map fun c => signedOf (elemDecode el uns c).neg (alignedMag r.l (elemDecode el uns c))) ∧
      r.loss = codes.any fun c => !((elemDecode el uns c).isNan || (elemDecode el uns c).isInf) && !(elemDecode el uns c).isZero &&
        alignedMag r.l (elemDecode el uns c) == 0 := by
  unfold elemLog at hlogs
  simp only [blockInts, h, hlogs, List.map_map, List.any_map, true_and]
  exact ⟨rfl, rfl⟩

section
variable (hel : el ≤ 6) (hfin : ∀ c ∈ codes, ¬ OperandSpecial el c)
include hel hfin

theorem stands_getD {k : Nat} (hk : k < codes.length) :
    Stands (elemDecode el uns (codes.getD k 0)) (operandValue el uns (codes.getD k 0)) :=
  (elemDecode_stands hel (hfin _ (getD_mem hk))).1

theorem blockInts_not_special : (blockInts el n uns codes).special = false := by
  rw [blockInts_special, List.any_eq_false]
  intro c hc
  rw [(elemDecode_stands hel (hfin c hc)).1.finite]
  exact Bool.false_ne_true

/-- R97: the exact formats lose nothing. -/
theorem blockInts_value {l : Int} (h : exactL el = some l) {k : Nat} (hk : k < codes.length) :
    operandValue el uns (codes.getD k 0) = ((blockInts el n uns codes).ints.getD k 0 : ℤ) * 2 ^ l := by
  obtain ⟨-, -, hints⟩ := blockInts_exact (n := n) (uns := uns) (codes := codes) h
  rw [hints, getD_map_of_lt _ hk 0]
  obtain ⟨hs, hl⟩ := elemDecode_stands (uns := uns) hel (hfin _ (getD_mem hk))
  exact hs.shifted (hl l h)

/-- A block has exponents where it has nonzero elements. -/
theorem logs_eq_nil_iff : (codes.map (elemDecode el uns)).filterMap (elemLog (elemFmt el)) = [] ↔
    ∀ k, k < codes.length → operandValue el uns (codes.getD k 0) = 0 := by
  rw [List.filterMap_eq_nil_iff, List.forall_mem_map, forall_mem_iff_getD]
  exact forall₂_congr fun k hk => (stands_getD hel hfin hk).elemLog_eq_none_iff _

/-- R98: where every element is zero, so is every integer. -/
theorem blockInts_of_zero (h : exactL el = none) (hzero : ∀ k, k < codes.length → operandValue el uns (codes.getD k 0) = 0) :
    (∀ k, (blockInts el n uns codes).ints.getD k 0 = 0) ∧ (blockInts el n uns codes).loss = false := by
  obtain ⟨hloss, hints⟩ := blockInts_zero (n := n) h ((logs_eq_nil_iff hel hfin).mpr hzero)
  refine ⟨fun k => ?_, hloss⟩
  rw [hints, List.map_const', List.getD_eq_getElem?_getD, List.getElem?_getD_replicate_default_eq]

/-- R98: the exponent of a block is the greatest that an element asks for. -/
theorem block_binade {a : Int} {t : List Int}
    (hlogs : (codes.map (elemDecode el uns)).filterMap (elemLog (elemFmt el)) = a :: t) :
    (elemFmt el).emin ≤ t.foldl max a ∧
      (∀ k, k < codes.length → |operandValue el uns (codes.getD k 0)| < 2 ^ (t.foldl max a + 1)) ∧
      (t.foldl max a = (elemFmt el).emin ∨
        ∃ k, k < codes.length ∧ (2 : ℝ) ^ t.foldl max a ≤ |operandValue el uns (codes.getD k 0)|) := by
  obtain ⟨hmem, hmax⟩ : t.foldl max a ∈ a :: t ∧ ∀ b ∈ a :: t, b ≤ t.foldl max a :=
    List.max?_eq_some_iff.mp List.max?_cons'
  rw [← hlogs, List.filterMap_map, List.mem_filterMap, exists_mem_iff_getD] at hmem
  obtain ⟨k, hk, hlog⟩ := hmem
  obtain ⟨hmin, -, htop⟩ := (stands_getD hel hfin hk).binade hlog
  refine ⟨hmin, fun i hi => ?_, htop.imp_right fun h => ⟨k, hk, h⟩⟩
  have hs := stands_getD (uns := uns) hel hfin hi
  cases hE : elemLog (elemFmt el) (elemDecode el uns (codes.getD i 0)) with
  | none =>
    rw [(hs.elemLog_eq_none_iff _).mp hE, abs_zero]
    positivity
  | some E =>
    have hle : E ≤ t.foldl max a := hmax E (hlogs ▸ List.mem_filterMap.mpr ⟨_, List.mem_map_of_mem (getD_mem hi), hE⟩)
    exact (hs.binade hE).2.1.trans_le (zpow_le_zpow_right₀ one_le_two (by omega))

/-- R98: each element is rounded to the unit of its block, with its sign. -/
theorem blockInts_rounds (h : exactL el = none) {a : Int} {t : List Int}
    (hlogs : (codes.map (elemDecode el uns)).filterMap (elemLog (elemFmt el)) = a :: t) {k : Nat} (hk : k < codes.length) :
    let r := blockInts el n uns codes
    let v := operandValue el uns (codes.getD k 0)
    RoundsInt 0 False (|v| / 2 ^ r.l) (r.ints.getD k 0).natAbs ∧ (0 < v → 0 ≤ r.ints.getD k 0) ∧ (v < 0 → r.ints.getD k 0 ≤ 0) := by
  obtain ⟨-, hints, -⟩ := blockInts_aligned (n := n) h hlogs
  intro r v
  have hs : Stands _ v := stands_getD hel hfin hk
  rw [hints, getD_map_of_lt _ hk 0, signedOf_natAbs]
  exact ⟨hs.alignedMag_rounds _, hs.signedOf_sign _⟩

/-- R98: a block loses a nonzero element that becomes zero. -/
theorem blockInts_loss (h : exactL el = none) {a : Int} {t : List Int}
    (hlogs : (codes.map (elemDecode el uns)).filterMap (elemLog (elemFmt el)) = a :: t) :
    (blockInts el n uns codes).loss = true ↔
      ∃ k, k < codes.length ∧ operandValue el uns (codes.getD k 0) ≠ 0 ∧ (blockInts el n uns codes).ints.getD k 0 = 0 := by
  obtain ⟨-, hints, hloss⟩ := blockInts_aligned (n := n) h hlogs
  rw [hloss, List.any_eq_true, exists_mem_iff_getD]
  refine exists_congr fun k => and_congr_right fun hk => ?_
  have hs := stands_getD (uns := uns) hel hfin hk
  rw [hs.finite, Bool.not_false, Bool.true_and, Bool.and_eq_true, Bool.not_eq_true', Bool.eq_false_iff, ne_eq, hs.isZero_iff,
    beq_iff_eq, hints, getD_map_of_lt _ hk 0, ← Int.natAbs_eq_zero, signedOf_natAbs]

omit hel hfin in
theorem blockInts_length : (blockInts el n uns codes).ints.length = codes.length := by
  cases h : exactL el with
  | some l => rw [(blockInts_exact h).2.2, List.length_map]
  | none =>
    cases hlogs : (codes.map (elemDecode el uns)).filterMap (elemLog (elemFmt el)) with
    | nil => rw [(blockInts_zero h hlogs).2, List.length_map]
    | cons a t => rw [(blockInts_aligned h hlogs).2.1, List.length_map]

end

end

theorem exactL_eq_none {el : Nat} (h : el = 3 ∨ el = 4 ∨ el = 6) : exactL el = none := by rcases h with rfl | rfl | rfl <;> rfl

/-- R97, R98: what a block's integers say of its elements. -/
theorem blockInts_aligns {el : Nat} (hel : el ≤ 6) (n : Nat) (uns : Bool) (codes : List Nat) :
    Aligns el n uns codes (blockInts el n uns codes) := by
  refine ⟨fun ⟨c, hc, hspecial⟩ => ?_,
    fun hfin => ⟨blockInts_not_special hel hfin, ?_, fun hexact => ?_, fun halign => ⟨?_, fun hne => ?_⟩⟩⟩
  · rw [blockInts_special]
    exact List.any_eq_true.mpr ⟨c, hc, elemDecode_special hel hspecial⟩
  · exact blockInts_length
  · have hl : exactL el = some (if el = 0 then -1 else if el = 1 then -3 else if el = 2 then -4 else -6) := by
      rcases hexact with rfl | rfl | rfl | rfl <;> rfl
    obtain ⟨hloss, hweight, -⟩ := blockInts_exact (n := n) (uns := uns) (codes := codes) hl
    refine ⟨hloss, hweight, fun k hk => ?_⟩
    rw [hweight]
    exact blockInts_value hel hfin hl hk
  · exact blockInts_of_zero hel hfin (exactL_eq_none halign)
  · have h := exactL_eq_none halign
    cases hlogs : (codes.map (elemDecode el uns)).filterMap (elemLog (elemFmt el)) with
    | nil =>
      obtain ⟨k, hk, hv⟩ := hne
      exact absurd ((logs_eq_nil_iff hel hfin).mp hlogs k hk) hv
    | cons a t =>
      have hemin : (elemFmt el).emin = 1 - ((alignedFmt el).bias : ℤ) := by rcases halign with rfl | rfl | rfl <;> rfl
      obtain ⟨hmin, hmax, htop⟩ := block_binade hel hfin hlogs
      rw [hemin] at hmin htop
      exact ⟨t.foldl max a, hmin, hmax, htop, (blockInts_aligned h hlogs).1, fun k hk => blockInts_rounds hel hfin h hlogs hk,
        blockInts_loss hel hfin h hlogs⟩

/-- Settles O35: the elements of a block by their format, the sum added to an accumulator and rounded once, and the NaNs. -/
theorem blockContributions : Obligations.BlockContributions :=
  ⟨fun _ n uns codes hel => blockInts_aligns hel n uns codes, fun acc S e _ => accAdd_accumulates acc S e,
    fun _ _ => ⟨accNan_of_isNan, accNan_of_not_isNan⟩, blockAcc_fst⟩

end Sys2Proof.Claims


/-! ## R87 where a bundle lists a helper among its enabled fibres

`Evaluates` asks of a trap that every fibre of the bundle stands at TRAPVEC. A helper of the list stands at its lead's PC when
the instruction ends (R24), and neither `Ready` nor `MayTrap` says that the listed fibres are live. -/

namespace Sys2Proof.Machine
/-- An instruction that reads no queue changes nothing before it computes. -/
theorem State.popAll_nil (s : State) (c : Cur) (ctl : Ctl) (fs : List Nat) : s.popAll c ctl [] fs = (s, .ok []) := by
  induction fs with
  | nil => rfl
  | cons f t ih =>
    unfold State.popAll
    split
    · exact ih
    · split
      · exact ih
      · exact ih
end Sys2Proof.Machine

namespace Sys2Proof.Claims
open Sys2Proof Sys2Proof.Machine

/-- A fibre of one quad with the quiet bit of v0 clear in a NaN, and the enable of NV set. -/
def snanFibre (live : Bool) (pc : Nat) : Fibre := Fibre.fresh live pc 0 0x1000 [(0, 0x7F800001)] 0

/-- A group whose trap vector is slot 0: fibre 0 leads its quad from slot 1, fibre 1 is a helper, fibre 2 is live. -/
def strayGroup : Group :=
  { probeGroup with
    trapEn := true, fibres := [(0, snanFibre true 12), (1, snanFibre false 0), (2, snanFibre true 0)] }

/-- The bundle of that group's slot 0 that lists the helper beside fibre 2. -/
def strayCur : Cur := ⟨0, 0, 0, 0, [0], [1, 2], 0⟩

/-- The machine in which that bundle issues; slot 0 of its code is a target. -/
def strayState : State :=
  { State.reset with
    cur := some strayCur, groups := [(0, strayGroup)],
    cores := [(0, { Core.empty with icache := [⟨0, 0, 0, makeLine nopSlot nopSlot nopSlot nopSlot nopSlot 0 1, false⟩] })] }

/-- The PC of fibre 1 once an instruction is over. -/
def strayPc (o : Host.Outcome State Fault Refusal) : Option Word :=
  match o with
  | .next t => (t.fibre? 0 1).map (·.pc)
  | _ => none

/-- An instruction issues there with its operands at hand. -/
theorem stray_ready {i : Instr} {h : Shape} (hs : i.shape = some h) (hw : pastWindow h 256 = false) (hq : waitQueuesOf h = [])
    (ho : ∀ f ∈ [1, 2], ∀ b, tfind strayGroup.fibres f = some b → ∃ x, laneOperands strayState strayCur strayGroup h f b = .ok x) :
    Ready i strayState strayState strayCur strayGroup h where
  cur := rfl
  shape := hs
  window := ⟨strayGroup, rfl, hw⟩
  queues := by rw [hq, State.popAll_nil]
  group := rfl
  operands f hf b hb _ := ho f hf b hb

theorem stray_mayTrap : MayTrap strayState strayGroup strayCur.en := by
  refine ⟨rfl, by decide +kernel, fun f hf => ?_⟩
  rcases List.mem_pair.mp hf with rfl | rfl
  · exact ⟨snanFibre false 0, rfl, rfl⟩
  · exact ⟨snanFibre true 0, rfl, rfl⟩

/-- An instruction whose result raises NV in fibre 2 does not trap as R87 is stated: the helper that the bundle lists ends at
its lead's PC, 12. -/
theorem not_evaluates_of_stray {i : Instr} {h : Shape} {x : LaneIn} {m : LaneIn → LaneOut → Prop} (hd : i.decodeTrap = none)
    (hr : Ready i strayState strayState strayCur strayGroup h) (hq : waitQueuesOf h = [])
    (hx : argsOf strayState strayCur strayGroup h 2 (snanFibre true 0) = some x) (hm : ∀ o, m x o → o.flags = 16)
    (hpc : strayPc (exec i strayState) = some 12) : ¬ Evaluates i m := by
  intro he
  obtain ⟨res, hres, -, htrap⟩ := he hd _ _ _ _ _ hr
  have hraises : ¬ NoTrap strayState strayCur strayGroup h res := fun hn => by
    have h0 := hn 2 (snanFibre true 0) x rfl hx rfl
    rw [hm _ (hres x)] at h0
    exact absurd h0 (by decide)
  obtain ⟨t, ht, hent⟩ := htrap hraises hq stray_mayTrap
  obtain ⟨b', hb', hpc'⟩ := hent.fibres 1 (snanFibre false 0) rfl
  rw [if_pos (by decide)] at hpc'
  have h12 : b'.pc = 12 := by
    rw [ht] at hpc
    exact Option.some.inj ((congrArg (Option.map Fibre.pc) hb').symm.trans hpc)
  rw [hpc'] at h12
  exact absurd (show BitVec.ofNat 32 0 = 12#32 from h12) (by decide)

/-- FADD.f32 of v0 and v0 into v1. -/
def strayFadd : CFmt :=
  ⟨⟨⟨false, 15⟩, ⟨false, 0⟩, .single, 0, 0, false, false, 0⟩, ⟨false, false, .vreg, 1⟩, zeroSrc, zeroSrc, zeroSrc, zeroSrc, 0⟩

/-- CVT from .f32 in v0 to .f16 in v1. -/
def strayCvt : CFmt := { strayFadd with sb := ⟨.special, 0, false⟩, md := 0x98 }

theorem isSnan_stray : IsSnan fp32 0x7F800001 := by
  unfold IsSnan IsNan expOf fracOf
  decide

/-- Refutes O13: where a bundle lists a helper, the trap of FADD on a signalling NaN leaves that helper at its lead's PC. -/
theorem not_floatArithmetic : ¬ Obligations.FloatArithmetic := by
  unfold Obligations.FloatArithmetic
  intro h
  refine not_evaluates_of_stray (i := .fadd strayFadd) (by decide)
    (stray_ready rfl (by decide) rfl ?_) rfl rfl ?_ (by decide +kernel) (h _ _ rfl)
  · intro f hf b hb
    exact ⟨_, rfl⟩
  rintro o ⟨r, rfl, hr⟩
  obtain ⟨a, b, rfl, -, hnan, -⟩ := hr 0 (by decide)
  exact (hnan ⟨_, List.mem_cons_self, isSnan_stray.1⟩).2.1 ⟨_, List.mem_cons_self, isSnan_stray⟩

/-- Refutes O15: the same helper stays at its lead's PC where CVT traps on a signalling NaN. -/
theorem not_conversionInstructions : ¬ Obligations.ConversionInstructions := by
  unfold Obligations.ConversionInstructions Claims.Conversions
  rintro ⟨h, -⟩
  refine not_evaluates_of_stray (i := .cvt strayCvt) (by decide)
    (stray_ready rfl (by decide) rfl ?_) rfl rfl ?_ (by decide +kernel) (h _)
  · intro f hf b hb
    exact ⟨_, rfl⟩
  rintro o ⟨-, -, -, hfloat, -⟩
  obtain ⟨a, r, rfl, hconv, rfl⟩ := hfloat (by decide) (by decide) (by decide) (by decide)
  exact (hconv.1 isSnan_stray.1).2.1 ⟨_, List.mem_cons_self, isSnan_stray⟩

end Sys2Proof.Claims


/-! ## Integer, logic, shift and predicate instructions (R105, R111 to R123, R128, R129) -/

namespace Sys2Proof

/-- MOD of an instruction that raises no decode trap holds a value the instruction lists (R63). -/
theorem modBad_of_decodeTrap {i : Instr} {h : Shape} (hs : i.shape = some h) (hd : i.decodeTrap = none) : h.modBad = false := by
  rw [Instr.decodeTrap, hs, Option.bind_some, Shape.verdict] at hd
  split at hd
  · cases hd
  · split at hd
    · cases hd
    · next hmod => exact (Bool.or_eq_false_iff.mp (Bool.not_eq_true _ ▸ hmod)).1

end Sys2Proof

namespace Sys2Proof.Machine

/-! ### Two's complement -/

/-- The low bits of a number, read as two's complement. -/
theorem toSigned_mod (w x : Nat) : toSigned w (x % 2 ^ w) = (BitVec.ofNat w x).toInt := by
  have hmsb : (BitVec.ofNat w x).msb = (x % 2 ^ w).testBit (w - 1) := by
    rw [BitVec.msb_eq_getLsbD_last, ← BitVec.testBit_toNat, BitVec.toNat_ofNat]
  rw [toSigned, BitVec.toInt_eq_msb_cond, hmsb, BitVec.toNat_ofNat, Nat.cast_pow, Nat.cast_ofNat]

/-- Narrowing keeps a word's value. -/
theorem narrow_eq_toNat (w : Nat) (v : Int) : narrow w v = (BitVec.ofInt w v).toNat := by
  rw [narrow, BitVec.toNat_ofInt, Nat.cast_pow, Nat.cast_ofNat]

/-- Narrowing a sign-extended word repeats its sign. -/
theorem narrow_toInt {w m : Nat} (x : BitVec m) : narrow w x.toInt = (x.signExtend w).toNat := narrow_eq_toNat w _

/-! ### Types and Put (R105) -/

theorem tyWidth_cases (t : Nat) : tyWidth t = 8 ∨ tyWidth t = 16 ∨ tyWidth t = 32 ∨ tyWidth t = 64 := by
  have h : t % 4 = 0 ∨ t % 4 = 1 ∨ t % 4 = 2 ∨ t % 4 = 3 := by omega
  rcases h with h | h | h | h <;> simp [tyWidth, h]

theorem tyWidth_le (t : Nat) : tyWidth t ≤ 64 := by have := tyWidth_cases t; omega

theorem tyWidth_pos (t : Nat) : 0 < tyWidth t := by have := tyWidth_cases t; omega

/-- The types of the logic and shift instructions and of BFX are words of 32 or 64 bits. -/
theorem tyWidth_wide {md : BitVec 8} (h : bitsOf md.toNat 7 1 = 1 ∨ bitsOf md.toNat 7 1 = 3) :
    32 ≤ tyWidth (bitsOf md.toNat 2 0) := by
  have h4 : 2 ≤ bitsOf md.toNat 2 0 % 4 := by
    simp only [bitsOf, Nat.shiftRight_eq_div_pow] at *
    omega
  exact Nat.mul_le_mul_left 8 (Nat.pow_le_pow_right Nat.two_pos h4)

theorem logic_wide {md : BitVec 8} (h : (bitsOf md.toNat 7 1 != 1) = false) : 32 ≤ tyWidth (bitsOf md.toNat 2 0) :=
  tyWidth_wide (.inl (bne_eq_false_iff_eq.mp h))

/-- Into a word of 32 or 64 bits Put narrows, and no more. -/
theorem putT_wide {t : Nat} (ht : 32 ≤ tyWidth t) (v : Int) : putT t v = narrow (tyWidth t) v :=
  if_neg fun h => absurd h.1 (Nat.not_lt.mpr ht)

end Sys2Proof.Machine

namespace Sys2Proof.Claims
open Sys2Proof.Machine

/-- Put keeps the low bits and extends a narrower signed type by its sign. -/
theorem written_putT (t : Nat) (v : Int) : Written t v (outVal (putT t v)) := by
  refine ⟨putT t v, rfl, ?_⟩
  have htest (x i : Nat) : (x.testBit i = true) = (x / 2 ^ i % 2 = 1) := by
    rw [Nat.testBit_eq_decide_div_mod_eq, decide_eq_true_eq]
  by_cases hs : tyWidth t < 32 ∧ tySigned t = true
  · rw [if_pos hs]
    have hw : tyWidth t = 8 ∨ tyWidth t = 16 := by have := tyWidth_cases t; omega
    rcases hw with hw | hw <;> simp only [putT, narrow, toSigned, htest, hw, hs.2] <;> norm_num <;> split <;> omega
  · have hput : putT t v = narrow (tyWidth t) v := if_neg fun h => hs ⟨h.1, h.2.1⟩
    rw [if_neg hs, hput]
    refine ⟨?_, narrow_eq_toNat _ v ▸ BitVec.isLt _⟩
    rw [narrow, Int.toNat_of_nonneg (Int.emod_nonneg v (by positivity)), Int.emod_emod]

theorem written_putSat (sat : Bool) (t : Nat) (v : Int) : Written t (clamp sat t v) (outVal (putSat sat t v)) := written_putT t _

theorem written_mulHalf (hi : Bool) (t : Nat) (p : Int) :
    Written t (p / if hi then 2 ^ tyWidth t else 1) (outVal (mulHalf hi t p)) := by
  have h : (p / if hi then 2 ^ tyWidth t else 1) = if hi then p.fdiv (2 ^ tyWidth t) else p := by
    cases hi
    · exact Int.ediv_one p
    · exact (Int.fdiv_eq_ediv_of_nonneg p (by positivity)).symm
  rw [h]
  exact written_putT t _

/-- An instruction whose fibres each compute `res`, which raises no flag. -/
theorem computes_of_laneStep {i : Instr} {m : LaneIn → LaneOut → Prop} {res : LaneIn → LaneOut}
    (hexec : ∀ s, exec i s = laneStep i s res) (hflags : ∀ x, (res x).flags = 0)
    (hm : i.decodeTrap = none → ∀ x, m x (res x)) : Computes i m := by
  intro hd s u c g h hr
  obtain ⟨t, ht, hends, hcap⟩ := laneStep_ready hr res fun f b x _ _ _ => by rw [hflags, Nat.and_zero]
  exact ⟨t, res, hm hd, (hexec s).trans ht, hends, hcap⟩

/-- R111 to R115: each result is the exact value, put into the type. -/
theorem integerArithmetic : IntegerArithmetic := by
  intro i m h
  cases i with
  | iadd f | iaddImm f | isub f | imad f =>
    cases h
    exact computes_of_laneStep (fun _ => rfl) (fun _ => rfl) fun _ _ => written_putSat ..
  | imul f | imulImm f =>
    cases h
    exact computes_of_laneStep (fun _ => rfl) (fun _ => rfl) fun _ _ => written_mulHalf ..
  | imadw f | imin f | imax f =>
    cases h
    exact computes_of_laneStep (fun _ => rfl) (fun _ => rfl) fun _ _ => written_putT ..
  | iabs f =>
    cases h
    refine computes_of_laneStep (fun _ => rfl) (fun _ => rfl) fun _ x => ?_
    rw [Int.abs_eq_natAbs]
    exact written_putSat ..
  | _ => cases h

/-! ### Words bit by bit (R116 to R121, R123) -/

theorem bits_of_testBit {w y : Nat} {b : Nat → Bool} (hy : y < 2 ^ w) (hb : ∀ j, j < w → y.testBit j = b j) :
    Bits w b (outVal y) :=
  ⟨y, rfl, hy, hb⟩

section
variable {t : Nat} {b : Nat → Bool}

/-- A number that Put narrows to a word of 32 or 64 bits. -/
theorem bits_putT (ht : 32 ≤ tyWidth t) (v : Int)
    (hb : ∀ j, j < tyWidth t → (BitVec.ofInt (tyWidth t) v).getLsbD j = b j) : Bits (tyWidth t) b (outVal (putT t v)) := by
  rw [putT_wide ht, narrow_eq_toNat]
  exact bits_of_testBit (BitVec.isLt _) hb

theorem bits_logicOut (ht : 32 ≤ tyWidth t) {r : Nat} (hb : ∀ j, j < tyWidth t → r.testBit j = b j) :
    Bits (tyWidth t) b (logicOut t r) :=
  bits_putT ht r fun j hj => by
    rw [BitVec.ofInt_natCast, BitVec.getLsbD_ofNat, hb j hj, decide_eq_true hj, Bool.true_and]

end

end Sys2Proof.Claims

namespace Sys2Proof.Machine

theorem testBit_natT {t j : Nat} (hj : j < tyWidth t) (x : Nat) : (natT t x).testBit j = x.testBit j := by
  rw [natT, Nat.testBit_mod_two_pow, decide_eq_true hj, Bool.true_and]

theorem testBit_natT_eq (t x j : Nat) : (natT t x).testBit j = (decide (j < tyWidth t) && x.testBit j) :=
  Nat.testBit_mod_two_pow ..

theorem testBit_complIf {w j : Nat} (hj : j < w) (c : Bool) (x : Nat) : (complIf c w x).testBit j = (x.testBit j ^^ c) := by
  have hlow : (x % 2 ^ w).testBit j = x.testBit j := by rw [Nat.testBit_mod_two_pow, decide_eq_true hj, Bool.true_and]
  cases c with
  | false => rw [complIf, if_neg Bool.false_ne_true, hlow, Bool.xor_false]
  | true =>
    rw [complIf, if_pos rfl, Nat.sub_sub, Nat.add_comm 1, Nat.testBit_two_pow_sub_succ (Nat.mod_lt x (by positivity)), hlow,
      decide_eq_true hj, Bool.true_and, Bool.xor_true]

theorem testBit_extImm_true {j : Nat} (hj : j < 64) (imm : BitVec 32) : (extImm true imm).testBit j = Claims.immBit imm j := by
  rw [extImm, if_pos rfl, narrow_toInt, BitVec.testBit_toNat, BitVec.getLsbD_signExtend, decide_eq_true hj, Bool.true_and]
  rfl

theorem bitsNat_eq_bitsOfFn (g : Nat → Bool) (m : Nat) : bitsNat g m = bitsOfFn m g := by
  induction m with
  | zero => rfl
  | succ m ih =>
    rw [bitsNat, bitsOfFn_succ, ih]
    cases g m <;> simp

theorem testBit_bitsNat {g : Nat → Bool} {m j : Nat} (h : j < m) : (bitsNat g m).testBit j = g j := by
  rw [bitsNat_eq_bitsOfFn, testBit_bitsOfFn g h]

theorem bitsNat_lt (g : Nat → Bool) (m : Nat) : bitsNat g m < 2 ^ m := by
  rw [bitsNat_eq_bitsOfFn]
  exact bitsOfFn_lt m g

/-- The ones of the low bits, counted. -/
theorem popCount_natT (t x : Nat) : popCount (tyWidth t) (natT t x) = (List.range (tyWidth t)).countP x.testBit := by
  have hcount (n : Nat) : onesBelow n x = (List.range n).countP x.testBit := by
    induction n with
    | zero => rfl
    | succ n ih =>
      rw [onesBelow_succ, ih, List.range_succ, List.countP_append, List.countP_singleton]
      cases x.testBit n <;> rfl
  rw [popCount, onesBelow_congr fun i hi => testBit_natT hi x, hcount]

end Sys2Proof.Machine

namespace Sys2Proof.Claims
open Sys2Proof.Machine

/-- R116: the bits of each word, combined. -/
theorem logicBits : LogicBits := by
  intro i m h
  cases i with
  | and f | or f | xor f | andn f =>
    cases h
    refine computes_of_laneStep (fun _ => rfl) (fun _ => rfl) fun hd x => ?_
    have ht : 32 ≤ tyWidth f.ty := logic_wide (modBad_of_decodeTrap rfl hd)
    exact bits_logicOut ht fun j hj => by simp [testBit_complIf hj]
  | andImm f | orImm f | xorImm f =>
    cases h
    refine computes_of_laneStep (fun _ => rfl) (fun _ => rfl) fun hd x => ?_
    have ht : 32 ≤ tyWidth f.ty := logic_wide (modBad_of_decodeTrap rfl hd)
    have himm {j : Nat} (hj : j < tyWidth f.ty) : (extImm true f.imm).testBit j = immBit f.imm j :=
      testBit_extImm_true (hj.trans_le (tyWidth_le _)) f.imm
    exact bits_logicOut ht fun j hj => by simp [testBit_complIf hj, testBit_natT hj, himm hj]
  | _ => cases h

/-! ### Shifts (R117, R118) -/

section
variable {t : Nat} (ht : 32 ≤ tyWidth t) (a b n : Nat)
include ht

theorem bits_shl : Bits (tyWidth t) (fun j => decide (n ≤ j) && a.testBit (j - n))
    (logicOut t (if tyWidth t ≤ n then 0 else natT t a <<< n)) := by
  refine bits_logicOut ht fun j hj => ?_
  split
  · next hn => simp [show ¬ n ≤ j by omega]
  · rw [Nat.testBit_shiftLeft, testBit_natT (Nat.sub_lt_of_lt hj)]

theorem bits_shr : Bits (tyWidth t) (fun j => decide (n + j < tyWidth t) && a.testBit (n + j))
    (logicOut t (if tyWidth t ≤ n then 0 else natT t a >>> n)) := by
  refine bits_logicOut ht fun j hj => ?_
  split
  · next hn => simp [show ¬ n + j < tyWidth t by omega]
  · rw [Nat.testBit_shiftRight, testBit_natT_eq]

theorem bits_sar : Bits (tyWidth t) (fun j => a.testBit (min (n + j) (tyWidth t - 1)))
    (outVal (putT t (toSigned (tyWidth t) (natT t a) >>> min n (tyWidth t - 1)))) := by
  refine bits_putT ht _ fun j hj => ?_
  rw [natT, toSigned_mod, ← BitVec.sshiftRight, BitVec.getLsbD_sshiftRight, BitVec.msb_eq_getLsbD_last]
  by_cases h : min n (tyWidth t - 1) + j < tyWidth t
  · rw [if_pos h, BitVec.getLsbD_ofNat, show min (n + j) (tyWidth t - 1) = min n (tyWidth t - 1) + j by omega]
    simp [h, hj]
  · rw [if_neg h, BitVec.getLsbD_ofNat, show min (n + j) (tyWidth t - 1) = tyWidth t - 1 by omega]
    simp [hj, tyWidth_pos]

theorem bits_fshl (hn : n < tyWidth t) :
    Bits (tyWidth t) (fun j => if n ≤ j then a.testBit (j - n) else b.testBit (tyWidth t + j - n))
      (logicOut t (((natT t a * 2 ^ tyWidth t + natT t b) <<< n) >>> tyWidth t)) := by
  refine bits_logicOut ht fun j hj => ?_
  have hb : natT t b < 2 ^ tyWidth t := Nat.mod_lt b (by positivity)
  rw [Nat.testBit_shiftRight, Nat.testBit_shiftLeft, Nat.mul_comm, decide_eq_true (by omega), Bool.true_and,
    Nat.testBit_two_pow_mul_add _ hb]
  by_cases h : n ≤ j
  · rw [if_pos h, if_neg (by omega), show tyWidth t + j - n - tyWidth t = j - n by omega, testBit_natT (by omega)]
  · rw [if_neg h, if_pos (by omega), testBit_natT (by omega)]

/-! ### Fields and counts (R119 to R121) -/

/-- A field of `m` bits from bit `p` on, which BFX extends by its own sign in a signed type. -/
theorem bits_field (bit : Nat → Bool) (p m : Nat) :
    Bits (tyWidth t) (fun j => if j < m then bit (p + j) else decide (0 < m) && tySigned t && bit (p + m - 1))
      (outVal (putT t (if tySigned t ∧ 0 < m then toSigned m (bitsNat (fun i => bit (p + i)) m)
        else bitsNat (fun i => bit (p + i)) m))) := by
  refine bits_putT ht _ fun j hj => ?_
  set g : Nat → Bool := fun i => bit (p + i) with hg
  have hlow {k : Nat} (hk : k < m) : (BitVec.ofNat m (bitsNat g m)).getLsbD k = g k := by
    rw [BitVec.getLsbD_ofNat, testBit_bitsNat hk, decide_eq_true hk, Bool.true_and]
  split
  · next h =>
    obtain ⟨hsigned, hpos⟩ := h
    rw [← Nat.mod_eq_of_lt (bitsNat_lt g m), toSigned_mod, ← BitVec.signExtend, BitVec.getLsbD_signExtend,
      BitVec.msb_eq_getLsbD_last, hlow (Nat.sub_one_lt_of_lt hpos), hsigned, decide_eq_true hj, decide_eq_true hpos]
    by_cases hjm : j < m
    · rw [if_pos hjm, if_pos hjm, hlow hjm, Bool.true_and]
    · rw [if_neg hjm, if_neg hjm, Nat.add_sub_assoc hpos]
      rfl
  · next h =>
    rw [BitVec.ofInt_natCast, BitVec.getLsbD_ofNat]
    by_cases hjm : j < m
    · simp [hj, hjm, testBit_bitsNat, hg]
    · have hz : (bitsNat g m).testBit j = false :=
        Nat.testBit_lt_two_pow ((bitsNat_lt g m).trans_le (Nat.pow_le_pow_right (by decide) (by omega)))
      have hs : (decide (0 < m) && tySigned t) = false := by
        rw [Bool.and_comm]
        exact Bool.eq_false_iff.mpr fun h' => h (by simpa using h')
      simp [hjm, hz, hs]

end

/-- CLZ: the bits above the highest one are zero. -/
theorem clz_counts (t a : Nat) : ∃ n,
    outVal (if natT t a = 0 then tyWidth t else tyWidth t - 1 - Nat.log2 (natT t a)) = { val := some n } ∧ n ≤ tyWidth t ∧
      (∀ j, tyWidth t - n ≤ j → j < tyWidth t → a.testBit j = false) ∧
      (n < tyWidth t → a.testBit (tyWidth t - n - 1) = true) := by
  refine ⟨_, rfl, ?_⟩
  split
  · next h0 =>
    exact ⟨le_rfl, fun j _ hj => by rw [← testBit_natT hj, h0, Nat.zero_testBit], fun h => absurd h (Nat.lt_irrefl _)⟩
  · next h0 =>
    have hlog : Nat.log2 (natT t a) < tyWidth t := (Nat.log2_lt h0).mpr (Nat.mod_lt a (by positivity))
    refine ⟨by omega, fun j hlo hj => ?_, fun _ => ?_⟩
    · rw [← testBit_natT hj]
      exact Nat.testBit_lt_two_pow (Nat.lt_log2_self.trans_le (Nat.pow_le_pow_right (by decide) (by omega)))
    · rw [show tyWidth t - (tyWidth t - 1 - Nat.log2 (natT t a)) - 1 = Nat.log2 (natT t a) by omega, ← testBit_natT hlog]
      exact Nat.testBit_log2 h0

/-- R117 to R121: the bits that a shift, a field or a reversal moves, and the counts. -/
theorem shiftAndFieldBits : ShiftAndFieldBits := by
  intro i m h
  cases i with
  | shl f =>
    cases h
    exact computes_of_laneStep (fun _ => rfl) (fun _ => rfl) fun hd x =>
      bits_shl (logic_wide (modBad_of_decodeTrap rfl hd)) ..
  | shr f =>
    cases h
    exact computes_of_laneStep (fun _ => rfl) (fun _ => rfl) fun hd x =>
      bits_shr (logic_wide (modBad_of_decodeTrap rfl hd)) ..
  | sar f =>
    cases h
    exact computes_of_laneStep (fun _ => rfl) (fun _ => rfl) fun hd x =>
      bits_sar (logic_wide (modBad_of_decodeTrap rfl hd)) ..
  | fshl f =>
    cases h
    exact computes_of_laneStep (fun _ => rfl) (fun _ => rfl) fun hd x =>
      bits_fshl (logic_wide (modBad_of_decodeTrap rfl hd)) _ _ _ (Nat.mod_lt _ (tyWidth_pos _))
  | bfx f =>
    cases h
    refine computes_of_laneStep (fun _ => rfl) (fun _ => rfl) fun hd x => ?_
    have hmod : bitsOf f.md.toNat 7 1 = 1 ∨ bitsOf f.md.toNat 7 1 = 3 := by
      simpa [shapeC, or_iff_not_imp_left] using modBad_of_decodeTrap rfl hd
    exact bits_field (tyWidth_wide hmod) (bfxBit f.ty x.a) ..
  | bfi f =>
    cases h
    exact computes_of_laneStep (fun _ => rfl) (fun _ => rfl) fun hd x =>
      bits_logicOut (logic_wide (modBad_of_decodeTrap rfl hd)) fun j hj => testBit_bitsNat hj
  | brev f =>
    cases h
    exact computes_of_laneStep (fun _ => rfl) (fun _ => rfl) fun hd x =>
      bits_logicOut (logic_wide (modBad_of_decodeTrap rfl hd)) fun j hj => testBit_bitsNat hj
  | popc f =>
    cases h
    exact computes_of_laneStep (fun _ => rfl) (fun _ => rfl) fun _ x => congrArg outVal (popCount_natT f.ty x.a)
  | clz f =>
    cases h
    exact computes_of_laneStep (fun _ => rfl) (fun _ => rfl) fun _ x => clz_counts f.ty x.a
  | _ => cases h

/-- Settles O1: each lane computes the exact value that Put narrows, or a word given bit by bit. -/
theorem integerInstructions : Obligations.IntegerInstructions := ⟨integerArithmetic, logicBits, shiftAndFieldBits⟩

/-! ### Comparisons and predicate words (R122, R128, R129) -/

theorem compareT_iff {cond : Nat} (h : cond ≤ 5) (x y : Int) : compareT cond x y = true ↔ Holds cond x y := by
  rcases cond with _ | _ | _ | _ | _ | _ | n
  · simp [compareT, Holds]
  · simp [compareT, Holds]
  · simp [compareT, Holds]
  · simp [compareT, Holds]
  · simp [compareT, Holds]
  · simp [compareT, Holds]
  · omega

theorem combineT_eq {comb : Nat} (h : comb < 4) (c g : Bool) : combineT comb c g = combined comb c g := by
  rcases comb with _ | _ | _ | _ | n
  · rfl
  · rfl
  · rfl
  · rfl
  · omega

/-- A condition that ISET lists. -/
theorem cond_le {md : Nat} {b : Bool} (h : (decide (5 < bitsOf md 5 3) || b) = false) : bitsOf md 5 3 ≤ 5 :=
  Nat.not_lt.mp (of_decide_eq_false (Bool.or_eq_false_iff.mp h).1)

end Sys2Proof.Claims

namespace Sys2Proof.Machine

/-- The predicate word: p0 to p15 in its low bits, p15 true. -/
theorem testBit_predWord (b : Fibre) (j : Nat) : b.predWord.testBit j = (decide (j < 16) && b.p j) := by
  have hlow : b.preds.toNat % 2 ^ 15 < 2 ^ 15 := Nat.mod_lt _ (by decide)
  have h := Nat.testBit_two_pow_mul_add 1 hlow j
  rw [Nat.mul_one, Nat.add_comm] at h
  rw [Fibre.predWord, h, Fibre.p]
  rcases Nat.lt_trichotomy j 15 with hj | rfl | hj
  · rw [if_pos hj, Nat.testBit_mod_two_pow, BitVec.testBit_toNat]
    simp [hj, show j < 16 by omega, show j ≠ 15 by omega]
  · rfl
  · rw [if_neg (by omega), Nat.testBit_lt_two_pow (Nat.one_lt_two_pow (by omega))]
    simp [show ¬ j < 16 by omega]

theorem predWord_lt (b : Fibre) : b.predWord < 2 ^ 32 := by
  have hlow : b.preds.toNat % 2 ^ 15 < 2 ^ 15 := Nat.mod_lt _ (by decide)
  rw [Fibre.predWord]
  omega

theorem complIf_lt (c : Bool) (w x : Nat) : complIf c w x < 2 ^ w := by
  have hpos := Nat.two_pow_pos w
  have hlt := Nat.mod_lt x hpos
  rw [complIf]
  split <;> omega

end Sys2Proof.Machine

namespace Sys2Proof.Claims
open Sys2Proof.Machine

/-- P2V: the predicate word, or the bits of it that a mask selects. -/
theorem bits_p2v (md : Nat) (x : LaneIn) :
    Bits 32 (fun j =>
        let w := decide (j < 16) && x.b.p j
        if md.testBit 0 then (x.a.testBit j && !x.bb.testBit j) || (w && x.bb.testBit j) else w)
      (outVal (if md.testBit 0 then (complIf true 32 (x.bb % 2 ^ 32) &&& x.a) ||| (x.b.predWord &&& (x.bb % 2 ^ 32))
        else x.b.predWord)) := by
  cases md.testBit 0 with
  | false => exact bits_of_testBit (predWord_lt x.b) fun j _ => testBit_predWord x.b j
  | true =>
    refine bits_of_testBit (Nat.or_lt_two_pow (Nat.and_le_left.trans_lt (complIf_lt ..))
      (Nat.and_le_left.trans_lt (predWord_lt x.b))) fun j hj => ?_
    have hmask : (x.bb % 2 ^ 32).testBit j = x.bb.testBit j := by
      rw [Nat.testBit_mod_two_pow, decide_eq_true hj, Bool.true_and]
    simp only [Nat.testBit_or, Nat.testBit_and, testBit_complIf hj, testBit_predWord, hmask, Bool.xor_true, if_true]
    rw [Bool.and_comm (!x.bb.testBit j)]

/-- Settles O2: the conditions of Table 7.6, and the predicate word bit by bit. -/
theorem comparesAndPredicates : Obligations.ComparesAndPredicates := by
  intro i m h
  cases i with
  | iset f =>
    cases h
    refine computes_of_laneStep (fun _ => rfl) (fun _ => rfl) fun hd x => ⟨_, compareT_iff ?_ .., ?_⟩
    · exact Nat.not_lt.mp (of_decide_eq_false (modBad_of_decodeTrap rfl hd))
    · have hcomb : bitsOf f.md.toNat 7 6 < 4 := Nat.mod_lt _ (by decide)
      exact congrArg outPred (combineT_eq hcomb ..)
  | isetImm f =>
    cases h
    exact computes_of_laneStep (fun _ => rfl) (fun _ => rfl) fun hd x =>
      ⟨_, compareT_iff (cond_le (modBad_of_decodeTrap rfl hd)) .., rfl⟩
  | sel f =>
    cases h
    refine computes_of_laneStep (fun _ => rfl) (fun _ => rfl) fun hd x =>
      bits_logicOut (logic_wide (modBad_of_decodeTrap rfl hd)) fun j hj => ?_
    split <;> exact testBit_natT hj _
  | p2v f =>
    cases h
    exact computes_of_laneStep (fun _ => rfl) (fun _ => rfl) fun _ x => bits_p2v f.md.toNat x
  | plop f | v2p f | nop f =>
    cases h
    exact computes_of_laneStep (fun _ => rfl) (fun _ => rfl) fun _ _ => rfl
  | _ => cases h

end Sys2Proof.Claims


/-! ## Transfers (R132, R133) -/

namespace Sys2Proof.Machine

/-- The result that the list of results holds for a fibre. -/
theorem find_outsOf (u : State) (c : Cur) (g : Group) (h : Shape) (res : LaneIn → LaneOut) (f : Nat) :
    ((outsOf u c g h res).find? fun o => o.1 == f) = (resultOf u c g h res f).map (f, ·) := by
  cases hr : resultOf u c g h res f with
  | none =>
    refine List.find?_eq_none.mpr fun o ho hf => ?_
    rw [← beq_iff_eq.mp hf, mem_outsOf.mp ho] at hr
    cases hr
  | some r =>
    cases hfind : (outsOf u c g h res).find? fun o => o.1 == f with
    | none => exact absurd (beq_self_eq_true f) (List.find?_eq_none.mp hfind _ (mem_outsOf.mpr hr))
    | some o =>
      obtain ⟨f', r'⟩ := o
      obtain rfl : f' = f := beq_iff_eq.mp (List.find?_some hfind :)
      rw [mem_outsOf.mp (List.mem_of_find?_eq_some hfind)] at hr
      exact congrArg (fun x => some (f', x)) (Option.some.inj hr)

/-- Operands are those of a fibre that executes. -/
theorem mem_executing_of_argsOf {u : State} {c : Cur} {g : Group} {h : Shape} {f : Nat} {b : Fibre} {x : LaneIn}
    (hx : argsOf u c g h f b = some x) : f ∈ g.executing c := by
  unfold argsOf at hx
  split at hx
  · next hc => exact hc.1
  · cases hx

/-- A fibre acts if it is live and executes with its guard true. -/
theorem acting_iff {u : State} {c : Cur} {g : Group} {h : Shape} {f : Nat} : Claims.acting u c g h f = true ↔
    ∃ b x, tfind g.fibres f = some b ∧ b.live = true ∧ argsOf u c g h f b = some x := by
  rw [Claims.acting]
  cases tfind g.fibres f <;> simp [Option.isSome_iff_exists]

theorem mem_actors_iff {u : State} {c : Cur} {g : Group} {h : Shape} {f : Nat} :
    f ∈ Claims.actors u c g h ↔ Claims.acting u c g h f = true := by
  rw [Claims.actors, List.mem_filter, and_iff_right_of_imp]
  intro ha
  obtain ⟨b, x, -, -, hx⟩ := acting_iff.mp ha
  exact mem_executing_of_argsOf hx

end Sys2Proof.Machine

namespace Sys2Proof.Claims
open Sys2Proof.Machine

/-- A transfer whose fibres agree where UNI asks it, to valid targets: each fibre goes to its own. -/
theorem transfer_eq {u : State} {c : Cur} {g : Group} {h : Shape} (target : LaneIn → Nat) {uni : Bool} (link : Bool)
    (hagree : uni = true → Agree (nextOf target u c g h) c)
    (hvalid : ∀ f ∈ actors u c g h, u.validTarget g (nextOf target u c g h f) = true) :
    transfer u c g h (g.executing c) (outsOf u c g h fun x => outVal (target x)) uni link =
      u.retireTo c g h (g.executing c) (outsOf u c g h fun _ => { val := if link then some (seqPc c.pc) else none })
        (nextOf target u c g h) := by
  unfold transfer
  extract_lets takes next same outs
  have htakes : takes = actors u c g h := liveOf_outsOf
  have hnext : next = nextOf target u c g h := funext fun f => by
    simp only [next, htakes, find_outsOf, resultOf, nextOf]
    cases hb : tfind g.fibres f with
    | none => rfl
    | some b => cases hx : argsOf u c g h f b <;> cases hl : b.live <;> simp [mem_actors_iff, acting_iff, hb, hx, hl, outVal]
  have hsame : ¬ (uni && !same) = true := by
    rw [Bool.and_eq_true, Bool.not_eq_true', Bool.eq_false_iff]
    rintro ⟨huni, hn⟩
    refine hn (List.all_eq_true.mpr fun f hf => beq_iff_eq.mpr ?_)
    obtain ⟨x, rest, hen⟩ := List.exists_cons_of_ne_nil (List.ne_nil_of_mem hf)
    rw [hnext]
    exact hagree huni f hf _ (by rw [hen]; exact List.mem_cons_self)
  have hbad : (takes.filter fun f => !u.validTarget g (next f)) = [] :=
    List.filter_eq_nil_iff.mpr fun f hf => by rw [hnext, hvalid f (htakes ▸ hf)]; decide
  have houts : outs = outsOf u c g h fun _ => { val := if link then some (seqPc c.pc) else none } :=
    outsOf_map fun o => { o with val := if link then some (seqPc c.pc) else none }
  rw [if_neg hsame, hbad, hnext, houts]

/-- An instruction that transfers its fibres. -/
theorem transfer_exec {i : Instr} {s u : State} {c : Cur} {g : Group} {h : Shape} {target : LaneIn → Nat} {uni link : Bool}
    (hr : Ready i s u c g h) (hagree : uni = true → Agree (nextOf target u c g h) c)
    (hvalid : ∀ f ∈ actors u c g h, u.validTarget g (nextOf target u c g h f) = true)
    (hexec : exec i s = withLanes i s (fun x => outVal (target x)) fun s c g h ex outs => transfer s c g h ex outs uni link) :
    ∃ t, exec i s = .next t ∧
      Ends u t c g h (fun _ => { val := if link then some (seqPc c.pc) else none }) (nextOf target u c g h) ∧
      Captured u t c g h (fun _ => { val := if link then some (seqPc c.pc) else none }) := by
  rw [hexec, withLanes_ready hr, transfer_eq target link hagree hvalid]
  exact ⟨_, rfl, retireTo_ends _ _, retireTo_captured _ _⟩

/-- Settles O5: BRA, BRX, CALL and RET are transfers to the targets of their operands. -/
theorem transfers : Obligations.Transfers := by
  intro i s u c g h target uni link hr ht hagree hvalid
  have htarget (f : BFmt) : targetOf s f = slotPc (f.target c.pc) := by rw [targetOf, hr.cur]; rfl
  cases i with
  | bra f | call f =>
    cases ht
    refine transfer_exec hr hagree hvalid ?_
    rw [← htarget]
    rfl
  | brx f | ret f =>
    cases ht
    exact transfer_exec hr hagree hvalid rfl
  | _ => cases ht

end Sys2Proof.Claims


/-! ## RETIRE, YIELD and NAP (R22, R136, R137) -/

namespace Sys2Proof.Machine

/-! ### Tables changed entry by entry -/

section
variable {α : Type}

theorem mem_of_tfind {t : Tab α} {k : Nat} {a : α} (h : tfind t k = some a) : (k, a) ∈ t := by
  induction t with
  | nil => cases h
  | cons p t ih =>
    obtain ⟨i, w⟩ := p
    rw [tfind_cons] at h
    split at h
    · next he =>
      cases h
      exact he ▸ List.mem_cons_self
    · exact List.mem_cons_of_mem _ (ih h)

/-- Entries of a list of keys, each changed in a way that a second time does not change it again. -/
theorem tfind_foldl_tmod_idem {F : Nat → α → α} (hF : ∀ k a, F k (F k a) = F k a) (l : List Nat) {t : Tab α} {k : Nat}
    {a : α}
    (h : tfind t k = some a) : tfind (l.foldl (fun t k => tmod t k (F k)) t) k = some (if k ∈ l then F k a else a) := by
  obtain ⟨x, hx, hin, hout, -⟩ := tfind_foldl_tmod l id F k (fun x => x = a) (fun x => x = F k a)
    (fun o _ ho x hx => by
      obtain rfl : o = k := ho
      rcases hx with rfl | rfl
      · rfl
      · exact hF o a) h (.inl rfl)
  refine Eq.trans hx (congrArg some ?_)
  split
  · next hk => exact hin ⟨k, hk, rfl⟩
  · next hk => exact hout fun o ho he => hk (he ▸ ho)

/-- A test that does not see the change of an entry. -/
theorem any_tmod {q : α → Bool} {F : α → α} (hF : ∀ a, q (F a) = q a) (t : Tab α) (k : Nat) :
    (tmod t k F).any (fun p => q p.2) = t.any fun p => q p.2 := by
  have hset {a : α} (ha : tfind t k = some a) : (tset t k (F a)).any (fun p => q p.2) = t.any fun p => q p.2 := by
    induction t with
    | nil => cases ha
    | cons p t ih =>
      obtain ⟨i, w⟩ := p
      have hmem := mem_of_tfind ha
      rw [tfind_cons] at ha
      rw [tset]
      split
      · rw [List.any_cons, hF]
        exact Bool.or_eq_right_iff_imp.mpr fun hq => List.any_eq_true.mpr ⟨_, hmem, hq⟩
      · split
        · next he =>
          rw [if_pos he] at ha
          cases ha
          rw [List.any_cons, List.any_cons, hF]
        · next he =>
          rw [if_neg he] at ha
          rw [List.any_cons, List.any_cons, ih ha]
  rw [tmod]
  split
  · next a ha => exact hset ha
  · rfl

/-- What every entry is, and the change of one keeps. -/
theorem forall_tmod {P : α → Prop} {F : α → α} (hF : ∀ a, P a → P (F a)) {t : Tab α} (h : ∀ p ∈ t, P p.2)
    (k : Nat) :
    ∀ p ∈ tmod t k F, P p.2 := by
  have hset {v : α} (hv : P v) : ∀ p ∈ tset t k v, P p.2 := by
    induction t with
    | nil => exact List.forall_mem_singleton.mpr hv
    | cons e t ih =>
      obtain ⟨he, ht⟩ := List.forall_mem_cons.mp h
      rw [tset]
      split
      · exact List.forall_mem_cons.mpr ⟨hv, h⟩
      · split
        · exact List.forall_mem_cons.mpr ⟨hv, ht⟩
        · exact List.forall_mem_cons.mpr ⟨he, ih ht⟩
  rw [tmod]
  split
  · next a ha => exact hset (hF a (h _ (mem_of_tfind ha)))
  · exact h

/-- A property of a table that every change of the list keeps. -/
theorem foldl_keeps {β : Type} {P : Tab α → Prop} {f : Tab α → β → Tab α}
    (hf : ∀ t x, P t → P (f t x)) (l : List β) {t : Tab α} (h : P t) : P (l.foldl f t) := by
  induction l generalizing t with
  | nil => exact h
  | cons x l ih => exact ih (hf t x h)

end

/-! ### Fibres that move -/

/-- A property of a group's fibres that does not see where they stand. -/
def PcBlind (P : Tab Fibre → Prop) : Prop :=
  ∀ t k (F : Fibre → Fibre), (∀ b, F b = { b with pc := (F b).pc }) → P t → P (tmod t k F)

theorem moveTo_keeps {P : Tab Fibre → Prop} (hP : PcBlind P) (g : Group) (fibs : List Nat) (pcOf : Nat → Nat)
    (h : P g.fibres) : P (g.moveTo fibs pcOf).fibres :=
  foldl_keeps (fun t f => hP t f _ fun _ => rfl) fibs h

theorem alignHelpers_keeps {P : Tab Fibre → Prop} (hP : PcBlind P) (g : Group) (quads : List Nat) (h : P g.fibres) :
    P (g.alignHelpers quads).fibres := by
  refine foldl_keeps (fun t q ht => ?_) quads h
  split
  · split
    · exact foldl_keeps (fun t i => hP t _ _ fun b => by split <;> rfl) _ ht
    · exact ht
  · exact ht

/-- Whether fibres are live, and that none waits at a convergence point. -/
theorem pcBlind_live_waiting (v : Bool) : PcBlind fun t => (t.any fun p => p.2.live) = v ∧ ∀ p ∈ t, p.2.waiting = none := by
  rintro t k F hF ⟨hlive, hwait⟩
  refine ⟨?_, forall_tmod (P := fun b : Fibre => b.waiting = none) (fun b hb => by rw [hF b]; exact hb) hwait k⟩
  rw [any_tmod (q := fun b : Fibre => b.live) fun b => by rw [hF b]]
  exact hlive

/-! ### Where nothing waits, nothing converges -/

section
variable {g : Group} (h : ∀ p ∈ g.fibres, p.2.waiting = none)
include h

theorem Group.kept_nil : g.kept = [] := by
  refine List.filterMap_eq_nil_iff.mpr fun p _ => ?_
  cases hf : p.2.head?.bind (tfind g.fibres) with
  | none => rfl
  | some b =>
    obtain ⟨f, -, hb⟩ := Option.bind_eq_some_iff.mp hf
    rw [Option.bind_some, h _ (mem_of_tfind hb)]
    rfl

theorem Group.pickIn_none (ready : Fibre → Bool) (lo n : Nat) : g.pickIn ready lo n = none := by
  unfold Group.pickIn
  split
  · rfl
  · unfold pickExec
    split
    · rfl
    · next p l hl =>
      have hp : p ∈ g.fibres := List.mem_of_mem_filter (show p ∈ g.liveIn lo n by rw [hl]; exact List.mem_cons_self)
      split
      · rw [h p hp]
        rfl
      · rfl

theorem Group.execs_nil : g.execs = [] := by
  unfold Group.execs
  rw [Group.kept_nil h, List.nil_append]
  refine List.flatMap_eq_nil_iff.mpr fun r _ => ?_
  simp [Group.pickIn_none h]

end

theorem State.converge_none {s : State} {gid : Nat} {g : Group} (hg : s.group? gid = some g)
    (h : ∀ p ∈ g.fibres, p.2.waiting = none) : s.converge gid = s := by
  rw [State.converge, State.convergeFuel, hg]
  simp only [Group.execs_nil h, State.firstExec, ite_self]

/-! ### RETIRE (R22, R136) -/

/-- A fibre that has ended (R22). -/
def Fibre.retired (b : Fibre) : Fibre :=
  { b with live := false, card0 := [], card1 := [], card2 := [], cmd := [], park := .none, popped := QReads.none }

theorem Group.retireFibres_find (g : Group) (fibs : List Nat) {f : Nat} {b : Fibre} (h : tfind g.fibres f = some b) :
    tfind (g.retireFibres fibs).fibres f = some (if f ∈ fibs then b.retired else b) :=
  tfind_foldl_tmod_idem (F := fun _ => Fibre.retired) (fun _ _ => rfl) fibs h

theorem Group.retireFibres_waiting {g : Group} (fibs : List Nat) (h : ∀ p ∈ g.fibres, p.2.waiting = none) :
    ∀ p ∈ (g.retireFibres fibs).fibres, p.2.waiting = none :=
  foldl_keeps (P := fun t : Tab Fibre => ∀ p ∈ t, p.2.waiting = none)
    (fun _ f ht => forall_tmod (P := fun b : Fibre => b.waiting = none) (fun _ _ => rfl) ht f) fibs h

/-- The group after some fibres have ended: with its last one, it remembers where (R23). -/
def Group.afterRetire (g : Group) (c : Cur) (who : List Nat) : Group :=
  let g' := g.retireFibres who
  if g'.fibres.any fun p => p.2.live then g' else { g' with lastRetire := some (c.pc, maskOf c.quads who, who.headD 0) }

theorem Group.afterRetire_fibres (g : Group) (c : Cur) (who : List Nat) :
    (g.afterRetire c who).fibres = (g.retireFibres who).fibres := by
  unfold Group.afterRetire
  dsimp only
  split <;> rfl

theorem Group.afterRetire_rest (g : Group) (c : Cur) (who : List Nat) :
    g.afterRetire c who = { g with fibres := (g.afterRetire c who).fibres, lastRetire := (g.afterRetire c who).lastRetire } := by
  unfold Group.afterRetire
  dsimp only
  split <;> rfl

theorem Group.afterRetire_lastRetire (g : Group) (c : Cur) (who : List Nat) :
    (g.afterRetire c who).lastRetire = if (g.afterRetire c who).fibres.any (fun p => p.2.live) = true then g.lastRetire
      else some (c.pc, maskOf c.quads who, who.headD 0) := by
  rw [Group.afterRetire_fibres]
  unfold Group.afterRetire
  dsimp only
  split <;> rfl

/-- RETIRE with its guard at hand: the acting fibres end, the others pass. -/
theorem execRetire_ready {f : CFmt} {s u : State} {c : Cur} {g : Group} {h : Shape} (hr : Ready (.retire f) s u c g h) :
    exec (.retire f) s = .next ((u.retireTo c (g.afterRetire c (Claims.actors u c g h)) h
      ((g.executing c).filter fun x => !(Claims.actors u c g h).contains x) [] fun _ => seqPc c.pc).converge c.gid) := by
  rw [show exec (.retire f) s = execRetire f s from rfl, execRetire, withLanes_ready hr]
  simp only [liveOf_outsOf]
  rfl

end Sys2Proof.Machine

namespace Sys2Proof.Claims
open Sys2Proof.Machine

/-- R136: the acting fibres end and the others pass; nothing waits, so nothing converges. -/
theorem retireEnds : RetireEnds := by
  intro f s u c g h hr hconv
  let who := actors u c g h
  let g' := g.afterRetire c who
  let rest := (g.executing c).filter fun x => !who.contains x
  let gt := (g'.moveTo rest fun _ => seqPc c.pc).alignHelpers c.quads
  have honly := u.retireTo_only c g' h rest [] fun _ => seqPc c.pc
  have hgt : (u.retireTo c g' h rest [] fun _ => seqPc c.pc).group? c.gid = some gt :=
    (honly.group_setGroup c.gid).trans (if_pos rfl)
  have hblind := pcBlind_live_waiting (g'.fibres.any fun p => p.2.live)
  have hwait : ∀ p ∈ g'.fibres, p.2.waiting = none := by
    rw [show g'.fibres = _ from g.afterRetire_fibres c who]
    exact Group.retireFibres_waiting who hconv
  obtain ⟨hlive, hnone⟩ := alignHelpers_keeps hblind _ c.quads
    (moveTo_keeps hblind g' rest (fun _ => seqPc c.pc) ⟨rfl, hwait⟩)
  refine ⟨_, gt, execRetire_ready hr, ?_, ?_, ?_, fun x b hb => ?_⟩
  · exact (congrArg (State.group? · c.gid) (State.converge_none hgt hnone)).trans hgt
  · exact congrArg (fun y : Group => { y with fibres := gt.fibres }) (g.afterRetire_rest c who)
  · refine (g.afterRetire_lastRetire c who).trans ?_
    rw [← hlive, ← List.not_any_eq_all_not]
    cases gt.fibres.any fun p => p.2.live <;> rfl
  · have hx := g.retireFibres_find who hb
    rw [← g.afterRetire_fibres c who] at hx
    obtain ⟨pc, hb', hpc⟩ := State.retireTo_fibre (u := u) (c := c) (g := g') (h := h) (ex := rest) (outs := [])
      (pcOf := fun _ => seqPc c.pc) hx
    rw [State.fibre_of_group hgt] at hb'
    have hmem : x ∈ who ↔ acting u c g h x = true := mem_actors_iff
    refine ⟨_, hb', ?_⟩
    cases hact : acting u c g h x with
    | true =>
      rw [if_pos (hmem.mpr hact)]
      exact ⟨(Bool.and_false b.live).symm, fun _ => ⟨rfl, rfl, rfl, rfl⟩, fun hn => absurd hn (by decide), rfl⟩
    | false =>
      have hn : x ∉ who := fun hw => Bool.false_ne_true (hact.symm.trans (hmem.mp hw))
      rw [if_neg hn] at hpc ⊢
      refine ⟨(Bool.and_true b.live).symm, fun ht => absurd ht (by decide), fun _ => ⟨rfl, fun hl => ?_⟩, rfl⟩
      have hrest : x ∈ rest ↔ x ∈ g.executing c := by simp [rest, hn]
      simpa only [hrest, passes] using hpc hl

end Sys2Proof.Claims

namespace Sys2Proof.Machine

/-! ### Fibres that park (R137) -/

/-- Fibres of a group parked, each as `p` says. -/
def Group.parkEach (g : Group) (fs : List Nat) (p : Nat → Park) : Group :=
  { g with fibres := fs.foldl (fun t f => tmod t f fun b => { b with park := p f }) g.fibres }

theorem Group.rest_trans {a b c : Group} (hb : b = { a with fibres := b.fibres }) (hc : c = { b with fibres := c.fibres }) :
    c = { a with fibres := c.fibres } := by
  rw [hc, hb]

theorem Group.moveTo_rest (g : Group) (fs : List Nat) (pcOf : Nat → Nat) :
    g.moveTo fs pcOf = { g with fibres := (g.moveTo fs pcOf).fibres } := rfl

theorem Group.parkEach_rest (g : Group) (fs : List Nat) (p : Nat → Park) :
    g.parkEach fs p = { g with fibres := (g.parkEach fs p).fibres } := rfl

theorem Group.writeOuts_rest (g : Group) (h : Shape) (outs : List (Nat × LaneOut)) :
    g.writeOuts h outs = { g with fibres := (g.writeOuts h outs).fibres } := rfl

theorem Group.parkEach_find (g : Group) (fs : List Nat) (p : Nat → Park) {f : Nat} {b : Fibre} (h : tfind g.fibres f = some b) :
    tfind (g.parkEach fs p).fibres f = some { b with park := if f ∈ fs then p f else b.park } := by
  refine (tfind_foldl_tmod_idem (F := fun f (b : Fibre) => { b with park := p f }) (fun _ _ => rfl) fs h).trans ?_
  split <;> rfl

theorem State.modGroup_setGroup (s : State) (gid : Nat) (g : Group) (F : Group → Group) :
    (s.setGroup gid g).modGroup gid F = s.setGroup gid (F g) := by
  unfold State.modGroup State.setGroup tmod
  simp only [tfind_tset, if_true, tset_tset]

theorem State.park_setGroup (s : State) (gid : Nat) (g : Group) (fs : List Nat) (p : Park) :
    (s.setGroup gid g).park gid fs p = s.setGroup gid (g.parkEach fs fun _ => p) := s.modGroup_setGroup gid g _

/-- Fibres parked one after another until some cycles from now. -/
theorem State.foldl_park_nap (s : State) (gid k : Nat) (n : Nat → Nat) (fs : List Nat) (g : Group) :
    fs.foldl (fun s x => s.park gid [x] (.nap (s.cycleOf k + n x))) (s.setGroup gid g) =
      s.setGroup gid (g.parkEach fs fun x => .nap (s.cycleOf k + n x)) := by
  induction fs generalizing g with
  | nil => rfl
  | cons x t ih =>
    rw [List.foldl_cons, State.park_setGroup]
    exact ih _

end Sys2Proof.Machine

namespace Sys2Proof.Claims
open Sys2Proof.Machine

section
variable {u : State} {c : Cur} {g : Group} {h : Shape}

/-- The executing fibres pass the instruction without a result, then some of them park. -/
theorem passes_parkEach (fs : List Nat) (p : Nat → Park) {new : Nat → Fibre → Fibre}
    (hnew : ∀ f b, tfind g.fibres f = some b → new f b = { b with park := if f ∈ fs then p f else b.park }) :
    Passes u ((u.setGroup c.gid
      (((g.writeOuts h (outsOf u c g h fun _ => {})).advance (g.executing c) c.pc).parkEach fs p)).finish c) c g new := by
  have honly := State.finish_setGroup (c := c) (SlicesOnly.refl (u.setGroup c.gid
      (((g.writeOuts h (outsOf u c g h fun _ => {})).advance (g.executing c) c.pc).parkEach fs p)))
  have hrest := Group.rest_trans (Group.rest_trans (Group.rest_trans (Group.writeOuts_rest g h (outsOf u c g h fun _ => {}))
    (Group.moveTo_rest _ (g.executing c) fun _ => seqPc c.pc)) (Group.parkEach_rest _ fs p)) (alignHelpers_rest _ c.quads)
  refine ⟨fibresOnly_of hrest honly, fun f b hb => ?_⟩
  obtain ⟨q, hq⟩ := writeOuts_empty (u := u) (c := c) (h := h) hb
  obtain ⟨pc, hpc, hl⟩ := alignHelpers_find _ c.quads f _
    (Group.parkEach_find _ fs p (moveTo_find _ (g.executing c) (fun _ => seqPc c.pc) f _ hq))
  refine ⟨_, honly.fibre_setGroup.trans hpc, ?_, fun hlive => hl hlive⟩
  rw [hnew f b hb]

end

/-- R137: YIELD. -/
theorem yieldParks : YieldParks := by
  intro f s u c g h hr
  have hexec : exec (.yieldI f) s = .next ((u.setGroup c.gid
      (((g.writeOuts h (outsOf u c g h fun _ => {})).advance (g.executing c) c.pc).parkEach (actors u c g h)
        fun _ => .yielded)).finish c) := by
    rw [show exec (.yieldI f) s = execYieldI f s from rfl, execYieldI, withLanes_ready hr]
    simp only [liveOf_outsOf, State.park_setGroup]
  refine ⟨_, hexec, passes_parkEach _ _ fun x b _ => ?_⟩
  simp only [mem_actors_iff]
  split <;> rfl

/-- NAP's count in a fibre that acts. -/
def napOf (u : State) (c : Cur) (g : Group) (h : Shape) (f : Nat) : Nat :=
  ((resultOf u c g h (fun x => outVal (napCount x)) f).bind (·.val)).getD 0

/-- NAP parks the acting fibres whose counts are not zero. -/
theorem execNap_ready {f : CFmt} {s u : State} {c : Cur} {g : Group} {h : Shape} (hr : Ready (.nap f) s u c g h) :
    exec (.nap f) s = .next ((u.setGroup c.gid
      (((g.writeOuts h (outsOf u c g h fun _ => {})).advance (g.executing c) c.pc).parkEach
        ((actors u c g h).filter fun x => napOf u c g h x != 0) fun x => .nap (u.cycleOf c.k + napOf u c g h x))).finish c) := by
  have hcount (x : Nat) : (((outsOf u c g h fun x => outVal (min (x.a % 2 ^ 32) 1048576)).find? fun o => o.1 == x).bind
      fun o => o.2.val).getD 0 = napOf u c g h x := by
    rw [find_outsOf, napOf, Option.bind_map]
    rfl
  have hplain := outsOf_map (u := u) (c := c) (g := g) (h := h) (res := fun x => outVal (min (x.a % 2 ^ 32) 1048576))
    fun o => { o with val := none }
  rw [show exec (.nap f) s = execNap f s from rfl, execNap, withLanes_ready hr]
  simp only [liveOf_outsOf, hcount, hplain]
  rw [State.foldl_park_nap]
  rfl

/-- R137: NAP. -/
theorem napParks : NapParks := by
  intro f s u c g h hr
  refine ⟨_, execNap_ready hr, passes_parkEach _ _ fun x b hb => ?_⟩
  cases hact : acting u c g h x with
  | false => simp [List.mem_filter, mem_actors_iff, hact]
  | true =>
    obtain ⟨b', a, hb', -, ha⟩ := acting_iff.mp hact
    obtain rfl : b = b' := Option.some.inj (hb.symm.trans hb')
    have hn : napOf u c g h x = napCount a := by rw [napOf, resultOf, hb, Option.bind_some, ha]; rfl
    by_cases h0 : napCount a = 0 <;> simp [List.mem_filter, mem_actors_iff, hact, ha, hn, h0]

/-- Settles O10: the acting fibres end, or park behind the next slot. -/
theorem retireYieldNap : Obligations.RetireYieldNap := ⟨retireEnds, yieldParks, napParks⟩

end Sys2Proof.Claims


/-! ## Moves, LEA and the reads of special registers (R124 to R127, R130, R138, R318) -/

namespace Sys2Proof.Machine

/-! ### What queue reads leave (R272, R302, R339) -/

/-- From `s` to `t` only queue reads are made: what buffer entries and contexts say stays. -/
structure ReadsQueues (s t : State) : Prop where
  rest : t = { s with groups := t.groups, cores := t.cores }
  bufs : ∀ k, (t.core k).bufs = (s.core k).bufs
  vf : ∀ j, (t.group? j).map (·.vf) = (s.group? j).map (·.vf)

theorem ReadsQueues.refl (s : State) : ReadsQueues s s := ⟨rfl, fun _ => rfl, fun _ => rfl⟩

theorem ReadsQueues.trans {s t u : State} (h1 : ReadsQueues s t) (h2 : ReadsQueues t u) : ReadsQueues s u where
  rest := by rw [h2.rest, h1.rest]
  bufs k := (h2.bufs k).trans (h1.bufs k)
  vf j := (h2.vf j).trans (h1.vf j)

theorem State.modCore_readsQueues (s : State) (k : Nat) (F : Core → Core) (hF : ∀ x, (F x).bufs = x.bufs) :
    ReadsQueues s (s.modCore k F) where
  rest := rfl
  bufs j := by
    rw [State.core_modCore]
    split
    · next h => rw [hF, h]
    · rfl
  vf _ := rfl

theorem State.modGroup_readsQueues (s : State) (gid : Nat) {F : Group → Group} (hF : ∀ g, (F g).vf = g.vf) :
    ReadsQueues s (s.modGroup gid F) where
  rest := rfl
  bufs _ := rfl
  vf j := by
    rw [State.group_modGroup]
    split
    · next h =>
      subst h
      cases s.group? gid with
      | none => rfl
      | some g => exact congrArg some (hF g)
    · rfl

theorem State.modFibre_readsQueues (s : State) (gid f : Nat) (F : Fibre → Fibre) : ReadsQueues s (s.modFibre gid f F) :=
  s.modGroup_readsQueues gid fun _ => rfl

theorem State.park_readsQueues (s : State) (gid : Nat) (fs : List Nat) (p : Park) : ReadsQueues s (s.park gid fs p) :=
  s.modGroup_readsQueues gid fun _ => rfl

theorem State.popQueue_readsQueues (s : State) (k gid f n q : Nat) : ReadsQueues s (s.popQueue k gid f n q).1 := by
  unfold State.popQueue
  dsimp only
  split
  · split
    · split
      · dsimp only
        exact s.modCore_readsQueues k _ fun _ => rfl
      · dsimp only
        exact s.modCore_readsQueues k _ fun _ => rfl
    · split
      · exact .refl s
      · dsimp only
        exact s.modCore_readsQueues k _ fun _ => rfl
  · split
    · exact .refl s
    · split
      · dsimp only
        exact s.modCore_readsQueues k _ fun _ => rfl
      · dsimp only
        exact s.modCore_readsQueues k _ fun _ => rfl

theorem State.popFibre_readsQueues (s : State) (k gid f : Nat) (qs : List (Nat × Nat)) :
    ReadsQueues s (s.popFibre k gid f qs).1 := by
  induction qs generalizing s with
  | nil => exact .refl s
  | cons p t ih =>
    obtain ⟨q, n⟩ := p
    have hq := s.popQueue_readsQueues k gid f n q
    unfold State.popFibre
    split
    · next s1 w he =>
      rw [he] at hq
      exact (hq.trans (s1.modFibre_readsQueues gid f _)).trans (ih _)
    · next s1 he =>
      rw [he] at hq
      exact hq
    · next s1 q1 he =>
      rw [he] at hq
      have ht := hq.trans (ih s1)
      split
      · next s2 he2 => rwa [he2] at ht
      · next s2 r _ he2 => rwa [he2] at ht

theorem State.popAll_readsQueues (s : State) (c : Cur) (ctl : Ctl) (qs fs : List Nat) :
    ReadsQueues s (s.popAll c ctl qs fs).1 := by
  induction fs generalizing s with
  | nil => exact .refl s
  | cons f t ih =>
    unfold State.popAll
    split
    · exact ih s
    · next b _ =>
      split
      · have hf := s.popFibre_readsQueues c.k c.gid f (b.popped.unserved qs)
        split
        · next s1 he => rwa [he] at hf
        · next s1 q he =>
          rw [he] at hf
          have ht := (hf.trans (s1.park_readsQueues c.gid [f] (.queue q))).trans (ih (s1.park c.gid [f] (.queue q)))
          split
          · next s2 w he2 => rwa [he2] at ht
          · exact ht
        · next s1 w he =>
          rw [he] at hf
          exact hf.trans (ih s1)
      · exact ih s

/-- What an instruction at hand has left of the state it issued in: its queue reads. -/
theorem ready_readsQueues {i : Instr} {s u : State} {c : Cur} {g : Group} {h : Shape} (hr : Ready i s u c g h) :
    ReadsQueues s u := by
  have hq := s.popAll_readsQueues c h.ctl (waitQueuesOf h) c.en
  rwa [hr.queues] at hq

/-- An instruction that reads no queue issues in the state it finds. -/
theorem ready_same {i : Instr} {s u : State} {c : Cur} {g : Group} {h : Shape} (hr : Ready i s u c g h)
    (hq : waitQueuesOf h = []) : u = s := by
  have hp := hr.queues
  rw [hq, State.popAll_nil] at hp
  exact (congrArg Prod.fst hp).symm

/-! ### An instruction that writes results and passes -/

section
variable {i : Instr} {s u : State} {c : Cur} {g : Group} {h : Shape}

/-- Where no flag is raised, an instruction that each fibre computes alone writes its results and passes. -/
theorem laneStep_retires (hr : Ready i s u c g h) {res : LaneIn → LaneOut} (hflags : ∀ x, (res x).flags = 0) :
    laneStep i s res = .next (u.retireLanes c g h (g.executing c) (outsOf u c g h res)) := by
  have hno : NoTrap u c g h res := fun f b x _ _ _ => by rw [hflags, Nat.and_zero]
  rw [laneStep, withLanes_ready hr, trapping_nil hno]

/-! ### Special registers (R130, R138, R318) -/

theorem KReg.word_eq (k : KReg) : k.word = Claims.kstate k := by rw [KReg.word, Claims.kstate, Nat.mul_comm]

theorem specialReg_eq {f n v : Nat} {b : Fibre} (hv : Claims.special u g f b n = some v) : u.specialReg g f b n = v := by
  unfold State.specialReg
  split
  case h_20 =>
    unfold Claims.special at hv
    grind [KReg.word_eq]
  all_goals exact Option.some.inj hv

theorem queueStat_eq (k : Nat) (b : Fibre) (q : Nat) : u.queueStat k b q = Claims.queueStatus u k b q := by
  unfold State.queueStat
  dsimp only
  split
  case h_5 h0 h1 h2 h8 => rw [Claims.queueStatus, if_neg h0, if_neg h1, if_neg h2, if_neg h8]
  all_goals rfl

end

/-! ### What the acting fibres' results are -/

section
variable {u : State} {c : Cur} {g : Group} {h : Shape} {res : LaneIn → LaneOut}

theorem of_mem_outsOf {f : Nat} {o : LaneOut} (ho : (f, o) ∈ outsOf u c g h res) :
    ∃ b x, tfind g.fibres f = some b ∧ argsOf u c g h f b = some x ∧ res x = o := by
  rw [mem_outsOf, resultOf] at ho
  obtain ⟨b, hb, hx⟩ := Option.bind_eq_some_iff.mp ho
  obtain ⟨x, hx, hres⟩ := Option.map_eq_some_iff.mp hx
  exact ⟨b, x, hb, hx, hres⟩

/-- The results of the acting fibres, in their order. -/
theorem outsOf_acting : ((outsOf u c g h res).filter fun o => (Claims.actors u c g h).contains o.1) =
    (Claims.actors u c g h).filterMap fun f => (resultOf u c g h res f).map (f, ·) := by
  rw [outsOf_eq, List.filter_filterMap]
  conv_rhs => rw [Claims.actors, ← List.filterMap_eq_filter, List.filterMap_filterMap]
  refine List.filterMap_congr fun f _ => ?_
  have hact : (Claims.actors u c g h).contains f = Claims.acting u c g h f := by
    rw [Bool.eq_iff_iff, List.contains_iff_mem, mem_actors_iff]
  cases hr : resultOf u c g h res f <;> cases ha : Claims.acting u c g h f <;>
    simp [Option.guard, Option.filter, mem_actors_iff, ha, hr]

/-- A value that the acting fibres compute. -/
def laneValue (u : State) (c : Cur) (g : Group) (h : Shape) (v : LaneIn → Nat) (f : Nat) : Nat :=
  ((tfind g.fibres f).bind (argsOf u c g h f)).elim 0 v

theorem laneValue_eq {v : LaneIn → Nat} {f : Nat} {b : Fibre} {x : LaneIn} (hb : tfind g.fibres f = some b)
    (hx : argsOf u c g h f b = some x) : laneValue u c g h v f = v x := by
  rw [laneValue, hb, Option.bind_some, hx]
  rfl

/-- The values that the acting fibres push, in their order. -/
theorem vals_acting (v : LaneIn → Nat) :
    ((outsOf u c g h fun x => outVal (v x)).filter fun o => (Claims.actors u c g h).contains o.1).filterMap
      (fun o => o.2.val.map (o.1, ·)) = (Claims.actors u c g h).map fun f => (f, laneValue u c g h v f) := by
  rw [outsOf_acting, List.filterMap_filterMap, ← List.filterMap_eq_map]
  refine List.filterMap_congr fun f hf => ?_
  obtain ⟨b, x, hb, -, hx⟩ := acting_iff.mp (mem_actors_iff.mp hf)
  rw [Function.comp_apply, resultOf, laneValue_eq hb hx, hb, Option.bind_some, hx]
  rfl

/-- The acting fibres whose results satisfy a test. -/
theorem acting_filter (q : LaneOut → Bool) :
    (((outsOf u c g h res).filter fun o => (Claims.actors u c g h).contains o.1).filter fun o => q o.2).map (·.1) =
      (Claims.actors u c g h).filter fun f => (resultOf u c g h res f).any q := by
  rw [outsOf_acting, List.filter_filterMap, List.map_filterMap, ← List.filterMap_eq_filter]
  refine List.filterMap_congr fun f _ => ?_
  cases hr : resultOf u c g h res f with
  | none => simp [Option.guard, hr]
  | some o => cases hq : q o <;> simp [Option.guard, Option.filter, hr, hq]

end

/-! ### LEA (R126, R127) -/

theorem ReadsQueues.usable {s u : State} (h : ReadsQueues s u) : u.usable = s.usable := by
  rw [h.rest]
  rfl

/-- The check of LEA.chk is the claim's, and queue reads do not change it. -/
theorem leaOk_eq {s u : State} (h : ReadsQueues s u) (k vf ptr : Nat) (n : Int) :
    s.leaOk k vf ptr n = Claims.leaPasses u k vf ptr n := by
  have he (idx : Nat) : u.cachedEntry k vf idx = s.cachedEntry k vf idx := by
    unfold State.cachedEntry Core.bufEntry
    rw [h.bufs]
  unfold State.leaOk Claims.leaPasses
  dsimp only
  rw [he, h.usable, Bool.decide_and, Bool.and_assoc _ (decide (0 ≤ n))]

theorem leaVal_eq (ptr : Nat) (n : Int) : leaVal ptr n = Claims.leaPointer ptr n := by
  rw [leaVal, Claims.leaPointer, ptrIdx, bitsOf, Nat.shiftRight_eq_div_pow]
  rfl

theorem leaOff_eq (md : BitVec 8) (x ptr : Nat) : leaOff md.toNat x ptr = Claims.leaOffset md ptr x := by
  rw [leaOff, Claims.leaOffset, bitsOf, Nat.shiftRight_eq_div_pow]
  rfl

/-- The carry of an offset never reaches the buffer index. -/
theorem ptrIdx_leaPointer (ptr : Nat) (n : Int) : ptrIdx (Claims.leaPointer ptr n) = ptrIdx ptr := by
  rw [ptrIdx, ptrIdx, Claims.leaPointer, bitsOf, bitsOf, Nat.shiftRight_eq_div_pow, Nat.shiftRight_eq_div_pow]
  omega

/-- What LEA computes in a fibre. -/
def leaOut (u : State) (k vf : Nat) (md : BitVec 8) (off : LaneIn → Nat) (x : LaneIn) : LaneOut :=
  let ptr := x.a % 2 ^ 64
  let n := Claims.leaOffset md ptr (off x)
  { val := some (Claims.leaPointer ptr n), p2 := if md.getLsbD 5 then some (Claims.leaPasses u k vf ptr n) else none }

section
variable {i : Instr} {s u : State} {c : Cur} {g : Group} {h : Shape} {md : BitVec 8} {off : LaneIn → Nat} {form : Bool}

/-- No entry of LEA.chk is missing from the core's buffer cache. -/
def LeaCached (u : State) (c : Cur) (g : Group) (h : Shape) : Prop :=
  ∀ f b x, tfind g.fibres f = some b → argsOf u c g h f b = some x →
    ((u.core c.k).bufEntry g.vf (ptrIdx (x.a % 2 ^ 64))).isSome = true

theorem bufMissing_none (hcached : LeaCached u c g h) :
    u.bufMissing c.k g.vf ((outsOf u c g h (leaOut u c.k g.vf md off)).filterMap fun o => o.2.val) = none := by
  rw [State.bufMissing, List.find?_eq_none]
  intro idx hidx
  obtain ⟨p, hp, rfl⟩ := List.mem_map.mp hidx
  obtain ⟨⟨f, o⟩, ho, hv⟩ := List.mem_filterMap.mp hp
  obtain ⟨b, x, hb, hx, rfl⟩ := of_mem_outsOf ho
  cases hv
  rw [ptrIdx_leaPointer, Option.isNone_eq_false_iff.mpr (hcached f b x hb hx)]
  decide

/-- The acting fibres whose check fails. -/
theorem leaFailed_eq :
    (((outsOf u c g h (leaOut u c.k g.vf md off)).filter fun o => (Claims.actors u c g h).contains o.1).filter
      fun o => o.2.p2 == some false).map (·.1) =
    (Claims.actors u c g h).filter fun f => md.getLsbD 5 && ((tfind g.fibres f).bind (argsOf u c g h f)).any fun x =>
      !Claims.leaPasses u c.k g.vf (x.a % 2 ^ 64) (Claims.leaOffset md (x.a % 2 ^ 64) (off x)) := by
  rw [acting_filter fun o => o.p2 == some false]
  refine List.filter_congr fun f _ => ?_
  rw [resultOf]
  cases tfind g.fibres f with
  | none => simp
  | some b =>
    rw [Option.bind_some, Option.bind_some]
    cases argsOf u c g h f b with
    | none => simp
    | some x =>
      simp only [leaOut, Option.map_some, Option.any_some]
      cases md.getLsbD 5 with
      | false => rfl
      | true => cases Claims.leaPasses u c.k g.vf (x.a % 2 ^ 64) (Claims.leaOffset md (x.a % 2 ^ 64) (off x)) <;> rfl

/-- The end of a LEA whose entries are cached: the fibres that fail the check fault, or the instruction passes. -/
def leaEnd (u : State) (c : Cur) (g : Group) (h : Shape) (outs failed : List (Nat × LaneOut)) : State :=
  match failed with
  | [] => u.retireLanes c g h (g.executing c) outs
  | o :: t => u.faultAt c cause.bufBounds (o.1 :: t.map (·.1)) 0 (o.2.val.getD 0)

theorem leaStep_ready (hr : Ready i s u c g h) (hcached : md.getLsbD 5 = true → LeaCached u c g h) :
    leaStep i s md.toNat off form = .next (leaEnd u c g h (outsOf u c g h (leaOut u c.k g.vf md off))
      (if md.getLsbD 5 && !form then
        ((outsOf u c g h (leaOut u c.k g.vf md off)).filter fun o => (Claims.actors u c g h).contains o.1).filter
          fun o => o.2.p2 == some false
      else [])) := by
  have hq := ready_readsQueues hr
  have hk : (s.cur.map (·.k)).getD 0 = c.k := by rw [hr.cur]; rfl
  have hvf : ((s.cur.bind fun c => s.group? c.gid).map (·.vf)).getD 0 = g.vf := by
    rw [hr.cur, Option.bind_some, ← hq.vf, hr.group]
    rfl
  have hmiss : (if md.getLsbD 5 then
      u.bufMissing c.k g.vf ((outsOf u c g h (leaOut u c.k g.vf md off)).filterMap fun o => o.2.val) else none) = none := by
    split
    · next h5 => exact bufMissing_none (hcached h5)
    · rfl
  unfold leaStep
  rw [withLanes_ready hr, hk, hvf]
  simp only [leaOff_eq, leaVal_eq, leaOk_eq hq, BitVec.testBit_toNat, liveOf_outsOf]
  unfold leaOut at hmiss ⊢
  rw [hmiss]
  rfl

end

end Sys2Proof.Machine

namespace Sys2Proof.Claims
open Sys2Proof.Machine

/-- An instruction that writes its results and passes, each result as `m` has it. -/
theorem yields_of_retire {i : Instr} {cond : State → Cur → Group → Shape → Prop}
    {m : State → Cur → Group → LaneIn → LaneOut → Prop}
    (hexec : ∀ s u c g h, Ready i s u c g h → cond u c g h → ∃ res, (∀ x, m u c g x (res x)) ∧
      exec i s = .next (u.retireLanes c g h (g.executing c) (outsOf u c g h res))) : Yields i cond m := by
  intro _ s u c g h hr hc
  obtain ⟨res, hm, he⟩ := hexec s u c g h hr hc
  exact ⟨_, res, hm, he, retireTo_ends res _, retireTo_captured res _⟩

/-- LEA writes the pointer, and the outcome of its check where it has one. -/
theorem leaStep_yields {i : Instr} {md : BitVec 8} {off : LaneIn → Nat} {form : Bool}
    (hexec : ∀ s, exec i s = leaStep i s md.toNat off form) : Yields i (LeaGoes md off form) (leaResult md off) := by
  refine yields_of_retire fun s u c g h hr hgoes => ⟨leaOut u c.k g.vf md off, fun _ => rfl, ?_⟩
  rw [hexec, leaStep_ready hr fun h5 f b x hb hx => (hgoes h5 f b x hb hx).1]
  have hnone : (if md.getLsbD 5 && !form then
      ((outsOf u c g h (leaOut u c.k g.vf md off)).filter fun o => (actors u c g h).contains o.1).filter
        fun o => o.2.p2 == some false
      else []) = [] := by
    split
    · next hchk =>
      obtain ⟨h5, hform⟩ := Bool.and_eq_true_iff.mp hchk
      rw [← List.map_eq_nil_iff (f := fun o => o.1), leaFailed_eq, List.filter_eq_nil_iff]
      intro f hf
      obtain ⟨b, x, hb, hl, hx⟩ := acting_iff.mp (mem_actors_iff.mp hf)
      have hpass := (hgoes h5 f b x hb hx).2 hl (by simpa using hform)
      rw [hb, Option.bind_some, hx, Option.any_some, hpass, Bool.not_true, Bool.and_false]
      decide
    · rfl
  rw [hnone]
  rfl

/-- LEA.chk in its fault form faults the fibres that fail the check. -/
theorem leaStep_faults {i : Instr} {s u : State} {c : Cur} {g : Group} {h : Shape} {md : BitVec 8} {off : LaneIn → Nat}
    {f : Nat} {rest : List Nat} (hr : Ready i s u c g h) (h5 : md.getLsbD 5 = true) (hcached : LeaCached u c g h)
    (hfail : (actors u c g h).filter (fun f => ((tfind g.fibres f).bind (argsOf u c g h f)).any fun x =>
      !leaPasses u c.k g.vf (x.a % 2 ^ 64) (leaOffset md (x.a % 2 ^ 64) (off x))) = f :: rest) :
    ∃ eptr, leaStep i s md.toNat off false = .next (u.faultAt c cause.bufBounds (f :: rest) 0 eptr) := by
  have hfailed := leaFailed_eq (u := u) (c := c) (g := g) (h := h) (md := md) (off := off)
  simp only [h5, Bool.true_and, hfail] at hfailed
  rw [leaStep_ready hr fun _ => hcached, if_pos (by rw [h5]; rfl)]
  obtain ⟨o, t, ho, rfl, rfl⟩ := List.map_eq_cons_iff.mp hfailed
  rw [ho]
  exact ⟨_, rfl⟩

/-- R126: the two forms of LEA.chk that fault. -/
theorem leaBoundsFault : LeaBoundsFault := by
  rintro i md off (⟨f, rfl, hform, rfl, rfl⟩ | ⟨f, rfl, rfl, rfl⟩) h5 s u c g h hr f0 rest hcached hfail
  · have hexec : exec (.lea f) s = leaStep (.lea f) s f.md.toNat LaneIn.bb false := by rw [← hform]; rfl
    rw [hexec]
    exact leaStep_faults hr h5 hcached hfail
  · exact leaStep_faults hr h5 hcached hfail

/-! ### Moves and reads -/

/-- MOVI's immediate is extended as its type has it (R125). -/
theorem extImm_eq_moviValue (f : IFmt) : extImm (f.md == 7) f.imm = moviValue f := by
  unfold extImm moviValue
  by_cases h : f.md = 7
  · rw [if_pos (beq_iff_eq.mpr h), if_pos h, narrow_toInt]
  · rw [if_neg fun e => h (beq_iff_eq.mp e), if_neg h]

theorem moveEnd_register {s : State} {c : Cur} {g : Group} {h : Shape} {ex : List Nat} {outs : List (Nat × LaneOut)} {n : Nat}
    (hk : h.dst.1.kind = .vreg) : moveEnd s c g h ex outs n = s.retireLanes c g h ex outs :=
  if_neg (by rw [hk]; decide)

/-- R124, R125, R126, R130, R138, R318: each instruction writes what it reads and passes. -/
theorem movesAndReads : MovesAndReads := by
  intro i cond m hi
  cases i with
  | mov f =>
    simp only [reading] at hi
    split at hi
    · next hk =>
      cases hi
      refine yields_of_retire fun s u c g h hr _ => ⟨fun x => outVal x.a, fun _ => rfl, ?_⟩
      obtain rfl := Option.some.inj hr.shape
      rw [show exec (.mov f) s = execMov f s from rfl, execMov, withLanes_ready hr, moveEnd_register hk]
    · cases hi
  | movi f =>
    simp only [reading] at hi
    split at hi
    · next hk =>
      cases hi
      refine yields_of_retire fun s u c g h hr _ =>
        ⟨fun _ => outVal (extImm (f.md == 7) f.imm), fun _ => congrArg outVal (extImm_eq_moviValue f), ?_⟩
      obtain rfl := Option.some.inj hr.shape
      rw [show exec (.movi f) s = execMovi f s from rfl, execMovi, withLanes_ready hr, moveEnd_register hk]
    · cases hi
  | lea f | leaImm f =>
    cases hi
    exact leaStep_yields fun _ => rfl
  | mfs f =>
    cases hi
    refine yields_of_retire fun s u c g h hr hst =>
      ⟨fun x => outVal (u.specialReg g x.fib x.b f.md.toNat), fun x v hv => congrArg outVal (specialReg_eq hv), ?_⟩
    obtain rfl := Option.some.inj hr.shape
    obtain rfl := ready_same hr rfl
    have huser : ¬ (f.md.toNat = 0x80 ∧ (!(u.ctx g.vf).steward) = true) := by
      rintro ⟨hmd, hu⟩
      rw [hst (BitVec.eq_of_toNat_eq hmd)] at hu
      exact absurd hu (by decide)
    rw [show exec (.mfs f) u = execMfs f u from rfl, execMfs, withLanes_ready hr, hr.cur, Option.bind_some, hr.group]
    dsimp only
    rw [if_neg fun hn => huser ⟨hn.1, hn.2.1⟩, if_neg huser]
  | time f =>
    cases hi
    refine yields_of_retire fun s u c g h hr _ => ⟨_, fun _ => rfl, ?_⟩
    obtain rfl := Option.some.inj hr.shape
    obtain rfl := ready_same hr rfl
    rw [show exec (.time f) u = execTime f u from rfl, execTime, hr.cur]
    exact laneStep_retires hr fun _ => rfl
  | qstat f =>
    cases hi
    refine yields_of_retire fun s u c g h hr _ => ⟨_, fun x => congrArg outVal (queueStat_eq ..), ?_⟩
    obtain rfl := Option.some.inj hr.shape
    obtain rfl := ready_same hr rfl
    rw [show exec (.qstat f) u = execQstat f u from rfl, execQstat, hr.cur]
    exact laneStep_retires hr fun _ => rfl
  | _ => cases hi

/-- Settles O3: each instruction writes what it reads, and a check that fails faults before anything is written. -/
theorem movesReadsAndLea : Obligations.MovesReadsAndLea := ⟨movesAndReads, leaBoundsFault⟩

end Sys2Proof.Claims


/-! ## Pushes to the card buffers (R124, R125, R273 to R275) -/

namespace Sys2Proof.Machine

/-! ### Card buffers of a fibre -/

theorem Fibre.cardsOnly_setCard (b : Fibre) (q : Nat) (l : List Byte) : Claims.CardsOnly b (b.setCard q l) := by
  rcases q with _ | _ | q <;> rfl

theorem Fibre.cardsOnly_moved {b b1 : Fibre} (h : Claims.CardsOnly b b1) (pc : Word) (p : QReads) :
    Claims.CardsOnly b { b1 with pc := pc, popped := p } := by
  unfold Claims.CardsOnly at h ⊢
  rw [h]

@[simp] theorem Fibre.live_setCard (b : Fibre) (q : Nat) (l : List Byte) : (b.setCard q l).live = b.live := by
  rcases q with _ | _ | q <;> rfl

@[simp] theorem Fibre.pc_setCard (b : Fibre) (q : Nat) (l : List Byte) : (b.setCard q l).pc = b.pc := by
  rcases q with _ | _ | q <;> rfl

/-- Card buffers do not depend on where a fibre stands. -/
theorem Fibre.card_moved (b : Fibre) (pc : Word) (p : QReads) (q : Nat) :
    Fibre.card { b with pc := pc, popped := p } q = b.card q := by
  rcases q with _ | _ | q <;> rfl

theorem Fibre.card_setCard {q q' : Nat} (hq : q ≤ 2) (hq' : q' ≤ 2) (b : Fibre) (l : List Byte) :
    (b.setCard q l).card q' = if q' = q then l else b.card q' := by
  interval_cases q <;> interval_cases q' <;> rfl

theorem Fibre.setCard_setCard (b : Fibre) (q : Nat) (l l' : List Byte) : (b.setCard q l).setCard q l' = b.setCard q l' := by
  rcases q with _ | _ | q <;> rfl

/-! ### Fibres changed in place -/

theorem tfind_foldl_tmod_nodup {α : Type} (F : Nat → α → α) {l : List Nat} (hl : l.Nodup) {t : Tab α} {k : Nat} {a : α}
    (h : tfind t k = some a) : tfind (l.foldl (fun t k => tmod t k (F k)) t) k = some (if k ∈ l then F k a else a) := by
  induction l generalizing t a with
  | nil => exact h
  | cons x l ih =>
    obtain ⟨hx, hl⟩ := List.nodup_cons.mp hl
    have hstep : tfind (tmod t x (F x)) k = some (if x = k then F k a else a) := by
      rw [tfind_tmod]
      split
      · next he => rw [he, h]; rfl
      · exact h
    rw [List.foldl_cons, ih hl hstep]
    by_cases he : x = k
    · subst he
      simp [hx]
    · simp [he, Ne.symm he]

theorem FibresOnly.trans {s t u : State} {gid : Nat} {g g1 : Group} (h1 : FibresOnly s t gid g) (hg : t.group? gid = some g1)
    (h2 : FibresOnly t u gid g1) : FibresOnly s u gid g where
  rest := by rw [h2.rest, h1.rest]
  cores k := by rw [h2.cores k, h1.cores k]
  groups j hj := (h2.groups j hj).trans (h1.groups j hj)
  group := by
    obtain ⟨g', hg', he'⟩ := h1.group
    obtain ⟨g2, hg2, he2⟩ := h2.group
    obtain rfl := Option.some.inj (hg.symm.trans hg')
    exact ⟨g2, hg2, Group.rest_trans he' he2⟩
  bytes a := ⟨(h2.bytes a).1.trans (h1.bytes a).1, (h2.bytes a).2.trans (h1.bytes a).2⟩

/-- Some fibres of a group changed, each in its own way. -/
def Group.modFibres (g : Group) (F : Nat → Fibre → Fibre) (fs : List Nat) : Group :=
  { g with fibres := fs.foldl (fun t f => tmod t f (F f)) g.fibres }

theorem Group.modFibres_find (g : Group) (F : Nat → Fibre → Fibre) {fs : List Nat} (hfs : fs.Nodup) {f : Nat} {b : Fibre}
    (hb : tfind g.fibres f = some b) : tfind (g.modFibres F fs).fibres f = some (if f ∈ fs then F f b else b) :=
  tfind_foldl_tmod_nodup F hfs hb

section
variable {u : State} {gid : Nat} {g : Group} (hg : u.group? gid = some g) (F : Nat → Fibre → Fibre) (fs : List Nat)
include hg

theorem group_foldl_modFibre_same :
    (fs.foldl (fun s f => s.modFibre gid f (F f)) u).group? gid = some (g.modFibres F fs) := by
  rw [State.group_foldl_modFibre, if_pos rfl, hg]
  rfl

theorem foldl_modFibre_only : FibresOnly u (fs.foldl (fun s f => s.modFibre gid f (F f)) u) gid g where
  rest := by rw [State.foldl_modFibre_rest]
  cores k := by rw [State.core_foldl_modFibre]
  groups j hj := by rw [State.group_foldl_modFibre, if_neg (Ne.symm hj)]
  group := ⟨_, group_foldl_modFibre_same hg F fs, rfl⟩
  bytes a := by rw [State.foldl_modFibre_rest]; exact ⟨rfl, rfl⟩

end

/-- Where no result holds a value, each fibre keeps what it is, but for what its queue reads left. -/
theorem writeOuts_plain {g : Group} {h : Shape} {outs : List (Nat × LaneOut)} (hall : ∀ o ∈ outs, o.2 = {})
    {f : Nat} {b : Fibre} (hb : tfind g.fibres f = some b) :
    ∃ p, tfind (g.writeOuts h outs).fibres f = some { b with popped := p } := by
  obtain ⟨x, hx, -, -, hkeep⟩ := tfind_foldl_tmod outs (·.1) (fun o b => b.land h o.2) f
    (fun _ => False) (fun x => ∃ p, x = { b with popped := p })
    (fun o ho _ x hx => by
      obtain ⟨p, rfl⟩ := hx.resolve_left id
      rw [hall o ho, Fibre.land_empty]
      exact ⟨_, rfl⟩) hb (.inr ⟨b.popped, rfl⟩)
  obtain ⟨p, rfl⟩ := hkeep ⟨b.popped, rfl⟩
  exact ⟨p, hx⟩

theorem outsOf_empty {u : State} {c : Cur} {g : Group} {h : Shape} : ∀ o ∈ outsOf u c g h fun _ => {}, o.2 = {} := by
  rintro ⟨f, o⟩ ho
  obtain ⟨-, -, -, -, he⟩ := of_mem_outsOf ho
  exact he.symm

section
variable {u : State} {c : Cur} {g : Group} {h : Shape} {ex : List Nat} {outs : List (Nat × LaneOut)}

/-- The end of an instruction changes its group in its fibres alone. -/
theorem retireLanes_only : FibresOnly u (u.retireLanes c g h ex outs) c.gid g :=
  fibresOnly_of
    (Group.rest_trans (Group.rest_trans (Group.writeOuts_rest g h outs) (Group.moveTo_rest ..)) (alignHelpers_rest ..))
    (u.retireTo_only c g h ex outs fun _ => seqPc c.pc)

/-- An instruction without results leaves each fibre as it is, but for its PC and what its queue reads left. -/
theorem retireLanes_plain (hall : ∀ o ∈ outs, o.2 = {}) {f : Nat} {b : Fibre} (hb : tfind g.fibres f = some b) :
    ∃ pc p, (u.retireLanes c g h ex outs).fibre? c.gid f = some { b with pc := pc, popped := p } ∧
      (b.live = true → pc = if f ∈ ex then BitVec.ofNat 32 (seqPc c.pc) else b.pc) := by
  obtain ⟨p, hp⟩ := writeOuts_plain (h := h) hall hb
  obtain ⟨pc, hpc, hl⟩ := State.retireTo_fibre (u := u) (c := c) (ex := ex) (pcOf := fun _ => seqPc c.pc) hp
  exact ⟨pc, p, hpc, hl⟩

end

/-! ### MOV, MOVI and QWR to a card buffer -/

section
variable {i : Instr} {s u : State} {c : Cur} {g : Group} {h : Shape} {n : Nat} {v : LaneIn → Nat}

/-- A push ends as MOV does, with its own number of bytes and value. -/
theorem push_exec (hp : Claims.pushOf i = some (n, v)) (hr : Ready i s u c g h) :
    exec i s = .next (moveEnd u c g h (g.executing c) (outsOf u c g h fun x => outVal (v x)) n) := by
  have hregs (md : BitVec 8) : 4 * tyRegs (bitsOf md.toNat 2 0) = if md.toNat % 4 = 3 then 8 else 4 := by
    have hmod : bitsOf md.toNat 2 0 % 4 = md.toNat % 4 := Nat.mod_mod_of_dvd _ (by decide)
    rw [tyRegs, hmod]
    split <;> rfl
  cases i with
  | mov f =>
    cases hp
    have hn : 4 * (if f.md.toNat.testBit 3 then 4 else tyRegs f.ty) =
        if f.md.getLsbD 3 then 16 else if f.md.toNat % 4 = 3 then 8 else 4 := by
      rw [← hregs, BitVec.testBit_toNat]
      split <;> rfl
    rw [← hn, show exec (.mov f) s = execMov f s from rfl, execMov, withLanes_ready hr]
  | movi f =>
    cases hp
    rw [← hregs, show exec (.movi f) s = execMovi f s from rfl, execMovi, withLanes_ready hr, Claims.extImm_eq_moviValue]
    rfl
  | qwr f =>
    cases hp
    rw [show exec (.qwr f) s = execQwr f s from rfl, execQwr, withLanes_ready hr]
  | _ => cases hp

/-- A fibre that pushes `n` bytes of its value to a card buffer. -/
def pushed (u : State) (c : Cur) (g : Group) (h : Shape) (q n : Nat) (v : LaneIn → Nat) (f : Nat) (b : Fibre) : Fibre :=
  b.setCard q (b.card q ++ leBytes n (laneValue u c g h v f))

/-- After the pushes of the acting fibres, a fibre differs in the bytes that it pushed. -/
theorem cards_pushed {q f : Nat} {b : Fibre} (hq : q ≤ 2) (hb : tfind g.fibres f = some b) :
    let b1 := if f ∈ Claims.actors u c g h then pushed u c g h q n v f b else b
    Claims.CardsOnly b b1 ∧ b1.live = b.live ∧ b1.pc = b.pc ∧ ∀ q', q' ≤ 2 → b1.card q' =
      if q' = q ∧ b.live = true then b.card q' ++ ((argsOf u c g h f b).map fun x => leBytes n (v x)).getD []
      else b.card q' := by
  intro b1
  by_cases hact : f ∈ Claims.actors u c g h
  · obtain ⟨b0, x, hb0, hlive, hx⟩ := acting_iff.mp (mem_actors_iff.mp hact)
    obtain rfl : b = b0 := Option.some.inj (hb.symm.trans hb0)
    have hb1 : b1 = b.setCard q (b.card q ++ leBytes n (v x)) := (if_pos hact).trans (by rw [pushed, laneValue_eq hb hx])
    rw [hb1]
    refine ⟨b.cardsOnly_setCard q _, b.live_setCard q _, b.pc_setCard q _, fun q' hq' => ?_⟩
    rw [Fibre.card_setCard hq hq', hx]
    simp only [hlive, and_true]
    split
    · next he => rw [he]; rfl
    · rfl
  · have hb1 : b1 = b := if_neg hact
    rw [hb1]
    refine ⟨rfl, rfl, rfl, fun q' _ => ?_⟩
    split
    · next he =>
      have hx : argsOf u c g h f b = none := Option.eq_none_iff_forall_ne_some.mpr fun x hx =>
        hact (mem_actors_iff.mpr (acting_iff.mpr ⟨b, x, hb, he.2, hx⟩))
      rw [hx]
      exact (List.append_nil _).symm
    · rfl

/-- The fibres whose append would pass 256 bytes. -/
theorem cardOverflows_eq (q : Nat) (val : Nat → Nat) (fs : List Nat) :
    g.cardOverflows q n ((fs.map fun f => (f, val f)).map (·.1)) =
      fs.filter fun f => (tfind g.fibres f).any fun b => decide (256 < (b.card q).length + n) := by
  rw [List.map_map, show (Prod.fst ∘ fun f => (f, val f)) = id from rfl, List.map_id]
  refine List.filter_congr fun f _ => ?_
  cases tfind g.fibres f <;> rfl

/-- A push that fits: the acting fibres append, then all pass. -/
theorem moveEnd_append (hr : Ready i s u c g h) (hk : h.dst.1.kind = .queue) (hq : h.dst.1.num.toNat ≤ 2)
    (hfits : ((Claims.actors u c g h).filter fun f => (tfind g.fibres f).any fun b =>
      decide (256 < (b.card h.dst.1.num.toNat).length + n)) = []) :
    let F := pushed u c g h h.dst.1.num.toNat n v
    moveEnd u c g h (g.executing c) (outsOf u c g h fun x => outVal (v x)) n =
      ((Claims.actors u c g h).foldl (fun s f => s.modFibre c.gid f (F f)) u).retireLanes c
        (g.modFibres F (Claims.actors u c g h)) h (g.executing c) (outsOf u c g h fun _ => {}) := by
  intro F
  have hplain := outsOf_map (u := u) (c := c) (g := g) (h := h) (res := fun x => outVal (v x)) fun o => { o with val := none }
  have hq8 : h.dst.1.num.toNat ≠ 8 := by omega
  have hg := group_foldl_modFibre_same hr.group F (Claims.actors u c g h)
  have hfold : (Claims.actors u c g h).foldl
      (fun s f => s.appendCard c.gid f h.dst.1.num.toNat n (laneValue u c g h v f)) u =
      (Claims.actors u c g h).foldl (fun s f => s.modFibre c.gid f (F f)) u := rfl
  rw [moveEnd, if_pos hk]
  simp only [liveOf_outsOf, vals_acting]
  rw [State.pushAll, if_neg hq8, cardOverflows_eq, hfits]
  simp only [List.foldl_map]
  rw [hplain, hfold, hg]
  rfl

/-- A push that would not fit: the fibres that make it lose their buffer and fault. -/
theorem moveEnd_overflow {f : Nat} {rest : List Nat} (hk : h.dst.1.kind = .queue) (hq : h.dst.1.num.toNat ≤ 2)
    (hbad : ((Claims.actors u c g h).filter fun f => (tfind g.fibres f).any fun b =>
      decide (256 < (b.card h.dst.1.num.toNat).length + n)) = f :: rest) :
    moveEnd u c g h (g.executing c) (outsOf u c g h fun x => outVal (v x)) n =
      ((f :: rest).foldl (fun s f => s.modFibre c.gid f fun b => b.setCard h.dst.1.num.toNat []) u).faultAt c cause.cardFormat
        (f :: rest) 0 0 := by
  have hq8 : h.dst.1.num.toNat ≠ 8 := by omega
  rw [moveEnd, if_pos hk]
  simp only [liveOf_outsOf, vals_acting]
  rw [State.pushAll, if_neg hq8, cardOverflows_eq, hbad]

end

end Sys2Proof.Machine

namespace Sys2Proof.Claims
open Sys2Proof.Machine

/-- R124, R125, R273, R274: the acting fibres append, and every executing fibre passes. -/
theorem cardAppends : CardAppends := by
  intro i n v hp _ s u c g h hr hk hq hnodup hroom
  have hfits : ((actors u c g h).filter fun f => (tfind g.fibres f).any fun b =>
      decide (256 < (b.card h.dst.1.num.toNat).length + n)) = [] := by
    refine List.filter_eq_nil_iff.mpr fun f hf => ?_
    have hact := mem_actors_iff.mp hf
    obtain ⟨b, x, hb, -, -⟩ := acting_iff.mp hact
    rw [hb, Option.any_some, decide_eq_true_iff]
    exact Nat.not_lt.mpr (hroom f b hb hact)
  have hg1 := group_foldl_modFibre_same hr.group (pushed u c g h h.dst.1.num.toNat n v) (actors u c g h)
  have honly1 := foldl_modFibre_only hr.group (pushed u c g h h.dst.1.num.toNat n v) (actors u c g h)
  refine ⟨_, (push_exec hp hr).trans (congrArg _ (moveEnd_append hr hk hq hfits)), honly1.trans hg1 retireLanes_only,
    fun f b hb => ?_⟩
  obtain ⟨hcards, hlive, hpc, hcard⟩ := cards_pushed (u := u) (c := c) (h := h) (n := n) (v := v) hq hb
  have hnodup' : (actors u c g h).Nodup := hnodup.filter _
  obtain ⟨pc, p, hb', hmoved⟩ := retireLanes_plain outsOf_empty (g.modFibres_find _ hnodup' hb)
  refine ⟨_, hb', Fibre.cardsOnly_moved hcards pc p, fun hl => ?_, fun q hq => (Fibre.card_moved ..).trans (hcard q hq)⟩
  rw [hpc] at hmoved
  exact hmoved (hlive.trans hl)

/-- R275: the fibres that would pass 256 bytes lose their buffer and fault. -/
theorem cardOverflow : CardOverflow := by
  intro i n v hp _ s u c g h hr hk hq f rest hbad
  let q := h.dst.1.num.toNat
  let F (_ : Nat) (b : Fibre) : Fibre := b.setCard q []
  refine ⟨_, (push_exec hp hr).trans (congrArg _ (moveEnd_overflow hk hq hbad)), foldl_modFibre_only hr.group F (f :: rest),
    fun f' b hb => ?_⟩
  have hb' := tfind_foldl_tmod_idem (F := F) (fun _ b => b.setCard_setCard q [] []) (f :: rest) hb
  refine ⟨_, (State.fibre_of_group (group_foldl_modFibre_same hr.group F (f :: rest))).trans hb', ?_, fun q' hq' => ?_⟩
  · split
    · exact b.cardsOnly_setCard q []
    · rfl
  · split
    · next hf => simp only [hf, and_true]; exact Fibre.card_setCard hq hq' b []
    · next hf => simp only [hf, and_false, if_false]

/-- Settles O4: a push appends in every acting fibre, or faults in those whose buffer it would overfill. -/
theorem cardParts : Obligations.CardParts := ⟨cardAppends, cardOverflow⟩

end Sys2Proof.Claims
